-- ==== Sys2Proof/Word.lean ====
section
/-! DEFINITION. The word types of the Verene AQ90: bytes, the 32-bit vector-register word, the 64-bit
scalar-register word, the 128-bit register group and the 96-bit instruction word (R80, R84, R86). -/

namespace Sys2Proof

/-- One byte of memory. -/
abbrev Byte := BitVec 8

/-- One 32-bit vector register of one lane (R84). -/
abbrev Word := BitVec 32

/-- One 64-bit scalar register, command word, packet word or record (R86, R91). -/
abbrev DWord := BitVec 64

/-- A `.Q` register group (R86). -/
abbrev QWord := BitVec 128

/-- One Lanis instruction word (R80). -/
abbrev InstrWord := BitVec 96

end Sys2Proof
end

