-- ==== Sys2Proof/Syntax.lean ====
section
/-! DEFINITION. The syntax of the Verene AQ90's steps: one constructor of `Instr` per row of
spec/opcode_table.json. The first rows are Lanis instruction words (R80 to R109), each with its guard and
scheduling field; the other rows are the steps of engines, queues, links, host and hardware that the
table names (spec/95_what_each_step_holds.md), each with the data it arrives with. -/

namespace Sys2Proof

/-- The type codes of R103. -/
inductive Ty where
  | i32 | n32 | i64 | n64 | i16 | n16 | i8 | n8 | b32 | b64 | f32 | f16 | bf16 | e4m3 | e5m2 | d2p8
  deriving DecidableEq, Repr

/-- The rounding modes of R54. -/
inductive Rnd where
  | rn | rna | rz | rm | rp
  deriving DecidableEq, Repr

/-- The scopes of R103 and R195. -/
inductive Scope where
  | warp | team | coh | dev | sys
  deriving DecidableEq, Repr

/-- The memory orders of R103 and R192. -/
inductive Order where
  | rlx | acq | rel | ar | sc
  deriving DecidableEq, Repr

/-- How a register read is marked: not at all, `^` (last use) or `+` (keep) (R69, R87). -/
inductive Use where
  | plain | last | keep
  deriving DecidableEq, Repr

/-- A source operand (R84, R85): a vector register, a scalar register, a class 11 literal, or the
16-bit immediate of [39:24]. -/
inductive Src where
  | v (n : BitVec 8) (u : Use)
  | s (n : BitVec 8) (u : Use)
  | lit (x : BitVec 8)
  | imm (x : BitVec 16)
  deriving DecidableEq, Repr

/-- A destination operand (R84): vector register, scalar register, predicate, condition bit, discard. -/
inductive Dst where
  | v (n : BitVec 8)
  | s (n : BitVec 8)
  | p (i : BitVec 3)
  | c (i : BitVec 3)
  | disc
  deriving DecidableEq, Repr

/-- The guard field GRD (R81); `idx` 7 is PT or CT. -/
structure Guard where
  neg : Bool
  idx : BitVec 3
  deriving DecidableEq, Repr

/-- The scheduling field (R94), every field as its raw bits: its illegal values are faults of a word
with an active lane (R100), not of decoding. -/
structure Sched where
  stall : BitVec 4
  yld : Bool
  fin : Bool
  rgn : Bool
  wait : BitVec 6
  setw : BitVec 3
  setr : BitVec 3
  wcnt : BitVec 5
  deriving DecidableEq, Repr

/-- What every instruction word carries beside its operation: guard and scheduling field. -/
structure Ctl where
  g : Guard
  sch : Sched
  deriving DecidableEq, Repr

/-- The comparison codes of R125. -/
inductive Cmp where
  | eq | ne | lt | le | gt | ge | num | nan
  deriving DecidableEq, Repr

/-- The two-bit logic operations of PCOMB and CCOMB (R127). -/
inductive BitOp where
  | and | or | xor | andn
  deriving DecidableEq, Repr

/-- The modes of SHFL (R152). -/
inductive ShflMode where
  | idx | up | down | xor
  deriving DecidableEq, Repr

/-- The modes of QSWAP (R152). -/
inductive QswapMode where
  | h | v | d
  deriving DecidableEq, Repr

/-- The operations of VOTE (R154). -/
inductive VoteOp where
  | any | all | eq | ballot
  deriving DecidableEq, Repr

/-- The reduction operations of RDX, SCN and BARX (R156, R159). -/
inductive RedOp where
  | add | min | max | and | or | xor
  deriving DecidableEq, Repr

/-- The operations of ATOM and RED (R188). -/
inductive AtomOp where
  | add | min | max | and | or | xor | exch | inc | dec
  deriving DecidableEq, Repr

/-- The sizes of CAS (R190). -/
inductive CasTy where
  | n32 | n64 | b64pair
  deriving DecidableEq, Repr

/-- The key formats (R233, R240). -/
inductive KeyFmt where
  | ki32 | kn32 | ki64 | kn64 | kf32 | kc128
  deriving DecidableEq, Repr

/-- The formats of FRND (R146). -/
inductive FrndFmt where
  | f32 | f16 | bf16
  deriving DecidableEq, Repr

/-! ### Operand structures of the instruction words -/

/-- MOV (R121). -/
structure MovOp where
  ty : Ty
  dst : Dst
  a : Src
  deriving DecidableEq, Repr

/-- MOV from a queue register E0 to E7 or E12 to E15 (R124). -/
structure QPopOp where
  e : BitVec 4
  dst : Dst
  deriving DecidableEq, Repr

/-- MOV to a feed register E8 to E11 (R124). -/
structure QPushOp where
  e : BitVec 4
  a : Src
  deriving DecidableEq, Repr

/-- MOVI (R122). -/
structure MoviOp where
  ty : Ty
  dst : Dst
  imm : BitVec 28
  deriving DecidableEq, Repr

/-- One-source integer instructions (R114). -/
structure Int1 where
  ty : Ty
  sat : Bool
  dst : Dst
  a : Src
  deriving DecidableEq, Repr

/-- Two-source integer instructions (R114). -/
structure Int2 where
  ty : Ty
  sat : Bool
  dst : Dst
  a : Src
  b : Src
  deriving DecidableEq, Repr

/-- Three-source integer instructions (R114, R116, R118, R120). -/
structure Int3 where
  ty : Ty
  sat : Bool
  dst : Dst
  a : Src
  b : Src
  c : Src
  deriving DecidableEq, Repr

/-- SEL (R117); `pi` is a P index in the vector form, a C index in the scalar form. -/
structure SelOp where
  ty : Ty
  dst : Dst
  a : Src
  b : Src
  neg : Bool
  pi : BitVec 3
  deriving DecidableEq, Repr

/-- LEA (R119). -/
structure LeaOp where
  ty : Ty
  dst : Dst
  a : Src
  b : Src
  sh : BitVec 4
  deriving DecidableEq, Repr

/-- Two-source FP32 instructions (R141, R142). -/
structure F2 where
  rnd : Rnd
  sat : Bool
  ftz : Bool
  dst : Dst
  a : Src
  b : Src
  deriving DecidableEq, Repr

/-- Three-source FP32 instructions (R141, R142). -/
structure F3 where
  rnd : Rnd
  sat : Bool
  ftz : Bool
  dst : Dst
  a : Src
  b : Src
  c : Src
  deriving DecidableEq, Repr

/-- Two-source packed instructions (R144); `bf` selects BF16. -/
structure H2 where
  bf : Bool
  rnd : Rnd
  sat : Bool
  ftz : Bool
  dst : Dst
  a : Src
  b : Src
  deriving DecidableEq, Repr

/-- Three-source packed instructions (R144). -/
structure H3 where
  bf : Bool
  rnd : Rnd
  sat : Bool
  ftz : Bool
  dst : Dst
  a : Src
  b : Src
  c : Src
  deriving DecidableEq, Repr

/-- CVT (R145). -/
structure CvtOp where
  dt : Ty
  st : Ty
  rnd : Rnd
  sat : Bool
  ftz : Bool
  dst : Dst
  a : Src
  deriving DecidableEq, Repr

/-- FRND (R146). -/
structure FrndOp where
  fmt : FrndFmt
  rnd : Rnd
  ftz : Bool
  dst : Dst
  a : Src
  deriving DecidableEq, Repr

/-- Special functions (R147). -/
structure SfuOp where
  f16 : Bool
  ftz : Bool
  dst : Dst
  a : Src
  deriving DecidableEq, Repr

/-- RAND (R150). -/
structure RandOp where
  ty : Ty
  dst : Dst
  a : Src
  b : Src
  deriving DecidableEq, Repr

/-- CSAMP (R151). -/
structure CsampOp where
  dst : Dst
  a : Src
  b : Src
  deriving DecidableEq, Repr

/-- SHFL (R152). -/
structure ShflOp where
  mode : ShflMode
  dst : Dst
  a : Src
  b : Src
  pv : BitVec 3
  deriving DecidableEq, Repr

/-- PSWAP (R152). -/
structure PswapOp where
  dst : Dst
  a : Src
  pv : BitVec 3
  deriving DecidableEq, Repr

/-- QSWAP (R152). -/
structure QswapOp where
  mode : QswapMode
  dst : Dst
  a : Src
  pv : BitVec 3
  deriving DecidableEq, Repr

/-- QBCAST (R152). -/
structure QbcastOp where
  dst : Dst
  a : Src
  n : Src
  pv : BitVec 3
  deriving DecidableEq, Repr

/-- VOTE (R154). -/
structure VoteO where
  op : VoteOp
  dst : Dst
  px : BitVec 3
  deriving DecidableEq, Repr

/-- MATCH (R154). -/
structure MatchOp where
  ty : Ty
  dst : Dst
  a : Src
  deriving DecidableEq, Repr

/-- RDX (R155, R156). -/
structure RdxOp where
  op : RedOp
  ty : Ty
  rnd : Rnd
  dst : Dst
  a : Src
  pm : BitVec 3
  deriving DecidableEq, Repr

/-- SCN (R155, R156); `st` is the second destination. -/
structure ScnOp where
  op : RedOp
  ty : Ty
  rnd : Rnd
  dst : Dst
  a : Src
  st : Dst
  pm : BitVec 3
  deriving DecidableEq, Repr

/-- ELECT (R154); `sd` is an S register or the discard. -/
structure ElectOp where
  pd : BitVec 3
  sd : Dst
  deriving DecidableEq, Repr

/-- ITEST (R125, R126). -/
structure ItestOp where
  ty : Ty
  cmp : Cmp
  dst : Dst
  a : Src
  b : Src
  deriving DecidableEq, Repr

/-- FTEST (R125, R126). -/
structure FtestOp where
  cmp : Cmp
  dst : Dst
  a : Src
  b : Src
  deriving DecidableEq, Repr

/-- HTEST2 (R126); `e` is the second destination, of the kind of `dst`. -/
structure Htest2Op where
  bf : Bool
  cmp : Cmp
  dst : Dst
  e : BitVec 3
  a : Src
  b : Src
  deriving DecidableEq, Repr

/-- PCOMB and CCOMB (R127). -/
structure CombOp where
  op : BitOp
  d : BitVec 3
  x : BitVec 3
  y : BitVec 3
  deriving DecidableEq, Repr

/-- CSET and S2P (R128). -/
structure BitSrcOp where
  d : BitVec 3
  a : Src
  deriving DecidableEq, Repr

/-- P2S (R128). -/
structure P2sOp where
  sd : BitVec 8
  px : BitVec 3
  deriving DecidableEq, Repr

/-- BRA (R129). -/
structure BraOp where
  imm : BitVec 28
  deriving DecidableEq, Repr

/-- BRU with a direct target (R129). -/
structure BruLabelOp where
  px : BitVec 3
  imm : BitVec 28
  deriving DecidableEq, Repr

/-- BRU with a register target (R129). -/
structure BruRegOp where
  px : BitVec 3
  t : Src
  deriving DecidableEq, Repr

/-- BRX and RET (R129). -/
structure TargetOp where
  t : Src
  deriving DecidableEq, Repr

/-- CALL (R129). -/
structure CallOp where
  ret : Dst
  imm : BitVec 28
  deriving DecidableEq, Repr

/-- CALLX (R129). -/
structure CallxOp where
  ret : Dst
  t : Src
  deriving DecidableEq, Repr

/-- LD (R180, R183). -/
structure LdOp where
  ty : Ty
  sc : Scope
  ord : Order
  rc : BitVec 3
  off : BitVec 10
  dst : Dst
  addr : Src
  deriving DecidableEq, Repr

/-- ST (R180, R184). -/
structure StOp where
  ty : Ty
  sc : Scope
  ord : Order
  rc : BitVec 3
  off : BitVec 10
  addr : Src
  data : Src
  deriving DecidableEq, Repr

/-- ST.CB (R180, R185). -/
structure StCbOp where
  ty : Ty
  sc : Scope
  addr : Src
  data : Src
  cb : Src
  deriving DecidableEq, Repr

/-- PRF (R180, R186). -/
structure PrfOp where
  ty : Ty
  sc : Scope
  rc : BitVec 3
  off : BitVec 10
  addr : Src
  deriving DecidableEq, Repr

/-- CLEAN, INVAL, CLINV and DROP (R180, R187). -/
structure MaintOp where
  sc : Scope
  addr : Src
  len : Src
  deriving DecidableEq, Repr

/-- ATOM (R180, R188). -/
structure AtomO where
  op : AtomOp
  ty : Ty
  sc : Scope
  ord : Order
  dst : Dst
  addr : Src
  b : Src
  deriving DecidableEq, Repr

/-- RED (R180, R188). -/
structure RedO where
  op : AtomOp
  ty : Ty
  sc : Scope
  ord : Order
  addr : Src
  b : Src
  deriving DecidableEq, Repr

/-- CAS (R190, R194). -/
structure CasOp where
  ct : CasTy
  sc : Scope
  ord : Order
  dst : BitVec 8
  addr : Src
  cv : Src
  nv : Src
  ps : BitVec 3
  deriving DecidableEq, Repr

/-- FENCE (R204). -/
structure FenceOp where
  sc : Scope
  ord : Order
  deriving DecidableEq, Repr

/-- TLOOK, TINS and TDEL (R241). -/
structure TKeyOp where
  kf : KeyFmt
  dst : Dst
  key : Src
  id : Src
  deriving DecidableEq, Repr

/-- TSEEK (R241). -/
structure TSeekOp where
  kf : KeyFmt
  bnd : Bool
  dst : Dst
  key : Src
  id : Src
  k : BitVec 3
  deriving DecidableEq, Repr

/-- TNEXT and TPREV (R241). -/
structure TStepOp where
  dst : Dst
  k : BitVec 3
  deriving DecidableEq, Repr

/-- TCLOSE (R241). -/
structure TCloseOp where
  k : BitVec 3
  deriving DecidableEq, Repr

/-- TREKEY (R241). -/
structure TRekeyOp where
  kf : KeyFmt
  dst : Dst
  key : Src
  id : Src
  new : Src
  deriving DecidableEq, Repr

/-- TADD (R241, R261). -/
structure TAddOp where
  q : Bool
  addr : Src
  val : Src
  off : BitVec 10
  deriving DecidableEq, Repr

/-- TPIN, TSTAT and TCOUNT (R241). -/
structure TIdOp where
  dst : Dst
  id : Src
  deriving DecidableEq, Repr

/-- TUNPIN (R241). -/
structure TUnpinOp where
  dst : Dst
  ver : Src
  id : Src
  deriving DecidableEq, Repr

/-- TSWAP (R241). -/
structure TSwapOp where
  dst : Dst
  e : Src
  id : Src
  st : Src
  deriving DecidableEq, Repr

/-- TROW (R241). -/
structure TRowOp where
  kf : KeyFmt
  dst : Dst
  n : Src
  id : Src
  deriving DecidableEq, Repr

/-- PUSH (R310). -/
structure PushOp where
  q : BitVec 3
  cd : BitVec 3
  sb : BitVec 8
  deriving DecidableEq, Repr

/-- Instructions whose one operand is a mask or an index: WAITANY, WAITALL, TAGCLR, TAGSET, BAR, SYNCM,
PSYNC, NAP Sn and LEASE n (R129, R159, R310, R342). -/
structure MaskOp where
  m : Src
  deriving DecidableEq, Repr

/-- FFR (R310). -/
structure FfrOp where
  sd : BitVec 8
  m : Src
  deriving DecidableEq, Repr

/-- Instructions whose one operand is a 16-bit immediate: NAP n, LEASE n, TRAP n and BKPT n. -/
structure Imm16Op where
  n : BitVec 16
  deriving DecidableEq, Repr

/-- BARX (R159, R161). -/
structure BarxOp where
  op : RedOp
  ty : Ty
  dst : Dst
  a : Src
  n : Src
  deriving DecidableEq, Repr

/-- CBARM (R384). -/
structure CbarmOp where
  a : BitVec 8
  t : Src
  deriving DecidableEq, Repr

/-- CBWAIT (R384). -/
structure CbwaitOp where
  cd : BitVec 3
  a : BitVec 8
  n : Src
  deriving DecidableEq, Repr

/-- REGRP (R298). -/
structure RegrpOp where
  core : Bool
  vk : BitVec 8
  vl : BitVec 8
  sl : BitVec 8
  n : BitVec 6
  m : BitVec 5
  deriving DecidableEq, Repr

/-- REGRPB (R298). -/
structure RegrpbOp where
  vl : BitVec 8
  sl : BitVec 8
  n : BitVec 6
  m : BitVec 5
  deriving DecidableEq, Repr

/-- PMODE.PRESS and PMODE.CACHE (R342). -/
structure PmodeOp where
  m : Src
  t : BitVec 6
  deriving DecidableEq, Repr

/-- PXIN and PXOUT (R342): S registers holding the vector, the address and the count. -/
structure PxferOp where
  d : BitVec 8
  a : BitVec 8
  n : BitVec 8
  deriving DecidableEq, Repr

/-- PADD, PSUB, PMUL, PAND, POR and PXOR (R342); `k` says that `b` is a constant. -/
structure Press2 where
  sgn : Bool
  k : Bool
  d : BitVec 8
  a : BitVec 8
  b : Src
  deriving DecidableEq, Repr

/-- PNOT and PCNT (R342). -/
structure Press1 where
  d : BitVec 8
  a : BitVec 8
  deriving DecidableEq, Repr

/-- PCMP (R342). -/
structure PcmpOp where
  cmp : Cmp
  sgn : Bool
  k : Bool
  d : BitVec 8
  a : BitVec 8
  b : Src
  deriving DecidableEq, Repr

/-- PSEL (R342). -/
structure PselOp where
  d : BitVec 8
  a : BitVec 8
  b : BitVec 8
  m : BitVec 8
  deriving DecidableEq, Repr

/-- PSAT (R342). -/
structure PsatOp where
  sgn : Bool
  d : BitVec 8
  a : BitVec 8
  lo : Src
  hi : Src
  deriving DecidableEq, Repr

/-- PSHL and PSHR (R342). -/
structure PshiftOp where
  sgn : Bool
  d : BitVec 8
  a : BitVec 8
  n : Src
  deriving DecidableEq, Repr

/-- MOVS (R288, R290): `r` is the class 10 index read, 0 to 7 or a special register. -/
structure MovsOp where
  dst : Dst
  r : BitVec 8
  deriving DecidableEq, Repr

/-- MOVW WST (R288, R291). -/
structure MovwOp where
  a : Src
  deriving DecidableEq, Repr

/-- STOPCHK (R288, R295). -/
structure StopchkOp where
  cd : BitVec 3
  deriving DecidableEq, Repr

/-- MARK (R288, R296). -/
structure MarkOp where
  n : BitVec 16
  a : Src
  deriving DecidableEq, Repr

/-! ### Data that events arrive with -/

/-- A 64-byte packet as it lies in a ring slot (R268, R369), with the interface that fetched it (0 to 7
for QI0 to QI7, 8 for the admin interface), its ring index, the PASID of its doorbell and, where the
request names one, the descriptor image read from host memory (R370). -/
structure Packet where
  iface : Nat
  index : Nat
  pasid : BitVec 20
  w : List DWord
  image : List DWord
  deriving DecidableEq, Repr

/-- A Verene Link flit (R378), its header fields pulled out, with the port it arrives on or leaves by, the status of an answer, and the
sectors of its line whose bytes are poisoned (R405). -/
structure Flit where
  port : Nat
  kind : BitVec 8
  src : BitVec 6
  dst : BitVec 6
  id : BitVec 12
  len : BitVec 8
  op : BitVec 4
  typ : BitVec 4
  grp : BitVec 8
  chunk : BitVec 4
  off : BitVec 42
  red : BitVec 2
  h2 : DWord
  crc : DWord
  status : BitVec 8
  poison : BitVec 4
  payload : List Byte
  deriving DecidableEq, Repr

/-- A cache line: a module physical line number, or a host physical line number (R15, R226). -/
inductive LineId where
  | dev (n : Nat)
  | host (n : Nat)
  deriving DecidableEq, Repr

/-- Data of the host on a link, with the sectors of their line that carry poison (R405). -/
structure CxlData where
  bytes : List Byte
  poison : BitVec 4
  deriving DecidableEq, Repr

/-- Where an uncorrectable error strikes (R404). -/
inductive ErrSite where
  | dram (sector : Nat)
  | link (port : Nat)
  | cellar (line : LineId) (sector : Nat)
  | l1 (core : Nat) (line : LineId) (sector : Nat)
  | scratch (core slot sector : Nat)
  | opbuf (core sector : Nat)
  | tags (line : LineId)
  | vreg (core slot lane reg : Nat)
  | sreg (core slot reg : Nat)
  | tlb (core ctx page : Nat)
  | cxl
  deriving DecidableEq, Repr

/-- The device pages in the function's memory space whose registers take plain writes (R369, R387, R400). -/
inductive Page where
  | notify (iface : Nat)
  | trace
  | status
  deriving DecidableEq, Repr

/-- How a stage of R399 ends: it passes; link training finds ports without a partner, which are marked down; or it fails, at a
die, channel or port. -/
inductive StageResult where
  | passed
  | down (ports : BitVec 16)
  | failed (unit : Nat)
  deriving DecidableEq, Repr

/-- A firmware image (R401): the fields of its header, its body, the signature. -/
structure Firmware where
  length : Nat
  slot : Nat
  svn : DWord
  minsvn : DWord
  body : List Byte
  signature : BitVec 512
  deriving DecidableEq, Repr

/-- The steps of the Verene AQ90, one constructor per row of spec/opcode_table.json, those that come
from outside the module last. -/
inductive Instr where
  /-- NOP (R123). -/
  | nop (c : Ctl)
  /-- MOV (R121). -/
  | mov (c : Ctl) (o : MovOp)
  /-- MOV_QUEUE_POP (R124). -/
  | movQueuePop (c : Ctl) (o : QPopOp)
  /-- MOV_QUEUE_PUSH (R124). -/
  | movQueuePush (c : Ctl) (o : QPushOp)
  /-- MOVI (R122). -/
  | movi (c : Ctl) (o : MoviOp)
  /-- IADD (R114). -/
  | iadd (c : Ctl) (o : Int2)
  /-- ISUB (R114). -/
  | isub (c : Ctl) (o : Int2)
  /-- IMUL (R114). -/
  | imul (c : Ctl) (o : Int2)
  /-- IMULH (R114). -/
  | imulh (c : Ctl) (o : Int2)
  /-- IMAD (R114). -/
  | imad (c : Ctl) (o : Int3)
  /-- IMADW (R118). -/
  | imadw (c : Ctl) (o : Int3)
  /-- IMIN (R114). -/
  | imin (c : Ctl) (o : Int2)
  /-- IMAX (R114). -/
  | imax (c : Ctl) (o : Int2)
  /-- IABS (R114). -/
  | iabs (c : Ctl) (o : Int1)
  /-- AND (R114). -/
  | iand (c : Ctl) (o : Int2)
  /-- OR (R114). -/
  | ior (c : Ctl) (o : Int2)
  /-- XOR (R114). -/
  | ixor (c : Ctl) (o : Int2)
  /-- NOT (R114). -/
  | inot (c : Ctl) (o : Int1)
  /-- SHL (R115). -/
  | shl (c : Ctl) (o : Int2)
  /-- SHR (R115). -/
  | shr (c : Ctl) (o : Int2)
  /-- SAR (R115). -/
  | sar (c : Ctl) (o : Int2)
  /-- ROL (R115). -/
  | rol (c : Ctl) (o : Int2)
  /-- BFE (R116). -/
  | bfe (c : Ctl) (o : Int2)
  /-- BFI (R116). -/
  | bfi (c : Ctl) (o : Int3)
  /-- POPC (R114). -/
  | popc (c : Ctl) (o : Int1)
  /-- CLZ (R114). -/
  | clz (c : Ctl) (o : Int1)
  /-- BREV (R114). -/
  | brev (c : Ctl) (o : Int1)
  /-- SEL (R117). -/
  | sel (c : Ctl) (o : SelOp)
  /-- LEA (R119). -/
  | lea (c : Ctl) (o : LeaOp)
  /-- BPICK (R120). -/
  | bpick (c : Ctl) (o : Int3)
  /-- FADD (R142). -/
  | fadd (c : Ctl) (o : F2)
  /-- FSUB (R142). -/
  | fsub (c : Ctl) (o : F2)
  /-- FMUL (R142). -/
  | fmul (c : Ctl) (o : F2)
  /-- FFMA (R142). -/
  | ffma (c : Ctl) (o : F3)
  /-- FMIN (R143). -/
  | fmin (c : Ctl) (o : F2)
  /-- FMAX (R143). -/
  | fmax (c : Ctl) (o : F2)
  /-- FCLAMP (R143). -/
  | fclamp (c : Ctl) (o : F3)
  /-- FSCALE (R142). -/
  | fscale (c : Ctl) (o : F2)
  /-- HADD2 (R144). -/
  | hadd2 (c : Ctl) (o : H2)
  /-- HSUB2 (R144). -/
  | hsub2 (c : Ctl) (o : H2)
  /-- HMUL2 (R144). -/
  | hmul2 (c : Ctl) (o : H2)
  /-- HFMA2 (R144). -/
  | hfma2 (c : Ctl) (o : H3)
  /-- HMIN2 (R144). -/
  | hmin2 (c : Ctl) (o : H2)
  /-- HMAX2 (R144). -/
  | hmax2 (c : Ctl) (o : H2)
  /-- HDOT2 (R144). -/
  | hdot2 (c : Ctl) (o : H3)
  /-- CVT (R145). -/
  | cvt (c : Ctl) (o : CvtOp)
  /-- FRND (R146). -/
  | frnd (c : Ctl) (o : FrndOp)
  /-- RCP (R148). -/
  | rcp (c : Ctl) (o : SfuOp)
  /-- RSQ (R148). -/
  | rsq (c : Ctl) (o : SfuOp)
  /-- SQRT (R148). -/
  | sqrt (c : Ctl) (o : SfuOp)
  /-- EX2 (R148). -/
  | ex2 (c : Ctl) (o : SfuOp)
  /-- LG2 (R148). -/
  | lg2 (c : Ctl) (o : SfuOp)
  /-- SIN (R148). -/
  | sin (c : Ctl) (o : SfuOp)
  /-- COS (R148). -/
  | cos (c : Ctl) (o : SfuOp)
  /-- SINCOS (R149). -/
  | sincos (c : Ctl) (o : SfuOp)
  /-- TANH (R148). -/
  | tanh (c : Ctl) (o : SfuOp)
  /-- SIGM (R148). -/
  | sigm (c : Ctl) (o : SfuOp)
  /-- RAND (R150). -/
  | rand (c : Ctl) (o : RandOp)
  /-- CSAMP (R151). -/
  | csamp (c : Ctl) (o : CsampOp)
  /-- SHFL (R153). -/
  | shfl (c : Ctl) (o : ShflOp)
  /-- PSWAP (R153). -/
  | pswap (c : Ctl) (o : PswapOp)
  /-- QSWAP (R153). -/
  | qswap (c : Ctl) (o : QswapOp)
  /-- QBCAST (R153). -/
  | qbcast (c : Ctl) (o : QbcastOp)
  /-- VOTE (R154). -/
  | vote (c : Ctl) (o : VoteO)
  /-- MATCH (R154). -/
  | matchLanes (c : Ctl) (o : MatchOp)
  /-- RDX (R155). -/
  | rdx (c : Ctl) (o : RdxOp)
  /-- SCN (R155). -/
  | scn (c : Ctl) (o : ScnOp)
  /-- ELECT (R154). -/
  | elect (c : Ctl) (o : ElectOp)
  /-- ITEST (R126). -/
  | itest (c : Ctl) (o : ItestOp)
  /-- FTEST (R126). -/
  | ftest (c : Ctl) (o : FtestOp)
  /-- HTEST2 (R126). -/
  | htest2 (c : Ctl) (o : Htest2Op)
  /-- PCOMB (R127). -/
  | pcomb (c : Ctl) (o : CombOp)
  /-- CSET (R128). -/
  | cset (c : Ctl) (o : BitSrcOp)
  /-- CCOMB (R127). -/
  | ccomb (c : Ctl) (o : CombOp)
  /-- P2S (R128). -/
  | p2s (c : Ctl) (o : P2sOp)
  /-- S2P (R128). -/
  | s2p (c : Ctl) (o : BitSrcOp)
  /-- BRA (R131). -/
  | bra (c : Ctl) (o : BraOp)
  /-- BRU_LABEL (R132). -/
  | bruLabel (c : Ctl) (o : BruLabelOp)
  /-- BRU_REGISTER (R132). -/
  | bruRegister (c : Ctl) (o : BruRegOp)
  /-- BRX (R133). -/
  | brx (c : Ctl) (o : TargetOp)
  /-- CALL (R134). -/
  | call (c : Ctl) (o : CallOp)
  /-- CALLX (R134). -/
  | callx (c : Ctl) (o : CallxOp)
  /-- RET (R134). -/
  | ret (c : Ctl) (o : TargetOp)
  /-- EXIT (R136). -/
  | exit (c : Ctl)
  /-- NAP_IMMEDIATE (R137). -/
  | napImmediate (c : Ctl) (o : Imm16Op)
  /-- NAP_REGISTER (R137). -/
  | napRegister (c : Ctl) (o : MaskOp)
  /-- NAP_END (R137). -/
  | napEnd (core : Nat) (slot : Nat)
  /-- LD (R183). -/
  | ld (c : Ctl) (o : LdOp)
  /-- ST (R184). -/
  | st (c : Ctl) (o : StOp)
  /-- ST_CB (R185). -/
  | stCb (c : Ctl) (o : StCbOp)
  /-- PRF (R186). -/
  | prf (c : Ctl) (o : PrfOp)
  /-- CLEAN (R187). -/
  | clean (c : Ctl) (o : MaintOp)
  /-- INVAL (R187). -/
  | inval (c : Ctl) (o : MaintOp)
  /-- CLINV (R187). -/
  | clinv (c : Ctl) (o : MaintOp)
  /-- DROP (R187). -/
  | drop (c : Ctl) (o : MaintOp)
  /-- ATOM (R189). -/
  | atom (c : Ctl) (o : AtomO)
  /-- RED (R189). -/
  | red (c : Ctl) (o : RedO)
  /-- CAS (R190). -/
  | cas (c : Ctl) (o : CasOp)
  /-- FENCE (R206). -/
  | fence (c : Ctl) (o : FenceOp)
  /-- FENCE_COMPLETION (R206). -/
  | fenceCompletion (core : Nat) (slot : Nat)
  /-- FENCE_SC_COMPLETION (R208). -/
  | fenceScCompletion (core : Nat) (slot : Nat)
  /-- OPFENCE (R210). -/
  | opfence (c : Ctl)
  /-- OPFENCE_COMPLETION (R210). -/
  | opfenceCompletion (core : Nat) (slot : Nat)
  /-- TLOOK (R243). -/
  | tlook (c : Ctl) (o : TKeyOp)
  /-- TSEEK (R246). -/
  | tseek (c : Ctl) (o : TSeekOp)
  /-- TNEXT (R247). -/
  | tnext (c : Ctl) (o : TStepOp)
  /-- TPREV (R247). -/
  | tprev (c : Ctl) (o : TStepOp)
  /-- TCLOSE (R249). -/
  | tclose (c : Ctl) (o : TCloseOp)
  /-- TINS (R250). -/
  | tins (c : Ctl) (o : TKeyOp)
  /-- TDEL (R251). -/
  | tdel (c : Ctl) (o : TKeyOp)
  /-- TREKEY (R252). -/
  | trekey (c : Ctl) (o : TRekeyOp)
  /-- TADD (R261). -/
  | tadd (c : Ctl) (o : TAddOp)
  /-- TPIN (R255). -/
  | tpin (c : Ctl) (o : TIdOp)
  /-- TUNPIN (R255). -/
  | tunpin (c : Ctl) (o : TUnpinOp)
  /-- TSWAP (R256). -/
  | tswap (c : Ctl) (o : TSwapOp)
  /-- TSTAT (R258). -/
  | tstat (c : Ctl) (o : TIdOp)
  /-- TCOUNT (R259). -/
  | tcount (c : Ctl) (o : TIdOp)
  /-- TROW (R244). -/
  | trow (c : Ctl) (o : TRowOp)
  /-- PUSH (R311). -/
  | push (c : Ctl) (o : PushOp)
  /-- PUSH_PLACE_FREED (R311). -/
  | pushPlaceFreed (core : Nat) (slot : Nat)
  /-- WAITANY (R316). -/
  | waitany (c : Ctl) (o : MaskOp)
  /-- WAITALL (R316). -/
  | waitall (c : Ctl) (o : MaskOp)
  /-- TAG_WAIT_WAKEUP (R316). -/
  | tagWaitWakeup (core : Nat) (slot : Nat)
  /-- FFR (R316). -/
  | ffr (c : Ctl) (o : FfrOp)
  /-- TAGCLR (R317). -/
  | tagclr (c : Ctl) (o : MaskOp)
  /-- TAGSET (R317). -/
  | tagset (c : Ctl) (o : MaskOp)
  /-- LEASE_REGISTER (R329). -/
  | leaseRegister (c : Ctl) (o : MaskOp)
  /-- LEASE_IMMEDIATE (R329). -/
  | leaseImmediate (c : Ctl) (o : Imm16Op)
  /-- UNLEASE (R329). -/
  | unlease (c : Ctl)
  /-- BAR (R160). -/
  | bar (c : Ctl) (o : MaskOp)
  /-- BARX (R161). -/
  | barx (c : Ctl) (o : BarxOp)
  /-- SYNCM (R162). -/
  | syncm (c : Ctl) (o : MaskOp)
  /-- CBARM (R385). -/
  | cbarm (c : Ctl) (o : CbarmOp)
  /-- CBWAIT (R386). -/
  | cbwait (c : Ctl) (o : CbwaitOp)
  /-- CBWAIT_SATISFIED (R386). -/
  | cbwaitSatisfied (core : Nat) (slot : Nat)
  /-- CBWAIT_TIMEOUT (R386). -/
  | cbwaitTimeout (core : Nat) (slot : Nat)
  /-- REGRP (R299). -/
  | regrp (c : Ctl) (o : RegrpOp)
  /-- REGRPB (R304). -/
  | regrpb (c : Ctl) (o : RegrpbOp)
  /-- REGRP_ARRIVAL (R299). -/
  | regrpArrival (core : Nat) (slot : Nat)
  /-- RELOCATION_COMPLETION (R302). -/
  | relocationCompletion (dom : Nat) (err : Option (Nat × Nat))
  /-- PMODE_PRESS (R340). -/
  | pmodePress (c : Ctl) (o : PmodeOp)
  /-- PMODE_CACHE (R340). -/
  | pmodeCache (c : Ctl) (o : PmodeOp)
  /-- PRESS_ENTRY_COMPLETION (R340). -/
  | pressEntryCompletion (bin : Nat)
  /-- PRESS_DRAIN_COMPLETION (R340). -/
  | pressDrainCompletion (bin : Nat)
  /-- PXIN (R346). -/
  | pxin (c : Ctl) (o : PxferOp)
  /-- PXOUT (R346). -/
  | pxout (c : Ctl) (o : PxferOp)
  /-- PADD (R344). -/
  | padd (c : Ctl) (o : Press2)
  /-- PSUB (R344). -/
  | psub (c : Ctl) (o : Press2)
  /-- PMUL (R344). -/
  | pmul (c : Ctl) (o : Press2)
  /-- PAND (R344). -/
  | pand (c : Ctl) (o : Press2)
  /-- POR (R344). -/
  | por (c : Ctl) (o : Press2)
  /-- PXOR (R344). -/
  | pxor (c : Ctl) (o : Press2)
  /-- PNOT (R344). -/
  | pnot (c : Ctl) (o : Press1)
  /-- PCMP (R344). -/
  | pcmp (c : Ctl) (o : PcmpOp)
  /-- PSEL (R344). -/
  | psel (c : Ctl) (o : PselOp)
  /-- PSAT (R344). -/
  | psat (c : Ctl) (o : PsatOp)
  /-- PCNT (R344). -/
  | pcnt (c : Ctl) (o : Press1)
  /-- PSHL (R344). -/
  | pshl (c : Ctl) (o : PshiftOp)
  /-- PSHR (R344). -/
  | pshr (c : Ctl) (o : PshiftOp)
  /-- PRESS_ACCEPTANCE (R343). -/
  | pressAcceptance (core : Nat) (slot : Nat)
  /-- PRESS_OPERATION_COMPLETION (R343). -/
  | pressOperationCompletion (bin : Nat)
  /-- PSYNC (R347). -/
  | psync (c : Ctl) (o : MaskOp)
  /-- PSYNC_COMPLETION (R347). -/
  | psyncCompletion (core : Nat) (slot : Nat)
  /-- TRAP (R289). -/
  | trap (c : Ctl) (o : Imm16Op)
  /-- ERET (R292). -/
  | eret (c : Ctl)
  /-- MOVS (R290). -/
  | movs (c : Ctl) (o : MovsOp)
  /-- MOVW (R291). -/
  | movw (c : Ctl) (o : MovwOp)
  /-- BKPT (R293). -/
  | bkpt (c : Ctl) (o : Imm16Op)
  /-- ILLEG (R294). -/
  | illeg (c : Ctl) (raw : BitVec 58)
  /-- STOPCHK (R295). -/
  | stopchk (c : Ctl) (o : StopchkOp)
  /-- MARK (R296). -/
  | mark (c : Ctl) (o : MarkOp)
  /-- RUN_ISSUE (R274). -/
  | runIssue (core : Nat) (islot : Nat)
  /-- WRITE_BACK (R96). -/
  | writeBack (core : Nat) (slot : Nat) (id : Nat)
  /-- QUEUE_ACCESS_UNBLOCK (R91). -/
  | queueAccessUnblock (core : Nat) (slot : Nat)
  /-- TLB_WALK_COMPLETION (R176). -/
  | tlbWalkCompletion (die : Nat) (ctx : Nat) (page : Nat)
  /-- HOME_REQUEST (R224). -/
  | homeRequest (slice : Nat)
  /-- FREQUENCY_AGEING (R260). -/
  | frequencyAgeing (slice : Nat)
  /-- ATS_INVALIDATE_REQUEST (R377). -/
  | atsInvalidateRequest (pasid : Nat) (page : Nat) (pages : Nat)
  /-- GEMM (R326). -/
  | gemm (core : Nat) (seq : Nat)
  /-- TILE_BOUNDARY (R331). -/
  | tileBoundary (core : Nat)
  /-- RESERVE (R320). -/
  | reserve (core : Nat) (seq : Nat)
  /-- LOADB (R322). -/
  | loadb (core : Nat) (seq : Nat)
  /-- RELEASE (R323). -/
  | release (core : Nat) (seq : Nat)
  /-- COPY_NONE (R333). -/
  | copyNone (core : Nat) (seq : Nat)
  /-- COPY_SCALE (R333). -/
  | copyScale (core : Nat) (seq : Nat)
  /-- COPY_ADD (R333). -/
  | copyAdd (core : Nat) (seq : Nat)
  /-- COPY_CAST (R333). -/
  | copyCast (core : Nat) (seq : Nat)
  /-- COPY_REDUCE (R333). -/
  | copyReduce (core : Nat) (seq : Nat)
  /-- ALL_GATHER (R335). -/
  | allGather (core : Nat) (seq : Nat)
  /-- REDUCE_SCATTER (R335). -/
  | reduceScatter (core : Nat) (seq : Nat)
  /-- ALL_REDUCE (R335). -/
  | allReduce (core : Nat) (seq : Nat)
  /-- CHUNK_COMPLETION (R335). -/
  | chunkCompletion (core : Nat) (seq : Nat) (chunk : Nat) (peers : List (List Byte))
  /-- BUILD (R336). -/
  | build (core : Nat) (seq : Nat)
  /-- LAUNCH (R337). -/
  | launch (core : Nat) (seq : Nat)
  /-- SETASIDE (R353). -/
  | setaside (core : Nat) (seq : Nat)
  /-- SETASIDE_EXPIRY (R354). -/
  | setasideExpiry (ch : Nat)
  /-- ATTEND (R359). -/
  | attend (core : Nat) (seq : Nat)
  /-- MAPINV (R366). -/
  | mapinv (core : Nat) (seq : Nat)
  /-- COMMAND_COMPLETION (R315). -/
  | commandCompletion (core : Nat) (q : Nat) (seq : Nat)
  /-- KERNEL (R269). -/
  | kernel (q : Nat) (idx : Nat)
  /-- WAIT (R271). -/
  | wait (q : Nat) (idx : Nat)
  /-- SIGNAL (R271). -/
  | signal (q : Nat) (idx : Nat)
  /-- PACKET_START (R271). -/
  | packetStart (q : Nat)
  /-- TEAM_PLACEMENT (R273). -/
  | teamPlacement (die : Nat)
  /-- TEAM_RETIREMENT (R44). -/
  | teamRetirement (grid : Nat) (team : Nat)
  /-- GRID_END (R46). -/
  | gridEnd (grid : Nat)
  /-- GRANT (R276). -/
  | grant (p : Packet)
  /-- STOP (R276). -/
  | stop (p : Packet)
  /-- STOP_DELIVERY (R277). -/
  | stopDelivery (id : Nat)
  /-- WARP_SAVE (R277). -/
  | warpSave (core : Nat) (slot : Nat)
  /-- DRAIN_END (R278). -/
  | drainEnd (id : Nat)
  /-- FAULTREPLY_RETRY (R283). -/
  | faultreplyRetry (p : Packet)
  /-- FAULTREPLY_DELIVER (R283). -/
  | faultreplyDeliver (p : Packet)
  /-- FAULTREPLY_ABORT (R283). -/
  | faultreplyAbort (p : Packet)
  /-- FAULTREPLY_REFUSED (R283). -/
  | faultreplyRefused (p : Packet)
  /-- CTXDESC (R266). -/
  | ctxdesc (p : Packet)
  /-- TABLEDESC (R233). -/
  | tabledesc (p : Packet)
  /-- TLBINV (R177). -/
  | tlbinv (p : Packet)
  /-- NCRANGE (R231). -/
  | ncrange (p : Packet)
  /-- DEDICATE (R352). -/
  | dedicate (p : Packet)
  /-- GROUP (R381). -/
  | group (p : Packet)
  /-- DOMAIN (R379). -/
  | domain (p : Packet)
  /-- QRESTART (R272). -/
  | qrestart (p : Packet)
  /-- PASID_GRANT (R375). -/
  | pasidGrant (p : Packet)
  /-- PASID_REVOKE (R375). -/
  | pasidRevoke (p : Packet)
  /-- DESTROY (R370). -/
  | destroy (p : Packet)
  /-- CLOCK (R371). -/
  | clock (p : Packet)
  /-- CLOCK_CHANGE (R18). -/
  | clockChange (die : Nat)
  /-- QBIND_BIND (R372). -/
  | qbindBind (p : Packet)
  /-- QBIND_UNBIND (R372). -/
  | qbindUnbind (p : Packet)
  /-- RINGCFG (R372). -/
  | ringcfg (p : Packet)
  /-- EVCTR_SET (R372). -/
  | evctrSet (p : Packet)
  /-- EVCTR_ADD (R372). -/
  | evctrAdd (p : Packet)
  /-- UNKNOWN_CONTROL_PACKET (R370). -/
  | unknownControlPacket (p : Packet)
  /-- HEARTBEAT_TICK (R20). -/
  | heartbeatTick
  /-- COUNTERS_LATCH (R391). -/
  | countersLatch
  /-- SYNC (R390). -/
  | sync (die : Nat)
  /-- DEBUG_STOP (R396). -/
  | debugStop (core : Nat) (slot : Nat)
  /-- AGO (R402). -/
  | ago (admin : Bool) (v : DWord)
  /-- HOST_SNOOP (R227). -/
  | hostSnoop (line : Nat) (half : Bool) (inval : Bool)
  /-- HOST_STORE_CXL_MEM (R229), with CXL poison (R405). -/
  | hostStoreCxlMem (pa : Nat) (bytes : CxlData)
  /-- BACK_INVALIDATE_REPLY (R229), with the line's poisoned sectors (R405). -/
  | backInvalidateReply (line : Nat) (dirty : Option CxlData)
  /-- ATOMICOP_COMPLETION (R191). -/
  | atomicopCompletion (id : Nat) (old : Option CxlData)
  /-- RDREQ (R380). -/
  | rdreq (f : Flit)
  /-- RDRSP (R378). -/
  | rdrsp (f : Flit)
  /-- WR (R380). -/
  | wr (f : Flit)
  /-- WRCB (R383). -/
  | wrcb (f : Flit)
  /-- ATOM_FLIT (R380). -/
  | atomFlit (f : Flit)
  /-- ATOMRSP (R378). -/
  | atomrsp (f : Flit)
  /-- WRACK (R380). -/
  | wrack (f : Flit)
  /-- RWRITE (R382). -/
  | rwrite (f : Flit)
  /-- CREDIT (R378). -/
  | credit (f : Flit)
  /-- UNKNOWN_FLIT (R378). -/
  | unknownFlit (f : Flit)
  /-- FLIT_CRC_RETRY (R378). -/
  | flitCrcRetry (f : Flit)
  /-- PORT_FAILURE (R380). -/
  | portFailure (port : Nat)
  /-- CDB (R369). -/
  | cdb (iface : Nat) (tail : DWord) (pasid : Option (BitVec 20)) (ps : List Packet)
  /-- LDB (R369). -/
  | ldb (iface : Nat) (ring : Nat) (tail : DWord) (pasid : Option (BitVec 20)) (ps : List Packet)
  /-- TRACE_CONTROL_WRITE (R387). -/
  | traceControlWrite (admin : Bool) (v : DWord)
  /-- DACC_ACCESS (R396). -/
  | daccAccess (admin : Bool) (v : DWord)
  /-- DEBUGGER_REQUEST (R397). -/
  | debuggerRequest (admin : Bool) (v : DWord)
  /-- RESUME (R396). -/
  | resume (admin : Bool) (v : DWord)
  /-- REGISTER_WRITE (R387). -/
  | registerWrite (admin : Bool) (page : Page) (off : Nat) (v : DWord)
  /-- RESET_RELEASE (R399). -/
  | resetRelease
  /-- SELF_TEST_STAGE_COMPLETION (R399). -/
  | selfTestStageCompletion (r : StageResult) (fw : Option Firmware)
  /-- ALARM (R403). -/
  | alarm
  /-- THERMAL_STEP_DOWN (R408). -/
  | thermalStepDown (die : Nat)
  /-- THERMAL_STEP_UP (R408). -/
  | thermalStepUp (die : Nat)
  /-- CORRECTABLE_ERROR (R404). -/
  | correctableError
  /-- UNCORRECTABLE_ERROR (R404). -/
  | uncorrectableError (e : ErrSite)
  /-- PATROL_SCRUB (R404). -/
  | patrolScrub (line : Nat)
  /-- HOST_READ_CXL_MEM (R229). -/
  | hostReadCxlMem (line : Nat)
  /-- ATS_TRANSLATION_COMPLETION (R377). -/
  | atsTranslationCompletion (die : Nat) (pasid : Nat) (page : Nat) (res : Option Nat)
  /-- HOST_READ_COMPLETION (R231), with the line's poisoned sectors (R405). -/
  | hostReadCompletion (id : Nat) (data : CxlData)
  deriving DecidableEq, Repr

end Sys2Proof
end

