-- ==== Sys2Proof/Config.lean ====
section
/-! DEFINITION. What the spec leaves to the part, and the free values: constants with no body, so that nothing can be
proved of what they are. The first argument of a free value is the counter `State.fresh`, which every use advances. -/

namespace Sys2Proof.Config

/-- A 32-bit word the spec does not fix. (DESIGN CHOICE, log 1) -/
opaque freeWord : Nat → BitVec 32

/-- A choice between two values the spec allows (R97: old or new). (DESIGN CHOICE, log 1) -/
opaque freeBool : Nat → Bool

/-- A choice among several things the spec leaves open (which free row TINS takes, R250). (DESIGN CHOICE, log 2) -/
opaque freeNat : Nat → Nat

/-- What the hardware's special-function unit answers for function `f` (0 RCP to 9 SIGM) on the given operand (R148). It is
used only where it lies within the bound of R148. (DESIGN CHOICE, log 3) -/
opaque sfu32 : Nat → BitVec 32 → BitVec 32

/-- As `sfu32`, for the FP16 forms. (DESIGN CHOICE, log 3) -/
opaque sfu16 : Nat → BitVec 16 → BitVec 16

/-- The SHA-512 digest (R401, R402), named by the spec and defined outside it. (DESIGN CHOICE, log 4) -/
opaque sha512 : List (BitVec 8) → BitVec 512

/-- Whether an Ed25519 signature verifies under the key of a slot (R401; RFC 8032, defined outside the spec).
(DESIGN CHOICE, log 4) -/
opaque ed25519Verify : Nat → List (BitVec 8) → BitVec 512 → Bool

/-- The Ed25519 signature by the module's identity key (R402). (DESIGN CHOICE, log 4) -/
opaque ed25519Sign : List (BitVec 8) → BitVec 512

/-- The CRC of a flit, over its header words H0 to H2 and its payload (R378); the spec gives no polynomial. (DESIGN CHOICE, log 4) -/
opaque flitCrc : List (BitVec 64) → List (BitVec 8) → BitVec 64

/-- Packets that a device launch queue holds beyond one (R337 speaks of a full queue; the spec gives no depth).
(DESIGN CHOICE, log 5) -/
opaque launchMore : Nat

end Sys2Proof.Config
end

