-- ==== Sys2Proof/Machine/Operands.lean ====
section
/-! DEFINITION. The operand forms of the instruction words: for every word, its guard kind, its latency,
whether it must end its run, and the registers it reads and writes with their widths
(R34, R68, R81 to R87, R101, R111 and the operand tables of the home chapters). The checks of declared
counts (R25, R26), alignment (R86), last use and keep (R69) and latency (R97) are all made from this one description. -/

namespace Sys2Proof

/-- A register of a warp as the hazard rules see it: V and P per lane, S and C per warp. -/
inductive RegKey where
  | v (n : Nat)
  | s (n : Nat)
  | p (i : Nat)
  | c (i : Nat)
  deriving DecidableEq, Repr

/-- A register operand: first register, number of consecutive registers, and its mark. -/
structure RegUse where
  key : RegKey
  words : Nat
  use : Use
  deriving DecidableEq, Repr

/-- What a word does to the registers, and how it issues. `lat` 0 says variable latency (R68). -/
structure WordInfo where
  ctl : Ctl
  uniform : Bool
  mustEnd : Bool
  lat : Nat
  reads : List RegUse
  dsts : List RegUse
  deriving DecidableEq, Repr

/-- The registers a use names, one by one. (DEDUCED, log 15) -/
def RegUse.keys (r : RegUse) : List RegKey :=
  match r.key with
  | .v n => if n = 255 then [] else (List.range r.words).map (fun i => .v (n + i))
  | .s n => (List.range r.words).map (fun i => .s (n + i))
  | .p i => if i = 7 then [] else [.p i]
  | .c i => if i = 7 then [] else [.c i]

/-- R86: `.D` even, `.Q` a multiple of 4, VZ exempt. -/
def RegUse.aligned (r : RegUse) : Bool :=
  match r.key with
  | .v n => n == 255 || n % r.words == 0
  | _ => true

/-- R25, R26: every register named lies below the kernel's declared count; V255 is always legal. -/
def RegUse.declared (vregs sregs : Nat) (r : RegUse) : Bool :=
  match r.key with
  | .v n => n == 255 || (List.range r.words).all fun i => n + i == 255 || decide (n + i < vregs)
  | .s n => decide (n + r.words ≤ sregs)
  | _ => true

def WordInfo.aligned (w : WordInfo) : Bool :=
  w.reads.all RegUse.aligned && w.dsts.all RegUse.aligned

def WordInfo.declared (vregs sregs : Nat) (w : WordInfo) : Bool :=
  w.reads.all (RegUse.declared vregs sregs) && w.dsts.all (RegUse.declared vregs sregs)

/-- R81: the register bit that a guard reads; PT and CT are no registers. (DEDUCED, log 15) -/
def guardKeys (g : Guard) (uniform : Bool) : List RegKey :=
  if g.idx = 7 then [] else [if uniform then .c g.idx.toNat else .p g.idx.toNat]

/-- The registers a word reads. -/
def WordInfo.readKeys (i : WordInfo) : List RegKey := i.reads.flatMap RegUse.keys

/-- The registers a word writes. -/
def WordInfo.dstKeys (i : WordInfo) : List RegKey := i.dsts.flatMap RegUse.keys

/-- The registers a word reads, its guard among them. -/
def WordInfo.seenKeys (i : WordInfo) : List RegKey := guardKeys i.ctl.g i.uniform ++ i.readKeys

/-! ### Types (R48, R111, R181) -/

/-- R111: 64-bit operand types. -/
def Ty.is64 : Ty → Bool
  | .i64 | .n64 | .b64 => true
  | _ => false

/-- The I types, read as signed (R48). -/
def Ty.signed : Ty → Bool
  | .i8 | .i16 | .i32 | .i64 => true
  | _ => false

/-- V registers an operand of the type takes. -/
def Ty.words (t : Ty) : Nat := if t.is64 then 2 else 1

/-- Bits of an operand of the type (R48, R111). -/
def Ty.bits : Ty → Nat
  | .i8 | .n8 | .e4m3 | .e5m2 | .d2p8 => 8
  | .i16 | .n16 | .f16 | .bf16 => 16
  | .i32 | .n32 | .b32 | .f32 => 32
  | .i64 | .n64 | .b64 => 64

/-- R181: bytes an access of the type moves. -/
def Ty.bytes (t : Ty) : Nat := t.bits / 8

/-! ### Building the description -/

/-- The register a source names, `words` V registers wide or one S register. -/
def Src.uses (s : Src) (words : Nat) : List RegUse :=
  match s with
  | .v n u => [⟨.v n.toNat, words, u⟩]
  | .s n u => [⟨.s n.toNat, 1, u⟩]
  | _ => []

/-- The register a destination names. -/
def Dst.uses (d : Dst) (words : Nat) : List RegUse :=
  match d with
  | .v n => [⟨.v n.toNat, words, .plain⟩]
  | .s n => [⟨.s n.toNat, 1, .plain⟩]
  | .p i => [⟨.p i.toNat, 1, .plain⟩]
  | .c i => [⟨.c i.toNat, 1, .plain⟩]
  | .disc => []

/-- R82: the destination selects the scalar form. -/
def Dst.scalar : Dst → Bool
  | .s _ | .c _ => true
  | _ => false

def pUse (i : BitVec 3) : RegUse := ⟨.p i.toNat, 1, .plain⟩
def cUse (i : BitVec 3) : RegUse := ⟨.c i.toNat, 1, .plain⟩
def vUse (n : BitVec 8) (words : Nat) : RegUse := ⟨.v n.toNat, words, .plain⟩
def sUse (n : BitVec 8) : RegUse := ⟨.s n.toNat, 1, .plain⟩

def infoNop (c : Ctl) : WordInfo := ⟨c, false, false, 2, [], []⟩

/-- One-source integer words (R114). -/
def infoInt1 (c : Ctl) (o : Int1) (lat : Nat) : WordInfo :=
  ⟨c, o.dst.scalar, false, lat, o.a.uses o.ty.words, o.dst.uses o.ty.words⟩

/-- Two-source integer words; the second operand has `wb` registers (R111: counts and fields are 32 bits wide). -/
def infoInt2 (c : Ctl) (o : Int2) (lat wb : Nat) : WordInfo :=
  ⟨c, o.dst.scalar, false, lat, o.a.uses o.ty.words ++ o.b.uses wb, o.dst.uses o.ty.words⟩

/-- Three-source integer words; widths of a, b, c and the destination. -/
def infoInt3 (c : Ctl) (o : Int3) (lat wa wb wc wd : Nat) : WordInfo :=
  ⟨c, o.dst.scalar, false, lat, o.a.uses wa ++ o.b.uses wb ++ o.c.uses wc, o.dst.uses wd⟩

def infoSel (c : Ctl) (o : SelOp) : WordInfo :=
  ⟨c, o.dst.scalar, false, 2,
   o.a.uses o.ty.words ++ o.b.uses o.ty.words ++ [if o.dst.scalar then cUse o.pi else pUse o.pi],
   o.dst.uses o.ty.words⟩

def infoLea (c : Ctl) (o : LeaOp) : WordInfo :=
  ⟨c, o.dst.scalar, false, 2, o.a.uses 2 ++ o.b.uses o.ty.words, o.dst.uses 2⟩

def infoMov (c : Ctl) (o : MovOp) : WordInfo :=
  ⟨c, o.dst.scalar, false, 2, o.a.uses o.ty.words, o.dst.uses o.ty.words⟩

def infoQPop (c : Ctl) (o : QPopOp) : WordInfo := ⟨c, o.dst.scalar, false, 0, [], o.dst.uses 1⟩
def infoQPush (c : Ctl) (o : QPushOp) : WordInfo := ⟨c, false, false, 0, o.a.uses 1, []⟩
def infoMovi (c : Ctl) (o : MoviOp) : WordInfo := ⟨c, o.dst.scalar, false, 2, [], o.dst.uses o.ty.words⟩

def infoF2 (c : Ctl) (o : F2) (lat : Nat) : WordInfo :=
  ⟨c, false, false, lat, o.a.uses 1 ++ o.b.uses 1, o.dst.uses 1⟩
def infoF3 (c : Ctl) (o : F3) (lat : Nat) : WordInfo :=
  ⟨c, false, false, lat, o.a.uses 1 ++ o.b.uses 1 ++ o.c.uses 1, o.dst.uses 1⟩
def infoH2 (c : Ctl) (o : H2) (lat : Nat) : WordInfo :=
  ⟨c, false, false, lat, o.a.uses 1 ++ o.b.uses 1, o.dst.uses 1⟩
def infoH3 (c : Ctl) (o : H3) (lat : Nat) : WordInfo :=
  ⟨c, false, false, lat, o.a.uses 1 ++ o.b.uses 1 ++ o.c.uses 1, o.dst.uses 1⟩
def infoCvt (c : Ctl) (o : CvtOp) : WordInfo :=
  ⟨c, false, false, 6, o.a.uses o.st.words, o.dst.uses o.dt.words⟩
def infoFrnd (c : Ctl) (o : FrndOp) : WordInfo := ⟨c, false, false, 6, o.a.uses 1, o.dst.uses 1⟩
/-- Special functions; `wd` is 2 for SINCOS.F32 (R149). -/
def infoSfu (c : Ctl) (o : SfuOp) (wd : Nat) : WordInfo := ⟨c, false, false, 10, o.a.uses 1, o.dst.uses wd⟩
def infoRand (c : Ctl) (o : RandOp) : WordInfo :=
  ⟨c, false, false, 10, o.a.uses 1 ++ o.b.uses 1, o.dst.uses o.ty.words⟩
def infoCsamp (c : Ctl) (o : CsampOp) : WordInfo :=
  ⟨c, false, false, 6, o.a.uses 1 ++ o.b.uses 1, o.dst.uses 1⟩

def infoShfl (c : Ctl) (o : ShflOp) : WordInfo :=
  ⟨c, false, false, 6, o.a.uses 1 ++ o.b.uses 1, o.dst.uses 1 ++ [pUse o.pv]⟩
def infoPswap (c : Ctl) (o : PswapOp) : WordInfo :=
  ⟨c, false, false, 6, o.a.uses 2, o.dst.uses 2 ++ [pUse o.pv]⟩
def infoQswap (c : Ctl) (o : QswapOp) : WordInfo :=
  ⟨c, false, false, 6, o.a.uses 1, o.dst.uses 1 ++ [pUse o.pv]⟩
def infoQbcast (c : Ctl) (o : QbcastOp) : WordInfo :=
  ⟨c, false, false, 6, o.a.uses 1 ++ o.n.uses 1, o.dst.uses 1 ++ [pUse o.pv]⟩
def infoVote (c : Ctl) (o : VoteO) : WordInfo := ⟨c, false, false, 6, [pUse o.px], o.dst.uses 2⟩
def infoMatch (c : Ctl) (o : MatchOp) : WordInfo :=
  ⟨c, false, false, 6, o.a.uses o.ty.words, o.dst.uses 2⟩
def infoRdx (c : Ctl) (o : RdxOp) : WordInfo :=
  ⟨c, false, false, 6, o.a.uses o.ty.words ++ [pUse o.pm], o.dst.uses o.ty.words⟩
def infoScn (c : Ctl) (o : ScnOp) : WordInfo :=
  ⟨c, false, false, 6, o.a.uses o.ty.words ++ [pUse o.pm], o.dst.uses o.ty.words ++ o.st.uses 1⟩
def infoElect (c : Ctl) (o : ElectOp) : WordInfo := ⟨c, false, false, 6, [], pUse o.pd :: o.sd.uses 1⟩

def infoItest (c : Ctl) (o : ItestOp) : WordInfo :=
  ⟨c, o.dst.scalar, false, 2, o.a.uses o.ty.words ++ o.b.uses o.ty.words, o.dst.uses 1⟩
def infoFtest (c : Ctl) (o : FtestOp) : WordInfo :=
  ⟨c, o.dst.scalar, false, 2, o.a.uses 1 ++ o.b.uses 1, o.dst.uses 1⟩
def infoHtest2 (c : Ctl) (o : Htest2Op) : WordInfo :=
  ⟨c, o.dst.scalar, false, 2, o.a.uses 1 ++ o.b.uses 1,
   o.dst.uses 1 ++ [if o.dst.scalar then cUse o.e else pUse o.e]⟩
def infoPcomb (c : Ctl) (o : CombOp) : WordInfo := ⟨c, false, false, 2, [pUse o.x, pUse o.y], [pUse o.d]⟩
def infoCcomb (c : Ctl) (o : CombOp) : WordInfo := ⟨c, true, false, 2, [cUse o.x, cUse o.y], [cUse o.d]⟩
def infoCset (c : Ctl) (o : BitSrcOp) : WordInfo := ⟨c, true, false, 2, o.a.uses 1, [cUse o.d]⟩
def infoP2s (c : Ctl) (o : P2sOp) : WordInfo := ⟨c, true, false, 2, [pUse o.px], [sUse o.sd]⟩
def infoS2p (c : Ctl) (o : BitSrcOp) : WordInfo := ⟨c, false, false, 2, o.a.uses 1, [pUse o.d]⟩

def infoBra (c : Ctl) : WordInfo := ⟨c, false, true, 2, [], []⟩
def infoBruLabel (c : Ctl) (o : BruLabelOp) : WordInfo := ⟨c, true, true, 2, [pUse o.px], []⟩
def infoBruReg (c : Ctl) (o : BruRegOp) : WordInfo := ⟨c, true, true, 2, pUse o.px :: o.t.uses 1, []⟩
def infoTarget (c : Ctl) (o : TargetOp) : WordInfo := ⟨c, false, true, 2, o.t.uses 1, []⟩
def infoCall (c : Ctl) (o : CallOp) : WordInfo := ⟨c, false, true, 2, [], o.ret.uses 1⟩
def infoCallx (c : Ctl) (o : CallxOp) : WordInfo := ⟨c, false, true, 2, o.t.uses 1, o.ret.uses 1⟩
def infoNapImm (c : Ctl) : WordInfo := ⟨c, true, true, 2, [], []⟩
def infoNapReg (c : Ctl) (o : MaskOp) : WordInfo := ⟨c, true, true, 2, o.m.uses 1, []⟩

def infoLd (c : Ctl) (o : LdOp) : WordInfo := ⟨c, false, false, 0, o.addr.uses 2, o.dst.uses o.ty.words⟩
def infoSt (c : Ctl) (o : StOp) : WordInfo :=
  ⟨c, false, false, 0, o.addr.uses 2 ++ o.data.uses o.ty.words, []⟩
def infoStCb (c : Ctl) (o : StCbOp) : WordInfo :=
  ⟨c, false, false, 0, o.addr.uses 2 ++ o.data.uses o.ty.words ++ o.cb.uses 1, []⟩
def infoPrf (c : Ctl) (o : PrfOp) : WordInfo := ⟨c, false, false, 0, o.addr.uses 2, []⟩
def infoMaint (c : Ctl) (o : MaintOp) : WordInfo :=
  ⟨c, false, false, 0, o.addr.uses 2 ++ o.len.uses 1, []⟩
def infoAtom (c : Ctl) (o : AtomO) : WordInfo :=
  ⟨c, false, false, 0, o.addr.uses 2 ++ o.b.uses o.ty.words, o.dst.uses o.ty.words⟩
def infoRed (c : Ctl) (o : RedO) : WordInfo :=
  ⟨c, false, false, 0, o.addr.uses 2 ++ o.b.uses o.ty.words, []⟩

/-- R190: registers of a CAS operand. -/
def CasTy.words : CasTy → Nat
  | .n32 => 1
  | .n64 => 2
  | .b64pair => 4

def infoCas (c : Ctl) (o : CasOp) : WordInfo :=
  ⟨c, false, false, 0, o.addr.uses 2 ++ o.cv.uses o.ct.words ++ o.nv.uses o.ct.words,
   [vUse o.dst o.ct.words, pUse o.ps]⟩
def infoFence (c : Ctl) : WordInfo := ⟨c, false, false, 0, [], []⟩

/-- R240, R242: registers of a key. -/
def KeyFmt.words : KeyFmt → Nat
  | .ki32 | .kn32 | .kf32 => 1
  | .ki64 | .kn64 => 2
  | .kc128 => 4

/-- R242: the bound is the register group after the start key in its class. The mark of the key is that of its bound too.
(DESIGN CHOICE, log 104) -/
def boundOf (kf : KeyFmt) (key : Src) : List RegUse :=
  match key with
  | .v n u => [⟨.v (if n.toNat = 255 then 256 else n.toNat + kf.words), kf.words, u⟩]
  | .s n u => [⟨.s (n.toNat + 1), 1, u⟩]
  | _ => []

def infoTKey (c : Ctl) (o : TKeyOp) : WordInfo :=
  ⟨c, false, false, 0, o.key.uses o.kf.words ++ o.id.uses 1, o.dst.uses 4⟩
def infoTSeek (c : Ctl) (o : TSeekOp) : WordInfo :=
  ⟨c, false, false, 0,
   o.key.uses o.kf.words ++ (if o.bnd then boundOf o.kf o.key else []) ++ o.id.uses 1, o.dst.uses 4⟩
def infoTStep (c : Ctl) (o : TStepOp) : WordInfo := ⟨c, false, false, 0, [], o.dst.uses 4⟩
def infoTClose (c : Ctl) : WordInfo := ⟨c, false, false, 0, [], []⟩
def infoTRekey (c : Ctl) (o : TRekeyOp) : WordInfo :=
  ⟨c, false, false, 0, o.key.uses o.kf.words ++ o.id.uses 1 ++ o.new.uses o.kf.words, o.dst.uses 4⟩
def infoTAdd (c : Ctl) (o : TAddOp) : WordInfo :=
  ⟨c, false, false, 0, o.addr.uses 2 ++ o.val.uses 1, []⟩
def infoTId (c : Ctl) (o : TIdOp) : WordInfo := ⟨c, false, false, 0, o.id.uses 1, o.dst.uses 4⟩
def infoTUnpin (c : Ctl) (o : TUnpinOp) : WordInfo :=
  ⟨c, false, false, 0, o.ver.uses 1 ++ o.id.uses 1, o.dst.uses 4⟩
def infoTSwap (c : Ctl) (o : TSwapOp) : WordInfo :=
  ⟨c, false, false, 0, o.e.uses 1 ++ o.id.uses 1 ++ o.st.uses 1, o.dst.uses 4⟩
def infoTRow (c : Ctl) (o : TRowOp) : WordInfo :=
  ⟨c, false, false, 0, o.n.uses 1 ++ o.id.uses 1, o.dst.uses 4⟩

def infoPush (c : Ctl) (o : PushOp) : WordInfo :=
  ⟨c, true, false, 2, [⟨.s o.sb.toNat, 8, .plain⟩], [cUse o.cd]⟩
/-- Uniform words with one mask, count or index operand; `e` says that the word must end its run. -/
def infoMask (c : Ctl) (o : MaskOp) (e : Bool) : WordInfo := ⟨c, true, e, 2, o.m.uses 1, []⟩
def infoFfr (c : Ctl) (o : FfrOp) : WordInfo := ⟨c, true, false, 2, o.m.uses 1, [sUse o.sd]⟩
def infoUni (c : Ctl) (e : Bool) : WordInfo := ⟨c, true, e, 2, [], []⟩
def infoLane (c : Ctl) (e : Bool) : WordInfo := ⟨c, false, e, 2, [], []⟩

def infoBar (c : Ctl) (o : MaskOp) : WordInfo := ⟨c, false, true, 2, o.m.uses 1, []⟩
def infoBarx (c : Ctl) (o : BarxOp) : WordInfo :=
  ⟨c, false, true, 0, o.a.uses o.ty.words ++ o.n.uses 1, o.dst.uses 1⟩
def infoSyncm (c : Ctl) (o : MaskOp) : WordInfo := ⟨c, false, true, 2, o.m.uses 2, []⟩
def infoCbarm (c : Ctl) (o : CbarmOp) : WordInfo := ⟨c, true, false, 2, sUse o.a :: o.t.uses 1, []⟩
def infoCbwait (c : Ctl) (o : CbwaitOp) : WordInfo :=
  ⟨c, true, true, 0, sUse o.a :: o.n.uses 1, [cUse o.cd]⟩

/-- The `n` vector registers and `m` scalar registers of a live set (R298). -/
def liveSet (vl sl : BitVec 8) (n : BitVec 6) (m : BitVec 5) : List RegUse :=
  (List.range n.toNat).map (fun i => ⟨.v (vl.toNat + i), 1, .plain⟩) ++
  (List.range m.toNat).map (fun i => ⟨.s (sl.toNat + i), 1, .plain⟩)

def infoRegrp (c : Ctl) (o : RegrpOp) : WordInfo :=
  ⟨c, true, true, 0, vUse o.vk 1 :: liveSet o.vl o.sl o.n o.m, []⟩
def infoRegrpb (c : Ctl) (o : RegrpbOp) : WordInfo := ⟨c, true, true, 0, liveSet o.vl o.sl o.n o.m, []⟩

def infoPmode (c : Ctl) (o : PmodeOp) : WordInfo := ⟨c, true, false, 0, o.m.uses 1, []⟩
def infoPxfer (c : Ctl) (o : PxferOp) : WordInfo := ⟨c, true, false, 0, [sUse o.d, sUse o.a, sUse o.n], []⟩
def infoPress2 (c : Ctl) (o : Press2) : WordInfo := ⟨c, true, false, 0, [sUse o.d, sUse o.a] ++ o.b.uses 1, []⟩
def infoPress1 (c : Ctl) (o : Press1) : WordInfo := ⟨c, true, false, 0, [sUse o.d, sUse o.a], []⟩
def infoPcnt (c : Ctl) (o : Press1) : WordInfo := ⟨c, true, false, 0, [sUse o.a], [sUse o.d]⟩
def infoPcmp (c : Ctl) (o : PcmpOp) : WordInfo := ⟨c, true, false, 0, [sUse o.d, sUse o.a] ++ o.b.uses 1, []⟩
def infoPsel (c : Ctl) (o : PselOp) : WordInfo :=
  ⟨c, true, false, 0, [sUse o.d, sUse o.a, sUse o.b, sUse o.m], []⟩
def infoPsat (c : Ctl) (o : PsatOp) : WordInfo :=
  ⟨c, true, false, 0, [sUse o.d, sUse o.a] ++ o.lo.uses 1 ++ o.hi.uses 1, []⟩
def infoPshift (c : Ctl) (o : PshiftOp) : WordInfo := ⟨c, true, false, 0, [sUse o.d, sUse o.a] ++ o.n.uses 1, []⟩
def infoPsync (c : Ctl) (o : MaskOp) : WordInfo := ⟨c, true, true, 0, o.m.uses 1, []⟩

/-- MOVS (R290): variable latency from a queue register. -/
def infoMovs (c : Ctl) (o : MovsOp) : WordInfo :=
  ⟨c, o.dst.scalar, false, if o.r.toNat < 8 then 0 else 2, [], o.dst.uses 1⟩
def infoMovw (c : Ctl) (o : MovwOp) : WordInfo := ⟨c, true, false, 2, o.a.uses 1, []⟩
def infoStopchk (c : Ctl) (o : StopchkOp) : WordInfo := ⟨c, true, false, 2, [], [cUse o.cd]⟩
def infoMark (c : Ctl) (o : MarkOp) : WordInfo := ⟨c, true, false, 2, o.a.uses 1, []⟩

/-- The description of a word; none for the steps that are no instruction words. -/
def Instr.info : Instr → Option WordInfo
  | .nop c => some (infoNop c)
  | .mov c o => some (infoMov c o)
  | .movQueuePop c o => some (infoQPop c o)
  | .movQueuePush c o => some (infoQPush c o)
  | .movi c o => some (infoMovi c o)
  | .iadd c o | .isub c o | .imin c o | .imax c o => some (infoInt2 c o 2 o.ty.words)
  | .imul c o | .imulh c o => some (infoInt2 c o 4 o.ty.words)
  | .imad c o => some (infoInt3 c o 4 o.ty.words o.ty.words o.ty.words o.ty.words)
  | .imadw c o => some (infoInt3 c o 4 1 1 2 2)
  | .iabs c o | .inot c o | .popc c o | .clz c o | .brev c o => some (infoInt1 c o 2)
  | .iand c o | .ior c o | .ixor c o => some (infoInt2 c o 2 o.ty.words)
  | .shl c o | .shr c o | .sar c o | .rol c o | .bfe c o => some (infoInt2 c o 2 1)
  | .bfi c o => some (infoInt3 c o 2 o.ty.words o.ty.words 1 o.ty.words)
  | .sel c o => some (infoSel c o)
  | .lea c o => some (infoLea c o)
  | .bpick c o => some (infoInt3 c o 2 1 1 1 1)
  | .fadd c o | .fsub c o | .fmul c o | .fscale c o => some (infoF2 c o 4)
  | .fmin c o | .fmax c o => some (infoF2 c o 2)
  | .ffma c o => some (infoF3 c o 4)
  | .fclamp c o => some (infoF3 c o 2)
  | .hadd2 c o | .hsub2 c o | .hmul2 c o => some (infoH2 c o 4)
  | .hmin2 c o | .hmax2 c o => some (infoH2 c o 2)
  | .hfma2 c o | .hdot2 c o => some (infoH3 c o 4)
  | .cvt c o => some (infoCvt c o)
  | .frnd c o => some (infoFrnd c o)
  | .rcp c o | .rsq c o | .sqrt c o | .ex2 c o | .lg2 c o | .sin c o | .cos c o | .tanh c o
  | .sigm c o => some (infoSfu c o 1)
  | .sincos c o => some (infoSfu c o (if o.f16 then 1 else 2))
  | .rand c o => some (infoRand c o)
  | .csamp c o => some (infoCsamp c o)
  | .shfl c o => some (infoShfl c o)
  | .pswap c o => some (infoPswap c o)
  | .qswap c o => some (infoQswap c o)
  | .qbcast c o => some (infoQbcast c o)
  | .vote c o => some (infoVote c o)
  | .matchLanes c o => some (infoMatch c o)
  | .rdx c o => some (infoRdx c o)
  | .scn c o => some (infoScn c o)
  | .elect c o => some (infoElect c o)
  | .itest c o => some (infoItest c o)
  | .ftest c o => some (infoFtest c o)
  | .htest2 c o => some (infoHtest2 c o)
  | .pcomb c o => some (infoPcomb c o)
  | .cset c o => some (infoCset c o)
  | .ccomb c o => some (infoCcomb c o)
  | .p2s c o => some (infoP2s c o)
  | .s2p c o => some (infoS2p c o)
  | .bra c _ => some (infoBra c)
  | .bruLabel c o => some (infoBruLabel c o)
  | .bruRegister c o => some (infoBruReg c o)
  | .brx c o | .ret c o => some (infoTarget c o)
  | .call c o => some (infoCall c o)
  | .callx c o => some (infoCallx c o)
  | .exit c => some (infoLane c true)
  | .napImmediate c _ => some (infoNapImm c)
  | .napRegister c o => some (infoNapReg c o)
  | .ld c o => some (infoLd c o)
  | .st c o => some (infoSt c o)
  | .stCb c o => some (infoStCb c o)
  | .prf c o => some (infoPrf c o)
  | .clean c o | .inval c o | .clinv c o | .drop c o => some (infoMaint c o)
  | .atom c o => some (infoAtom c o)
  | .red c o => some (infoRed c o)
  | .cas c o => some (infoCas c o)
  | .fence c _ => some (infoFence c)
  | .opfence c => some (infoFence c)
  | .tlook c o | .tins c o | .tdel c o => some (infoTKey c o)
  | .tseek c o => some (infoTSeek c o)
  | .tnext c o | .tprev c o => some (infoTStep c o)
  | .tclose c _ => some (infoTClose c)
  | .trekey c o => some (infoTRekey c o)
  | .tadd c o => some (infoTAdd c o)
  | .tpin c o | .tstat c o | .tcount c o => some (infoTId c o)
  | .tunpin c o => some (infoTUnpin c o)
  | .tswap c o => some (infoTSwap c o)
  | .trow c o => some (infoTRow c o)
  | .push c o => some (infoPush c o)
  | .waitany c o | .waitall c o => some (infoMask c o true)
  | .ffr c o => some (infoFfr c o)
  | .tagclr c o | .tagset c o | .leaseRegister c o => some (infoMask c o false)
  | .leaseImmediate c _ => some (infoUni c false)
  | .unlease c => some (infoUni c false)
  | .bar c o => some (infoBar c o)
  | .barx c o => some (infoBarx c o)
  | .syncm c o => some (infoSyncm c o)
  | .cbarm c o => some (infoCbarm c o)
  | .cbwait c o => some (infoCbwait c o)
  | .regrp c o => some (infoRegrp c o)
  | .regrpb c o => some (infoRegrpb c o)
  | .pmodePress c o | .pmodeCache c o => some (infoPmode c o)
  | .pxin c o | .pxout c o => some (infoPxfer c o)
  | .padd c o | .psub c o | .pmul c o | .pand c o | .por c o | .pxor c o => some (infoPress2 c o)
  | .pnot c o => some (infoPress1 c o)
  | .pcmp c o => some (infoPcmp c o)
  | .psel c o => some (infoPsel c o)
  | .psat c o => some (infoPsat c o)
  | .pcnt c o => some (infoPcnt c o)
  | .pshl c o | .pshr c o => some (infoPshift c o)
  | .psync c o => some (infoPsync c o)
  | .trap c _ | .bkpt c _ => some (infoLane c true)
  | .eret c => some (infoUni c true)
  | .movs c o => some (infoMovs c o)
  | .movw c o => some (infoMovw c o)
  | .illeg c _ => some (infoLane c false)
  | .stopchk c o => some (infoStopchk c o)
  | .mark c o => some (infoMark c o)
  | _ => none

end Sys2Proof
end

