-- ==== Sys2Proof/Machine/State.lean ====
section
/-! DEFINITION. The state of one Verene AQ90 module, as plain data: everything the spec gives the machine, the
outside world's messages to it still to come (`agenda`) and the messages it has sent (`outbox`). Each field's docstring
names the rule that gives it; fields marked MODEL are the model's own bookkeeping. `State.reset` is the module right
after reset is released. -/

namespace Sys2Proof.Machine

/-- Why a step stops with a fault. Every fault the spec gives the hardware is an ordinary next state; this is the one
stop left. -/
inductive Fault where
  /-- Raised by an instruction word when no run is in execution (`State.cur` is none or names no warp with a run): the
  hardware issues words only from runs (R32). Safe: `step` never offers a word in such a state. -/
  | noRun
  deriving DecidableEq, Repr

/-- Why a step is refused. -/
inductive Refusal where
  /-- Raised by an instruction whose meaning has not been written. Safe: nothing is claimed of it. -/
  | notModelled (mnemonic : String)
  deriving DecidableEq, Repr

/-- Memory: (address, byte) pairs, addresses strictly rising, no byte 0; an unlisted address reads 0. -/
abbrev Mem := List Host.Cell

/-! ### Faults as codes -/

/-- The fault codes of R281. -/
inductive Code where
  | illegalOpcode | illegalOperand | illegalSched | stallShort | uniform | maskmis | mixedBarrier
  | translation | permission | notable | scratchBounds | align | opbufBounds
  | tableKey | tableVersion | cursorStale | lease | pressMode | attnNonfinite | sysatomUnsup | machineCheck
  | trap | bkpt
  deriving DecidableEq, Repr

/-! ### Lanes and warps -/

/-- What a lane of a warp holds (R29, R38). `helper a`: anchored on lane `a`. -/
inductive LaneKind where
  | thread
  | helper (anchor : Nat)
  | absent
  deriving DecidableEq, Repr

/-- Whether and why a lane does not take part in issue (R29, R36, R160, R162, R283, R299). -/
inductive LaneSt where
  | ready
  | parked
  | barrier
  | syncm
  | regroup
  | faultHeld
  | exited
  deriving DecidableEq, Repr

/-- An open cursor slot (R93, R246). `last` none: no key returned yet. -/
structure Cursor where
  table : Nat
  ver : Nat
  pin : Nat
  fmt : KeyFmt
  start : Nat
  last : Option Nat
  bound : Nat
  asc : Bool
  deriving DecidableEq, Repr

/-- A pin taken (`add`) or released by a lane since its region entry (R264). -/
structure PinOp where
  ver : Nat
  pin : Nat
  grid : Option Nat
  add : Bool
  deriving DecidableEq, Repr

/-- One lane of a warp (R22, R29, R30, R93, R284). `v` holds the declared vector registers; `p` is P0 to P6; `kRec`
and `pinLog` are the record of R264, and `kSaved` that of the region that a trap is to return to, with what was pinned
since; `fid` names the fault that holds the lane; `rkey` is the regroup key it arrived with (R301);
`owed`: while it is parked, the lanes of its warp that have yet to issue a run before it may (R36, R37). -/
structure Lane where
  kind : LaneKind
  thread : Nat
  team : Nat
  st : LaneSt
  pc : Word
  entry : Word
  ret : Word
  inh : Bool
  v : List Word
  p : BitVec 7
  k : List (Option Cursor)
  kRec : List (Option Cursor)
  pinLog : List PinOp
  fid : Nat
  rkey : Nat
  owed : List Nat
  kSaved : Option (List (Option Cursor) × List PinOp)
  deriving DecidableEq, Repr

/-- One outstanding event of a token (R96). -/
structure TokEv where
  id : Nat
  fin : Bool
  deriving DecidableEq, Repr

/-- MODEL (R68, R97): a register written by a fixed-latency instruction, its value before, and the STALL cycles still
to be counted before the new value is certain. `lane` is 0 for S and C registers; `sure`: the write has taken place (R210, R277), and
only the checker still counts (R98). (DESIGN CHOICE, log 17) -/
structure Flight where
  key : RegKey
  lane : Nat
  old : DWord
  left : Nat
  sure : Bool
  deriving DecidableEq, Repr

/-- A register value waiting to be written at write-back (R96). -/
structure RegWrite where
  key : RegKey
  lane : Nat
  val : DWord
  deriving DecidableEq, Repr

/-- What a pending instruction is, for the fences (R206, R207, R210). `fixed`: a fixed-latency word whose SETW event is
outstanding; `barrier`: a BARX whose phase is open (R96, R161); `held`: a wait that holds the warp (R316, R347, R386). -/
inductive PendKind where
  | load | store | rmw | maint | table | tadd | queue | press | fixed | barrier | held
  deriving DecidableEq, Repr

/-- An instruction that has issued and not yet written back (R68, R96). `reqs`: memory requests still
outstanding; `writes`: what write-back will write; `acq`: scope of an acquire not yet done; `window`: it stores to the
scratchpad or operand buffer window; `dsts`: the registers it will write, lane by lane; `srcs`: the registers that its SETR event
still counts as unread (R98); `pc`: where it stands; `wb`: it has written back and stays only until its SETW event retires
(R68, R98), on token `tok` − 1, 0 for none; `torn`: sources that have been overwritten while unread (R97). -/
structure Pend where
  id : Nat
  kind : PendKind
  reqs : List Nat
  writes : List RegWrite
  dsts : List (RegKey × Nat)
  srcs : List (RegKey × Nat)
  acq : Option Scope
  window : Bool
  pc : Word
  wb : Bool
  pins : List (Nat × Nat)
  tok : Nat
  torn : List (RegKey × Nat)
  deriving DecidableEq, Repr

/-- A held register value (`+`, R69). -/
structure Latch where
  key : RegKey
  lane : Nat
  val : DWord
  deriving DecidableEq, Repr

/-- A run in execution (R32, R33): its group, where it began, the next instruction, how many it has executed, the issue
slot that chose it, its keep latches, whether it waits for something to change (MODEL), and the stop asked for at its end: cause,
rank among matches of that cause, detail (R397). -/
structure Run where
  lanes : List Nat
  start : Word
  pc : Word
  n : Nat
  islot : Nat
  latch : List Latch
  blocked : Bool
  fenced : Bool
  stopAfter : Option (Nat × Nat × DWord)
  deriving DecidableEq, Repr

/-! ### Press operations -/

/-- A press vector (R341). -/
structure PVec where
  row : Nat
  w : Nat
  deriving DecidableEq, Repr

/-- The second source of a press operation: a vector or a constant. -/
inductive PSrc where
  | vec (v : PVec)
  | const (c : Int)
  deriving DecidableEq, Repr

/-- What an accepted press operation computes (R344, R346). PXIN and PXOUT carry the count,
the byte of the first line, and the physical lines with their attributes as the checks at issue found them. -/
inductive POpKind where
  | add | sub | mul | and | or | xor
  | not
  | cmp (c : Cmp)
  | sel (m : PVec)
  | sat (lo hi : Int)
  | cnt (reg : Nat)
  | shl (n : Nat)
  | shr (n : Nat)
  | xin (n off : Nat) (lines : List (Nat × BitVec 16))
  | xout (n off : Nat) (lines : List (Nat × BitVec 16))
  deriving DecidableEq, Repr

/-- An accepted press operation (R343). -/
structure POp where
  warp : Nat
  team : Nat
  ctx : Nat
  pend : Nat
  kind : POpKind
  sgn : Bool
  d : PVec
  a : PVec
  b : PSrc
  deriving DecidableEq, Repr

/-- Something that holds a warp until the event that the table names for it (R33, R91, R137, R205, R210, R311, R316,
R343, R347, R386). `i` is the held instruction, `lanes` the group that waits when the run has ended, `t0` GTIME and
`k0` CLK at issue, `n` the count or mask, `seen` the warp's completed commands at issue, `ready` that the tick it
waited for has come (R208), `pop` the press operation offered, as its checks at issue left it (R346). (DEDUCED, log 26) -/
structure Hold where
  i : Instr
  lanes : List Nat
  pc : Word
  t0 : Nat
  k0 : Nat
  n : Nat
  seen : Nat
  ready : Bool
  pop : Option POp
  deriving DecidableEq, Repr

/-- The open phase of a warp's SYNCM (R162). -/
structure SyncPhase where
  first : DWord
  mask : DWord
  arrived : List Nat
  deriving DecidableEq, Repr

/-- An engine fault not yet reported by a wait (R285). -/
structure EngFault where
  tag : Nat
  code : Code
  seq : Nat
  pc : Word
  deriving DecidableEq, Repr

/-- A warp's arrival at REGRP or REGRPB (R299, R304). `counted`: R299's wait is over. -/
structure Arrival where
  back : Bool
  core : Bool
  vl : Nat
  n : Nat
  sl : Nat
  m : Nat
  counted : Bool
  deriving DecidableEq, Repr

/-- A warp (R22, R28, R30, R89 to R96). `uid` is its name for as long as it lives; `acqFirst`, `rgnFirst`: its
first run is preceded by an acquire (R216), is a region entry (R302); `idx` its number in its team; `dbg`: it is
debug-held (R396); `dbgReq`: cause, rank and detail of a debugger stop to come (cause 0: none, the breakpoint before its next run has
been served); `nextClk`: the cycle of its die's clock from which its next instruction may issue (R95);
`s` S0 to S255; `c` C0 to C6; `tok` T0 to T5; `e` E0 to E15. -/
structure Warp where
  uid : Nat
  core : Nat
  slot : Nat
  grid : Nat
  team : Nat
  idx : Nat
  w : Nat
  lanes : List Lane
  s : List DWord
  c : BitVec 7
  tok : List (List TokEv)
  e : List (List DWord)
  wst : BitVec 5
  key : DWord
  cmdseq : Word
  run : Option Run
  hold : Option Hold
  flight : List Flight
  pend : List Pend
  nextEv : Nat
  sync : Option SyncPhase
  arr : Option Arrival
  dom : Option Nat
  efaults : List EngFault
  cmdsDone : Nat
  readyAt : Nat
  streak : Nat
  acqFirst : Bool
  rgnFirst : Bool
  dbg : Bool
  dbgReq : Option (Nat × Nat × DWord)
  nextClk : Nat
  walked : List (Nat × Bool)
  deriving DecidableEq, Repr

/-! ### Teams and grids -/

/-- One instruction's arrival of one thread at a team barrier (R160, R161). `bx` none: a BAR. -/
structure BarArrival where
  thread : Nat
  warp : Nat
  seq : Nat
  bx : Option (RedOp × Ty)
  payload : DWord
  sd : Option Nat
  pc : Word
  deriving DecidableEq, Repr

/-- Where a team stands: never placed, resident on a core, or saved by a stop (R273, R277). -/
inductive Place where
  | resident (core : Nat)
  | saved
  deriving DecidableEq, Repr

/-- A reservation in the operand buffer (R320, R321). `owner` names the team or the cohort that holds it. -/
structure Reservation where
  owner : Nat
  id : Nat
  first : Nat
  size : Nat
  bfmt : Nat
  bl : Nat
  p : Nat
  sten : Nat
  soff : Nat
  deriving DecidableEq, Repr

/-- A job card's progress (R326, R331): output tiles finished, and entries taken from and put into the feed and drain
registers that do not yet make a row; `bad`: poison has been read (R66, R405). -/
structure Card where
  tiles : Nat
  steps : Nat
  bad : Bool
  deriving DecidableEq, Repr

/-- How far a command is (R307, R313, R335). -/
inductive CmdPhase where
  | waiting
  | running
  | finished (status detail : Nat)
  deriving DecidableEq, Repr

/-- A command accepted by an engine queue (R307, R308, R311, R313). `home` is the core that accepted it, whose CMDSEQ it bears
(R312), `warp` the issuing warp, `fed` what a
fed card has taken from its register for the tile under way, `chunks` the chunks of a
collective still to complete, `rows` the C rows a drained card has still to hand out, `resolved` the map entries an
ATTEND resolved, with the map's version and slot (R362, R366). -/
structure Cmd where
  q : Nat
  seq : Nat
  w : List DWord
  core : Nat
  home : Nat
  warp : Nat
  team : Nat
  pc : Word
  gate : Bool
  phase : CmdPhase
  card : Card
  fed : List DWord
  chunks : List Nat
  rows : List DWord
  resolved : List (Nat × Nat × Nat × Nat)
  deriving DecidableEq, Repr

/-- A resident or saved team (R22, R44, R160, R168, R277, R314). `bars`: the arrivals of the open phase of each of its
16 barriers; `alive`: threads that have not exited; `warps`, `cmds`, `res`, `resMem`, `resPoison`: what a stop saved (a
reservation whose first granule is 128 or more was held on the other core of the pair). -/
structure Team where
  uid : Nat
  grid : Nat
  teamId : Nat
  place : Place
  scratch : Mem
  poison : List Nat
  tags : DWord
  bars : List (List BarArrival)
  barSeq : Nat
  alive : Nat
  warps : List Warp
  cmds : List Cmd
  res : List Reservation
  resMem : Mem
  resPoison : List Nat
  deriving DecidableEq, Repr

/-- The fields of a KERNEL packet (R269). -/
structure KernelF where
  scratch : Nat
  tags : Nat
  drain : Nat
  sregs : Nat
  vregs : Nat
  checker : Bool
  cohort2 : Bool
  w : Nat
  entry : Word
  code : Nat
  hv : Bool
  hpc : Word
  teamdim : Nat
  griddim : Nat
  intr : Bool
  deriving DecidableEq, Repr

/-- A started grid (R46, R269, R285, R287). `next`: the next TEAMID to place; `retired`: teams retired; `unreported`: an
engine fault no wait reported. -/
structure Grid where
  uid : Nat
  ctx : Nat
  queue : Nat
  pkt : Nat
  f : KernelF
  next : Nat
  retired : Nat
  aborted : Bool
  unreported : Bool
  capture : Bool
  deriving DecidableEq, Repr

/-! ### Cores -/

/-- The two L1 classes (R217, R219); uncached lines have no L1 copy. -/
inductive Cls where
  | dir | self | unc
  deriving DecidableEq, Repr

/-- The states of an L1 copy of a directory-class line (R220); a self-invalidating copy is `shared`. -/
inductive L1St where
  | shared | exclusive | modified
  deriving DecidableEq, Repr

/-- A line in a core's L1 (R170, R220, R405). `dirty` and `poison` are per 32-byte sector. -/
structure L1Line where
  line : LineId
  cls : Cls
  st : L1St
  data : List Byte
  dirty : BitVec 4
  poison : BitVec 4
  used : Nat
  deriving DecidableEq, Repr

/-- A cached translation (R173, R176): the context, the first 64 KiB page, how many it covers, the first frame, the
attributes [14:0]. -/
structure TlbE where
  ctx : Nat
  page : Nat
  pages : Nat
  frame : Nat
  attr : BitVec 16
  deriving DecidableEq, Repr

/-- A lease on an array (R329, R330): the team that asked, the name of the team or cohort that holds it, steps left, and the
CLK since which it has had no card. -/
structure Lease where
  team : Nat
  owner : Nat
  left : Nat
  idle : Option Nat
  deriving DecidableEq, Repr

/-- A watchpoint (R387, R397). -/
structure Watch where
  base : Nat
  kind : Nat
  len : Nat
  deriving DecidableEq, Repr

/-- A core (R13): L1, TLB, instruction cache as (context, address, word), oldest first, CMDSEQ counter (R312), the six command queues (R307), PMODE commands in flight (R348),
operand buffer and its reservations (R320), the scale cache as (context, address, value, poisoned), oldest first (R324), the
card on the array, its lease and the requests for one, as (team, owner, steps) (R329), that it is slaved (R327), status records an engine holds for full queues (R92), event counters (R392), cycles of
use and of stall of its issue and of its array (R389), watchpoints. -/
structure Core where
  l1 : List L1Line
  tlb : List TlbE
  icache : List (Nat × Nat × List Byte)
  nextSeq : Nat
  queues : List (List Cmd)
  opbuf : Mem
  opPoison : List Nat
  res : List Reservation
  scales : List (Nat × Nat × Word × Bool)
  array : Option Nat
  lease : Option Lease
  leaseReq : List (Nat × Nat × Nat)
  slaved : Bool
  held : List (Nat × Nat × DWord)
  ev : List Nat
  issueUse : Nat × Nat
  arrayUse : Nat × Nat
  watch : List Watch
  deriving DecidableEq, Repr

/-! ### Memory -/

/-- One access of a request to a line, in lane order (R189, R199). `off` is the byte in the line. `fetch` reads the whole line with its
poison for a peer (R380, R405), `taint` poisons sectors that poisoned bytes were written to (R405). -/
inductive LineOp where
  | read (lane off size : Nat) (reg : Nat) (ty : Ty)
  | write (off : Nat) (bytes : List Byte)
  | atom (lane off : Nat) (op : AtomOp) (ty : Ty) (b : DWord) (reg : Option Nat)
  | cas (lane off size : Nat) (c n : List Byte) (reg : Nat)
  | tadd (lane off : Nat) (q : Bool) (b : Word)
  | cbInc (off : Nat) (lanes : List Nat)
  | cbArm (off : Nat) (t : DWord) (lanes : List Nat)
  | fetch
  | taint (p : BitVec 4)
  deriving DecidableEq, Repr

/-- MODEL (R97): where 32 bits of a source register go in a request still to be performed: `n` bytes of half `half` of register `key`,
read for lane `lane`, to byte `pos`: of the line for a store, of the operand bytes of the lane's operation else. -/
structure LateSrc where
  key : RegKey
  lane : Nat
  half : Nat
  pos : Nat
  n : Nat
  deriving DecidableEq, Repr

/-- What a request asks of the home (R186, R187, R217, R220, R223). `refetch`: the bridge gets its halves of a line again that
others hold (R187, R226); `memRead`, `memWrite`: the host's read and store of device memory (R229). -/
inductive ReqKind where
  | fill
  | own
  | atHome
  | prefetch (l1 : Bool)
  | clean (dev : Bool) (sys : Bool)
  | inval (dev : Bool) (sys : Bool)
  | clinv (dev : Bool) (sys : Bool)
  | drop (dev : Bool) (sys : Bool)
  | refetch
  | memRead
  | memWrite
  deriving DecidableEq, Repr

/-- A request at a home slice, one per instruction and line (R224). `deps`: requests that must be performed first;
`wait`: the host operation it awaits; `attr`: the leaf's attributes; `nc`: the line is non-coherent (R231); `inPool`: it is in
the slice's pool, and not with its requester, refused `refused` times (counted to 2); `late`: the sources it has yet to read, if its
instruction reads late (R97); `lanes`: those it is for. -/
structure HomeReq where
  id : Nat
  grid : Nat
  core : Nat
  warp : Nat
  pend : Nat
  ctx : Nat
  line : LineId
  attr : BitVec 16
  kind : ReqKind
  ops : List LineOp
  rc : Nat
  sys : Bool
  deps : List Nat
  wait : Option Nat
  nc : Bool
  inPool : Bool
  refused : Nat
  late : List LateSrc
  lanes : List Nat
  deriving DecidableEq, Repr

/-- A line in the cellar (R170, R178, R179, R219, R260, R405). `cls`: the class of the access that made the copy; `rc`: its read
count and the reads served; `freq`: none where the line is of no row-cached table. -/
structure CellLine where
  line : LineId
  cls : Cls
  data : List Byte
  dirty : BitVec 4
  poison : BitVec 4
  rc : Option (Nat × Nat)
  evp : Nat
  ctx : Nat
  freq : Option Nat
  used : Nat
  deriving DecidableEq, Repr

/-- A directory entry (R221): class, sharers, owner, host bit. -/
structure DirE where
  line : LineId
  cls : Cls
  sharers : List Nat
  owner : Option Nat
  host : Bool
  used : Nat
  deriving DecidableEq, Repr

/-- CXL.cache state of a half line at the bridge (R226). -/
inductive HalfSt where
  | invalid | shared | exclusive | modified
  deriving DecidableEq, Repr

/-- A host line at the CXL bridge (R226, R227); `dirty`: the sectors that differ from host memory. -/
structure BridgeLine where
  line : Nat
  h0 : HalfSt
  h1 : HalfSt
  data : List Byte
  dirty : BitVec 4
  poison : BitVec 4
  deriving DecidableEq, Repr

/-- What the device has asked of the host and awaits (R191, R229, R231). -/
inductive HostOpKind where
  | cxlRead (line : Nat) (half : Bool) (own : Bool)
  | pcieRead (addr len : Nat)
  | zeroRead
  | atomicOp
  | backInval (line : Nat)
  deriving DecidableEq, Repr

/-- A host operation in flight, for a request or an engine of a context; `done` once it has completed, with the poisoned sectors of
its line (R405). -/
structure HostOp where
  id : Nat
  kind : HostOpKind
  req : Nat
  lane : Nat
  ctx : Nat
  done : Option (Option (List Byte))
  poison : BitVec 4
  deriving DecidableEq, Repr

/-- An outstanding page walk (R176), and the warps that wait for it. -/
structure Walk where
  die : Nat
  ctx : Nat
  page : Nat
  waiters : List Nat
  deriving DecidableEq, Repr

/-- A stage-2 translation held by a die (R377): PASID, I/O page of 64 KiB, system physical page; `none` a failure being
delivered: a TRANSLATION, or where `lost` a MACHINE_CHECK, the host's port having failed (R380, R404). -/
structure S2E where
  die : Nat
  pasid : Nat
  page : Nat
  spa : Option Nat
  lost : Bool
  deriving DecidableEq, Repr

/-- An entry of the bridge's range table (R231, R370). -/
structure NcE where
  base : Nat
  len : Nat
  nc : Bool
  deriving DecidableEq, Repr

/-- An entry of a group's block-table cache (R364): context, table, sequence, layer, KV head and page; page base and state, or
none mapped; the map's version and slot that it was read from (R362). -/
structure MapE where
  key : List Nat
  base : Nat
  st : Nat
  tab : Nat
  slot : Nat
  deriving DecidableEq, Repr

/-- The memory system (R15, R170, R176, R221, R224 to R231, R349, R352 to R354, R364, R377, R405). `atsInv`: ATS invalidations not yet
completed (R377); `lame`: channels whose set-aside has ended, of a context, while a command that had started goes on there
(R354). -/
structure MemSys where
  dram : Mem
  poison : List Nat
  cellar : List CellLine
  dir : List DirE
  queue : List HomeReq
  fills : List Nat
  bridge : List BridgeLine
  hostOps : List HostOp
  ncTab : List NcE
  pairTlb : List (List TlbE)
  walks : List Walk
  s2 : List S2E
  ats : List S2E
  atsInv : List (Nat × Nat × Nat)
  dedicated : BitVec 128
  aside : List (Nat × Nat × Nat)
  lame : List (Nat × Nat × Nat)
  lastCtx : List (Nat × Nat)
  mapCache : List (List MapE)
  stamp : Nat
  nextId : Nat
  deriving DecidableEq, Repr

/-! ### Tables -/

/-- A pin on a version: its number, and the grid of an explicit pin (R255); none for a cursor's. -/
structure Pin where
  id : Nat
  grid : Option Nat
  deriving DecidableEq, Repr

/-- A version of a table (R232, R233, R254): descriptor words, index (slot, key) in slot order, pins, and deleted slots
with the pins that keep them from reuse (R251). `cur`: it is the current version of `id` in `ctx`. (DESIGN CHOICE, log 51) -/
structure Version where
  uid : Nat
  ctx : Nat
  id : Nat
  d0 : DWord
  d1 : DWord
  d2 : DWord
  d3 : DWord
  cur : Bool
  index : List (Nat × Nat)
  pins : List Pin
  graves : List (Nat × List Nat)
  deriving DecidableEq, Repr

/-! ### Contexts, queues, stops -/

/-- A collective group (R381). -/
structure Group where
  id : Nat
  g : Nat
  rank : Nat
  sw : Bool
  members : List Nat
  deriving DecidableEq, Repr

/-- A context (R266, R267, R276, R373): descriptor words C0 to C7, owner, event counters that are not 0 (sorted), groups,
granted pairs, and the time-outs of its slices. -/
structure Ctx where
  id : Nat
  c : List DWord
  owner : Nat
  counters : List (Nat × DWord)
  groups : List Group
  granted : BitVec 128
  deriving DecidableEq, Repr

/-- A packet in a launch queue (R268, R271, R272). `status` once it has completed. -/
structure QPkt where
  idx : Nat
  iface : Nat
  ring : Nat
  seq : Nat
  w : List DWord
  started : Bool
  status : Option Nat
  deriving DecidableEq, Repr

/-- A device launch queue (R267, R271, R272). `bind`: context, priority, interface, ring. -/
structure Queue where
  bind : Option (Nat × Nat × Nat × Nat)
  pkts : List QPkt
  nextIdx : Nat
  lret : Nat
  halted : Bool
  hstat : Nat
  deriving DecidableEq, Repr

/-- A STOP or the end of a slice (R276 to R278). `reply`: interface, ring index and type to complete. -/
structure StopE where
  id : Nat
  ctx : Nat
  pairs : BitVec 128
  deadline : Nat
  delivered : Bool
  drain : Nat
  reply : Option (Nat × Nat)
  deriving DecidableEq, Repr

/-- A host-class fault that waits for FAULTREPLY (R283, R376). -/
structure HFault where
  id : Nat
  ctx : Nat
  warp : Nat
  lanes : List Nat
  code : Code
  deriving DecidableEq, Repr

/-- A regroup in flight or in force (R299 to R306). `slots`: the slots it holds, ascending; `orig`: warps of the original
packing as (team, idx, slot); `back`: formed warps stand, and REGRPB is next; `waits`: other domains whose warps are to come back into this
one. -/
structure Domain where
  id : Nat
  core : Nat
  slots : List Nat
  orig : List (Nat × Nat × Nat)
  back : Bool
  waits : List Nat
  deriving DecidableEq, Repr

/-- Scheduling (R266 to R287, R299). -/
structure Sched where
  ctxs : List Ctx
  queues : List Queue
  turn : List Nat
  stops : List StopE
  hfaults : List HFault
  doms : List Domain
  nextStop : Nat
  nextFault : Nat
  deriving DecidableEq, Repr

/-! ### Press -/

/-- A bin's state (R339). -/
inductive BinSt where
  | cache | entering | press | draining
  deriving DecidableEq, Repr

/-- A cellar bin (R14, R339 to R343). `rows`: the press rows that are not 0, ascending. -/
structure Bin where
  st : BinSt
  owner : Nat
  ops : List POp
  rows : List (Nat × BitVec 262144)
  deriving DecidableEq, Repr

/-- A PMODE in flight (R348). -/
structure Pmode where
  core : Nat
  warp : Nat
  team : Nat
  seq : Nat
  tag : Nat
  pc : Word
  press : Bool
  bins : List Nat
  deriving DecidableEq, Repr

/-! ### Host interface and links -/

/-- A ring of an interface (R368, R372). -/
structure Ring where
  base : Nat
  log : Nat
  head : Nat
  tail : Nat
  deriving DecidableEq, Repr

/-- One interface: control ring, launch rings, completion and event rings, and the notify page's own fields (R368, R369), the
address and data programmed for its four MSI-X vectors (R376). -/
structure Iface where
  rings : List (Option Ring)
  chead : Nat
  ehead : Nat
  events : Nat
  heldEvents : List (List DWord)
  vectors : List (DWord × Word)
  deriving DecidableEq, Repr

/-- What the module sends: completion and event records, interrupts, host reads, writes, AtomicOps and snoop answers, and
link flits (R374, R376, R378). (DESIGN CHOICE, log 14) -/
inductive Msg where
  | completion (iface : Nat) (w0 w1 : DWord)
  | event (iface : Nat) (e : List DWord)
  | msix (iface vector : Nat) (addr : DWord) (data : Word)
  | hostRead (id addr len : Nat)
  | hostWrite (addr : Nat) (bytes : List Byte) (poison : BitVec 4)
  | cxlRead (id line : Nat) (half own : Bool)
  | cxlData (line : Nat) (half : Bool) (bytes : List Byte) (dirty poison : BitVec 2)
  | zeroRead (id : Nat)
  | atomicOp (id addr : Nat) (op : AtomOp) (bytes : List Byte)
  | atomicCas (id addr : Nat) (c n : List Byte)
  | backInval (line : Nat)
  | memData (line : Nat) (bytes : List Byte) (poison : BitVec 4)
  | ats (die pasid page : Nat)
  | atsDone (pasid page : Nat)
  | snoopDone (line : Nat) (half : Bool)
  | flit (f : Flit) (head : List DWord)
  | linkError (port : Nat)
  deriving DecidableEq, Repr

/-- The host interface (R368 to R376). `pasids`: PASID and interface of each grant; `revoked`: PASIDs revoked
since (R375); `slow`: control packets that complete
later (TLBINV, CLOCK, DESTROY), as (interface, index, type, context, word). -/
structure HostSys where
  ifaces : List Iface
  pasids : List (Nat × Nat)
  revoked : List Nat
  slow : List (Nat × Nat × Nat × Nat × Nat)
  outbox : List Msg
  deriving DecidableEq, Repr

/-- An access sent to a peer and not yet answered (R380). `req`: its name among the warp's requests; `id`, `port`: of the
flit; `flit`: the flit, until what it must follow (`deps`, R203) is performed; `op`: the operation on the line of lane `lane`, at address
`va`. -/
structure PeerReq where
  req : Nat
  id : Nat
  port : Nat
  core : Nat
  warp : Nat
  grid : Nat
  pend : Nat
  op : LineOp
  lane : Nat
  va : Nat
  deps : List Nat
  flit : Option Flit
  deriving DecidableEq, Repr

/-- The links (R17, R378 to R382). `out`: requests to peers awaiting their response, as the home requests they carry;
`inb`: flits of peers under way here, with the request that answers each; `parts`: reduce-write contributions received for the
collectives. -/
structure LinkSys where
  live : BitVec 16
  own : Nat
  exportCtx : Option Nat
  out : List PeerReq
  nextFlit : Nat
  inb : List (Nat × Flit)
  parts : List (Nat × Nat × Nat × List Byte)
  deriving DecidableEq, Repr

/-! ### Trace, status page -/

/-- A breakpoint (R387, R397). -/
structure Break where
  pc : Nat
  seq : Nat
  code : Nat
  mode : Nat
  core : Nat
  deriving DecidableEq, Repr

/-- The trace page and the trace agent (R387 to R397). `units`: for each die, cycles of use and of stall of its 12 units (R389);
`latched`: GTIME of the last latch (R391). `wpos`: where the next record goes; `writes`: records whose bytes are still to be performed, each
with the WIDX that counts it and the requests for it (R388). -/
structure Trace where
  ctx : Nat
  k : Nat
  flags : BitVec 6
  dest : Nat
  widx : Nat
  ridx : Nat
  lost : Nat
  dropped : Bool
  rq : Nat
  rteam : Nat
  armed : Bool
  evsel : List Nat
  bps : List Break
  dsel : Nat
  dacc : DWord
  ddata : DWord
  units : List (List (Nat × Nat))
  latched : Nat
  wpos : Nat
  writes : List (Nat × List Nat)
  deriving DecidableEq, Repr

/-- STATE of the status page (R400). -/
inductive BootSt where
  | booting | ready | safe | alarm
  deriving DecidableEq, Repr

/-- The status page, the fuses and the bring-up sequencer (R399 to R403). -/
structure Boot where
  st : BootSt
  stage : Nat
  cause : Nat
  unit : Nat
  fwsvn : DWord
  cecnt : DWord
  nonce : List Byte
  ago : Bool
  report : List Byte
  digest : BitVec 512
  revoked : BitVec 4
  rollback : DWord
  erase : Bool
  erased : Bool
  serial : DWord
  down : BitVec 16
  deriving DecidableEq, Repr

/-- A die's clock (R18, R371, R408): cycles begun, how much of the cycle in progress has passed (in units of
1/25,237,812,600 ns, of which every setting's cycle is a whole number), the setting of the cycle in progress, the setting in force,
the setting that the last heartbeat tick found to take effect, the setting selected, the ceiling that heat imposes, the tick at which heat last
moved it (counted from 1), and how many SYNC
records its cycle count has called for (R390). -/
structure Die where
  clk : Nat
  frac : Nat
  cycle : Nat
  setting : Nat
  target : Nat
  selected : Nat
  heat : Nat
  stepped : Nat
  synced : Nat
  deriving DecidableEq, Repr

/-! ### The whole -/

/-- The module. `agenda`: what happens next from outside, or which internal step is taken next, with the ns that pass
before it (MODEL: plain data that says what moves next); `tempo`: ns that pass before a step that the agenda does not
name (MODEL); `cur`: the warp (core, slot) whose run the issue logic is executing (MODEL); `lastCore`: the core
that last chose a run (MODEL); `slots`: for each core, the cycle of its die's clock from which each issue slot is free (R95, R274);
`fresh`: the counter that free
values are drawn with (MODEL); `uid`: the next unused name of a warp, team, grid, version or pin (MODEL). -/
structure State where
  agenda : List (Nat × Instr)
  tempo : Nat
  fresh : Nat
  uid : Nat
  cur : Option (Nat × Nat)
  lastCore : Nat
  slots : List (Nat × Nat)
  gtime : Nat
  dies : List Die
  warps : List Warp
  teams : List Team
  grids : List Grid
  cores : List Core
  mem : MemSys
  tabs : List Version
  sch : Sched
  bins : List Bin
  pmodes : List Pmode
  host : HostSys
  link : LinkSys
  trace : Trace
  boot : Boot
  deriving DecidableEq, Repr

/-! ### Reset -/

/-- A core after reset (R312: CMDSEQ starts at 1). (DESIGN CHOICE, log 10) -/
def Core.reset : Core where
  l1 := []
  tlb := []
  icache := []
  nextSeq := 1
  queues := List.replicate 6 []
  opbuf := []
  opPoison := []
  res := []
  scales := []
  array := none
  lease := none
  leaseReq := []
  slaved := false
  held := []
  ev := List.replicate 16 0
  issueUse := (0, 0)
  arrayUse := (0, 0)
  watch := List.replicate 4 ⟨0, 0, 0⟩

/-- The memory system after reset: nothing listed, nothing held (DESIGN CHOICE, log 10). -/
def MemSys.reset : MemSys where
  dram := []
  poison := []
  cellar := []
  dir := []
  queue := []
  fills := List.replicate 192 0
  bridge := []
  hostOps := []
  ncTab := List.replicate 16 ⟨0, 0, false⟩
  pairTlb := List.replicate 128 []
  walks := []
  s2 := []
  ats := []
  atsInv := []
  dedicated := 0
  aside := []
  lame := []
  lastCtx := []
  mapCache := List.replicate 16 []
  stamp := 0
  nextId := 1

def Queue.reset : Queue := ⟨none, [], 0, 0, false, 0⟩

def Sched.reset : Sched where
  ctxs := []
  queues := List.replicate 64 Queue.reset
  turn := List.replicate 4 63
  stops := []
  hfaults := []
  doms := []
  nextStop := 0
  nextFault := 1

def Iface.reset : Iface := ⟨List.replicate 11 none, 0, 0, 0, [], List.replicate 4 (0, 0)⟩

def Trace.reset : Trace where
  ctx := 0
  k := 16
  flags := 0
  dest := 0
  widx := 0
  ridx := 0
  lost := 0
  dropped := false
  rq := 0
  rteam := 0
  armed := false
  evsel := List.replicate 16 0
  bps := List.replicate 8 ⟨0, 0, 0, 0, 0⟩
  dsel := 0
  dacc := 0
  ddata := 0
  units := List.replicate 4 (List.replicate 12 (0, 0))
  latched := 0
  wpos := 0
  writes := []

def Boot.reset : Boot where
  st := .booting
  stage := 1
  cause := 0
  unit := 0
  fwsvn := 0
  cecnt := 0
  nonce := List.replicate 32 0
  ago := false
  report := List.replicate 512 0
  digest := 0
  revoked := 0
  rollback := 0
  erase := false
  erased := false
  serial := 0
  down := 0

/-- The module right after reset is released (R18, R19, R312, R371, R387, R399, R400): BOOTING at stage 1, GTIME 0,
every clock at setting 10, memory with nothing listed. (DESIGN CHOICE, log 7; DESIGN CHOICE, log 10) -/
def State.reset : State where
  agenda := []
  tempo := 1
  fresh := 0
  uid := 1
  cur := none
  lastCore := 255
  slots := List.replicate 256 (0, 0)
  gtime := 0
  dies := List.replicate 4 ⟨0, 0, 10, 10, 10, 10, 10, 0, 0⟩
  warps := []
  teams := []
  grids := []
  cores := List.replicate 256 Core.reset
  mem := MemSys.reset
  tabs := []
  sch := Sched.reset
  bins := List.replicate 24 ⟨.cache, 0, [], []⟩
  pmodes := []
  host := ⟨List.replicate 9 Iface.reset, [], [], [], []⟩
  link := ⟨BitVec.allOnes 16, 0, none, [], 0, [], []⟩
  trace := Trace.reset
  boot := Boot.reset

end Sys2Proof.Machine
end

