-- ==== Sys2Proof/Machine/Bits.lean ====
section
/-! DEFINITION. Fields of words, little-endian bytes (R51), memory as a canonical list of cells, and list
helpers that the meanings share. -/

namespace Sys2Proof.Machine

/-- Bits [lo+n-1:lo] of a 64-bit word. -/
def fld (x : DWord) (lo n : Nat) : Nat := x.toNat / 2 ^ lo % 2 ^ n

/-- Bits of a number. -/
def nfld (x lo n : Nat) : Nat := x / 2 ^ lo % 2 ^ n

/-- Word `i` of a command, packet or descriptor; 0 beyond its end. -/
def wordAt (w : List DWord) (i : Nat) : DWord := w.getD i 0

/-- The `n` low bytes of `x`, least significant first (R51). -/
def leBytes : Nat → Nat → List Byte
  | 0, _ => []
  | n + 1, x => BitVec.ofNat 8 x :: leBytes n (x / 256)

/-- The number that bytes hold, least significant first (R51). -/
def leNat : List Byte → Nat
  | [] => 0
  | b :: r => b.toNat + 256 * leNat r

/-- `n` two's-complement bits as an integer. -/
def sgn (n x : Nat) : Int := if x % 2 ^ n < 2 ^ (n - 1) then (x % 2 ^ n : Nat) else (x % 2 ^ n : Nat) - (2 ^ n : Nat)

/-- An integer modulo 2^n. -/
def wrapN (n : Nat) (x : Int) : Nat := (x % (2 ^ n : Nat)).toNat

/-! ### Memory -/

/-- The byte at an address; an unlisted address reads 0. (DESIGN CHOICE, log 11) -/
def Mem.get : Mem → Nat → Byte
  | [], _ => 0
  | (k, b) :: r, a => if k = a then b else if a < k then 0 else Mem.get r a

/-- Store one byte; a byte 0 is not listed. (DESIGN CHOICE, log 11) -/
def Mem.put : Mem → Nat → Byte → Mem
  | [], a, x => if x = 0 then [] else [(a, x)]
  | (k, b) :: r, a, x =>
    if a < k then (if x = 0 then (k, b) :: r else (a, x) :: (k, b) :: r)
    else if a = k then (if x = 0 then r else (k, x) :: r)
    else (k, b) :: Mem.put r a x

/-- `n` bytes from an address on. -/
def Mem.read (m : Mem) (a : Nat) : Nat → List Byte
  | 0 => []
  | n + 1 => m.get a :: Mem.read m (a + 1) n

/-- Store bytes from an address on. -/
def Mem.write (m : Mem) (a : Nat) : List Byte → Mem
  | [] => m
  | b :: r => Mem.write (m.put a b) (a + 1) r

/-- Every key is at least `lo`, keys rise strictly, and no byte is 0. -/
def Mem.wfFrom (lo : Nat) : Mem → Bool
  | [] => true
  | (k, b) :: r => decide (lo ≤ k) && b != 0 && Mem.wfFrom (k + 1) r

/-- The canonical form: addresses strictly rising, no byte 0. -/
def Mem.wf (m : Mem) : Bool := Mem.wfFrom 0 m

/-! ### Lines of 128 bytes in four sectors of 32 -/

def slice (d : List Byte) (off n : Nat) : List Byte := (d.drop off).take n

def patch (d : List Byte) (off : Nat) (x : List Byte) : List Byte := d.take off ++ x ++ d.drop (off + x.length)

/-- The sectors that bytes [off, off + n) touch. -/
def touched (off n : Nat) : BitVec 4 :=
  BitVec.ofNat 4 (((List.range 4).map fun i => if 32 * i < off + n ∧ off < 32 * (i + 1) then 2 ^ i else 0).sum)

/-- The sectors that bytes [off, off + n) cover. -/
def covered (off n : Nat) : BitVec 4 :=
  BitVec.ofNat 4 (((List.range 4).map fun i => if off ≤ 32 * i ∧ 32 * (i + 1) ≤ off + n then 2 ^ i else 0).sum)

/-- `new` in the sectors of `m`, `old` in the others. -/
def mergeSectors (old new : List Byte) (m : BitVec 4) : List Byte :=
  (List.range 4).flatMap fun i => slice (if m.getLsbD i then new else old) (32 * i) 32

/-! ### Lists -/

/-- The element with the least key, the first among equals. -/
def leastBy {α : Type} (f : α → Nat) : List α → Option α
  | [] => none
  | a :: r =>
    match leastBy f r with
    | none => some a
    | some b => if f b < f a then some b else some a

/-- `f` applied in order, threading a state. -/
def foldOver {α σ : Type} (l : List α) (s : σ) (f : σ → α → σ) : σ := l.foldl f s

end Sys2Proof.Machine
end

