-- ==== Sys2Proof/Machine/Float.lean ====
section
/-! DEFINITION. Floating arithmetic (R47 to R50, R53 to R59): values are exact dyadic numbers; every operation is exact and
rounded once. -/

namespace Sys2Proof.Machine

/-- A floating format (R47): exponent bits, stored significand bits, bias, whether it lacks infinities (E4M3). -/
structure Fmt where
  eb : Nat
  sb : Nat
  bias : Nat
  noInf : Bool
  deriving DecidableEq, Repr

def fmt32 : Fmt := ⟨8, 23, 127, false⟩
def fmt16 : Fmt := ⟨5, 10, 15, false⟩
def fmtBf : Fmt := ⟨8, 7, 127, false⟩
def fmtE4 : Fmt := ⟨4, 3, 7, true⟩
def fmtE5 : Fmt := ⟨5, 2, 15, false⟩

/-- A floating value: NaN, an infinity, or exactly (−1)^neg × m × 2^e (m 0: a signed zero). -/
inductive FV where
  | nan
  | inf (neg : Bool)
  | fin (neg : Bool) (m : Nat) (e : Int)
  deriving DecidableEq, Repr

def Fmt.width (f : Fmt) : Nat := 1 + f.eb + f.sb

/-- The largest finite magnitude, as bits without sign. -/
def Fmt.maxBits (f : Fmt) : Nat := if f.noInf then 2 ^ (f.eb + f.sb) - 2 else (2 ^ f.eb - 1) * 2 ^ f.sb - 1

/-- The canonical NaN (R53). -/
def Fmt.nanBits (f : Fmt) : Nat :=
  if f.noInf then 2 ^ (f.eb + f.sb) - 1 else (2 ^ f.eb - 1) * 2 ^ f.sb + 2 ^ (f.sb - 1)

def Fmt.infBits (f : Fmt) : Nat := (2 ^ f.eb - 1) * 2 ^ f.sb

def signBit (f : Fmt) (neg : Bool) : Nat := if neg then 2 ^ (f.eb + f.sb) else 0

/-- R47, R56: the value of `x`; under `ftz` a subnormal is a zero of its sign. -/
def FV.ofBits (f : Fmt) (ftz : Bool) (x : Nat) : FV :=
  let neg := x / 2 ^ (f.eb + f.sb) % 2 == 1
  let ex := x / 2 ^ f.sb % 2 ^ f.eb
  let fr := x % 2 ^ f.sb
  if f.noInf && ex == 2 ^ f.eb - 1 && fr == 2 ^ f.sb - 1 then .nan
  else if !f.noInf && ex == 2 ^ f.eb - 1 then (if fr == 0 then .inf neg else .nan)
  else if ex == 0 then .fin neg (if ftz then 0 else fr) (1 - (f.bias : Int) - f.sb)
  else .fin neg (2 ^ f.sb + fr) ((ex : Int) - f.bias - f.sb)

/-- R54: whether the magnitude `n` + rest is rounded up; `r2` against `d2` compares twice the rest with the unit. -/
def roundUp (r : Rnd) (neg : Bool) (n rest unit : Nat) : Bool :=
  match r with
  | .rn => decide (2 * rest > unit) || (2 * rest == unit && n % 2 == 1)
  | .rna => decide (2 * rest ≥ unit)
  | .rz => false
  | .rm => neg && decide (rest > 0)
  | .rp => !neg && decide (rest > 0)

/-- The magnitude m × 2^e in units of 2^q, rounded to an integer. -/
def roundTo (r : Rnd) (neg : Bool) (m : Nat) (e q : Int) : Nat :=
  if q ≤ e then m * 2 ^ (e - q).toNat
  else
    let d := (q - e).toNat
    let n := m / 2 ^ d
    if roundUp r neg n (m % 2 ^ d) (2 ^ d) then n + 1 else n

/-- R55: what an overflowing result becomes, without sign. -/
def overflowBits (f : Fmt) (r : Rnd) (sat neg : Bool) : Nat :=
  if sat then f.maxBits
  else
    let toInf := match r with
      | .rn | .rna => true
      | .rz => false
      | .rm => neg
      | .rp => !neg
    if toInf then (if f.noInf then f.nanBits else f.infBits) else f.maxBits

/-- R53 to R57: the bits of an exact value rounded once to a format. -/
def FV.round (f : Fmt) (r : Rnd) (sat ftz : Bool) (v : FV) : Nat :=
  match v with
  | .nan => f.nanBits
  | .inf neg =>
    if sat then signBit f neg + f.maxBits
    else if f.noInf then f.nanBits else signBit f neg + f.infBits
  | .fin neg m e =>
    if m = 0 then signBit f neg
    else
      let lo : Int := 1 - (f.bias : Int) - f.sb
      let q : Int := max ((Nat.log2 m : Int) + e - f.sb) lo
      let n := roundTo r neg m e q
      let bits := ((q - lo).toNat) * 2 ^ f.sb + n
      if bits > f.maxBits then
        (let o := overflowBits f r sat neg
         if f.noInf && o == f.nanBits then o else signBit f neg + o)
      else if ftz && decide (bits < 2 ^ f.sb) then signBit f neg
      else signBit f neg + bits

def FV.neg : FV → FV
  | .nan => .nan
  | .inf n => .inf (!n)
  | .fin n m e => .fin (!n) m e

def FV.isNan : FV → Bool
  | .nan => true
  | _ => false

def FV.isNeg : FV → Bool
  | .nan => false
  | .inf n => n
  | .fin n _ _ => n

def FV.isZero : FV → Bool
  | .fin _ 0 _ => true
  | _ => false

/-- The signed integer mantissa. -/
def sgnNat (neg : Bool) (m : Nat) : Int := if neg then -(m : Int) else m

/-- An integer times 2^e as a value; zero with the sign `nz`. -/
def FV.ofInt (x e : Int) (nz : Bool) : FV := if x = 0 then .fin nz 0 e else .fin (decide (x < 0)) x.natAbs e

/-- R53, R55: the exact sum; a zero sum of opposite values is +0, and −0 under RM. -/
def FV.add (r : Rnd) (a b : FV) : FV :=
  match a, b with
  | .nan, _ => .nan
  | _, .nan => .nan
  | .inf x, .inf y => if x = y then .inf x else .nan
  | .inf x, _ => .inf x
  | _, .inf y => .inf y
  | .fin na ma ea, .fin nb mb eb =>
    let e := min ea eb
    let x := sgnNat na ma * 2 ^ (ea - e).toNat + sgnNat nb mb * 2 ^ (eb - e).toNat
    FV.ofInt x e (if ma = 0 ∧ mb = 0 ∧ na = nb then na else r == .rm)

def FV.mul (a b : FV) : FV :=
  match a, b with
  | .nan, _ => .nan
  | _, .nan => .nan
  | .inf x, .inf y => .inf (x != y)
  | .inf x, .fin n m _ => if m = 0 then .nan else .inf (x != n)
  | .fin n m _, .inf y => if m = 0 then .nan else .inf (n != y)
  | .fin na ma ea, .fin nb mb eb => .fin (na != nb) (ma * mb) (ea + eb)

/-- The quotient, with enough bits and a sticky bit that any one rounding to FP32 is exact (R360). -/
def FV.div (a b : FV) : FV :=
  match a, b with
  | .nan, _ => .nan
  | _, .nan => .nan
  | .inf _, .inf _ => .nan
  | .inf x, .fin n _ _ => .inf (x != n)
  | .fin n _ _, .inf y => .fin (n != y) 0 0
  | .fin na ma ea, .fin nb mb eb =>
    if mb = 0 then (if ma = 0 then .nan else .inf (na != nb))
    else
      let k := 80 + Nat.log2 mb
      let q := ma * 2 ^ k / mb
      let s := if ma * 2 ^ k % mb = 0 then 0 else 1
      .fin (na != nb) (2 * q + s) (ea - eb - k - 1)

/-- The order of two values that are no NaN: negative, zero or positive (R126; −0 equals +0). -/
def FV.cmp (a b : FV) : Int :=
  match a, b with
  | .fin na ma ea, .fin nb mb eb =>
    let e := min ea eb
    sgnNat na ma * 2 ^ (ea - e).toNat - sgnNat nb mb * 2 ^ (eb - e).toNat
  | .inf x, .inf y => if x = y then 0 else if x then -1 else 1
  | .inf x, _ => if x then -1 else 1
  | _, .inf y => if y then 1 else -1
  | _, _ => 0

/-- R143: `a` is below `b`, with −0 below +0. -/
def FV.below (a b : FV) : Bool :=
  decide (FV.cmp a b < 0) || (decide (FV.cmp a b = 0) && a.isNeg && !b.isNeg)

/-- R59: rounded to an integer. -/
def FV.toInt (r : Rnd) (neg : Bool) (m : Nat) (e : Int) : Int := sgnNat neg (roundTo r neg m e 0)

/-- R59: rounded to an integer and clamped to [lo, hi]; a NaN gives 0. -/
def FV.clampInt (r : Rnd) (lo hi : Int) (v : FV) : Int :=
  match v with
  | .nan => 0
  | .inf n => if n then lo else hi
  | .fin n m e =>
    if (Nat.log2 m : Int) + e > 80 then (if m = 0 then 0 else if n then lo else hi)
    else max lo (min hi (FV.toInt r n m e))

/-! ### Fields of words -/

def f32 (x : Word) : FV := FV.ofBits fmt32 false x.toNat
def f32z (ftz : Bool) (x : Word) : FV := FV.ofBits fmt32 ftz x.toNat
def to32 (r : Rnd) (v : FV) : Word := BitVec.ofNat 32 (FV.round fmt32 r false false v)
def to32x (r : Rnd) (sat ftz : Bool) (v : FV) : Word := BitVec.ofNat 32 (FV.round fmt32 r sat ftz v)
def nan32 : Word := 0x7FC00000#32
/-- R5: poison(). -/
def poison32 : Word := 0x7FC0DEAD#32

/-- FMIN (R143), on FP32 bits read under `.FTZ` or not; the operand returned is unchanged but for the flush. -/
def minBits (f : Fmt) (ftz : Bool) (a b : Nat) : Nat :=
  let x := FV.ofBits f ftz a
  let y := FV.ofBits f ftz b
  let keep := fun (v : FV) (raw : Nat) => if v.isZero then signBit f v.isNeg else raw
  if x.isNan && y.isNan then f.nanBits
  else if x.isNan then keep y b
  else if y.isNan then keep x a
  else if FV.below y x then keep y b else keep x a

def maxBits (f : Fmt) (ftz : Bool) (a b : Nat) : Nat :=
  let x := FV.ofBits f ftz a
  let y := FV.ofBits f ftz b
  let keep := fun (v : FV) (raw : Nat) => if v.isZero then signBit f v.isNeg else raw
  if x.isNan && y.isNan then f.nanBits
  else if x.isNan then keep y b
  else if y.isNan then keep x a
  else if FV.below x y then keep y b else keep x a

/-! ### D2P8 (R49, R50) -/

/-- The value of one term in units of 2^-6. -/
def d2term (s c : Nat) : Int := if c = 7 then 0 else if s = 1 then -(2 ^ (6 - c) : Int) else 2 ^ (6 - c)

/-- The value of a D2P8 byte in units of 2^-6. -/
def d2val (b : Nat) : Int := d2term (b / 128 % 2) (b / 16 % 8) + d2term (b / 8 % 2) (b % 8)

def d2FV (b : Nat) : FV := FV.ofInt (d2val b) (-6) false

/-- Nonzero terms of a byte. -/
def d2terms (b : Nat) : Nat := (if b / 16 % 8 = 7 then 0 else 1) + (if b % 8 = 7 then 0 else 1)

/-- R50 step 4: a byte is the canonical code of its value. Opposite signs one or two codes apart have an equal-sign or
one-term form (2^-a - 2^-(a+1) = 2^-(a+1); 2^-a - 2^-(a+2) = 2^-(a+1) + 2^-(a+2)). -/
def d2canon (b : Nat) : Bool :=
  let s1 := b / 128 % 2
  let c1 := b / 16 % 8
  let s2 := b / 8 % 2
  let c2 := b % 8
  if c1 = 7 then b == 0x77
  else if c2 = 7 then s2 == 0
  else if c1 = c2 then b == 0x00 || b == 0x88
  else
    decide (c1 < c2) && (s1 == s2 || decide (c1 + 3 ≤ c2))

/-- The canonical bytes, ascending. -/
def d2codes : List Nat := (List.range 256).filter d2canon

/-- `a` is the better code for the magnitude and sign `x` × 2^e than `b`: nearer, then fewer terms, then smaller. -/
def d2better (x e : Int) (a b : Nat) : Bool :=
  let lo := min e (-6)
  let t := x * 2 ^ (e - lo).toNat
  let u : Int := 2 ^ (-6 - lo).toNat
  let da := (t - d2val a * u).natAbs
  let db := (t - d2val b * u).natAbs
  decide (da < db) ||
  (da == db && (decide (d2terms a < d2terms b) ||
    (d2terms a == d2terms b && decide ((d2val a).natAbs < (d2val b).natAbs))))

/-- R50: conversion to D2P8. -/
def toD2 (v : FV) : Nat :=
  match v with
  | .nan => 0x77
  | .inf n => if n then 0x88 else 0x00
  | .fin n m e =>
    if m ≠ 0 ∧ (Nat.log2 m : Int) + e ≥ 2 then (if n then 0x88 else 0x00)
    else if m ≠ 0 ∧ (Nat.log2 m : Int) + e < -20 then 0x77
    else d2codes.foldl (fun best c => if d2better (sgnNat n m) e c best then c else best) 0x77

end Sys2Proof.Machine
end

