-- ==== Sys2Proof/Machine/Memory.lean ====
section
/-! DEFINITION. The memory system: translation (R165, R171 to R176), the L1 caches, the cellar and the directory
(R170, R178, R179, R217 to R225, R260), the CXL bridge (R226 to R231), and the operations the home performs on a line
(R184, R189, R190, R261, R383, R385). -/

namespace Sys2Proof

/-- R15, R226: the slice that is a line's home, and its set there. -/
def LineId.num : LineId → Nat
  | .dev n => n
  | .host n => n

def LineId.home : LineId → Nat
  | .dev n => 48 * (n / 2 ^ 29) + n % 48
  | .host n => n % 48

/-- The set of a line in its slice: the spec gives no index function (DESIGN CHOICE, log 56). -/
def LineId.set (l : LineId) : Nat := l.num / 48 % 2048

def LineId.isHost : LineId → Bool
  | .dev _ => false
  | .host _ => true

end Sys2Proof

namespace Sys2Proof.Machine

/-! ### Parts by number -/

def State.core (s : State) (c : Nat) : Core := s.cores.getD c Core.reset
def State.modCore (s : State) (c : Nat) (f : Core → Core) : State := { s with cores := s.cores.modify c f }
def State.modMem (s : State) (f : MemSys → MemSys) : State := { s with mem := f s.mem }
def State.ctx (s : State) (c : Nat) : Option Ctx := s.sch.ctxs.find? fun x => x.id == c
def State.modCtx (s : State) (c : Nat) (f : Ctx → Ctx) : State :=
  { s with sch := { s.sch with ctxs := s.sch.ctxs.map fun x => if x.id == c then f x else x } }
/-- A message leaves the module, with no other effect (DESIGN CHOICE, log 14). -/
def State.send (s : State) (m : Msg) : State := { s with host := { s.host with outbox := s.host.outbox ++ [m] } }

/-- R339: the slice's bin caches no lines. -/
def State.pressed (s : State) (sl : Nat) : Bool :=
  match s.bins[sl / 8]? with
  | some b => b.st != .cache
  | none => false

/-! ### Attributes (R173) -/

def attrRcd (a : BitVec 16) : Nat := a.toNat / 2 ^ 12 % 8
def attrMsc (a : BitVec 16) : Bool := a.getLsbD 11
def attrCoh (a : BitVec 16) : Nat := a.toNat / 2 ^ 9 % 4
def attrEvp (a : BitVec 16) : Nat := a.toNat / 2 ^ 7 % 4
def attrCmp (a : BitVec 16) : Bool := a.getLsbD 6
def attrWt (a : BitVec 16) : Bool := a.getLsbD 5
def attrLvl (a : BitVec 16) : Nat := a.toNat / 2 ^ 3 % 4
def attrX (a : BitVec 16) : Bool := a.getLsbD 2
def attrW (a : BitVec 16) : Bool := a.getLsbD 1
/-- Bit 15 of the attributes a request carries: its line is storage of a row-cached table (R260). -/
def attrRow (a : BitVec 16) : Bool := a.getLsbD 15

def attrCls (a : BitVec 16) : Cls := if attrCoh a = 0 then .dir else if attrCoh a = 1 then .self else .unc

/-- R231: the attributes of a non-coherent line. -/
def attrNc (a : BitVec 16) : BitVec 16 := BitVec.ofNat 16 (a.toNat / 2 ^ 11 * 2 ^ 11 + 2 * 2 ^ 9 + 2 * 2 ^ 3 + a.toNat % 8)

/-! ### Cellar and DRAM -/

def State.cell (s : State) (l : LineId) : Option CellLine := s.mem.cellar.find? fun x => x.line == l

/-- The poison of the four sectors of a DRAM line. -/
def dramPoison (m : MemSys) (n : Nat) : BitVec 4 :=
  BitVec.ofNat 4 (((List.range 4).map fun i => if m.poison.contains (4 * n + i) then 2 ^ i else 0).sum)

/-- The line below the cellar: DRAM, or the bridge's copy of a host line. -/
def State.below (s : State) (l : LineId) : List Byte × BitVec 4 :=
  match l with
  | .dev n => (s.mem.dram.read (128 * n) 128, dramPoison s.mem n)
  | .host n =>
    match s.mem.bridge.find? fun b => b.line == n with
    | some b => (b.data, b.poison)
    | none => (List.replicate 128 0, 0)

/-- Write one sector to DRAM with its poison. -/
def dramSector (m : MemSys) (n i : Nat) (d : List Byte) (p : Bool) : MemSys :=
  { m with
    dram := m.dram.write (128 * n + 32 * i) (slice d (32 * i) 32)
    poison := if p then (if m.poison.contains (4 * n + i) then m.poison else m.poison ++ [4 * n + i])
              else m.poison.filter fun x => x != 4 * n + i }

/-- Sectors written below the cellar: to DRAM, or into the bridge's copy, whose half becomes modified (R227). -/
def State.putBelow (s : State) (l : LineId) (mask : BitVec 4) (d : List Byte) (p : BitVec 4) : State :=
  match l with
  | .dev n =>
    s.modMem fun m => (List.range 4).foldl
      (fun m i => if mask.getLsbD i then dramSector m n i d (p.getLsbD i) else m) m
  | .host n =>
    s.modMem fun m => { m with
      bridge := m.bridge.map fun b =>
        if b.line == n then
          { b with
            data := mergeSectors b.data d mask
            dirty := b.dirty ||| mask
            poison := (b.poison &&& ~~~mask) ||| (p &&& mask)
            h0 := if mask.toNat % 4 ≠ 0 then .modified else b.h0
            h1 := if mask.toNat / 4 ≠ 0 then .modified else b.h1 }
        else b }

def State.modCell (s : State) (l : LineId) (f : CellLine → CellLine) : State :=
  s.modMem fun m => { m with cellar := m.cellar.map fun x => if x.line == l then f x else x }

def State.dropCell (s : State) (l : LineId) : State :=
  s.modMem fun m => { m with cellar := m.cellar.filter fun x => x.line != l }

/-- Write the dirty sectors of the cellar copy below; it stays, clean. -/
def State.cleanCell (s : State) (l : LineId) : State :=
  match s.cell l with
  | none => s
  | some c => (s.putBelow l c.dirty c.data c.poison).modCell l fun x => { x with dirty := 0 }

def State.evictCell (s : State) (l : LineId) : State := (s.cleanCell l).dropCell l

/-- A use of some copy takes the next number in the order of uses (R179). -/
def State.nextUse (s : State) : State := s.modMem fun m => { m with stamp := m.stamp + 1 }

/-- Sectors written at the home: into the cellar copy where one is held, which is a use of it (R179), else below; the count ends
(R178). -/
def State.homePatch (s : State) (l : LineId) (mask : BitVec 4) (d : List Byte) (p : BitVec 4) : State :=
  if mask = 0 then s
  else if (s.cell l).isSome then
    (s.modCell l fun x => { x with
      data := mergeSectors x.data d mask
      dirty := x.dirty ||| mask
      poison := (x.poison &&& ~~~mask) ||| (p &&& mask)
      used := s.mem.stamp
      rc := none }).nextUse
  else s.putBelow l mask d p

/-- The line as the home holds it. -/
def State.homeData (s : State) (l : LineId) : List Byte × BitVec 4 :=
  match s.cell l with
  | some c => (c.data, c.poison)
  | none => s.below l

/-- R179: eviction priority, with R260 for row-cached lines. -/
def CellLine.prio (c : CellLine) : Nat :=
  match c.freq with
  | some f => f / 4
  | none => c.evp

/-- R179, R260: the victim among candidate lines: lowest priority, then least recently used; where that is a row-cached
line, the row-cached line of that priority with the lowest count. -/
def victimOf (cs : List CellLine) : Option CellLine :=
  match leastBy CellLine.prio cs with
  | none => none
  | some lo =>
    let same := cs.filter fun c => c.prio == lo.prio
    match leastBy (fun c => c.used) same with
    | none => none
    | some v =>
      if v.freq.isSome then leastBy (fun c => (c.freq.getD 0) * 2 ^ 64 + c.used) (same.filter fun c => c.freq.isSome)
      else some v

/-- R179: the lines of a context held in the cellar, against its soft limit. -/
def State.overSoft (s : State) (ctx : Nat) : Bool :=
  match s.ctx ctx with
  | none => false
  | some c =>
    let lim := fld (wordAt c.c 6) 0 32
    lim != 0 && decide ((s.mem.cellar.filter fun x => x.ctx == ctx).length > lim)

/-- Make room in the line's set. -/
def State.makeRoom (s : State) (l : LineId) (ctx : Nat) : State :=
  let set := s.mem.cellar.filter fun x => x.line.home == l.home && x.line.set == l.set
  if set.length < 16 then s
  else
    let own := set.filter fun x => x.ctx == ctx
    match victimOf (if s.overSoft ctx && !own.isEmpty then own else set) with
    | some v => s.evictCell v.line
    | none => s

/-- R170, R218: a read of the line passes through the cellar. -/
def State.cellable (s : State) (l : LineId) (attr : BitVec 16) : Bool :=
  decide (attrLvl attr ≤ 1) && !(l.isHost && attrCoh attr == 2) && !s.pressed l.home

/-- R178: what the read that makes the count `k` does to the copy. -/
def countRead (n k : Nat) : Option (Nat × Nat) := if k ≥ n then none else some (n, k)

/-- R178, R260: a read served at the home; the line and its poison. -/
def State.homeRead (s : State) (l : LineId) (attr : BitVec 16) (ctx rc : Nat) : State × List Byte × BitVec 4 :=
  let n := if rc ≠ 0 then rc else attrRcd attr
  let st := s.mem.stamp
  let s := s.modMem fun m => { m with stamp := m.stamp + 1 }
  match s.cell l with
  | some c =>
    let s := s.modCell l fun x => { x with used := st, freq := x.freq.map fun f => min 15 (f + 1) }
    let s :=
      match c.rc with
      | some (m, k) => if k + 1 ≥ m then s.dropCell l else s.modCell l fun x => { x with rc := some (m, k + 1) }
      | none =>
        if n = 0 ∨ c.dirty ≠ 0 then s
        else if n = 1 then s.dropCell l else s.modCell l fun x => { x with rc := some (n, 1) }
    (s, c.data, c.poison)
  | none =>
    let (d, p) := s.below l
    if s.cellable l attr then
      let s := s.makeRoom l ctx
      let s := s.modMem fun m => { m with fills := m.fills.modify l.home (· + 1) }
      if n = 1 then (s, d, p)
      else
        let c : CellLine := ⟨l, attrCls attr, d, 0, p, if n = 0 then none else some (n, 1), attrEvp attr, ctx,
          if attrRow attr then some 1 else none, st⟩
        (s.modMem fun m => { m with cellar := m.cellar ++ [c] }, d, p)
    else (s, d, p)

/-! ### L1 and directory -/

def State.l1 (s : State) (c : Nat) (l : LineId) : Option L1Line := (s.core c).l1.find? fun x => x.line == l

def State.modL1 (s : State) (c : Nat) (l : LineId) (f : L1Line → L1Line) : State :=
  s.modCore c fun k => { k with l1 := k.l1.map fun x => if x.line == l then f x else x }

def State.dropL1 (s : State) (c : Nat) (l : LineId) : State :=
  s.modCore c fun k => { k with l1 := k.l1.filter fun x => x.line != l }

def State.dirOf (s : State) (l : LineId) : Option DirE := s.mem.dir.find? fun x => x.line == l

def State.modDir (s : State) (l : LineId) (f : DirE → DirE) : State :=
  s.modMem fun m => { m with dir := m.dir.map fun x => if x.line == l then f x else x }

/-- Dirty sectors of an L1 copy go to the home (R220). -/
def State.writeBack (s : State) (x : L1Line) : State := s.homePatch x.line x.dirty x.data x.poison

/-- R220, R224: every other core's tracked copy is written back, then kept shared or invalidated. -/
def State.recall (s : State) (l : LineId) (but : Option Nat) (keep : Bool) : State :=
  match s.dirOf l with
  | none => s
  | some e =>
    let cs := e.sharers.filter fun c => some c != but
    let s := cs.foldl (fun s c =>
      match s.l1 c l with
      | none => s
      | some x =>
        if x.cls != .dir then s
        else
          let s := s.writeBack x
          if keep then s.modL1 c l fun x => { x with st := .shared, dirty := 0 } else s.dropL1 c l) s
    s.modDir l fun e =>
      if keep then { e with owner := if e.owner == but then e.owner else none }
      else { e with sharers := e.sharers.filter fun c => some c == but,
                    owner := if e.owner == but then e.owner else none }

/-- The entries that share a line's set in the directory (DESIGN CHOICE, log 56). -/
def State.dirSet (s : State) (l : LineId) : List DirE :=
  s.mem.dir.filter fun x => x.line.home == l.home && x.line.num / 48 % 1024 == l.num / 48 % 1024

/-- R221: the entry that makes room for one of the line, where its set is full: one that records no host copy, if there is one, the
least recently used. (DESIGN CHOICE, log 56) -/
def State.dirVictim (s : State) (l : LineId) : Option DirE :=
  if (s.dirOf l).isSome || decide ((s.dirSet l).length < 16) then none
  else leastBy (fun x => x.used) ((s.dirSet l).filter fun x => !x.host) <|> leastBy (fun x => x.used) (s.dirSet l)

/-- R221, R229: the entry to be evicted for the line records a host copy, which is invalidated first. -/
def State.hostVictim (s : State) (l : LineId) : Option LineId :=
  match s.dirVictim l with
  | some v => if v.host then some v.line else none
  | none => none

/-- R221: an entry of the directory is evicted, the copies it records first. (DESIGN CHOICE, log 56) -/
def State.evictDir (s : State) (l : LineId) : State :=
  let s := s.recall l none false
  s.modMem fun m => { m with dir := m.dir.filter fun x => x.line != l }

/-- R221: an entry for the line, in a set of 16 ways. -/
def State.needDir (s : State) (l : LineId) (cls : Cls) : State :=
  let st := s.mem.stamp
  match s.dirOf l with
  | some _ => s.modDir l fun e => { e with cls := cls, used := st }
  | none =>
    let s := match s.dirVictim l with
      | some v => s.evictDir v.line
      | none => s
    s.modMem fun m => { m with dir := m.dir ++ [⟨l, cls, [], none, false, st⟩] }

/-- A core gives up a copy, its dirty sectors written back. (DESIGN CHOICE, log 56) -/
def State.evictL1 (s : State) (c : Nat) (x : L1Line) : State :=
  let s := (s.writeBack x).dropL1 c x.line
  s.modDir x.line fun e => { e with
    sharers := e.sharers.filter fun k => k != c, owner := if e.owner == some c then none else e.owner }

/-- R13, R179: a copy enters the L1, 16 ways of 512 sets, least recently used first out. -/
def State.fillL1 (s : State) (c : Nat) (x : L1Line) : State :=
  let set := (s.core c).l1.filter fun y => y.line.num % 512 == x.line.num % 512 && y.line != x.line
  let s := if set.length < 16 then s
    else match leastBy (fun y => y.used) set with
      | some v => s.evictL1 c v
      | none => s
  (s.dropL1 c x.line).modCore c fun k => { k with l1 := k.l1 ++ [x] }

/-- R222: an acquire at `.COH` or wider drops the core's self-invalidating copies. (DEDUCED, log 53) -/
def State.dropSelf (s : State) (c : Nat) : State :=
  s.modCore c fun k => { k with l1 := k.l1.filter fun x => x.cls != .self }

/-- R219: the copies of the line were made by an access of another class. -/
def State.otherClass (s : State) (l : LineId) (cls : Cls) : Bool :=
  (match s.dirOf l with
  | some e => e.cls != cls
  | none => false) || (match s.cell l with
  | some c => c.cls != cls
  | none => false)

/-- R219: an access of another class than the one that made the line's copies: they are written back and invalidated. -/
def State.changeClass (s : State) (l : LineId) (cls : Cls) : State :=
  if s.otherClass l cls then ((s.recall l none false).evictCell l).modDir l fun e => { e with cls := cls } else s

/-- R219: a core's own copy of the line, made under another class, goes. -/
def State.dropOther (s : State) (c : Nat) (l : LineId) (cls : Cls) : State :=
  match s.l1 c l with
  | some x => if x.cls = cls then s else s.evictL1 c x
  | none => s

/-- R189, R222: a core's own self-invalidating copy of the line goes. -/
def State.dropOwn (s : State) (c : Nat) (l : LineId) : State :=
  match s.l1 c l with
  | some x => if x.cls = .self then s.dropL1 c l else s
  | none => s

/-- The line's current value, whoever holds it: what a coherent reader that leaves no copy sees. -/
def State.peek (s : State) (l : LineId) : List Byte :=
  let d := (s.homeData l).1
  match s.dirOf l with
  | none => d
  | some e => e.sharers.foldl (fun d c =>
      match s.l1 c l with
      | some x => if x.cls == .dir then mergeSectors d x.data x.dirty else d
      | none => d) d

/-- Module memory read byte by byte at a physical address, coherently. -/
def State.peekBytes (s : State) (pa n : Nat) : List Byte :=
  if pa % 128 + n ≤ 128 then slice (s.peek (.dev (pa / 128))) (pa % 128) n
  else (List.range n).map fun i => (s.peek (.dev ((pa + i) / 128))).getD ((pa + i) % 128) 0

/-! ### Operations on a line -/

/-- R188: the new value, on `n`-bit operands. -/
def atomNew (op : AtomOp) (t : Ty) (old b : Nat) : Nat :=
  let n := t.bits
  let lt := fun x y => if t.signed then decide (sgn n x < sgn n y) else decide (x < y)
  match op with
  | .add => if t = .f32 then FV.round fmt32 .rn false false (FV.add .rn (FV.ofBits fmt32 false old) (FV.ofBits fmt32 false b))
            else (old + b) % 2 ^ n
  | .min => if t = .f32 then minBits fmt32 false old b else if lt b old then b else old
  | .max => if t = .f32 then maxBits fmt32 false old b else if lt old b then b else old
  | .and => old &&& b
  | .or => old ||| b
  | .xor => old ^^^ b
  | .exch => b
  | .inc => if old ≥ b then 0 else old + 1
  | .dec => if old = 0 ∨ old > b then b else old - 1

/-- R261: what TADD adds in Q32.32. -/
def taddQ (b : Word) : Int := FV.clampInt .rn (-(2 ^ 63)) (2 ^ 63 - 1) (FV.mul (f32 b) (.fin false 1 32))

/-- What an operation returns to a lane: bytes for a register (sign-extended or not), or that it met poison. -/
structure LaneRes where
  lane : Nat
  reg : Option Nat
  sx : Bool
  bytes : List Byte
  cas : Bool
  bad : Bool
  deriving DecidableEq, Repr

/-- R184, R189, R190, R261, R383, R385, R405: one operation on a line: bytes, poison, what lanes receive. -/
def LineOp.run (op : LineOp) (d : List Byte) (p : BitVec 4) : List Byte × BitVec 4 × List LaneRes :=
  match op with
  | .read lane off size reg t =>
    if p &&& touched off size ≠ 0 then (d, p, [⟨lane, none, false, [], false, true⟩])
    else (d, p, [⟨lane, some reg, t.signed, slice d off size, false, false⟩])
  | .write off bytes => (patch d off bytes, p &&& ~~~covered off bytes.length, [])
  | .atom lane off o t b reg =>
    if p &&& touched off t.bytes ≠ 0 then (d, p, [⟨lane, none, false, [], false, true⟩])
    else
      let old := slice d off t.bytes
      (patch d off (leBytes t.bytes (atomNew o t (leNat old) (b.toNat % 2 ^ t.bits))), p,
        [⟨lane, reg, false, old, false, false⟩])
  | .cas lane off size c n reg =>
    if p &&& touched off size ≠ 0 then (d, p, [⟨lane, none, false, [], true, true⟩])
    else
      let old := slice d off size
      (if old = c then patch d off n else d, p, [⟨lane, some reg, false, old, true, false⟩])
  | .tadd lane off q b =>
    if p &&& touched off (if q then 8 else 4) ≠ 0 then (d, p, [⟨lane, none, false, [], false, true⟩])
    else if q then
      (patch d off (leBytes 8 (wrapN 64 (leNat (slice d off 8) + taddQ b))), p, [])
    else
      (patch d off (leBytes 4 (FV.round fmt32 .rn false false
        (FV.add .rn (FV.ofBits fmt32 false (leNat (slice d off 4))) (f32 b)))), p, [])
  | .cbInc off lanes =>
    if p &&& touched off 8 ≠ 0 then (d, p, lanes.map fun l => ⟨l, none, false, [], false, true⟩)
    else (patch d off (leBytes 8 (leNat (slice d off 8) + lanes.length)), p, [])
  | .cbArm off t lanes =>
    if p &&& touched off 16 ≠ 0 then (d, p, lanes.map fun l => ⟨l, none, false, [], false, true⟩)
    else (patch d off (leBytes 8 0 ++ leBytes 8 t.toNat), p, [])
  | .fetch => (d, p, [⟨0, none, false, d ++ leBytes 1 p.toNat, false, false⟩])
  | .taint q => (d, p ||| q, [])

def LineOp.writes : LineOp → Bool
  | .read .. | .fetch | .taint _ => false
  | _ => true

def LineOp.isAtom : LineOp → Bool
  | .atom .. | .cas .. | .tadd .. | .cbInc .. | .cbArm .. => true
  | _ => false

/-- The lane an operation belongs to. -/
def LineOp.lane : LineOp → Nat
  | .read l .. | .atom l .. | .cas l .. | .tadd l .. => l
  | _ => 0

def LineOp.isTadd : LineOp → Bool
  | .tadd .. => true
  | _ => false

/-- The bytes of the line the operation touches. -/
def LineOp.range : LineOp → Nat × Nat
  | .read _ off size _ _ => (off, size)
  | .write off b => (off, b.length)
  | .atom _ off _ t _ _ => (off, t.bytes)
  | .cas _ off size _ _ _ => (off, size)
  | .tadd _ off q _ => (off, if q then 8 else 4)
  | .cbInc off _ => (off, 8)
  | .cbArm off _ _ => (off, 16)
  | .fetch => (0, 128)
  | .taint _ => (0, 0)

def runOps (ops : List LineOp) (d : List Byte) (p : BitVec 4) : List Byte × BitVec 4 × List LaneRes :=
  ops.foldl (fun (d, p, rs) op => let (d', p', r) := op.run d p; (d', p', rs ++ r)) (d, p, [])

/-- The sectors that the writing operations touch. -/
def opsMask (ops : List LineOp) : BitVec 4 :=
  ops.foldl (fun m op => if op.writes then m ||| touched op.range.1 op.range.2 else m) 0

/-! ### The home serves a request -/

/-- A request to fill an L1 copy, or to gain ownership (R217, R220); a write-through page's stores reach the home as well. -/
def State.serveFill (s : State) (r : HomeReq) (own : Bool) : State × List LaneRes :=
  let l := r.line
  let s := (s.changeClass l (attrCls r.attr)).dropOther r.core l (attrCls r.attr)
  let s := (s.needDir l (attrCls r.attr)).recall l (some r.core) (!own)
  match s.l1 r.core l with
  | some x =>
    let (d, p, rs) := runOps r.ops x.data x.poison
    let m := opsMask r.ops
    let s := s.modL1 r.core l fun x => { x with
      data := d, poison := p, dirty := if attrWt r.attr then x.dirty &&& ~~~m else x.dirty ||| m,
      st := if own then .modified else x.st, used := s.mem.stamp }
    let s := s.nextUse
    let s := if attrWt r.attr then s.homePatch l m d p else s
    ((if own then s.modDir l fun e => { e with owner := some r.core } else s), rs)
  | none =>
    let (s, d0, p0) := s.homeRead l r.attr r.ctx r.rc
    let alone := match s.dirOf l with
      | some e => e.sharers.isEmpty && !e.host
      | none => true
    let (d, p, rs) := runOps r.ops d0 p0
    let st : L1St := if own then .modified else if alone && attrCls r.attr == .dir && !l.isHost then .exclusive else .shared
    let m := opsMask r.ops
    let s := (s.fillL1 r.core ⟨l, attrCls r.attr, st, d, if attrWt r.attr then 0 else m, p, s.mem.stamp⟩).nextUse
    let s := if attrWt r.attr then s.homePatch l m d p else s
    let s := if attrCls r.attr == .dir then s.modDir l fun e => { e with
        sharers := if e.sharers.contains r.core then e.sharers else e.sharers ++ [r.core]
        owner := if st == .shared then e.owner else some r.core }
      else s
    (s, rs)

/-- A request performed at the home (R189, R217, R223, R262); with a read count on a store, R184. -/
def State.serveHome (s : State) (r : HomeReq) : State × List LaneRes :=
  let l := r.line
  let s := s.changeClass l (attrCls r.attr)
  if r.ops.all fun o => !o.writes then
    let s := s.recall l none true
    let (s, d, p) := s.homeRead l r.attr r.ctx r.rc
    let (_, _, rs) := runOps r.ops d p
    (s, rs)
  else
    let s := s.recall l none false
    let s := if r.ops.any LineOp.isTadd then s.dropL1 r.core l
      else if r.ops.any LineOp.isAtom then s.dropOwn r.core l
      else s
    let (d0, p0) := s.homeData l
    let (d, p, rs) := runOps r.ops d0 p0
    let m := opsMask r.ops
    let s := s.homePatch l m d p
    let s := if r.ops.any LineOp.isTadd then s.putBelow l m d p else s
    let s :=
      match s.l1 r.core l with
      | some x => if x.cls == .self then
          let (d1, p1, _) := runOps r.ops x.data x.poison
          s.modL1 r.core l fun x => { x with data := d1, poison := p1 }
        else s
      | none => s
    let s := if r.rc ≠ 0 ∧ attrLvl r.attr ≤ 1 then
        (s.cleanCell l).modCell l fun x => { x with rc := some (r.rc, 0) }
      else s
    (s, rs)

/-- R227: the dirty sectors of a half go to the host. -/
def State.sendHalf (s : State) (b : BridgeLine) (h : Bool) : State :=
  let k := if h then 2 else 0
  if (if h then b.h1 else b.h0) = .modified then
    s.send (.cxlData b.line h (slice b.data (32 * k) 64) (b.dirty.extractLsb' k 2) (b.poison.extractLsb' k 2))
  else s

/-- The bridge's halves that have changed go to the host; the bridge keeps them clean (R187). -/
def State.cleanBridge (s : State) (n : Nat) : State :=
  match s.mem.bridge.find? fun b => b.line == n with
  | none => s
  | some b =>
    ((s.sendHalf b false).sendHalf b true).modMem fun m => { m with bridge := m.bridge.map fun x =>
      if x.line == n then { x with h0 := if x.h0 = .modified then .exclusive else x.h0,
                                   h1 := if x.h1 = .modified then .exclusive else x.h1, dirty := 0 } else x }

/-- R227: the bridge loses a half: every copy of the line is recalled into the bridge first. -/
def State.gatherHost (s : State) (n : Nat) : State := (s.recall (.host n) none false).evictCell (.host n)

def State.dropBridge (s : State) (n : Nat) : State :=
  s.modMem fun m => { m with bridge := m.bridge.filter fun b => b.line != n }

/-- R226: a core other than `c` holds a tracked copy of the line. -/
def State.heldElsewhere (s : State) (c : Nat) (l : LineId) : Bool :=
  match s.dirOf l with
  | some e => e.sharers.any fun k => k != c
  | none => false

/-- R187, R226: the bridge's copy of a host line goes; while another core holds a copy, the bridge keeps the halves, without what it had
modified. (DEDUCED, log 59) -/
def State.giveUpBridge (s : State) (c : Nat) (l : LineId) : State :=
  if s.heldElsewhere c l then
    s.modMem fun m => { m with bridge := m.bridge.map fun b => if b.line == l.num then { b with h0 := .shared, h1 := .shared, dirty := 0 } else b }
  else s.dropBridge l.num

/-- R187: cache maintenance of one line; copies of other cores are left as they are. -/
def State.serveMaint (s : State) (r : HomeReq) : State :=
  let l := r.line
  let c := r.core
  let isSys := fun (sys : Bool) => sys && l.isHost
  match r.kind with
  | .clean dev sys =>
    let s := match s.l1 c l with
      | some x => (s.writeBack x).modL1 c l fun x => { x with
          dirty := 0, st := if x.st = .modified then .exclusive else x.st }
      | none => s
    let s := if dev then s.cleanCell l else s
    if (dev && l.isHost) || isSys sys then s.cleanBridge l.num else s
  | .clinv dev sys =>
    let s := match s.l1 c l with
      | some x => s.evictL1 c x
      | none => s
    let s := if dev then s.evictCell l else s
    let s := if (dev && l.isHost) || isSys sys then s.cleanBridge l.num else s
    if isSys sys then s.giveUpBridge c l else s
  | .inval dev sys =>
    let s := match s.l1 c l with
      | some x => (s.modL1 c l fun x => { x with dirty := 0 }).evictL1 c { x with dirty := 0 }
      | none => s
    let s := if dev then s.dropCell l else s
    if isSys sys then s.giveUpBridge c l else s
  | .drop _ sys =>
    let s := match s.l1 c l with
      | some x => s.evictL1 c { x with dirty := 0 }
      | none => s
    let s := s.dropCell l
    if isSys sys then s.giveUpBridge c l else s
  | _ => s

/-- The home serves one request whole (R224); what its lanes receive. -/
def State.serve (s : State) (r : HomeReq) : State × List LaneRes :=
  match r.kind with
  | .fill => s.serveFill r false
  | .own => s.serveFill r true
  | .atHome => s.serveHome r
  | .refetch => (s, [])
  | .memRead =>
    let cls := match s.dirOf r.line with
      | some e => e.cls
      | none => .dir
    let (s, d, p) := ((s.needDir r.line cls).recall r.line none true).homeRead r.line 0x10#16 r.ctx 0
    ((s.modDir r.line fun e => { e with host := true }).send (.memData r.line.num d p), [])
  | .memWrite =>
    let l := r.line
    let s := s.recall l none false
    let (d0, p0) := s.homeData l
    let (d, p, _) := runOps r.ops d0 p0
    let (e0, q0) := s.below l
    let (e, q, _) := runOps r.ops e0 q0
    ((s.putBelow l (opsMask r.ops) e q).modCell l fun (c : CellLine) => { c with data := d, poison := p, rc := none }, [])
  | .prefetch true => s.serveFill { r with ops := [] } false
  | .prefetch false =>
    let s := (s.changeClass r.line (attrCls r.attr)).recall r.line none true
    ((s.homeRead r.line r.attr r.ctx r.rc).1, [])
  | _ => (s.serveMaint r, [])

/-! ### Translation -/

/-- The regions of R165. -/
inductive Region where
  | dev
  | host
  | peer (m off : Nat)
  | scratch (off : Nat)
  | opbuf (off : Nat)
  | none
  deriving DecidableEq, Repr

/-- R165: where an address lies. -/
def regionOf (va : Nat) : Region :=
  if va < 2 ^ 55 then .dev
  else if va < 2 ^ 56 then .host
  else if va < 2 ^ 56 + 2 ^ 48 then .peer ((va - 2 ^ 56) / 2 ^ 42) (va % 2 ^ 42)
  else if 0x01FFFF0000000000 ≤ va ∧ va ≤ 0x01FFFF0FFFFFFFFF then .scratch (va - 0x01FFFF0000000000)
  else if 0x01FFFF1000000000 ≤ va ∧ va ≤ 0x01FFFF1FFFFFFFFF then .opbuf (va - 0x01FFFF1000000000)
  else .none

/-- R352, R353: the context may map frames on the channel. -/
def State.channelOk (s : State) (c : Ctx) (ch : Nat) : Bool :=
  let set := (wordAt c.c (2 + ch / 64)).getLsbD (ch % 64)
  (set && !s.mem.dedicated.getLsbD ch) || s.mem.aside.any fun (h, x, _) => h == ch && x == c.id

/-- R175: the channel of a 64 KiB frame. -/
def channelOf (frame : Nat) : Nat := 32 * (frame / 2 ^ 20) + frame % 32

/-- The levels of R171: lowest address bit and index width. -/
def walkLevels : List (Nat × Nat) := [(48, 9), (39, 9), (30, 9), (21, 9), (16, 5)]

/-- R171 to R175: the walk below a table at `base`; the first frame, the attributes and the pages of the leaf. -/
def walkFrom (rd : Nat → Nat) (dev : Bool) (ok : Nat → Bool) (va : Nat) :
    List (Nat × Nat) → Nat → Option (Nat × BitVec 16 × Nat)
  | [], _ => none
  | (lo, w) :: rest, base =>
    let e := rd (base + 8 * nfld va lo w)
    if e % 2 = 0 ∨ e / 2 ^ 52 ≠ 0 then none
    else if nfld e 15 1 = 1 then
      let pfn := nfld e 16 36
      let pages := 2 ^ (lo - 16)
      let a := BitVec.ofNat 16 e
      if lo ≥ 39 ∨ pfn % pages ≠ 0 ∨ attrLvl a = 3 ∨ attrCoh a = 3 ∨ (attrMsc a && attrCmp a) then none
      else if dev && (decide (pfn ≥ 0x400000) ||
          !((List.range (min pages 32)).all fun i => ok (channelOf (pfn + i)))) then none
      else some (pfn, a, pages)
    else if lo = 16 ∨ nfld e 1 10 ≠ 0 ∨ nfld e 16 36 ≥ 0x400000 then none
    else walkFrom rd dev ok va rest (nfld e 16 36 * 65536 + nfld e 11 4 * 4096)

/-- R171: the walk of a context's page table for an address of the device region or the host window. -/
def State.walk (s : State) (ctx va : Nat) : Option TlbE :=
  match s.ctx ctx with
  | none => none
  | some c =>
    match walkFrom (fun a => leNat (s.peekBytes a 8)) (decide (va < 2 ^ 55)) (s.channelOk c) va walkLevels
        (fld (wordAt c.c 0) 12 26 * 4096) with
    | none => none
    | some (f, a, n) => some ⟨ctx, va / 65536 / n * n, n, f, a⟩

def TlbE.covers (e : TlbE) (ctx page : Nat) : Bool := e.ctx == ctx && decide (e.page ≤ page ∧ page < e.page + e.pages)

/-- The frame of a page that an entry covers. -/
def TlbE.frameOf (e : TlbE) (page : Nat) : Nat := e.frame + (page - e.page)

/-- R176: the entry of a core's own TLB, or its pair's. (DESIGN CHOICE, log 61) -/
def State.tlb (s : State) (core ctx page : Nat) : Option TlbE :=
  match (s.core core).tlb.find? fun e => e.covers ctx page with
  | some e => some e
  | none => (s.mem.pairTlb.getD (core / 2) []).find? fun e => e.covers ctx page

/-- R176: the L1 TLB of the core has no entry for the page. -/
def State.tlbMiss (s : State) (core ctx page : Nat) : Bool := !(s.core core).tlb.any fun e => e.covers ctx page

/-- R176: an entry enters a core's L1 TLB; the oldest leaves a full one. (DESIGN CHOICE, log 61) -/
def State.fillL1Tlb (s : State) (core : Nat) (e : TlbE) : State :=
  s.modCore core fun k => { k with tlb := (if k.tlb.length < 256 then k.tlb else k.tlb.drop 1) ++ [e] }

/-- R176: an entry enters a core's TLB and its pair's; the oldest leaves a full one. (DESIGN CHOICE, log 61) -/
def State.fillTlb (s : State) (core : Nat) (e : TlbE) : State :=
  (s.fillL1Tlb core e).modMem fun m => { m with pairTlb := m.pairTlb.modify (core / 2) fun t =>
    (if t.length < 4096 then t else t.drop 1) ++ [e] }

/-- R167: versions of the context whose storage holds an address of the device region. -/
def State.storageAt (s : State) (ctx va : Nat) : Option Version :=
  s.tabs.find? fun v => v.ctx == ctx && fld v.d0 0 4 != 0 &&
    decide (fld v.d1 0 57 ≤ va ∧ va < fld v.d1 0 57 + fld v.d2 0 40)

/-- R375: the context's PASID has been revoked. (DEDUCED, log 42) -/
def State.pasidDead (s : State) (ctx : Nat) : Bool :=
  match s.ctx ctx with
  | none => true
  | some c => s.host.revoked.contains (fld (wordAt c.c 6) 32 20)

/-- R231: the line of a system physical address is non-coherent. -/
def State.isNc (s : State) (spa : Nat) : Bool :=
  let a := spa / 128 * 128
  s.mem.ncTab.any fun e => e.nc && decide (e.base ≤ a ∧ a < e.base + e.len)

/-- Where an access goes after every check but SYSATOM_UNSUP, or why it does not. -/
inductive Loc where
  | line (l : LineId) (off : Nat) (attr : BitVec 16) (nc : Bool)
  | peer (m off : Nat)
  | scratch (off : Nat)
  | opbuf (off : Nat)
  | fault (c : Code)
  | walk (page : Nat)
  | ats (pasid page : Nat)
  deriving DecidableEq, Repr

/-- R377: the second stage of a host-window access, then R231. -/
def State.stage2 (s : State) (die ctx va frame : Nat) (attr : BitVec 16) : Loc :=
  match s.ctx ctx with
  | none => .fault .translation
  | some c =>
    let pasid := fld (wordAt c.c 6) 32 20
    match s.mem.s2.find? fun e => e.die == die && e.pasid == pasid && e.page == frame with
    | none => .ats pasid frame
    | some e =>
      match e.spa with
      | none => .fault (if e.lost then .machineCheck else .translation)
      | some f =>
        let spa := f * 65536 + va % 65536
        if s.isNc spa then .line (.host (spa / 128)) (spa % 128) (attrNc attr) true
        else .line (.host (spa / 128)) (spa % 128) attr false

/-- R165 to R175, R182 steps 2 to 5 for device, host and peer addresses, given the translation of the page. -/
def State.place (s : State) (die ctx va : Nat) (write : Bool) (e : Option TlbE) : Loc :=
  match regionOf va with
  | .dev =>
    (match s.storageAt ctx va with
    | none => .fault .notable
    | some v =>
      match e with
      | none => .fault .translation
      | some e =>
        if write && !attrW e.attr then .fault .permission
        else
          let pa := e.frameOf (va / 65536) * 65536 + va % 65536
          let a := BitVec.ofNat 16 (e.attr.toNat % 2 ^ 15 + if v.d0.getLsbD 10 then 2 ^ 15 else 0)
          .line (.dev (pa / 128)) (pa % 128) a false)
  | .host =>
    if s.pasidDead ctx then .fault .translation
    else
      (match e with
      | none => .fault .translation
      | some e =>
        match s.stage2 die ctx va (e.frameOf (va / 65536)) (BitVec.ofNat 16 (e.attr.toNat % 2 ^ 15)) with
        | .line l o a nc => if write && !attrW e.attr then .fault .permission else .line l o a nc
        | r => r)
  | .peer m off => if m = s.link.own then .fault .translation else .peer m off
  | .scratch off => .scratch off
  | .opbuf off => .opbuf off
  | .none => .fault .translation

/-- R167: every byte from `va` to `stop` lies in the storage of a table; `fuel` bounds the ranges in a row. -/
def State.stored (s : State) (ctx stop : Nat) : Nat → Nat → Bool
  | 0, _ => false
  | fuel + 1, va =>
    match s.storageAt ctx va with
    | none => false
    | some v =>
      let e := fld v.d1 0 57 + fld v.d2 0 40
      decide (stop ≤ e) || State.stored s ctx stop fuel e

/-- R166: an engine's access: the walk is made at once. -/
def State.engPlace (s : State) (die ctx va : Nat) (write : Bool) : Loc :=
  match regionOf va with
  | .dev => s.place die ctx va write (s.walk ctx va)
  | .host => s.place die ctx va write (s.walk ctx va)
  | _ => s.place die ctx va write none

/-- R166, R182: an engine's access to `n` bytes of one line. -/
def State.engSpan (s : State) (die ctx va n : Nat) (write : Bool) : Loc :=
  match s.engPlace die ctx va write with
  | .line (.dev l) o a nc => if s.stored ctx (va + n) (s.tabs.length + 1) va then .line (.dev l) o a nc else .fault .notable
  | r => r

/-! ### Accesses by engines, through the home -/

/-- R224: the home can serve a request to the line now: no other request to the line is in its pool, and the pool has a place. -/
def State.homeFree (s : State) (l : LineId) : Bool :=
  let pool := s.mem.queue.filter fun q => q.inPool && q.line.home == l.home
  !(pool.any fun q => q.line == l) && decide (pool.length < 248)

/-- R16, R224: a request tries to enter its slice's pool of 256, of which 8 are kept for those refused twice; a core's requests to one
line enter in their order. (DESIGN CHOICE, log 54) -/
def MemSys.tryEnter (m : MemSys) (id : Nat) : MemSys :=
  match m.queue.find? fun q => q.id == id with
  | none => m
  | some r =>
    let used := (m.queue.filter fun q => q.inPool && q.line.home == r.line.home).length
    let behind := (m.queue.takeWhile fun q => q.id != id).any fun q => !q.inPool && q.core == r.core && q.line == r.line
    if behind then m
    else if used < 248 ∨ (r.refused = 2 ∧ used < 256) then
      { m with queue := (m.queue.filter fun q => q.id != id) ++ [{ r with inPool := true }] }
    else { m with queue := m.queue.map fun (q : HomeReq) => if q.id = id then { q with refused := min 2 (q.refused + 1) } else q }

/-- R224: the requests that may enter try to, those refused twice first. (DESIGN CHOICE, log 54) -/
def MemSys.takeIn (m : MemSys) : MemSys :=
  let out := m.queue.filter fun r => !r.inPool && r.deps.isEmpty
  ((out.filter fun r => r.refused == 2) ++ out.filter fun r => r.refused != 2).foldl (fun m r => m.tryEnter r.id) m

/-- A request is made: it tries to enter the pool where it need follow nothing; its name. -/
def State.addReq (s : State) (r : HomeReq) : State × Nat :=
  let id := s.mem.nextId
  (s.modMem fun m =>
    let m : MemSys := { m with nextId := id + 1, queue := m.queue ++ [{ r with id := id }] }
    if r.deps.isEmpty then m.tryEnter id else m, id)

/-- R229: the host holds a copy of the line. -/
def State.hostHeld (s : State) (l : LineId) : Bool :=
  match s.dirOf l with
  | some e => e.host
  | none => false

/-- A line read at the home by an agent without an L1. -/
def State.agentRead (s : State) (l : LineId) (attr : BitVec 16) (ctx : Nat) : State × List Byte × BitVec 4 :=
  let s := (s.changeClass l (attrCls attr)).recall l none true
  s.homeRead l attr ctx 0

/-- Bytes of a line written at the home by an agent without an L1. -/
def State.agentWrite (s : State) (l : LineId) (attr : BitVec 16) (off : Nat) (b : List Byte) : State :=
  let s := (s.changeClass l (attrCls attr)).recall l none false
  let (d0, p0) := s.homeData l
  let (d, p, _) := (LineOp.write off b).run d0 p0
  s.homePatch l (touched off b.length) d p

/-- Bytes written at device addresses of a context, a line at a time; what does not translate is not written. -/
def State.putVA (s : State) (ctx va : Nat) : Nat → List Byte → State
  | 0, _ => s
  | fuel + 1, b =>
    if b.isEmpty then s
    else
      let n := min b.length (128 - va % 128)
      let s := match s.engPlace 0 ctx va false with
        | .line l off a _ => s.agentWrite l a off (b.take n)
        | _ => s
      s.putVA ctx (va + n) fuel (b.drop n)

end Sys2Proof.Machine
end

