-- ==== Sys2Proof/Machine/Tracing.lean ====
section
/-! DEFINITION. The trace stream (R387 to R390), the event counters (R392) and the host's event records (R376). -/

namespace Sys2Proof.Machine

/-- R371: the clock of a setting in MHz. -/
def mhzOf (setting : Nat) : Nat := 700 + 35 * setting

def State.die (s : State) (d : Nat) : Die := s.dies.getD d ⟨0, 0, 10, 10, 10, 10, 10, 0, 0⟩

/-- The trace flags, by bit: 0 EN, 1 CNT, 2 MRK, 3 CMDR, 4 RPL, 5 DBG (R387). (DEDUCED, log 70) -/
def State.tracing (s : State) (bit ctx : Nat) : Bool :=
  s.trace.flags.getLsbD 0 && s.trace.flags.getLsbD bit && s.trace.ctx == ctx

/-- The trace table's storage: base and length; after an alarm nothing is written (R403). -/
def State.traceTable (s : State) : Option (Nat × Nat) :=
  if s.boot.st == .alarm then none
  else match s.tabs.find? fun v => v.cur && v.ctx == s.trace.ctx && v.id == s.trace.dest with
  | some v => some (fld v.d1 0 57, fld v.d2 0 40)
  | none => none

/-- R389: the header word. -/
def traceHead (kind ctx die src ts len : Nat) : Nat :=
  kind % 256 + ctx % 256 * 2 ^ 8 + len * 2 ^ 20 + die % 4 * 2 ^ 22 + src % 256 * 2 ^ 24 + ts % 2 ^ 32 * 2 ^ 32

/-- R388, R389: PAD records of 32 bytes that fill `n` bytes, by the trace agent. (DEDUCED, log 70) -/
def State.padding (s : State) (n : Nat) : List Byte :=
  (List.range (n / 32)).flatMap fun _ =>
    leBytes 8 (traceHead 0 s.trace.ctx 0 65 (s.die 0).clk 0) ++ List.replicate 24 0

/-- R388: WIDX counts the records that have been performed, in their order. -/
def settleTrace : Nat → List (Nat × List Nat) → Nat × List (Nat × List Nat)
  | w, [] => (w, [])
  | w, (e, ids) :: r => if ids.isEmpty then settleTrace e r else (w, (e, ids) :: r)

/-- R388: the trace agent's write of a line has been performed. -/
def State.traceDone (s : State) (id : Nat) : State :=
  let (w, l) := settleTrace s.trace.widx (s.trace.writes.map fun e => (e.1, e.2.filter fun i => i != id))
  { s with trace := { s.trace with widx := w, writes := l } }

/-- R229, R388: bytes written by the trace agent, a line at a time: at once, or by a request where the home is to serve another one first, or
to take back the host's copy; the requests made. -/
def State.traceWrite (s : State) (va : Nat) : Nat → List Byte → State × List Nat
  | 0, _ => (s, [])
  | fuel + 1, b =>
    if b.isEmpty then (s, [])
    else
      let n := min b.length (128 - va % 128)
      let (s, ids) := match s.engPlace 0 s.trace.ctx va false with
        | .line l off a _ =>
          if s.homeFree l && !s.hostHeld l then (s.agentWrite l a off (b.take n), [])
          else
            let (s, id) := s.addReq ⟨0, 0, 257, 0, 0, s.trace.ctx, l, a, .atHome, [.write off (b.take n)], 0, true, [], none, false, false, 0, [], []⟩
            (s, [id])
        | _ => (s, [])
      let (s, more) := s.traceWrite (va + n) fuel (b.drop n)
      (s, ids ++ more)

/-- R388: one record in the ring, with PAD records where it would cross the end of the storage; dropped where it does
not fit. `len` is the length code of R389. -/
def State.traceRaw (s : State) (len : Nat) (ws : List Nat) : State :=
  match s.traceTable with
  | none => s
  | some (base, size) =>
    let n := 32 * (len + 1)
    let pos := s.trace.wpos % size
    let pad := if pos + n > size then size - pos else 0
    if s.trace.wpos + pad + n > s.trace.ridx + size then
      { s with trace := { s.trace with lost := s.trace.lost + 1, dropped := true } }
    else
      let (s, ids) := s.traceWrite (base + pos) 64 (s.padding pad)
      let (s, more) := s.traceWrite (base + (s.trace.wpos + pad) % size) 64
        (ws.flatMap (leBytes 8) ++ List.replicate (n - 8 * ws.length) 0)
      let w := (s.trace.wpos + pad + n) % 2 ^ 64
      let (x, l) := settleTrace s.trace.widx (s.trace.writes ++ [(w, ids ++ more)])
      { s with trace := { s.trace with wpos := w, widx := x, writes := l } }

/-- R390: a SYNC record of a die. -/
def State.traceSync (s : State) (d : Nat) (chg : Bool) : State :=
  let x := s.die d
  s.traceRaw 0 [traceHead 1 s.trace.ctx d 64 x.clk 0, s.gtime, x.clk % 2 ^ 64,
    mhzOf x.setting + if chg then 2 ^ 16 else 0]

/-- R388: the first record after a drop is preceded by a SYNC record of every die. -/
def State.resync (s : State) : State :=
  if s.trace.dropped then
    let s := { s with trace := { s.trace with dropped := false } }
    (List.range 4).foldl (fun s d => s.traceSync d false) s
  else s

/-- R388: a record. -/
def State.traceRec (s : State) (len : Nat) (ws : List Nat) : State := s.resync.traceRaw len ws

/-- A 32-byte record of a core (R389), where the flag is set for the context. -/
def State.traceCore (s : State) (bit core ctx kind w1 w2 w3 : Nat) : State :=
  if s.tracing bit ctx then
    s.traceRec 0 [traceHead kind ctx (core / 64) (core % 64) (s.die (core / 64)).clk 0, w1, w2, w3]
  else s

/-- R391, R392: `n` events of a code on a core, saturating, while CNT is set. (DEDUCED, log 70) -/
def State.count (s : State) (core code n : Nat) : State :=
  s.modCore core fun k =>
    if !s.trace.flags.getLsbD 1 then k
    else { k with ev := k.ev.zipIdx.map fun (x, j) => if s.trace.evsel.getD j 0 == code then min (2 ^ 32 - 1) (x + n) else x }

/-! ### Records to the host (R376) -/

/-- R376: an MSI-X vector of an interface is raised: its programmed address and data leave unchanged. -/
def State.msix (s : State) (i v : Nat) : State :=
  let p := match s.host.ifaces[i]? with
    | some f => f.vectors.getD v (0, 0)
    | none => (0, 0)
  s.send (.msix i v p.1 p.2)

/-- R376: a record to an interface's event ring, held while the ring is full; MSI-X vector 2. -/
def State.event (s : State) (i : Nat) (e : List DWord) : State :=
  match s.host.ifaces[i]? with
  | none => s
  | some f =>
    match f.rings.getD 10 none with
    | some r =>
      if f.heldEvents.isEmpty && decide (f.events < f.ehead + 2 ^ r.log) then
        ({ s with host := { s.host with ifaces := s.host.ifaces.set i { f with events := f.events + 1 } } }.send
          (.event i e)).msix i 2
      else { s with host := { s.host with ifaces := s.host.ifaces.set i { f with heldEvents := f.heldEvents ++ [e] } } }
    | none => { s with host := { s.host with ifaces := s.host.ifaces.set i { f with heldEvents := f.heldEvents ++ [e] } } }

/-- R372: a context's records go to the interface that owns it. -/
def State.ctxEvent (s : State) (ctx : Nat) (e : List DWord) : State :=
  s.event (match s.ctx ctx with
    | some c => c.owner
    | none => 8) e

/-- R376: word E0. -/
def eventWord (kind ctx hi : Nat) : DWord := BitVec.ofNat 64 (kind + ctx % 256 * 2 ^ 8 + hi % 2 ^ 32 * 2 ^ 32)

/-- R406: a machine-check record to the admin interface; none after an alarm (R403). -/
def State.machineRecord (s : State) (ctx structure_ e1 e2 : Nat) : State :=
  if s.boot.st == .alarm then s
  else s.event 8 [eventWord 5 ctx structure_, BitVec.ofNat 64 e1, BitVec.ofNat 64 e2, BitVec.ofNat 64 s.gtime]

/-- R374: a completion record. -/
def State.complete (s : State) (iface seq type status data : Nat) : State :=
  s.send (.completion iface (BitVec.ofNat 64 (status + type * 2 ^ 8 + seq % 2 ^ 32 * 2 ^ 32)) (BitVec.ofNat 64 data))

end Sys2Proof.Machine
end

