-- ==== Sys2Proof/Machine/Ops.lean ====
section
/-! DEFINITION. The shared operations: registers (R84 to R87), tokens (R96), warps and lanes (R28 to R36, R43), pins
(R255, R257, R264), fault records and host-class faults (R282, R283), taking a trap (R284), aborting a grid (R287), and the
end of a run (R31, R36). -/

namespace Sys2Proof.Machine

/-! ### Finding and replacing -/

def State.warpAt (s : State) (core slot : Nat) : Option Warp :=
  s.warps.find? fun w => w.core == core && w.slot == slot

/-- Put a warp back in its slot. -/
def State.putWarp (s : State) (w : Warp) : State :=
  { s with warps := s.warps.map fun x => if x.core == w.core && x.slot == w.slot then w else x }

def State.modWarp (s : State) (core slot : Nat) (f : Warp → Warp) : State :=
  { s with warps := s.warps.map fun x => if x.core == core && x.slot == slot then f x else x }

def State.warpU (s : State) (uid : Nat) : Option Warp := s.warps.find? fun w => w.uid == uid

/-- Update a warp by name, resident or saved. -/
def State.modWarpU (s : State) (uid : Nat) (f : Warp → Warp) : State :=
  { s with
    warps := s.warps.map fun x => if x.uid == uid then f x else x
    teams := s.teams.map fun t => { t with warps := t.warps.map fun x => if x.uid == uid then f x else x } }

def State.grid (s : State) (uid : Nat) : Option Grid := s.grids.find? fun g => g.uid == uid
def State.modGrid (s : State) (uid : Nat) (f : Grid → Grid) : State :=
  { s with grids := s.grids.map fun g => if g.uid == uid then f g else g }

def State.team (s : State) (uid : Nat) : Option Team := s.teams.find? fun t => t.uid == uid
def State.modTeam (s : State) (uid : Nat) (f : Team → Team) : State :=
  { s with teams := s.teams.map fun t => if t.uid == uid then f t else t }

/-- A kernel with nothing in it, for a warp whose grid is not there. -/
def KernelF.void : KernelF := ⟨0, 0, 1, 1, 1, false, false, 32, 0, 0, false, 0, 1, 1, false⟩
def Grid.void : Grid := ⟨0, 0, 0, 0, KernelF.void, 0, 0, false, false, false⟩
def State.gridOf (s : State) (uid : Nat) : Grid := (s.grid uid).getD Grid.void

/-- A warp by name, resident or saved. -/
def State.anyWarp (s : State) (uid : Nat) : Option Warp :=
  s.warpU uid <|> (s.teams.flatMap fun t => t.warps).find? fun w => w.uid == uid

/-- The cycle count of a core's die. -/
def State.clkOf (s : State) (core : Nat) : Nat := (s.die (core / 64)).clk

/-- The context a warp runs in. -/
def State.ctxOf (s : State) (w : Warp) : Nat := (s.gridOf w.grid).ctx

def Lane.void : Lane := ⟨.absent, 0, 0, .exited, 0, 0, 0, false, [], 0, [], [], [], 0, 0, [], none⟩
def Warp.lane (w : Warp) (i : Nat) : Lane := w.lanes.getD i Lane.void
def Warp.modLane (w : Warp) (i : Nat) (f : Lane → Lane) : Warp := { w with lanes := w.lanes.modify i f }

/-- Update the lanes listed. -/
def Warp.modLanes (w : Warp) (ls : List Nat) (f : Lane → Lane) : Warp :=
  { w with lanes := w.lanes.zipIdx.map fun (l, i) => if ls.contains i then f l else l }

def LaneKind.isThread : LaneKind → Bool
  | .thread => true
  | _ => false

/-- R39: the lane whose identity a lane reads. (DEDUCED, log 28) -/
def Warp.anchorOf (w : Warp) (l : Nat) : Nat :=
  match (w.lane l).kind with
  | .helper a => a
  | _ => l

/-- The lanes that hold threads. -/
def Warp.threads (w : Warp) : List Nat := (List.range w.lanes.length).filter fun i => (w.lane i).kind.isThread

/-! ### Registers -/

/-- R84: V255 reads 0. -/
def Lane.getV (l : Lane) (n : Nat) : Word := if n = 255 then 0 else l.v.getD n 0
/-- R84: a write to V255 is discarded. -/
def Lane.setV (l : Lane) (n : Nat) (x : Word) : Lane := if n = 255 then l else { l with v := l.v.set n x }
/-- R84: P7 is true. -/
def Lane.getP (l : Lane) (i : Nat) : Bool := i == 7 || l.p.getLsbD i
/-- A 7-bit register file with one bit written; bit 7 is no register. -/
def setBit7 (p : BitVec 7) (i : Nat) (b : Bool) : BitVec 7 :=
  if i = 7 then p else if b then p ||| (1#7 <<< i) else p &&& ~~~(1#7 <<< i)
def Lane.setP (l : Lane) (i : Nat) (b : Bool) : Lane := { l with p := setBit7 l.p i b }
def Warp.getC (w : Warp) (i : Nat) : Bool := i == 7 || w.c.getLsbD i
def Warp.getS (w : Warp) (n : Nat) : DWord := w.s.getD n 0

/-- The value of a register; `lane` is of no account for S and C. -/
def Warp.get (w : Warp) (lane : Nat) : RegKey → DWord
  | .v n => ((w.lane lane).getV n).zeroExtend 64
  | .s n => w.getS n
  | .p i => if (w.lane lane).getP i then 1 else 0
  | .c i => if w.getC i then 1 else 0

/-- Write a register. -/
def Warp.put (w : Warp) (lane : Nat) (k : RegKey) (x : DWord) : Warp :=
  match k with
  | .v n => w.modLane lane fun l => l.setV n (x.truncate 32)
  | .s n => { w with s := w.s.set n x }
  | .p i => w.modLane lane fun l => l.setP i (x.getLsbD 0)
  | .c i => { w with c := setBit7 w.c i (x.getLsbD 0) }

def perLane : RegKey → Bool
  | .v _ | .p _ => true
  | _ => false

/-- Two register places are the same. -/
def samePlace (k : RegKey) (lane : Nat) (k' : RegKey) (lane' : Nat) : Bool :=
  k == k' && (!perLane k || lane == lane')

/-- R69: a write ends a held value of the register. -/
def Warp.unlatch (w : Warp) (lane : Nat) (k : RegKey) : Warp :=
  { w with run := w.run.map fun r => { r with latch := r.latch.filter fun h => !samePlace h.key h.lane k lane } }

def Warp.write (w : Warp) (r : RegWrite) : Warp := (w.put r.lane r.key r.val).unlatch r.lane r.key
def Warp.writes (w : Warp) (rs : List RegWrite) : Warp := rs.foldl Warp.write w

/-- A place is among the places that are written. -/
def inPlaces (ws : List RegWrite) (k : RegKey) (lane : Nat) : Bool := ws.any fun r => samePlace r.key r.lane k lane

/-- R68, R97: a register that is written anew no longer waits for an earlier result that has been written already; a pending
instruction that has not read it may read the new value. -/
def Warp.forget (w : Warp) (ws : List RegWrite) : Warp :=
  { w with
    flight := w.flight.filter fun f => !inPlaces ws f.key f.lane
    pend := w.pend.map fun (p : Pend) =>
      if p.wb then { p with dsts := p.dsts.filter fun d => !inPlaces ws d.1 d.2 }
      else { p with torn := p.torn ++ p.srcs.filter fun d => inPlaces ws d.1 d.2 } }

/-- Results are written. -/
def Warp.result (w : Warp) (ws : List RegWrite) : Warp := (w.forget ws).writes ws

/-- The places that registers stand for in the lanes listed: one entry for a register of the warp. -/
def placesOf (keys : List RegKey) (lanes : List Nat) : List (RegKey × Nat) :=
  keys.flatMap fun k => if perLane k then lanes.map fun l => (k, l) else [(k, 0)]

/-! ### Operands (R85, R86) -/

/-- R85: a class 11 literal as an operand of the type. -/
def litBits (x : BitVec 8) (t : Ty) : DWord :=
  let v : FV := FV.ofInt x.toInt 0 false
  match t with
  | .f32 => BitVec.ofNat 64 (FV.round fmt32 .rn false false v)
  | .f16 => BitVec.ofNat 64 (FV.round fmt16 .rn false false v)
  | .bf16 => BitVec.ofNat 64 (FV.round fmtBf .rn false false v)
  | .e4m3 => BitVec.ofNat 64 (FV.round fmtE4 .rn false false v)
  | .e5m2 => BitVec.ofNat 64 (FV.round fmtE5 .rn false false v)
  | .d2p8 => BitVec.ofNat 64 (toD2 v)
  | _ => x.signExtend 64

/-- R85: a 16-bit immediate as an operand of the type. -/
def immBits (x : BitVec 16) (t : Ty) : DWord :=
  match t with
  | .f32 => x.zeroExtend 64 <<< 16
  | _ => if t.signed then x.signExtend 64 else x.zeroExtend 64

/-- Keep the bits of the type. -/
def cutTy (t : Ty) (x : DWord) : DWord := BitVec.ofNat 64 (x.toNat % 2 ^ t.bits)

/-- The bits a source supplies to a lane, cut to the type's width (R85, R86). -/
def Warp.src (w : Warp) (lane : Nat) (a : Src) (t : Ty) : DWord :=
  cutTy t (match a with
  | .v n _ =>
    let l := w.lane lane
    if t.is64 then (if n = 255#8 then 0 else (l.getV (n.toNat + 1)) ++ (l.getV n.toNat)) else (l.getV n.toNat).zeroExtend 64
  | .s n _ => w.getS n.toNat
  | .lit x => litBits x t
  | .imm x => immBits x t)

/-- A 32-bit operand. -/
def Warp.src32 (w : Warp) (lane : Nat) (a : Src) (t : Ty) : Word := (w.src lane a t).truncate 32

/-- `n` consecutive V registers of a lane as bits, the first lowest; VZ reads 0 (R86). -/
def Warp.group (w : Warp) (lane n words : Nat) : Nat :=
  if n = 255 then 0
  else ((List.range words).map fun i => ((w.lane lane).getV (n + i)).toNat * 2 ^ (32 * i)).sum

/-- R86: what a result of the type writes: one or two V registers, an S register extended by the type, a predicate or
condition bit, or nothing. R86 does not say how F32 extends into an S register: with zeros. (DESIGN CHOICE, log 106) -/
def resultOf (d : Dst) (t : Ty) (lane : Nat) (x : DWord) : List RegWrite :=
  match d with
  | .v n =>
    if t.is64 then
      (if n = 255#8 then [] else [⟨.v n.toNat, lane, (x.truncate 32).zeroExtend 64⟩,
        ⟨.v (n.toNat + 1), lane, ((x >>> 32).truncate 32).zeroExtend 64⟩])
    else [⟨.v n.toNat, lane, (x.truncate 32).zeroExtend 64⟩]
  | .s n =>
    [⟨.s n.toNat, 0, if t.is64 then x else if t.signed then (x.truncate 32).signExtend 64 else (x.truncate 32).zeroExtend 64⟩]
  | .p i => [⟨.p i.toNat, lane, x⟩]
  | .c i => [⟨.c i.toNat, 0, x⟩]
  | .disc => []

/-- `words` V registers from `n` on written with the bits of `x`; VZ discards. -/
def groupWrites (n words lane x : Nat) : List RegWrite :=
  if n = 255 then []
  else (List.range words).map fun i => ⟨.v (n + i), lane, BitVec.ofNat 64 (x / 2 ^ (32 * i) % 2 ^ 32)⟩

/-- The helper lanes anchored on a lane (R38). -/
def Warp.helpers (w : Warp) (a : Nat) : List Nat :=
  (List.range w.lanes.length).filter fun i => (w.lane i).kind == .helper a

/-- R40: what the anchor's registers receive, its helpers' receive too. -/
def Warp.withHelpers (w : Warp) (rs : List RegWrite) : List RegWrite :=
  rs.flatMap fun r => if perLane r.key then r :: (w.helpers r.lane).map fun h => { r with lane := h } else [r]

/-! ### Tokens (R96) -/

def retireTok (t : List TokEv) : List TokEv := t.dropWhile fun e => e.fin

/-- R96: an event enters the token that a field names. -/
def Warp.enterTok (w : Warp) (field : BitVec 3) (id : Nat) (fin : Bool) : Warp :=
  if field = 0 ∨ field = 7 then w
  else { w with tok := w.tok.modify (field.toNat - 1) fun t => retireTok (t ++ [⟨id, fin⟩]) }

/-- R96: the event finishes, and tokens retire in issue order. -/
def Warp.finishTok (w : Warp) (id : Nat) : Warp :=
  { w with tok := w.tok.map fun t => retireTok (t.map fun e => if e.id = id then { e with fin := true } else e) }

def Warp.tokCount (w : Warp) (i : Nat) : Nat := (w.tok.getD i []).length

/-- R96: the token that the field names is full. -/
def Warp.tokFull (w : Warp) (field : BitVec 3) : Bool :=
  field != 0 && field != 7 && decide (w.tokCount (field.toNat - 1) ≥ 63)

/-- R35, R96: every token named in WAIT holds at most WCNT events. -/
def Warp.waitOk (w : Warp) (c : Sys2Proof.Sched) : Bool :=
  (List.range 6).all fun i => !c.wait.getLsbD i || decide (w.tokCount i ≤ c.wcnt.toNat)

def Warp.tokensClear (w : Warp) : Bool := w.tok.all fun t => t.isEmpty

/-- R68: the SETW event of a pending instruction has not retired. -/
def Warp.live (w : Warp) (p : Pend) : Bool := p.tok != 0 && (w.tok.getD (p.tok - 1) []).any fun e => e.id == p.id

/-- A pending instruction that adds no wait to a stop: a BARX whose phase is open, and a wait that is executed again (R137, R164, R316). -/
def Pend.idle (p : Pend) : Bool := p.kind == .barrier || p.kind == .held

/-- Pending instructions that have written back and whose SETW events have retired are forgotten. -/
def Warp.prune (w : Warp) : Warp := { w with pend := w.pend.filter fun p => !p.wb || w.live p }

/-- R96, R110, R124, R138: a pending instruction is done: its registers are written, whatever was written to them meanwhile, and its event
finishes. (DEDUCED, log 118) -/
def Warp.writeBack (w : Warp) (id : Nat) : Warp :=
  match w.pend.find? fun p => p.id == id && !p.wb with
  | none => w
  | some p =>
    let w := w.result p.writes
    let w := { w with pend := w.pend.map fun (q : Pend) => if q.id = id then { q with wb := true, writes := [], srcs := [] } else q }
    (w.finishTok id).prune

/-- R96: the wait that held the warp is over: its event finishes. -/
def Warp.endHeld (w : Warp) : Warp :=
  ((w.pend.filter fun p => p.kind == .held && !p.wb).map Pend.id).foldl Warp.writeBack w

/-! ### What is outstanding; stops -/

/-- The accesses of a warp that are outstanding; press operations are not among them (R215). (DESIGN CHOICE, log 52) -/
def Warp.outstanding (w : Warp) : List Nat := (w.pend.filter fun p => p.kind != .press).flatMap Pend.reqs

/-- R203: an acquire of the warp is not done: its later accesses wait. (DESIGN CHOICE, log 52) -/
def Warp.acquiring (w : Warp) : Bool := w.pend.any fun p => p.acq.isSome

/-- R277: a stop has been delivered to the team's pair: its cards neither start nor go on. -/
def State.stopping (s : State) (core : Nat) (ctx : Nat) : Bool :=
  s.sch.stops.any fun e => e.delivered && e.ctx == ctx && e.pairs.getLsbD (core / 2)

/-! ### Pins, cursors, versions -/

def State.unpin (s : State) (ver pin : Nat) : State :=
  { s with tabs := s.tabs.map fun v => if v.uid == ver then
      { v with pins := v.pins.filter (fun p => p.id != pin),
               graves := v.graves.filterMap fun (sl, ps) =>
                 let ps := ps.filter fun p => p != pin
                 if ps.isEmpty then none else some (sl, ps) } else v }

def State.addPin (s : State) (ver pin : Nat) (g : Option Nat) : State :=
  { s with tabs := s.tabs.map fun v => if v.uid == ver then { v with pins := v.pins ++ [⟨pin, g⟩] } else v }

/-- R264: a restart at a lane's region entry may still reverse the release of a pin of the version. -/
def State.reversible (s : State) (ver : Nat) : Bool :=
  let lost := fun (l : Lane) => l.st != .exited && (l.pinLog ++ l.kSaved.elim [] Prod.snd).any fun o => o.ver == ver && !o.add
  (s.warps ++ s.teams.flatMap Team.warps).any fun w => w.lanes.any lost

/-- R257: versions that are no longer current and not pinned are freed, each with a FREED record; not while R264 may reverse a release of a
pin of theirs. (DESIGN CHOICE, log 113) -/
def State.freeVersions (s : State) : State :=
  let stays := fun (v : Version) => v.cur || !v.pins.isEmpty || s.reversible v.uid
  let dead := s.tabs.filter fun v => !stays v
  let s := { s with tabs := s.tabs.filter stays }
  dead.foldl (fun s v => s.ctxEvent v.ctx
    [eventWord 4 v.ctx (fld v.d0 32 32), BitVec.ofNat 64 (fld v.d1 0 57), BitVec.ofNat 64 (fld v.d2 0 40),
     BitVec.ofNat 64 v.id]) s

/-- R254, R255: the pins that an instruction in flight held are released. -/
def State.release (s : State) (ps : List (Nat × Nat)) : State :=
  if ps.isEmpty then s else (ps.foldl (fun s p => s.unpin p.1 p.2) s).freeVersions

/-- R249: the lane's open cursors are closed and their pins released. -/
def State.closeCursors (s : State) (l : Lane) : State :=
  (l.k.foldl (fun s k => match k with
    | some c => s.unpin c.ver c.pin
    | none => s) s).freeVersions

/-- R264: pins taken or released are reversed, the latest first. -/
def State.undoPins (s : State) (log : List PinOp) : State :=
  (log.reverse.foldl (fun s o => if o.add then s.unpin o.ver o.pin else s.addPin o.ver o.pin o.grid) s).freeVersions

/-- R280: a region entry. (DEDUCED, log 31) -/
def Lane.enterRegion (l : Lane) (pc : Word) : Lane :=
  { l with entry := pc, kRec := l.k, pinLog := [], kSaved := l.kSaved.map fun r => (r.1, r.2 ++ l.pinLog) }

/-- R280: lanes restart at their region entry, their cursor slots restored (R264). -/
def State.restart (s : State) (uid : Nat) (lanes : List Nat) : State :=
  match s.anyWarp uid with
  | none => s
  | some w =>
    let s := lanes.foldl (fun s i => s.undoPins (w.lane i).pinLog) s
    let s := s.count w.core 0x0F lanes.length
    s.modWarpU uid fun w => w.modLanes lanes fun l => { l with pc := l.entry, k := l.kRec, pinLog := [] }

/-! ### Warps leave -/

/-- The warp leaves its slot, with the pins of its instructions in flight; an engine fault of it that no wait reported is the grid's (R285). -/
def State.dropWarp (s : State) (w : Warp) : State :=
  let s := if w.efaults.isEmpty then s else s.modGrid w.grid fun g => { g with unreported := true }
  let s := s.release ((w.pend.filter fun p => !p.wb).flatMap Pend.pins)
  State.freeVersions { s with
    warps := s.warps.filter fun x => !(x.core == w.core && x.slot == w.slot)
    cur := if s.cur = some (w.core, w.slot) then none else s.cur }

/-- R287: a warp is discarded; its cursors are closed. -/
def State.discardWarp (s : State) (w : Warp) : State :=
  (w.lanes.foldl (fun s l => s.closeCursors l) s).dropWarp w

/-- R287 step 1: warps without a run are discarded at once, the others at their next run boundary; saved warps are gone, and the
MX commands saved with them wait in their old core's queue for their end (step 2, `State.cancels`). (DESIGN CHOICE, log 46) -/
def State.abortGrid (s : State) (g : Nat) : State :=
  match s.grid g with
  | none => s
  | some gr =>
    if gr.aborted then s
    else
      let s := s.modGrid g fun x => { x with aborted := true }
      let s := s.ctxEvent gr.ctx [eventWord 2 gr.ctx 0, BitVec.ofNat 64 gr.queue,
        BitVec.ofNat 64 (match (s.sch.queues.getD gr.queue Queue.reset).pkts.find? fun p => p.idx == gr.pkt with
          | some p => p.seq
          | none => 0), 0]
      let s := (s.warps.filter fun w => w.grid == g && w.run.isNone).foldl State.discardWarp s
      let mine := s.teams.filter fun t => t.grid == g
      let s := mine.foldl (fun s t => t.warps.foldl (fun s w => w.lanes.foldl (fun s l => s.closeCursors l) s) s) s
      let s := (mine.flatMap Team.cmds).foldl (fun s c =>
        s.modCore c.core fun k => { k with queues := k.queues.modify 0 (· ++ [c]) }) s
      { s with teams := s.teams.map fun t => if t.grid == g then { t with warps := [], cmds := [] } else t }

/-! ### Faults -/

/-- R281: the code numbers. -/
def Code.num : Code → Nat
  | .illegalOpcode => 0x01 | .illegalOperand => 0x02 | .illegalSched => 0x03 | .stallShort => 0x04
  | .uniform => 0x05 | .maskmis => 0x06 | .mixedBarrier => 0x07
  | .translation => 0x10 | .permission => 0x11 | .notable => 0x12 | .scratchBounds => 0x13 | .align => 0x14
  | .opbufBounds => 0x15
  | .tableKey => 0x20 | .tableVersion => 0x21 | .cursorStale => 0x22 | .lease => 0x31 | .pressMode => 0x40
  | .attnNonfinite => 0x41 | .sysatomUnsup => 0x48 | .machineCheck => 0x50 | .trap => 0x60 | .bkpt => 0x61

/-- R281: the code of a number. -/
def codeOf (n : Nat) : Option Code :=
  ([.illegalOpcode, .illegalOperand, .illegalSched, .stallShort, .uniform, .maskmis, .mixedBarrier, .translation, .permission,
    .notable, .scratchBounds, .align, .opbufBounds, .tableKey, .tableVersion, .cursorStale, .lease, .pressMode,
    .attnNonfinite, .sysatomUnsup, .machineCheck, .trap, .bkpt] : List Code).find? fun c => c.num == n

/-- R282: a fault record. -/
def e7Word (pc : Word) (info : Nat) (c : Code) : DWord :=
  BitVec.ofNat 64 (c.num + info % 2 ^ 32 * 2 ^ 8 + pc.toNat % 2 ^ 24 * 2 ^ 40)

/-- R91, R92: the record enters E7, or is lost with FQLOST set. -/
def Warp.pushE7 (w : Warp) (r : DWord) : Warp :=
  if (w.e.getD 7 []).length < 8 then { w with e := w.e.modify 7 (· ++ [r]) } else { w with wst := w.wst ||| 0x10#5 }

/-- The fault record of a warp: into E7, and into the trace (R389). (DEDUCED, log 18) -/
def State.recordFault (s : State) (w : Warp) (lanes : List Nat) (r : DWord) : State :=
  let s := s.modWarpU w.uid fun w => w.pushE7 r
  s.traceCore 3 w.core (s.ctxOf w) 7 r.toNat
    ((match lanes.head? with
      | some i => (w.lane i).entry.toNat
      | none => 0) + w.slot % 64 * 2 ^ 32) 0

/-- R160, R162, R164: lanes that a fault takes from a barrier or a SYNCM no longer count as arrived there; they arrive anew when they
come back to it. A BARX none of whose lanes remain is over. (DEDUCED, log 92) -/
def State.withdraw (s : State) (w : Warp) (lanes : List Nat) : State :=
  let off := fun (a : BarArrival) => a.warp == w.uid && lanes.any fun i => (w.lane i).st == .barrier && (w.lane i).thread == a.thread
  let s := { s with teams := s.teams.map fun (t : Team) => { t with bars := t.bars.map fun (as : List BarArrival) => as.filter fun a => !off a } }
  let left := s.teams.flatMap fun (t : Team) => (t.bars.flatten.filter fun a => a.warp == w.uid).map BarArrival.seq
  let gone := (w.pend.filter fun p => p.kind == .barrier && !p.wb && !left.contains p.id).map Pend.id
  s.modWarpU w.uid fun w =>
    gone.foldl Warp.writeBack { w with
      pend := w.pend.map fun (p : Pend) => if gone.contains p.id then { p with writes := [] } else p
      sync := w.sync.map fun (p : SyncPhase) => { p with arrived := p.arrived.filter fun i => !lanes.contains i } }

/-- R284: TAKING A TRAP. The lanes go to the handler, with RET and INH set and the handler's PC as region entry; without
a handler, or from inside it, the grid is aborted. `ret` none: the return PC is the lane's region entry, whose record is kept for
the return (R264). A lane that has exited traps too, and is ready again. (DESIGN CHOICE, log 120) -/
def Lane.trapTo (l : Lane) (ret : Option Word) (hpc : Word) : Lane :=
  ({ l with
    st := .ready, ret := ret.getD l.entry, inh := true, pc := hpc
    kSaved := if ret.isNone then some (l.kRec, l.pinLog) else none
    pinLog := [] }).enterRegion hpc

/-- R284: a trap reaches the lanes, its record already made. -/
def State.deliver (s : State) (w : Warp) (lanes : List Nat) (ret : Option Word) : State :=
  let g := s.gridOf w.grid
  if !g.f.hv || lanes.any (fun i => (w.lane i).inh) then s.abortGrid w.grid
  else (s.withdraw w lanes).modWarpU w.uid fun w => w.modLanes lanes fun l => l.trapTo ret g.f.hpc

def State.trap (s : State) (uid : Nat) (lanes : List Nat) (ret : Option Word) (r : DWord) : State :=
  match s.warpU uid with
  | none => s
  | some w => (s.recordFault w lanes r).deliver w lanes ret

/-- R264: the pins that a lane has taken or released since the region that its return from a trap re-executes began. -/
def Lane.toUndo (l : Lane) : List PinOp :=
  match l.kSaved with
  | some (_, ps) => if l.inh then ps ++ l.pinLog else []
  | none => []

/-- R292: the return from a trap, in every lane of a group. A lane that returns to its region entry has its cursor slots back
(R264, R280). -/
def Lane.eret (l : Lane) (next : Word) : Lane :=
  if l.inh then
    match l.kSaved with
    | some (k, _) => { l with pc := l.ret, inh := false, k := k, kRec := k, pinLog := [], kSaved := none }
    | none => { l with pc := l.ret, inh := false }
  else { l with pc := next }

/-- R283: a host-class fault: the lanes are held at their region entry, and the host is asked. -/
def State.hostFault (s : State) (uid : Nat) (lanes : List Nat) (c : Code) (addr : Nat) (r : DWord) : State :=
  match s.warpU uid with
  | none => s
  | some w =>
    let id := s.sch.nextFault
    let ctx := s.ctxOf w
    let s := (s.recordFault w lanes r).withdraw w lanes
    let s := { s with sch := { s.sch with
      nextFault := if id + 1 ≥ 2 ^ 32 then 1 else id + 1
      hfaults := s.sch.hfaults ++ [HFault.mk id ctx uid lanes c] } }
    let s := s.ctxEvent ctx [eventWord 1 ctx id, BitVec.ofNat 64 addr, r, BitVec.ofNat 64 (w.core / 2)]
    s.modWarpU uid fun w => w.modLanes lanes fun l => { l with st := .faultHeld, pc := l.entry, fid := id }

/-- A lane's fault at one instruction: the lane, the code, the address. -/
structure Bad where
  lane : Nat
  code : Code
  addr : Nat
  deriving DecidableEq, Repr

/-- R33, R282, R283: the lanes that fault leave the run's group; one record per code, lowest lane first. A MACHINE_CHECK is
a trap with return PC REC; the other per-lane faults are of class host. (DEDUCED, log 18; DEDUCED, log 27) -/
def State.raiseLanes (s : State) (uid : Nat) (pc : Word) (bad : List Bad) : State :=
  let s := s.modWarpU uid fun w => { w with run := w.run.map fun r =>
    { r with lanes := r.lanes.filter fun i => !bad.any fun b => b.lane == i } }
  let codes := (bad.map Bad.code).eraseDups
  codes.foldl (fun s c =>
    let bs := bad.filter fun b => b.code == c
    let lanes := bs.map Bad.lane
    let r := e7Word pc (lanes.headD 0) c
    if c = .machineCheck then s.trap uid lanes none r
    else s.hostFault uid lanes c ((bs.head?.map Bad.addr).getD 0) r) s

/-! ### Debugger stops (R395, R397) -/

/-- R395: breakpoints, watchpoints and BKPT act on the warp. -/
def State.debugged (s : State) (w : Warp) : Bool :=
  s.trace.flags.getLsbD 5 && (match s.ctx (s.ctxOf w) with
    | some c => (c.c.getD 7 0).getLsbD 0
    | none => false)

/-- R397: several sources in one run stop the warp once: the lowest breakpoint is named, else the lowest lane's watched access, else
what matched first. A stop is (cause, rank, detail): the rank of a breakpoint is its index, of a watchpoint the lane. (DEDUCED, log 29) -/
def mergeStop (old : Option (Nat × Nat × DWord)) (new : Nat × Nat × DWord) : Option (Nat × Nat × DWord) :=
  let place := fun (c : Nat) => if c = 0 then 4 else min c 3
  match old with
  | none => some new
  | some o => if place new.1 < place o.1 ∨ (new.1 = o.1 ∧ new.2.1 < o.2.1) then some new else some o

/-- A stop is wanted at the warp's next run boundary. A request with cause 0 is RESUME's mark that a breakpoint before the
next run has been served. -/
def Warp.wantStop (w : Warp) (new : Nat × Nat × DWord) : Warp :=
  match w.dbgReq with
  | some (0, _) | none => { w with dbgReq := some new }
  | old => { w with dbgReq := mergeStop old new }

/-! ### The end of a run -/

/-- A lane that can issue, now or once it is unparked. -/
def Warp.canRun (w : Warp) (i : Nat) : Bool := (w.lane i).kind.isThread && ((w.lane i).st == .ready || (w.lane i).st == .parked)

/-- R36, R37: a parked lane is released when the other lanes that could issue when it was parked have each completed a run since, or
when every lane that has not exited is parked. With two lane groups this is R36's 'another lane group completes one run'; with more,
R36 and R37 differ, and R37's promise is kept. (DESIGN CHOICE, log 93) -/
def Warp.unpark (w : Warp) (group : List Nat) : Warp :=
  let others := w.threads.filter fun i => (w.lane i).st == .parked && !group.contains i
  let still := fun (l : Lane) => l.owed.filter fun i => !group.contains i && w.canRun i
  let w := w.modLanes others fun l => if (still l).isEmpty then { l with st := .ready, owed := [] } else { l with owed := still l }
  let alive := w.threads.filter fun i => (w.lane i).st != .exited
  if alive.all fun i => (w.lane i).st == .parked then w.modLanes alive fun l => { l with st := .ready, owed := [] } else w

/-- R31, R36, R43, R287, R397: the run of the warp in a slot ends. -/
def State.finishRun (s : State) (core slot : Nat) : State :=
  match s.warpAt core slot with
  | none => { s with cur := if s.cur = some (core, slot) then none else s.cur }
  | some w =>
    let s := { s with cur := if s.cur = some (core, slot) then none else s.cur }
    match w.run with
    | none => s
    | some r =>
      let w := { (w.unpark r.lanes) with run := none, readyAt := s.gtime,
                                           dbgReq := r.stopAfter.elim w.dbgReq fun q => mergeStop w.dbgReq q }
      let s := s.putWarp w
      if (s.gridOf w.grid).aborted then s.discardWarp w
      else if w.threads.all fun i => (w.lane i).st == .exited then s.dropWarp w
      else s

/-- The run of the warp in a slot waits: another run may be served meanwhile (R33). -/
def State.block (s : State) (core slot : Nat) : State :=
  { s.modWarp core slot (fun w => { w with run := w.run.map fun r => { r with blocked := true } }) with cur := none }

/-- Runs that waited look again. -/
def State.wake (s : State) : State :=
  { s with warps := s.warps.map fun w => { w with run := w.run.map fun r => { r with blocked := false } } }

end Sys2Proof.Machine
end

