-- ==== Sys2Proof/Machine/Issue.lean ====
section
/-! DEFINITION. Executing one instruction word of the run in execution: the active lanes (R29, R39, R81, R82), the checks of
R100 in their order, what a word reads (R69, R97), and what every word leaves behind: last uses and held values (R69),
tokens (R96), latencies (R68), the next PC and the end of the run (R31, R32). -/

namespace Sys2Proof.Machine

/-- What a word sees: where it runs, the warp's registers as this word reads them, its grid, its run, the active lanes
(helpers included), in ascending order. -/
structure Wx where
  core : Nat
  slot : Nat
  w : Warp
  g : Grid
  run : Run
  act : List Nat
  deriving DecidableEq, Repr

/-- R40: the active lanes that hold threads. -/
def Wx.thr (x : Wx) : List Nat := x.act.filter fun i => (x.w.lane i).kind.isThread

/-- The PC after the word. -/
def Wx.next (x : Wx) : Word := x.run.pc + 1

/-- The lowest active lane. -/
def Wx.low (x : Wx) : Nat := x.act.headD 0

/-- What the meaning of a word comes to. `done`: the word is executed, these registers are written (at once under a fixed
latency, by write-back of `pend` otherwise), and these lanes fault. `ends`: the same, and the lanes have been given
their PCs: the run is over. `fault`: the word faults as a whole and is not executed (`host`: class host). `hold`: the
word waits where it stands. -/
inductive Eff where
  | done (s : State) (ws : List RegWrite) (pend : Option Pend) (bad : List Bad)
  | ends (s : State) (ws : List RegWrite) (pend : Option Pend)
  | fault (c : Code) (addr : Nat) (host : Bool)
  | hold (s : State)
  deriving DecidableEq, Repr

/-! ### Active lanes -/

/-- R81: the value of a guard over a file of bits; index 7 is true. (DEDUCED, log 15) -/
def guardHolds (g : Guard) (bit : Nat → Bool) : Bool := bit g.idx.toNat != g.neg

/-- R29, R39, R81, R82: the active lanes of a word of a run's group. -/
def Warp.active (w : Warp) (g : Guard) (uniform : Bool) (group : List Nat) : List Nat :=
  let on := fun i => if uniform then guardHolds g w.getC else guardHolds g (w.lane i).getP
  (List.range w.lanes.length).filter fun i =>
    match (w.lane i).kind with
    | .thread => group.contains i && on i
    | .helper a => group.contains a && on a
    | .absent => false

/-! ### What a word reads -/

/-- A number for one 32-bit word of a register of a lane, for the choices of R97. -/
def placeNum (fresh lane : Nat) (k : RegKey) (half : Nat) : Nat :=
  fresh * 2 ^ 20 + lane * 2 ^ 12 + half * 2 ^ 11 +
    match k with
    | .v n => n
    | .s n => 512 + n
    | .p n => 1024 + n
    | .c n => 1040 + n

/-- R97: each 32-bit word read is the old value or the new one. (DESIGN CHOICE, log 1) -/
def racyPick (fresh lane : Nat) (k : RegKey) (old new : DWord) : DWord :=
  let lo := if Config.freeBool (placeNum fresh lane k 0) then old.truncate 32 else new.truncate 32
  let hi := if Config.freeBool (placeNum fresh lane k 1) then (old >>> 32).truncate 32 else (new >>> 32).truncate 32
  (hi : Word) ++ (lo : Word)

/-- R68, R97: fixed-latency results that a word would read too early. -/
def Warp.early (w : Warp) (keys : List RegKey) : List Flight := w.flight.filter fun f => !f.sure && keys.contains f.key

/-- R97, R98: pending instructions whose results a word would read. -/
def Warp.pendingOn (w : Warp) (keys : List RegKey) : List Pend := w.pend.filter fun p => p.dsts.any fun d => keys.contains d.1

/-- R97: old or new where a fixed-latency result is not certain. (DESIGN CHOICE, log 17) -/
def Warp.racyFixed (w : Warp) (fresh : Nat) (keys : List RegKey) : Warp :=
  (w.early keys).foldl (fun w f => w.put f.lane f.key (racyPick fresh f.lane f.key f.old (w.get f.lane f.key))) w

/-- R97, R193: old or new where a pending instruction's result is known and not yet written; a result that is not known yet
reads as the old value. (DEDUCED, log 109) -/
def Warp.racyPending (w : Warp) (fresh : Nat) (keys : List RegKey) : Warp :=
  ((w.pend.filter fun p => !p.wb).flatMap Pend.writes).foldl (fun w r =>
    if keys.contains r.key then w.put r.lane r.key (racyPick fresh r.lane r.key (w.get r.lane r.key) r.val) else w) w

/-- R69, R97: the warp's registers as a word reads them: old or new where a result is not certain, and held values.
(DEDUCED, log 15; DESIGN CHOICE, log 16) -/
def Warp.view (w : Warp) (fresh : Nat) (keys : List RegKey) : Warp :=
  (w.run.elim [] Run.latch).foldl (fun w h => w.put h.lane h.key h.val) ((w.racyFixed fresh keys).racyPending fresh keys)

/-- R29, R81, R97: the active lanes of a word of a run's group, its guard read as the word reads it. (DEDUCED, log 15) -/
def State.actives (s : State) (w : Warp) (g : Guard) (uniform : Bool) (group : List Nat) : List Nat :=
  (w.view s.fresh (guardKeys g uniform)).active g uniform group

/-- R97: reading these registers draws free values where a result is not certain. -/
def State.drawn (s : State) (w : Warp) (keys : List RegKey) : State :=
  if (w.early keys).isEmpty && (w.pendingOn keys).isEmpty then s else { s with fresh := s.fresh + 1 }

/-! ### Checks (R100) -/

/-- R32, R34, R35, R94: the scheduling field of a word with an active lane. `n` words of the run stand before it. -/
def schedOk (i : WordInfo) (n : Nat) : Bool :=
  let c := i.ctl.sch
  c.setw != 7 && c.setr != 7 && (c.setw == 0 || c.setw != c.setr) && (c.wcnt == 0 || c.wait != 0) &&
  !(c.rgn && n != 0) && !(i.mustEnd && !c.fin) && !(n == 23 && !c.fin)

/-- R98: registers read in these lanes before their producer's result is written for certain. -/
def Warp.tooEarly (w : Warp) (keys : List RegKey) (lanes : List Nat) : Bool :=
  let hit := fun k l => keys.contains k && (!perLane k || lanes.contains l)
  (w.flight.any fun f => hit f.key f.lane) || w.pend.any fun p => p.dsts.any fun d => hit d.1 d.2

/-- R98: registers written in these lanes that a pending instruction has not read. -/
def Warp.unread (w : Warp) (keys : List RegKey) (lanes : List Nat) : Bool :=
  w.pend.any fun p => p.srcs.any fun d => keys.contains d.1 && (!perLane d.1 || lanes.contains d.2)

/-- R98: STALL_SHORT under the checker. -/
def Warp.stallShort (w : Warp) (i : WordInfo) (r : Run) (act : List Nat) : Bool :=
  w.tooEarly i.readKeys act || w.tooEarly (guardKeys i.ctl.g i.uniform) r.lanes || w.unread i.dstKeys act ||
  (r.n != 0 && !w.waitOk i.ctl.sch)

/-- R33: a fault of the word as a whole: its active lanes trap, or are held; the other lanes of the group get the word's own
PC, and the run ends. (DEDUCED, log 18) -/
def State.wholeFault (s : State) (w : Warp) (r : Run) (lanes : List Nat) (c : Code) (addr : Nat) (host : Bool) : State :=
  let rest := r.lanes.filter fun i => !lanes.contains i
  let s := s.modWarp w.core w.slot fun w => { w.modLanes rest (fun l => { l with pc := r.pc }) with hold := none, walked := [] }
  let e7 := e7Word r.pc (lanes.headD 0) c
  let s := if host then s.hostFault w.uid lanes c addr e7 else s.trap w.uid lanes (some (r.pc + 1)) e7
  s.finishRun w.core w.slot

/-! ### What a word leaves behind -/

/-- R95: the cycles a word takes from its successors. -/
def stallOf (c : Sys2Proof.Sched) : Nat := max c.stall.toNat 1

/-- R68: cycles pass. (DESIGN CHOICE, log 13; DESIGN CHOICE, log 17) -/
def Warp.tick (w : Warp) (n : Nat) : Warp :=
  { w with flight := w.flight.filterMap fun f => if f.left ≤ n then none else some { f with left := f.left - n } }

/-- R69, R97: a register reads as `p` until it is next written. Where an earlier result is still on its way into it, that write may come
after the last use or have come before: free. (DESIGN CHOICE, log 17) -/
def Warp.useUp (w : Warp) (lane : Nat) (k : RegKey) (p : DWord) : Warp :=
  let n := 2 ^ 80 + w.uid * 2 ^ 40 + w.nextEv
  let here := fun (f : Flight) => !f.sure && samePlace f.key f.lane k lane
  let v := w.put lane k (if w.flight.any here then racyPick n lane k (w.get lane k) p else p)
  let late := fun (r : RegWrite) => if samePlace r.key r.lane k lane then { r with val := racyPick n lane k r.val p } else r
  { v with
    flight := w.flight.map fun (f : Flight) => if here f then { f with old := p } else f
    pend := w.pend.map fun (q : Pend) => if q.wb then q else { q with writes := q.writes.map late } }

/-- R69: the registers whose last use the word marks read as poison from now on, in the lanes that fault as well.
(DEDUCED, log 25; DESIGN CHOICE, log 91) -/
def Warp.lastUses (w : Warp) (i : WordInfo) (act : List Nat) : Warp :=
  (i.reads.filter fun r => r.use == .last).foldl (fun w r => r.keys.foldl (fun w k =>
    if perLane k then act.foldl (fun w l => w.useUp l k 0x7FC0DEAD) w else w.useUp 0 k 0x7FC0DEAD7FC0DEAD) w) w

/-- R69: the values that the word holds for the rest of the run, as it read them. -/
def heldBy (i : WordInfo) (view : Warp) (act : List Nat) : List Latch :=
  (i.reads.filter fun r => r.use == .keep).flatMap fun r => r.keys.flatMap fun k =>
    if perLane k then act.map fun l => ⟨k, l, view.get l k⟩ else [⟨k, 0, view.get 0 k⟩]

/-- A variable-latency instruction in flight, with its outstanding requests. -/
def pendOf (k : PendKind) (reqs : List Nat) (acq : Option Scope) : Pend := ⟨0, k, reqs, [], [], [], acq, false, 0, false, [], 0, []⟩

/-- A variable-latency instruction that is complete as it issues. -/
def pendOver (k : PendKind) : Pend := { pendOf k [] none with wb := true }

/-- R96: what a word leaves pending: a fixed-latency word does so where its SETW names a token. -/
def leftPending (i : WordInfo) (pend : Option Pend) : Option Pend :=
  match pend with
  | some p => some p
  | none => if i.lat = 0 ∨ i.ctl.sch.setw = 0 then none else some (pendOf .fixed [] none)

/-- R96: whether the SETR event of an instruction that stays pending finishes only at its write-back: the spec does not say when
the sources have been read. (DESIGN CHOICE, log 16) -/
def readsLate (uid id : Nat) : Bool := Config.freeBool (2 ^ 90 + uid * 2 ^ 40 + id)

/-- The results of a word, and how long each of them stays uncertain (DESIGN CHOICE, log 17). -/
def Warp.results (w : Warp) (i : WordInfo) (ws : List RegWrite) (pend : Option Pend) : Warp :=
  if i.lat = 0 then
    match pend with
    | none => w.result ws
    | some p => if p.wb then w.result ws else w
  else
    let n := i.lat - stallOf i.ctl.sch
    let fl := if n = 0 then [] else ws.map fun r => (⟨r.key, r.lane, w.get r.lane r.key, n, false⟩ : Flight)
    let w := w.result ws
    { w with flight := w.flight ++ fl }

/-- The word's marks on the warp: last uses, held values, results and their latencies, tokens; `bad` faulted.
(DESIGN CHOICE, log 17) -/
def Warp.leave (w : Warp) (i : WordInfo) (x : Wx) (ws : List RegWrite) (pend : Option Pend) (bad : List Bad) : Warp :=
  let c := i.ctl.sch
  let id := w.nextEv
  let lanes := x.act.filter fun l => !bad.any fun b => b.lane == l
  let w := w.lastUses i x.act
  let held := heldBy i x.w x.act
  let w := { w with run := w.run.map fun (r : Run) => { r with
    latch := r.latch.filter (fun (h : Latch) => !held.any fun (k : Latch) => samePlace h.key h.lane k.key k.lane) ++ held } }
  let w := (w.tick (stallOf c)).results i ws pend
  let w :=
    match leftPending i pend with
    | none => (w.enterTok c.setw id true).enterTok c.setr id true
    | some p =>
      let late := i.lat = 0 && !p.wb && readsLate w.uid id
      let later := if i.lat = 0 ∧ !p.wb then ws else []
      let w := { w with pend := w.pend ++ [{ p with
        id := id, writes := later ++ p.writes, pc := x.run.pc
        dsts := if i.lat = 0 then placesOf i.dstKeys lanes else []
        srcs := if late then placesOf i.readKeys x.act else []
        tok := c.setw.toNat }] }
      (w.enterTok c.setw id p.wb).enterTok c.setr id (!late)
  ({ w with nextEv := id + 1, walked := [] }).prune

/-- R31, R32: on to the next word, or the end of the run. -/
def State.advance (s : State) (core slot : Nat) (fin : Bool) : State :=
  match s.warpAt core slot with
  | none => s.finishRun core slot
  | some w =>
    match w.run with
    | none => s
    | some r =>
      if r.lanes.isEmpty then s.finishRun core slot
      else if fin || r.n + 1 == 24 then
        (s.modWarp core slot fun w => w.modLanes r.lanes fun l => { l with pc := r.pc + 1 }).finishRun core slot
      else s.modWarp core slot fun w => { w with run := some { r with pc := r.pc + 1, n := r.n + 1, fenced := false } }


/-- R397: a breakpoint at a word that is not its run's first stops the warp after the run. -/
def State.midBreak (s : State) (w : Warp) (g : Grid) (r : Run) : State :=
  if r.n = 0 ∨ !s.debugged w then s
  else
    match s.trace.bps.findIdx? fun b => b.mode == 1 && b.core == w.core && b.code == g.f.code && b.pc == r.pc.toNat with
    | some j => s.modWarp w.core w.slot fun w => { w with run := some { r with
        stopAfter := mergeStop r.stopAfter (1, j, BitVec.ofNat 64 j) } }
    | none => s

/-- The warp whose run is in execution. -/
def State.inRun (s : State) : Option (Warp × Run) :=
  match s.cur with
  | none => none
  | some (c, k) =>
    match s.warpAt c k with
    | none => none
    | some w => w.run.map fun r => (w, r)

/-- R95: the word holds the warp's next instruction for its STALL count, of a warp of 64 lanes counted from its second cycle. -/
def State.stallUntil (s : State) (c : Sys2Proof.Sched) (w : Warp) : Warp :=
  { w with nextClk := s.clkOf w.core + stallOf c + if w.w = 64 then 1 else 0 }

/-- R95, R274: the STALL count of the warp's last instruction has passed. -/
def State.canIssue (s : State) (w : Warp) : Bool := decide (w.nextClk ≤ s.clkOf w.core)

/-- R95, R274: the slot that has issued a word of the warp is free in the next cycle, for a warp of 64 lanes in the one after that. -/
def State.occupy (s : State) (w : Warp) : State :=
  let free := s.clkOf w.core + if w.w = 64 then 2 else 1
  { s with slots := s.slots.modify w.core fun p => if (w.run.elim 0 Run.islot) = 0 then (free, p.2) else (p.1, free) }

/-- R95, R274: an issue slot is free in this cycle. -/
def State.slotFree (s : State) (core islot : Nat) : Bool :=
  let p := s.slots.getD core (0, 0)
  decide ((if islot = 0 then p.1 else p.2) ≤ s.clkOf core)

/-- R42: a word without an active lane is a no-op; its STALL and END act, and the run's length counts. -/
def State.skipWord (s : State) (w : Warp) (c : Sys2Proof.Sched) : State :=
  (((s.count w.core 2 1).occupy w).modWarp w.core w.slot fun w => s.stallUntil c (w.tick (stallOf c))).advance w.core w.slot c.fin

/-- What comes of the meaning's answer. -/
def State.close (s : State) (i : WordInfo) (x : Wx) (w : Warp) (e : Eff) : State :=
  match e with
  | .fault c a h => s.wholeFault w x.run x.thr c a h
  | .hold s => s.block x.core x.slot
  | .ends s ws p => ((((s.count x.core 2 1).count x.core 3 x.act.length).occupy w).modWarp x.core x.slot fun w =>
      s.stallUntil i.ctl.sch (w.leave i x ws p [])).finishRun x.core x.slot
  | .done s ws p bad =>
    let s := (((s.count x.core 2 1).count x.core 3 x.act.length).occupy w).modWarp x.core x.slot fun w =>
      { s.stallUntil i.ctl.sch (w.leave i x ws p bad) with hold := none }
    let s := if bad.isEmpty then s else s.raiseLanes w.uid x.run.pc bad
    s.advance x.core x.slot i.ctl.sch.fin

/-- A word with an active lane; `more` is done after its own effect, which it sees. (DESIGN CHOICE, log 16) -/
def State.issue (s : State) (i : WordInfo) (body : Wx → State → Eff) (more : Eff → Wx → State → State) (w : Warp) (r : Run)
    (act : List Nat) : State :=
  let g := s.gridOf w.grid
  let thr := act.filter fun l => (w.lane l).kind.isThread
  if !i.declared g.f.vregs g.f.sregs || !i.aligned then s.wholeFault w r thr .illegalOperand 0 false
  else if !schedOk i r.n then s.wholeFault w r thr .illegalSched 0 false
  else if g.f.checker && w.stallShort i r act then s.wholeFault w r thr .stallShort 0 false
  else if w.tokFull i.ctl.sch.setw || w.tokFull i.ctl.sch.setr then s.block w.core w.slot
  else
    let x : Wx := ⟨w.core, w.slot, w.view s.fresh i.readKeys, g, r, act⟩
    let s := s.midBreak w g r
    let s := s.drawn w i.seenKeys
    more (body x s) x (s.close i x w (body x s))

/-- One instruction word, with more that follows its effect. -/
def runWordThen (i : WordInfo) (body : Wx → State → Eff) (more : Eff → Wx → State → State) (s : State) : Host.Outcome State Fault Refusal :=
  match s.inRun with
  | none => .fault .noRun
  | some (w, r) =>
    let act := s.actives w i.ctl.g i.uniform r.lanes
    if act.isEmpty then .next ((s.drawn w (guardKeys i.ctl.g i.uniform)).skipWord w i.ctl.sch) else .next (s.issue i body more w r act)

/-- One instruction word. -/
def runWord (i : WordInfo) (body : Wx → State → Eff) (s : State) : Host.Outcome State Fault Refusal :=
  runWordThen i body (fun _ _ t => t) s

/-- R42, R100: a word that does not decode. (DESIGN CHOICE, log 22) -/
def runReject (c : Ctl) (uniform : Bool) (code : Code) (s : State) : Host.Outcome State Fault Refusal :=
  match s.inRun with
  | none => .fault .noRun
  | some (w, r) =>
    let act := s.actives w c.g uniform r.lanes
    let s := s.drawn w (guardKeys c.g uniform)
    if act.isEmpty then .next (s.skipWord w c.sch)
    else .next (s.wholeFault w r (act.filter fun l => (w.lane l).kind.isThread) code 0 false)

/-- A word that only writes registers: `f` gives the results. -/
def aluWord (i : WordInfo) (f : Wx → List RegWrite) (s : State) : Host.Outcome State Fault Refusal :=
  runWord i (fun x s => .done s (f x) none []) s

/-- R82: the results of a word whose destination chooses its form: in every active lane, or once for the warp. -/
def perForm (x : Wx) (d : Dst) (f : Nat → List RegWrite) : List RegWrite :=
  if d.scalar then f x.low else x.act.flatMap f

/-! ### Fetch (R80) -/

/-- R80: bytes of one page, fetched: the page must be executable (R173). (DEDUCED, log 30) -/
def State.fetchPart (s : State) (die ctx va n : Nat) : Except Code (List Byte) :=
  match s.engPlace die ctx va false with
  | .line (.dev l) off a _ => if attrX a then .ok (s.peekBytes (128 * l + off) n) else .error .permission
  | .fault c => .error c
  | _ => .error .translation

/-- R80: the 12 bytes of a word, or the fault of its fetch; a word may lie on two pages. (DEDUCED, log 30) -/
def State.fetchBytes (s : State) (die ctx va : Nat) : Except Code (List Byte) :=
  let k := min 12 (65536 - va % 65536)
  match s.fetchPart die ctx va k with
  | .error c => .error c
  | .ok b =>
    if k = 12 then .ok b
    else
      match s.fetchPart die ctx (va + k) (12 - k) with
      | .error c => .error c
      | .ok d => .ok (b ++ d)

/-- R130: the address of a warp's word, byte 12 × PC of the kernel's code table, where the whole word lies inside the table. R130 speaks
of the offset alone; a word whose end lies outside faults as well. (DESIGN CHOICE, log 105) -/
def State.codeAddr (s : State) (g : Grid) (pc : Word) : Option Nat :=
  match s.tabs.find? fun v => v.cur && v.ctx == g.ctx && v.id == g.f.code with
  | some v => if 12 * pc.toNat + 12 ≤ fld v.d2 0 40 then some (fld v.d1 0 57 + 12 * pc.toNat) else none
  | none => none

/-- R13: the word that the core's instruction cache holds for an address of a context. -/
def State.cached (s : State) (core ctx va : Nat) : Option (List Byte) :=
  ((s.core core).icache.find? fun e => e.1 == ctx && e.2.1 == va).map fun e => e.2.2

/-- R13: what a fetch gives where memory holds `b`: the word that the instruction cache holds, or `b`; no rule says when the cache loses
a word. (DESIGN CHOICE, log 110) -/
def State.throughCache (s : State) (core ctx va : Nat) (b : List Byte) : List Byte :=
  match s.cached core ctx va with
  | none => b
  | some c => if c = b then b else if Config.freeBool (2 ^ 130 + s.fresh * 2 ^ 60 + va) then c else b

/-- The word at a PC of a warp, through the instruction cache (R13, R80). (DEDUCED, log 30; DESIGN CHOICE, log 110) -/
def State.fetch (s : State) (w : Warp) (pc : Word) : Except Code (List Byte) :=
  let g := s.gridOf w.grid
  match s.codeAddr g pc with
  | none => .error .notable
  | some a =>
    match s.fetchBytes (w.core / 64) g.ctx a with
    | .ok b => .ok (s.throughCache w.core g.ctx a b)
    | .error c => .error c

/-- R13: a word that has been fetched is in the instruction cache, of 128 KiB; the oldest leaves a full one. (DESIGN CHOICE, log 110) -/
def State.cacheWord (s : State) (core ctx va : Nat) (b : List Byte) : State :=
  if s.cached core ctx va = some b then s
  else
    let s := s.modCore core fun k =>
      let keep := k.icache.filter fun e => !(e.1 == ctx && e.2.1 == va)
      { k with icache := (if keep.length < 10922 then keep else keep.drop 1) ++ [(ctx, va, b)] }
    { s with fresh := s.fresh + 1 }

/-- R13: the state after the fetch of a warp's word `b` at a PC. -/
def State.fetched (s : State) (w : Warp) (pc : Word) (b : List Byte) : State :=
  let g := s.gridOf w.grid
  match s.codeAddr g pc with
  | none => s
  | some a => s.cacheWord w.core g.ctx a b

/-- The address that a fetch fault names: that of byte 12 × PC from the start of the code table, inside the table or not; 0 where there is
no table. (DESIGN CHOICE, log 105) -/
def State.faultAddr (s : State) (g : Grid) (pc : Word) : Nat :=
  match s.tabs.find? fun v => v.cur && v.ctx == g.ctx && v.id == g.f.code with
  | some v => fld v.d1 0 57 + 12 * pc.toNat
  | none => 0

/-- R80: a fetch that faults: the lanes of the group are held at that PC, and the record names `faultAddr`. (DESIGN CHOICE, log 105) -/
def runFetchFault (c : Code) (s : State) : Host.Outcome State Fault Refusal :=
  match s.inRun with
  | none => .fault .noRun
  | some (w, r) => .next (s.wholeFault w r r.lanes c (s.faultAddr (s.gridOf w.grid) r.pc) true)

end Sys2Proof.Machine
end

