-- ==== Sys2Proof/Machine/Flags.lean ====
section
/-! DEFINITION. Comparisons (R125, R126), the combinations of predicate and condition bits (R127), and the status bits
of WST that instructions set or clear (R90). -/

namespace Sys2Proof.Machine

/-- R125: a comparison of integers; NUM and NAN are for floating operands only. -/
def cmpInt (c : Cmp) (a b : Int) : Bool :=
  match c with
  | .eq => a == b
  | .ne => a != b
  | .lt => decide (a < b)
  | .le => decide (a ≤ b)
  | .gt => decide (a > b)
  | .ge => decide (a ≥ b)
  | .num => true
  | .nan => false

/-- R125, R126: a comparison of floating values. -/
def cmpFV (c : Cmp) (a b : FV) : Bool :=
  match c with
  | .num => !a.isNan && !b.isNan
  | .nan => a.isNan || b.isNan
  | .ne => a.isNan || b.isNan || FV.cmp a b != 0
  | c => !a.isNan && !b.isNan && cmpInt c (FV.cmp a b) 0

/-- R127. -/
def bitOp (o : BitOp) (x y : Bool) : Bool :=
  match o with
  | .and => x && y
  | .or => x || y
  | .xor => x != y
  | .andn => x && !y

/-- A bit as a register value. -/
def ofBit (b : Bool) : DWord := if b then 1 else 0

/-- R90: EMPTY is set. -/
def Warp.setEmpty (w : Warp) : Warp := { w with wst := w.wst ||| 0x01#5 }
/-- R90: KEYMIX as given. -/
def Warp.setKeymix (w : Warp) (b : Bool) : Warp := { w with wst := if b then w.wst ||| 0x02#5 else w.wst &&& 0x1D#5 }
/-- R90: MASKMIS is set. -/
def Warp.setMaskmis (w : Warp) : Warp := { w with wst := w.wst ||| 0x04#5 }
/-- R90: MIXED as given. -/
def Warp.setMixed (w : Warp) (b : Bool) : Warp := { w with wst := if b then w.wst ||| 0x08#5 else w.wst &&& 0x17#5 }
def Warp.mixed (w : Warp) : Bool := w.wst.getLsbD 3

/-- R90, R291: a 1 in the bit of a W1C field clears it. -/
def Warp.clearWst (w : Warp) (x : DWord) : Warp := { w with wst := w.wst &&& ~~~((x.truncate 5) &&& 0x15#5) }

end Sys2Proof.Machine
end

