-- ==== Sys2Proof/Machine/Integer.lean ====
section
/-! DEFINITION. Group 0x0: integer arithmetic, bit operations and moves (R110 to R123). -/

namespace Sys2Proof.Machine

/-- R114: the value of an operand, signed for I types. -/
def tyVal (t : Ty) (x : DWord) : Int := if t.signed then sgn t.bits x.toNat else x.toNat

/-- R48: the smallest and the largest value of an integer type. -/
def tyMin (t : Ty) : Int := if t.signed then -(2 ^ (t.bits - 1) : Nat) else 0
def tyMax (t : Ty) : Int := if t.signed then (2 ^ (t.bits - 1) : Nat) - 1 else (2 ^ t.bits : Nat) - 1

/-- R114: the exact result wraps, or is clamped under `.SAT`. -/
def tyRes (t : Ty) (sat : Bool) (x : Int) : DWord :=
  BitVec.ofNat 64 (wrapN t.bits (if sat then max (tyMin t) (min (tyMax t) x) else x))

/-- The type of a 32-bit count, field or selector operand (R111, R85). -/
def countTy (t : Ty) : Ty := if t.signed then .i32 else .n32

/-- The results of a one-source row. -/
def int1 (x : Wx) (o : Int1) (f : Int → Int) : List RegWrite :=
  perForm x o.dst fun l => resultOf o.dst o.ty l (tyRes o.ty o.sat (f (tyVal o.ty (x.w.src l o.a o.ty))))

/-- The results of a two-source row. -/
def int2 (x : Wx) (o : Int2) (f : Int → Int → Int) : List RegWrite :=
  perForm x o.dst fun l => resultOf o.dst o.ty l
    (tyRes o.ty o.sat (f (tyVal o.ty (x.w.src l o.a o.ty)) (tyVal o.ty (x.w.src l o.b o.ty))))

/-- The results of a row on bit patterns, whose second operand is a 32-bit count or field. -/
def bits2 (x : Wx) (o : Int2) (f : Nat → Nat → Nat) : List RegWrite :=
  perForm x o.dst fun l => resultOf o.dst o.ty l
    (BitVec.ofNat 64 (f (x.w.src l o.a o.ty).toNat (x.w.src l o.b (countTy o.ty)).toNat))

/-- R115. -/
def shlBits (w a n : Nat) : Nat := if n < w then a * 2 ^ n % 2 ^ w else 0
def shrBits (w a n : Nat) : Nat := if n < w then a / 2 ^ n else 0
def sarBits (w a n : Nat) : Nat := wrapN w (sgn w a / (2 ^ (min n w) : Nat))
def rolBits (w a n : Nat) : Nat := a * 2 ^ (n % w) % 2 ^ w + a / 2 ^ (w - n % w)

/-- R116: the bits that BFE extracts. -/
def bfeBits (t : Ty) (a f : Nat) : Nat :=
  let w := t.bits
  let pos := f % 256
  let len := f / 256 % 256
  if len = 0 ∨ pos ≥ w then 0
  else
    let len := min len (w - pos)
    let v := a / 2 ^ pos % 2 ^ len
    if t.signed then wrapN w (sgn len v) else v

/-- R116: the bits that BFI inserts. -/
def bfiBits (w a b f : Nat) : Nat :=
  let pos := f % 256
  let len := f / 256 % 256
  if len = 0 ∨ pos ≥ w then b
  else
    let len := min len (w - pos)
    b % 2 ^ pos + a % 2 ^ len * 2 ^ pos + b / 2 ^ (pos + len) * 2 ^ (pos + len)

/-- R114: one bits, leading zeros, bits reversed. -/
def popBits (w a : Nat) : Nat := ((List.range w).map fun i => a / 2 ^ i % 2).sum
def clzBits (w a : Nat) : Nat := if a = 0 then w else w - 1 - Nat.log2 a
def brevBits (w a : Nat) : Nat := ((List.range w).map fun i => a / 2 ^ i % 2 * 2 ^ (w - 1 - i)).sum

/-- R120: one byte of the result. -/
def bpickByte (a b q : Nat) : Nat :=
  let y := (a + b * 2 ^ 32) / 2 ^ (8 * (q % 8)) % 256
  match q / 16 % 4 with
  | 0 => y
  | 1 => 0
  | 2 => if y ≥ 128 then 255 else 0
  | _ => 255

def bpickBits (a b s : Nat) : Nat :=
  ((List.range 4).map fun k => bpickByte a b (s / 2 ^ (8 * k) % 256) * 2 ^ (8 * k)).sum

def execNop (c : Ctl) (s : State) := aluWord (infoNop c) (fun _ => []) s

/-- R121. -/
def execMov (c : Ctl) (o : MovOp) (s : State) :=
  aluWord (infoMov c o) (fun x => perForm x o.dst fun l => resultOf o.dst o.ty l (x.w.src l o.a o.ty)) s

/-- R122: the value of a 28-bit immediate. -/
def moviBits (t : Ty) (i : BitVec 28) : DWord :=
  match t with
  | .i32 | .i64 => i.signExtend 64
  | .f32 => i.zeroExtend 64 <<< 4
  | _ => i.zeroExtend 64

def execMovi (c : Ctl) (o : MoviOp) (s : State) :=
  aluWord (infoMovi c o) (fun x => perForm x o.dst fun l => resultOf o.dst o.ty l (moviBits o.ty o.imm)) s

def execIadd (c : Ctl) (o : Int2) (s : State) := aluWord (infoInt2 c o 2 o.ty.words) (fun x => int2 x o fun a b => a + b) s
def execIsub (c : Ctl) (o : Int2) (s : State) := aluWord (infoInt2 c o 2 o.ty.words) (fun x => int2 x o fun a b => a - b) s
def execImul (c : Ctl) (o : Int2) (s : State) := aluWord (infoInt2 c o 4 o.ty.words) (fun x => int2 x o fun a b => a * b) s
def execImulh (c : Ctl) (o : Int2) (s : State) :=
  aluWord (infoInt2 c o 4 o.ty.words) (fun x => int2 x o fun a b => a * b / (2 ^ o.ty.bits : Nat)) s

def execImad (c : Ctl) (o : Int3) (s : State) :=
  aluWord (infoInt3 c o 4 o.ty.words o.ty.words o.ty.words o.ty.words) (fun x => perForm x o.dst fun l =>
    resultOf o.dst o.ty l (tyRes o.ty o.sat (tyVal o.ty (x.w.src l o.a o.ty) * tyVal o.ty (x.w.src l o.b o.ty) +
      tyVal o.ty (x.w.src l o.c o.ty)))) s

/-- R118: the 64-bit type of IMADW's third operand and result. -/
def wideTy (t : Ty) : Ty := if t.signed then .i64 else .n64

def execImadw (c : Ctl) (o : Int3) (s : State) :=
  aluWord (infoInt3 c o 4 1 1 2 2) (fun x => perForm x o.dst fun l =>
    resultOf o.dst (wideTy o.ty) l (tyRes (wideTy o.ty) o.sat
      (tyVal o.ty (x.w.src l o.a o.ty) * tyVal o.ty (x.w.src l o.b o.ty) +
        tyVal (wideTy o.ty) (x.w.src l o.c (wideTy o.ty))))) s

def execImin (c : Ctl) (o : Int2) (s : State) := aluWord (infoInt2 c o 2 o.ty.words) (fun x => int2 x o fun a b => min a b) s
def execImax (c : Ctl) (o : Int2) (s : State) := aluWord (infoInt2 c o 2 o.ty.words) (fun x => int2 x o fun a b => max a b) s
def execIabs (c : Ctl) (o : Int1) (s : State) := aluWord (infoInt1 c o 2) (fun x => int1 x o fun a => a.natAbs) s

/-- The results of a bitwise row. -/
def logic2 (x : Wx) (o : Int2) (f : DWord → DWord → DWord) : List RegWrite :=
  perForm x o.dst fun l => resultOf o.dst o.ty l (f (x.w.src l o.a o.ty) (x.w.src l o.b o.ty))

def execIand (c : Ctl) (o : Int2) (s : State) := aluWord (infoInt2 c o 2 o.ty.words) (fun x => logic2 x o fun a b => a &&& b) s
def execIor (c : Ctl) (o : Int2) (s : State) := aluWord (infoInt2 c o 2 o.ty.words) (fun x => logic2 x o fun a b => a ||| b) s
def execIxor (c : Ctl) (o : Int2) (s : State) := aluWord (infoInt2 c o 2 o.ty.words) (fun x => logic2 x o fun a b => a ^^^ b) s

/-- The results of a one-source row on bit patterns. -/
def bits1 (x : Wx) (o : Int1) (f : Nat → Nat) : List RegWrite :=
  perForm x o.dst fun l => resultOf o.dst o.ty l (BitVec.ofNat 64 (f (x.w.src l o.a o.ty).toNat))

def execInot (c : Ctl) (o : Int1) (s : State) := aluWord (infoInt1 c o 2) (fun x => bits1 x o fun a => 2 ^ o.ty.bits - 1 - a) s
def execShl (c : Ctl) (o : Int2) (s : State) := aluWord (infoInt2 c o 2 1) (fun x => bits2 x o (shlBits o.ty.bits)) s
def execShr (c : Ctl) (o : Int2) (s : State) := aluWord (infoInt2 c o 2 1) (fun x => bits2 x o (shrBits o.ty.bits)) s
def execSar (c : Ctl) (o : Int2) (s : State) := aluWord (infoInt2 c o 2 1) (fun x => bits2 x o (sarBits o.ty.bits)) s
def execRol (c : Ctl) (o : Int2) (s : State) := aluWord (infoInt2 c o 2 1) (fun x => bits2 x o (rolBits o.ty.bits)) s
def execBfe (c : Ctl) (o : Int2) (s : State) := aluWord (infoInt2 c o 2 1) (fun x => bits2 x o (bfeBits o.ty)) s

def execBfi (c : Ctl) (o : Int3) (s : State) :=
  aluWord (infoInt3 c o 2 o.ty.words o.ty.words 1 o.ty.words) (fun x => perForm x o.dst fun l =>
    resultOf o.dst o.ty l (BitVec.ofNat 64 (bfiBits o.ty.bits (x.w.src l o.a o.ty).toNat (x.w.src l o.b o.ty).toNat
      (x.w.src l o.c (countTy o.ty)).toNat))) s

def execPopc (c : Ctl) (o : Int1) (s : State) := aluWord (infoInt1 c o 2) (fun x => bits1 x o (popBits o.ty.bits)) s
def execClz (c : Ctl) (o : Int1) (s : State) := aluWord (infoInt1 c o 2) (fun x => bits1 x o (clzBits o.ty.bits)) s
def execBrev (c : Ctl) (o : Int1) (s : State) := aluWord (infoInt1 c o 2) (fun x => bits1 x o (brevBits o.ty.bits)) s

/-- R117. -/
def execSel (c : Ctl) (o : SelOp) (s : State) :=
  aluWord (infoSel c o) (fun x => perForm x o.dst fun l =>
    let p := (if o.dst.scalar then x.w.getC o.pi.toNat else (x.w.lane l).getP o.pi.toNat) != o.neg
    resultOf o.dst o.ty l (if p then x.w.src l o.a o.ty else x.w.src l o.b o.ty)) s

/-- R119. -/
def execLea (c : Ctl) (o : LeaOp) (s : State) :=
  aluWord (infoLea c o) (fun x => perForm x o.dst fun l =>
    resultOf o.dst .b64 l (x.w.src l o.a .b64 +
      BitVec.ofInt 64 (tyVal o.ty (x.w.src l o.b o.ty) * (2 ^ o.sh.toNat : Nat)))) s

/-- R120. -/
def execBpick (c : Ctl) (o : Int3) (s : State) :=
  aluWord (infoInt3 c o 2 1 1 1 1) (fun x => perForm x o.dst fun l =>
    resultOf o.dst o.ty l (BitVec.ofNat 64 (bpickBits (x.w.src l o.a o.ty).toNat (x.w.src l o.b o.ty).toNat
      (x.w.src l o.c o.ty).toNat))) s

end Sys2Proof.Machine
end

