-- ==== Sys2Proof/Machine/Predicate.lean ====
section
/-! DEFINITION. Group 0x4: compares, predicate and condition logic (R125 to R128). -/

namespace Sys2Proof.Machine

/-- R125: a compare's destination bit. -/
def bitResult (d : Dst) (lane : Nat) (b : Bool) : List RegWrite := resultOf d .n32 lane (ofBit b)

def execItest (c : Ctl) (o : ItestOp) (s : State) :=
  aluWord (infoItest c o) (fun x => perForm x o.dst fun l =>
    bitResult o.dst l (cmpInt o.cmp (tyVal o.ty (x.w.src l o.a o.ty)) (tyVal o.ty (x.w.src l o.b o.ty)))) s

def execFtest (c : Ctl) (o : FtestOp) (s : State) :=
  aluWord (infoFtest c o) (fun x => perForm x o.dst fun l =>
    bitResult o.dst l (cmpFV o.cmp (f32 (x.w.src32 l o.a .f32)) (f32 (x.w.src32 l o.b .f32)))) s

/-- R144, R126: element `i` of a packed pair; a literal or a 16-bit pattern stands in both elements. -/
def packedSrc (w : Warp) (lane : Nat) (a : Src) (bf : Bool) (i : Nat) : Nat :=
  match a with
  | .v .. | .s .. => (w.src lane a .b32).toNat / 2 ^ (16 * i) % 2 ^ 16
  | _ => (w.src lane a (if bf then .bf16 else .f16)).toNat

/-- R126: an operand of HTEST2, element `i`: poison compares as a NaN in both elements. -/
def htestSrc (w : Warp) (lane : Nat) (a : Src) (bf : Bool) (i : Nat) : Nat :=
  packedSrc w lane a bf (if w.src lane a .b32 = 0x7FC0DEAD then 1 else i)

def hFmt (bf : Bool) : Fmt := if bf then fmtBf else fmt16

def execHtest2 (c : Ctl) (o : Htest2Op) (s : State) :=
  aluWord (infoHtest2 c o) (fun x => perForm x o.dst fun l =>
    let t := fun i => cmpFV o.cmp (FV.ofBits (hFmt o.bf) false (htestSrc x.w l o.a o.bf i))
      (FV.ofBits (hFmt o.bf) false (htestSrc x.w l o.b o.bf i))
    bitResult o.dst l (t 0) ++ bitResult (if o.dst.scalar then .c o.e else .p o.e) l (t 1)) s

def execPcomb (c : Ctl) (o : CombOp) (s : State) :=
  aluWord (infoPcomb c o) (fun x => x.act.flatMap fun l =>
    bitResult (.p o.d) l (bitOp o.op ((x.w.lane l).getP o.x.toNat) ((x.w.lane l).getP o.y.toNat))) s

def execCcomb (c : Ctl) (o : CombOp) (s : State) :=
  aluWord (infoCcomb c o) (fun x => bitResult (.c o.d) 0 (bitOp o.op (x.w.getC o.x.toNat) (x.w.getC o.y.toNat))) s

def execCset (c : Ctl) (o : BitSrcOp) (s : State) :=
  aluWord (infoCset c o) (fun x => bitResult (.c o.d) 0 (x.w.src 0 o.a .b64 != 0)) s

/-- R128: bit L is Px of lane L, over the group's lanes. -/
def p2sMask (w : Warp) (group : List Nat) (p : Nat) : DWord :=
  BitVec.ofNat 64 ((group.filter fun l => (w.lane l).getP p).map fun l => 2 ^ l).sum

def execP2s (c : Ctl) (o : P2sOp) (s : State) :=
  aluWord (infoP2s c o) (fun x => [⟨.s o.sd.toNat, 0, p2sMask x.w x.run.lanes o.px.toNat⟩]) s

def execS2p (c : Ctl) (o : BitSrcOp) (s : State) :=
  aluWord (infoS2p c o) (fun x => x.act.flatMap fun l =>
    bitResult (.p o.d) l ((x.w.src l o.a .b64).getLsbD (x.w.anchorOf l))) s

end Sys2Proof.Machine
end

