-- ==== Sys2Proof/Machine/Special.lean ====
section
/-! DEFINITION. The special functions (R147 to R149) and the exponential and logarithm of attention (R359, R360): dyadic
approximations far inside a unit in the last place, the specials of R148, and the bound of R148 on what the hardware
answers, a free value. -/

namespace Sys2Proof.Machine

/-- Fixed point with `fp` fraction bits. -/
def fp : Nat := 400

def fpOne : Int := 2 ^ fp

/-- Product of two fixed-point numbers. -/
def fpMul (a b : Int) : Int := (a * b) / 2 ^ fp

/-- arctan(1/n) by its series, `k` terms left, the next odd number `d`, the power `p`. -/
def atanInv (n : Int) : Nat → Int → Int → Int → Int
  | 0, _, _, acc => acc
  | k + 1, d, p, acc => atanInv n k (d + 2) (-(p / (n * n))) (acc + p / d)

/-- π (Machin's formula). -/
def fpPi : Int := 4 * (4 * atanInv 5 180 1 (fpOne / 5) 0 - atanInv 239 60 1 (fpOne / 239) 0)

/-- Σ z^(2i+1)/(2i+1): the area tangent. -/
def atanhSeries (z2 : Int) : Nat → Int → Int → Int → Int
  | 0, _, _, acc => acc
  | k + 1, d, p, acc => atanhSeries z2 k (d + 2) (fpMul p z2) (acc + p / d)

def fpAtanh (z : Int) : Int := atanhSeries (fpMul z z) 260 1 z 0

/-- ln 2 = 2 artanh(1/3). -/
def fpLn2 : Int := 2 * fpAtanh (fpOne / 3)

/-- Σ r^i / i!. -/
def expSeries (r : Int) : Nat → Int → Int → Int → Int
  | 0, _, _, acc => acc
  | k + 1, i, t, acc => expSeries r k (i + 1) (fpMul t r / i) (acc + t)

/-- e^x for fixed-point x as (mantissa, exponent of two): the value is mantissa × 2^(exponent − fp). -/
def fpExp (x : Int) : Int × Int :=
  let k := (2 * x + fpLn2) / (2 * fpLn2)
  (expSeries (x - k * fpLn2) 90 1 fpOne 0, k)

/-- A finite value as fixed point (truncated below 2^-fp). -/
def fpOf (neg : Bool) (m : Nat) (e : Int) : Int :=
  let x := sgnNat neg m
  if 0 ≤ e + fp then x * 2 ^ (e + fp).toNat else x / 2 ^ (-(e + fp)).toNat

/-- sin and cos of r in [−π/4, π/4]. -/
def sinSeries (r2 : Int) : Nat → Int → Int → Int → Int
  | 0, _, _, acc => acc
  | k + 1, i, t, acc => sinSeries r2 k (i + 2) (-(fpMul t r2) / ((i + 1) * (i + 2))) (acc + t)

/-- The quadrant and the remainder of a finite argument (R148: an exact multiple of π/2). -/
def fpReduce (neg : Bool) (m : Nat) (e : Int) : Int × Int :=
  let x := fpOf neg m e
  let k := (4 * x + fpPi) / (2 * fpPi)
  (k, x - k * fpPi / 2)

/-- sin (`c` 0) or cos (`c` 1) of a finite argument. -/
def fpSin (c : Int) (neg : Bool) (m : Nat) (e : Int) : Int :=
  let (k, r) := fpReduce neg m e
  let r2 := fpMul r r
  match ((k + c) % 4).toNat with
  | 0 => sinSeries r2 60 1 r 0
  | 1 => sinSeries r2 60 0 fpOne 0
  | 2 => -(sinSeries r2 60 1 r 0)
  | _ => -(sinSeries r2 60 0 fpOne 0)

/-- log2 of a positive finite value, fixed point. -/
def fpLog2 (m : Nat) (e : Int) : Int :=
  let l := Nat.log2 m
  let k : Int := if 3 * 2 ^ l < 2 * m then l + 1 else l
  let t := fpOf false m (-k)
  (e + k) * fpOne + 2 * fpAtanh ((t - fpOne) * fpOne / (t + fpOne)) * fpOne / fpLn2

/-- The integer square root: the largest n with n² ≤ x (Newton's method with `fuel` steps from above). -/
def isqrt (x : Nat) : Nat → Nat → Nat
  | 0, n => n
  | fuel + 1, n =>
    let n' := (n + x / n) / 2
    if n' < n then isqrt x fuel n' else n

/-- The special functions of R148. -/
inductive Sfu where
  | rcp | rsq | sqrt | ex2 | lg2 | sin | cos | tanh | sigm
  deriving DecidableEq, Repr

def Sfu.num : Sfu → Nat
  | .rcp => 0 | .rsq => 1 | .sqrt => 2 | .ex2 => 3 | .lg2 => 4 | .sin => 5 | .cos => 6 | .tanh => 8 | .sigm => 9

/-- The bound of R148 in half units in the last place. -/
def Sfu.bound (f : Sfu) (f16 : Bool) : Nat :=
  match f with
  | .sqrt => 1
  | .rcp | .rsq => 2
  | .ex2 | .lg2 | .tanh | .sigm => if f16 then 2 else 4
  | .sin | .cos => if f16 then 2 else 3

/-- √(m × 2^e), with a sticky bit. -/
def fvSqrt (m : Nat) (e : Int) : FV :=
  let k : Nat := if (e - 200) % 2 = 0 then 200 else 201
  let x := m * 2 ^ k
  let r := isqrt x 2000 (2 ^ (Nat.log2 x / 2 + 1))
  .fin false (2 * r + (if r * r = x then 0 else 1)) ((e - k) / 2 - 1)

/-- The exact result of a function on an ordinary finite, nonzero operand, or a dyadic number far closer to it than a unit in
the last place. -/
def sfuExact (f : Sfu) (neg : Bool) (m : Nat) (e : Int) : FV :=
  match f with
  | .rcp => FV.div (.fin false 1 0) (.fin neg m e)
  | .sqrt => fvSqrt m e
  | .rsq =>
    match fvSqrt m e with
    | .fin _ q x => .fin false (2 ^ (400 + Nat.log2 q) / q) (-x - 400 - Nat.log2 q)
    | v => v
  | .ex2 =>
    if (Nat.log2 m : Int) + e ≥ 12 then .fin false 1 (if neg then -4096 else 4096)
    else
      let (a, k) := fpExp (fpMul (fpOf neg m e) fpLn2)
      .fin false a.natAbs (k - fp)
  | .lg2 =>
    let y := fpLog2 m e
    FV.ofInt y (-(fp : Int)) false
  | .sin => FV.ofInt (fpSin 0 neg m e) (-(fp : Int)) neg
  | .cos => FV.ofInt (fpSin 1 neg m e) (-(fp : Int)) false
  | .tanh =>
    if (Nat.log2 m : Int) + e ≥ 8 then .fin neg (2 ^ 200 - 1) (-200)
    else if (Nat.log2 m : Int) + e < -40 then
      -- tanh a = a − a³/3 + …, below a by less than 2^-80 of it
      .fin neg (m * 2 ^ 100 - 1) (e - 100)
    else
      let (a, k) := fpExp (fpOf false (2 * m) e)
      let q := a * 2 ^ k.toNat
      .fin neg ((q - fpOne) * fpOne / (q + fpOne)).natAbs (-(fp : Int))
  | .sigm =>
    if (Nat.log2 m : Int) + e ≥ 8 then
      (if neg then .fin false 1 (-300) else .fin false (2 ^ 200 - 1) (-200))
    else
      let (a, k) := fpExp (fpOf (!neg) m e)
      let q := if 0 ≤ k then a * 2 ^ k.toNat else a / 2 ^ (-k).toNat
      .fin false (fpOne * fpOne / (fpOne + q)).natAbs (-(fp : Int))

/-- Specials and exact cases of R148; none where the bound governs. `f16`: the F16 form. -/
def sfuSpecial (f16 : Bool) (f : Sfu) (v : FV) : Option FV :=
  match f, v with
  | _, .nan => some .nan
  | .rcp, .inf n => some (.fin n 0 0)
  | .rcp, .fin n 0 _ => some (.inf n)
  | .rsq, .fin n 0 _ => some (.inf n)
  | .rsq, .inf n => some (if n then .nan else .fin false 0 0)
  | .rsq, .fin true _ _ => some .nan
  | .sqrt, .fin n 0 _ => some (.fin n 0 0)
  | .sqrt, .inf n => some (if n then .nan else .inf false)
  | .sqrt, .fin true _ _ => some .nan
  | .sqrt, .fin false m e => some (fvSqrt m e)
  | .ex2, .inf n => some (if n then .fin false 0 0 else .inf false)
  | .ex2, .fin _ 0 _ => some (.fin false 1 0)
  | .ex2, .fin n m e =>
    if 0 ≤ e ∨ m % 2 ^ (-e).toNat = 0 then
      (let x := if 0 ≤ e then sgnNat n (m * 2 ^ (min e 20).toNat) else sgnNat n (m / 2 ^ (-e).toNat)
       if (if f16 then -24 else -149) ≤ x ∧ x ≤ (if f16 then 15 else 127) then some (.fin false 1 x) else none)
    else none
  | .lg2, .fin _ 0 _ => some (.inf true)
  | .lg2, .inf n => some (if n then .nan else .inf false)
  | .lg2, .fin true _ _ => some .nan
  | .lg2, .fin false m e =>
    if m = 2 ^ Nat.log2 m then some (FV.ofInt ((Nat.log2 m : Int) + e) 0 false) else none
  | .sin, .inf _ => some .nan
  | .sin, .fin n 0 _ => some (.fin n 0 0)
  | .cos, .inf _ => some .nan
  | .cos, .fin _ 0 _ => some (.fin false 1 0)
  | .tanh, .inf n => some (.fin n 1 0)
  | .tanh, .fin n 0 _ => some (.fin n 0 0)
  | .sigm, .inf n => some (if n then .fin false 0 0 else .fin false 1 0)
  | .sigm, .fin _ 0 _ => some (.fin false 1 (-1))
  | _, _ => none

/-- |cand − x| is at most `half` half units in the last place of x, with 2^-60 of a unit allowed for the approximation. -/
def withinUlp (f : Fmt) (half : Nat) (x cand : FV) : Bool :=
  match x, cand with
  | .fin nx mx ex, .fin nc mc ec =>
    let lo : Int := 1 - (f.bias : Int) - f.sb
    let q : Int := if mx = 0 then lo else max ((Nat.log2 mx : Int) + ex - f.sb) lo
    let e := min (min ex ec) (q - 61)
    let d := (sgnNat nx mx * 2 ^ (ex - e).toNat - sgnNat nc mc * 2 ^ (ec - e).toNat).natAbs
    decide (2 * d ≤ half * 2 ^ (q - e).toNat + 2 ^ (q - e).toNat / 2 ^ 60)
  | .inf a, .inf b => a == b
  | .nan, .nan => true
  | _, _ => false

/-- R147, R148: the result of a special function, as bits of its format: exact where R148 is exact, an infinity where the
result overflows, the correctly rounded value for SQRT, and otherwise what the hardware answers, a free value within
the bound. (DESIGN CHOICE, log 3) -/
def sfuBits (f : Sfu) (f16 ftz : Bool) (a : Nat) : Nat :=
  let fm := if f16 then fmt16 else fmt32
  let v := FV.ofBits fm ftz a
  match sfuSpecial f16 f v with
  | some r => FV.round fm .rn false ftz r
  | none =>
    match v with
    | .fin n m e =>
      let x := sfuExact f n m e
      let near := FV.round fm .rn false ftz x
      let cand :=
        if f16 then (Config.sfu16 f.num (BitVec.ofNat 16 a)).toNat else (Config.sfu32 f.num (BitVec.ofNat 32 a)).toNat
      let c := FV.ofBits fm false cand
      if FV.ofBits fm false near = .inf false ∨ FV.ofBits fm false near = .inf true then near
      else if withinUlp fm (f.bound f16) x c && !(c.isZero && near % 2 ^ (fm.eb + fm.sb) != 0 && c.isNeg != x.isNeg) then
        FV.round fm .rn false ftz c
      else near
    | _ => fm.nanBits

/-- R359: e^x correctly rounded to FP32, exp(−∞) = +0. -/
def exp32 (v : FV) : FV :=
  match v with
  | .nan => .nan
  | .inf n => if n then .fin false 0 0 else .inf false
  | .fin n m e =>
    if m = 0 then .fin false 1 0
    else if (Nat.log2 m : Int) + e ≥ 9 then (if n then .fin false 0 0 else .inf false)
    else if (Nat.log2 m : Int) + e < -100 then .fin false 1 0
    else
      let (a, k) := fpExp (fpOf n m e)
      FV.ofBits fmt32 false (FV.round fmt32 .rn false false (.fin false (2 * a.natAbs + 1) (k - fp - 1)))

/-- R360: ln L for a positive finite L, as a value far closer to the exact one than half a unit of FP32. -/
def lnFV (v : FV) : FV :=
  match v with
  | .fin false m e => if m = 0 then .inf true else FV.ofInt (fpMul (fpLog2 m e) fpLn2) (-(fp : Int)) false
  | .inf false => .inf false
  | _ => .nan

end Sys2Proof.Machine
end

