-- ==== Sys2Proof/Machine/Floating.lean ====
section
/-! DEFINITION. Groups 0x1 and 0x2: floating arithmetic, conversions, special functions, random numbers (R139 to
R151). -/

namespace Sys2Proof.Machine

/-- R142: the results of a two-source FP32 word. -/
def f2 (x : Wx) (o : F2) (f : FV → FV → FV) : List RegWrite :=
  x.act.flatMap fun l => resultOf o.dst .f32 l
    ((to32x o.rnd o.sat o.ftz (f (f32z o.ftz (x.w.src32 l o.a .f32)) (f32z o.ftz (x.w.src32 l o.b .f32)))).zeroExtend 64)

/-- R142: the exact scaling; beyond 1,000 binades the rounded result no longer depends on the count. (DESIGN CHOICE, log 23) -/
def scaleFV (a : FV) (n : Int) : FV := FV.mul a (.fin false 1 (max (-1000) (min 1000 n)))

/-- R143: the results of a two-source selection on bit patterns. -/
def f2Bits (x : Wx) (o : F2) (f : Bool → Nat → Nat → Nat) : List RegWrite :=
  x.act.flatMap fun l => resultOf o.dst .f32 l
    (BitVec.ofNat 64 (f o.ftz (x.w.src32 l o.a .f32).toNat (x.w.src32 l o.b .f32).toNat))

/-- R143. -/
def clampBits (ftz : Bool) (a b c : Nat) : Nat :=
  if (FV.ofBits fmt32 ftz a).isNan then fmt32.nanBits else minBits fmt32 ftz (maxBits fmt32 ftz a b) c

def execFadd (c : Ctl) (o : F2) (s : State) := aluWord (infoF2 c o 4) (fun x => f2 x o (FV.add o.rnd)) s
def execFsub (c : Ctl) (o : F2) (s : State) := aluWord (infoF2 c o 4) (fun x => f2 x o fun a b => FV.add o.rnd a b.neg) s
def execFmul (c : Ctl) (o : F2) (s : State) := aluWord (infoF2 c o 4) (fun x => f2 x o FV.mul) s

def execFfma (c : Ctl) (o : F3) (s : State) :=
  aluWord (infoF3 c o 4) (fun x => x.act.flatMap fun l =>
    let v := fun a => f32z o.ftz (x.w.src32 l a .f32)
    resultOf o.dst .f32 l ((to32x o.rnd o.sat o.ftz (FV.add o.rnd (FV.mul (v o.a) (v o.b)) (v o.c))).zeroExtend 64)) s

def execFmin (c : Ctl) (o : F2) (s : State) := aluWord (infoF2 c o 2) (fun x => f2Bits x o (minBits fmt32)) s
def execFmax (c : Ctl) (o : F2) (s : State) := aluWord (infoF2 c o 2) (fun x => f2Bits x o (maxBits fmt32)) s

def execFclamp (c : Ctl) (o : F3) (s : State) :=
  aluWord (infoF3 c o 2) (fun x => x.act.flatMap fun l =>
    resultOf o.dst .f32 l (BitVec.ofNat 64 (clampBits o.ftz (x.w.src32 l o.a .f32).toNat (x.w.src32 l o.b .f32).toNat
      (x.w.src32 l o.c .f32).toNat))) s

def execFscale (c : Ctl) (o : F2) (s : State) :=
  aluWord (infoF2 c o 4) (fun x => x.act.flatMap fun l =>
    resultOf o.dst .f32 l ((to32x o.rnd o.sat o.ftz
      (scaleFV (f32z o.ftz (x.w.src32 l o.a .f32)) (tyVal .i32 (x.w.src l o.b .i32)))).zeroExtend 64)) s

/-! ### Packed pairs (R144) -/

/-- Element `i` of a packed source as a value. -/
def hVal (w : Warp) (l : Nat) (a : Src) (bf ftz : Bool) (i : Nat) : FV := FV.ofBits (hFmt bf) ftz (packedSrc w l a bf i)

/-- The results of a two-source packed word. -/
def h2 (x : Wx) (o : H2) (f : FV → FV → FV) : List RegWrite :=
  x.act.flatMap fun l =>
    let e := fun i => FV.round (hFmt o.bf) o.rnd o.sat o.ftz (f (hVal x.w l o.a o.bf o.ftz i) (hVal x.w l o.b o.bf o.ftz i))
    resultOf o.dst .b32 l (BitVec.ofNat 64 (e 0 + e 1 * 2 ^ 16))

/-- The results of a packed selection. -/
def h2Bits (x : Wx) (o : H2) (f : Fmt → Bool → Nat → Nat → Nat) : List RegWrite :=
  x.act.flatMap fun l =>
    let e := fun i => f (hFmt o.bf) o.ftz (packedSrc x.w l o.a o.bf i) (packedSrc x.w l o.b o.bf i)
    resultOf o.dst .b32 l (BitVec.ofNat 64 (e 0 + e 1 * 2 ^ 16))

def execHadd2 (c : Ctl) (o : H2) (s : State) := aluWord (infoH2 c o 4) (fun x => h2 x o (FV.add o.rnd)) s
def execHsub2 (c : Ctl) (o : H2) (s : State) := aluWord (infoH2 c o 4) (fun x => h2 x o fun a b => FV.add o.rnd a b.neg) s
def execHmul2 (c : Ctl) (o : H2) (s : State) := aluWord (infoH2 c o 4) (fun x => h2 x o FV.mul) s

def execHfma2 (c : Ctl) (o : H3) (s : State) :=
  aluWord (infoH3 c o 4) (fun x => x.act.flatMap fun l =>
    let v := fun a i => hVal x.w l a o.bf o.ftz i
    let e := fun i => FV.round (hFmt o.bf) o.rnd o.sat o.ftz (FV.add o.rnd (FV.mul (v o.a i) (v o.b i)) (v o.c i))
    resultOf o.dst .b32 l (BitVec.ofNat 64 (e 0 + e 1 * 2 ^ 16))) s

def execHmin2 (c : Ctl) (o : H2) (s : State) := aluWord (infoH2 c o 2) (fun x => h2Bits x o minBits) s
def execHmax2 (c : Ctl) (o : H2) (s : State) := aluWord (infoH2 c o 2) (fun x => h2Bits x o maxBits) s

/-- R56, R144: `.FTZ` flushes the addend too. (DEDUCED, log 123) -/
def execHdot2 (c : Ctl) (o : H3) (s : State) :=
  aluWord (infoH3 c o 4) (fun x => x.act.flatMap fun l =>
    let v := fun a i => hVal x.w l a o.bf o.ftz i
    let sum := FV.add o.rnd (FV.add o.rnd (FV.mul (v o.a 0) (v o.b 0)) (FV.mul (v o.a 1) (v o.b 1)))
      (f32z o.ftz (x.w.src32 l o.c .f32))
    resultOf o.dst .f32 l ((to32x o.rnd o.sat o.ftz sum).zeroExtend 64)) s

/-! ### Conversions (R50, R59, R145, R146) -/

/-- The floating formats of the type codes; none for integers and D2P8. -/
def tyFmt : Ty → Option Fmt
  | .f32 => some fmt32
  | .f16 => some fmt16
  | .bf16 => some fmtBf
  | .e4m3 => some fmtE4
  | .e5m2 => some fmtE5
  | _ => none

/-- R56: `.FTZ` has no effect on the 8-bit formats. -/
def ftzOf (t : Ty) (ftz : Bool) : Bool := ftz && t.bits != 8

/-- The value of a source of CVT: a floating value, or an exact integer. -/
def cvtIn (st : Ty) (ftz : Bool) (x : Nat) : FV :=
  match tyFmt st with
  | some f => FV.ofBits f (ftzOf st ftz) x
  | none => if st = .d2p8 then d2FV x else FV.ofInt (tyVal st (BitVec.ofNat 64 x)) 0 false

def Ty.isFloat (t : Ty) : Bool := (tyFmt t).isSome || t == .d2p8

/-- R59: the bits of a conversion's result. R59 has no row from D2P8 to an integer type: D2P8 counts as floating there, its value rounded
and clamped. (DESIGN CHOICE, log 103) -/
def cvtBits (dt st : Ty) (r : Rnd) (sat ftz : Bool) (x : Nat) : Nat :=
  match tyFmt dt with
  | some f => FV.round f r sat (ftzOf dt ftz) (cvtIn st ftz x)
  | none =>
    if dt = .d2p8 then toD2 (cvtIn st ftz x)
    else if Ty.isFloat st then wrapN dt.bits (FV.clampInt r (tyMin dt) (tyMax dt) (cvtIn st ftz x))
    else (tyRes dt sat (tyVal st (BitVec.ofNat 64 x))).toNat

/-- R140: a result narrower than a register. -/
def placeBits (t : Ty) (x : Nat) : DWord :=
  if t.bits < 32 && t.signed then BitVec.ofInt 64 (sgn t.bits x) else BitVec.ofNat 64 x

def execCvt (c : Ctl) (o : CvtOp) (s : State) :=
  aluWord (infoCvt c o) (fun x => x.act.flatMap fun l =>
    resultOf o.dst o.dt l (placeBits o.dt (cvtBits o.dt o.st o.rnd o.sat o.ftz (x.w.src l o.a o.st).toNat))) s

/-- R146: a value rounded to an integral value, its sign kept. -/
def integral (r : Rnd) : FV → FV
  | .fin n m e => if 0 ≤ e then .fin n m e else .fin n (roundTo r n m e 0) 0
  | v => v

def frndTy : FrndFmt → Ty
  | .f32 => .f32
  | .f16 => .f16
  | .bf16 => .bf16

def execFrnd (c : Ctl) (o : FrndOp) (s : State) :=
  aluWord (infoFrnd c o) (fun x => x.act.flatMap fun l =>
    let f := (tyFmt (frndTy o.fmt)).getD fmt32
    resultOf o.dst .n32 l (BitVec.ofNat 64
      (FV.round f .rn false o.ftz (integral o.rnd (FV.ofBits f o.ftz (x.w.src l o.a (frndTy o.fmt)).toNat))))) s

/-! ### Special functions (R147 to R149) -/

/-- The results of a special function. -/
def sfu (f : Sfu) (x : Wx) (o : SfuOp) : List RegWrite :=
  x.act.flatMap fun l => resultOf o.dst .n32 l
    (BitVec.ofNat 64 (sfuBits f o.f16 o.ftz (x.w.src l o.a (if o.f16 then .f16 else .f32)).toNat))

def execRcp (c : Ctl) (o : SfuOp) (s : State) := aluWord (infoSfu c o 1) (fun x => sfu .rcp x o) s
def execRsq (c : Ctl) (o : SfuOp) (s : State) := aluWord (infoSfu c o 1) (fun x => sfu .rsq x o) s
def execSqrt (c : Ctl) (o : SfuOp) (s : State) := aluWord (infoSfu c o 1) (fun x => sfu .sqrt x o) s
def execEx2 (c : Ctl) (o : SfuOp) (s : State) := aluWord (infoSfu c o 1) (fun x => sfu .ex2 x o) s
def execLg2 (c : Ctl) (o : SfuOp) (s : State) := aluWord (infoSfu c o 1) (fun x => sfu .lg2 x o) s
def execSin (c : Ctl) (o : SfuOp) (s : State) := aluWord (infoSfu c o 1) (fun x => sfu .sin x o) s
def execCos (c : Ctl) (o : SfuOp) (s : State) := aluWord (infoSfu c o 1) (fun x => sfu .cos x o) s
def execTanh (c : Ctl) (o : SfuOp) (s : State) := aluWord (infoSfu c o 1) (fun x => sfu .tanh x o) s
def execSigm (c : Ctl) (o : SfuOp) (s : State) := aluWord (infoSfu c o 1) (fun x => sfu .sigm x o) s

/-- R149: sine, then cosine: two registers, or two elements, with the bits that SIN and COS give. (DESIGN CHOICE, log 121) -/
def execSincos (c : Ctl) (o : SfuOp) (s : State) :=
  aluWord (infoSfu c o (if o.f16 then 1 else 2)) (fun x => x.act.flatMap fun l =>
    let a := (x.w.src l o.a (if o.f16 then .f16 else .f32)).toNat
    let sn := sfuBits .sin o.f16 o.ftz a
    let cs := sfuBits .cos o.f16 o.ftz a
    if o.f16 then resultOf o.dst .b32 l (BitVec.ofNat 64 (sn + cs * 2 ^ 16))
    else resultOf o.dst .b64 l (BitVec.ofNat 64 (sn + cs * 2 ^ 32))) s

/-! ### Random numbers and sampling (R150, R151) -/

/-- R150: one round of mixing. -/
def mixRound (k1 : Word) (h : Word) (i : Nat) : Word :=
  let h := h ^^^ (h >>> 16)
  let h := h * 0x6C8E9CF5#32
  let h := h ^^^ (h >>> 13)
  let h := h * 0xB5A47D23#32
  let h := h ^^^ (h >>> 16)
  h + k1 + BitVec.ofNat 32 (i + 1) * 0x3C6EF372#32

def mix (x k0 k1 : Word) : Word := (List.range 4).foldl (mixRound k1) (x + k0)

def randBits (t : Ty) (x : Word) (key : DWord) : DWord :=
  let k0 : Word := key.truncate 32
  let k1 : Word := (key >>> 32).truncate 32
  let lo := mix x k0 k1
  match t with
  | .n64 => mix x (~~~k0) k1 ++ lo
  | .f32 => BitVec.ofNat 64 (FV.round fmt32 .rn false false (.fin false (lo >>> 8).toNat (-24)))
  | _ => lo.zeroExtend 64

def execRand (c : Ctl) (o : RandOp) (s : State) :=
  aluWord (infoRand c o) (fun x => x.act.flatMap fun l =>
    resultOf o.dst o.ty l (randBits o.ty (x.w.src32 l o.a .n32) (x.w.src l o.b .b64))) s

/-- R151: a weight that counts. -/
def weight (v : FV) : FV := if v.isNan || decide (FV.cmp v (.fin false 0 0) < 0) then .fin false 0 0 else v

/-- R151: the lanes with their weights and prefixes. -/
def csampPre (ws : List (Nat × FV)) : List (Nat × FV × FV) :=
  (ws.foldl (fun (acc, sum) (l, v) =>
    let sum := f32 (to32 .rn (FV.add .rn sum v))
    (acc ++ [(l, v, sum)], sum)) ([], FV.fin false 0 0)).1

def positive (v : FV) : Bool := !v.isNan && decide (FV.cmp v (.fin false 0 0) > 0)

/-- R151: the lane drawn; none when the weights sum to 0. -/
def csampLane (u : FV) (ws : List (Nat × FV)) : Option Nat :=
  let u := if u.isNan || decide (FV.cmp u (.fin false 0 0) < 0) then .fin false 0 0 else u
  let u := if FV.cmp u (.fin false 1 0) ≥ 0 then FV.fin false (2 ^ 24 - 1) (-24) else u
  let pre := csampPre (ws.map fun (l, v) => (l, weight v))
  match pre.getLast? with
  | none => none
  | some (_, _, run) =>
    if FV.cmp run (.fin false 0 0) = 0 then none
    else if run = .inf false then (pre.find? fun p => p.2.2 == .inf false).map Prod.fst
    else
      let t := f32 (to32 .rn (FV.mul u run))
      match pre.find? fun p => positive p.2.1 && decide (FV.cmp p.2.2 t > 0) with
      | some p => some p.1
      | none => ((pre.filter fun p => positive p.2.1).getLast?).map Prod.fst

def execCsamp (c : Ctl) (o : CsampOp) (s : State) :=
  runWord (infoCsamp c o) (fun x s =>
    let d := csampLane (f32 (x.w.src32 x.low o.b .f32)) (x.thr.map fun l => (l, f32 (x.w.src32 l o.a .f32)))
    let r : DWord := match d with
      | some l => BitVec.ofNat 64 l
      | none => 0xFFFFFFFF
    let s := if d.isNone then s.modWarp x.core x.slot Warp.setEmpty else s
    .done s (x.act.flatMap fun l => resultOf o.dst .n32 l r) none []) s

end Sys2Proof.Machine
end

