-- ==== Sys2Proof/Machine/CrossLane.lean ====
section
/-! DEFINITION. Group 0x3: cross-lane instructions (R41, R152 to R158). -/

namespace Sys2Proof.Machine

/-- R41, R153: the source lane where it is active, else none. -/
def sourceLane (x : Wx) (j : Option Nat) : Option Nat :=
  match j with
  | some j => if j < x.w.w && x.act.contains j then some j else none
  | none => none

/-- R41, R153: an exchange of one register: each active lane receives its source lane's value, or keeps its own and loses
its validity bit. -/
def exchange (x : Wx) (d : Dst) (a : Src) (pv : BitVec 3) (src : Nat → Option Nat) : List RegWrite :=
  x.act.flatMap fun l =>
    match sourceLane x (src l) with
    | some j => resultOf d .b32 l (x.w.src j a .b32) ++ bitResult (.p pv) l true
    | none => resultOf d .b32 l (x.w.src l a .b32) ++ bitResult (.p pv) l false

/-- R153: the source lane of SHFL. -/
def shflSource (m : ShflMode) (l b : Nat) : Option Nat :=
  match m with
  | .idx => some b
  | .up => if b ≤ l then some (l - b) else none
  | .down => some (l + b)
  | .xor => some (l ^^^ b)

def execShfl (c : Ctl) (o : ShflOp) (s : State) :=
  aluWord (infoShfl c o) (fun x => exchange x o.dst o.a o.pv fun l =>
    shflSource o.mode l (x.w.src l o.b .n32).toNat) s

/-- R153: the 2 × 2 transposition. -/
def execPswap (c : Ctl) (o : PswapOp) (s : State) :=
  aluWord (infoPswap c o) (fun x => x.act.flatMap fun l =>
    let own := x.w.src l o.a .b64
    match sourceLane x (some (l ^^^ 1)) with
    | some j =>
      let other := x.w.src j o.a .b64
      let r : DWord := if l % 2 = 0 then (other.truncate 32 : Word) ++ (own.truncate 32 : Word)
        else ((own >>> 32).truncate 32 : Word) ++ ((other >>> 32).truncate 32 : Word)
      resultOf o.dst .b64 l r ++ bitResult (.p o.pv) l true
    | none => resultOf o.dst .b64 l own ++ bitResult (.p o.pv) l false) s

def qswapMask : QswapMode → Nat
  | .h => 1
  | .v => 2
  | .d => 3

def execQswap (c : Ctl) (o : QswapOp) (s : State) :=
  aluWord (infoQswap c o) (fun x => exchange x o.dst o.a o.pv fun l => some (l ^^^ qswapMask o.mode)) s

def execQbcast (c : Ctl) (o : QbcastOp) (s : State) :=
  aluWord (infoQbcast c o) (fun x => exchange x o.dst o.a o.pv fun l =>
    let n := (x.w.src l o.n .n32).toNat
    if n < 4 then some (4 * (l / 4) + n) else none) s

/-- R154: the vote of the contributing lanes. -/
def voteBits (op : VoteOp) (w : Warp) (thr : List Nat) (p : Nat) : DWord :=
  let b := fun l => (w.lane l).getP p
  match op with
  | .any => ofBit (thr.any b)
  | .all => ofBit (thr.all b)
  | .eq => ofBit (thr.all b || thr.all fun l => !b l)
  | .ballot => p2sMask w thr p

def execVote (c : Ctl) (o : VoteO) (s : State) :=
  aluWord (infoVote c o) (fun x =>
    let r := voteBits o.op x.w x.thr o.px.toNat
    if o.dst.scalar then resultOf o.dst .b64 0 r else x.act.flatMap fun l => resultOf o.dst .b64 l r) s

/-- R154: whether two lanes' values match. -/
def laneMatch (t : Ty) (a b : DWord) : Bool :=
  if t = .f32 then cmpFV .eq (f32 (a.truncate 32)) (f32 (b.truncate 32)) else a == b

def execMatchLanes (c : Ctl) (o : MatchOp) (s : State) :=
  aluWord (infoMatch c o) (fun x => x.act.flatMap fun l =>
    let own := x.w.src (x.w.anchorOf l) o.a o.ty
    resultOf o.dst .b64 l (BitVec.ofNat 64
      ((x.thr.filter fun j => laneMatch o.ty (x.w.src j o.a o.ty) own).map fun j => 2 ^ j).sum)) s

/-! ### Reductions (R155 to R158, R161) -/

/-- R156, R157: two values combined. -/
def combine (op : RedOp) (t : Ty) (r : Rnd) (a b : DWord) : DWord :=
  match op with
  | .add => if t = .f32 then (to32 r (FV.add r (f32 (a.truncate 32)) (f32 (b.truncate 32)))).zeroExtend 64
            else tyRes t false (tyVal t a + tyVal t b)
  | .min => if t = .f32 then BitVec.ofNat 64 (minBits fmt32 false a.toNat b.toNat) else if tyVal t b < tyVal t a then b else a
  | .max => if t = .f32 then BitVec.ofNat 64 (maxBits fmt32 false a.toNat b.toNat) else if tyVal t a < tyVal t b then b else a
  | .and => a &&& b
  | .or => a ||| b
  | .xor => a ^^^ b

/-- R156: the identity. (DEDUCED, log 24) -/
def identity (op : RedOp) (t : Ty) : DWord :=
  match op with
  | .add | .or | .xor => 0
  | .min => if t = .f32 then 0x7F800000 else tyRes t false (tyMax t)
  | .max => if t = .f32 then 0xFF800000 else tyRes t false (tyMin t)
  | .and => BitVec.ofNat 64 (2 ^ t.bits - 1)

/-- R157: positions 2k and 2k+1 combined; an empty position passes its partner. -/
def pairUp (f : DWord → DWord → DWord) : List (Option DWord) → List (Option DWord)
  | a :: b :: r =>
    (match a, b with
      | some x, some y => some (f x y)
      | some x, none => some x
      | none, y => y) :: pairUp f r
  | l => l

/-- R157, R161: the pairwise tree, level by level. -/
def treeFold (f : DWord → DWord → DWord) : Nat → List (Option DWord) → Option DWord
  | 0, l => l.headD none
  | n + 1, l => treeFold f n (pairUp f l)

/-- R155, R156: the contributing lanes. -/
def members (x : Wx) (pm : BitVec 3) : List Nat := x.thr.filter fun l => (x.w.lane l).getP pm.toNat

/-- R157: the tree over positions 0 to W − 1. -/
def rdxValue (x : Wx) (o : RdxOp) : Option DWord :=
  let m := members x o.pm
  treeFold (combine o.op o.ty o.rnd) 6 ((List.range x.w.w).map fun l => if m.contains l then some (x.w.src l o.a o.ty) else none)

def execRdx (c : Ctl) (o : RdxOp) (s : State) :=
  runWord (infoRdx c o) (fun x s =>
    match rdxValue x o with
    | some r => .done s (if o.dst.scalar then resultOf o.dst o.ty 0 r else x.act.flatMap fun l => resultOf o.dst o.ty l r) none []
    | none => .done (s.modWarp x.core x.slot Warp.setEmpty)
        (if o.dst.scalar then resultOf o.dst o.ty 0 (identity o.op o.ty) else []) none []) s

/-- R157: one lane at a time, in ascending LANEID; the first value stands as it is, and is not added to the identity. (DESIGN CHOICE, log 116) -/
def seqFold (f : DWord → DWord → DWord) : List DWord → Option DWord
  | [] => none
  | a :: r => some (r.foldl f a)

/-- R155: the prefix at a lane; the identity where no lane contributes up to it, and the value itself where one does. (DEDUCED, log 24; DESIGN
CHOICE, log 116) -/
def scnValue (x : Wx) (o : ScnOp) (upTo : Nat) : DWord :=
  ((seqFold (combine o.op o.ty o.rnd) (((members x o.pm).filter fun l => l ≤ upTo).map fun l => x.w.src l o.a o.ty)).getD
    (identity o.op o.ty))

def execScn (c : Ctl) (o : ScnOp) (s : State) :=
  runWord (infoScn c o) (fun x s =>
    let s := if (members x o.pm).isEmpty then s.modWarp x.core x.slot Warp.setEmpty else s
    .done s ((x.act.flatMap fun l => resultOf o.dst o.ty l (scnValue x o (x.w.anchorOf l))) ++
      resultOf o.st o.ty 0 (scnValue x o x.w.w)) none []) s

def execElect (c : Ctl) (o : ElectOp) (s : State) :=
  aluWord (infoElect c o) (fun x =>
    let lo := x.thr.headD 0
    (x.act.flatMap fun l => bitResult (.p o.pd) l (x.w.anchorOf l == lo)) ++ resultOf o.sd .n32 0 (BitVec.ofNat 64 lo)) s

end Sys2Proof.Machine
end

