-- ==== Sys2Proof/Machine/Barrier.lean ====
section
/-! DEFINITION. Team barriers and SYNCM (R159 to R164). An arrived lane already stands at the PC after its instruction;
it is held until its phase completes. -/

namespace Sys2Proof.Machine

/-- R160: lanes of a team, by thread number, leave barrier `n`. (DEDUCED, log 89) -/
def State.releaseBar (s : State) (team : Nat) (threads : List Nat) : State :=
  { s with warps := s.warps.map fun w => { w with lanes := w.lanes.map fun l =>
      if l.kind.isThread && l.team == team && l.st == .barrier && threads.contains l.thread then { l with st := .ready } else l } }

/-- R161: the combination over the arrivals of one operation and type, over positions 0 to TEAMDIM − 1. -/
def barxValue (dim : Nat) (as : List BarArrival) (op : RedOp) (t : Ty) : Option DWord :=
  treeFold (combine op t .rn) 11 ((List.range dim).map fun i =>
    (as.find? fun a => a.thread == i && a.bx == some (op, t)).map BarArrival.payload)

/-- R161: the BARX instructions of a phase, one entry each, in the order in which they arrived. -/
def barxInstrs (as : List BarArrival) : List BarArrival :=
  as.foldl (fun acc a => if a.bx.isSome && !acc.any (fun b => b.warp == a.warp && b.seq == a.seq) then acc ++ [a] else acc) []

/-- R161: the destinations of a phase are written, and the events of its BARX instructions finish (R96). (DEDUCED, log 89) -/
def State.writeBarx (s : State) (dim : Nat) (as : List BarArrival) : State :=
  (barxInstrs as).foldl (fun s a =>
    match a.bx, a.sd with
    | some (op, t), some sd =>
      (match barxValue dim as op t with
      | some r => s.modWarpU a.warp fun w => (w.result (resultOf (.s (BitVec.ofNat 8 sd)) t 0 r)).writeBack a.seq
      | none => s)
    | _, _ => s.modWarpU a.warp fun w => w.writeBack a.seq) s

/-- R164: the team is stopped: a stop of its core has been delivered, or it is saved. -/
def State.teamStopped (s : State) (t : Team) : Bool :=
  match t.place with
  | .resident c => s.stopping c (s.gridOf t.grid).ctx
  | .saved => true

/-- R160: a phase completes when every thread of the team that has not exited has arrived; not while the team is stopped (R164). -/
def State.checkBar (s : State) (team n : Nat) : State :=
  match s.team team with
  | none => s
  | some t =>
    let as := t.bars.getD n []
    if as.isEmpty || decide (as.length < t.alive) || s.teamStopped t then s
    else
      let s := s.writeBarx (s.gridOf t.grid).f.teamdim as
      let s := s.releaseBar team (as.map BarArrival.thread)
      s.modTeam team fun t => { t with bars := t.bars.set n [] }

/-- R160: the phases of a team that can complete do. -/
def State.checkBars (s : State) (team : Nat) : State := (List.range 16).foldl (fun s b => s.checkBar team b) s

/-- R160: the active lanes arrive; the other lanes of the group go on. -/
def State.arrive (s : State) (x : Wx) (n : Nat) (bx : Option (RedOp × Ty)) (sd : Option Nat) (payload : Nat → DWord) : State :=
  let s := s.modWarp x.core x.slot fun w =>
    (w.modLanes x.run.lanes fun l => { l with pc := x.next }).modLanes x.thr fun l => { l with st := .barrier }
  s.modTeam x.w.team fun t => { t with
    bars := t.bars.modify n fun as => as ++ x.thr.map fun l =>
      ⟨(x.w.lane l).thread, x.w.uid, x.w.nextEv, bx, payload l, sd, x.run.pc⟩ }

/-- R163: an arrival is a release: it waits until the warp's earlier accesses are performed. In a MIXED warp MIXED_BARRIER comes before the
index. (DEDUCED, log 95; DESIGN CHOICE, log 122) -/
def barBody (n : Nat) (bx : Option (RedOp × Ty)) (sd : Option Nat) (payload : Wx → Nat → DWord) (p : Option Pend) (x : Wx) (s : State) : Eff :=
  if x.w.mixed then .fault .mixedBarrier 0 false
  else if n > 15 then .fault .illegalOperand 0 false
  else if x.w.acquiring || !x.w.outstanding.isEmpty then .hold s
  else .ends (s.arrive x n bx sd (payload x)) [] p

/-- R160: an arrival may complete the phases of its team, once its run has ended. -/
def barMore (e : Eff) (x : Wx) (t : State) : State :=
  match e with
  | .ends .. => t.checkBars x.w.team
  | _ => t

/-- BAR (R160). -/
def execBar (c : Ctl) (o : MaskOp) (s : State) : Host.Outcome State Fault Refusal :=
  runWordThen (infoBar c o) (fun x s => barBody (x.w.src 0 o.m .b64).toNat none none (fun _ _ => 0) none x s) barMore s

/-- The S register that BARX names, if any. -/
def BarxOp.sd (o : BarxOp) : Option Nat :=
  match o.dst with
  | .s k => some k.toNat
  | _ => none

/-- BARX (R161). (DEDUCED, log 89) -/
def execBarx (c : Ctl) (o : BarxOp) (s : State) : Host.Outcome State Fault Refusal :=
  runWordThen (infoBarx c o) (fun x s =>
    barBody (x.w.src 0 o.n .b64).toNat (some (o.op, o.ty)) (BarxOp.sd o) (fun x l => x.w.src l o.a o.ty) (some (pendOf .barrier [] none)) x s)
    barMore s

/-! ### SYNCM (R162) -/

/-- R162: every lane of the union that can still arrive has arrived. -/
def Warp.syncDone (w : Warp) (p : SyncPhase) : Bool :=
  w.threads.all fun l => !p.mask.getLsbD l || (w.lane l).st == .exited || p.arrived.contains l

/-- R162: the phase completes: its lanes are released. -/
def Warp.checkSync (w : Warp) : Warp :=
  match w.sync with
  | none => w
  | some p =>
    if w.syncDone p then
      { w.modLanes p.arrived (fun l => if l.st = .syncm then { l with st := .ready } else l) with sync := none }
    else w

/-- R162: the mask a lane arrives with. -/
def syncMask (w : Warp) (l : Nat) (m : Src) : DWord :=
  BitVec.ofNat 64 ((w.src l m .b64).toNat % 2 ^ w.w) ||| (1#64 <<< l)

/-- SYNCM (R162). -/
def execSyncm (c : Ctl) (o : MaskOp) (s : State) :=
  runWord (infoSyncm c o) (fun x s =>
    let ms := x.thr.map fun l => (l, syncMask x.w l o.m)
    let first := match x.w.sync with
      | some p => p.first
      | none => (ms.head?.map Prod.snd).getD 0
    let differs := ms.any fun p => p.2 != first
    if differs && x.g.f.checker then .fault .maskmis 0 false
    else
      let old := x.w.sync.getD ⟨first, 0, []⟩
      let phase : SyncPhase := ⟨old.first, ms.foldl (fun m p => m ||| p.2) old.mask, old.arrived ++ x.thr⟩
      let s := s.modWarp x.core x.slot fun w =>
        let w := (w.modLanes x.run.lanes fun l => { l with pc := x.next }).modLanes x.thr fun l => { l with st := .syncm }
        let w := if differs then w.setMaskmis else w
        ({ w with sync := some phase }).checkSync
      .ends s [] none) s

/-! ### The domain of a regroup (R299) -/

/-- The warps of a domain that are resident. -/
def State.domWarps (s : State) (id : Nat) : List Warp := s.warps.filter fun w => w.dom == some id

/-- R299: each lane of the warp that has not exited has arrived. -/
def Warp.arrivedAll (w : Warp) : Bool :=
  w.arr.isSome && w.threads.all (fun i => (w.lane i).st == .exited || (w.lane i).st == .regroup) &&
  w.threads.any fun i => (w.lane i).st == .regroup

/-- R299: a warp is of those that a REGRP's domain takes: of the grid on the core, or of the team. -/
def Warp.inDomain (w v : Warp) (core : Bool) : Bool := if core then v.grid == w.grid else v.team == w.team

/-- R299: the warps that a REGRP's domain takes at once; a warp belongs to one domain at a time. (DEDUCED, log 98) -/
def State.domainOf (s : State) (w : Warp) (core : Bool) : List Warp :=
  s.warps.filter fun v => v.core == w.core && v.dom.isNone && w.inDomain v core

/-- R299: the domains whose warps are to come back into it. (DEDUCED, log 98) -/
def State.domainWaits (s : State) (w : Warp) (core : Bool) : List Nat :=
  ((s.warps.filter fun v => v.core == w.core && w.inDomain v core).filterMap Warp.dom).eraseDups

/-- R306: the warps that a stop has saved while their team still stands on its core. -/
def State.savedWarps (s : State) (core : Nat) : List Warp :=
  (s.teams.filter fun t => t.place == .resident core).flatMap fun t => t.warps

/-- R299, R306: the domain is fixed when its first warp has arrived; a warp that a stop has saved belongs to it, its slot
(marked by 64) to be found again. -/
def State.fixDomain (s : State) (core slot : Nat) : State :=
  match s.warpAt core slot with
  | none => s
  | some w =>
    match w.arr with
    | none => s
    | some a =>
      if !w.arrivedAll || w.dom.isSome then s
      else
        let ws := s.domainOf w a.core
        let ss := (s.savedWarps core).filter fun v => v.dom.isNone && w.inDomain v a.core
        let id := s.uid
        let d : Domain := ⟨id, core, (ws.map Warp.slot).mergeSort ++ ss.map (fun v => v.slot + 64),
          (ws ++ ss).map fun v => (v.team, v.idx, v.slot), false, s.domainWaits w a.core⟩
        let mine := fun (v : Warp) => (ws ++ ss).any fun u => u.uid == v.uid
        let mark := fun (v : Warp) => if mine v then { v with dom := some id } else v
        { s with
          uid := id + 1
          sch := { s.sch with doms := s.sch.doms ++ [d] }
          warps := s.warps.map mark
          teams := s.teams.map fun t => { t with warps := t.warps.map mark } }

/-! ### Threads exit (R43, R160, R162, R299) -/

/-- R43, R136: lanes of a warp exit: their cursors close, and barrier phases may complete without them. -/
def State.exitLanes (s : State) (w : Warp) (lanes : List Nat) : State :=
  let s := lanes.foldl (fun s i => s.closeCursors (w.lane i)) s
  let s := s.modWarp w.core w.slot fun w =>
    (w.modLanes lanes fun l => { l with st := .exited, k := l.k.map fun _ => none }).checkSync
  let s := s.fixDomain w.core w.slot
  let teams := (lanes.map fun i => (w.lane i).team).eraseDups
  teams.foldl (fun s t =>
    let n := (lanes.filter fun i => (w.lane i).team == t).length
    let s := s.modTeam t fun t => { t with alive := t.alive - n }
    s.checkBars t) s.freeVersions

end Sys2Proof.Machine
end

