-- ==== Sys2Proof/Machine/Control.lean ====
section
/-! DEFINITION. Group 0x5: control transfers, EXIT and NAP (R36, R129 to R137). -/

namespace Sys2Proof.Machine

/-- R31, R36, R135: the lanes of the group get their PCs; `target` gives the PC of a lane that takes the transfer. A lane
that a yielding branch takes to a PC not above its own is parked, until the lanes that are not have issued (R37). -/
def Warp.moveLanes (w : Warp) (r : Run) (yld : Bool) (target : Nat → Option Word) : Warp :=
  let parks := fun i => r.lanes.contains i && match target i with
    | some t => yld && decide (t.toNat ≤ r.pc.toNat)
    | none => false
  let others := w.threads.filter fun i => w.canRun i && !parks i
  { w with lanes := w.lanes.zipIdx.map fun (l, i) =>
      if r.lanes.contains i then
        match target i with
        | some t => if yld && decide (t.toNat ≤ r.pc.toNat) then { l with pc := t, st := .parked, owed := others } else { l with pc := t }
        | none => { l with pc := r.pc + 1 }
      else l }

/-- The transfer, with the count of parkings (R392). -/
def State.transfer (s : State) (x : Wx) (yld : Bool) (target : Nat → Option Word) : State :=
  let parked := (x.run.lanes.filter fun i => match target i with
    | some t => yld && decide (t.toNat ≤ x.run.pc.toNat)
    | none => false).length
  (s.count x.core 0x0E parked).modWarp x.core x.slot fun w => w.moveLanes x.run yld target

/-- R129: a direct target. -/
def Wx.label (x : Wx) (imm : BitVec 28) : Word := x.run.pc + imm.signExtend 32

/-- A lane's register target. -/
def Wx.regTarget (x : Wx) (t : Src) (l : Nat) : Word := x.w.src32 l t .n32

/-- The target in the active lanes, none in the others. -/
def Wx.ifActive (x : Wx) (t : Nat → Word) (l : Nat) : Option Word := if x.act.contains l then some (t l) else none

/-- BRA (R131). -/
def execBra (c : Ctl) (o : BraOp) (s : State) :=
  runWord (infoBra c) (fun x s => .ends (s.transfer x c.sch.yld (x.ifActive fun _ => x.label o.imm)) [] none) s

/-- R132: BRU, whichever form its target has. -/
def bruTo (c : Ctl) (px : BitVec 3) (target : Nat → Word) (x : Wx) (s : State) : Eff :=
  let m := x.run.lanes.headD 0
  let p := fun l => (x.w.lane l).getP px.toNat
  let take := p m
  if x.g.f.checker && (x.run.lanes.any (fun l => p l != take) || (take && x.run.lanes.any fun l => target l != target m)) then
    .fault .uniform 0 false
  else .ends (s.transfer x c.sch.yld fun _ => if take then some (target m) else none) [] none

def execBruLabel (c : Ctl) (o : BruLabelOp) (s : State) :=
  runWord (infoBruLabel c o) (fun x s => bruTo c o.px (fun _ => x.label o.imm) x s) s

def execBruRegister (c : Ctl) (o : BruRegOp) (s : State) :=
  runWord (infoBruReg c o) (fun x s => bruTo c o.px (x.regTarget o.t) x s) s

/-- BRX (R133). -/
def execBrx (c : Ctl) (o : TargetOp) (s : State) :=
  runWord (infoTarget c o) (fun x s => .ends (s.transfer x c.sch.yld (x.ifActive (x.regTarget o.t))) [] none) s

/-- R134: the return PC in each active lane. -/
def Wx.returns (x : Wx) (d : Dst) : List RegWrite := x.act.flatMap fun l => resultOf d .n32 l (x.next.zeroExtend 64)

/-- CALL (R134). -/
def execCall (c : Ctl) (o : CallOp) (s : State) :=
  runWord (infoCall c o) (fun x s =>
    .ends (s.transfer x false (x.ifActive fun _ => x.label o.imm)) (x.returns o.ret) none) s

/-- CALLX (R134). -/
def execCallx (c : Ctl) (o : CallxOp) (s : State) :=
  runWord (infoCallx c o) (fun x s =>
    .ends (s.transfer x false (x.ifActive (x.regTarget o.t))) (x.returns o.ret) none) s

/-- RET (R134), with its trace record (R389). -/
def execRet (c : Ctl) (o : TargetOp) (s : State) :=
  runWord (infoTarget c o) (fun x s =>
    let s := s.traceCore 3 x.core x.g.ctx 8 (x.run.pc.toNat + (x.regTarget o.t x.low).toNat * 2 ^ 32)
      ((x.act.map fun l => 2 ^ l).sum) 0
    .ends (s.transfer x false (x.ifActive (x.regTarget o.t))) [] none) s

/-- EXIT (R43, R136). (DEDUCED, log 19) -/
def execExit (c : Ctl) (s : State) :=
  runWord (infoLane c true) (fun x s =>
    let s := s.modWarp x.core x.slot fun w => w.modLanes x.run.lanes fun l => { l with pc := x.next }
    .ends (s.exitLanes x.w x.thr) [] none) s

/-! ### NAP (R137) -/

/-- R137: the lanes of the group stand at PC + 1, and the warp issues nothing until the nap ends. -/
def napFor (n : Nat) (i : Instr) (x : Wx) (s : State) : Eff :=
  .ends (s.modWarp x.core x.slot fun w => { w.modLanes x.run.lanes (fun l => { l with pc := x.next }) with
    hold := some ⟨i, x.run.lanes, x.run.pc, s.gtime, s.clkOf x.core, n, w.cmdsDone, false, none⟩ }) [] (some (pendOf .held [] none))

def execNapImmediate (c : Ctl) (o : Imm16Op) (s : State) :=
  runWord (infoNapImm c) (napFor o.n.toNat (.napImmediate c o)) s

def execNapRegister (c : Ctl) (o : MaskOp) (s : State) :=
  runWord (infoNapReg c o) (fun x s => napFor (min 16777215 (x.w.src 0 o.m .b64).toNat) (.napRegister c o) x s) s

def Hold.isNap (h : Hold) : Bool :=
  match h.i with
  | .napImmediate .. | .napRegister .. => true
  | _ => false

/-- R137: n cycles have passed, with n = 0 one choice of a run, or a command of the warp has completed. -/
def State.napOver (s : State) (w : Warp) (h : Hold) : Bool :=
  (if h.n = 0 then h.ready else decide (s.clkOf w.core ≥ h.k0 + h.n)) || decide (w.cmdsDone > h.seen)

/-- R137: a nap of no cycles, from which the warp wakes after the choice that it gives up. -/
def Warp.briefNap (w : Warp) : Bool :=
  match w.hold with
  | some h => h.isNap && h.n == 0 && !h.ready
  | none => false

/-- R137: a choice of runs on the core, by either issue slot, has passed over the warps in such a nap. (DESIGN CHOICE, log 119) -/
def State.passNaps (s : State) (core : Nat) : State :=
  { s with warps := s.warps.map fun w =>
      if w.core == core && w.briefNap then { w with hold := w.hold.map fun (h : Hold) => { h with ready := true } } else w }

/-- NAP_END (R137). -/
def execNapEnd (core slot : Nat) (s : State) : Host.Outcome State Fault Refusal :=
  match s.warpAt core slot with
  | none => .next s
  | some w =>
    match w.hold with
    | none => .next s
    | some h =>
      if h.isNap && s.napOver w h then .next (s.modWarp core slot fun w => { w.endHeld with hold := none, readyAt := s.gtime })
      else .next s

end Sys2Proof.Machine
end

