-- ==== Sys2Proof/Machine/Access.lean ====
section
/-! DEFINITION. What the memory instructions share: the checks of R182 lane by lane, watchpoints (R397), the requests they
leave at the home slices and at peers (R224, R380) with the order of R202 and R203, and what comes of their
completion (R183, R189, R222, R405). -/

namespace Sys2Proof.Machine

/-! ### The two windows (R168, R169) -/

/-- R168: bytes of a team's grant. -/
def Grid.grant (g : Grid) : Nat := 4096 * g.f.scratch

/-- R169, R320: the name in which a team's reservations stand: its own, or its cohort's. (DESIGN CHOICE, log 83) -/
def State.ownerOf (s : State) (team : Nat) : Nat :=
  match s.team team with
  | none => team
  | some t => if (s.gridOf t.grid).f.cohort2 then 2 ^ 80 + t.grid * 2 ^ 40 + t.teamId / 2 else team

/-- R169, R320: bytes [off, off + n) lie in granules reserved by the owner. -/
def Core.holds (k : Core) (owner off n : Nat) : Bool :=
  let ok := fun gr => k.res.any fun r => r.owner == owner && decide (r.first ≤ gr ∧ gr < r.first + r.size)
  decide (off + n ≤ 262144) && ok (off / 2048) && ok ((off + n - 1) / 2048)

/-- The poison of the four sectors of a 128-byte block, from a list of poisoned sector numbers. -/
def blockPoison (ps : List Nat) (base : Nat) : BitVec 4 :=
  BitVec.ofNat 4 (((List.range 4).map fun i => if ps.contains (base / 32 + i) then 2 ^ i else 0).sum)

def setBlockPoison (ps : List Nat) (base : Nat) (p : BitVec 4) : List Nat :=
  (ps.filter fun x => !(decide (base / 32 ≤ x ∧ x < base / 32 + 4))) ++
    ((List.range 4).filter fun i => p.getLsbD i).map fun i => base / 32 + i

/-- Operations on a 128-byte block of a byte array. -/
def blockOps (m : Mem) (ps : List Nat) (base : Nat) (ops : List LineOp) : Mem × List Nat × List LaneRes :=
  let (d, p, rs) := runOps ops (m.read base 128) (blockPoison ps base)
  (m.write base d, setBlockPoison ps base p, rs)

/-- R168: operations on a team's scratchpad. (DESIGN CHOICE, log 57) -/
def State.scratchOps (s : State) (team base : Nat) (ops : List LineOp) : State × List LaneRes :=
  match s.team team with
  | none => (s, [])
  | some t =>
    let (m, ps, rs) := blockOps t.scratch t.poison base ops
    (s.modTeam team fun t => { t with scratch := m, poison := ps }, rs)

/-- R169: operations on a core's operand buffer. (DESIGN CHOICE, log 57) -/
def State.opbufOps (s : State) (core base : Nat) (ops : List LineOp) : State × List LaneRes :=
  let k := s.core core
  let (m, ps, rs) := blockOps k.opbuf k.opPoison base ops
  (s.modCore core fun k => { k with opbuf := m, opPoison := ps }, rs)

/-! ### Checks (R182) -/

/-- The translation of an address of a core's instruction: from the TLBs, or to be asked for (R176). -/
def State.locate (s : State) (w : Warp) (va : Nat) (write : Bool) : Loc :=
  let die := w.core / 64
  let ctx := s.ctxOf w
  let page := va / 65536
  let mapped := match regionOf va with
    | .dev | .host => true
    | _ => false
  if !mapped then s.place die ctx va write none
  else
    match s.tlb w.core ctx page with
    | some e => s.place die ctx va write (some e)
    | none =>
      match s.place die ctx va write none with
      | .fault .translation =>
        if w.walked.any (fun p => p.1 == page) || (decide (va ≥ 2 ^ 55) && s.pasidDead ctx) then .fault .translation
        else .walk page
      | r => r

/-- R182: steps 1 to 5 for one lane. -/
def State.laneLoc (s : State) (x : Wx) (lane va size : Nat) (write : Bool) : Loc :=
  if va % size ≠ 0 then .fault .align
  else
    match s.locate x.w va write with
    | .scratch off => if off + size ≤ x.g.grant then .scratch off else .fault .scratchBounds
    | .opbuf off => if (s.core x.core).holds (s.ownerOf (x.w.lane lane).team) off size then .opbuf off else .fault .opbufBounds
    | r => r

/-- R176: a warp's access misses: it joins the walk of the page, or starts one, where there is a place. -/
def State.joinWalk (s : State) (x : Wx) (page : Nat) : State :=
  let die := x.core / 64
  let same := fun (k : Walk) => k.die == die && k.ctx == x.g.ctx && k.page == page
  match s.mem.walks.find? same with
  | some k =>
    if k.waiters.contains x.w.uid || decide (k.waiters.length ≥ 512) then s
    else
      let join := fun (k : Walk) => if same k then { k with waiters := k.waiters ++ [x.w.uid] } else k
      (s.count x.core 7 1).modMem fun m => { m with walks := m.walks.map join }
  | none =>
    if (s.mem.walks.filter fun k => k.die == die).length ≥ 64 then s
    else (s.count x.core 7 1).modMem fun m => { m with walks := m.walks ++ [⟨die, x.g.ctx, page, [x.w.uid]⟩] }

/-- R176, R377: the translations that are missing are asked for; none: nothing is missing. -/
def State.ask (s : State) (x : Wx) (locs : List Loc) : Option State :=
  let die := x.core / 64
  if locs.any (fun l => match l with
      | .walk _ | .ats .. => true
      | _ => false) then
    some (locs.foldl (fun s l => match l with
      | .walk p => s.joinWalk x p
      | .ats pasid p =>
        if s.mem.ats.any fun e => e.die == die && e.pasid == pasid && e.page == p then s
        else (s.modMem fun m => { m with ats := m.ats ++ [⟨die, pasid, p, none, false⟩] }).send (.ats die pasid p)
      | _ => s) s)
  else none

/-- R377: a stage-2 failure has been delivered. -/
def State.dropFailed (s : State) (x : Wx) (bad : List Bad) : State :=
  if bad.any fun b => b.code == .translation || b.code == .machineCheck then
    s.modMem fun m => { m with s2 := m.s2.filter fun e => !(e.die == x.core / 64 && e.spa.isNone) }
  else s

/-- The faults among lanes' accesses. -/
def badsOf (as : List (Nat × Nat × Loc)) : List Bad :=
  as.filterMap fun (l, va, loc) => match loc with
    | .fault c => some ⟨l, c, va⟩
    | _ => none

def okOf (as : List (Nat × Nat × Loc)) : List (Nat × Nat × Loc) :=
  as.filter fun (_, _, loc) => match loc with
    | .fault _ => false
    | _ => true

/-- R182: an access that gets as far as its page's walk. -/
def Loc.walked : Loc → Bool
  | .fault .align => false
  | _ => true

/-- R176, R182, R392: the pages used enter the core's L1 TLB from its pair's, each a miss of it; a second-stage failure has been
delivered (R377). -/
def State.translated (s : State) (x : Wx) (as : List (Nat × Nat × Loc)) : State :=
  let pages := (as.filterMap fun (_, va, loc) => match regionOf va with
    | .dev | .host => if loc.walked then some (va / 65536) else none
    | _ => none).eraseDups
  let s := pages.foldl (fun s p =>
    if s.tlbMiss x.core x.g.ctx p then
      (match s.tlb x.core x.g.ctx p with
      | some e => (s.count x.core 7 1).fillL1Tlb x.core e
      | none => s)
    else s) s
  s.dropFailed x (badsOf as)

/-- R181: a lane's effective address. -/
def Wx.ea (x : Wx) (l : Nat) (a : Src) (off : BitVec 10) : Nat := (x.w.src l a .b64 + off.signExtend 64).toNat

/-- The pieces of a range, a line each: address and length; `fuel` bounds their number. -/
def linePieces (va : Nat) : Nat → Nat → List (Nat × Nat)
  | 0, _ => []
  | fuel + 1, n =>
    if n = 0 then []
    else
      let k := min n (128 - va % 128)
      (va, k) :: linePieces (va + k) fuel (n - k)

def pieces (va n : Nat) : List (Nat × Nat) := linePieces va (n / 128 + 2) n

/-! ### Watchpoints (R397) -/

/-- R397: an access of [va, va + n) touches the watched range. -/
def Watch.hits (p : Watch) (rd wr : Bool) (va n : Nat) : Bool :=
  decide (3 ≤ p.len ∧ p.len ≤ 12) && ((wr && p.kind % 2 == 1) || (rd && p.kind / 2 % 2 == 1)) &&
  (let b := p.base / 2 ^ p.len * 2 ^ p.len
   decide (b < va + n ∧ va < b + 2 ^ p.len))

/-- R397: the lowest lane that matches stops the warp after the run. -/
def State.watched (s : State) (x : Wx) (rd wr : Bool) (as : List (Nat × Nat × Loc)) (n : Nat) : State :=
  if s.debugged x.w then
    match as.find? fun (_, va, _) => (s.core x.core).watch.any fun p => p.hits rd wr va n with
    | some (lane, va, _) => s.modWarp x.core x.slot fun w => { w with run := w.run.map fun r =>
        { r with stopAfter := mergeStop r.stopAfter (2, lane, BitVec.ofNat 64 va) } }
    | none => s
  else s

/-! ### Replay capture (R394) -/

/-- R394: a team is captured. (DEDUCED, log 88) -/
def State.captured (s : State) (team : Nat) : Bool :=
  match s.team team with
  | none => false
  | some t => (s.gridOf t.grid).capture && t.teamId == s.trace.rteam && s.trace.flags.getLsbD 0 && s.trace.flags.getLsbD 4

/-- R394: an RVAL record of a lane at a PC. (DEDUCED, log 88) -/
def State.rval (s : State) (w : Warp) (lane : Nat) (pc : Word) (w2 w3 : Nat) : State :=
  let l := w.lane lane
  if l.kind.isThread && s.captured l.team then
    s.traceRec 0 [traceHead 0x0A (s.ctxOf w) (w.core / 64) (w.core % 64) (s.die (w.core / 64)).clk 0,
      pc.toNat + l.thread * 2 ^ 32, w2, w3]
  else s

/-! ### Requests -/

def Order.acquires : Order → Bool
  | .acq | .ar | .sc => true
  | _ => false

def Order.releases : Order → Bool
  | .rel | .ar | .sc => true
  | _ => false

/-- R195: the scope of an access to the scratchpad. -/
def Scope.narrow (sc : Scope) : Scope := if sc = .warp then .warp else .team

def inScratch (va : Nat) : Bool :=
  match regionOf va with
  | .scratch _ => true
  | _ => false

/-- R195: every access of the word goes to the scratchpad. -/
def Wx.near (x : Wx) (ea : Nat → Nat) : Bool := x.thr.all fun l => inScratch (ea l)

/-- R195: the scope that counts. -/
def Wx.scope (x : Wx) (ea : Nat → Nat) (sc : Scope) : Scope := if x.near ea then Scope.narrow sc else sc

/-- R197, R203: what an access of the order must follow. (DESIGN CHOICE, log 52) -/
def Wx.deps (x : Wx) (o : Order) : List Nat := if Order.releases o then x.w.outstanding else []

/-- An access that goes to a home slice, and the lanes it is for. -/
structure Item where
  line : LineId
  attr : BitVec 16
  nc : Bool
  op : LineOp
  late : List LateSrc
  lanes : List Nat
  deriving DecidableEq, Repr

/-- R97: what of a source operand of `size` bytes, read for a lane, may be read late: it goes to byte `pos` on. -/
def lateOf (a : Src) (lane pos size : Nat) : List LateSrc :=
  let part := fun i => min 4 (size - 4 * i)
  match a with
  | .v n _ => if n = 255#8 then [] else (List.range ((size + 3) / 4)).map fun i => ⟨.v (n.toNat + i), lane, 0, pos + 4 * i, part i⟩
  | .s n _ => (List.range (min 2 ((size + 3) / 4))).map fun i => ⟨.s n.toNat, lane, i, pos + 4 * i, part i⟩
  | _ => []

/-- R97, R184: the late sources of a line's items; those of stored bytes that a higher lane stores over are of no account. -/
def lateOn : List Item → List LateSrc
  | [] => []
  | i :: r =>
    (i.late.filter fun e => !r.any fun j => match j.op with
      | .write off b => decide (off < e.pos + e.n ∧ e.pos < off + b.length)
      | _ => false) ++ lateOn r

/-- The lines of items, in order of first appearance. -/
def linesOf (is : List Item) : List LineId := (is.map Item.line).eraseDups

/-- R184: the stores to a line as one write for each unbroken stretch of bytes, the highest lane last. -/
def mergeStores (ws : List (Nat × List Byte)) : List LineOp :=
  let arr : List (Option Byte) := ws.foldl (fun a (off, b) => a.zipIdx.map fun (o, i) =>
    if off ≤ i ∧ i < off + b.length then some (b.getD (i - off) 0) else o) (List.replicate 128 none)
  let rec go : List (Option Byte) → Nat → List Byte → List LineOp
    | [], i, acc => if acc.isEmpty then [] else [.write (i - acc.length) acc]
    | some b :: r, i, acc => go r (i + 1) (acc ++ [b])
    | none :: r, i, acc => (if acc.isEmpty then [] else [LineOp.write (i - acc.length) acc]) ++ go r (i + 1) []
  go arr 0 []

/-- The operations of a line, stores merged. -/
def opsOn (ops : List LineOp) : List LineOp :=
  let ws := ops.filterMap fun o => match o with
    | .write off b => some (off, b)
    | _ => none
  (ops.filter fun o => match o with
    | .write .. => false
    | _ => true) ++ mergeStores ws

def LineOp.isWrite : LineOp → Bool
  | .write .. => true
  | _ => false

/-- R231: the posted writes made before through the context's queue interface. -/
def State.posted (s : State) (ctx : Nat) : List Nat :=
  let face := fun c => (s.ctx c).map Ctx.owner
  (s.mem.queue.filter fun r => r.nc && r.ops.any LineOp.isWrite && face r.ctx == face ctx).map HomeReq.id

/-- One request for each line. -/
def State.addReqs (s : State) (x : Wx) (is : List Item) (kind : Item → ReqKind) (rc : Nat) (sys : Bool) (deps : List Nat) :
    State × List Nat :=
  (linesOf is).foldl (fun (s, ids) l =>
    let its := is.filter fun i => i.line == l
    match its.head? with
    | none => (s, ids)
    | some i =>
      let (s, id) := s.addReq ⟨0, x.g.uid, x.core, x.w.uid, x.w.nextEv, x.g.ctx, l, i.attr, kind i,
        opsOn (its.map Item.op), rc, sys, if i.nc && i.op.isWrite then deps ++ s.posted x.g.ctx else deps, none, i.nc, false, 0, lateOn its, its.flatMap Item.lanes⟩
      (s, ids ++ [id])) (s, [])

/-! ### Peers (R378 to R380) -/

/-- R380: the live port of a line; none where no port is live. (DESIGN CHOICE, log 60) -/
def State.portOf (s : State) (line : Nat) : Option Nat :=
  let ps := (List.range 16).filter fun i => s.link.live.getLsbD i
  if ps.isEmpty then none else ps[line % ps.length]?

/-- A flit to a module. -/
def State.flitTo (s : State) (port m : Nat) (kind op typ off : Nat) (h2 : DWord) (payload : List Byte) : Flit where
  port := port
  kind := BitVec.ofNat 8 kind
  src := BitVec.ofNat 6 s.link.own
  dst := BitVec.ofNat 6 m
  id := BitVec.ofNat 12 s.link.nextFlit
  len := 0
  op := BitVec.ofNat 4 op
  typ := BitVec.ofNat 4 typ
  grp := 0
  chunk := 0
  off := BitVec.ofNat 42 off
  red := 0
  h2 := h2
  crc := 0
  status := 0
  poison := 0
  payload := payload

/-- R378: header word H0. -/
def Flit.h0 (f : Flit) : DWord :=
  BitVec.ofNat 64 (f.kind.toNat + f.src.toNat * 2 ^ 8 + f.dst.toNat * 2 ^ 14 + f.id.toNat * 2 ^ 20 + f.len.toNat * 2 ^ 32 +
    f.typ.toNat * 2 ^ 40 + f.op.toNat * 2 ^ 44 + f.grp.toNat * 2 ^ 48 + f.chunk.toNat * 2 ^ 56)

/-- R378: header word H1. -/
def Flit.h1 (f : Flit) : DWord := BitVec.ofNat 64 (f.off.toNat + f.red.toNat * 2 ^ 42)

/-- R378: a flit as it leaves, with its LEN and its CRC. (DESIGN CHOICE, log 60) -/
def Flit.sealed (f : Flit) : Flit :=
  let f := { f with len := BitVec.ofNat 8 ((f.payload.length + 7) / 8) }
  { f with crc := Config.flitCrc [Flit.h0 f, Flit.h1 f, f.h2] f.payload }

/-- R378: the 32 bytes of the header, H0 to H3. -/
def Flit.header (f : Flit) : List DWord := [Flit.h0 f, Flit.h1 f, f.h2, f.crc]

/-- A flit leaves (R378). -/
def State.sendFlit (s : State) (f : Flit) : State := s.send (.flit (Flit.sealed f) (Flit.header (Flit.sealed f)))

/-- R103: the code of a type. -/
def Ty.code : Ty → Nat
  | .i32 => 0 | .n32 => 1 | .i64 => 2 | .n64 => 3 | .i16 => 4 | .n16 => 5 | .i8 => 6 | .n8 => 7 | .b32 => 8 | .b64 => 9
  | .f32 => 10 | .f16 => 11 | .bf16 => 12 | .e4m3 => 13 | .e5m2 => 14 | .d2p8 => 15

def AtomOp.code : AtomOp → Nat
  | .add => 0 | .min => 1 | .max => 2 | .and => 3 | .or => 4 | .xor => 5 | .exch => 6 | .inc => 7 | .dec => 8

/-- R378: the flit that carries a lane's operation to a peer. A count barrier is checked by a WRCB without payload, and counted by an
ATOM that adds 1 where the data lies elsewhere (R185, R383). (DESIGN CHOICE, log 60) -/
def State.peerFlit (s : State) (port m off : Nat) (op : LineOp) : Flit :=
  match op with
  | .read .. | .fetch => s.flitTo port m 1 0 0 off 0 []
  | .write _ b => s.flitTo port m 3 0 0 off 0 b
  | .atom _ _ o t b _ => s.flitTo port m 5 (AtomOp.code o) (Ty.code t) off 0 (leBytes t.bytes b.toNat)
  | .cas _ _ size c n _ => s.flitTo port m 5 15 (if size = 4 then 1 else if size = 8 then 3 else 9) off 0 (c ++ n)
  | .cbInc _ ls =>
    if ls.isEmpty then s.flitTo port m 4 0 0 0 (BitVec.ofNat 64 off) [] else s.flitTo port m 5 0 3 off 0 (leBytes 8 1)
  | .tadd _ _ _ _ | .cbArm .. | .taint _ => s.flitTo port m 4 0 0 0 (BitVec.ofNat 64 off) []

/-- Flits whose predecessors are performed leave. -/
def State.sendReady (s : State) : State :=
  let go := s.link.out.filterMap fun p => if p.deps.isEmpty then p.flit else none
  let s := { s with link := { s.link with out := s.link.out.map fun (p : PeerReq) =>
    if p.deps.isEmpty then { p with flit := none } else p } }
  go.foldl (fun s f => s.sendFlit f) s

/-- One lane's operation at a peer: a flit of its own; the request's name, or none where no port is live. (DESIGN CHOICE, log 60) -/
def State.addPeer (s : State) (x : Wx) (m off lane : Nat) (op : LineOp) (deps : List Nat) (edit : Flit → Flit) :
    State × Option Nat :=
  match s.portOf (off / 128) with
  | none => (s, none)
  | some port =>
    let id := s.mem.nextId
    let p : PeerReq := ⟨id, s.link.nextFlit, port, x.core, x.w.uid, x.g.uid, x.w.nextEv, op, lane, 2 ^ 56 + m * 2 ^ 42 + off, deps,
      some (edit (s.peerFlit port m off op))⟩
    let s := s.modMem fun m => { m with nextId := id + 1 }
    let s := { s with link := { s.link with nextFlit := (s.link.nextFlit + 1) % 4096, out := s.link.out ++ [p] } }
    (s.sendReady, some id)

/-! ### Results -/

/-- R140, R181: the registers that bytes fill. -/
def LaneRes.regWrites (r : LaneRes) : List RegWrite :=
  match r.reg with
  | none => []
  | some n =>
    let k := r.bytes.length
    if k ≤ 4 then groupWrites n 1 r.lane (if r.sx then wrapN 32 (sgn (8 * k) (leNat r.bytes)) else leNat r.bytes)
    else groupWrites n (k / 4) r.lane (leNat r.bytes)

/-- What an access performed at issue gives: registers, and poison met. -/
def resWrites (w : Warp) (rs : List LaneRes) : List RegWrite := w.withHelpers (rs.flatMap LaneRes.regWrites)

/-- The lanes that met poison, each with its MACHINE_CHECK (DEDUCED, log 27). -/
def resBads (rs : List LaneRes) : List Bad := (rs.filter LaneRes.bad).map fun r => ⟨r.lane, .machineCheck, 0⟩

/-- R394: the old values of atomics of a captured team. -/
def State.rvals (s : State) (w : Warp) (pc : Word) (rs : List LaneRes) : State :=
  rs.foldl (fun s r =>
    if r.bad then s
    else
      let v := if r.reg.isSome then leNat r.bytes else 0
      s.rval w r.lane pc (v % 2 ^ 64) (v / 2 ^ 64)) s

/-- A request of a warp is performed: its lanes receive what it returned, later requests may go, and an acquire that has
nothing outstanding is done (R222). -/
def State.finishReq (s : State) (core uid pend req : Nat) (rs : List LaneRes) : State :=
  let s := s.modMem fun m =>
    { m with queue := m.queue.map fun (q : HomeReq) => { q with deps := q.deps.filter fun d => d != req } }.takeIn
  let s := { s with link := { s.link with out := s.link.out.map fun (p : PeerReq) =>
    { p with deps := p.deps.filter fun d => d != req } } }
  let s := s.sendReady
  match s.warpU uid with
  | none => s
  | some w =>
    match w.pend.find? fun p => p.id == pend with
    | none => s
    | some p =>
      let left := p.reqs.filter fun d => d != req
      let bads := resBads rs
      let s := if p.kind = .rmw then s.rvals w p.pc rs else s
      let s := match p.acq with
        | some sc => if left.isEmpty && sc != Scope.warp && sc != Scope.team then s.dropSelf core else s
        | none => s
      let s := s.modWarpU uid fun w => { w with pend := w.pend.map fun (q : Pend) =>
        if q.id = pend then { q with
          reqs := left
          acq := if left.isEmpty then none else q.acq
          writes := q.writes.filter (fun (r : RegWrite) => !(perLane r.key && bads.any fun b => b.lane == r.lane)) ++
            resWrites w rs } else q }
      if bads.isEmpty then s else s.raiseLanes uid p.pc bads

/-- R380: an operation of an agent that is no warp, at a peer: its flit leaves, with the poison of its bytes (R405), and a host operation
of the agent awaits its answer; none where no port is live. -/
def State.askPeer (s : State) (key core ctx m off : Nat) (op : LineOp) (k : HostOpKind) (q : BitVec 4) : Option State :=
  match s.portOf (off / 128) with
  | none => none
  | some port =>
    let id := s.mem.nextId
    let f := { s.peerFlit port m off op with poison := q }
    let p : PeerReq := ⟨id, s.link.nextFlit, port, core, 0, 0, 0, op, 0, 2 ^ 56 + m * 2 ^ 42 + off, [], none⟩
    let s := s.modMem fun m => { m with nextId := id + 1, hostOps := m.hostOps ++ [⟨id, k, key, 0, ctx, none, 0⟩] }
    let s := { s with link := { s.link with nextFlit := (s.link.nextFlit + 1) % 4096, out := s.link.out ++ [p] } }
    some (s.sendFlit f)

/-- R206, R208: a fence, or an access with `.SC`, waits where it stands. (DEDUCED, log 26) -/
def State.holdHere (s : State) (x : Wx) (i : Instr) (n : Nat) : State :=
  s.modWarp x.core x.slot fun w =>
    { w with hold := some ⟨i, [], x.run.pc, s.gtime, s.clkOf x.core, n, w.cmdsDone, false, none⟩ }

end Sys2Proof.Machine
end

