-- ==== Sys2Proof/Machine/MemoryInstr.lean ====
section
/-! DEFINITION. Group 0x6: LD, ST, ST.CB, PRF, cache maintenance, ATOM, RED and CAS (R180 to R194). A word that meets an
untranslated page waits and is looked at again (R176). Its addresses are read as it issues, and its data there or as it is performed
(R97). -/

namespace Sys2Proof.Machine

/-- Where an access goes, once it may be made. -/
inductive Tgt where
  | line (l : LineId) (attr : BitVec 16) (nc : Bool)
  | scratch (team base : Nat)
  | opbuf (base : Nat)
  | peer (m off : Nat)
  deriving DecidableEq, Repr

/-- A lane's access that may be made. -/
structure Part where
  tgt : Tgt
  op : LineOp
  lane : Nat
  late : List LateSrc
  deriving DecidableEq, Repr

/-- The target of a place and the byte within its 128. -/
def tgtOf (team : Nat) (l : Loc) : Option (Tgt × Nat) :=
  match l with
  | .line l off a nc => some (.line l a nc, off)
  | .scratch off => some (.scratch team (off / 128 * 128), off % 128)
  | .opbuf off => some (.opbuf (off / 128 * 128), off % 128)
  | .peer m off => some (.peer m off, off % 128)
  | _ => none

/-- The accesses of the lanes that passed; `late`: what of a lane's data may be read late (R97). -/
def partsOf (w : Warp) (as : List (Nat × Nat × Loc)) (mk : Nat → Nat → LineOp) (late : Nat → Nat → List LateSrc) : List Part :=
  as.filterMap fun (l, _, loc) => (tgtOf (w.lane l).team loc).map fun (t, off) => ⟨t, mk l off, l, late l off⟩

/-- How the lines of an instruction are served. -/
structure Mode where
  kind : BitVec 16 → Bool → ReqKind
  hit : L1Line → LineId → BitVec 16 → Bool → Bool
  rc : Nat
  sys : Bool
  deps : List Nat

/-- What has come of an instruction's accesses at issue. -/
structure Made where
  s : State
  rs : List LaneRes
  ids : List Nat
  bad : List Bad

/-- A core's request on the line is outstanding: accesses to the line follow it. (DESIGN CHOICE, log 55) -/
def State.lineBusy (s : State) (core : Nat) (l : LineId) : Bool := s.mem.queue.any fun r => r.core == core && r.line == l

/-- R168, R169: accesses to the two windows are made at once. (DESIGN CHOICE, log 57) -/
def Made.windows (m : Made) (x : Wx) (ps : List Part) : Made :=
  ((ps.map Part.tgt).eraseDups).foldl (fun m t =>
    let ops := opsOn ((ps.filter fun p => p.tgt == t).map Part.op)
    match t with
    | .scratch team base =>
      let (s, rs) := m.s.scratchOps team base ops
      { m with s := s.count x.core 8 (ps.filter fun p => p.tgt == t).length, rs := m.rs ++ rs }
    | .opbuf base =>
      let (s, rs) := m.s.opbufOps x.core base ops
      { m with s := s, rs := m.rs ++ rs }
    | _ => m) m

/-- Accesses to lines: in the L1 copy where it serves them, else as requests (R217). -/
def Made.lines (m : Made) (x : Wx) (o : Mode) (ps : List Part) : Made :=
  let s0 := m.s
  let its : List Item := ps.filterMap fun p => match p.tgt with
    | .line l a nc => some ⟨l, a, nc, p.op, p.late, [p.lane]⟩
    | _ => none
  let hit := fun (i : Item) => !s0.lineBusy x.core i.line &&
    (match s0.l1 x.core i.line with
    | some c => o.hit c i.line i.attr i.nc
    | none => false)
  let (near, far) := its.partition hit
  let m := (linesOf near).foldl (fun m l =>
    match m.s.l1 x.core l with
    | none => m
    | some c =>
      let ops := opsOn ((near.filter fun i => i.line == l).map Item.op)
      let (d, p, rs) := runOps ops c.data c.poison
      let mask := opsMask ops
      let st := m.s.mem.stamp
      let s := (m.s.count x.core 5 1).modL1 x.core l fun c => { c with
        data := d, poison := p, dirty := c.dirty ||| mask, used := st, st := if mask = 0 then c.st else .modified }
      { m with s := s.modMem fun q => { q with stamp := st + 1 }, rs := m.rs ++ rs }) m
  let s := m.s.count x.core 6 (linesOf far).length
  let (s, ids) := s.addReqs x far (fun i => o.kind i.attr i.nc) o.rc o.sys o.deps
  { m with s := s, ids := m.ids ++ ids }

/-- R201: earlier accesses of the warp to the same line of a peer. -/
def State.peerDeps (s : State) (x : Wx) (port : Option Nat) : List Nat :=
  (s.link.out.filter fun p => p.warp == x.w.uid && some p.port == port).map PeerReq.req

/-- R380: accesses to peers, a flit for each lane. -/
def Made.peers (m : Made) (x : Wx) (deps : List Nat) (edit : Flit → Flit) (ps : List Part) : Made :=
  ps.foldl (fun m p =>
    match p.tgt with
    | .peer md off =>
      let (s, id) := m.s.addPeer x md off p.lane p.op (deps ++ m.s.peerDeps x (m.s.portOf (off / 128))) edit
      (match id with
      | some i => { m with s := s, ids := m.ids ++ [i] }
      | none => { m with s := s, bad := m.bad ++ [⟨p.lane, .machineCheck, 0⟩] })
    | _ => m) m

/-- R168, R169: the access goes to one of the windows. -/
def Part.inWindow (p : Part) : Bool :=
  match p.tgt with
  | .scratch .. | .opbuf _ => true
  | _ => false

/-- R197, R203: a releasing instruction with an access to a window, which is made at issue, waits as a whole until the warp's earlier
accesses are performed. (DESIGN CHOICE, log 52) -/
def Wx.early (x : Wx) (o : Order) (ps : List Part) : Bool :=
  Order.releases o && !x.w.outstanding.isEmpty && ps.any Part.inWindow

/-- All accesses of an instruction. -/
def State.perform (s : State) (x : Wx) (o : Mode) (ps : List Part) : Made :=
  ((((Made.mk s [] [] []).windows x ps).lines x o ps).peers x o.deps id ps)

/-- R203, R208: what keeps an access from being made now; `near`: its scope is that of the scratchpad (R195). (DEDUCED, log 20) -/
def State.gate (s : State) (x : Wx) (i : Instr) (o : Order) (near : Bool) : Option Eff :=
  if x.w.acquiring then some (.hold s)
  else if o == .sc && !x.run.fenced then some (.hold (s.holdHere x i (if near then 1 else 0)))
  else none

/-- R182: the lanes with their addresses and places. -/
def State.places (s : State) (x : Wx) (ea : Nat → Nat) (size : Nat) (write : Bool) : List (Nat × Nat × Loc) :=
  x.thr.map fun l => (l, ea l, s.laneLoc x l (ea l) size write)

/-- R222: an acquire with nothing outstanding is done as it issues. (DEDUCED, log 53) -/
def State.acquireNow (s : State) (core : Nat) (sc : Scope) : State :=
  if sc == .warp || sc == .team then s else s.dropSelf core

/-- The end of an access: the word is executed, its requests outstanding; a store with `.SC` holds what follows it (R203). -/
def Made.finish (m : Made) (x : Wx) (k : PendKind) (sc : Scope) (o : Order) (ws : List RegWrite) (bad : List Bad) : Eff :=
  let acq := if Order.acquires o && (k != .store || o == .sc) then some sc else none
  let s := if m.ids.isEmpty && acq.isSome then m.s.acquireNow x.core sc else m.s
  let s := if k == .rmw then s.rvals x.w x.run.pc m.rs else s
  .done s (resWrites x.w m.rs ++ ws) (some (pendOf k m.ids (if m.ids.isEmpty then none else acq)))
    (bad ++ resBads m.rs ++ m.bad)

/-! ### LD (R183) -/

def loadKind (a : BitVec 16) (nc : Bool) : ReqKind :=
  if attrLvl a = 0 ∧ attrCls a ≠ .unc ∧ !nc then .fill else .atHome

/-- A load hits the L1 line of its own class (DESIGN CHOICE, log 55). -/
def loadHit (c : L1Line) (_ : LineId) (a : BitVec 16) (nc : Bool) : Bool :=
  loadKind a nc == .fill && c.cls == attrCls a

/-- The V register of a destination; a discard takes VZ. -/
def dstV (d : Dst) : Nat :=
  match d with
  | .v n => n.toNat
  | _ => 255

def ldBody (i : Instr) (o : LdOp) (x : Wx) (s : State) : Eff :=
  let ea := fun l => x.ea l o.addr o.off
  match s.gate x i o.ord (x.near ea) with
  | some e => e
  | none =>
    let as := s.places x ea o.ty.bytes false
    match s.ask x (as.map fun a => a.2.2) with
    | some s => .hold s
    | none =>
      let bad := badsOf as
      let ok := okOf as
      let s := (s.translated x as).watched x true false ok o.ty.bytes
      let m := s.perform x ⟨loadKind, loadHit, o.rc.toNat, false, []⟩
        (partsOf x.w ok (fun l off => .read l off o.ty.bytes (dstV o.dst) o.ty) fun _ _ => [])
      m.finish x .load (x.scope ea o.sc) o.ord [] bad

/-- LD (R183). -/
def execLd (c : Ctl) (o : LdOp) (s : State) : Host.Outcome State Fault Refusal := runWord (infoLd c o) (ldBody (.ld c o) o) s

/-! ### ST (R184) -/

def storeKind (rc : Nat) (a : BitVec 16) (nc : Bool) : ReqKind :=
  if attrLvl a = 0 ∧ attrCls a = .dir ∧ !nc ∧ rc = 0 then .own else .atHome

/-- R220: a store is made in an exclusive or modified copy; a host line's store asks for its half first (R226).
(DESIGN CHOICE, log 55) -/
def storeHit (rc : Nat) (follows : Bool) (c : L1Line) (l : LineId) (a : BitVec 16) (nc : Bool) : Bool :=
  storeKind rc a nc == .own && !attrWt a && !follows && c.cls == .dir && c.st != .shared && !l.isHost

/-- The bytes a lane stores. -/
def Wx.bytes (x : Wx) (l : Nat) (a : Src) (t : Ty) : List Byte := leBytes t.bytes (x.w.src l a t).toNat

def stBody (i : Instr) (o : StOp) (x : Wx) (s : State) : Eff :=
  let ea := fun l => x.ea l o.addr o.off
  match s.gate x i o.ord (x.near ea) with
  | some e => e
  | none =>
    let as := s.places x ea o.ty.bytes true
    match s.ask x (as.map fun a => a.2.2) with
    | some s => .hold s
    | none =>
      let bad := badsOf as
      let ok := okOf as
      let ps := partsOf x.w ok (fun l off => .write off (x.bytes l o.data o.ty)) fun l off => lateOf o.data l off o.ty.bytes
      if x.early o.ord ps then .hold s
      else
        let s := (s.translated x as).watched x false true ok o.ty.bytes
        let deps := x.deps o.ord
        let rc := o.rc.toNat
        let m := s.perform x ⟨storeKind rc, storeHit rc (!deps.isEmpty), rc, false, deps⟩ ps
        m.finish x .store (x.scope ea o.sc) o.ord [] bad

/-- ST (R184). -/
def execSt (c : Ctl) (o : StOp) (s : State) : Host.Outcome State Fault Refusal := runWord (infoSt c o) (stBody (.st c o) o) s

/-! ### ST.CB (R185) -/

/-- R185: the count barrier of a store: its line and byte, or the peer that holds it, or the fault. -/
def State.cbPlace (s : State) (x : Wx) (a : Nat) : Loc :=
  if a % 128 ≠ 0 then .fault .align
  else
    match s.laneLoc x x.low a 8 true with
    | .line (.dev l) off at_ nc => if attrCoh at_ = 2 ∨ attrLvl at_ = 2 then .line (.dev l) off at_ nc else .fault .permission
    | .line .. | .scratch _ | .opbuf _ => .fault .permission
    | r => r

/-- R383: the flit of a store becomes one that counts as well. -/
def countingFlit (cb : Nat) (f : Flit) : Flit := { f with kind := 4, h2 := BitVec.ofNat 64 cb }

/-- The accesses whose data lies at a peer, and the others. -/
def Part.atPeer (p : Part) (m : Nat) : Bool :=
  match p.tgt with
  | .peer k _ => k == m
  | _ => false

/-- R185: the answer to a check of a count barrier, as it is noted in the warp that asked. -/
def cbNote (cb code : Nat) : Nat := 2 ^ 100 + cb * 2 ^ 8 + code

/-- R185: what the peer that holds the count barrier answers: none, it is asked (again where no answer has come); else the code of its
fault, or 0. -/
def State.cbAnswer (s : State) (x : Wx) (cb md off : Nat) : Except State Nat :=
  match x.w.walked.find? fun n => n.1 / 2 ^ 8 == cbNote cb 0 / 2 ^ 8 with
  | some n => .ok (n.1 % 2 ^ 8)
  | none =>
    if s.link.out.any fun p => p.warp == x.w.uid && p.op == .cbInc 0 [] then .error s
    else
      match s.addPeer x md off x.low (.cbInc 0 []) [] id with
      | (s, some _) => .error s
      | (_, none) => .ok Code.machineCheck.num

/-- R185: the stores and the counts, once every check has passed: `cb` is the barrier's place. -/
def State.stCbMake (s : State) (x : Wx) (cb : Loc) (ps : List Part) (lanes : List Nat) : Made :=
  let deps := x.deps .rel
  let mode : Mode := ⟨storeKind 0, storeHit 0 (!deps.isEmpty), 0, false, deps⟩
  match cb with
  | .line l off a nc =>
    let m := s.perform x mode ps
    let lanes := lanes.filter fun l => !m.bad.any fun b => b.lane == l
    if lanes.isEmpty then m
    else
      let (s, ids) := m.s.addReqs x [⟨l, a, nc, .cbInc off lanes, [], lanes⟩] (fun _ => .atHome) 0 false (deps ++ m.ids)
      { m with s := s, ids := m.ids ++ ids }
  | .peer md off =>
    let (same, other) := ps.partition fun p => p.atPeer md
    let m := (s.perform x mode other).peers x deps (countingFlit off) same
    let there := other.filter fun p => !m.bad.any fun b => b.lane == p.lane
    m.peers x (deps ++ m.ids) id (there.map fun p => ⟨.peer md off, .cbInc (off % 128) [p.lane], p.lane, []⟩)
  | _ => ⟨s, [], [], []⟩

def stCbBody (o : StCbOp) (x : Wx) (s : State) : Eff :=
  if x.w.acquiring then .hold s
  else
    let sc := (x.w.src 0 o.cb .b64).toNat
    let cb := s.cbPlace x sc
    let ea := fun l => x.ea l o.addr 0
    let as := s.places x ea o.ty.bytes true
    match s.ask x [cb] with
    | some s => .hold s
    | none =>
      match cb with
      | .fault c => .fault c sc true
      | _ =>
        match s.ask x (as.map fun a => a.2.2) with
        | some s => .hold s
        | none =>
          match (match cb with
            | .peer md off => s.cbAnswer x sc md off
            | _ => .ok 0) with
          | .error s => .hold s
          | .ok (n + 1) => .fault ((codeOf (n + 1)).getD .machineCheck) sc true
          | .ok 0 =>
            let ok := okOf as
            let ps := partsOf x.w ok (fun l off => .write off (x.bytes l o.data o.ty)) fun l off => lateOf o.data l off o.ty.bytes
            if x.early .rel ps then .hold s
            else
              let s := (s.translated x as).watched x false true ok o.ty.bytes
              (s.stCbMake x cb ps (ok.map fun a => a.1)).finish x .store (x.scope ea o.sc) .rel [] (badsOf as)

/-- ST.CB (R185). -/
def execStCb (c : Ctl) (o : StCbOp) (s : State) : Host.Outcome State Fault Refusal := runWord (infoStCb c o) (stCbBody o) s

/-! ### PRF (R186) -/

/-- R186: a prefetch goes to the L1 too. -/
def prfNear (sc : Scope) (a : BitVec 16) : Bool :=
  (sc == .warp || sc == .team) && attrLvl a == 0 && attrCls a != .unc

/-- R186: the lines that the lanes ask for; a place that faults, or that no cache may hold, asks for nothing, and a line that the L1 holds
already is not asked for again. -/
def State.prfItems (s : State) (x : Wx) (sc : Scope) (as : List (Nat × Nat × Loc)) : List Item :=
  as.filterMap fun (l, _, loc) => match loc with
    | .line ln _ a nc =>
      if nc ∨ attrLvl a = 2 ∨ (prfNear sc a && (s.l1 x.core ln).isSome) then none
      else some ⟨ln, a, nc, .read l 0 0 255 .n8, [], [l]⟩
    | _ => none

/-- R186: TYPE is ignored; a translation that is missing is waited for (R176). (DESIGN CHOICE, log 58) -/
def prfBody (o : PrfOp) (x : Wx) (s : State) : Eff :=
  let as := s.places x (fun l => x.ea l o.addr o.off) 1 false
  match s.ask x (as.map fun a => a.2.2) with
  | some s => .hold s
  | none =>
    let its := s.prfItems x o.sc as
    .done ((s.translated x as).addReqs x its (fun i => .prefetch (prfNear o.sc i.attr)) o.rc.toNat false []).1 [] none []

/-- PRF (R186). -/
def execPrf (c : Ctl) (o : PrfOp) (s : State) : Host.Outcome State Fault Refusal := runWord (infoPrf c o) (prfBody o) s

/-! ### Cache maintenance (R187) -/

/-- R187: the length in bytes, a literal read as unsigned. -/
def Wx.len (x : Wx) (l : Nat) (a : Src) : Nat :=
  match a with
  | .lit v => v.toNat
  | a => (x.w.src32 l a .n32).toNat

/-- R187: one line of a range from `va` on: where it lies, or its first fault with the address. -/
def State.maintLine (s : State) (x : Wx) (va stop : Nat) (write : Bool) : Loc × Nat :=
  let n := min stop (va / 128 * 128 + 128) - va
  let gap := match regionOf va with
    | .dev => (List.range n).find? fun i => (s.storageAt x.g.ctx (va + i)).isNone
    | _ => none
  match gap with
  | some 0 => (.fault .notable, va)
  | some i => (match s.engPlace (x.core / 64) x.g.ctx va write with
    | .fault c => (.fault c, va)
    | .ats p q => (.ats p q, va)
    | _ => (.fault .notable, va + i))
  | none => (s.engPlace (x.core / 64) x.g.ctx va write, va)

/-- R187: the lines of [va, stop), up to the first that faults. (DESIGN CHOICE, log 58) -/
def State.maintRange (s : State) (x : Wx) (write : Bool) (stop : Nat) : Nat → Nat → List (Loc × Nat)
  | 0, _ => []
  | fuel + 1, va =>
    if va ≥ stop then []
    else
      let r := s.maintLine x va stop write
      match r.1 with
      | .fault _ => [r]
      | _ => r :: State.maintRange s x write stop fuel (va / 128 * 128 + 128)

def maintBody (kind : Bool → Bool → ReqKind) (write : Bool) (o : MaintOp) (x : Wx) (s : State) : Eff :=
  if x.w.acquiring then .hold s
  else
    let ranges := x.thr.map fun l =>
      let va := x.ea l o.addr 0
      let n := x.len l o.len
      (l, s.maintRange x write (va + n) (n / 128 + 2) va)
    match s.ask x (ranges.flatMap fun r => r.2.map Prod.fst) with
    | some s => .hold s
    | none =>
      let bad := ranges.flatMap fun (l, ps) => ps.filterMap fun (loc, va) => match loc with
        | .fault c => some (Bad.mk l c va)
        | _ => none
      let good := ranges.filter fun (l, _) => !bad.any fun b => b.lane == l
      let its : List Item := good.flatMap fun (l, ps) => ps.filterMap fun (loc, _) => match loc with
        | .line ln _ a nc => if attrLvl a = 2 then none else some ⟨ln, a, nc, .read l 0 0 255 .n8, [], [l]⟩
        | _ => none
      let dev := o.sc == .dev || o.sc == .sys
      let s := s.dropFailed x bad
      let (s, ids) := s.addReqs x its (fun _ => kind dev (o.sc == .sys)) 0 false []
      .done s [] (some (pendOf .maint ids none)) bad

/-- CLEAN (R187). -/
def execClean (c : Ctl) (o : MaintOp) (s : State) : Host.Outcome State Fault Refusal :=
  runWord (infoMaint c o) (maintBody .clean false o) s

/-- INVAL (R187). -/
def execInval (c : Ctl) (o : MaintOp) (s : State) : Host.Outcome State Fault Refusal :=
  runWord (infoMaint c o) (maintBody .inval true o) s

/-- CLINV (R187). -/
def execClinv (c : Ctl) (o : MaintOp) (s : State) : Host.Outcome State Fault Refusal :=
  runWord (infoMaint c o) (maintBody .clinv false o) s

/-- DROP (R187). -/
def execDrop (c : Ctl) (o : MaintOp) (s : State) : Host.Outcome State Fault Refusal :=
  runWord (infoMaint c o) (maintBody .drop true o) s

/-! ### ATOM, RED and CAS (R188 to R191) -/

/-- R191: the access is carried as a PCIe AtomicOp. -/
def viaAtomicOp (sc : Scope) (l : Loc) : Bool :=
  match l with
  | .line (.host _) _ _ nc => nc || sc == .sys
  | _ => false

/-- R191: what an AtomicOp carries. -/
def carried (op : AtomOp) (t : Ty) : Bool :=
  (op == .add && t != .f32) || (op == .exch && t != .f32)

def atomBody (i : Instr) (op : AtomOp) (t : Ty) (sc : Scope) (ord : Order) (reg : Option Nat) (addr b : Src) (x : Wx)
    (s : State) : Eff :=
  let ea := fun l => x.ea l addr 0
  match s.gate x i ord (x.near ea) with
  | some e => e
  | none =>
    let as := (s.places x ea t.bytes true).map fun (l, va, loc) =>
      (l, va, if viaAtomicOp sc loc && !carried op t then Loc.fault .sysatomUnsup else loc)
    match s.ask x (as.map fun a => a.2.2) with
    | some s => .hold s
    | none =>
      let bad := badsOf as
      let ok := okOf as
      let ps := partsOf x.w ok (fun l off => .atom l off op t (x.w.src l b t) reg) fun l _ => lateOf b l 0 t.bytes
      if x.early ord ps then .hold s
      else
        let s := (s.translated x as).watched x false true ok t.bytes
        let m := s.perform x ⟨fun _ _ => .atHome, fun _ _ _ _ => false, 0, sc == .sys, x.deps ord⟩ ps
        m.finish x .rmw (x.scope ea sc) ord [] bad

/-- ATOM (R189). -/
def execAtom (c : Ctl) (o : AtomO) (s : State) : Host.Outcome State Fault Refusal :=
  runWord (infoAtom c o) (atomBody (.atom c o) o.op o.ty o.sc o.ord (some (dstV o.dst)) o.addr o.b) s

/-- RED (R189). -/
def execRed (c : Ctl) (o : RedO) (s : State) : Host.Outcome State Fault Refusal :=
  runWord (infoRed c o) (atomBody (.red c o) o.op o.ty o.sc o.ord none o.addr o.b) s

/-- R190: bytes of a CAS operand. -/
def CasTy.size : CasTy → Nat
  | .n32 => 4
  | .n64 => 8
  | .b64pair => 16

/-- R190: the compare or new value of a lane. -/
def Wx.casBytes (x : Wx) (l : Nat) (a : Src) (t : CasTy) : List Byte :=
  match t with
  | .n32 => leBytes 4 (x.w.src l a .n32).toNat
  | .n64 => leBytes 8 (x.w.src l a .n64).toNat
  | .b64pair =>
    match a with
    | .v n _ => leBytes 16 (x.w.group l n.toNat 4)
    | _ => leBytes 16 0

/-- R190: the status predicate of the lanes whose access is made. -/
def casOk (o : CasOp) (lanes : List Nat) : List RegWrite :=
  if o.ps = 7 then [] else lanes.map fun l => ⟨.p o.ps.toNat, l, 1⟩

def casBody (i : Instr) (o : CasOp) (x : Wx) (s : State) : Eff :=
  let ea := fun l => x.ea l o.addr 0
  match s.gate x i o.ord (x.near ea) with
  | some e => e
  | none =>
    let size := CasTy.size o.ct
    let as := s.places x ea size true
    match s.ask x (as.map fun a => a.2.2) with
    | some s => .hold s
    | none =>
      let bad := badsOf as
      let ok := okOf as
      let ps := partsOf x.w ok (fun l off => .cas l off size (x.casBytes l o.cv o.ct) (x.casBytes l o.nv o.ct) o.dst.toNat)
        fun l _ => lateOf o.cv l 0 size ++ lateOf o.nv l size size
      if x.early o.ord ps then .hold s
      else
        let s := (s.translated x as).watched x false true ok size
        let m := s.perform x ⟨fun _ _ => .atHome, fun _ _ _ _ => false, 0, o.sc == .sys, x.deps o.ord⟩ ps
        let met := (resBads m.rs).map Bad.lane
        m.finish x .rmw (x.scope ea o.sc) o.ord (x.w.withHelpers (casOk o ((ok.map fun a => a.1).filter fun l => !met.contains l))) bad

/-- CAS (R190). -/
def execCas (c : Ctl) (o : CasOp) (s : State) : Host.Outcome State Fault Refusal :=
  runWord (infoCas c o) (casBody (.cas c o) o) s

end Sys2Proof.Machine
end

