-- ==== Sys2Proof/Machine/Home.lean ====
section
/-! DEFINITION. The steps of the memory system: home requests (R224), the host's side of host lines (R191, R226 to R231),
write-back (R96), walks (R176), the second stage (R377), ageing (R260) and the patrol scrub (R404). -/

namespace Sys2Proof.Machine

/-! ### Host halves at the bridge (R226) -/

def HalfSt.level : HalfSt → Nat
  | .invalid => 0
  | .shared => 1
  | .exclusive | .modified => 2

def State.bridgeOf (s : State) (n : Nat) : Option BridgeLine := s.mem.bridge.find? fun b => b.line == n

def BridgeLine.half (b : BridgeLine) (h : Bool) : HalfSt := if h then b.h1 else b.h0

/-- What the bridge holds of a half: 0 nothing, 1 shared, 2 exclusive or modified. -/
def State.halfLevel (s : State) (n : Nat) (h : Bool) : Nat :=
  match s.bridgeOf n with
  | some b => (b.half h).level
  | none => 0

/-- Whether operations touch a half. -/
def touchesHalf (ops : List LineOp) (h : Bool) : Bool :=
  ops.any fun o =>
    let (off, n) := o.range
    if h then decide (off + n > 64) else decide (off < 64)

/-- R226: what a request needs of a half. (DEDUCED, log 59) -/
def HomeReq.need (r : HomeReq) (cellable h : Bool) : Nat :=
  match r.kind with
  | .fill => 1
  | .prefetch _ => 1
  | .refetch => 2
  | .own => if touchesHalf r.ops h then 2 else 1
  | .atHome =>
    if r.ops.any LineOp.writes then (if touchesHalf r.ops h then 2 else 0)
    else if cellable then 1 else if touchesHalf r.ops h then 1 else 0
  | _ => 0

/-- A host operation starts for a request. -/
def State.hostOp (s : State) (req lane ctx : Nat) (k : HostOpKind) (msg : Nat → Msg) : State :=
  let id := s.mem.nextId
  (s.modMem fun m => { m with nextId := id + 1, hostOps := m.hostOps ++ [⟨id, k, req, lane, ctx, none, 0⟩] }).send (msg id)

def State.setWait (s : State) (req : Nat) (w : Option Nat) : State :=
  s.modMem fun m => { m with queue := m.queue.map fun (q : HomeReq) => if q.id == req then { q with wait := w } else q }

/-- R219: a non-coherent access of a host line whose copies were made by accesses of another class: they are written back to the host and
go. (DEDUCED, log 59) -/
def State.ncClass (s : State) (l : LineId) : State :=
  if s.otherClass l .unc then ((s.changeClass l .unc).cleanBridge l.num).dropBridge l.num else s

/-- R231: a non-coherent line's operations, one PCIe transaction each. (DEDUCED, log 59) -/
def State.startNc (s : State) (r : HomeReq) : State :=
  let base := 128 * r.line.num
  let s := r.ops.foldl (fun s o => match o with
    | .read lane off size _ _ => s.hostOp r.id lane r.ctx (.pcieRead (base + off) size) fun id => .hostRead id (base + off) size
    | .write off b => s.send (.hostWrite (base + off) b 0)
    | .atom lane off op t b _ => s.hostOp r.id lane r.ctx .atomicOp fun id => .atomicOp id (base + off) op (leBytes t.bytes b.toNat)
    | .cas lane off _ c n _ => s.hostOp r.id lane r.ctx .atomicOp fun id => .atomicCas id (base + off) c n
    | _ => s) s
  let s := if r.ops.any LineOp.isWrite then s.hostOp r.id 0 r.ctx .zeroRead Msg.zeroRead else s
  s.setWait r.id (some r.id)

/-- R191: the operations of a `.SYS` atomic on a coherent line, at the host's home agent. -/
def HomeReq.viaHost (r : HomeReq) : Bool := r.line.isHost && (r.nc || (r.sys && r.ops.any LineOp.isAtom))

/-- R229: the request needs the host's copy of a device line back. (DEDUCED, log 59) -/
def State.needsBack (s : State) (r : HomeReq) : Bool :=
  s.hostHeld r.line &&
  (match r.kind with
  | .own => true
  | .atHome => r.ops.any LineOp.writes
  | _ => false)

/-- R221: the request makes an entry of the directory. -/
def ReqKind.tracks : ReqKind → Bool
  | .fill | .own | .prefetch true | .memRead => true
  | _ => false

/-- R221, R229: the line whose host copy must come back before the request is served. -/
def State.backFirst (s : State) (r : HomeReq) : Option LineId :=
  if s.needsBack r then some r.line else if r.kind.tracks then s.hostVictim r.line else none

/-- R229: an agent that is no request asks for the host's copies of lines back; none: the host has none. (DEDUCED, log 59) -/
def State.askBack (s : State) (key ctx : Nat) (ls : List LineId) : Option State :=
  let mine := (ls.filter s.hostHeld).eraseDups
  if mine.isEmpty then none
  else some (mine.foldl (fun s l =>
    if s.mem.hostOps.any fun o => o.req == key && o.kind == .backInval l.num then s
    else s.hostOp key 0 ctx (.backInval l.num) fun _ => .backInval l.num) s)

/-- R224: the request can be served now: its line is not busy, and no request to the line stands before it. A request refused twice
passes fresh ones of other cores. -/
def HomeReq.free (r : HomeReq) (pool : List HomeReq) : Bool :=
  r.wait.isNone && !(pool.any fun q => q.line == r.line && q.wait.isSome) &&
  !((pool.takeWhile fun q => q.id != r.id).any fun q => q.line == r.line &&
    (q.core == r.core || !(r.refused == 2 && q.refused != 2)))

/-- R224: the request a slice serves next: the first to have arrived among those it can serve, those refused twice before the
others. (DESIGN CHOICE, log 54) -/
def State.homeNext (s : State) (slice : Nat) : Option HomeReq :=
  let pool := s.mem.queue.filter fun r => r.inPool && r.line.home == slice
  let able := pool.filter fun r => r.free pool
  (able.find? fun r => r.refused == 2) <|> able.head?

/-- R378: the flit that answers one of a peer's. -/
def answerFlit (f : Flit) (own : BitVec 6) (kind status : Nat) (payload : List Byte) : Flit :=
  { f with kind := BitVec.ofNat 8 kind, src := own, dst := f.src, op := 0, typ := 0, h2 := 0, status := BitVec.ofNat 8 status, poison := 0, payload := payload }

/-- R378, R380: the kind of the answer to a flit. (DEDUCED, log 66) -/
def answerKind (f : Flit) : Nat := if f.kind = 1 then 2 else if f.kind = 5 then 6 else 7

/-- R379, R405: what a request made for a peer returned: the status, which is MACHINE_CHECK where an operation met poison, the bytes, and
the poisoned sectors of a line that was read. -/
def peerResult (f : Flit) (rs : List LaneRes) : Nat × List Byte × BitVec 4 :=
  if rs.any LaneRes.bad then (Code.machineCheck.num, [], 0)
  else
    let d := rs.flatMap LaneRes.bytes
    if f.kind = 1 then (0, d.take 128, BitVec.ofNat 4 (leNat (d.drop 128))) else (0, d, 0)

/-- R380: a peer's access has been performed: its answer leaves. -/
def State.answerPeer (s : State) (r : HomeReq) (rs : List LaneRes) : State :=
  match s.link.inb.find? fun e => e.1 == r.id with
  | none => s
  | some (_, f) =>
    let (st, d, p) := peerResult f rs
    { s with link := { s.link with inb := s.link.inb.filter fun e => e.1 != r.id } }.sendFlit
      { answerFlit f (BitVec.ofNat 6 s.link.own) (answerKind f) st d with poison := p }

/-- The request is performed and leaves the pool. -/
def State.retireReq (s : State) (r : HomeReq) (rs : List LaneRes) : State :=
  (((s.modMem fun m => { m with queue := m.queue.filter fun q => q.id != r.id }).finishReq r.core r.warp r.pend r.id rs).answerPeer r rs).traceDone
    r.id

/-- R187, R226: cache maintenance has discarded the bridge's data of a host line of which other cores hold copies: its halves stay held, and
are read again. -/
def State.bereft (s : State) (r : HomeReq) : Bool :=
  (match r.kind with
  | .inval _ y | .drop _ y => y
  | _ => false) && s.heldElsewhere r.core r.line

/-- R97: the bytes of a source register of a request. -/
def LateSrc.bytes (e : LateSrc) (v : DWord) : List Byte := slice (leBytes 8 v.toNat) (4 * e.half) e.n

/-- R97: an operation with a source replaced by `b`. -/
def LineOp.withSrc (op : LineOp) (e : LateSrc) (b : List Byte) : LineOp :=
  match op with
  | .write off d => if off ≤ e.pos ∧ e.pos + e.n ≤ off + d.length then .write off (patch d (e.pos - off) b) else op
  | .atom l off o t x r => if l = e.lane then .atom l off o t (BitVec.ofNat 64 (leNat (patch (leBytes 8 x.toNat) e.pos b))) r else op
  | .cas l off size c n r =>
    if l = e.lane then
      let d := patch (c ++ n) e.pos b
      .cas l off size (d.take size) (d.drop size) r
    else op
  | .tadd l off q v => .tadd l off q (if l = e.lane then BitVec.ofNat 32 (leNat b) else v)
  | op => op

/-- R97: the sources of a request that have been overwritten before it read them: the old word or the new one. (DESIGN CHOICE, log 16) -/
def State.lateSrcs (s : State) (r : HomeReq) : List (LateSrc × List Byte) :=
  match (s.warpU r.warp).bind fun w => (w.pend.find? fun p => p.id == r.pend).map fun p => (w, p) with
  | none => []
  | some (w, p) =>
    (r.late.filter fun e => (p.torn.any fun d => samePlace d.1 d.2 e.key e.lane) &&
      Config.freeBool (placeNum s.fresh e.lane e.key e.half)).map fun e => (e, e.bytes (w.get e.lane e.key))

/-- R97: the request as it is performed, its sources read. -/
def State.readLate (s : State) (r : HomeReq) : HomeReq :=
  { r with ops := (s.lateSrcs r).foldl (fun ops e => ops.map fun o => o.withSrc e.1 e.2) r.ops }

/-- R224: one request. Where the host must answer first, the line stays busy until it has. (DESIGN CHOICE, log 54) -/
def State.serveReq (s : State) (r : HomeReq) : State :=
  match s.backFirst r with
  | some l =>
    let id := s.mem.nextId
    (s.hostOp r.id 0 r.ctx (.backInval l.num) fun _ => .backInval l.num).setWait r.id (some id)
  | none =>
    match r.line with
    | .host n =>
      if r.viaHost then ((if r.nc then s.ncClass r.line else s).dropOwn r.core r.line).startNc r
      else
        let cellable := s.cellable r.line r.attr
        match [false, true].find? fun h => decide (s.halfLevel n h < r.need cellable h) with
        | some h =>
          let own := r.need cellable h == 2
          let id := s.mem.nextId
          (s.hostOp r.id 0 r.ctx (.cxlRead n h own) fun id => .cxlRead id n h own).setWait r.id (some id)
        | none =>
          let s := if r.ops.any LineOp.isAtom then (s.recall r.line none false).evictCell r.line else s
          let (s, rs) := s.serve r
          if s.bereft r then
            s.modMem fun m => { m with queue := m.queue.map fun (q : HomeReq) =>
              if q.id = r.id then { q with kind := .refetch, ops := [] } else q }
          else s.retireReq r rs
    | .dev _ =>
      let (s, rs) := s.serve r
      s.retireReq r rs

/-- R97, R224: the request reads the sources that it has yet to read, and is served. -/
def State.serveNext (s : State) (r : HomeReq) : State :=
  if r.late.isEmpty then s.serveReq r else { s with fresh := s.fresh + 1 }.serveReq (s.readLate r)

/-- HOME_REQUEST (R224). -/
def execHomeRequest (slice : Nat) (s : State) : Host.Outcome State Fault Refusal :=
  match s.homeNext slice with
  | none => .next s
  | some r => .next (s.serveNext r)

/-! ### Ageing (R260) and scrub (R404) -/

/-- FREQUENCY_AGEING (R260). -/
def execFrequencyAgeing (slice : Nat) (s : State) : Host.Outcome State Fault Refusal :=
  if s.mem.fills.getD slice 0 < 16384 then .next s
  else .next (s.modMem fun m => { m with
    fills := m.fills.modify slice fun n => n - 16384
    cellar := m.cellar.map fun (c : CellLine) =>
      if c.line.home == slice then { c with freq := c.freq.map fun f => f / 2 } else c })

/-- PATROL_SCRUB (R404): the line that is read and corrected holds the same bytes. -/
def execPatrolScrub (_line : Nat) (s : State) : Host.Outcome State Fault Refusal := .next s

/-! ### The host's side -/

/-- A half of a host line arrives at the bridge, with the poison of its sectors (R405). -/
def State.fillHalf (s : State) (n : Nat) (h own : Bool) (data : List Byte) (p : BitVec 4) : State :=
  let st : HalfSt := if own then .exclusive else .shared
  let d := (data ++ List.replicate 64 0).take 64
  match s.bridgeOf n with
  | none => s.modMem fun m => { m with bridge := m.bridge ++
      [if h then ⟨n, .invalid, st, List.replicate 64 0 ++ d, 0, p &&& 0xC#4⟩
       else ⟨n, st, .invalid, d ++ List.replicate 64 0, 0, p &&& 0x3#4⟩] }
  | some _ => s.modMem fun m => { m with bridge := m.bridge.map fun (b : BridgeLine) =>
      if b.line == n then
        (if h then { b with h1 := st, data := b.data.take 64 ++ d, dirty := b.dirty &&& 0x3#4,
                               poison := (b.poison &&& 0x3#4) ||| (p &&& 0xC#4) }
         else { b with h0 := st, data := d ++ b.data.drop 64, dirty := b.dirty &&& 0xC#4,
                       poison := (b.poison &&& 0xC#4) ||| (p &&& 0x3#4) })
      else b }

/-- What a lane's operation at the host or at a peer returns, `p` being the line's poisoned sectors (R405). -/
def hostRes (op : LineOp) (data : List Byte) (p : BitVec 4) : LaneRes :=
  match op with
  | .read lane off size reg t =>
    if p &&& touched off size ≠ 0 then ⟨lane, none, false, [], false, true⟩ else ⟨lane, some reg, t.signed, data, false, false⟩
  | .atom lane off _ t _ reg =>
    if p &&& touched off t.bytes ≠ 0 then ⟨lane, none, false, [], false, true⟩ else ⟨lane, reg, false, data, false, false⟩
  | .cas lane off size _ _ reg =>
    if p &&& touched off size ≠ 0 then ⟨lane, none, false, [], true, true⟩ else ⟨lane, some reg, false, data, true, false⟩
  | _ => ⟨0, none, false, [], false, false⟩

/-- R190: the status predicate that a warp's access writes. -/
def State.statusOf (s : State) (r : HomeReq) : Option RegKey :=
  ((s.warpU r.warp).bind fun w => w.pend.find? fun p => p.id == r.pend).bind fun p =>
    (p.dsts.find? fun d => match d.1 with
      | .p _ => true
      | _ => false).map Prod.fst

/-- R190, R191: lanes that the host refused: their status predicate is cleared, or they fault. -/
def State.refuseLanes (s : State) (r : HomeReq) (lanes : List Nat) : State :=
  if lanes.isEmpty then s
  else
    match s.warpU r.warp, s.statusOf r with
    | some w, some k =>
      let keep := fun (x : RegWrite) => !(x.key == k && lanes.contains x.lane)
      let no := w.withHelpers (lanes.map fun l => ⟨k, l, 0⟩)
      let edit := fun (q : Pend) => if q.id == r.pend then { q with writes := q.writes.filter keep ++ no } else q
      s.modWarpU r.warp fun w => { w with pend := w.pend.map edit }
    | some w, none =>
      (match w.pend.find? fun p => p.id == r.pend with
      | some p => s.raiseLanes r.warp p.pc (lanes.map fun l => ⟨l, .sysatomUnsup, 128 * r.line.num⟩)
      | none => s)
    | none, _ => s

/-- What a lane that the host refused brings back where its status predicate is written: nothing for a register, but it has been
executed (R190, R394). -/
def refusedRes (lane : Nat) : LaneRes := ⟨lane, none, false, [], true, false⟩

/-- Every host operation of a request has completed: its lanes receive what it returned. -/
def State.settleHost (s : State) (req : Nat) : State :=
  match s.mem.queue.find? fun r => r.id == req with
  | none => s
  | some r =>
    let mine := s.mem.hostOps.filter fun o => o.req == req
    if mine.any fun o => o.done.isNone then s
    else
      let s := s.modMem fun m => { m with hostOps := m.hostOps.filter fun o => o.req != req }
      let asked := r.ops.filter fun o => match o with
        | .read .. | .atom .. | .cas .. => true
        | _ => false
      let pairs := asked.zip (mine.filter fun o => match o.kind with
        | .zeroRead => false
        | _ => true)
      let refused := pairs.filterMap fun (op, o) => match o.done with
        | some none => some op.lane
        | _ => none
      let rs := pairs.filterMap fun (op, o) => match o.done with
        | some (some d) => some (hostRes op d o.poison)
        | _ => if (s.statusOf r).isSome then some (refusedRes op.lane) else none
      (s.refuseLanes r refused).retireReq r rs

/-- R227: the bridge loses a half, or keeps it shared: the line's copies are gathered into it, the half's dirty sectors go to the host, and
the other half stays, modified where it took dirty sectors. -/
def State.loseHalf (s : State) (line : Nat) (half : Bool) (st : HalfSt) : State :=
  match s.bridgeOf line with
  | none => s
  | some b =>
    if b.half half == .invalid then s
    else
      let s := s.gatherHost line
      let s := s.sendHalf ((s.bridgeOf line).getD b) half
      s.modMem fun m => { m with bridge := (m.bridge.map fun (x : BridgeLine) =>
        if x.line == line then (if half then { x with h1 := st, dirty := x.dirty &&& 0x3#4 }
          else { x with h0 := st, dirty := x.dirty &&& 0xC#4 }) else x).filter fun x =>
          !(x.h0 == .invalid && x.h1 == .invalid) }

/-- R227: as a half arrives, the bridge may evict a half of another line of which no request waits for the host: whether, and which, is free.
(DESIGN CHOICE, log 111) -/
def State.bridgeEvict (s : State) (n : Nat) : State :=
  let idle := s.mem.bridge.filter fun b => b.line != n && !s.mem.queue.any fun r => r.line == .host b.line && r.wait.isSome
  if idle.isEmpty then s
  else
    let f := 2 ^ 140 + s.fresh
    let s := { s with fresh := s.fresh + 1 }
    match idle[Config.freeNat f % (idle.length + 1)]? with
    | some b => s.loseHalf b.line (Config.freeBool f) .invalid
    | none => s

/-- A host operation completes. -/
def State.hostDone (s : State) (id : Nat) (res : Option (List Byte)) (p : BitVec 4) : State :=
  match s.mem.hostOps.find? fun o => o.id == id && o.done.isNone with
  | none => s
  | some o =>
    match o.kind with
    | .cxlRead n h own =>
      let s := (s.bridgeEvict n).fillHalf n h own (res.getD []) p
      (s.modMem fun m => { m with hostOps := m.hostOps.filter fun x => x.id != id }).setWait o.req none
    | _ =>
      let s := s.modMem fun m => { m with hostOps := m.hostOps.map fun (x : HostOp) =>
        if x.id == id then { x with done := some res, poison := p } else x }
      s.settleHost o.req

/-- HOST_READ_COMPLETION (R231, R405). (DESIGN CHOICE, log 14) -/
def execHostReadCompletion (id : Nat) (data : CxlData) (s : State) : Host.Outcome State Fault Refusal :=
  .next (s.hostDone id (some data.bytes) data.poison)

/-- ATOMICOP_COMPLETION (R191, R405); `old` none: Unsupported Request or Completer Abort. -/
def execAtomicopCompletion (id : Nat) (old : Option CxlData) (s : State) : Host.Outcome State Fault Refusal :=
  .next (s.hostDone id (old.map CxlData.bytes) (old.elim 0 CxlData.poison))

/-- HOST_SNOOP (R227, R228): the bridge loses a half, or keeps it shared. -/
def execHostSnoop (line : Nat) (half inval : Bool) (s : State) : Host.Outcome State Fault Refusal :=
  .next ((s.loseHalf line half (if inval then .invalid else .shared)).send (.snoopDone line half))

/-- R403: device memory may be read and written by the host: after an alarm, not before stage 5 has zeroed it. -/
def Boot.memOpen (b : Boot) : Bool :=
  match b.st with
  | .ready => true
  | .booting | .safe => decide (b.stage > 5)
  | .alarm => false

/-- HOST_STORE_CXL_MEM (R229): the host's bytes, with CXL poison (R405), go to the line's home, which writes them over the line; after an
alarm nothing is written (R403). (DEDUCED, log 59) -/
def execHostStoreCxlMem (pa : Nat) (bytes : CxlData) (s : State) : Host.Outcome State Fault Refusal :=
  let l : LineId := .dev (pa / 128)
  let off := pa % 128
  let b := bytes.bytes.take (128 - off)
  if !s.boot.memOpen then .next s
  else .next (s.addReq ⟨0, 0, 256, 0, 0, 256, l, 0, .memWrite, [.write off b, .taint (touched off b.length &&& bytes.poison)], 0, true, [],
    none, false, false, 0, [], []⟩).1

/-- HOST_READ_CXL_MEM (R229): the line is asked for at its home, whose directory will record the host's copy; not after an alarm
(R403). (DEDUCED, log 59) -/
def execHostReadCxlMem (line : Nat) (s : State) : Host.Outcome State Fault Refusal :=
  if !s.boot.memOpen then .next s
  else .next (s.addReq ⟨0, 0, 256, 0, 0, 256, .dev line, 0, .memRead, [], 0, true, [], none, false, false, 0, [], []⟩).1

/-- BACK_INVALIDATE_REPLY (R229): dirty host data reaches DRAM, with its poison (R405), and waiting requests go on. -/
def execBackInvalidateReply (line : Nat) (dirty : Option CxlData) (s : State) :
    Host.Outcome State Fault Refusal :=
  let l : LineId := .dev line
  let mine := s.mem.hostOps.filter fun o => o.kind == .backInval line
  if mine.isEmpty then .next s
  else
    let s := match dirty with
      | some d => (s.dropCell l).putBelow l 0xF#4 ((d.bytes ++ List.replicate 128 0).take 128) d.poison
      | none => s
    let s := s.modDir l fun (e : DirE) => { e with host := false }
    let s := s.modMem fun m => { m with hostOps := m.hostOps.filter fun o => o.kind != .backInval line }
    .next (mine.foldl (fun s o => s.setWait o.req none) s)

/-! ### Write-back (R96) -/

/-- WRITE_BACK (R96): a variable-latency result is written, and its token event finishes; a table instruction no longer holds the
version it resolved (R254, R257). -/
def execWriteBack (core slot id : Nat) (s : State) : Host.Outcome State Fault Refusal :=
  match s.warpAt core slot with
  | none => .next s
  | some w =>
    match w.pend.find? fun p => p.id == id && p.reqs.isEmpty && !p.wb && !p.idle with
    | none => .next s
    | some p => .next ((s.modWarp core slot fun w => w.writeBack id).release p.pins)

/-! ### Walks (R176) and the second stage (R377) -/

/-- TLB_WALK_COMPLETION (R176): the translation, or its fault, reaches every waiter. (DESIGN CHOICE, log 61) -/
def execTlbWalkCompletion (die ctx page : Nat) (s : State) : Host.Outcome State Fault Refusal :=
  match s.mem.walks.find? fun k => k.die == die && k.ctx == ctx && k.page == page with
  | none => .next s
  | some k =>
    let s := s.modMem fun m => { m with walks := m.walks.filter fun (w : Walk) => w != k }
    match s.walk ctx (page * 65536) with
    | some e => .next (((k.waiters.filterMap fun u => (s.warpU u).map Warp.core).eraseDups).foldl (fun s c => s.fillTlb c e) s)
    | none => .next { s with warps := s.warps.map fun (w : Warp) =>
        if k.waiters.contains w.uid then { w with walked := w.walked ++ [(page, true)] } else w }

/-- R377: room for a translation in a die's cache of 1,024: the oldest leaves a full one. (DESIGN CHOICE, log 61) -/
def s2Room (die : Nat) (l : List S2E) : List S2E :=
  if (l.filter fun e => e.die == die).length < 1024 then l
  else
    match l.findIdx? fun e => e.die == die with
    | some i => l.eraseIdx i
    | none => l

/-- ATS_TRANSLATION_COMPLETION (R377); `res` none: the second stage fails. -/
def execAtsTranslationCompletion (die pasid page : Nat) (res : Option Nat) (s : State) : Host.Outcome State Fault Refusal :=
  let here := fun (e : S2E) => e.die == die && e.pasid == pasid && e.page == page
  if !s.mem.ats.any here then .next s
  else .next (s.modMem fun m => { m with
    ats := m.ats.filter fun e => !here e
    s2 := s2Room die (m.s2.filter fun e => !here e) ++ [⟨die, pasid, page, res, false⟩] })

/-- R377: an access that may have used a translation of the PASID is outstanding, of a warp or of an engine. -/
def State.pasidBusy (s : State) (pasid : Nat) : Bool :=
  let uses := fun (ctx : Nat) => match s.ctx ctx with
    | some c => fld (wordAt c.c 6) 32 20 == pasid
    | none => false
  (s.mem.queue.any fun r => r.line.isHost && uses r.ctx) || s.mem.hostOps.any fun o => o.done.isNone && uses o.ctx

/-- ATS_INVALIDATE_REQUEST (R377): translations of the range go; it is completed once accesses that used one are
performed, until when it is recorded. -/
def execAtsInvalidateRequest (pasid page pages : Nat) (s : State) : Host.Outcome State Fault Refusal :=
  let s := s.modMem fun m => { m with
    s2 := m.s2.filter fun (e : S2E) => !(e.pasid == pasid && decide (page ≤ e.page ∧ e.page < page + pages))
    atsInv := m.atsInv.filter fun x => x != (pasid, page, pages) }
  if s.pasidBusy pasid then .next (s.modMem fun m => { m with atsInv := m.atsInv ++ [(pasid, page, pages)] })
  else .next (s.send (.atsDone pasid page))

end Sys2Proof.Machine
end

