-- ==== Sys2Proof/Machine/Fence.lean ====
section
/-! DEFINITION. FENCE and OPFENCE, and what ends their waits (R204 to R210). -/

namespace Sys2Proof.Machine

/-- R206: what a pending instruction still owes a fence: its value, or its performance. -/
def Pend.owes (p : Pend) (sc : Scope) (o : Order) : Bool :=
  !p.reqs.isEmpty &&
  (match p.kind with
  | .load | .rmw => true
  | .store | .tadd | .table => o != .acq
  | .maint => sc == .dev || sc == .sys
  | .queue | .press | .fixed | .barrier | .held => false)

/-- R206: the wait of a fence is over. -/
def Warp.fenceDone (w : Warp) (sc : Scope) (o : Order) : Bool := !w.pend.any fun p => p.owes sc o

/-- R196, R222: a fence that acquires at `.COH` or wider drops the core's self-invalidating copies. (DEDUCED, log 53) -/
def State.fenceAcquire (s : State) (core : Nat) (sc : Scope) (o : Order) : State :=
  if o == .rel then s else s.acquireNow core sc

def fenceBody (i : Instr) (o : FenceOp) (x : Wx) (s : State) : Eff :=
  if x.run.fenced || (o.ord != .sc && x.w.fenceDone o.sc o.ord) then
    .done (s.fenceAcquire x.core o.sc o.ord) [] (some (pendOver .maint)) []
  else .hold (s.holdHere x i 0)

/-- FENCE (R206). -/
def execFence (c : Ctl) (o : FenceOp) (s : State) : Host.Outcome State Fault Refusal :=
  runWord (infoFence c) (fenceBody (.fence c o) o) s

/-- The scope and order with which an instruction waits as a fence; an access waits as a FENCE.SC of its scope (R208).
(DEDUCED, log 20) -/
def fenceOf (i : Instr) : Option (Scope × Order) :=
  match i with
  | .fence _ o => some (o.sc, o.ord)
  | .ld _ o => some (o.sc, .sc)
  | .st _ o => some (o.sc, .sc)
  | .atom _ o => some (o.sc, .sc)
  | .red _ o => some (o.sc, .sc)
  | .cas _ o => some (o.sc, .sc)
  | _ => none

/-- What a warp's hold waits for as a fence; its count of 1 marks the scope of the scratchpad (R195). -/
def Hold.fence (h : Hold) : Option (Scope × Order) :=
  (fenceOf h.i).map fun (sc, o) => (if h.n = 1 then Scope.narrow sc else sc, o)

/-- The held word of a warp is executed again where it stands. (DEDUCED, log 26) -/
def State.redo (s : State) (core slot : Nat) (i : WordInfo) (body : Wx → State → Eff) : State :=
  match s.warpAt core slot with
  | none => s
  | some w =>
    match w.run with
    | none => s
    | some r => s.issue i body (fun _ _ t => t) w r (s.actives w i.ctl.g i.uniform r.lanes)

/-- A hold ends and the run goes on; `fenced`: the wait of R206 is over for the word it stands at. -/
def State.unhold (s : State) (core slot : Nat) (fenced : Bool) : State :=
  s.modWarp core slot fun w => { w with hold := none, run := w.run.map fun (r : Run) =>
    { r with blocked := false, fenced := fenced || r.fenced } }

/-- The fence's own word is executed, its wait over; an access with `.SC` acquires as a FENCE.SC does (R208), and is made when its run
goes on. (DEDUCED, log 20) -/
def State.fenceOver (s : State) (core slot : Nat) (h : Hold) : State :=
  let s := s.unhold core slot true
  match h.i with
  | .fence c o => s.redo core slot (infoFence c) (fenceBody h.i o)
  | _ =>
    match h.fence with
    | some (sc, o) => s.fenceAcquire core sc o
    | none => s

/-- FENCE_COMPLETION (R206): a fence of another order than `.SC`. -/
def execFenceCompletion (core slot : Nat) (s : State) : Host.Outcome State Fault Refusal :=
  match s.warpAt core slot with
  | none => .next s
  | some w =>
    match w.hold with
    | none => .next s
    | some h =>
      match h.fence with
      | some (sc, o) => if o != .sc && w.fenceDone sc o then .next (s.fenceOver core slot h) else .next s
      | none => .next s

/-- FENCE_SC_COMPLETION (R208): the heartbeat tick that follows the wait has come. -/
def execFenceScCompletion (core slot : Nat) (s : State) : Host.Outcome State Fault Refusal :=
  match s.warpAt core slot with
  | none => .next s
  | some w =>
    match w.hold with
    | none => .next s
    | some h =>
      match h.fence with
      | some (_, o) => if o == .sc && h.ready then .next (s.fenceOver core slot h) else .next s
      | none => .next s

/-- R208: at a heartbeat tick, the `.SC` waits that are over will complete. -/
def Warp.tickFence (w : Warp) : Warp :=
  { w with hold := w.hold.map fun (h : Hold) =>
      match h.fence with
      | some (sc, o) => if o == .sc && w.fenceDone sc o then { h with ready := true } else h
      | none => h }

/-! ### OPFENCE (R210) -/

/-- R210: every register write of the warp has taken place, and every store to the windows is performed. -/
def Warp.opDone (w : Warp) : Bool := w.pend.all fun p => p.wb || (p.dsts.isEmpty && !p.window)

/-- R68, R210: every fixed-latency result has been written; the checker counts on. -/
def Warp.settle (w : Warp) : Warp := { w with flight := w.flight.map fun (f : Flight) => { f with sure := true } }

def opfenceBody (i : Instr) (x : Wx) (s : State) : Eff :=
  if x.w.opDone then .done (s.modWarp x.core x.slot Warp.settle) [] (some (pendOver .maint)) []
  else .hold (s.holdHere x i 0)

/-- OPFENCE (R210). -/
def execOpfence (c : Ctl) (s : State) : Host.Outcome State Fault Refusal := runWord (infoFence c) (opfenceBody (.opfence c)) s

/-- OPFENCE_COMPLETION (R210). -/
def execOpfenceCompletion (core slot : Nat) (s : State) : Host.Outcome State Fault Refusal :=
  match s.warpAt core slot with
  | none => .next s
  | some w =>
    match w.hold with
    | none => .next s
    | some h =>
      match h.i with
      | .opfence c =>
        if w.opDone then .next ((s.unhold core slot false).redo core slot (infoFence c) (opfenceBody (.opfence c))) else .next s
      | _ => .next s

end Sys2Proof.Machine
end

