-- ==== Sys2Proof/Machine/Tables.lean ====
section
/-! DEFINITION. Keyed tables (R232 to R264): keys, rows and indexes, and the instructions of group 0x7. A table instruction
acts on its tables in one instant, at issue, its lanes in ascending order (R253); its quads are written back later. -/

namespace Sys2Proof.Machine

/-! ### Descriptors (R233) -/

def Version.kind (v : Version) : Nat := fld v.d0 0 4
def Version.kfmt (v : Version) : Nat := fld v.d0 4 4
def Version.roww (v : Version) : Nat := fld v.d0 16 8
def Version.number (v : Version) : Nat := fld v.d0 32 32
def Version.base (v : Version) : Nat := fld v.d1 0 57
def Version.len (v : Version) : Nat := fld v.d2 0 40
def Version.rowBytes (v : Version) : Nat := 16 * v.roww
def Version.rows (v : Version) : Nat := v.len / v.rowBytes

/-- R233: a word D0 with another version number. -/
def withVersion (d0 : DWord) (n : Nat) : DWord := BitVec.ofNat 64 (d0.toNat % 2 ^ 32 + n % 2 ^ 32 * 2 ^ 32)

/-- R254: version numbers wrap to 1. -/
def nextVersion (n : Nat) : Nat := if n + 1 ≥ 2 ^ 32 then 1 else n + 1

/-- R233: the current version under an id. (DESIGN CHOICE, log 51) -/
def State.current (s : State) (ctx id : Nat) : Option Version :=
  s.tabs.find? fun v => v.cur && v.ctx == ctx && v.id == id && v.kind != 0

def State.version (s : State) (uid : Nat) : Option Version := s.tabs.find? fun v => v.uid == uid
def State.modVersion (s : State) (uid : Nat) (f : Version → Version) : State :=
  { s with tabs := s.tabs.map fun v => if v.uid == uid then f v else v }

/-- R239: the table that an operand names. -/
def State.tableOf (s : State) (ctx : Nat) (id : DWord) : Option Version :=
  if id.toNat ≥ 2 ^ 20 then none else s.current ctx id.toNat

/-! ### Keys (R234) -/

def KeyFmt.code : KeyFmt → Nat
  | .ki32 => 0 | .kn32 => 1 | .ki64 => 2 | .kn64 => 3 | .kf32 => 4 | .kc128 => 5

def fmtOf (n : Nat) : KeyFmt :=
  match n with
  | 0 => .ki32
  | 1 => .kn32
  | 2 => .ki64
  | 3 => .kn64
  | 4 => .kf32
  | _ => .kc128

/-- R236: bytes of a key in its row. -/
def keyBytes (f : KeyFmt) : Nat := 4 * f.words

def keyNan (f : KeyFmt) (k : Nat) : Bool :=
  f == .kf32 && decide (k % 2 ^ 31 > 0x7F800000)

/-- R234: −0 is stored as +0. -/
def keyCanon (f : KeyFmt) (k : Nat) : Nat := if f == .kf32 && k == 0x80000000 then 0 else k

/-- R234: the order of keys, as that of integers. -/
def keyOrd (f : KeyFmt) (k : Nat) : Int :=
  match f with
  | .ki32 => sgn 32 k
  | .ki64 => sgn 64 k
  | .kf32 => if k ≥ 2 ^ 31 then -((k - 2 ^ 31 : Nat) : Int) else k
  | _ => k

/-- R246: the greatest key of a format. -/
def keyMax (f : KeyFmt) : Nat :=
  match f with
  | .ki32 => 2 ^ 31 - 1
  | .kn32 => 2 ^ 32 - 1
  | .ki64 => 2 ^ 63 - 1
  | .kn64 => 2 ^ 64 - 1
  | .kf32 => 0x7F800000
  | .kc128 => 2 ^ 128 - 1

/-- The type under which a key's one or two words are read (R242). -/
def KeyFmt.ty : KeyFmt → Ty
  | .ki32 => .i32 | .kn32 => .n32 | .ki64 => .i64 | .kn64 => .n64 | .kf32 => .f32 | .kc128 => .b64

/-- R242: a lane's key. -/
def Warp.keyOf (w : Warp) (lane : Nat) (f : KeyFmt) (a : Src) : Nat :=
  match f, a with
  | .kc128, .v n _ => w.group lane n.toNat 4
  | .kc128, _ => 0
  | f, a => (w.src lane a (KeyFmt.ty f)).toNat

/-- R242: the register group after the start key, with its mark. (DESIGN CHOICE, log 104) -/
def boundSrc (f : KeyFmt) (a : Src) : Src :=
  match a with
  | .v n u => if n = 255#8 then a else .v (n + BitVec.ofNat 8 f.words) u
  | .s n u => .s (n + 1) u
  | a => a

/-! ### Rows -/

/-- R236: the handle of a slot. -/
def Version.handle (v : Version) (slot : Nat) : Nat := v.base + v.rowBytes * slot

/-- R233: KBASE of a flat table. -/
def Version.kbase (v : Version) : Int := if v.kfmt % 2 = 0 then sgn 64 v.d3.toNat else v.d3.toNat

/-- The key of a slot; none where the slot is free. -/
def Version.keyAt (v : Version) (slot : Nat) : Option Nat :=
  if v.kind = 1 then some (wrapN (8 * keyBytes (fmtOf v.kfmt)) (v.kbase + slot))
  else (v.index.find? fun e => e.1 == slot).map Prod.snd

/-- R243: the slot of a key. -/
def Version.find (v : Version) (k : Nat) : Option Nat :=
  let f := fmtOf v.kfmt
  if v.kind = 1 then
    let o := keyOrd f k
    if v.kbase ≤ o ∧ o ≤ v.kbase + v.rows - 1 then some (o - v.kbase).toNat else none
  else (v.index.find? fun e => e.2 == keyCanon f k).map Prod.fst

/-- R247: the slot and key with the smallest key at or above `lo`. -/
def Version.above (v : Version) (lo : Int) : Option (Nat × Nat) :=
  let f := fmtOf v.kfmt
  if v.kind = 1 then
    let o := max lo v.kbase
    if o ≤ v.kbase + v.rows - 1 ∧ o ≤ keyOrd f (keyMax f) then
      some ((o - v.kbase).toNat, wrapN (8 * keyBytes f) o) else none
  else
    (v.index.filter fun e => decide (lo ≤ keyOrd f e.2)).foldl (fun b e =>
      match b with
      | none => some e
      | some c => if keyOrd f e.2 < keyOrd f c.2 then some e else some c) none

/-- The least key of a flat table's format. -/
def keyMin (f : KeyFmt) : Int :=
  match f with
  | .ki32 => -(2 ^ 31)
  | .ki64 => -(2 ^ 63)
  | _ => 0

/-- R247: the slot and key with the largest key below `hi`. -/
def Version.under (v : Version) (hi : Int) : Option (Nat × Nat) :=
  let f := fmtOf v.kfmt
  if v.kind = 1 then
    let o := min (hi - 1) (v.kbase + v.rows - 1)
    if v.kbase ≤ o ∧ keyMin f ≤ o then some ((o - v.kbase).toNat, wrapN (8 * keyBytes f) o) else none
  else
    (v.index.filter fun e => decide (keyOrd f e.2 < hi)).foldl (fun b e =>
      match b with
      | none => some e
      | some c => if keyOrd f e.2 > keyOrd f c.2 then some e else some c) none

/-- The `k`-th slot that is not in a rising list. (DESIGN CHOICE, log 2) -/
def kthFree (occ : List Nat) (k : Nat) : Nat := occ.foldl (fun k o => if o ≤ k then k + 1 else k) k

/-- An element in its place in a list that rises by the first component. -/
def insertSlot (e : Nat × Nat) : List (Nat × Nat) → List (Nat × Nat)
  | [] => [e]
  | f :: r => if e.1 < f.1 then e :: f :: r else f :: insertSlot e r

/-- Slots that hold a row or may not be reused yet (R251), rising. -/
def Version.taken (v : Version) : List Nat :=
  (v.graves.foldl (fun l (g : Nat × List Nat) => insertSlot (g.1, 0) l) v.index).map Prod.fst

/-! ### Row bytes -/

/-- R250: steps 4 and 5 of R182 over `n` bytes from an address, line by line. -/
def State.rowCheck (s : State) (die ctx va n : Nat) : Option (Code × Nat) :=
  ((List.range (n / 128 + 2)).map fun i => if i = 0 then va else va / 128 * 128 + 128 * i).findSome? fun a =>
    if a < va + n then
      match s.engPlace die ctx a true with
      | .fault c => some (c, a)
      | _ => none
    else none

/-- Bytes written at addresses that passed. -/
def State.rowWrite (s : State) (die ctx va : Nat) : Nat → List Byte → State
  | 0, _ => s
  | fuel + 1, b =>
    if b.isEmpty then s
    else
      let n := min b.length (128 - va % 128)
      let s := match s.engPlace die ctx va true with
        | .line l off a _ => s.agentWrite l a off (b.take n)
        | _ => s
      State.rowWrite s die ctx (va + n) fuel (b.drop n)

/-- R225, R260: bytes of a row, in one line, as the index engine reads them at the home: none where they do not translate, with
poison. -/
def State.rowRead (s : State) (die ctx va n : Nat) : State × Option (List Byte × Bool) :=
  match s.engPlace die ctx va false with
  | .line l off a _ =>
    let (s, d, p) := s.agentRead l a ctx
    (s, some (slice d off n, (p &&& touched off n) != 0))
  | _ => (s, none)

/-- The line of an address of the device region, where it translates. -/
def State.rowLine (s : State) (die ctx va : Nat) : Option LineId :=
  match s.engPlace die ctx va false with
  | .line l _ _ _ => some l
  | _ => none

/-! ### Results (R238) -/

/-- The four words of a quad. -/
structure Quad where
  w0 : Nat
  w1 : Nat
  st : Nat
  w3 : Nat
  deriving DecidableEq, Repr

/-- R238: status OK with a row and its key. -/
def Quad.row (handle key : Nat) : Quad := ⟨handle % 2 ^ 32, handle / 2 ^ 32, 0, key % 2 ^ 32⟩
def Quad.status (n : Nat) : Quad := ⟨0, 0, n, 0⟩

def Quad.bits (q : Quad) : Nat := q.w0 % 2 ^ 32 + q.w1 % 2 ^ 32 * 2 ^ 32 + q.st * 2 ^ 64 + q.w3 % 2 ^ 32 * 2 ^ 96

/-- A lane's outcome: its quad, or its fault. -/
inductive Out where
  | quad (q : Quad)
  | bad (b : Bad)
  deriving DecidableEq, Repr

/-- The end of a table instruction, which holds the versions `vs` until its quads are written (R254, R255). -/
def State.quads (s : State) (x : Wx) (d : Dst) (vs : List Nat) (os : List (Nat × Out)) : Eff :=
  let qs := os.filterMap fun (l, o) => match o with
    | .quad q => some (l, q)
    | _ => none
  let bad := os.filterMap fun (_, o) => match o with
    | .bad b => some b
    | _ => none
  let s := qs.foldl (fun s (l, q) => s.rval x.w l x.run.pc (q.w0 + q.w1 * 2 ^ 32) (q.st + q.w3 * 2 ^ 32)) s
  let id := s.uid
  let s := if vs.isEmpty then s else { vs.foldl (fun s v => s.addPin v id none) s with uid := id + 1 }
  .done (s.count x.core 9 1) (x.w.withHelpers (qs.flatMap fun (l, q) => groupWrites (dstV d) 4 l q.bits))
    (some { pendOf .table [] none with pins := vs.map fun v => (v, id) }) bad

/-- Lanes one after another. -/
def Wx.each (x : Wx) (s : State) (f : State → Nat → State × Out) : State × List (Nat × Out) :=
  x.thr.foldl (fun (s, os) l => let (s, o) := f s l; (s, os ++ [(l, o)])) (s, [])

/-- R263: a lookup waits for the warp's acquires, and acquires. (DESIGN CHOICE, log 62) -/
def lookup (x : Wx) (s : State) (f : State → Eff) : Eff :=
  if x.w.acquiring then .hold s else f (s.dropSelf x.core)

/-- R263: a mutation releases as well. (DESIGN CHOICE, log 62) -/
def mutation (x : Wx) (s : State) (f : State → Eff) : Eff :=
  if x.w.acquiring || !x.w.outstanding.isEmpty then .hold s else f (s.dropSelf x.core)

/-- R235: the kinds an instruction accepts, and the key format it names. -/
def Version.accepts (v : Version) (kinds : List Nat) (kf : Option KeyFmt) : Bool :=
  kinds.contains v.kind && (match kf with
    | some f => v.kfmt == KeyFmt.code f
    | none => true)

/-- R239: the table of an instruction, checked. -/
def State.withTable (s : State) (x : Wx) (id : Src) (kinds : List Nat) (kf : Option KeyFmt) (f : Version → Eff) : Eff :=
  match s.tableOf x.g.ctx (x.w.src x.low id .b64) with
  | none => .fault .notable 0 false
  | some v => if v.accepts kinds kf then f v else .fault .tableKey 0 false

/-! ### Lookups (R243 to R245) -/

/-- R245: the key of a position's page in the map of a sparse array. -/
def mapKey (key : Nat) : Nat := key / 2 ^ 32 * 2 ^ 32 + key % 2 ^ 32 / 64

/-- R245: the map of a sparse array and its slot for a key. (DESIGN CHOICE, log 63) -/
def State.mapSlot (s : State) (v : Version) (key : Nat) : Option (Version × Nat) :=
  match s.current v.ctx (fld v.d3 0 20) with
  | none => none
  | some m => if m.kind = 3 ∧ m.kfmt = 5 ∧ m.roww ≥ 2 then (m.find (mapKey key)).map fun slot => (m, slot) else none

/-- R245: where the map of a sparse array says what page holds a key: byte 16 of the map's row. -/
def State.mapAt (s : State) (v : Version) (key : Nat) : Option Nat := (s.mapSlot v key).map fun p => p.1.handle p.2 + 16

/-- R245: the map row of a sparse-array key, read: page base and state, or none; poison is met. -/
def State.mapRow (s : State) (die : Nat) (v : Version) (key : Nat) : State × Option (Nat × Nat × Bool) :=
  match s.mapAt v key with
  | none => (s, none)
  | some va =>
    let (s, r) := s.rowRead die v.ctx va 9
    (s, r.map fun (b, p) => (leNat (b.take 8), (b.getD 8 0).toNat, p))

/-- R201, R216, R224: an access of the core to a line that the index engine is to read is queued at its home, or the home serves another
request to the line: the lookup waits. -/
def State.rowBusy (s : State) (core ctx : Nat) (vas : List Nat) : Bool :=
  vas.any fun va => match s.rowLine (core / 64) ctx va with
    | some l => s.lineBusy core l || !s.homeFree l
    | none => false

/-- R243, R245: one lane's lookup. -/
def State.tlook (s : State) (die lane : Nat) (v : Version) (f : KeyFmt) (k : Nat) : State × Out :=
  if keyNan f k then (s, .quad (.status 1))
  else if v.kind = 4 then
    let (s, r) := s.mapRow die v k
    (s, match r with
    | none => .quad (.status 5)
    | some (base, st, p) =>
      if p then .bad ⟨lane, .machineCheck, 0⟩
      else if st = 1 then .quad (.status 6)
      else .quad (.row ((base + v.rowBytes * (k % 64)) % 2 ^ 64) k))
  else
    (s, match v.find k with
    | none => .quad (.status 1)
    | some slot => .quad (.row (v.handle slot) k))

/-- The map rows that a lookup of these keys is to read. -/
def State.mapRows (s : State) (v : Version) (ks : List Nat) : List Nat :=
  if v.kind = 4 then ks.filterMap fun k => s.mapAt v k else []

/-- TLOOK (R243). -/
def execTlook (c : Ctl) (o : TKeyOp) (s : State) : Host.Outcome State Fault Refusal :=
  runWord (infoTKey c o) (fun x s => lookup x s fun s =>
    s.withTable x o.id [1, 2, 3, 4] (some o.kf) fun v =>
      if s.rowBusy x.core x.g.ctx (s.mapRows v (x.thr.map fun l => x.w.keyOf l o.kf o.key)) then .hold s
      else
        let (s, os) := x.each s fun s l => s.tlook (x.core / 64) l v o.kf (x.w.keyOf l o.kf o.key)
        s.quads x o.dst [v.uid] os) s

/-- TROW (R244). -/
def execTrow (c : Ctl) (o : TRowOp) (s : State) : Host.Outcome State Fault Refusal :=
  runWord (infoTRow c o) (fun x s => lookup x s fun s =>
    s.withTable x o.id [1, 2, 3] (some o.kf) fun v =>
      s.quads x o.dst [v.uid] (x.thr.map fun l =>
        let n := (x.w.src32 l o.n .n32).toNat
        (l, .quad (if n ≥ v.rows then .status 2
          else match v.keyAt n with
            | some k => .row (v.handle n) k
            | none => .status 1)))) s

/-! ### Cursors (R246 to R249) -/

/-- A lane's cursor slot is set. -/
def Lane.setK (l : Lane) (i : Nat) (c : Option Cursor) : Lane := { l with k := l.k.set i c }

def Lane.cursor (l : Lane) (i : Nat) : Option Cursor := (l.k.getD i none)

def State.modLaneOf (s : State) (x : Wx) (l : Nat) (f : Lane → Lane) : State :=
  s.modWarp x.core x.slot fun w => w.modLane l f

/-- A pin is taken for a lane; its number. -/
def State.takePin (s : State) (x : Wx) (l ver : Nat) (g : Option Nat) : State × Nat :=
  let id := s.uid
  let s := ({ s with uid := id + 1 }).addPin ver id g
  (s.modLaneOf x l fun q => { q with pinLog := q.pinLog ++ [⟨ver, id, g, true⟩] }, id)

/-- R247: a step: the next cursor and its quad. -/
def stepCursor (v : Version) (c : Cursor) (asc : Bool) : Cursor × Quad :=
  let f := c.fmt
  if asc then
    let lo := match c.last with
      | some k => keyOrd f k + 1
      | none => keyOrd f c.start
    match v.above lo with
    | some (slot, k) =>
      if keyOrd f k ≤ keyOrd f c.bound then ({ c with last := some k, asc := true }, .row (v.handle slot) k)
      else (c, .status 2)
    | none => (c, .status 2)
  else
    let hi := match c.last with
      | some k => keyOrd f k
      | none => keyOrd f c.start
    match v.under hi with
    | some (slot, k) => ({ c with last := some k, asc := false }, .row (v.handle slot) k)
    | none => (c, .status 2)

/-- R246: one lane's seek. -/
def State.tseek (s : State) (x : Wx) (o : TSeekOp) (v : Version) (l : Nat) : State × Out :=
  let start := x.w.keyOf l o.kf o.key
  let bound := if o.bnd then x.w.keyOf l o.kf (boundSrc o.kf o.key) else keyMax o.kf
  if keyNan o.kf start || keyNan o.kf bound then (s, .quad (.status 4))
  else
    let (s, pin) := s.takePin x l v.uid none
    let (c, q) := stepCursor v ⟨v.id, v.uid, pin, o.kf, start, none, bound, true⟩ true
    (s.modLaneOf x l fun ln => ln.setK o.k.toNat (some c), .quad q)

/-- TSEEK (R246). -/
def execTseek (c : Ctl) (o : TSeekOp) (s : State) : Host.Outcome State Fault Refusal :=
  runWord (infoTSeek c o) (fun x s => lookup x s fun s =>
    s.withTable x o.id [1, 2] (some o.kf) fun v =>
      if x.thr.any fun l => ((x.w.lane l).cursor o.k.toNat).isSome then .fault .cursorStale 0 false
      else if v.pins.length + x.thr.length ≥ 2 ^ 32 then .fault .tableVersion 0 false
      else
        let (s, os) := x.each s fun s l => s.tseek x o v l
        let steps := os.filter fun o => match o.2 with
          | .quad q => q.st != 4
          | .bad _ => false
        (s.count x.core 0x0A steps.length).quads x o.dst [v.uid] os) s

/-- R247: one lane's step, on the pinned version. -/
def State.tstep (s : State) (x : Wx) (k : Nat) (asc : Bool) (l : Nat) : State × Out :=
  match (x.w.lane l).cursor k with
  | none => (s, .quad (.status 2))
  | some c =>
    match s.version c.ver with
    | none => (s, .quad (.status 2))
    | some v =>
      let (c, q) := stepCursor v c asc
      (s.modLaneOf x l fun ln => ln.setK k (some c), .quad q)

def stepBody (o : TStepOp) (asc : Bool) (x : Wx) (s : State) : Eff :=
  lookup x s fun s =>
    if x.thr.any fun l => ((x.w.lane l).cursor o.k.toNat).isNone then .fault .cursorStale 0 false
    else
      let (s, os) := x.each s fun s l => s.tstep x o.k.toNat asc l
      let vs := (x.thr.filterMap fun l => ((x.w.lane l).cursor o.k.toNat).map Cursor.ver).eraseDups
      (s.count x.core 0x0A x.thr.length).quads x o.dst vs os

/-- TNEXT (R247). -/
def execTnext (c : Ctl) (o : TStepOp) (s : State) : Host.Outcome State Fault Refusal :=
  runWord (infoTStep c o) (stepBody o true) s

/-- TPREV (R247). -/
def execTprev (c : Ctl) (o : TStepOp) (s : State) : Host.Outcome State Fault Refusal :=
  runWord (infoTStep c o) (stepBody o false) s

/-- R249: one lane's slot is closed and its pin released. -/
def State.tclose (s : State) (x : Wx) (k l : Nat) : State :=
  match (x.w.lane l).cursor k with
  | none => s
  | some c =>
    (s.modLaneOf x l fun ln => { ln.setK k none with pinLog := ln.pinLog ++ [⟨c.ver, c.pin, none, false⟩] }).unpin c.ver c.pin

/-- TCLOSE (R249). -/
def execTclose (c : Ctl) (o : TCloseOp) (s : State) : Host.Outcome State Fault Refusal :=
  runWord (infoTClose c) (fun x s =>
    let s := (x.thr.foldl (fun s l => s.tclose x o.k.toNat l) s).freeVersions
    .done (s.count x.core 9 1) [] (some (pendOver .table)) []) s

/-! ### Mutations (R250 to R253) -/

/-- The index engine's name for a warp's mutation among those that ask for the host's copies. -/
def rowKey (uid : Nat) : Nat := 2 ^ 72 + uid

/-- R229: the lines of the rows that a mutation has answered OK for, `n` bytes of each. -/
def State.rowLines (s : State) (die ctx n : Nat) (os : List (Nat × Out)) : List LineId :=
  os.flatMap fun (_, o) => match o with
    | .quad q => if q.st = 0 then (pieces (q.w0 + q.w1 * 2 ^ 32) n).filterMap fun p => s.rowLine die ctx p.1 else []
    | .bad _ => []

/-- R224, R229, R253: what a mutation comes to: `t` and `os` are its effect, which waits until the host has given back its copies of the
lines it writes, and their homes can serve it. -/
def State.mutated (s : State) (x : Wx) (d : Dst) (ver n : Nat) (t : State × List (Nat × Out)) : Eff :=
  match s.askBack (rowKey x.w.uid) x.g.ctx (s.rowLines (x.core / 64) x.g.ctx n t.2) with
  | some s => .hold s
  | none =>
    if (s.rowLines (x.core / 64) x.g.ctx n t.2).all s.homeFree then t.1.quads x d [ver] t.2 else .hold s

/-- R250: one lane's insertion. (DESIGN CHOICE, log 62) -/
def State.tins (s : State) (x : Wx) (uid : Nat) (f : KeyFmt) (l k : Nat) : State × Out :=
  match s.version uid with
  | none => (s, .quad (.status 8))
  | some v =>
    if keyNan f k then (s, .quad (.status 4))
    else if (v.find k).isSome then (s, .quad (.status 3))
    else
      let occ := v.taken
      if occ.length ≥ v.rows then (s, .quad (.status 8))
      else
        let slot := kthFree occ (Config.freeNat s.fresh % (v.rows - occ.length))
        let s := { s with fresh := s.fresh + 1 }
        let h := v.handle slot
        match s.rowCheck (x.core / 64) x.g.ctx h v.rowBytes with
        | some (c, a) => (s, .bad ⟨l, c, a⟩)
        | none =>
          let k := keyCanon f k
          let n := keyBytes f
          let s := s.rowWrite (x.core / 64) x.g.ctx h 64 (leBytes n k ++ List.replicate (v.rowBytes - n) 0)
          (s.modVersion uid fun v => { v with index := insertSlot (slot, k) v.index }, .quad (.row h k))

/-- TINS (R250). -/
def execTins (c : Ctl) (o : TKeyOp) (s : State) : Host.Outcome State Fault Refusal :=
  runWord (infoTKey c o) (fun x s => mutation x s fun s =>
    s.withTable x o.id [2, 3] (some o.kf) fun v =>
      s.mutated x o.dst v.uid v.rowBytes (x.each s fun s l => s.tins x v.uid o.kf l (x.w.keyOf l o.kf o.key))) s

/-- R251: one lane's deletion; the slot waits for the pins held now, and for that of the instruction itself (`State.quads`). -/
def State.tdel (s : State) (uid : Nat) (f : KeyFmt) (k : Nat) : State × Out :=
  match s.version uid with
  | none => (s, .quad (.status 1))
  | some v =>
    match (if keyNan f k then none else v.find k) with
    | none => (s, .quad (.status 1))
    | some slot =>
      (s.modVersion uid fun v => { v with
        index := v.index.filter fun e => e.1 != slot
        graves := v.graves ++ [(slot, v.pins.map Pin.id ++ [s.uid])] }, .quad (.row (v.handle slot) (keyCanon f k)))

/-- TDEL (R251). -/
def execTdel (c : Ctl) (o : TKeyOp) (s : State) : Host.Outcome State Fault Refusal :=
  runWord (infoTKey c o) (fun x s => mutation x s fun s =>
    s.withTable x o.id [2, 3] (some o.kf) fun v =>
      s.mutated x o.dst v.uid 0 (x.each s fun s l => s.tdel v.uid o.kf (x.w.keyOf l o.kf o.key))) s

/-- R252: one lane's re-keying. -/
def State.trekey (s : State) (x : Wx) (uid : Nat) (f : KeyFmt) (l k n : Nat) : State × Out :=
  match s.version uid with
  | none => (s, .quad (.status 1))
  | some v =>
    if keyNan f k || keyNan f n then (s, .quad (.status 4))
    else
      match v.find k with
      | none => (s, .quad (.status 1))
      | some slot =>
        let n := keyCanon f n
        if (v.find n).isSome && n != keyCanon f k then (s, .quad (.status 3))
        else
          let h := v.handle slot
          match s.rowCheck (x.core / 64) x.g.ctx h (keyBytes f) with
          | some (c, a) => (s, .bad ⟨l, c, a⟩)
          | none =>
            let s := s.rowWrite (x.core / 64) x.g.ctx h 4 (leBytes (keyBytes f) n)
            (s.modVersion uid fun v => { v with index := v.index.map fun e => if e.1 == slot then (slot, n) else e },
              .quad (.row h n))

/-- TREKEY (R252). -/
def execTrekey (c : Ctl) (o : TRekeyOp) (s : State) : Host.Outcome State Fault Refusal :=
  runWord (infoTRekey c o) (fun x s => mutation x s fun s =>
    s.withTable x o.id [2, 3] (some o.kf) fun v =>
      s.mutated x o.dst v.uid (keyBytes o.kf)
        (x.each s fun s l => s.trekey x v.uid o.kf l (x.w.keyOf l o.kf o.key) (x.w.keyOf l o.kf o.new))) s

/-! ### TADD (R261, R262) -/

/-- R261: the checks of one lane. -/
def State.taddLoc (s : State) (x : Wx) (va size : Nat) : Loc :=
  if va % size ≠ 0 then .fault .align
  else
    match regionOf va with
    | .dev => s.locate x.w va true
    | .none => .fault .translation
    | _ => .fault .notable

def taddBody (o : TAddOp) (x : Wx) (s : State) : Eff :=
  if x.w.acquiring then .hold s
  else
    let size := if o.q then 8 else 4
    let as := x.thr.map fun l => let va := x.ea l o.addr o.off; (l, va, s.taddLoc x va size)
    match s.ask x (as.map fun a => a.2.2) with
    | some s => .hold s
    | none =>
      let ok := okOf as
      let s := (s.count x.core 9 1).watched x false true ok size
      let m := s.perform x ⟨fun _ _ => .atHome, fun _ _ _ _ => false, 0, false, []⟩
        (partsOf x.w ok (fun l off => .tadd l off o.q (x.w.src32 l o.val .f32)) fun l _ => lateOf o.val l 0 4)
      m.finish x .tadd .dev .rlx [] (badsOf as)

/-- TADD (R261). -/
def execTadd (c : Ctl) (o : TAddOp) (s : State) : Host.Outcome State Fault Refusal := runWord (infoTAdd c o) (taddBody o) s

/-! ### Versions and pins (R255 to R259) -/

/-- TPIN (R255). -/
def execTpin (c : Ctl) (o : TIdOp) (s : State) : Host.Outcome State Fault Refusal :=
  runWord (infoTId c o) (fun x s => s.withTable x o.id [1, 2, 3, 4] none fun v =>
    if v.pins.length + x.thr.length ≥ 2 ^ 32 then .fault .tableVersion 0 false
    else
      let (s, os) := x.each s fun s l => ((s.takePin x l v.uid (some x.g.uid)).1, .quad ⟨v.number, 0, 0, 0⟩)
      s.quads x o.dst [] os) s

/-- R255: the explicit pin that a lane's TUNPIN removes: the grid's own, else another's. -/
def State.explicitPin (s : State) (x : Wx) (id n : Nat) : Option (Nat × Pin) :=
  match s.tabs.find? fun v => v.ctx == x.g.ctx && v.id == id && v.number == n && v.kind != 0 with
  | none => none
  | some v =>
    match (v.pins.find? fun p => p.grid == some x.g.uid) <|> (v.pins.find? fun p => p.grid.isSome) with
    | some p => some (v.uid, p)
    | none => none

/-- R255: the pins of all lanes, removed in order; none where a lane finds none. -/
def State.tunpinAll (s : State) (x : Wx) (id : Nat) (ver : Src) : Option State :=
  x.thr.foldl (fun o l => o.bind fun s =>
    (s.explicitPin x id (x.w.src32 l ver .n32).toNat).map fun (u, p) =>
      (s.modLaneOf x l fun ln => { ln with pinLog := ln.pinLog ++ [⟨u, p.id, p.grid, false⟩] }).unpin u p.id) (some s)

/-- TUNPIN (R255). -/
def execTunpin (c : Ctl) (o : TUnpinOp) (s : State) : Host.Outcome State Fault Refusal :=
  runWord (infoTUnpin c o) (fun x s => s.withTable x o.id [1, 2, 3, 4] none fun v =>
    match s.tunpinAll x v.id o.ver with
    | none => .fault .tableVersion 0 false
    | some s => s.freeVersions.quads x o.dst [] (x.thr.map fun l => (l, .quad (.status 0)))) s

/-- R256: one version takes the place of another under its id. -/
def State.install (s : State) (old new : Version) (n : Nat) : State :=
  { s with tabs := s.tabs.map fun v =>
      if v.uid == old.uid then { v with cur := false }
      else if v.uid == new.uid then { v with id := old.id, d0 := withVersion v.d0 n } else v }

/-- R256: one lane's swap. -/
def State.tswap (s : State) (x : Wx) (id sid e : Nat) : State × Out :=
  match s.current x.g.ctx id with
  | none => (s, .quad (.status 7))
  | some v =>
    let no := Out.quad ⟨v.number, 0, 7, v.number⟩
    if e ≠ 0xFFFFFFFF ∧ e ≠ v.number then (s, no)
    else
      match s.current x.g.ctx sid with
      | none => (s, no)
      | some t =>
        let n := nextVersion v.number
        (s.install v t n, .quad ⟨n, 0, 0, v.number⟩)

/-- TSWAP (R256). -/
def execTswap (c : Ctl) (o : TSwapOp) (s : State) : Host.Outcome State Fault Refusal :=
  runWord (infoTSwap c o) (fun x s => mutation x s fun s =>
    s.withTable x o.id [1, 2, 3, 4] none fun v =>
      match s.tableOf x.g.ctx (x.w.src x.low o.st .b64) with
      | none => .fault .notable 0 false
      | some t =>
        if t.kind ≠ v.kind ∨ t.kfmt ≠ v.kfmt then .fault .tableKey 0 false
        else if !t.pins.isEmpty || t.id == v.id then .fault .tableVersion 0 false
        else
          let (s, os) := x.each s fun s l => s.tswap x v.id t.id (x.w.src32 l o.e .n32).toNat
          s.freeVersions.quads x o.dst [] os) s

/-- TSTAT (R258). -/
def execTstat (c : Ctl) (o : TIdOp) (s : State) : Host.Outcome State Fault Refusal :=
  runWord (infoTId c o) (fun x s => lookup x s fun s => s.withTable x o.id [1, 2, 3, 4] none fun v =>
    s.quads x o.dst [] (x.thr.map fun l =>
      (l, .quad ⟨v.number, fld v.d0 0 24, 0, min v.rows 0xFFFFFFFF⟩))) s

/-- R259: the states of the pages of a sparse array, in its map. -/
def State.stateRows (s : State) (v : Version) : List Nat :=
  if v.kind = 4 then
    match s.current v.ctx (fld v.d3 0 20) with
    | none => []
    | some m => m.index.map fun e => m.handle e.1 + 24
  else []

/-- R259: the rows of a version; those of a sparse array are of pages whose state is read as 0. -/
def State.tcount (s : State) (die : Nat) (v : Version) : State × Nat :=
  if v.kind = 1 then (s, v.rows)
  else if v.kind = 4 then
    (s.stateRows v).foldl (fun (s, n) va =>
      let (s, r) := s.rowRead die v.ctx va 1
      (s, match r with
      | some (b, _) => if b.getD 0 0 = 0 then n + 64 else n
      | none => n)) (s, 0)
  else (s, v.index.length)

/-- TCOUNT (R259). -/
def execTcount (c : Ctl) (o : TIdOp) (s : State) : Host.Outcome State Fault Refusal :=
  runWord (infoTId c o) (fun x s => lookup x s fun s => s.withTable x o.id [1, 2, 3, 4] none fun v =>
    if s.rowBusy x.core x.g.ctx (s.stateRows v) then .hold s
    else
      let (s, n) := s.tcount (x.core / 64) v
      s.quads x o.dst [v.uid] (x.thr.map fun l => (l, .quad ⟨n % 2 ^ 32, n / 2 ^ 32, 0, v.number⟩))) s

end Sys2Proof.Machine
end

