-- ==== Sys2Proof/Machine/Commands.lean ====
section
/-! DEFINITION. Group 0x8: PUSH, the tag instructions and leases (R307 to R318, R329), and what ends their waits. -/

namespace Sys2Proof.Machine

/-- The number by which a core knows a command: its CMDSEQ, or where another core accepted it one that names that core too (R312).
(DEDUCED, log 49) -/
def Cmd.id (c : Cmd) : Nat := if c.home = c.core then c.seq else (c.home + 1) * 2 ^ 32 + c.seq

/-! ### Headers (R308, R309) -/

def hdrCmd (h : DWord) : Nat := fld h 0 8
def hdrTag (h : DWord) : Nat := fld h 8 6
def hdrTge (h : DWord) : Bool := h.getLsbD 14
def hdrPair (h : DWord) : Bool := h.getLsbD 15
def hdrFlags (h : DWord) : Nat := fld h 16 8
def hdrGate (h : DWord) : Nat := fld h 58 6

/-- R307: the command codes a queue accepts. -/
def accepts (q cmd : Nat) : Bool :=
  match q with
  | 0 => decide (0x10 ≤ cmd ∧ cmd ≤ 0x13)
  | 1 => cmd == 0x20
  | 2 => cmd == 0x30 || cmd == 0x31
  | 3 => cmd == 0x40
  | 4 => cmd == 0x50
  | 5 => cmd == 0x60 || cmd == 0x61
  | _ => false

/-- R308: the FLAGS bits a command does not define. -/
def flagsBad (cmd flags : Nat) : Bool :=
  match cmd with
  | 0x10 => decide (flags ≥ 64)
  | 0x30 | 0x40 => decide (flags ≥ 2)
  | _ => flags != 0

/-- R335: the chunks of a collective; 1 for other commands. -/
def chunksOf (w : List DWord) : Nat := if hdrCmd (wordAt w 0) = 0x40 then fld (wordAt w 3) 48 4 + 1 else 1

/-- R311: what PUSH refuses of a header. -/
def pushBad (q : Nat) (w : List DWord) (tags : Nat) (pairOk : Bool) : Bool :=
  let h := wordAt w 0
  fld h 24 8 != 0 || !accepts q (hdrCmd h) || fld h 32 26 != 0 || flagsBad (hdrCmd h) (hdrFlags h) ||
  decide (hdrTag h + chunksOf w - 1 ≥ tags) || (hdrTge h && decide (hdrGate h ≥ tags)) ||
  (!hdrTge h && hdrGate h != 0) || (hdrPair h && !pairOk)

/-! ### Tags (R313 to R315) -/

def Team.tag (t : Team) (n : Nat) : Bool := t.tags.getLsbD n

/-- R313: commands of the team gated on a tag that is set have seen their gate. (DESIGN CHOICE, log 84) -/
def State.openGates (s : State) (team : Nat) : State :=
  match s.team team with
  | none => s
  | some t =>
    let look := fun (c : Cmd) =>
      let h := wordAt c.w 0
      if c.team == team && c.phase == .waiting && hdrTge h && t.tag (hdrGate h) then { c with gate := true } else c
    let s := { s with cores := s.cores.map fun (k : Core) => { k with queues := k.queues.map (List.map look) } }
    s.modTeam team fun t => { t with cmds := t.cmds.map look }

/-- Tags of a team are set. (DESIGN CHOICE, log 84) -/
def State.setTags (s : State) (team : Nat) (m : DWord) : State :=
  (s.modTeam team fun (t : Team) => { t with tags := t.tags ||| m }).openGates team

/-- The tags of the warp's team. -/
def State.tagmap (s : State) (w : Warp) : DWord :=
  match s.team w.team with
  | some t => t.tags
  | none => 0

/-! ### PUSH (R311) -/

/-- R91: places in a queue. -/
def queueFull (k : Core) (q : Nat) : Bool := decide ((k.queues.getD q []).length ≥ 32)

/-- R312. -/
def bumpSeq (n : Nat) : Nat := if n + 1 ≥ 2 ^ 32 then 1 else n + 1

/-- R311: the command is taken. -/
def State.accept (s : State) (x : Wx) (q : Nat) (w : List DWord) : State :=
  let k := s.core x.core
  let seq := k.nextSeq
  let c : Cmd := ⟨q, seq, w, x.core, x.core, x.w.uid, x.w.team, x.run.pc, false, .waiting, ⟨0, 0, false⟩, [], [], [], []⟩
  let s := s.modCore x.core fun k => { k with nextSeq := bumpSeq seq, queues := k.queues.modify q (· ++ [c]) }
  let s := s.modWarp x.core x.slot fun v => { v with cmdseq := BitVec.ofNat 32 seq }
  let s := (s.openGates x.w.team).count x.core 0x0B 1
  s.traceCore 3 x.core x.g.ctx 5 (x.run.pc.toNat + seq * 2 ^ 32) (wordAt w 0).toNat q

def pushBody (i : Instr) (o : PushOp) (x : Wx) (s : State) : Eff :=
  let w := (List.range 8).map fun j => x.w.getS (o.sb.toNat + j)
  let q := o.q.toNat
  if x.w.mixed then .fault .mixedBarrier 0 false
  else if pushBad q w x.g.f.tags (q == 0 && x.g.f.cohort2 && x.core % 2 == 0) then .fault .illegalOperand 0 false
  else if queueFull (s.core x.core) q then
    (if o.cd = 7 then .hold (s.holdHere x i q)
     else .done (s.count x.core 0x0C 1) [⟨.c o.cd.toNat, 0, 1⟩] none [])
  else if x.w.acquiring || !x.w.outstanding.isEmpty then .hold s
  else .done (s.accept x q w) [⟨.c o.cd.toNat, 0, 0⟩] none []

/-- PUSH (R311). -/
def execPush (c : Ctl) (o : PushOp) (s : State) : Host.Outcome State Fault Refusal :=
  runWord (infoPush c o) (pushBody (.push c o) o) s

/-- PUSH_PLACE_FREED (R311): the queue has a place. -/
def execPushPlaceFreed (core slot : Nat) (s : State) : Host.Outcome State Fault Refusal :=
  match s.warpAt core slot with
  | none => .next s
  | some w =>
    match w.hold with
    | none => .next s
    | some h =>
      match h.i with
      | .push c o =>
        if queueFull (s.core core) o.q.toNat then .next s
        else .next ((s.unhold core slot false).redo core slot (infoPush c o) (pushBody (.push c o) o))
      | _ => .next s

/-! ### Waits (R316) -/

/-- R310: a mask that the team's tags do not hold. -/
def maskBad (tags : Nat) (m : DWord) : Bool := decide (m.toNat ≥ 2 ^ tags)

/-- R285: the lowest unreported faulted tag that a wait observes. -/
def Warp.faultedTag (w : Warp) (seen : DWord) : Option EngFault :=
  leastBy EngFault.tag (w.efaults.filter fun f => seen.getLsbD f.tag)

/-- R285: the fault is reported: the group traps, to return to the wait. -/
def State.raiseEngine (s : State) (core slot : Nat) (lanes : List Nat) (pc : Word) (f : EngFault) : State :=
  let s := s.modWarp core slot fun w => { w.endHeld with efaults := w.efaults.filter (fun g => g != f), hold := none }
  match s.warpAt core slot with
  | none => s
  | some w => s.deliver w lanes (some pc)

/-- R316: a wait is over: the tags it waits for. -/
def waitOver (all : Bool) (tags m : DWord) : Bool := if all then tags &&& m == m else tags &&& m != 0

/-- The run ends where it stands: its lanes are given the word's own PC. -/
def State.stand (s : State) (x : Wx) : State :=
  s.modWarp x.core x.slot fun w => w.modLanes x.run.lanes fun l => { l with pc := x.run.pc }

/-- The words of R394 for a wait. -/
def State.rvalLanes (s : State) (x : Wx) (v : Nat) : State := x.thr.foldl (fun s l => s.rval x.w l x.run.pc v 0) s

def waitBody (i : Instr) (all : Bool) (o : MaskOp) (x : Wx) (s : State) : Eff :=
  let m := x.w.src 0 o.m .b64
  if x.w.mixed then .fault .mixedBarrier 0 false
  else if maskBad x.g.f.tags m || (!all && m == 0) then .fault .illegalOperand 0 false
  else
    let t := s.tagmap x.w
    if waitOver all t m then
      match x.w.faultedTag (t &&& m) with
      | some f => .ends ((s.stand x).raiseEngine x.core x.slot x.run.lanes x.run.pc f) [] none
      | none => .done ((s.rvalLanes x t.toNat).dropSelf x.core) [] none []
    else
      .ends ((s.stand x).modWarp x.core x.slot fun w => { w with
        hold := some ⟨i, x.run.lanes, x.run.pc, s.gtime, s.clkOf x.core, m.toNat, w.cmdsDone, false, none⟩ }) [] (some (pendOf .held [] none))

/-- WAITANY (R316). -/
def execWaitany (c : Ctl) (o : MaskOp) (s : State) : Host.Outcome State Fault Refusal :=
  runWord (infoMask c o true) (waitBody (.waitany c o) false o) s

/-- WAITALL (R316). -/
def execWaitall (c : Ctl) (o : MaskOp) (s : State) : Host.Outcome State Fault Refusal :=
  runWord (infoMask c o true) (waitBody (.waitall c o) true o) s

/-- A tag wait that holds, and whether it is for all its tags. -/
def Hold.tagWait (h : Hold) : Option Bool :=
  match h.i with
  | .waitany .. => some false
  | .waitall .. => some true
  | _ => none

/-- The lanes that a wait held go on after it; its SETW event finishes (R96). -/
def Warp.goOn (w : Warp) (h : Hold) (now : Nat) : Warp :=
  { w.endHeld.modLanes h.lanes (fun l => { l with pc := h.pc + 1 }) with hold := none, readyAt := now }

/-- TAG_WAIT_WAKEUP (R316): the tags are set: the wait returns as an acquire, or raises an engine fault (R285). -/
def execTagWaitWakeup (core slot : Nat) (s : State) : Host.Outcome State Fault Refusal :=
  match s.warpAt core slot with
  | none => .next s
  | some w =>
    match w.hold with
    | none => .next s
    | some h =>
      match h.tagWait with
      | none => .next s
      | some all =>
        let m := BitVec.ofNat 64 h.n
        let t := s.tagmap w
        if waitOver all t m then
          (match w.faultedTag (t &&& m) with
          | some f => .next (s.raiseEngine core slot h.lanes h.pc f)
          | none =>
            let r := h.lanes.foldl (fun s l => s.rval w l h.pc t.toNat 0) s
            .next ((r.dropSelf core).modWarp core slot fun w => w.goOn h s.gtime))
        else .next s

/-- R316: the lowest tag set under the mask, or 64. -/
def lowTag (t : DWord) : Nat := ((List.range 64).find? fun n => t.getLsbD n).getD 64

/-- FFR (R316). -/
def execFfr (c : Ctl) (o : FfrOp) (s : State) : Host.Outcome State Fault Refusal :=
  runWord (infoFfr c o) (fun x s =>
    let m := x.w.src 0 o.m .b64
    if x.w.mixed then .fault .mixedBarrier 0 false
    else if maskBad x.g.f.tags m then .fault .illegalOperand 0 false
    else
      let n := lowTag (s.tagmap x.w &&& m)
      if n = 64 then .done (s.rvalLanes x n) [⟨.s o.sd.toNat, 0, BitVec.ofNat 64 n⟩] none []
      else
        match x.w.faultedTag (1#64 <<< n) with
        | some f => .ends ((s.stand x).raiseEngine x.core x.slot x.run.lanes x.run.pc f) [] none
        | none => .done ((s.rvalLanes x n).dropSelf x.core) [⟨.s o.sd.toNat, 0, BitVec.ofNat 64 n⟩] none []) s

/-- TAGCLR (R317). -/
def execTagclr (c : Ctl) (o : MaskOp) (s : State) : Host.Outcome State Fault Refusal :=
  runWord (infoMask c o false) (fun x s =>
    let m := x.w.src 0 o.m .b64
    if x.w.mixed then .fault .mixedBarrier 0 false
    else if maskBad x.g.f.tags m then .fault .illegalOperand 0 false
    else .done (s.modTeam x.w.team fun t => { t with tags := t.tags &&& ~~~m }) [] none []) s

/-- TAGSET (R317): a release. -/
def execTagset (c : Ctl) (o : MaskOp) (s : State) : Host.Outcome State Fault Refusal :=
  runWord (infoMask c o false) (fun x s =>
    let m := x.w.src 0 o.m .b64
    if x.w.mixed then .fault .mixedBarrier 0 false
    else if maskBad x.g.f.tags m then .fault .illegalOperand 0 false
    else if x.w.acquiring || !x.w.outstanding.isEmpty then .hold s
    else .done (s.setTags x.w.team m) [] none []) s

/-! ### Leases (R329, R330) -/

/-- The cores whose arrays a team's lease takes. -/
def leaseCores (g : Grid) (core : Nat) : List Nat := if g.f.cohort2 then [core / 2 * 2, core / 2 * 2 + 1] else [core]

/-- R329: the team holds or awaits a lease on the array. -/
def Core.leasing (k : Core) (team : Nat) : Bool :=
  (match k.lease with
  | some l => l.team == team
  | none => false) || k.leaseReq.any fun r => r.1 == team

/-- R45, R329: the cores of the lease that an owner has asked for on a core: both of the pair for a cohort. -/
def leaseOf (core owner : Nat) : List Nat := if owner ≥ 2 ^ 80 then [core / 2 * 2, core / 2 * 2 + 1] else [core]

/-- R329: requests are granted in arrival order: the first of a core, once it is the first on every core that it asks for, where no lease
stands there and `ok` holds. -/
def State.grant (s : State) (core : Nat) (ok : Core → Bool) : State :=
  match (s.core core).leaseReq with
  | [] => s
  | (t, o, n) :: _ =>
    let cs := leaseOf core o
    if cs.all fun c => (s.core c).lease.isNone && (s.core c).leaseReq.head? == some (t, o, n) && ok (s.core c) then
      cs.foldl (fun s c => s.modCore c fun k => { k with lease := some ⟨t, o, n, none⟩, leaseReq := k.leaseReq.drop 1 }) s
    else s

/-- R329, R331: on an idle array the first request is granted at once; elsewhere at the next tile boundary.
(DESIGN CHOICE, log 83) -/
def State.grantIdle (s : State) (core : Nat) : State := s.grant core fun k => k.array.isNone && !k.slaved

/-- LEASE for n granules (DESIGN CHOICE, log 83). -/
def leaseFor (n : Nat) (x : Wx) (s : State) : Eff :=
  if x.w.mixed then .fault .mixedBarrier 0 false
  else if n = 0 then .fault .illegalOperand 0 false
  else if (x.g.f.cohort2 && x.core % 2 == 1) || (s.core x.core).leasing x.w.team then .fault .lease 0 false
  else
    let n := min n 16777215
    let s := (leaseCores x.g x.core).foldl (fun s c => s.modCore c fun k => { k with
      leaseReq := k.leaseReq ++ [(x.w.team, s.ownerOf x.w.team, n)] }) s
    .done (s.grantIdle x.core) [] none []

/-- LEASE n, n in a register or literal (R329). -/
def execLeaseRegister (c : Ctl) (o : MaskOp) (s : State) : Host.Outcome State Fault Refusal :=
  runWord (infoMask c o false) (fun x s => leaseFor (x.w.src 0 o.m .b64).toNat x s) s

/-- LEASE n, n an immediate (R329). -/
def execLeaseImmediate (c : Ctl) (o : Imm16Op) (s : State) : Host.Outcome State Fault Refusal :=
  runWord (infoUni c false) (leaseFor o.n.toNat) s

/-- The lease of a core ends, and its requests are withdrawn, where `p` holds of the team that asked and of the owner. -/
def Core.endLeases (k : Core) (p : Nat → Nat → Bool) : Core :=
  { k with
    lease := k.lease.filter fun l => !p l.team l.owner
    leaseReq := k.leaseReq.filter fun r => !p r.1 r.2.1 }

/-- R329: as above, on every core; then waiting requests may be granted. -/
def State.endLeases (s : State) (cores : List Nat) (p : Nat → Nat → Bool) : State :=
  let s := cores.foldl (fun s c => s.modCore c fun k => k.endLeases p) s
  cores.foldl State.grantIdle s

/-- UNLEASE (R329). -/
def execUnlease (c : Ctl) (s : State) : Host.Outcome State Fault Refusal :=
  runWord (infoUni c false) (fun x s =>
    if x.w.mixed then .fault .mixedBarrier 0 false
    else .done (s.endLeases (leaseCores x.g x.core) fun t _ => t == x.w.team) [] none []) s

end Sys2Proof.Machine
end

