-- ==== Sys2Proof/Machine/Queues.lean ====
section
/-! DEFINITION. Queue registers: MOV to and from E0 to E15, and what ends a blocked access (R91, R92, R124, R328). -/

namespace Sys2Proof.Machine

/-- R328: the words of 64 bits in an entry of E8 to E15: one 32-bit word for each lane, where R91 gives an entry 64 bits. (DEDUCED, log 117) -/
def entryWords (w : Warp) : Nat := w.w / 2

/-- The commands that are in flight, wherever they are. -/
def State.inFlight (s : State) : List Cmd :=
  s.cores.flatMap (fun k => k.queues.flatten) ++ s.teams.flatMap fun t => t.cmds

/-- R91: the warp has an accepted command on the engine whose record is undelivered. -/
def State.owed (s : State) (uid n : Nat) : Bool :=
  if n = 6 then s.pmodes.any fun p => p.warp == uid
  else (s.inFlight.any fun c => c.warp == uid && c.q == n) || s.cores.any fun k => k.held.any fun h => h.1 == uid && h.2.1 == n

/-- R325: the register a job card feeds from, and the one it drains to. -/
def Cmd.feed (c : Cmd) : Option Nat :=
  let h := wordAt c.w 0
  if c.q = 0 ∧ hdrCmd h = 0x10 ∧ hdrFlags h % 2 = 1 then some (8 + hdrFlags h / 4 % 4) else none

def Cmd.drain (c : Cmd) : Option Nat :=
  let h := wordAt c.w 0
  if c.q = 0 ∧ hdrCmd h = 0x10 ∧ hdrFlags h / 2 % 2 = 1 then some (12 + hdrFlags h / 16 % 4) else none

/-- R91: a job card of the warp uses the feed or drain register. -/
def State.cardOn (s : State) (uid n : Nat) : Bool :=
  s.inFlight.any fun c => c.warp == uid && (c.feed == some n || c.drain == some n)

/-- R92: a held record is delivered to a register with room. -/
def State.deliverHeld (s : State) (uid n : Nat) : State :=
  match s.warpU uid with
  | none => s
  | some w =>
    if (w.e.getD n []).length ≥ 16 then s
    else
      match s.cores.findIdx? fun k => k.held.any fun h => h.1 == uid && h.2.1 == n with
      | none => s
      | some c =>
        match (s.core c).held.find? fun h => h.1 == uid && h.2.1 == n with
        | none => s
        | some r =>
          (s.modCore c fun k => { k with held := k.held.erase r }).modWarpU uid fun w => { w with
            e := w.e.modify n (· ++ [r.2.2]) }

/-- R91, R92: the record popped from E0 to E7: its value and the state after; none: the read blocks; error: illegal. -/
def State.popRecord (s : State) (w : Warp) (n : Nat) : Except Unit (Option (DWord × State)) :=
  match w.e.getD n [] with
  | r :: rest => .ok (some (r, (s.modWarpU w.uid fun v => { v with e := v.e.set n rest }).deliverHeld w.uid n))
  | [] =>
    if n = 7 then .ok (some (0, s))
    else if s.owed w.uid n then .ok none
    else .error ()

/-! ### Feeding and draining (R328) -/

/-- R328: entries that a fed card on an array takes from its register; `need` words make its tile. -/
def State.takeFeed (s : State) (core seq need : Nat) : State :=
  match ((s.core core).queues.getD 0 []).find? fun c => c.id == seq with
  | none => s
  | some c =>
    match c.feed, s.warpU c.warp with
    | some n, some w =>
      let have_ := w.e.getD n []
      let k := min have_.length (need - c.fed.length)
      let s := s.modWarpU c.warp fun v => { v with e := v.e.set n (have_.drop k) }
      s.modCore core fun q => { q with queues := q.queues.modify 0 (List.map fun (d : Cmd) =>
        if d.id == seq then { d with fed := d.fed ++ have_.take k } else d) }
    | _, _ => s

/-- R328: rows that a drained card puts into its register while it has room. -/
def State.putDrain (s : State) (core seq : Nat) : State :=
  match ((s.core core).queues.getD 0 []).find? fun c => c.id == seq with
  | none => s
  | some c =>
    match c.drain, s.warpU c.warp with
    | some n, some w =>
      let k := min c.rows.length (4 * entryWords w - (w.e.getD n []).length)
      let s := s.modWarpU c.warp fun v => { v with e := v.e.modify n (· ++ c.rows.take k) }
      s.modCore core fun q => { q with queues := q.queues.modify 0 (List.map fun (d : Cmd) =>
        if d.id == seq then { d with rows := d.rows.drop k } else d) }
    | _, _ => s

/-- The cards of a warp that use a register, by core and number. -/
def State.cardsOn (s : State) (uid n : Nat) : List (Nat × Nat) :=
  (s.inFlight.filter fun c => c.warp == uid && c.drain == some n).map fun c => (c.core, c.id)

/-! ### MOV (R124) -/

def popBody (i : Instr) (o : QPopOp) (x : Wx) (s : State) : Eff :=
  let n := o.e.toNat
  if n < 8 then
    match s.popRecord x.w n with
    | .error _ => .fault .illegalOperand 0 false
    | .ok none => .hold (s.holdHere x i n)
    | .ok (some (r, s)) => .done s (resultOf o.dst .b64 0 r) (some (pendOf .queue [] none)) []
  else
    let k := entryWords x.w
    let q := x.w.e.getD n []
    if q.length < k then
      (if s.cardOn x.w.uid n then .hold (s.holdHere x i n) else .fault .illegalOperand 0 false)
    else
      let s := s.modWarp x.core x.slot fun w => { w with e := w.e.set n (q.drop k) }
      let s := (s.cardsOn x.w.uid n).foldl (fun s c => s.putDrain c.1 c.2) s
      let word := fun l => let a := x.w.anchorOf l; fld (q.getD (a / 2) 0) (32 * (a % 2)) 32
      .done s (x.act.flatMap fun l => resultOf o.dst .b32 l (BitVec.ofNat 64 (word l))) (some (pendOf .queue [] none)) []

/-- MOV from a queue register (R124). -/
def execMovQueuePop (c : Ctl) (o : QPopOp) (s : State) : Host.Outcome State Fault Refusal :=
  runWord (infoQPop c o) (popBody (.movQueuePop c o) o) s

/-- R328: the entry that the active lanes make; a helper lane has no part in it (R40). (DEDUCED, log 96) -/
def Wx.entry (x : Wx) (a : Src) : List DWord :=
  (List.range (entryWords x.w)).map fun j =>
    let part := fun l => if x.thr.contains l then x.w.src32 l a .b32 else 0
    part (2 * j + 1) ++ part (2 * j)

def qpushBody (i : Instr) (o : QPushOp) (x : Wx) (s : State) : Eff :=
  let n := o.e.toNat
  let q := x.w.e.getD n []
  if q.length ≥ 4 * entryWords x.w then
    (if s.cardOn x.w.uid n then .hold (s.holdHere x i n) else .fault .illegalOperand 0 false)
  else
    .done (s.modWarp x.core x.slot fun w => { w with e := w.e.set n (q ++ x.entry o.a) }) [] (some (pendOf .queue [] none)) []

/-- MOV to a feed register (R124). -/
def execMovQueuePush (c : Ctl) (o : QPushOp) (s : State) : Host.Outcome State Fault Refusal :=
  runWord (infoQPush c o) (qpushBody (.movQueuePush c o) o) s

/-- A queue register read by MOVS (R290). -/
def movsQueueBody (i : Instr) (o : MovsOp) (x : Wx) (s : State) : Eff :=
  match s.popRecord x.w o.r.toNat with
  | .error _ => .fault .illegalOperand 0 false
  | .ok none => .hold (s.holdHere x i o.r.toNat)
  | .ok (some (r, s)) =>
    .done (x.thr.foldl (fun s l => s.rval x.w l x.run.pc r.toNat 0) s)
      (resultOf o.dst .b64 0 r) (some (pendOf .queue [] none)) []

/-- QUEUE_ACCESS_UNBLOCK (R91): the blocked access is made, once it would not block. -/
def execQueueAccessUnblock (core slot : Nat) (s : State) : Host.Outcome State Fault Refusal :=
  match s.warpAt core slot with
  | none => .next s
  | some w =>
    match w.hold with
    | none => .next s
    | some h =>
      match h.i with
      | .movQueuePop c o => .next ((s.unhold core slot false).redo core slot (infoQPop c o) (popBody h.i o))
      | .movQueuePush c o => .next ((s.unhold core slot false).redo core slot (infoQPush c o) (qpushBody h.i o))
      | .movs c o => .next ((s.unhold core slot false).redo core slot (infoMovs c o) (movsQueueBody h.i o))
      | _ => .next s

end Sys2Proof.Machine
end

