-- ==== Sys2Proof/Machine/CountBarrier.lean ====
section
/-! DEFINITION. Count barriers: CBARM, CBWAIT and what ends its wait (R383 to R386). -/

namespace Sys2Proof.Machine

/-- R384: the checks of the object's address. -/
def State.cbObject (s : State) (w : Warp) (a : Nat) (write : Bool) : Loc :=
  if a % 128 ≠ 0 then .fault .align
  else
    match regionOf a with
    | .dev =>
      (match s.locate w a write with
      | .line l off at_ nc => if attrCoh at_ = 2 ∨ attrLvl at_ = 2 then .line l off at_ nc else .fault .permission
      | r => r)
    | _ => .fault .permission

def cbarmBody (o : CbarmOp) (x : Wx) (s : State) : Eff :=
  if x.w.acquiring then .hold s
  else
    let a := (x.w.getS o.a.toNat).toNat
    let loc := s.cbObject x.w a true
    match s.ask x [loc] with
    | some s => .hold s
    | none =>
      match loc with
      | .line l off at_ nc =>
        let (s, ids) := s.addReqs x [⟨l, at_, nc, .cbArm off (x.w.src 0 o.t .b64) x.thr, [], x.thr⟩] (fun _ => .atHome) 0 false (x.deps .ar)
        .done s [] (some (pendOf .rmw ids (some .sys))) []
      | .fault c => .fault c a true
      | _ => .fault .permission a true

/-- CBARM (R385). -/
def execCbarm (c : Ctl) (o : CbarmOp) (s : State) : Host.Outcome State Fault Refusal := runWord (infoCbarm c o) (cbarmBody o) s

/-- R260, R386, R405: COUNT and TARGET, read together at the home, and whether they are poisoned. -/
def State.cbRead (s : State) (l : LineId) (off : Nat) (attr : BitVec 16) (ctx : Nat) : State × Nat × Nat × Bool :=
  let (s, d, p) := s.agentRead l attr ctx
  (s, leNat (slice d off 8), leNat (slice d (off + 8) 8), p &&& touched off 16 != 0)

/-- The replay record of a CBWAIT. -/
def State.rvalCb (s : State) (w : Warp) (lanes : List Nat) (pc : Word) (v : Nat) : State :=
  lanes.foldl (fun s l => s.rval w l pc v 0) s

def cbwaitBody (i : Instr) (o : CbwaitOp) (x : Wx) (s : State) : Eff :=
  if x.w.acquiring then .hold s
  else
    let a := (x.w.getS o.a.toNat).toNat
    let n := min (x.w.src 0 o.n .n64).toNat (2 ^ 40)
    let loc := s.cbObject x.w a false
    match s.ask x [loc] with
    | some s => .hold s
    | none =>
      match loc with
      | .line l off at_ _ =>
        if s.lineBusy x.core l || !s.homeFree l then .hold s
        else
          let (s, c, g, bad) := s.cbRead l off at_ x.g.ctx
          if bad then .done s [] (some (pendOver .load)) (x.thr.map fun l => ⟨l, .machineCheck, a⟩)
          else if c ≥ g then
            .done ((s.rvalCb x.w x.thr x.run.pc 1).dropSelf x.core) [⟨.c o.cd.toNat, 0, 1⟩] (some (pendOver .load)) []
          else if n = 0 then .done (s.rvalCb x.w x.thr x.run.pc 0) [⟨.c o.cd.toNat, 0, 0⟩] (some (pendOver .load)) []
          else .ends ((s.stand x).modWarp x.core x.slot fun w => { w with
            hold := some ⟨i, x.run.lanes, x.run.pc, s.gtime, s.clkOf x.core, n, a, false, none⟩ }) [] (some (pendOf .held [] none))
      | .fault c => .fault c a true
      | _ => .fault .permission a true

/-- CBWAIT (R386). -/
def execCbwait (c : Ctl) (o : CbwaitOp) (s : State) : Host.Outcome State Fault Refusal :=
  runWord (infoCbwait c o) (cbwaitBody (.cbwait c o) o) s

/-- R386: a read of its object by a held CBWAIT, once the home can serve it (R224); how often it reads before the read that ends it is left
out. (DESIGN CHOICE, log 114) -/
def State.cbLook (s : State) (w : Warp) (h : Hold) : Option (State × Nat × Nat × Bool) :=
  match s.engPlace (w.core / 64) (s.ctxOf w) h.seen false with
  | .line l off at_ _ => if s.homeFree l then some (s.cbRead l off at_ (s.ctxOf w)) else none
  | _ => none

/-- R405: the object is poisoned: the lanes of the wait fault. -/
def State.cbPoison (s : State) (w : Warp) (h : Hold) : State :=
  (s.modWarp w.core w.slot fun w => { w.endHeld with hold := none }).raiseLanes w.uid h.pc (h.lanes.map fun l => ⟨l, .machineCheck, h.seen⟩)

/-- R386: the wait is over with a value of Cd. -/
def Warp.cbEnd (w : Warp) (h : Hold) (o : CbwaitOp) (v : DWord) (now : Nat) : Warp := (w.put 0 (.c o.cd.toNat) v).goOn h now

/-- CBWAIT_SATISFIED (R386): Cd := 1, as an acquire. -/
def execCbwaitSatisfied (core slot : Nat) (s : State) : Host.Outcome State Fault Refusal :=
  match s.warpAt core slot with
  | none => .next s
  | some w =>
    match w.hold with
    | none => .next s
    | some h =>
      match h.i with
      | .cbwait _ o =>
        match s.cbLook w h with
        | some (t, c, g, bad) =>
          if bad then .next (t.cbPoison w h)
          else if c ≥ g then .next (((t.rvalCb w h.lanes h.pc 1).dropSelf core).modWarp core slot fun w => w.cbEnd h o 1 s.gtime)
          else .next s
        | none => .next s
      | _ => .next s

/-- CBWAIT_TIMEOUT (R386): Cd := 0. -/
def execCbwaitTimeout (core slot : Nat) (s : State) : Host.Outcome State Fault Refusal :=
  match s.warpAt core slot with
  | none => .next s
  | some w =>
    match w.hold with
    | none => .next s
    | some h =>
      match h.i with
      | .cbwait _ o =>
        match s.cbLook w h with
        | some (t, c, g, bad) =>
          if !bad ∧ c < g ∧ s.gtime ≥ h.t0 + h.n then .next ((t.rvalCb w h.lanes h.pc 0).modWarp core slot fun w => w.cbEnd h o 0 s.gtime)
          else .next s
        | none => .next s
      | _ => .next s

end Sys2Proof.Machine
end

