-- ==== Sys2Proof/Machine/Regroup.lean ====
section
/-! DEFINITION. REGRP and REGRPB: arrival (R299, R300), relocation (R301, R302, R304) and its failure. -/

namespace Sys2Proof.Machine

/-! ### Arrival -/

/-- R299: the active threads of the group arrive and are held. -/
def State.regArrive (s : State) (x : Wx) (a : Arrival) (key : Nat → Nat) : State :=
  let s := s.modWarp x.core x.slot fun w =>
    let w := w.modLanes x.run.lanes fun l => { l with pc := x.next }
    { w with
      lanes := w.lanes.zipIdx.map fun (l, i) => if x.thr.contains i then { l with st := .regroup, rkey := key i } else l
      arr := w.arr <|> some a }
  s.fixDomain x.core x.slot

/-- R300: an arrival must agree with those made before it in its domain, by warps that a stop has saved as well. -/
def State.agrees (s : State) (w : Warp) (a : Arrival) : Bool :=
  ((s.warps.filter fun v => v.core == w.core) ++ s.savedWarps w.core).all fun v =>
    match v.arr with
    | none => true
    | some b =>
      v.grid != w.grid || v.dom != w.dom || (w.dom.isNone && v.team != w.team && !a.core && !b.core) ||
        (b.back == a.back && b.core == a.core && b.vl == a.vl && b.n == a.n && b.sl == a.sl && b.m == a.m)

/-- REGRP (R299, R300); a mixed warp, which has a KEY as well, raises MIXED_BARRIER for `.TEAM`. (DEDUCED, log 98) -/
def execRegrp (c : Ctl) (o : RegrpOp) (s : State) : Host.Outcome State Fault Refusal :=
  runWord (infoRegrp c o) (fun x s =>
    let a : Arrival := ⟨false, o.core, o.vl.toNat, o.n.toNat, o.sl.toNat, o.m.toNat, false⟩
    if !o.core && x.w.mixed then .fault .mixedBarrier 0 false
    else if x.w.key != BitVec.allOnes 64 then .fault .illegalOperand 0 false
    else if !s.agrees x.w a then .fault .illegalOperand 0 false
    else .ends (s.regArrive x a fun l => (x.w.src32 l (.v o.vk .plain) .n32).toNat % 2 ^ 16) [] none) s

/-- REGRPB (R304). -/
def execRegrpb (c : Ctl) (o : RegrpbOp) (s : State) : Host.Outcome State Fault Refusal :=
  runWord (infoRegrpb c o) (fun x s =>
    let a : Arrival := ⟨true, false, o.vl.toNat, o.n.toNat, o.sl.toNat, o.m.toNat, false⟩
    if x.w.key == BitVec.allOnes 64 then .fault .illegalOperand 0 false
    else if !s.agrees x.w a then .fault .illegalOperand 0 false
    else .ends (s.regArrive x a fun _ => 0) [] none) s

/-- R299: the warp's commands, press operations and tokens are complete. (DEDUCED, log 50) -/
def State.regReady (s : State) (w : Warp) : Bool :=
  w.arrivedAll && w.tokensClear && w.pend.all (fun p => p.wb) && !(s.inFlight.any fun c => c.warp == w.uid) &&
  !(s.pmodes.any fun p => p.warp == w.uid) && !(s.bins.any fun b => b.ops.any fun o => o.warp == w.uid)

/-- R299, R306: every warp that remains in the domain has arrived, and none is saved: relocation starts, whether the last to arrive or
the exit of the last that had not made it so. -/
def State.domReady (s : State) (id : Nat) : Bool :=
  let ws := s.domWarps id
  let open_ := (s.sch.doms.find? fun d => d.id == id).any fun d => d.waits.any fun i => s.sch.doms.any fun e => e.id == i
  !ws.isEmpty && !open_ && !(s.teams.any fun t => t.warps.any fun w => w.dom == some id) && ws.all fun w => match w.arr with
    | some a => a.counted
    | none => false

/-- REGRP_ARRIVAL (R299): a warp's arrival counts. -/
def execRegrpArrival (core slot : Nat) (s : State) : Host.Outcome State Fault Refusal :=
  match s.warpAt core slot with
  | none => .next s
  | some w =>
    if !s.regReady w then .next s
    else
      .next ((s.fixDomain core slot).modWarp core slot fun w => { w with
        arr := w.arr.map fun (a : Arrival) => { a with counted := true } })

/-! ### Packing (R301) -/

/-- A thread that has arrived: its key, team and thread numbers, and where it was. -/
structure Rider where
  key : Nat
  teamId : Nat
  thread : Nat
  warp : Nat
  lane : Nat
  deriving DecidableEq, Repr

def Rider.le (a b : Rider) : Bool :=
  decide (a.key < b.key) || (a.key == b.key && (decide (a.teamId < b.teamId) ||
    (a.teamId == b.teamId && decide (a.thread ≤ b.thread))))

/-- The threads of warps that have not exited. -/
def State.riders (s : State) (ws : List Warp) : List Rider :=
  ws.flatMap fun w => (w.threads.filter fun i => (w.lane i).st != .exited).map fun i =>
    let l := w.lane i
    ⟨l.rkey, match s.team l.team with
      | some t => t.teamId
      | none => 0, l.thread, w.uid, i⟩

/-- R301: warps that the keys of `rs` need when no warp holds two keys. -/
def uni (w : Nat) (rs : List Rider) : Nat :=
  (((rs.map Rider.key).eraseDups).map fun k => ((rs.filter fun r => r.key == k).length + w - 1) / w).sum

/-- R301: the packing: one list of riders for each formed warp; `left` slots remain. -/
def packWarps (w : Nat) : Nat → Nat → List Rider → List (List Rider)
  | 0, _, _ => []
  | fuel + 1, left, rs =>
    match rs with
    | [] => []
    | r :: _ =>
      let j := min w rs.length
      let e := (rs.findIdx? fun q => q.key != r.key).getD rs.length
      let j := if e < j ∧ uni w (rs.drop e) + 1 ≤ left then e else j
      rs.take j :: packWarps w fuel (left - 1) (rs.drop j)

/-! ### Building warps -/

/-- R38: helper and absent lanes among lanes some of which hold threads. -/
def kindAt (has : Nat → Bool) (i : Nat) : LaneKind :=
  if has i then .thread
  else
    match [i / 4 * 4, i / 4 * 4 + 1, i / 4 * 4 + 2, i / 4 * 4 + 3].find? has with
    | some a => .helper a
    | none => .absent

/-- R39: helper lanes copy their anchor's registers and predicates. -/
def fillHelpers (ls : List Lane) : List Lane :=
  ls.map fun l => match l.kind with
    | .helper a =>
      let q := ls.getD a Lane.void
      { l with v := q.v, p := q.p, st := if q.st == .exited then .exited else .ready, thread := 0xFFFFFFFF, team := q.team }
    | _ => l

/-- R301: a register file outside its live set reads poison. -/
def poisonV (v : List Word) (lo n : Nat) : List Word :=
  v.zipIdx.map fun (x, i) => if lo ≤ i ∧ i < lo + n then x else 0x7FC0DEAD

/-- S registers outside the moved window read the poison of R301 in each half (DEDUCED, log 25). -/
def poisonS (v : List DWord) (lo n : Nat) : List DWord :=
  v.zipIdx.map fun (x, i) => if lo ≤ i ∧ i < lo + n then x else 0x7FC0DEAD7FC0DEAD

/-- A lane moved by a relocation. -/
def movedLane (l : Lane) (a : Arrival) : Lane := { l with st := .ready, v := poisonV l.v a.vl a.n }

/-- A warp made from another's scalar state (R301). -/
def Warp.reform (src : Warp) (uid slot idx team : Nat) (a : Arrival) (lanes : List Lane) (now : Nat) : Warp :=
  { src with
    uid := uid, slot := slot, idx := idx, team := team, lanes := lanes
    s := poisonS src.s a.sl a.m
    wst := src.wst &&& 0x15#5
    tok := List.replicate 6 []
    e := src.e.map fun _ => []
    run := none, hold := none, flight := [], pend := [], nextEv := 0, sync := none, arr := none
    efaults := [], cmdsDone := 0, readyAt := now, streak := 0, rgnFirst := true, walked := [] }

/-- R301: to which new warp an old warp's records go: the first whose scalar state it supplies, else the one that holds its
lowest thread. `srcs`: the old warp of each new one; `where_`: the new warp of an old warp's lowest thread. -/
def recordHome (srcs : List Nat) (old : Nat) (where_ : Nat) : Nat := (srcs.findIdx? fun u => u == old).getD where_

/-- Records and unreported engine faults move with their old warps: first those of the warp that supplies the scalar
state, then the others; all of them, beyond a register's depth as well. (DESIGN CHOICE, log 99) -/
def giveRecords (news : List Warp) (olds : List (Warp × Nat)) (srcs : List Nat) : List Warp :=
  news.zipIdx.map fun (n, i) =>
    let mine := olds.filter fun o => recordHome srcs o.1.uid o.2 == i
    let order := (mine.filter fun o => some o.1.uid == srcs[i]?) ++ mine.filter fun o => some o.1.uid != srcs[i]?
    { n with
      e := (List.range 16).map fun k => if k < 8 then order.flatMap fun o => o.1.e.getD k [] else []
      efaults := order.flatMap fun o => o.1.efaults
      walked := [] }

/-- The new warps take the places of the old; held records follow (R92). -/
def State.replaceWarps (s : State) (olds : List (Warp × Nat)) (news : List Warp) (srcs : List Nat) : State :=
  let gone := olds.map fun o => o.1.uid
  let moved := fun (h : Nat × Nat × DWord) =>
    match olds.find? fun o => o.1.uid == h.1 with
    | some o => ((news.map Warp.uid).getD (recordHome srcs o.1.uid o.2) h.1, h.2)
    | none => h
  { s with
    warps := s.warps.filter (fun w => !gone.contains w.uid) ++ news
    cores := s.cores.map fun (k : Core) => { k with held := k.held.map moved } }

/-- The old warp and lane of a rider. -/
def riderLane (ws : List Warp) (r : Rider) : Lane :=
  match ws.find? fun w => w.uid == r.warp with
  | some w => w.lane r.lane
  | none => Lane.void

/-- R301: the index of the list that holds an old warp's lowest thread. -/
def lowestHome (packs : List (List Rider)) (u : Nat) : Nat :=
  match leastBy Rider.thread (packs.flatten.filter fun r => r.warp == u) with
  | some r => (packs.findIdx? fun p => p.contains r).getD 0
  | none => 0

/-- R301: REGRP's relocation. (DEDUCED, log 50) -/
def State.relocate (s : State) (d : Domain) : State :=
  let ws := s.domWarps d.id
  match ws.head? with
  | none => s
  | some w0 =>
    let a := w0.arr.getD ⟨false, false, 0, 0, 0, 0, true⟩
    let slots := (ws.map Warp.slot).mergeSort
    let packs := packWarps w0.w slots.length slots.length ((s.riders ws).mergeSort Rider.le)
    let srcs := packs.map fun p => (p.head?.map Rider.warp).getD w0.uid
    let news := packs.zipIdx.map fun (p, f) =>
      let src := (ws.find? fun w => some w.uid == srcs[f]?).getD w0
      let has := fun i => decide (i < p.length)
      let lanes := fillHelpers ((List.range w0.w).map fun i =>
        match p[i]? with
        | some r => movedLane (riderLane ws r) a
        | none => { Lane.void with kind := kindAt has i })
      let w := src.reform (s.uid + f) (slots.getD f 0) f (lanes.headD Lane.void).team a lanes s.gtime
      let mix := decide (((p.map Rider.key).eraseDups).length > 1)
      let teams := decide (((lanes.filter fun l => l.kind.isThread).map Lane.team).eraseDups.length > 1)
      { (w.setKeymix mix).setMixed teams with key := BitVec.ofNat 64 ((p.head?.map Rider.key).getD 0), dom := some d.id }
    let olds := ws.map fun w => (w, lowestHome packs w.uid)
    let s := ({ s with uid := s.uid + news.length }).replaceWarps olds (giveRecords news olds srcs) srcs
    let s := { s with sch := { s.sch with doms := s.sch.doms.map fun (e : Domain) =>
      if e.id == d.id then { e with slots := slots, back := true } else e } }
    (s.dropSelf d.core).count d.core 0x0D 1

/-- R304: the riders of each warp of the original packing that still has threads, in slot order. -/
def State.origPacks (s : State) (d : Domain) (w : Nat) (rs : List Rider) : List ((Nat × Nat) × List Rider) :=
  (d.orig.mergeSort (fun a b => decide (a.2.2 ≤ b.2.2))).filterMap
    fun (team, idx, _) =>
      let mine := rs.filter fun r =>
        r.thread / w == idx && (match s.team team with
          | some t => t.teamId == r.teamId
          | none => false)
      if mine.isEmpty then none else some ((team, idx), mine)

/-- R299: the domain into which the warps of another come back. (DEDUCED, log 98) -/
def State.outerOf (s : State) (d : Domain) : Option Nat := (s.sch.doms.find? fun e => e.waits.contains d.id).map Domain.id

/-- R299: a domain has ended: its warps, as they now stand, join the domain that waits for them. (DEDUCED, log 98) -/
def State.endDomain (s : State) (d : Domain) (ws : List Warp) : State :=
  let out := s.outerOf d
  let next := fun (i : Nat) => if i = d.id then out.getD d.id else i
  let join := fun (e : Domain) =>
    if some e.id == out then { e with
      slots := (e.slots ++ ws.map Warp.slot).mergeSort, orig := e.orig ++ ws.map fun w => (w.team, w.idx, w.slot)
      waits := e.waits.filter fun i => i != d.id }
    else { e with waits := e.waits.map next }
  { s with sch := { s.sch with doms := (s.sch.doms.filter fun e => e.id != d.id).map join } }

/-- R304: REGRPB's relocation. (DEDUCED, log 50) -/
def State.restorePacking (s : State) (d : Domain) : State :=
  let ws := s.domWarps d.id
  match ws.head? with
  | none => s
  | some w0 =>
    let a := w0.arr.getD ⟨true, false, 0, 0, 0, 0, true⟩
    let dim := (s.gridOf w0.grid).f.teamdim
    let packs := s.origPacks d w0.w (s.riders ws)
    let lists := packs.map Prod.snd
    let srcs := lists.map fun p => ((leastBy Rider.thread p).map Rider.warp).getD w0.uid
    let news := packs.zipIdx.map fun (((team, idx), p), f) =>
      let src := (ws.find? fun w => some w.uid == srcs[f]?).getD w0
      let has := fun i => decide (idx * w0.w + i < dim)
      let lanes := fillHelpers ((List.range w0.w).map fun i =>
        match p.find? fun r => r.thread % w0.w == i with
        | some r => movedLane (riderLane ws r) a
        | none => { Lane.void with kind := kindAt has i, thread := idx * w0.w + i, team := team, v := w0.lanes.headD Lane.void |>.v,
                                   k := List.replicate 8 none, kRec := List.replicate 8 none })
      let w := src.reform (s.uid + f) (d.slots.getD f 0) idx team a lanes s.gtime
      { (w.setKeymix false).setMixed false with key := BitVec.allOnes 64, dom := s.outerOf d }
    let olds := ws.map fun w => (w, lowestHome lists w.uid)
    let s := ({ s with uid := s.uid + news.length }).replaceWarps olds (giveRecords news olds srcs) srcs
    ((s.endDomain d news).dropSelf d.core).count d.core 0x0D 1

/-- R302: an uncorrectable error: the packing stands, and every arrived lane receives MACHINE_CHECK. -/
def State.relocFails (s : State) (d : Domain) (slot reg : Nat) : State :=
  let ws := s.domWarps d.id
  let out := s.outerOf d
  let s := if d.back then s else s.endDomain d ws
  let ctx := (ws.head?.map s.ctxOf).getD 0xFF
  let s := s.machineRecord ctx 5 reg (d.core + slot % 64 * 256)
  ws.foldl (fun s w =>
    let held := w.threads.filter fun i => (w.lane i).st == .regroup
    let s := s.modWarp w.core w.slot fun w => { w with arr := none, dom := if d.back then w.dom else out }
    let pc := (held.head?.map fun i => (w.lane i).pc - 1).getD 0
    s.trap w.uid held none (e7Word pc (held.headD 0) .machineCheck)) s

/-- RELOCATION_COMPLETION (R302): all or nothing. -/
def execRelocationCompletion (dom : Nat) (err : Option (Nat × Nat)) (s : State) : Host.Outcome State Fault Refusal :=
  match s.sch.doms.find? fun d => d.id == dom with
  | none => .next s
  | some d =>
    if !s.domReady dom then .next s
    else
      match err with
      | some (slot, reg) => .next (s.relocFails d slot reg)
      | none => .next (if d.back then s.restorePacking d else s.relocate d)

end Sys2Proof.Machine
end

