-- ==== Sys2Proof/Machine/Completion.lean ====
section
/-! DEFINITION. What the completion of any command does: its tag, its status record, its fault (R92, R282, R285, R313, R315),
and its trace (R389, R394, R397). -/

namespace Sys2Proof.Machine

/-- R92: a status record. -/
def statusRecord (seq tag status detail : Nat) : DWord :=
  BitVec.ofNat 64 (tag % 64 + status % 256 * 2 ^ 8 + detail % 2 ^ 16 * 2 ^ 16 + seq % 2 ^ 32 * 2 ^ 32)

/-- What a completion names: engine, core, the core that accepted the command, warp, team, tag, CMDSEQ and PC of the PUSH. -/
structure Who where
  q : Nat
  core : Nat
  home : Nat
  warp : Nat
  team : Nat
  tag : Nat
  seq : Nat
  pc : Word
  deriving DecidableEq, Repr

/-- R92: the record enters its register, or is held by the engine. -/
def State.pushRecord (s : State) (k : Who) (r : DWord) : State :=
  match s.warpU k.warp with
  | none => s.modWarpU k.warp fun w => { w with e := w.e.modify k.q (· ++ [r]) }
  | some w =>
    if (w.e.getD k.q []).length < 16 then s.modWarpU k.warp fun w => { w with e := w.e.modify k.q (· ++ [r]) }
    else s.modCore k.core fun c => { c with held := c.held ++ [(k.warp, k.q, r)] }

/-- R397: a breakpoint on (PC, CMDSEQ) stops the issuing warp at its next run boundary. -/
def State.breakOnCommand (s : State) (k : Who) : State :=
  match s.anyWarp k.warp with
  | none => s
  | some w =>
    if !s.debugged w then s
    else
      match s.trace.bps.findIdx? fun b => b.mode == 2 && b.core == k.home && b.pc == k.pc.toNat && b.seq == k.seq &&
          b.code == (s.gridOf w.grid).f.code with
      | some j => s.modWarpU k.warp fun w => w.wantStop (1, j, BitVec.ofNat 64 j)
      | none => s

/-- R285: an engine fault: its E7 record, also of a warp that is saved, and the fault that a wait will raise. -/
def State.engineFault (s : State) (k : Who) (c : Code) : State :=
  let r := e7Word k.pc k.seq c
  match s.anyWarp k.warp with
  | some w => (s.recordFault w [] r).modWarpU k.warp fun w => { w with efaults := w.efaults ++ [⟨k.tag, c, k.seq, k.pc⟩] }
  | none =>
    match s.team k.team with
    | some t => s.modGrid t.grid fun g => { g with unreported := true }
    | none => s

/-- R44, R92, R285, R287, R313, R315: a command, or a chunk of one, completes. Each of these, a chunk's and a PMODE's too, counts as the
completion that ends a NAP (R137). (DESIGN CHOICE, log 107) -/
def State.report (s : State) (k : Who) (status detail : Nat) : State :=
  let ctx := match s.team k.team with
    | some t => (s.gridOf t.grid).ctx
    | none => 0
  let dead := match s.team k.team with
    | some t => (s.gridOf t.grid).aborted
    | none => true
  let r := statusRecord k.seq k.tag status detail
  let s := s.setTags k.team (1#64 <<< k.tag)
  let s := if dead then s else s.pushRecord k r
  let s := s.modWarpU k.warp fun w => { w with cmdsDone := w.cmdsDone + 1 }
  let s := s.traceCore 3 k.core ctx 6 (k.pc.toNat + k.seq * 2 ^ 32) r.toNat 0
  let s := if s.captured k.team then
      s.traceRec 0 [traceHead 0x0B ctx (k.core / 64) (k.core % 64) (s.die (k.core / 64)).clk 0, k.tag + k.seq * 2 ^ 32, r.toNat, 0]
    else s
  let s := s.breakOnCommand k
  if dead then s
  else
    match codeOf status with
    | some c => s.engineFault k c
    | none => s

end Sys2Proof.Machine
end

