-- ==== Sys2Proof/Machine/Press.lean ====
section
/-! DEFINITION. Press mode: bins, press operations, PMODE and PSYNC (R339 to R348). -/

namespace Sys2Proof.Machine

def State.bin (s : State) (b : Nat) : Bin := s.bins.getD b ⟨.cache, 0, [], []⟩
def State.modBin (s : State) (b : Nat) (f : Bin → Bin) : State := { s with bins := s.bins.modify b f }

/-! ### Vectors (R341) -/

/-- R341: a descriptor's bin and vector, or its refusal. -/
def descOf (x : DWord) : Option (Nat × PVec) :=
  let b := fld x 24 5
  let w := fld x 16 6
  let r := fld x 0 10
  if fld x 29 35 ≠ 0 ∨ fld x 22 2 ≠ 0 ∨ fld x 10 6 ≠ 0 ∨ b > 23 ∨ w = 0 ∨ w > 32 ∨ r + w > 1008 then none
  else some (b, ⟨r, w⟩)

/-- Descriptors of one instruction: all of one bin. -/
def descsOf (xs : List DWord) : Option (Nat × List PVec) :=
  match xs.mapM descOf with
  | some ((b, v) :: r) => if r.all fun p => p.1 == b then some (b, v :: r.map Prod.snd) else none
  | _ => none

/-- A row of a bin; a row that is not listed is 0. -/
def rowAt : List (Nat × BitVec 262144) → Nat → BitVec 262144
  | [], _ => 0
  | (k, x) :: r, n => if k = n then x else rowAt r n

/-- A row is set, in the order of row numbers; rows of 0 are not listed. -/
def setRow (rows : List (Nat × BitVec 262144)) (n : Nat) (x : BitVec 262144) : List (Nat × BitVec 262144) :=
  let r := rows.filter fun p => p.1 != n
  if x = 0 then r else r.takeWhile (fun p => decide (p.1 < n)) ++ (n, x) :: r.dropWhile fun p => decide (p.1 < n)

/-- R341: the bits of element `l`. -/
def elemBits (rows : List (Nat × BitVec 262144)) (v : PVec) (l : Nat) : Nat :=
  ((List.range v.w).map fun i => if (rowAt rows (v.row + i)).getLsbD l then 2 ^ i else 0).sum

/-- R344: ext(V). -/
def elem (rows : List (Nat × BitVec 262144)) (sg : Bool) (v : PVec) (l : Nat) : Int :=
  if sg then sgn v.w (elemBits rows v l) else elemBits rows v l

/-- The number with bit `l` as `f` says, for `l` below `n`. -/
def bitsNat (f : Nat → Bool) : Nat → Nat
  | 0 => 0
  | n + 1 => bitsNat f n + (if f n then 2 ^ n else 0)

/-- R341: element `l` of a vector becomes the low bits of `f l`. -/
def setVec (rows : List (Nat × BitVec 262144)) (d : PVec) (f : Nat → Nat) : List (Nat × BitVec 262144) :=
  (List.range d.w).foldl (fun r i => setRow r (d.row + i) (BitVec.ofNat 262144 (bitsNat (fun l => (f l).testBit i) 262144))) rows

/-! ### Operations (R344) -/

/-- The second source. -/
def srcB (rows : List (Nat × BitVec 262144)) (sg : Bool) (b : PSrc) (l : Nat) : Int :=
  match b with
  | .vec v => elem rows sg v l
  | .const c => c

/-- A bitwise operation of integers, on `n` bits of their two's complement. -/
def bitInt (n : Nat) (f : Nat → Nat → Nat) (a b : Int) : Int := f (wrapN n a) (wrapN n b)

/-- R344: x of an element. -/
def pressElem (rows : List (Nat × BitVec 262144)) (o : POp) (l : Nat) : Int :=
  let a := elem rows o.sgn o.a l
  let b := srcB rows o.sgn o.b l
  match o.kind with
  | .add => a + b
  | .sub => a - b
  | .mul => a * b
  | .and => bitInt 64 (· &&& ·) a b
  | .or => bitInt 64 (· ||| ·) a b
  | .xor => bitInt 64 (· ^^^ ·) a b
  | .not => -a - 1
  | .cmp c => if cmpInt c a b then 1 else 0
  | .sel m => if elemBits rows m l % 2 = 1 then a else b
  | .sat lo hi => min (max a lo) hi
  | .shl n => if n ≥ o.d.w then 0 else a * 2 ^ n
  | .shr n => if n ≥ o.a.w then (if o.sgn && decide (a < 0) then -1 else 0) else a / 2 ^ n
  | .cnt _ | .xin .. | .xout .. => 0

/-- R346: bytes of an element in memory. -/
def elemSize (w : Nat) : Nat := if w ≤ 8 then 1 else if w ≤ 16 then 2 else 4

/-- R215, R225, R346: physical lines read at the homes, each with its sectors' poison. -/
def State.readLines (s : State) (ctx : Nat) (lines : List (Nat × BitVec 16)) : State × List (List Byte × BitVec 4) :=
  lines.foldl (fun (s, acc) (p, a) =>
    let (s, d, q) := s.agentRead (.dev p) a ctx
    (s, acc ++ [(d, q)])) (s, [])

/-- R405: byte `a` of lines read lies in a poisoned sector. -/
def linesPoison (ls : List (List Byte × BitVec 4)) (a : Nat) : Bool :=
  match ls[a / 128]? with
  | some (_, q) => q.getLsbD (a % 128 / 32)
  | none => false

/-- R215, R346: bytes written over a sequence of physical lines, at the homes. -/
def State.writeLines (s : State) (off : Nat) (b : List Byte) : List (Nat × BitVec 16) → State
  | [] => s
  | (p, a) :: r =>
    if b.isEmpty then s
    else
      let n := min b.length (128 - off)
      (s.agentWrite (.dev p) a off (b.take n)).writeLines 0 (b.drop n) r

/-- R346: what PXIN puts into element `l`: nothing beyond its count; a free value where the sector read was poisoned. -/
def xinElem (fresh n off e w : Nat) (ls : List (List Byte × BitVec 4)) (l : Nat) : Nat :=
  if n ≤ l then 0
  else if linesPoison ls (off + e * l) then (Config.freeWord (fresh + l)).toNat % 2 ^ w
  else leNat (slice (ls.flatMap Prod.fst) (off + e * l) e) % 2 ^ w

/-- R346: the bytes that PXOUT writes. -/
def xoutBytes (rows : List (Nat × BitVec 262144)) (n e : Nat) (d : PVec) : List Byte :=
  (List.range n).flatMap fun l => leBytes e (elemBits rows d l)

/-- R215, R344, R346: an accepted operation is performed: the bin's rows, memory, and PCNT's result. What PXIN takes from a
poisoned sector is free. (DEDUCED, log 90; DESIGN CHOICE, log 65) -/
def State.pressPerform (s : State) (b : Nat) (o : POp) : State × Option DWord :=
  let rows := (s.bin b).rows
  match o.kind with
  | .cnt _ =>
    let n := ((List.range 262144).filter fun l => elem rows o.sgn o.a l != 0).length
    (s, some (BitVec.ofNat 64 n))
  | .xin n off lines =>
    let (s, ls) := s.readLines o.ctx lines
    ({ s.modBin b (fun q => { q with rows := setVec q.rows o.d (xinElem s.fresh n off (elemSize o.d.w) o.d.w ls) }) with
       fresh := s.fresh + n }, none)
  | .xout n off lines => (s.writeLines off (xoutBytes rows n (elemSize o.d.w) o.d) lines, none)
  | _ => (s.modBin b fun q => { q with rows := setVec q.rows o.d fun l => wrapN o.d.w (pressElem rows o l) }, none)

/-! ### Acceptance (R343) -/

/-- R343: the bin takes the operation. -/
def State.acceptPress (s : State) (x : Wx) (b : Nat) (o : POp) : Eff :=
  let id := s.mem.nextId
  let s := s.modMem fun m => { m with nextId := id + 1 }
  .done ((s.modBin b fun q => { q with ops := q.ops ++ [{ o with pend := id }] }).count x.core 0x10 1) []
    (some (pendOf .press [id] none)) []

/-- R343, R346: an operation whose checks have passed is offered to its bin; held, it is kept as it is. -/
def State.offerOp (s : State) (x : Wx) (i : Instr) (b : Nat) (o : POp) : Eff :=
  let q := s.bin b
  if q.st != .press || q.owner != x.g.ctx then .fault .pressMode 0 false
  else if q.ops.length ≥ 32 then
    .hold ((s.holdHere x i b).modWarp x.core x.slot fun w => { w with hold := w.hold.map fun (h : Hold) => { h with pop := some o } })
  else s.acceptPress x b o

/-- R343: the operation is offered to its bin. -/
def State.offer (s : State) (x : Wx) (i : Instr) (b : Nat) (k : POpKind) (sg : Bool) (d a : PVec) (src : PSrc) : Eff :=
  s.offerOp x i b ⟨x.w.uid, x.w.team, x.g.ctx, 0, k, sg, d, a, src⟩

/-- R342: a constant operand. -/
def Wx.const (x : Wx) (a : Src) (sg : Bool) : Int :=
  let v := x.w.src 0 a .b64
  if sg then v.toInt else v.toNat

/-- The vectors of an instruction, then the rest of it. -/
def Wx.vectors (x : Wx) (rs : List (BitVec 8)) (f : Nat → List PVec → Eff) : Eff :=
  match descsOf (rs.map fun r => x.w.getS r.toNat) with
  | none => .fault .illegalOperand 0 false
  | some (b, vs) => f b vs

/-- A two-source operation. -/
def press2 (i : Instr) (k : POpKind) (sg : Bool) (o : Press2) (x : Wx) (s : State) : Eff :=
  let regs := match o.b with
    | .s n _ => if o.k then [o.d, o.a] else [o.d, o.a, n]
    | _ => [o.d, o.a]
  x.vectors regs fun b vs =>
    match vs with
    | [d, a] => s.offer x i b k sg d a (.const (x.const o.b sg))
    | [d, a, c] => s.offer x i b k sg d a (.vec c)
    | _ => .fault .illegalOperand 0 false

/-- PADD (R344). -/
def execPadd (c : Ctl) (o : Press2) (s : State) : Host.Outcome State Fault Refusal :=
  runWord (infoPress2 c o) (press2 (.padd c o) .add o.sgn o) s

/-- PSUB (R344). -/
def execPsub (c : Ctl) (o : Press2) (s : State) : Host.Outcome State Fault Refusal :=
  runWord (infoPress2 c o) (press2 (.psub c o) .sub o.sgn o) s

/-- PMUL (R344). -/
def execPmul (c : Ctl) (o : Press2) (s : State) : Host.Outcome State Fault Refusal :=
  runWord (infoPress2 c o) (press2 (.pmul c o) .mul o.sgn o) s

/-- PAND (R344). -/
def execPand (c : Ctl) (o : Press2) (s : State) : Host.Outcome State Fault Refusal :=
  runWord (infoPress2 c o) (press2 (.pand c o) .and false o) s

/-- POR (R344). -/
def execPor (c : Ctl) (o : Press2) (s : State) : Host.Outcome State Fault Refusal :=
  runWord (infoPress2 c o) (press2 (.por c o) .or false o) s

/-- PXOR (R344). -/
def execPxor (c : Ctl) (o : Press2) (s : State) : Host.Outcome State Fault Refusal :=
  runWord (infoPress2 c o) (press2 (.pxor c o) .xor false o) s

def pnotBody (i : Instr) (o : Press1) (x : Wx) (s : State) : Eff :=
  x.vectors [o.d, o.a] fun b vs =>
    match vs with
    | [d, a] => s.offer x i b .not false d a (.const 0)
    | _ => .fault .illegalOperand 0 false

/-- PNOT (R344). -/
def execPnot (c : Ctl) (o : Press1) (s : State) : Host.Outcome State Fault Refusal :=
  runWord (infoPress1 c o) (pnotBody (.pnot c o) o) s

def pcmpBody (i : Instr) (o : PcmpOp) (x : Wx) (s : State) : Eff :=
  press2 i (.cmp o.cmp) o.sgn ⟨o.sgn, o.k, o.d, o.a, o.b⟩ x s

/-- PCMP (R344). -/
def execPcmp (c : Ctl) (o : PcmpOp) (s : State) : Host.Outcome State Fault Refusal :=
  runWord (infoPcmp c o) (pcmpBody (.pcmp c o) o) s

def pselBody (i : Instr) (o : PselOp) (x : Wx) (s : State) : Eff :=
  x.vectors [o.d, o.a, o.b, o.m] fun b vs =>
    match vs with
    | [d, a, c, m] => if m.w ≠ 1 then .fault .illegalOperand 0 false else s.offer x i b (.sel m) false d a (.vec c)
    | _ => .fault .illegalOperand 0 false

/-- PSEL (R344). -/
def execPsel (c : Ctl) (o : PselOp) (s : State) : Host.Outcome State Fault Refusal :=
  runWord (infoPsel c o) (pselBody (.psel c o) o) s

def psatBody (i : Instr) (o : PsatOp) (x : Wx) (s : State) : Eff :=
  x.vectors [o.d, o.a] fun b vs =>
    match vs with
    | [d, a] => s.offer x i b (.sat (x.const o.lo o.sgn) (x.const o.hi o.sgn)) o.sgn d a (.const 0)
    | _ => .fault .illegalOperand 0 false

/-- PSAT (R344). -/
def execPsat (c : Ctl) (o : PsatOp) (s : State) : Host.Outcome State Fault Refusal :=
  runWord (infoPsat c o) (psatBody (.psat c o) o) s

def pcntBody (i : Instr) (o : Press1) (x : Wx) (s : State) : Eff :=
  x.vectors [o.a] fun b vs =>
    match vs with
    | [a] => s.offer x i b (.cnt o.d.toNat) false a a (.const 0)
    | _ => .fault .illegalOperand 0 false

/-- PCNT (R344). -/
def execPcnt (c : Ctl) (o : Press1) (s : State) : Host.Outcome State Fault Refusal :=
  runWord (infoPcnt c o) (pcntBody (.pcnt c o) o) s

def pshiftBody (i : Instr) (left sg : Bool) (o : PshiftOp) (x : Wx) (s : State) : Eff :=
  x.vectors [o.d, o.a] fun b vs =>
    let n := min 64 (x.w.src 0 o.n .n64).toNat
    match vs with
    | [d, a] => s.offer x i b (if left then .shl n else .shr n) sg d a (.const 0)
    | _ => .fault .illegalOperand 0 false

/-- PSHL (R344). -/
def execPshl (c : Ctl) (o : PshiftOp) (s : State) : Host.Outcome State Fault Refusal :=
  runWord (infoPshift c o) (pshiftBody (.pshl c o) true false o) s

/-- PSHR (R344). -/
def execPshr (c : Ctl) (o : PshiftOp) (s : State) : Host.Outcome State Fault Refusal :=
  runWord (infoPshift c o) (pshiftBody (.pshr c o) false o.sgn o) s

/-! ### Transfers (R346) -/

/-- R182: what steps 2 and 3 find in a piece of a range that lies in one line: the fault and its address. -/
def State.pieceFault (s : State) (x : Wx) (va n : Nat) : Option (Code × Nat) :=
  match regionOf va with
  | .dev => ((List.range n).find? fun i => (s.storageAt x.g.ctx (va + i)).isNone).map fun i => (.notable, va + i)
  | .scratch off => if off + n ≤ x.g.grant then none else some (.scratchBounds, va)
  | .opbuf off => if (s.core x.core).holds (s.ownerOf x.w.team) off n then none else some (.opbufBounds, va)
  | _ => none

/-- R165, R182: step 2: the address lies in no region, or in the window of the module itself. -/
def State.noRegion (s : State) (va : Nat) : Bool :=
  match regionOf va with
  | .none => true
  | .peer m _ => m == s.link.own
  | _ => false

/-- R182, R346: the fault of a range that is checked as a whole, each step over all of it before the next; `locs`: its pieces with the
place of each. -/
def State.rangeFault (s : State) (x : Wx) (locs : List (Nat × Nat × Loc)) : Option (Code × Nat) :=
  let at_ := fun (c : Code) => (locs.find? fun p => p.2.2 == .fault c).map fun p => (c, p.1)
  ((locs.find? fun p => s.noRegion p.1).map fun p => (Code.translation, p.1)) <|>
  (locs.findSome? fun p => s.pieceFault x p.1 p.2.1) <|> at_ .translation <|> at_ .permission

/-- R346: the physical lines of a range of the device region, with their attributes. -/
def devLines (locs : List (Nat × Nat × Loc)) : List (Nat × BitVec 16) :=
  locs.filterMap fun p => match p.2.2 with
    | .line (.dev l) _ a _ => some (l, a)
    | _ => none

/-- PXFER in and out (DESIGN CHOICE, log 65). -/
def pxferBody (i : Instr) (out : Bool) (o : PxferOp) (x : Wx) (s : State) : Eff :=
  x.vectors [o.d] fun b vs =>
    let v := vs.headD ⟨0, 1⟩
    let a := (x.w.getS o.a.toNat).toNat
    let n := (x.w.getS o.n.toNat).toNat
    let e := elemSize v.w
    let locs := (pieces a (e * n)).map fun (va, k) => (va, k, s.engPlace (x.core / 64) x.g.ctx va out)
    if n = 0 ∨ n > 262144 then .fault .illegalOperand 0 false
    else if a % e ≠ 0 then .fault .align a true
    else
      match s.ask x (locs.map fun p => p.2.2) with
      | some s => .hold s
      | none =>
        match s.rangeFault x locs, s.storageAt x.g.ctx a with
        | some (c, va), _ => .fault c va true
        | none, none => .fault .notable a true
        | none, some t =>
          if t.kind ≠ 1 then .fault .tableKey 0 false
          else if t.base + t.len < a + e * n then .fault .notable (t.base + t.len) true
          else
            let ls := devLines locs
            s.offer x i b (if out then .xout n (a % 128) ls else .xin n (a % 128) ls) false v v (.const 0)

/-- PXIN (R346). -/
def execPxin (c : Ctl) (o : PxferOp) (s : State) : Host.Outcome State Fault Refusal :=
  runWord (infoPxfer c o) (pxferBody (.pxin c o) false o) s

/-- PXOUT (R346). -/
def execPxout (c : Ctl) (o : PxferOp) (s : State) : Host.Outcome State Fault Refusal :=
  runWord (infoPxfer c o) (pxferBody (.pxout c o) true o) s

/-! ### Acceptance and completion -/

/-- The description of a press operation. -/
def pressInfo (i : Instr) : Option WordInfo :=
  match i with
  | .padd c o | .psub c o | .pmul c o | .pand c o | .por c o | .pxor c o => some (infoPress2 c o)
  | .pnot c o => some (infoPress1 c o)
  | .pcmp c o => some (infoPcmp c o)
  | .psel c o => some (infoPsel c o)
  | .psat c o => some (infoPsat c o)
  | .pcnt c o => some (infoPcnt c o)
  | .pshl c o | .pshr c o => some (infoPshift c o)
  | .pxin c o | .pxout c o => some (infoPxfer c o)
  | _ => none

/-- R343: a bin that a held operation waits for has room, or will refuse it. -/
def State.pressOpen (s : State) (h : Hold) (ctx : Nat) : Bool :=
  let q := s.bin h.n
  q.st != .press || q.owner != ctx || decide (q.ops.length < 32)

/-- PRESS_ACCEPTANCE (R343): the operation is offered again, as the checks at issue left it (R346). -/
def execPressAcceptance (core slot : Nat) (s : State) : Host.Outcome State Fault Refusal :=
  match s.warpAt core slot with
  | none => .next s
  | some w =>
    match w.hold with
    | none => .next s
    | some h =>
      match pressInfo h.i, h.pop with
      | some i, some o =>
        if s.pressOpen h (s.ctxOf w) then
          .next ((s.unhold core slot false).redo core slot i fun x s => s.offerOp x h.i h.n o)
        else .next s
      | _, _ => .next s

/-- A press operation of a warp has completed: its token event may finish, and PCNT's result is known; while the warp is saved, both are
done at once (R347). -/
def State.pressDone (s : State) (o : POp) (v : Option DWord) : State :=
  let ws : List RegWrite := match o.kind, v with
    | .cnt r, some n => [⟨.s r, 0, n⟩]
    | _, _ => []
  let upd := fun (p : Pend) => if p.reqs.contains o.pend then { p with reqs := [], writes := p.writes ++ ws } else p
  let late := (s.warpU o.warp).isNone
  s.modWarpU o.warp fun w =>
    let v : Warp := { w with pend := w.pend.map upd }
    match w.pend.find? fun p => p.reqs.contains o.pend with
    | some p => if late then v.writeBack p.id else v
    | none => v

/-- A bin's name among those that ask for the host's copies. -/
def binKey (b : Nat) : Nat := 2 ^ 70 + b

/-- R229: the lines that an operation is to write. -/
def POp.writes (o : POp) : List LineId :=
  match o.kind with
  | .xout _ _ lines => lines.map fun p => .dev p.1
  | _ => []

/-- R224: the lines that an operation is to read or write at their homes. -/
def POp.lines (o : POp) : List LineId :=
  match o.kind with
  | .xin _ _ lines => lines.map fun p => .dev p.1
  | _ => o.writes

/-- PRESS_OPERATION_COMPLETION (R343): the bin performs its oldest operation, a PXOUT once the host's copies of its lines have come back
(R229), a transfer once their homes can serve it (R224). (DEDUCED, log 90) -/
def execPressOperationCompletion (bin : Nat) (s : State) : Host.Outcome State Fault Refusal :=
  match (s.bin bin).ops with
  | [] => .next s
  | o :: r =>
    match s.askBack (binKey bin) o.ctx o.writes with
    | some s => .next s
    | none =>
      if !o.lines.all s.homeFree then .next s
      else
      let (s, v) := s.pressPerform bin o
      .next ((s.modBin bin fun q => { q with ops := r }).pressDone o v)

/-! ### PMODE (R340, R348) -/

/-- The bins of a mask. -/
def binsOf (m : Nat) : List Nat := (List.range 24).filter fun b => m.testBit b

/-- R340: dirty lines of a bin are written back and its lines invalidated. -/
def State.emptyBin (s : State) (b : Nat) : State :=
  ((s.mem.cellar.filter fun c => c.line.home / 8 == b).map CellLine.line).foldl State.evictCell s

/-- R340: a bin takes a switch. -/
def State.switchBin (s : State) (ctx : Nat) (press : Bool) (b : Nat) : State :=
  if press then (s.emptyBin b).modBin b fun q => { q with st := .entering, owner := ctx }
  else s.modBin b fun q => { q with st := .draining }

def pmodeBody (press : Bool) (o : PmodeOp) (x : Wx) (s : State) : Eff :=
  let m := (x.w.src 0 o.m .b64).toNat
  let t := o.t.toNat
  if m ≥ 2 ^ 24 ∨ t ≥ x.g.f.tags then .fault .illegalOperand 0 false
  else
    let seq := (s.core x.core).nextSeq
    let s := s.modCore x.core fun k => { k with nextSeq := bumpSeq seq }
    let s := s.modWarp x.core x.slot fun w => { w with cmdseq := BitVec.ofNat 32 seq }
    let bs := binsOf m
    let isBad := fun (b : Nat) =>
      if press then (s.bin b).st != .cache else (s.bin b).st != .press || (s.bin b).owner != x.g.ctx
    let bad := bs.find? isBad
    let who : Who := ⟨6, x.core, x.core, x.w.uid, x.w.team, t, seq, x.run.pc⟩
    match bad with
    | some b => .done (s.report who 0x40 b) [] (some (pendOver .press)) []
    | none =>
      if bs.isEmpty then .done (s.report who 0 0) [] (some (pendOver .press)) []
      else
        let s := bs.foldl (fun s b => s.switchBin x.g.ctx press b) s
        .done { s with pmodes := s.pmodes ++ [⟨x.core, x.w.uid, x.w.team, seq, t, x.run.pc, press, bs⟩] } []
          (some (pendOver .press)) []

/-- PMODE.PRESS (R340). -/
def execPmodePress (c : Ctl) (o : PmodeOp) (s : State) : Host.Outcome State Fault Refusal :=
  runWord (infoPmode c o) (pmodeBody true o) s

/-- PMODE.CACHE (R340). -/
def execPmodeCache (c : Ctl) (o : PmodeOp) (s : State) : Host.Outcome State Fault Refusal :=
  runWord (infoPmode c o) (pmodeBody false o) s

/-- R348: a bin has reached the state that a PMODE asked for; PMODEs with no bin left complete. (DEDUCED, log 90) -/
def State.binReached (s : State) (b : Nat) : State :=
  let s := { s with pmodes := s.pmodes.map fun (p : Pmode) => { p with bins := p.bins.filter fun c => c != b } }
  let done := s.pmodes.filter fun p => p.bins.isEmpty
  let s := { s with pmodes := s.pmodes.filter fun p => !p.bins.isEmpty }
  done.foldl (fun s p => s.report ⟨6, p.core, p.core, p.warp, p.team, p.tag, p.seq, p.pc⟩ 0 0) s

/-- PRESS_ENTRY_COMPLETION (R340): every row is 0, and the bin is in PRESS; after an alarm it stops where it stands (R403). -/
def execPressEntryCompletion (bin : Nat) (s : State) : Host.Outcome State Fault Refusal :=
  if (s.bin bin).st != .entering || s.boot.st == .alarm then .next s
  else .next ((s.modBin bin fun q => { q with st := .press, rows := [] }).binReached bin)

/-- PRESS_DRAIN_COMPLETION (R340): after its accepted operations, the bin is an empty cache; after an alarm it stops where it stands (R403). -/
def execPressDrainCompletion (bin : Nat) (s : State) : Host.Outcome State Fault Refusal :=
  if (s.bin bin).st != .draining || !(s.bin bin).ops.isEmpty || s.boot.st == .alarm then .next s
  else .next ((s.modBin bin fun q => { q with st := .cache, rows := [], owner := 0 }).binReached bin)

/-! ### PSYNC (R347) -/

/-- R347: operations of the warp on bins of a mask that have not completed. -/
def State.pressBusy (s : State) (uid m : Nat) : Bool :=
  (binsOf m).any fun b => (s.bin b).ops.any fun o => o.warp == uid

def psyncBody (i : Instr) (o : MaskOp) (x : Wx) (s : State) : Eff :=
  let m := (x.w.src 0 o.m .b64).toNat
  if m ≥ 2 ^ 24 then .fault .illegalOperand 0 false
  else if s.pressBusy x.w.uid m then
    .ends ((s.stand x).modWarp x.core x.slot fun w => { w with
      hold := some ⟨i, x.run.lanes, x.run.pc, s.gtime, s.clkOf x.core, m, w.cmdsDone, false, none⟩ }) [] (some (pendOf .held [] none))
  else .done (s.dropSelf x.core) [] (some (pendOver .press)) []

/-- PSYNC (R347). -/
def execPsync (c : Ctl) (o : MaskOp) (s : State) : Host.Outcome State Fault Refusal :=
  runWord (infoPsync c o) (psyncBody (.psync c o) o) s

/-- PSYNC_COMPLETION (R347): an acquire of the bins' PXOUT writes. -/
def execPsyncCompletion (core slot : Nat) (s : State) : Host.Outcome State Fault Refusal :=
  match s.warpAt core slot with
  | none => .next s
  | some w =>
    match w.hold with
    | none => .next s
    | some h =>
      match h.i with
      | .psync .. =>
        if s.pressBusy w.uid h.n then .next s else .next ((s.dropSelf core).modWarp core slot fun w => w.goOn h s.gtime)
      | _ => .next s

end Sys2Proof.Machine
end

