-- ==== Sys2Proof/Machine/System.lean ====
section
/-! DEFINITION. Group 0xB: system instructions (R288 to R297), and the special registers (R23, R89, R90). -/

namespace Sys2Proof.Machine

/-! ### Traps -/

/-- R284, R289: the active lanes trap with code `c` and `n` in the record; the other lanes of the group go on. (DEDUCED, log 19) -/
def trapBody (c : Code) (n : Nat) (x : Wx) (s : State) : Eff :=
  let s := s.modWarp x.core x.slot fun w => w.modLanes x.run.lanes fun l => { l with pc := x.next }
  .ends (s.trap x.w.uid x.thr (some x.next) (e7Word x.run.pc n c)) [] none

/-- TRAP (R289). -/
def execTrap (c : Ctl) (o : Imm16Op) (s : State) : Host.Outcome State Fault Refusal :=
  runWord (infoLane c true) (trapBody .trap o.n.toNat) s

/-- BKPT (R293): a precise stop where a debugger acts on the warp, else a trap. (DEDUCED, log 19; DEDUCED, log 29) -/
def execBkpt (c : Ctl) (o : Imm16Op) (s : State) : Host.Outcome State Fault Refusal :=
  runWord (infoLane c true) (fun x s =>
    if s.debugged x.w then
      .ends (s.modWarp x.core x.slot fun w =>
        { w.modLanes x.run.lanes (fun l => { l with pc := x.next }) with
          run := w.run.map fun r => { r with stopAfter := mergeStop r.stopAfter (3, 0, 0) } }) [] none
    else trapBody .bkpt o.n.toNat x s) s

/-- ERET (R292). -/
def execEret (c : Ctl) (s : State) : Host.Outcome State Fault Refusal :=
  runWord (infoUni c true) (fun x s =>
    if x.run.lanes.all fun l => !(x.w.lane l).inh then .fault .illegalOperand 0 false
    else
      let s := x.run.lanes.foldl (fun s l => s.undoPins (x.w.lane l).toUndo) s
      .ends (s.modWarp x.core x.slot fun w => w.modLanes x.run.lanes fun l => l.eret x.next) [] none) s

/-- ILLEG (R294): ILLEGAL_OPCODE, before any other check (R100). -/
def execIlleg (c : Ctl) (_raw : BitVec 58) (s : State) : Host.Outcome State Fault Refusal := runReject c false .illegalOpcode s

/-! ### Special registers (R23, R89) -/

/-- R306: the team that TEAMID and COHORTID name: that of the thread in lane 0. -/
def State.teamOfLane0 (s : State) (w : Warp) : Nat :=
  match s.team (if w.wst.getLsbD 3 then (w.lane 0).team else w.team) with
  | some t => t.teamId
  | none => 0

/-- R90: WST. -/
def Warp.wstWord (w : Warp) : DWord := w.wst.zeroExtend 64

/-- R89: the special register `r` of a lane. GTIME is one for all dies: they never differ by the 1 that R19 allows.
(DEDUCED, log 28; DESIGN CHOICE, log 94) -/
def State.special (s : State) (w : Warp) (g : Grid) (l r : Nat) : DWord :=
  let a := w.anchorOf l
  match r with
  | 32 => BitVec.ofNat 64 a
  | 33 => BitVec.ofNat 64 (a / 4)
  | 34 => BitVec.ofNat 64 w.slot
  | 35 => BitVec.ofNat 64 w.w
  | 36 => if (w.lane l).kind.isThread then BitVec.ofNat 64 (w.lane l).thread else 0xFFFFFFFF
  | 37 => BitVec.ofNat 64 (s.teamOfLane0 w)
  | 38 => BitVec.ofNat 64 g.f.teamdim
  | 39 => BitVec.ofNat 64 (if g.f.cohort2 then s.teamOfLane0 w / 2 else s.teamOfLane0 w)
  | 40 => BitVec.ofNat 64 g.f.griddim
  | 41 => BitVec.ofNat 64 w.core
  | 42 => BitVec.ofNat 64 (w.core / 2)
  | 43 => BitVec.ofNat 64 (w.core / 64)
  | 48 => BitVec.ofNat 64 (s.clkOf w.core)
  | 49 => BitVec.ofNat 64 s.gtime
  | 50 => BitVec.ofNat 64 (s.gtime / 256)
  | 56 => s.tagmap w
  | 57 => (w.lane a).entry.zeroExtend 64
  | 58 => w.cmdseq.zeroExtend 64
  | 59 => w.wstWord
  | 60 => w.key
  | _ => 0

/-- R394: the reads that a capture records. -/
def capturedReg (r : Nat) : Bool := r == 48 || r == 49 || r == 50 || r == 56

/-- MOVS of a special register (R290); a read of TAGMAP acquires (R211, R286). -/
def movsSpecial (o : MovsOp) (x : Wx) (s : State) : Eff :=
  let r := o.r.toNat
  let ws := perForm x o.dst fun l =>
    resultOf o.dst (if o.dst.scalar then .b64 else .b32) l (s.special x.w x.g l r)
  let s := if capturedReg r then x.thr.foldl (fun s l => s.rval x.w l x.run.pc (s.special x.w x.g l r).toNat 0) s else s
  .done (if r = 56 then s.dropSelf x.core else s) ws none []

/-- MOVS (R290). -/
def execMovs (c : Ctl) (o : MovsOp) (s : State) : Host.Outcome State Fault Refusal :=
  runWord (infoMovs c o) (fun x s =>
    if o.r.toNat < 8 then movsQueueBody (.movs c o) o x s else movsSpecial o x s) s

/-- R291: the fields of WST that a 1 clears: FQLOST, MASKMIS, EMPTY. -/
def wstClear (wst : BitVec 5) (x : DWord) : BitVec 5 := wst &&& ~~~((x.truncate 5 : BitVec 5) &&& 0x15#5)

/-- MOVW (R291). -/
def execMovw (c : Ctl) (o : MovwOp) (s : State) : Host.Outcome State Fault Refusal :=
  runWord (infoMovw c o) (fun x s =>
    .done (s.modWarp x.core x.slot fun w => { w with wst := wstClear w.wst (x.w.src 0 o.a .i64) }) [] none []) s

/-! ### Stops -/

/-- R277: the drain time of a stop, in ns. -/
def State.drainTime (s : State) (ctx : Nat) (pairs : BitVec 128) : Nat :=
  ((s.teams.map fun t =>
    match t.place with
    | .resident c =>
      let g := s.gridOf t.grid
      if g.ctx == ctx && pairs.getLsbD (c / 2) then g.f.drain * 1000 else 0
    | .saved => 0).foldl max 0)

/-- R295: a stop of the warp's pair is less than 2 × D ahead. -/
def State.stopNear (s : State) (w : Warp) : Bool :=
  s.sch.stops.any fun e =>
    e.ctx == s.ctxOf w && e.pairs.getLsbD (w.core / 2) && decide (e.deadline < s.gtime + 2 * s.drainTime e.ctx e.pairs)

/-- STOPCHK (R295). -/
def execStopchk (c : Ctl) (o : StopchkOp) (s : State) : Host.Outcome State Fault Refusal :=
  runWord (infoStopchk c o) (fun x s => .done s [⟨.c o.cd.toNat, 0, if s.stopNear x.w then 1 else 0⟩] none []) s

/-- MARK (R296). -/
def execMark (c : Ctl) (o : MarkOp) (s : State) : Host.Outcome State Fault Refusal :=
  runWord (infoMark c o) (fun x s =>
    .done (s.traceCore 2 x.core x.g.ctx 4 (x.w.src 0 o.a .i64).toNat (x.run.pc.toNat + x.w.cmdseq.toNat * 2 ^ 32)
      (o.n.toNat + x.slot % 64 * 2 ^ 16)) [] none []) s

end Sys2Proof.Machine
end

