-- ==== Sys2Proof/Machine/Engines.lean ====
section
/-! DEFINITION. What every engine shares: when a command may start (R307, R313, R319), its accesses to memory (R166, R211, R405), and
its completion (R315, R318, R287). -/

namespace Sys2Proof.Machine

/-! ### Commands in their queues -/

/-- The command of that number in a queue of the core (DEDUCED, log 49). -/
def State.cmdAt (s : State) (core q seq : Nat) : Option Cmd :=
  ((s.core core).queues.getD q []).find? fun c => c.id == seq

def State.modCmd (s : State) (core q seq : Nat) (f : Cmd → Cmd) : State :=
  let g := fun (c : Cmd) => if c.id == seq then f c else c
  s.modCore core fun k => { k with queues := k.queues.modify q (List.map g) }

def Cmd.head (c : Cmd) : DWord := wordAt c.w 0
def Cmd.code (c : Cmd) : Nat := hdrCmd c.head

/-- Bits [lo, lo + n) of word `i`. -/
def Cmd.f (c : Cmd) (i lo n : Nat) : Nat := fld (wordAt c.w i) lo n

/-- The words from `i` on are 0. -/
def Cmd.zeroFrom (c : Cmd) (i : Nat) : Bool := (List.range 8).all fun j => decide (j < i) || wordAt c.w j == 0

/-- Who a command's completion names. -/
def Cmd.who (c : Cmd) (core : Nat) : Who := ⟨c.q, core, c.home, c.warp, c.team, hdrTag c.head, c.seq, c.pc⟩

/-- The grid of a command's team. -/
def State.cmdGrid (s : State) (c : Cmd) : Grid :=
  match s.team c.team with
  | some t => s.gridOf t.grid
  | none => Grid.void

/-- The commands that stand before one in its queue. -/
def State.cmdsBefore (s : State) (core q seq : Nat) : List Cmd :=
  ((s.core core).queues.getD q []).takeWhile fun c => c.id != seq

def CmdPhase.isFinished : CmdPhase → Bool
  | .finished .. => true
  | _ => false

/-- A command's name among host operations. -/
def engKey (core q seq : Nat) : Nat := 2 ^ 80 + (core * 8 + q) * 2 ^ 48 + seq

/-- A waiting command has begun: what it has asked of the host or a peer is outstanding or answered. -/
def State.begun (s : State) (core : Nat) (c : Cmd) : Bool :=
  c.phase != .waiting || s.mem.hostOps.any fun o => o.req == engKey core c.q c.id

/-- R287, R307, R313, R338: a waiting command may start: its gate has been seen, every earlier command of its team has begun, and its grid
is not aborted, or it has begun. -/
def State.mayStart (s : State) (core q seq : Nat) : Bool :=
  match s.cmdAt core q seq with
  | none => false
  | some c =>
    c.phase == .waiting && (!(s.cmdGrid c).aborted || s.begun core c) && (!hdrTge c.head || c.gate) &&
      (s.cmdsBefore core q seq).all fun d => d.team != c.team || s.begun core d

/-- The command is done, with a status to report. -/
def State.finishCmd (s : State) (core q seq status detail : Nat) : State :=
  s.modCmd core q seq fun c => { c with phase := .finished status detail }

/-- R311: the command is refused or faults with a code. -/
def State.failCmd (s : State) (core q seq : Nat) (c : Code) : State := s.finishCmd core q seq c.num 0

/-! ### Accesses -/

/-- A byte and whether its sector is poisoned. -/
abbrev PByte := Byte × Bool

/-- The agent that makes a command's accesses: its core, team, context, and its name among host operations. -/
structure Agent where
  core : Nat
  team : Nat
  ctx : Nat
  key : Nat
  deriving DecidableEq, Repr

/-- What an access comes to. -/
inductive Got where
  | data (b : List PByte)
  | fault (c : Code)
  | wait
  deriving DecidableEq, Repr

def Got.and (a : Got) (b : Got) : Got :=
  match a, b with
  | .data x, .data y => .data (x ++ y)
  | .data _, g => g
  | g, _ => g

def State.agentOf (s : State) (c : Cmd) (core : Nat) : Agent := ⟨core, c.team, (s.cmdGrid c).ctx, engKey core c.q c.id⟩

/-- Bytes of a line or block with their sectors' poison. -/
def withPoison (d : List Byte) (p : BitVec 4) (off n : Nat) : List PByte :=
  (slice d off n).zipIdx.map fun (b, i) => (b, p.getLsbD ((off + i) / 32))

/-- An operation of the agent at the host or a peer, asked for once. (DEDUCED, log 75) -/
def State.engAsk (s : State) (a : Agent) (k : HostOpKind) (msg : Nat → Msg) : State :=
  if s.mem.hostOps.any fun o => o.req == a.key && o.kind == k && o.done.isNone then s else s.hostOp a.key 0 a.ctx k msg

/-- What an operation of the agent answered: the bytes, and the poisoned sectors of their line. -/
def State.engAnswer (s : State) (key : Nat) (k : HostOpKind) : Option (Option (List Byte × BitVec 4)) :=
  (s.mem.hostOps.find? fun o => o.req == key && o.kind == k && o.done.isSome).bind fun o =>
    o.done.map fun d => d.map fun b => (b, o.poison)

/-- R377: a second-stage translation is asked for. -/
def State.engAts (s : State) (die pasid page : Nat) : State :=
  if s.mem.ats.any fun e => e.die == die && e.pasid == pasid && e.page == page then s
  else (s.modMem fun m => { m with ats := m.ats ++ [⟨die, pasid, page, none, false⟩] }).send (.ats die pasid page)

/-- R226: the halves of a host line that an access needs; none: they are there. (DEDUCED, log 75) -/
def State.engHalves (s : State) (a : Agent) (n off len level : Nat) (both : Bool) : Option State :=
  let miss := [false, true].filter fun h =>
    (both || (if h then decide (off + len > 64) else decide (off < 64))) && decide (s.halfLevel n h < level)
  if miss.isEmpty then none
  else some (miss.foldl (fun s h => s.engAsk a (.cxlRead n h (level == 2)) fun id => .cxlRead id n h (level == 2)) s)

/-- R404: an operation of the agent at the host is lost with the host's port. -/
def State.engLost (s : State) (key : Nat) : Bool := s.mem.hostOps.any fun o => o.req == key && o.done == some none && (match o.kind with
  | .cxlRead .. => true
  | _ => false)

/-- An engine's flit to a peer (R380), with the operation that awaits its answer; none where no port is live. -/
def State.engPeer (s : State) (a : Agent) (m off : Nat) (op : LineOp) (k : HostOpKind) (q : BitVec 4) : Option State :=
  s.askPeer a.key a.core a.ctx m off op k q

/-- The code a peer answered with, as a single byte. -/
def peerCode (b : List Byte) : Code := (codeOf (b.headD 0).toNat).getD .machineCheck

/-- The name of a peer's line among host operations. -/
def peerLine (m off : Nat) : HostOpKind := .pcieRead (2 ^ 56 + m * 2 ^ 42 + off / 128 * 128) 128

/-- R166, R211: `n` bytes of one line read by an engine, once the home can serve it (R224). (DEDUCED, log 75) -/
def State.engRead1 (s : State) (a : Agent) (va n : Nat) : State × Got :=
  match s.engSpan (a.core / 64) a.ctx va n false with
  | .line (.dev l) off attr _ =>
    if !s.homeFree (.dev l) then (s, .wait)
    else
    let (s, d, p) := s.agentRead (.dev l) attr a.ctx
    (s, .data (withPoison d p off n))
  | .line (.host l) off attr nc =>
    if nc then
      let ad := 128 * l + off
      match s.engAnswer a.key (.pcieRead ad n) with
      | some (some (d, p)) => (s, .data (d.zipIdx.map fun (b, i) => (b, p.getLsbD ((off + i) / 32))))
      | some none => (s, .fault .machineCheck)
      | none => ((s.ncClass (.host l)).engAsk a (.pcieRead ad n) fun id => .hostRead id ad n, .wait)
    else
      if s.engLost a.key then (s, .fault .machineCheck)
      else match s.engHalves a l off n 1 (s.cellable (.host l) attr) with
      | some s => (s, .wait)
      | none =>
        if !s.homeFree (.host l) then (s, .wait)
        else
        let (s, d, p) := s.agentRead (.host l) attr a.ctx
        (s, .data (withPoison d p off n))
  | .peer m off =>
    (match s.engAnswer a.key (peerLine m off) with
    | some (some (d, p)) => if d.length = 128 then (s, .data (withPoison d p (off % 128) n)) else (s, .fault (peerCode d))
    | some none => (s, .fault .machineCheck)
    | none =>
      if s.mem.hostOps.any fun o => o.req == a.key && (o.kind == peerLine m off || (o.kind == .zeroRead && o.done.isNone)) then (s, .wait)
      else
        match s.engPeer a m (off / 128 * 128) .fetch (peerLine m off) 0 with
        | some s => (s, .wait)
        | none => (s, .fault .machineCheck))
  | .scratch off =>
    (match s.team a.team with
    | none => (s, .fault .scratchBounds)
    | some t =>
      if off + n ≤ (s.gridOf t.grid).grant then
        (s, .data (withPoison (t.scratch.read (off / 128 * 128) 128) (blockPoison t.poison (off / 128 * 128)) (off % 128) n))
      else (s, .fault .scratchBounds))
  | .opbuf off =>
    let k := s.core a.core
    if k.holds (s.ownerOf a.team) off n then
      (s, .data (withPoison (k.opbuf.read (off / 128 * 128) 128) (blockPoison k.opPoison (off / 128 * 128)) (off % 128) n))
    else (s, .fault .opbufBounds)
  | .fault c =>
    (s.modMem fun m => { m with s2 := m.s2.filter fun e => !((c == .translation || c == .machineCheck) && e.die == a.core / 64 && e.spa.isNone) }, .fault c)
  | .ats pasid page => (s.engAts (a.core / 64) pasid page, .wait)
  | .walk _ => (s, .fault .translation)

/-- What is missing of a range is asked for in all its lines; nothing is read. -/
def State.engNeed (s : State) (a : Agent) (va n : Nat) : State × Bool :=
  (pieces va n).foldl (fun (s, w) (v, k) =>
    match s.engRead1 a v k with
    | (s, .wait) => (s, true)
    | _ => (s, w)) (s, false)

/-- A range read by an engine, once nothing of it is missing. -/
def State.engRead (s : State) (a : Agent) (va n : Nat) : State × Got :=
  match s.engNeed a va n with
  | (s, true) => (s, .wait)
  | (_, false) => (pieces va n).foldl (fun (s, g) (v, k) =>
    match g with
    | .fault _ => (s, g)
    | _ =>
      let (s, h) := s.engRead1 a v k
      (s, g.and h)) (s, .data [])

/-- An engine may write a piece of one line now, or why not: the host's copy must be back (R229), the home able to serve it (R224), and an
earlier posted write of the queue interface sent (R231). -/
def State.engReady1 (s : State) (a : Agent) (va n : Nat) : State × Got :=
  match s.engSpan (a.core / 64) a.ctx va n true with
  | .line (.dev l) _ _ _ =>
    (match s.askBack a.key a.ctx [.dev l] with
    | some s => (s, .wait)
    | none => (s, if s.homeFree (.dev l) then .data [] else .wait))
  | .line (.host l) off _ nc =>
    if nc then (s, if (s.posted a.ctx).isEmpty then .data [] else .wait)
    else
      if s.engLost a.key then (s, .fault .machineCheck)
      else match s.engHalves a l off n 2 false with
      | some s => (s, .wait)
      | none => (s, if s.homeFree (.host l) then .data [] else .wait)
  | .peer _ off => if (s.portOf (off / 128)).isSome then (s, .data []) else (s, .fault .machineCheck)
  | .scratch off =>
    (match s.team a.team with
    | none => (s, .fault .scratchBounds)
    | some t => if off + n ≤ (s.gridOf t.grid).grant then (s, .data []) else (s, .fault .scratchBounds))
  | .opbuf off => if (s.core a.core).holds (s.ownerOf a.team) off n then (s, .data []) else (s, .fault .opbufBounds)
  | .fault c => (s, .fault c)
  | .ats pasid page => (s.engAts (a.core / 64) pasid page, .wait)
  | .walk _ => (s, .fault .translation)

def State.engReady (s : State) (a : Agent) (va n : Nat) : State × Got :=
  (pieces va n).foldl (fun (s, g) (v, k) =>
    match g with
    | .fault _ => (s, g)
    | _ =>
      let (s, h) := s.engReady1 a v k
      (s, g.and h)) (s, .data [])

/-- R405: the poison of a line after bytes are written: whole sectors lose theirs, poisoned bytes bring it. -/
def poisonAfter (p : BitVec 4) (off : Nat) (b : List PByte) : BitVec 4 :=
  BitVec.ofNat 4 (((List.range 4).map fun i =>
    let hit := b.zipIdx.any fun ((_, q), j) => q && (off + j) / 32 == i
    if hit || (p &&& ~~~covered off b.length).getLsbD i then 2 ^ i else 0).sum)

/-- A piece of one line written by an engine. -/
def State.engWrite1 (s : State) (a : Agent) (va : Nat) (b : List PByte) : State :=
  let raw := b.map Prod.fst
  match s.engSpan (a.core / 64) a.ctx va b.length true with
  | .line l off attr nc =>
    if nc then
      ((s.ncClass l).send (.hostWrite (128 * l.num + off) raw (poisonAfter 0 off b))).hostOp a.key 0 a.ctx .zeroRead Msg.zeroRead
    else
      let s := (s.changeClass l (attrCls attr)).recall l none false
      let (d, p) := s.homeData l
      s.homePatch l (touched off b.length) (patch d off raw) (poisonAfter p off b)
  | .peer m off => (s.engPeer a m off (.write 0 raw) .zeroRead (poisonAfter 0 (off % 128) b)).getD s
  | .scratch off => s.modTeam a.team fun t =>
      let base := off / 128 * 128
      { t with scratch := t.scratch.write off raw
               poison := setBlockPoison t.poison base (poisonAfter (blockPoison t.poison base) (off % 128) b) }
  | .opbuf off => s.modCore a.core fun k =>
      let base := off / 128 * 128
      { k with opbuf := k.opbuf.write off raw
               opPoison := setBlockPoison k.opPoison base (poisonAfter (blockPoison k.opPoison base) (off % 128) b) }
  | _ => s

/-- Bytes written from an address on. -/
def State.engWrite (s : State) (a : Agent) (va : Nat) (b : List PByte) : State :=
  (pieces va b.length).foldl (fun s (v, k) => s.engWrite1 a v (slicePB b (v - va) k)) s
where
  slicePB (b : List PByte) (off n : Nat) : List PByte := (b.drop off).take n

/-- Bytes without poison. -/
def clean (b : List Byte) : List PByte := b.map fun x => (x, false)

/-- A poisoned byte among those read is a machine check (DEDUCED, log 76). -/
def anyPoison (b : List PByte) : Bool := b.any Prod.snd
def rawBytes (b : List PByte) : List Byte := b.map Prod.fst

/-! ### Completion -/

/-- R211: writes of the command to the host or a peer are still to be performed. -/
def State.engPending (s : State) (key : Nat) : Bool := s.mem.hostOps.any fun o => o.req == key && o.done.isNone

/-- The status of a peer that refused a write of the command. -/
def State.engRefused (s : State) (key : Nat) : Option Nat :=
  (s.mem.hostOps.find? fun o => o.req == key && o.kind == .zeroRead && (match o.done with
    | some (some [_]) => true
    | some none => true
    | _ => false)).map fun o => match o.done with
      | some (some [b]) => (peerCode [b]).num
      | _ => Code.machineCheck.num

/-- R287: step 1 of an abort is under way: a warp of the team's grid is still in a run. -/
def State.aborting (s : State) (c : Cmd) : Bool :=
  match s.team c.team with
  | none => false
  | some t => (s.gridOf t.grid).aborted && s.warps.any fun w => w.grid == t.grid

/-- R318: the team's last warp has retired, its ungated commands have completed, and the command's gate is clear; or its grid
has been aborted (R287). (DESIGN CHOICE, log 46) -/
def State.cancels (s : State) (core : Nat) (c : Cmd) : Bool :=
  match s.team c.team with
  | none => true
  | some t =>
    ((s.gridOf t.grid).aborted && !s.aborting c && (!s.begun core c ||
      (c.code == 0x10 && c.phase == .running && (s.core core).array != some c.id))) ||
    (c.phase == .waiting && hdrTge c.head && !c.gate && t.alive == 0 &&
      !s.warps.any (fun w => w.team == c.team) && !s.pmodes.any (fun p => p.team == c.team) &&
      s.inFlight.all fun d => d.team != c.team || hdrTge d.head)

/-- The command gives up its place. -/
def State.dropCmd (s : State) (core q seq : Nat) : State :=
  let s := s.modMem fun m => { m with
    hostOps := m.hostOps.filter (fun o => o.req != engKey core q seq), lame := m.lame.filter fun p => p.2.2 != engKey core q seq }
  s.modCore core fun k => { k with queues := k.queues.modify q (List.filter fun c => c.id != seq) }

/-- The channels that a SETASIDE names. -/
def Cmd.channels (c : Cmd) : List Nat := (List.range 128).filter fun n => (wordAt c.w (1 + n / 64)).getLsbD (n % 64)

/-- R354: the period of a SETASIDE runs from its completion. (DEDUCED, log 86) -/
def State.startAside (s : State) (c : Cmd) : State :=
  s.modMem fun m => { m with
    aside := m.aside.map fun p => if c.channels.contains p.1 then (p.1, p.2.1, s.gtime + 1000 * c.f 3 0 32) else p }

/-- COMMAND_COMPLETION (R92, R307, R315, R318): the tag is set and the record pushed. A collective's chunks have reported
already. -/
def execCommandCompletion (core q seq : Nat) (s : State) : Host.Outcome State Fault Refusal :=
  match s.cmdAt core q seq with
  | none => .next s
  | some c =>
    match c.phase with
    | .finished st detail =>
      let early := q == 0 && (s.cmdsBefore core q seq).any fun d => d.team == c.team
      if early || s.engPending (engKey core q seq) || (st == 0xF0 && s.aborting c) then .next s
      else
        let st := if st = 0 then (s.engRefused (engKey core q seq)).getD 0 else st
        let s := if c.code = 0x61 ∧ st = 0 then s.startAside c else s
        let s := s.dropCmd core q seq
        if c.code = 0x40 ∧ st = 0 then .next s else .next (s.report (c.who core) st detail)
    | _ => if s.cancels core c then .next ((s.dropCmd core q seq).report (c.who core) 0xF0 0) else .next s

end Sys2Proof.Machine
end

