-- ==== Sys2Proof/Machine/Matrix.lean ====
section
/-! DEFINITION. The matrix path (R60 to R67): alignment of A and B, plane blocks, the fold; and the MX commands: RESERVE, LOADB,
RELEASE, GEMM, and the tile boundary (R319 to R331). -/

namespace Sys2Proof.Machine

/-! ### Formats (R52) -/

/-- Bits of an element of a format code. -/
def fmtBits (f : Nat) : Nat :=
  match f with
  | 0 | 10 | 13 => 32
  | 1 | 2 | 9 | 12 => 16
  | 7 => 4
  | 8 => 1
  | _ => 8

/-- The floating format of a code. -/
def fltFmt (f : Nat) : Option Fmt :=
  match f with
  | 0 => some fmt32
  | 1 => some fmt16
  | 2 => some fmtBf
  | 3 => some fmtE4
  | 4 => some fmtE5
  | _ => none

/-- R47 to R50: the value of an element's bits. -/
def elemFV (f x : Nat) : FV :=
  match fltFmt f with
  | some m => FV.ofBits m false x
  | none =>
    match f with
    | 5 => d2FV x
    | 6 => FV.ofInt (sgn 8 x) 0 false
    | 7 => FV.ofInt (sgn 4 x) 0 false
    | 8 => FV.ofInt (1 - 2 * (x % 2 : Nat)) 0 false
    | 9 => FV.ofInt (sgn 16 x) 0 false
    | 10 => FV.ofInt (sgn 32 x) 0 false
    | _ => FV.ofInt (x % 2 ^ fmtBits f : Nat) 0 false

/-- R59: a value converted to a format under RN, integers clamped. -/
def fvTo (f : Nat) (v : FV) : Nat :=
  match fltFmt f with
  | some m => FV.round m .rn false false v
  | none =>
    match f with
    | 5 => toD2 v
    | 6 => wrapN 8 (FV.clampInt .rn (-128) 127 v)
    | 9 => wrapN 16 (FV.clampInt .rn (-32768) 32767 v)
    | 10 => wrapN 32 (FV.clampInt .rn (-(2 ^ 31)) (2 ^ 31 - 1) v)
    | _ => wrapN (fmtBits f) (FV.clampInt .rn 0 (2 ^ fmtBits f - 1) v)

/-- R51: `n` packed elements of `w` bits. -/
def unpack (w n : Nat) (b : List Byte) : List Nat :=
  (List.range n).map fun i => leNat (slice b (i * w / 8) ((w + 7) / 8)) / 2 ^ (i * w % 8) % 2 ^ w

/-! ### Alignment (R61, R62) -/

/-- floor(log2 |x|) of a finite value that is not 0. -/
def expOf (v : FV) : Option Int :=
  match v with
  | .fin _ m e => if m = 0 then none else some ((Nat.log2 m : Int) + e)
  | _ => none

/-- The largest exponent; 0 where there is none. -/
def maxExp (vs : List FV) : Int :=
  match vs.filterMap expOf with
  | [] => 0
  | e :: r => r.foldl max e

def FV.finite : FV → Bool
  | .fin .. => true
  | _ => false

/-- rne(x × 2^k). -/
def scaleInt (k : Int) (v : FV) : Int :=
  match v with
  | .fin n m e => FV.toInt .rn n m (e + k)
  | _ => 0

/-- R61: a row of A in a K-block: the integers, alphaA, nonfinite. -/
def alignA (f : Nat) (xs : List Nat) : List Int × Int × Bool :=
  let vs := xs.map (elemFV f)
  if (fltFmt f).isSome then
    let eA := maxExp vs
    (vs.map (scaleInt (23 - eA)), eA - 23, vs.any fun v => !v.finite)
  else (vs.map (scaleInt 0), 0, false)

/-- R62: a column of B in a K-block: the magnitudes, betaB, nonfinite. An element read through poison counts as a NaN (R66): `bad`. -/
def alignB (f p : Nat) (ys : List Nat) (bad : Nat → Bool) : List Nat × Int × Bool :=
  let vs := ys.zipIdx.map fun (y, i) => if bad i then FV.nan else elemFV f y
  if (fltFmt f).isSome then
    let mag := fun (eB : Int) => vs.map fun v => (scaleInt ((p : Int) - 1 - eB) v).natAbs
    let eB := maxExp vs
    let eB := if (mag eB).any fun m => m == 2 ^ p then eB + 1 else eB
    (mag eB, eB - (p - 1), vs.any fun v => !v.finite)
  else (if f = 5 then ys else vs.map fun v => (scaleInt 0 v).natAbs, if f = 5 then -6 else 0, vs.any fun v => !v.finite)

/-- The sign bit of an element. -/
def signOf (f x : Nat) : Bool := x / 2 ^ (fmtBits f - 1) % 2 == 1

/-! ### Plane blocks (R321) -/

/-- A list of bits as bytes, the first lowest. -/
def bitBytes (b : List Bool) : List Byte :=
  (List.range ((b.length + 7) / 8)).map fun i =>
    BitVec.ofNat 8 (((List.range 8).map fun j => if b.getD (8 * i + j) false then 2 ^ j else 0).sum)

def blockSize (f l p : Nat) : Nat := if f = 5 then 1024 + 256 * l else 1024 + 32 * l * (p + 1)

/-- R62, R321: a plane block. `cols`: the elements of each of the 256 columns; `bad c i`: element `i` of column `c` was read through poison
(R66). `junk` gives the magnitude of an element that is not finite, and all the bits of one read through poison, which nothing defines.
R66 also says that an I8, INT4, 1-bit or D2P8 operand is never non-finite: one read through poison makes its column so all the same.
(DESIGN CHOICE, log 80; DESIGN CHOICE, log 112) -/
def planeBlock (f l p : Nat) (cols : List (List Nat)) (bad : Nat → Nat → Bool) (junk : Nat → Nat) : List Byte :=
  let al := cols.zipIdx.map fun (ys, c) => alignB f p ys (bad c)
  let head := (al.flatMap fun (_, b, _) => leBytes 2 (wrapN 16 b)) ++ bitBytes (al.map fun (_, _, n) => n) ++ List.replicate 480 0
  let elem := fun (c i : Nat) => (cols.getD c []).getD i 0
  if f = 5 then
    head ++ (List.range 2).flatMap fun t => (List.range l).flatMap fun i => (List.range 128).map fun h =>
      let nib := fun c => (if bad c i then junk (256 * i + c) else elem c i) / 2 ^ (if t = 0 then 4 else 0) % 16
      BitVec.ofNat 8 (nib (2 * h) + 16 * nib (2 * h + 1))
  else
    let mag := fun (c i : Nat) =>
      if (elemFV f (elem c i)).finite && !bad c i then (al.getD c ([], 0, false)).1.getD i 0 else junk (256 * i + c) % 2 ^ p
    let sign := fun (c i : Nat) => if bad c i then (junk (256 * i + c)).testBit p else signOf f (elem c i)
    head ++ ((List.range l).flatMap fun i => bitBytes ((List.range 256).map fun c => sign c i)) ++
      (List.range p).flatMap fun j => (List.range l).flatMap fun i => bitBytes ((List.range 256).map fun c => (mag c i).testBit j)

/-- The bytes of a plane block that hold column `c`. -/
def columnBytes (f l p c : Nat) : List Nat :=
  [2 * c, 2 * c + 1, 512 + c / 8] ++
    if f = 5 then (List.range (2 * l)).map fun i => 1024 + 128 * i + c / 2 else (List.range (l * (p + 1))).map fun i => 1024 + 32 * i + c / 8

/-- A block as the array reads it: for each column the integers B', betaB, nonfinite (R64); `poisoned` says which of its bytes are poisoned
(R66). (DESIGN CHOICE, log 80) -/
def readBlock (f l p : Nat) (b : List Byte) (poisoned : Nat → Bool) : List (List Int × Int × Bool) :=
  let bit := fun (off n : Nat) => (b.getD (off + n / 8) 0).toNat.testBit (n % 8)
  (List.range 256).map fun c =>
    let beta := sgn 16 (leNat (slice b (2 * c) 2))
    let bad := bit 512 c || (columnBytes f l p c).any poisoned
    let val := fun i =>
      if f = 5 then
        let nib := fun t => (b.getD (1024 + 128 * l * t + 128 * i + c / 2) 0).toNat / 2 ^ (4 * (c % 2)) % 16
        d2term (nib 0 / 8) (nib 0 % 8) + d2term (nib 1 / 8) (nib 1 % 8)
      else
        let m := ((List.range p).map fun j => if bit (1024 + 32 * l * (1 + j) + 32 * i) c then 2 ^ j else 0).sum
        sgnNat (bit (1024 + 32 * i) c) m
    ((List.range l).map val, beta, bad)

/-! ### The fold (R64, R65) -/

/-- R64: the cell's accumulator after a K-block. -/
def dotInt (a b : List Int) : Int := (List.zipWith (fun x y => x * y) a b).foldl (fun s x => s + x) 0

/-- R65, R66: one element of C takes one K-block. An accumulator of 0 counts as +0. (DESIGN CHOICE, log 100) -/
def foldC (c : Word) (a : List Int × Int × Bool) (b : List Int × Int × Bool) (sA sB : Word) : Word :=
  if a.2.2 || b.2.2 then nan32
  else
    let s := to32 .rn (FV.mul (FV.mul (FV.ofInt (dotInt a.1 b.1) (a.2.1 + b.2.1) false) (f32 sA)) (f32 sB))
    to32 .rn (FV.add .rn (f32 c) (f32 s))

def Cmd.pair (c : Cmd) : Bool := hdrPair c.head

/-- The cores a command of the MX queue acts on: the core, and its follower for a paired one. -/
def Cmd.onCores (c : Cmd) (core : Nat) : List Nat := if c.pair then [core, core + 1] else [core]

/-- R63, R320: the plane counts of a format. -/
def planesOk (f p : Nat) : Bool :=
  match f with
  | 0 | 1 | 2 | 3 | 4 => decide (1 ≤ p ∧ p ≤ 16)
  | 6 => p == 8
  | 7 => p == 4
  | 8 => p == 1
  | 5 => p == 2
  | _ => false

def Core.resOf (k : Core) (owner id : Nat) : Option Reservation := k.res.find? fun r => r.owner == owner && r.id == id

/-- Granules [a, a + n) of a core are free. -/
def Core.freeRun (k : Core) (a n : Nat) : Bool := k.res.all fun r => decide (r.first + r.size ≤ a ∨ a + n ≤ r.first)

/-- R320: the words of RESERVE are legal. -/
def Cmd.reserveOk (c : Cmd) : Bool :=
  c.f 1 6 2 == 0 && decide (1 ≤ c.f 1 8 8 ∧ c.f 1 8 8 ≤ 128) && planesOk (c.f 1 16 4) (c.f 1 24 5) &&
  c.f 1 20 2 != 3 && c.f 1 22 2 == 0 && c.f 1 29 3 == 0 && c.f 1 48 16 == 0 && c.f 2 32 32 == 0 && c.zeroFrom 3

/-! ### Order on the matrix queue (R307, R319, R330) -/

/-- R307: every earlier MX command of the team has completed. -/
def State.mxFirst (s : State) (core : Nat) (c : Cmd) : Bool :=
  (s.cmdsBefore core 0 c.id).all fun d => d.team != c.team || d.phase.isFinished

/-- R330: no lease stands on the core, or the card's team or cohort holds it. -/
def State.leaseLets (s : State) (core : Nat) (c : Cmd) : Bool :=
  match (s.core core).lease with
  | some l => l.owner == s.ownerOf c.team
  | none => true

/-- A card that may be on the array next: its turn has come (R307), or it was passed over; no stop holds it (R277), its grid is not aborted
(R287), and no lease shuts it out of an array that it takes (R330). -/
def State.cardAble (s : State) (core : Nat) (c : Cmd) : Bool :=
  c.code == 0x10 && !s.stopping core (s.cmdGrid c).ctx && !(s.cmdGrid c).aborted &&
  (c.phase == .running || s.mayStart core 0 c.id) && s.mxFirst core c && (c.onCores core).all fun k => s.leaseLets k c

/-- R319: an MX command other than a card that may be made: a stop holds it unless it has begun (R277). -/
def State.mxAble (s : State) (core : Nat) (c : Cmd) : Bool :=
  c.code != 0x10 && (c.phase == .running || (s.mayStart core 0 c.id && (s.begun core c || !s.stopping core (s.cmdGrid c).ctx))) &&
    s.mxFirst core c

/-- R319, R331: the MX command that the array takes next: one that has begun, else the oldest that may start or go on. -/
def State.mxNext (s : State) (core : Nat) : Option Cmd :=
  let cs := (s.core core).queues.getD 0 []
  (cs.find? fun c => s.mxAble core c && c.phase == .running) <|> cs.find? fun c => s.mxAble core c || s.cardAble core c

/-- R330, R331: the card that the array takes next. -/
def State.cardNext (s : State) (core : Nat) : Option Cmd := (s.mxNext core).filter fun c => c.code == 0x10

/-- R319: an MX command other than a card may be made now: the array's command path is free and it is its turn. -/
def State.mxTurn (s : State) (core seq : Nat) : Bool :=
  (s.core core).array.isNone && !(s.core core).slaved && match s.mxNext core with
    | some c => c.id == seq && c.code != 0x10
    | none => false

/-! ### RESERVE and RELEASE (R320, R323) -/

/-- RESERVE (R320). -/
def execReserve (core seq : Nat) (s : State) : Host.Outcome State Fault Refusal :=
  match s.cmdAt core 0 seq with
  | none => .next s
  | some c =>
    if c.code ≠ 0x11 ∨ !s.mxTurn core seq then .next s
    else
      let owner := s.ownerOf c.team
      let cs := c.onCores core
      let id := c.f 1 0 6
      let n := c.f 1 8 8
      if !c.reserveOk || cs.any (fun k => ((s.core k).resOf owner id).isSome) then .next (s.failCmd core 0 seq .illegalOperand)
      else if cs.any fun k => decide ((s.core k).res.length ≥ 64) then .next (s.finishCmd core 0 seq 0x88 0x100)
      else
        match (List.range (129 - n)).find? fun a => cs.all fun k => (s.core k).freeRun a n with
        | none => .next (s.finishCmd core 0 seq 0x88 0)
        | some a =>
          let r : Reservation := ⟨owner, id, a, n, c.f 1 16 4, c.f 1 20 2, c.f 1 24 5, c.f 1 32 16, c.f 2 0 32⟩
          let s := cs.foldl (fun s k => s.modCore k fun q => { q with res := q.res ++ [r] }) s
          .next (s.finishCmd core 0 seq 0 a)

/-- RELEASE (R323). -/
def execRelease (core seq : Nat) (s : State) : Host.Outcome State Fault Refusal :=
  match s.cmdAt core 0 seq with
  | none => .next s
  | some c =>
    if c.code ≠ 0x13 ∨ !s.mxTurn core seq then .next s
    else
      let owner := s.ownerOf c.team
      let cs := c.onCores core
      let id := c.f 1 0 6
      if c.f 1 6 58 != 0 || !c.zeroFrom 2 || cs.any (fun k => ((s.core k).resOf owner id).isNone) then
        .next (s.failCmd core 0 seq .illegalOperand)
      else
        let s := cs.foldl (fun s k => s.modCore k fun q => { q with res := q.res.filter fun r => !(r.owner == owner && r.id == id) }) s
        .next (s.finishCmd core 0 seq 0 0)

/-! ### LOADB (R322) -/

/-- One block read: the rows of B, each `n` bytes. -/
def State.readRows (s : State) (a : Agent) (base stride n rows : Nat) : State × Got :=
  (List.range rows).foldl (fun (s, g) i =>
    match g with
    | .fault _ => (s, g)
    | _ =>
      let (s, h) := s.engRead a (base + i * stride) n
      (s, g.and h)) (s, .data [])

/-- Bytes placed in a core's operand buffer. -/
def State.putOpbuf (s : State) (core off : Nat) (b : List Byte) : State :=
  s.modCore core fun k => { k with
    opbuf := k.opbuf.write off b
    opPoison := k.opPoison.filter fun x => !(decide (off ≤ 32 * x ∧ 32 * x + 32 ≤ off + b.length)) }

/-- R66: element `i` of `w` bits has a poisoned byte. -/
def poisonedElem (w : Nat) (b : List PByte) (i : Nat) : Bool :=
  (List.range ((w + 7) / 8)).any fun j => (b.getD (i * w / 8 + j) (0, false)).2

/-- R322: the blocks of LOADB in order of their index; ends at the first that faults. An element read through poison counts as a NaN
(R66); `p`: one has been read. (DEDUCED, log 76; DEDUCED, log 79) -/
def State.loadBlocks (s : State) (a : Agent) (c : Cmd) (cs : List (Nat × Reservation)) (p : Bool) : List (Nat × Nat) → State × Got
  | [] => (s, .data (if p then [(0, true)] else []))
  | (t, k) :: rest =>
    match cs.head? with
    | none => (s, .fault .illegalOperand)
    | some (_, r) =>
      let l := 16 * 2 ^ r.bl
      let w := fmtBits r.bfmt
      let nw := 256 * cs.length
      let pb := blockSize r.bfmt l r.p
      let off := c.f 2 8 24 * 64 + (t * (c.f 3 0 12 + 1) + k) * pb
      if cs.any fun (_, q) => decide (off + pb > 2048 * q.size) then (s, .fault .opbufBounds)
      else
        let n := nw * w / 8
        match s.readRows a (c.f 1 0 57 + k * l * c.f 4 0 40 + t * n) (c.f 4 0 40) n l with
        | (s, .fault x) => (s, .fault x)
        | (s, .wait) => (s, .wait)
        | (s, .data b) =>
          let rows := (List.range l).map fun i => unpack w nw (slice (rawBytes b) (i * n) n)
          let f := s.fresh
          let s := cs.zipIdx.foldl (fun s ((core, q), j) =>
            let cols := (List.range 256).map fun x => rows.map fun row => row.getD (256 * j + x) 0
            let bad := fun x i => anyPoison b && poisonedElem w (b.drop (i * n)) (256 * j + x)
            s.putOpbuf core (2048 * q.first + off)
              (planeBlock r.bfmt l r.p cols bad fun x => Config.freeNat (f * 2 ^ 24 + j * 2 ^ 20 + x))) s
          State.loadBlocks { s with fresh := f + 1 } a c cs (p || anyPoison b) rest

/-- Blocks not yet loaded: a LOADB that waited goes on where it stood. (DEDUCED, log 79) -/
def blockList (ntn kbn : Nat) : List (Nat × Nat) :=
  (List.range (ntn + 1)).flatMap fun t => (List.range (kbn + 1)).map fun k => (t, k)

/-- The reservations of a pair's two cores have one format. (DEDUCED, log 79) -/
def sameFormat : List (Nat × Reservation) → Bool
  | (_, p) :: (_, q) :: _ => p.bfmt == q.bfmt && p.bl == q.bl && p.p == q.p
  | _ => true

/-- LOADB (R322). -/
def execLoadb (core seq : Nat) (s : State) : Host.Outcome State Fault Refusal :=
  match s.cmdAt core 0 seq with
  | none => .next s
  | some c =>
    if c.code ≠ 0x12 ∨ !s.mxTurn core seq then .next s
    else
      let owner := s.ownerOf c.team
      let id := c.f 2 0 6
      let rs := (c.onCores core).map fun k => (k, (s.core k).resOf owner id)
      let found := rs.filterMap fun (k, r) => r.map fun q => (k, q)
      let legal := c.f 1 57 7 == 0 && c.f 2 6 2 == 0 && c.f 2 32 32 == 0 && c.f 3 24 40 == 0 && c.f 4 40 24 == 0 && c.zeroFrom 5 &&
        found.length == rs.length &&
        sameFormat found
      if !legal then .next (s.failCmd core 0 seq .illegalOperand)
      else
        match s.loadBlocks (s.agentOf c core) c found false (blockList (c.f 3 12 12) (c.f 3 0 12)) with
        | (s, .wait) => .next (s.modCmd core 0 seq fun d => { d with phase := .running })
        | (s, .fault x) => .next (s.failCmd core 0 seq x)
        | (s, .data b) => .next (if anyPoison b then s.failCmd core 0 seq .machineCheck else s.finishCmd core 0 seq 0 0)

/-! ### GEMM (R324 to R328) -/

/-- A tensor id is 0xFFFF, or names a flat table; else the code of R324. -/
def State.tensorBad (s : State) (ctx id : Nat) : Option Code :=
  if id = 0xFFFF then none
  else
    match s.current ctx id with
    | none => some .notable
    | some v => if v.kind = 0 then some .notable else if v.kind = 1 then none else some .tableKey

/-- R13, R324: a scale at an address, through the core's cache of 2,048; the oldest leaves a full one. (DESIGN CHOICE, log 101) -/
def State.scaleRead (s : State) (a : Agent) (va : Nat) : State × Got :=
  let word := fun (w : Word) (p : Bool) => Got.data ((leBytes 4 w.toNat).map fun b => (b, p))
  match (s.core a.core).scales.find? fun e => e.1 == a.ctx && e.2.1 == va with
  | some (_, _, w, p) => (s, word w p)
  | none =>
    match s.engRead a va 4 with
    | (s, .data b) =>
      let e := (a.ctx, va, BitVec.ofNat 32 (leNat (rawBytes b)), anyPoison b)
      (s.modCore a.core fun k => { k with scales := (if k.scales.length < 2048 then k.scales else k.scales.drop 1) ++ [e] }, .data b)
    | r => r

/-- R324: a scale. -/
def State.scaleAt (s : State) (a : Agent) (id i : Nat) : State × Got :=
  if id = 0xFFFF then (s, .data (clean (leBytes 4 0x3F800000)))
  else
    match s.current a.ctx id with
    | none => (s, .fault .notable)
    | some v => if 4 * i + 4 > v.len then (s, .fault .notable) else s.scaleRead a (v.base + 4 * i)

/-- R324: `n` scales from index `i` on. -/
def State.scales (s : State) (a : Agent) (id i n : Nat) : State × Got :=
  if id = 0xFFFF then (s, .data (clean ((List.range n).flatMap fun _ => leBytes 4 0x3F800000)))
  else
    (List.range n).foldl (fun (s, g) j =>
      match g with
      | .fault _ => (s, g)
      | _ =>
        let (s, h) := s.scaleAt a id (i + j)
        (s, g.and h)) (s, .data [])

/-- The FP32 words of bytes; one read through poison counts as a NaN (R66). -/
def scaleWords (b : List PByte) : List Word :=
  (List.range (b.length / 4)).map fun i =>
    let e := (b.drop (4 * i)).take 4
    if anyPoison e then nan32 else BitVec.ofNat 32 (leNat (rawBytes e))

/-- R325: the words of a card that do not depend on its reservation are legal. (DEDUCED, log 81) -/
def Cmd.gemmOk (c : Cmd) : Bool :=
  let feed := hdrFlags c.head % 2 == 1
  c.f 1 57 7 == 0 && c.f 2 57 7 == 0 && (!feed || wordAt c.w 1 == 0) && c.f 3 6 2 == 0 && c.f 3 37 3 == 0 && c.f 3 52 12 == 0 &&
  [0, 1, 2, 3, 4, 6, 7].contains (c.f 3 40 4) && [0, 1, 2].contains (c.f 3 44 4) && decide (c.f 3 48 4 ≤ 1) &&
  c.f 4 60 4 == 0 && c.f 6 0 12 == 0

/-- R325, R327: a core's reservation agrees with the card. (DEDUCED, log 81) -/
def Core.cardRes (k : Core) (owner : Nat) (c : Cmd) : Option Reservation :=
  match k.resOf owner (c.f 3 0 6) with
  | some r => if r.p == c.f 3 32 5 && r.sten == c.f 7 16 16 then some r else none
  | none => none

/-- Stride field `i` of a word, in bytes. -/
def Cmd.stride (c : Cmd) (w i : Nat) : Nat := c.f w (12 * i) 12 * 64 * 2 ^ c.f w 60 4

/-- R326: i1 to i4 of the tile of a number, i1 running fastest. -/
def Cmd.tileIdx (c : Cmd) (t : Nat) : List Nat :=
  let l := fun j => c.f 4 (12 * j) 12 + 1
  [t % l 1, t / l 1 % l 2, t / (l 1 * l 2) % l 3, t / (l 1 * l 2 * l 3)]

/-- R326: output tiles of a card. -/
def Cmd.tiles (c : Cmd) : Nat := ([1, 2, 3, 4].map fun j => c.f 4 (12 * j) 12 + 1).foldl (· * ·) 1

def Cmd.kb (c : Cmd) : Nat := c.f 4 0 12 + 1

/-- Where a tile's operands begin: the sum of the strides. -/
def Cmd.offset (c : Cmd) (w : Nat) (idx : List Nat) : Nat := (idx.zipIdx.map fun (i, j) => i * c.stride w (j + 1)).sum

/-- R328: bytes of one A row, and the 64-bit words that its entries hold. -/
def rowEntries (w bytes : Nat) : Nat := (bytes + 4 * w - 1) / (4 * w)

/-- R328: the rows that fed words make. -/
def fedRows (w rowBytes : Nat) (ws : List DWord) (from_ : Nat) : List Byte :=
  let per := rowEntries w rowBytes * (w / 2)
  (List.range 256).flatMap fun r =>
    (((ws.drop ((from_ + r) * per)).take per).flatMap fun x => leBytes 8 x.toNat).take rowBytes

/-- R328: finished rows as entries. -/
def drainWords (w rowBytes : Nat) (rows : List (List Byte)) : List DWord :=
  let n := rowEntries w rowBytes * (4 * w)
  rows.flatMap fun r =>
    let b := r ++ List.replicate (n - r.length) 0
    (List.range (n / 8)).map fun i => BitVec.ofNat 64 (leNat (slice b (8 * i) 8))

/-- What a tile comes to: its rows, one for each of the 256, or why not: a fault after `steps` of its steps. -/
inductive Tile where
  | rows (r : List (List Byte)) (poison : Bool)
  | fault (c : Code) (steps : Nat)
  | wait
  deriving DecidableEq, Repr

/-- R326: the steps of a tile; `cc` holds the tile, 256 rows of `nw` words, and whether poison has been read: an element read through it
counts as a NaN (R66). (DEDUCED, log 76; DEDUCED, log 81) -/
def State.gemmSteps (s : State) (a : Agent) (c : Cmd) (w : Nat) (cs : List (Nat × Reservation)) (idx : List Nat) :
    List Nat → List (List Word) × Bool → State × Except Tile (List (List Word) × Bool)
  | [], cc => (s, .ok cc)
  | i0 :: rest, (cc, p) =>
    let bad := fun (x : Code) => Tile.fault x (c.kb - 1 - rest.length)
    match cs.head? with
    | none => (s, .error (bad .illegalOperand))
    | some (_, r0) =>
      let l := 16 * 2 ^ r0.bl
      let fa := c.f 3 40 4
      let rb := l * fmtBits fa / 8
      let nw := 256 * cs.length
      let i1 := idx.getD 0 0
      let i2 := idx.getD 1 0
      let blk := c.f 3 8 24 * 64 + (i1 * c.kb + i0) * blockSize r0.bfmt l r0.p
      let pb := blockSize r0.bfmt l r0.p
      if cs.any fun (_, q) => decide (blk + pb > 2048 * q.size) then (s, .error (bad .opbufBounds))
      else
        let hit := fun (k : Nat) (q : Reservation) (i : Nat) => (s.core k).opPoison.contains ((2048 * q.first + blk + i) / 32)
        let poisoned := cs.any fun (k, q) => (s.core k).opPoison.any fun x =>
          decide (2048 * q.first + blk ≤ 32 * x + 31 ∧ 32 * x < 2048 * q.first + blk + pb)
        let (s, ga) := if hdrFlags c.head % 2 = 1 then (s, Got.data (clean (fedRows w rb c.fed (256 * i0))))
          else s.engRead a (c.f 1 0 57 + i0 * c.stride 5 0 + c.offset 5 idx) (256 * rb)
        let (s, gs) := s.scales a (c.f 7 0 16) (c.f 7 32 32 + (i2 * c.kb + i0) * 256) 256
        let (s, gb) := cs.zipIdx.foldl (fun ((s, g) : State × Got) ((k, q), j) =>
          let (s, h) := s.scales { a with core := k } q.sten (q.soff + (i1 * c.kb + i0) * nw + 256 * j) 256
          (s, g.and h)) (s, Got.data [])
        match ga, gs, gb with
        | .fault x, _, _ => (s, .error (bad x))
        | _, .fault x, _ => (s, .error (bad x))
        | _, _, .fault x => (s, .error (bad x))
        | .data ba, .data bs, .data bb =>
          let sa := scaleWords bs
          let sb := scaleWords bb
          let cols := cs.flatMap fun (k, q) =>
            readBlock q.bfmt (16 * 2 ^ q.bl) q.p ((s.core k).opbuf.read (2048 * q.first + blk) pb) fun i => poisoned && hit k q i
          let cc := cc.zipIdx.map fun (row, m) =>
            let ab := (ba.drop (m * rb)).take rb
            let ar := alignA fa (unpack (fmtBits fa) l (rawBytes ab))
            let ar := (ar.1, ar.2.1, ar.2.2 || anyPoison ab)
            (List.zip row cols).zipIdx.map fun ((x, col), n) => foldC x ar col (sa.getD m 0) (sb.getD n 0)
          State.gemmSteps s a c w cs idx rest (cc, p || poisoned || anyPoison ba || anyPoison bs || anyPoison bb)
        | _, _, _ => (s, .error .wait)

/-- R326: the output tile that the card computes next, in CFMT, and whether poison was read (R66, R405). (DEDUCED, log 82) -/
def State.gemmTile (s : State) (a : Agent) (c : Cmd) (w : Nat) (cs : List (Nat × Reservation)) : State × Tile :=
  let idx := c.tileIdx c.card.tiles
  let fc := c.f 3 44 4
  let e := fmtBits fc / 8
  let nw := 256 * cs.length
  let caddr := c.f 2 0 57 + c.offset 6 idx
  let (s, g0) := if c.f 3 48 4 = 1 then s.engRead a caddr (256 * nw * e) else (s, Got.data [])
  match g0 with
  | .fault x => (s, .fault x 0)
  | .wait => (s, .wait)
  | .data b =>
    let raw := rawBytes b
    let init := (List.range 256).map fun m => (List.range nw).map fun n =>
      if c.f 3 48 4 = 1 then
        (if anyPoison b && poisonedElem (8 * e) b (m * nw + n) then nan32
         else to32 .rn (elemFV fc (leNat (slice raw ((m * nw + n) * e) e))))
      else 0
    match s.gemmSteps a c w cs idx (List.range c.kb) (init, anyPoison b) with
    | (s, .error t) => (s, t)
    | (s, .ok (cc, p)) => (s, .rows (cc.map fun row => row.flatMap fun x => leBytes e (fvTo fc (f32 x))) p)

/-! ### The arbiter (R319, R327, R330, R331) -/

/-- The array gives up its card, and the follower with it. -/
def State.leaveArray (s : State) (core : Nat) (pair : Bool) : State :=
  let s := s.modCore core fun k => { k with array := none }
  let s := if pair then s.modCore (core + 1) fun k => { k with slaved := false } else s
  let s := s.grantIdle core
  if pair then s.grantIdle (core + 1) else s

/-- R330: a lease ends on the cores that it holds. -/
def State.dropLease (s : State) (cores : List Nat) : State :=
  cores.foldl (fun s c => (s.modCore c fun k => { k with lease := none }).grantIdle c) s

/-- R330: a lease counts steps of its holder's cards. -/
def Core.countSteps (k : Core) (owner n : Nat) : Core :=
  match k.lease with
  | some l => if l.owner == owner then { k with lease := if l.left ≤ n then none else some { l with left := l.left - n, idle := none } } else k
  | none => k

/-- GEMM (R325, R327): the card goes on the array, its words checked; or a passed-over card returns to it. -/
def execGemm (core seq : Nat) (s : State) : Host.Outcome State Fault Refusal :=
  match s.cmdAt core 0 seq with
  | none => .next s
  | some c =>
    let k := s.core core
    if k.array.isSome || k.slaved || (s.cardNext core).map Cmd.id != some seq then .next s
    else
      let owner := s.ownerOf c.team
      let a := s.agentOf c core
      let fail := fun (x : Code) => Host.Outcome.next (s.failCmd core 0 seq x)
      if c.phase = .waiting ∧ !c.gemmOk then fail .illegalOperand
      else if (c.onCores core).any fun q => ((s.core q).cardRes owner c).isNone then fail .illegalOperand
      else
        match if c.phase = .waiting then s.tensorBad a.ctx (c.f 7 0 16) <|> s.tensorBad a.ctx (c.f 7 16 16) else none with
        | some x => fail x
        | none =>
          let fresh := c.phase == .waiting
          let s := (c.onCores core).foldl (fun s k => s.modCore k fun q => { q with scales := if fresh then [] else q.scales }) s
          let s := s.modCore core fun q => { q with array := some seq }
          let s := (leaseOf core (s.ownerOf c.team)).foldl (fun s k => s.modCore k fun q => { q with
            lease := q.lease.map fun l => if l.owner == owner then { l with idle := none } else l }) s
          let s := if c.pair then s.modCore (core + 1) fun q => { q with slaved := true } else s
          .next (s.modCmd core 0 seq fun c => { c with phase := .running })

/-- R331: at the boundary, whether the card on the array stays; a paired card is at the boundary of both arrays. -/
def State.stays (s : State) (core : Nat) (c : Cmd) : Bool :=
  !s.stopping core (s.cmdGrid c).ctx && !(s.core core).slaved &&
  (c.onCores core).all fun n => match (s.core n).lease with
    | some l => l.owner == s.ownerOf c.team
    | none => (s.core n).leaseReq.isEmpty

/-- R331: a follower's array that reaches its boundary with a request granted there goes to the requester's card: a paired card of another
owner that waits for it at the leader is passed over. (DESIGN CHOICE, log 83) -/
def State.unslave (s : State) (core : Nat) : State :=
  match (s.core core).lease, (s.core (core - 1)).array.bind (s.cmdAt (core - 1) 0) with
  | some l, some c =>
    if (s.core core).slaved && c.pair && l.owner != s.ownerOf c.team then
      ((s.modCore (core - 1) fun k => { k with array := none }).modCore core fun k => { k with slaved := false }).grantIdle (core - 1)
    else s
  | _, _ => s

/-- R329, R331: at a boundary without a lease the first request is granted. -/
def State.grantBoundary (s : State) (cores : List Nat) : State :=
  cores.foldl (fun s k => (s.grant k fun _ => true).unslave k) s

/-- R330: steps of the card are counted against its team's lease. -/
def State.countSteps (s : State) (core : Nat) (c : Cmd) (n : Nat) : State :=
  (leaseOf core (s.ownerOf c.team)).foldl (fun s k => s.modCore k fun q => q.countSteps (s.ownerOf c.team) n) s

/-- What the host and peers have answered a command is forgotten: the next tile reads anew. -/
def State.forgetOps (s : State) (key : Nat) : State :=
  s.modMem fun m => { m with hostOps := m.hostOps.filter fun o => !(o.req == key && o.done.isSome) }

/-- The tile is written, or handed to the drain register; `steps` = 1: what it writes to the host or a peer may still be refused there. Its
words are written together, a case of what R212 allows. (DEDUCED, log 82) -/
def State.putTile (s : State) (a : Agent) (core : Nat) (c : Cmd) (w : Nat) (rows : List (List Byte)) (bad : Bool) : State × Got :=
  let rb := (rows.headD []).length
  if hdrFlags c.head / 2 % 2 = 1 then
    ((s.modCmd core 0 c.id fun d => { d with rows := d.rows ++ drainWords w rb rows, fed := [], card := ⟨d.card.tiles, 1, d.card.bad || bad⟩ }), .data [])
  else
    let va := c.f 2 0 57 + c.offset 6 (c.tileIdx c.card.tiles)
    match s.engReady a va (256 * rb) with
    | (s, .data _) => (((s.forgetOps a.key).engWrite a va (clean rows.flatten)).modCmd core 0 c.id fun d => { d with
        fed := [], card := ⟨d.card.tiles, 1, d.card.bad || bad⟩ }, .data [])
    | r => r

/-- A card has done its last tile: its status, with MACHINE_CHECK where it has read poison (R405), and it leaves the array. -/
def State.cardDone (s : State) (core : Nat) (c : Cmd) : State :=
  (s.finishCmd core 0 c.id (if c.card.bad then Code.machineCheck.num else 0) (if c.card.bad then c.card.tiles % 2 ^ 16 else 0)).leaveArray
    core c.pair

/-- R287: a card of an aborted grid ends. -/
def State.cardCancelled (s : State) (core : Nat) (c : Cmd) : State := (s.finishCmd core 0 c.id 0xF0 0).leaveArray core c.pair

/-- R287, R326, R330, R331: a tile has ended. (DEDUCED, log 82) -/
def State.boundary (s : State) (core : Nat) (c : Cmd) : State :=
  let s := (s.countSteps core c c.kb).grantBoundary (c.onCores core)
  match s.cmdAt core 0 c.id with
  | none => s
  | some d =>
    if d.card.tiles ≥ d.tiles ∧ d.rows.isEmpty then s.cardDone core d
    else if (s.cmdGrid d).aborted then s.cardCancelled core d
    else if s.stays core d then s
    else s.leaveArray core c.pair

/-- R330: the holder of a lease has no card on the core's array, nor one that could be on it. -/
def State.leaseIdle (s : State) (l : Lease) (core : Nat) : Bool :=
  let k := s.core core
  !k.slaved &&
  (match k.array with
  | none => true
  | some n => (match s.cmdAt core 0 n with
    | some c => s.ownerOf c.team != l.owner
    | none => true)) &&
  !(k.queues.getD 0 []).any fun c => s.ownerOf c.team == l.owner && s.cardAble core c

/-- R330: the holder has had no card for 1,024 cycles at an idle array, or at the two of a cohort's lease. -/
def State.idleLease (s : State) (core : Nat) : State :=
  match (s.core core).lease with
  | none => s
  | some l =>
    let cs := leaseOf core l.owner
    if !(cs.all fun k => s.leaseIdle l k) then s
    else
      match l.idle with
      | none => cs.foldl (fun s k => s.modCore k fun q => { q with lease := q.lease.map fun l => { l with idle := some (s.clkOf core) } }) s
      | some t => if s.clkOf core ≥ t + 1024 then s.dropLease cs else s

/-- The words that a fed card needs for a tile. -/
def Cmd.feedNeed (c : Cmd) (w l : Nat) : Nat :=
  c.kb * 256 * (rowEntries w (l * fmtBits (c.f 3 40 4) / 8) * (w / 2))

/-- R326: a fault ends the card at a tile of which `n` steps have run. -/
def State.endTile (s : State) (core : Nat) (c : Cmd) (st n : Nat) : State :=
  ((s.countSteps core c n).finishCmd core 0 c.id st (c.card.tiles % 2 ^ 16)).leaveArray core c.pair

/-- R326: a tile that has been written counts once the host and the peers have performed its words; a word refused there ends the card at the
tile. (DEDUCED, log 82) -/
def State.tileWritten (s : State) (core : Nat) (c : Cmd) : State :=
  let key := engKey core 0 c.id
  if s.engPending key then s
  else
    match s.engRefused key with
    | some st => s.endTile core c st c.kb
    | none => (((s.forgetOps key).modCmd core 0 c.id fun d => { d with card := ⟨d.card.tiles + 1, 0, d.card.bad⟩ }).putDrain core c.id).boundary core c

/-- One output tile of the card on the array. -/
def State.runTile (s : State) (core : Nat) (c : Cmd) : State :=
  let g := s.cmdGrid c
  let a := s.agentOf c core
  if c.card.steps = 1 then s.tileWritten core c
  else if c.rows.isEmpty && decide (c.card.tiles ≥ c.tiles) then s.cardDone core c
  else if !c.rows.isEmpty then
    let s := s.putDrain core c.id
    (match s.cmdAt core 0 c.id with
    | some d =>
      if d.rows.isEmpty ∧ d.card.tiles ≥ d.tiles then s.cardDone core d
      else if g.aborted then s.cardCancelled core d
      else if !d.rows.isEmpty && s.stopping core g.ctx then s.leaveArray core c.pair else s
    | none => s)
  else
    let cs := (c.onCores core).filterMap fun k => ((s.core k).cardRes (s.ownerOf c.team) c).map fun r => (k, r)
    if cs.length ≠ (c.onCores core).length then s.endTile core c Code.illegalOperand.num 0
    else
      let need := if c.feed.isSome then c.feedNeed g.f.w (16 * 2 ^ (cs.head?.map fun p => p.2.bl).getD 0) else 0
      let s := if c.feed.isSome then s.takeFeed core c.id need else s
      match s.cmdAt core 0 c.id with
      | none => s
      | some c =>
        if c.fed.length < need then
          (if g.aborted then s.cardCancelled core c else if s.stopping core g.ctx then s.leaveArray core c.pair else s)
        else
          match s.gemmTile a c g.f.w cs with
          | (s, .wait) => s
          | (s, .fault x n) => s.endTile core c x.num n
          | (s, .rows r bad) =>
            match s.putTile a core c g.f.w r bad with
            | (s, .wait) => s
            | (s, .fault x) => s.endTile core c x.num c.kb
            | (s, .data _) =>
              match s.cmdAt core 0 c.id with
              | some d => s.tileWritten core d
              | none => s

/-- TILE_BOUNDARY (R326, R331): the tile under way ends. An idle array stands at a boundary. -/
def execTileBoundary (core : Nat) (s : State) : Host.Outcome State Fault Refusal :=
  match (s.core core).array with
  | none => .next (s.idleLease core)
  | some seq =>
    match s.cmdAt core 0 seq with
    | none => .next (s.modCore core fun k => { k with array := none })
    | some c =>
      if c.pair && (s.core (core + 1)).array.isSome then .next s
      else .next (s.runTile core c)

end Sys2Proof.Machine
end

