-- ==== Sys2Proof/Machine/Copy.lean ====
section
/-! DEFINITION. COPY and its transforms (R332, R333, R350), the collectives (R334, R335, R381, R382), BUILD (R336), LAUNCH (R337), and
SETASIDE (R352 to R354). -/

namespace Sys2Proof.Machine

/-! ### COPY with NONE (R333) -/

/-- The pieces of a copy, cut at the lines of source and destination: offset and length. -/
def copyPieces (src dst off : Nat) : Nat → Nat → List (Nat × Nat)
  | 0, _ => []
  | fuel + 1, n =>
    if n = 0 then []
    else
      let k := min n (min (128 - (src + off) % 128) (128 - (dst + off) % 128))
      (off, k) :: copyPieces src dst (off + k) fuel (n - k)

/-- A piece that is read and may be written, or why not. -/
def State.copyPiece (s : State) (a : Agent) (src dst : Nat) (p : Nat × Nat) : State × Got :=
  match s.engRead1 a (src + p.1) p.2 with
  | (s, .data b) =>
    (match s.engReady1 a (dst + p.1) p.2 with
    | (s, .data _) => (s, .data b)
    | r => r)
  | r => r

def Got.isWait : Got → Bool
  | .wait => true
  | _ => false

/-- What the pieces that must wait ask for is asked for; nothing is read. -/
def State.copyNeed (s : State) (a : Agent) (src dst : Nat) (ps : List (Nat × Nat)) : State × Bool :=
  ps.foldl (fun (s, w) p =>
    match s.copyPiece a src dst p with
    | (s, .wait) => (s, true)
    | _ => (s, w)) (s, false)

/-- All pieces in order, once none must wait. -/
def State.copyAll (s : State) (a : Agent) (src dst : Nat) (ps : List (Nat × Nat)) : State × List (Nat × Got) :=
  match s.copyNeed a src dst ps with
  | (s, true) => (s, ps.map fun p => (p.1, .wait))
  | (_, false) => ps.foldl (fun (s, gs) p =>
    let (s, g) := s.copyPiece a src dst p
    (s, gs ++ [(p.1, g)])) (s, [])

def Got.code : Got → Option Code
  | .fault c => some c
  | _ => none

/-- The transform of a COPY. -/
def Cmd.xf (c : Cmd) : Nat := c.f 3 40 4

/-- R332: bits that no COPY may set. SCALE, SRC2 and RSTR have no fate in a command that does not use them: they are ignored.
(DEDUCED, log 78) -/
def Cmd.copyRsv (c : Cmd) : Bool := c.f 3 56 8 == 0 && c.f 4 32 32 == 0 && c.f 6 40 24 == 0 && wordAt c.w 7 == 0

/-- R332: the words of a COPY with NONE. (DEDUCED, log 78) -/
def Cmd.copyNoneOk (c : Cmd) : Bool := c.xf == 0 && c.f 3 44 12 == 0 && c.copyRsv

/-- A COPY that a step of its transform may start. -/
def State.copyStart (s : State) (core seq : Nat) (ok : Nat → Bool) : Option Cmd :=
  match s.cmdAt core 1 seq with
  | some c => if c.code == 0x20 && ok c.xf && s.mayStart core 1 seq then some c else none
  | none => none

/-- The copy of a waiting command that may start, or of one under way. -/
def State.copyGoing (s : State) (core seq : Nat) : Option Cmd :=
  match s.cmdAt core 1 seq with
  | some c => if c.code == 0x20 && (c.xf == 0 || decide (c.xf > 4)) && (c.phase == .running || s.mayStart core 1 seq) then some c else none
  | none => none

/-- R212: how many of the pieces that are left a step of a copy copies: free, at least one; all of them where a piece may hold a part of a
32-bit word of the source or of the destination, which is read or written whole. (DESIGN CHOICE, log 108) -/
def copyPart (fresh left src dst : Nat) : Nat :=
  if left ≤ 1 ∨ src % 4 ≠ dst % 4 then left else 1 + Config.freeNat (fresh * 2 ^ 44) % left

/-- A piece that was read is written. -/
def State.copyPut (s : State) (a : Agent) (dst : Nat) (o : Nat × Got) : State :=
  match o.2 with
  | .data b => s.engWrite1 a (dst + o.1) b
  | _ => s

/-- A command of which `n` pieces have been copied, of `all`. -/
def State.copyOn (s : State) (core seq n all : Nat) : State :=
  if all ≤ n then s.finishCmd core 1 seq 0 0
  else s.modCmd core 1 seq fun c => { c with phase := .running, card := { c.card with tiles := n } }

/-- R333: a copy that meets faults among the pieces left: which other bytes were copied, and which fault is named, the spec does not
say: both are free. (DESIGN CHOICE, log 77) -/
def State.copyFaulted (s : State) (core seq : Nat) (a : Agent) (dst : Nat) (gs : List (Nat × Got)) : State :=
  let f := s.fresh
  let bad := gs.filterMap fun g => g.2.code
  let s := gs.foldl (fun s g => if Config.freeBool (f * 2 ^ 44 + g.1) then s.copyPut a dst g else s) s
  { s with fresh := f + 1 }.failCmd core 1 seq (bad.getD (Config.freeNat (f * 2 ^ 44) % bad.length) .translation)

/-- COPY_NONE (R333): a step copies some of the pieces that are left (R212). -/
def execCopyNone (core seq : Nat) (s : State) : Host.Outcome State Fault Refusal :=
  match s.copyGoing core seq with
  | none => .next s
  | some c =>
    if !c.copyNoneOk then .next (s.failCmd core 1 seq .illegalOperand)
    else
      let a := s.agentOf c core
      let src := (wordAt c.w 1).toNat
      let dst := (wordAt c.w 2).toNat
      let all := copyPieces src dst 0 (c.f 3 0 40 / 64 + 4) (c.f 3 0 40)
      let rest := all.drop c.card.tiles
      let k := copyPart s.fresh rest.length src dst
      let (s, gs) := s.copyAll a src dst (rest.take k)
      if gs.any fun g => g.2.isWait then .next s
      else if gs.any fun g => g.2.code.isSome then
        (let (s, gs) := s.copyAll a src dst rest
         if gs.any fun g => g.2.isWait then .next s else .next (s.copyFaulted core seq a dst gs))
      else
        let s := gs.foldl (fun s g => s.copyPut a dst g) s
        .next ({ s with fresh := s.fresh + 1 }.copyOn core seq (c.card.tiles + k) all.length)

/-! ### Memory-side work (R349, R350) -/

/-- R166, R354: where an MSU's access goes: a command that had started may go on using a channel whose set-aside has ended. -/
def State.msuPlace (s : State) (a : Agent) (va : Nat) (write : Bool) : Loc :=
  let mine := (s.mem.lame.filter fun p => p.2.2 == a.key).map fun p => (p.1, p.2.1, 0)
  if mine.isEmpty then s.engPlace (a.core / 64) a.ctx va write
  else (s.modMem fun m => { m with aside := m.aside ++ mine }).engPlace (a.core / 64) a.ctx va write

/-- R349: bytes of a line read by an MSU. -/
def State.msuRead (s : State) (a : Agent) (va n : Nat) : State × Got :=
  match s.msuPlace a va false with
  | .line (.dev l) off attr _ =>
    if !attrMsc attr then (s, .fault .permission)
    else if s.hostHeld (.dev l) then
      (s.engAsk a (.backInval l) fun _ => .backInval l, .wait)
    else (s, .data (withPoison (s.mem.dram.read (128 * l) 128) (dramPoison s.mem l) off n))
  | .fault c => (s, .fault c)
  | _ => (s, .fault .permission)

/-- R349, R350: the line of the destination that an MSU writes, or why not. -/
def State.msuLine (s : State) (a : Agent) (va : Nat) : State × Except Got (Nat × Nat) :=
  match s.msuPlace a va true with
  | .line (.dev l) off attr _ =>
    if !attrMsc attr then (s, .error (.fault .permission))
    else if s.hostHeld (.dev l) then
      (s.engAsk a (.backInval l) fun _ => .backInval l, .error .wait)
    else (s, .ok (l, off))
  | .fault c => (s, .error (.fault c))
  | _ => (s, .error (.fault .permission))

/-- Bytes written to DRAM by an MSU; whole sectors lose their poison. -/
def State.msuWrite (s : State) (l off : Nat) (b : List Byte) : State :=
  s.modMem fun m => { m with
    dram := m.dram.write (128 * l + off) b
    poison := m.poison.filter fun x => !(x / 4 == l && (covered off b.length).getLsbD (x % 4)) }

/-- R214: the copies of a line that the caches hold are invalidated. -/
def State.msuDrop (s : State) (l : Nat) : State :=
  let s := match s.dirOf (.dev l) with
    | some e => if e.cls == Cls.dir then e.sharers.foldl (fun (s : State) c => s.dropL1 c (.dev l)) s else s
    | none => s
  let s := s.modDir (.dev l) fun (e : DirE) => if e.cls == Cls.dir then { e with sharers := [], owner := none } else e
  s.dropCell (.dev l)

/-- R214: the destination range's lines, where they translate, are invalidated. -/
def State.msuInval (s : State) (a : Agent) (va n : Nat) : State :=
  (pieces va n).foldl (fun s (v, _) =>
    match s.msuPlace a v true with
    | .line (.dev l) _ _ _ => s.msuDrop l
    | _ => s) s

/-! ### Transforms (R333) -/

/-- The formats of the transforms. -/
def xfFmt (xf f : Nat) : Bool := [0, 1, 2, 3, 4, 6, 9, 10, 11, 12, 13].contains f || (f == 5 && xf == 3)

def sizeOf' (f : Nat) : Nat := fmtBits f / 8

def Cmd.sfmt (c : Cmd) : Nat := c.f 3 44 4
def Cmd.dfmt (c : Cmd) : Nat := c.f 3 48 4
def Cmd.scnt (c : Cmd) : Nat := c.f 3 52 4
def Cmd.rstr (c : Cmd) : Nat := c.f 6 0 40

/-- R332, R333: the words of a transform. (DEDUCED, log 78) -/
def Cmd.xfOk (c : Cmd) : Bool :=
  let x := c.xf
  xfFmt x c.sfmt && xfFmt x c.dfmt && (if x = 4 then c.scnt != 0 else c.scnt == 0) && c.copyRsv

/-- R333: the operands' alignment. -/
def Cmd.xfAligned (c : Cmd) : Bool :=
  let es := sizeOf' c.sfmt
  c.f 3 0 40 % es == 0 && (wordAt c.w 1).toNat % es == 0 && (wordAt c.w 2).toNat % sizeOf' c.dfmt == 0 &&
  (c.xf != 2 || (wordAt c.w 5).toNat % es == 0) && (c.scnt ≤ 1 || c.rstr % es == 0)

/-- An element of a source. -/
def State.msuElem (s : State) (a : Agent) (f va : Nat) : State × Except Got FV :=
  match s.msuRead a va (sizeOf' f) with
  | (s, .data b) => if anyPoison b then (s, .error (.fault .machineCheck)) else (s, .ok (elemFV f (leNat (rawBytes b))))
  | (s, g) => (s, .error g)

/-- R333: the sum of a reduction. -/
def State.msuSum (s : State) (a : Agent) (c : Cmd) (i : Nat) : List Nat → FV → State × Except Got FV
  | [], acc => (s, .ok acc)
  | j :: r, acc =>
    match s.msuElem a c.sfmt ((wordAt c.w 1).toNat + j * c.rstr + i * sizeOf' c.sfmt) with
    | (s, .error g) => (s, .error g)
    | (s, .ok v) =>
      let t := FV.add .rn acc v
      State.msuSum s a c i r (if (fltFmt c.sfmt).isSome then FV.ofBits fmt32 false (FV.round fmt32 .rn false false t) else t)

/-- R333: element `i` of the destination, before its conversion. -/
def State.xfElem (s : State) (a : Agent) (c : Cmd) (i : Nat) : State × Except Got FV :=
  let at_ := fun (w : Nat) => (wordAt c.w w).toNat + i * sizeOf' c.sfmt
  if c.xf = 4 then s.msuSum a c i (List.range c.scnt) (.fin false 0 0)
  else
    match s.msuElem a c.sfmt (at_ 1) with
    | (s, .error g) => (s, .error g)
    | (s, .ok v) =>
      match c.xf with
      | 1 => (s, .ok (FV.mul v (f32 (BitVec.ofNat 32 (c.f 4 0 32)))))
      | 2 =>
        (match s.msuElem a c.sfmt (at_ 5) with
        | (s, .error g) => (s, .error g)
        | (s, .ok u) => (s, .ok (FV.add .rn v u)))
      | _ => (s, .ok v)

/-- One line of the destination: its first element and how many; what is written where. -/
structure XfLine where
  line : Nat
  off : Nat
  bytes : List Byte
  deriving DecidableEq, Repr

/-- R350: one destination line, computed. -/
def State.xfLine (s : State) (a : Agent) (c : Cmd) (first n : Nat) : State × Except Got XfLine :=
  let ed := sizeOf' c.dfmt
  match s.msuLine a ((wordAt c.w 2).toNat + first * ed) with
  | (s, .error g) => (s, .error g)
  | (s, .ok (l, off)) =>
    let (s, r) := (List.range n).foldl (fun ((s, r) : State × Except Got (List Byte)) j =>
      match r with
      | .error g => (s, .error g)
      | .ok b =>
        match s.xfElem a c (first + j) with
        | (s, .error g) => (s, .error g)
        | (s, .ok v) => (s, .ok (b ++ leBytes ed (fvTo c.dfmt v)))) (s, .ok [])
    match r with
    | .error g => (s, .error g)
    | .ok b => (s, .ok ⟨l, off, b⟩)

/-- The elements of each destination line: the first and their number. -/
def xfLines (dst ed first : Nat) : Nat → Nat → List (Nat × Nat)
  | 0, _ => []
  | fuel + 1, n =>
    if n = 0 then []
    else
      let k := min n ((128 - (dst + first * ed) % 128) / ed)
      (first, k) :: xfLines dst ed (first + k) fuel (n - k)

/-- R175: the channel of a line; lines that do not translate have none. -/
def lineChannel (l : Nat) : Nat := channelOf (l / 512)

/-- R350: the channel whose MSU writes a line of the destination; a line that does not translate is of no MSU that the spec names: the
model gives all such lines one of their own. (DESIGN CHOICE, log 77) -/
def State.xfChan (s : State) (a : Agent) (va : Nat) : Nat :=
  match s.msuPlace a va true with
  | .line (.dev l) _ _ _ => lineChannel l
  | _ => 128

/-- R333, R350: the lines of a transform's destination, computed, or why not. -/
def State.xfAll (s : State) (core : Nat) (c : Cmd) : State × List (Nat × Except Got XfLine) :=
  let n := c.f 3 0 40 / sizeOf' c.sfmt
  (xfLines (wordAt c.w 2).toNat (sizeOf' c.dfmt) 0 (n + 1) n).foldl (fun ((s, rs) : State × List (Nat × Except Got XfLine)) (first, k) =>
    let (s, r) := s.xfLine (s.agentOf c core) c first k
    (s, rs ++ [(first, r)])) (s, [])

/-- A line that waits for the host or a peer. -/
def xfWaits : Except Got XfLine → Bool
  | .error .wait => true
  | _ => false

/-- R350: the MSUs work side by side, each through its lines in ascending order, a line computed and written before the MSU's next; after
a fault no line is started. Which MSU is next is free. `ls`: the lines left, each with its channel; `fuel` bounds their number.
(DESIGN CHOICE, log 2) -/
def State.xfRun (a : Agent) (c : Cmd) (fresh : Nat) : Nat → State → List (Nat × Nat × Nat) → State × Option Code
  | 0, s, _ => (s, none)
  | fuel + 1, s, ls =>
    let chans := (ls.map Prod.fst).eraseDups
    let ch := if chans.length ≤ 1 then chans.headD 0 else chans.getD (Config.freeNat (fresh * 2 ^ 40 + fuel) % chans.length) 0
    match ls.find? fun l => l.1 == ch with
    | none => (s, none)
    | some (_, first, k) =>
      match s.xfLine a c first k with
      | (s, .error (.fault x)) => (s, some x)
      | (s, .error _) => (s, some .translation)
      | (s, .ok x) => State.xfRun a c fresh fuel (s.msuWrite x.line x.off x.bytes) (ls.filter fun l => l.2.1 != first)

/-- The lines of a transform's destination, each with its channel, its first element and their number. -/
def State.xfWork (s : State) (a : Agent) (c : Cmd) : List (Nat × Nat × Nat) :=
  let n := c.f 3 0 40 / sizeOf' c.sfmt
  let dst := (wordAt c.w 2).toNat
  (xfLines dst (sizeOf' c.dfmt) 0 (n + 1) n).map fun l => (s.xfChan a (dst + l.1 * sizeOf' c.dfmt), l)

/-- R333, R350: a transform from its words to its completion. -/
def State.transform (s : State) (core seq : Nat) (c : Cmd) : State :=
  if !c.xfOk then s.failCmd core 1 seq .illegalOperand
  else if !c.xfAligned then s.failCmd core 1 seq .align
  else
    let a := s.agentOf c core
    let dst := (wordAt c.w 2).toNat
    let ed := sizeOf' c.dfmt
    let n := c.f 3 0 40 / sizeOf' c.sfmt
    let (s, rs) := s.xfAll core c
    if rs.any fun x => xfWaits x.2 then s
    else
      let (s, e) := State.xfRun a c s.fresh (n + 1) { s with fresh := s.fresh + 1 } (s.xfWork a c)
      let s := s.msuInval a dst (n * ed)
      match e with
      | some x => s.failCmd core 1 seq x
      | none => s.finishCmd core 1 seq 0 0

/-- COPY_SCALE (R333). -/
def execCopyScale (core seq : Nat) (s : State) : Host.Outcome State Fault Refusal :=
  match s.copyStart core seq (· == 1) with
  | some c => .next (s.transform core seq c)
  | none => .next s

/-- COPY_ADD (R333). -/
def execCopyAdd (core seq : Nat) (s : State) : Host.Outcome State Fault Refusal :=
  match s.copyStart core seq (· == 2) with
  | some c => .next (s.transform core seq c)
  | none => .next s

/-- COPY_CAST (R333). -/
def execCopyCast (core seq : Nat) (s : State) : Host.Outcome State Fault Refusal :=
  match s.copyStart core seq (· == 3) with
  | some c => .next (s.transform core seq c)
  | none => .next s

/-- COPY_REDUCE (R333). -/
def execCopyReduce (core seq : Nat) (s : State) : Host.Outcome State Fault Refusal :=
  match s.copyStart core seq (· == 4) with
  | some c => .next (s.transform core seq c)
  | none => .next s

/-! ### Collectives (R334, R335, R381, R382) -/

def Cmd.cop (c : Cmd) : Nat := c.f 3 40 4
def Cmd.bpm (c : Cmd) : Nat := c.f 3 0 40
def Cmd.nch (c : Cmd) : Nat := c.f 3 48 4 + 1

/-- Bytes of a chunk. -/
def Cmd.chunk (c : Cmd) : Nat := c.bpm / c.nch

/-- R334: the words of a collective. -/
def Cmd.collOk (c : Cmd) : Bool :=
  c.bpm % (256 * c.nch) == 0 && decide (c.cop ≤ 2) && [0, 1, 2, 10, 13].contains (c.f 3 44 4) &&
  (if c.cop = 0 then c.f 3 52 4 == 0 else decide (c.f 3 52 4 ≤ 2)) && c.zeroFrom 4

/-- The group that a command names. -/
def State.groupOf (s : State) (ctx id : Nat) : Option Group :=
  match s.ctx ctx with
  | some c => c.groups.find? fun g => g.id == id
  | none => none

/-- R382: contributions go to the switches as reduce-write flits. -/
def Cmd.viaSwitch (c : Cmd) (g : Group) : Bool := c.cop != 0 && hdrFlags c.head % 2 == 0 && g.sw

/-- The source of member block `j` of a chunk. -/
def Cmd.srcOf (c : Cmd) (j ch : Nat) : Nat := (wordAt c.w 1).toNat + (if c.cop = 1 then j * c.bpm else 0) + ch * c.chunk

/-- R378, R382: the reduce-write flits of a contribution to a chunk, to member `mem`. (DESIGN CHOICE, log 69) -/
def State.rwriteFlits (s : State) (c : Cmd) (g : Group) (mem ch : Nat) (b : List PByte) : State :=
  let base := (wordAt c.w 2).toNat + ch * c.chunk
  (List.range (b.length / 128)).foldl (fun s k =>
    let off := base + 128 * k
    match s.portOf (off / 128) with
    | none => s
    | some port =>
      let f := s.flitTo port (g.members.getD mem 0) 8 c.cop (c.f 3 44 4) (off % 2 ^ 42)
        (BitVec.ofNat 64 g.rank) (slice (rawBytes b) (128 * k) 128)
      let f := { f with poison := poisonAfter 0 0 ((b.drop (128 * k)).take 128), grp := BitVec.ofNat 8 g.id, chunk := BitVec.ofNat 4 ch, red := BitVec.ofNat 2 (c.f 3 52 4) }
      { s.sendFlit f with link := { s.link with nextFlit := (s.link.nextFlit + 1) % 4096 } }) s

/-- R335, R382: the contributions that this member sends: the member and the chunk. An all-reduce contributes its source to a result
that the switches multicast; a reduce-scatter contributes block j to member j's result. (DESIGN CHOICE, log 69) -/
def Cmd.sends (c : Cmd) (g : Group) : List (Nat × Nat) :=
  ((if c.cop = 1 then (List.range g.g).filter fun j => j != g.rank else [(g.rank + 1) % g.g])).flatMap fun j =>
    (List.range c.nch).map fun ch => (j, ch)

/-- R382: a contribution is read, and goes out to the switch; one that cannot be read ends its chunk later (R335). -/
def State.sendChunk (a : Agent) (c : Cmd) (g : Group) (s : State) (p : Nat × Nat) : State × Bool :=
  match s.engRead a (c.srcOf (if c.cop = 1 then p.1 else g.rank) p.2) c.chunk with
  | (s, .data b) => (s.rwriteFlits c g p.1 p.2 b, false)
  | (s, .wait) => (s, true)
  | (s, .fault _) => (s, false)

/-- R382: every contribution goes out once all of them are there; the second part: some still wait. -/
def State.sendChunks (s : State) (a : Agent) (c : Cmd) (g : Group) : State × Bool :=
  let ps := c.sends g
  let (t, w) := ps.foldl (fun ((s, w) : State × Bool) p =>
    let (s, g) := s.engRead a (c.srcOf (if c.cop = 1 then p.1 else g.rank) p.2) c.chunk
    (s, w || g.isWait)) (s, false)
  if w then (t, true) else (ps.foldl (fun s p => (State.sendChunk a c g s p).1) s, false)

/-- A collective starts: its words are checked, and every chunk is under way. -/
def State.startColl (s : State) (core seq op : Nat) : State :=
  match s.cmdAt core 3 seq with
  | none => s
  | some c =>
    if !(c.code == 0x40 && s.mayStart core 3 seq && (c.cop == op || (op == 0 && decide (c.cop > 2)))) then s
    else
      match s.groupOf (s.cmdGrid c).ctx (c.f 3 56 8) with
      | none => s.failCmd core 3 seq .illegalOperand
      | some g =>
        if !c.collOk then s.failCmd core 3 seq .illegalOperand
        else
          let (s, w) := if c.viaSwitch g then s.sendChunks (s.agentOf c core) c g else (s, false)
          if w then s
          else s.modCmd core 3 seq fun d => { d with phase := .running, chunks := List.range c.nch }

/-- ALL_GATHER (R335). -/
def execAllGather (core seq : Nat) (s : State) : Host.Outcome State Fault Refusal := .next (s.startColl core seq 0)

/-- REDUCE_SCATTER (R335). -/
def execReduceScatter (core seq : Nat) (s : State) : Host.Outcome State Fault Refusal := .next (s.startColl core seq 1)

/-- ALL_REDUCE (R335). -/
def execAllReduce (core seq : Nat) (s : State) : Host.Outcome State Fault Refusal := .next (s.startColl core seq 2)

/-- R334, R335: two contributions combined: add in FP32 or exactly, min, max. -/
def combine2 (red dt : Nat) (x y : FV) : FV :=
  match red with
  | 0 =>
    let t := FV.add .rn x y
    if (fltFmt dt).isSome then FV.ofBits fmt32 false (FV.round fmt32 .rn false false t) else t
  | 1 =>
    if (fltFmt dt).isSome then FV.ofBits fmt32 false (minBits fmt32 false (FV.round fmt32 .rn false false x) (FV.round fmt32 .rn false false y))
    else if FV.cmp x y ≤ 0 then x else y
  | _ =>
    if (fltFmt dt).isSome then FV.ofBits fmt32 false (maxBits fmt32 false (FV.round fmt32 .rn false false x) (FV.round fmt32 .rn false false y))
    else if FV.cmp x y ≥ 0 then x else y

/-- R335: in ascending rank. -/
def combineOrdered (red dt : Nat) : List FV → FV
  | [] => .fin false 0 0
  | x :: r => r.foldl (combine2 red dt) x

/-- R382: in an order that is free: two partial results at a time, whichever two. (DEDUCED, log 85) -/
def combineAny (red dt n : Nat) : Nat → List FV → FV
  | 0, l => l.headD (.fin false 0 0)
  | fuel + 1, l =>
    match l with
    | [] => .fin false 0 0
    | [x] => x
    | x :: r =>
      let i := Config.freeNat (n * 2 ^ 7 + fuel) % r.length
      let y := r.getD i (.fin false 0 0)
      combineAny red dt n fuel (r.eraseIdx i ++ [combine2 red dt x y])

/-- R334, R335, R382: the result's bits; integers modulo 2^32. -/
def collBits (dt : Nat) (v : FV) : Nat :=
  match fltFmt dt with
  | some m => FV.round m .rn false false v
  | none => match v with
    | .fin n m e => wrapN 32 (FV.toInt .rn n m e)
    | _ => 0

/-- R335: a chunk reduced, from the members' contributions in rank order. (DEDUCED, log 85) -/
def reduceChunk (red dt : Nat) (ordered : Bool) (fresh : Nat) (ds : List (List Byte)) (n : Nat) : List Byte :=
  let e := sizeOf' dt
  (List.range (n / e)).flatMap fun i =>
    let xs := ds.map fun d => elemFV dt (leNat (slice d (i * e) e))
    leBytes e (collBits dt (if ordered then combineOrdered red dt xs else combineAny red dt (fresh * 2 ^ 36 + i) ds.length xs))

/-- R382: a member's contribution that has arrived in reduce-write flits. (DESIGN CHOICE, log 69) -/
def State.partOf (s : State) (c : Cmd) (g : Group) (ch rank : Nat) : Option (List Byte) :=
  let base := (wordAt c.w 2).toNat + ch * c.chunk
  let got := (List.range (c.chunk / 128)).map fun k =>
    (s.link.parts.find? fun (key, r, off, _) => key == g.id * 16 + ch && r == rank && off == (base + 128 * k) % 2 ^ 42).map fun p => p.2.2.2
  if got.all Option.isSome then some (got.flatMap fun o => o.getD []) else none

/-- R405: a contribution to a chunk has arrived with poison. -/
def State.partPoison (s : State) (g : Group) (ch : Nat) : Bool :=
  s.link.parts.any fun p => p.1 == g.id * 16 + ch && p.2.2.2.isEmpty

/-- R335: what chunk `ch` writes: addresses and bytes. -/
def chunkWrites (c : Cmd) (g : Group) (ch fresh : Nat) (ds : List (List Byte)) : List (Nat × List Byte) :=
  let dst := (wordAt c.w 2).toNat + ch * c.chunk
  if c.cop = 0 then ds.zipIdx.map fun (d, j) => (dst + j * c.bpm, d)
  else [(dst, reduceChunk (c.f 3 52 4) (c.f 3 44 4) (hdrFlags c.head % 2 == 1 || !g.sw) fresh ds c.chunk)]

/-- A chunk's name among host operations. -/
def chunkKey (core seq chunk : Nat) : Nat := 2 ^ 90 + engKey core 3 seq * 16 + chunk

/-- R381, R382: chunk `chunk` ends with status `st` and reports; the last one ends the command. -/
def State.closeChunk (s : State) (core seq : Nat) (c : Cmd) (g : Group) (chunk st : Nat) : State :=
  let s := s.modMem fun m => { m with hostOps := m.hostOps.filter fun o => o.req != chunkKey core seq chunk }
  let s := s.modCmd core 3 seq fun d => { d with
    chunks := d.chunks.filter fun x => x != chunk
    phase := if d.chunks.all fun x => x == chunk then .finished 0 0 else .running }
  let s := { s with link := { s.link with parts := s.link.parts.filter fun p => p.1 != g.id * 16 + chunk } }
  s.report { c.who core with tag := hdrTag c.head + chunk } st chunk

/-- R334: the contributions of every rank to a chunk, the own one still to be read: what arrived, else what the peers give. -/
def State.partsOf (s : State) (c : Cmd) (g : Group) (chunk : Nat) (peers : List (List Byte)) : List (List Byte) :=
  (List.range g.g).map fun j =>
    if j = g.rank then List.replicate c.chunk 0 else (s.partOf c g chunk j).getD (peers.getD j [])

/-- Every range that a chunk writes is translated and checked. -/
def State.rangesReady (s : State) (a : Agent) (ws : List (Nat × List Byte)) : State × Got :=
  ws.foldl (fun p w => ((p.1.engReady a w.1 w.2.length).1, p.2.and (p.1.engReady a w.1 w.2.length).2)) (s, Got.data [])

/-- A chunk's ranges are written. -/
def State.writeRanges (s : State) (a : Agent) (ws : List (Nat × List Byte)) : State :=
  ws.foldl (fun s w => s.engWrite a w.1 (clean w.2)) s

/-- A chunk's writes have been made; those to the host or to peers are performed once the answers are there (R211). -/
def State.chunkWritten (s : State) (key : Nat) : Bool := s.mem.hostOps.any fun o => o.req == key && o.kind == .zeroRead

/-- R335, R382: a chunk whose contributions have arrived is read, reduced and written; it ends at once where nothing leaves the
module. -/
def State.runChunk (s : State) (core seq : Nat) (c : Cmd) (g : Group) (chunk : Nat) (ds : List (List Byte)) : State :=
  let a := { s.agentOf c core with key := chunkKey core seq chunk }
  match s.engRead a (c.srcOf g.rank chunk) c.chunk with
  | (s, .wait) => s
  | (s, .fault x) => s.closeChunk core seq c g chunk x.num
  | (s, .data b) =>
    if anyPoison b then s.closeChunk core seq c g chunk Code.machineCheck.num
    else
      let ws := chunkWrites c g chunk s.fresh (ds.set g.rank (rawBytes b))
      match ({ s with fresh := s.fresh + 1 } : State).rangesReady a ws with
      | (s, .wait) => s
      | (s, .fault x) => s.closeChunk core seq c g chunk x.num
      | (s, .data _) =>
        let s := s.writeRanges a ws
        if s.chunkWritten a.key then s else s.closeChunk core seq c g chunk 0

/-- CHUNK_COMPLETION (R335, R382): the members' contributions of a chunk, in rank order, have arrived; a list that is not whole
stands for flits lost to a port failure, where a port has failed since the collective started. A chunk's tag sets once its writes
are performed, with the status of one that was refused (R211). (DEDUCED, log 85) -/
def execChunkCompletion (core seq chunk : Nat) (peers : List (List Byte)) (s : State) : Host.Outcome State Fault Refusal :=
  match s.cmdAt core 3 seq with
  | none => .next s
  | some c =>
    if c.phase != .running || !c.chunks.contains chunk then .next s
    else
      match s.groupOf (s.cmdGrid c).ctx (c.f 3 56 8) with
      | none => .next s
      | some g =>
        let key := chunkKey core seq chunk
        let ds := s.partsOf c g chunk peers
        if s.chunkWritten key then
          .next (if s.engPending key then s else s.closeChunk core seq c g chunk ((s.engRefused key).getD 0))
        else if s.partPoison g chunk then .next (s.closeChunk core seq c g chunk Code.machineCheck.num)
        else if ds.any fun d => d.length != c.chunk then
          .next (if c.card.bad then s.closeChunk core seq c g chunk Code.machineCheck.num else s)
        else .next (s.runChunk core seq c g chunk ds)

/-! ### BUILD (R336) -/

/-- R233: the host's or a build's descriptor is refused. -/
def descBad (d0 d1 d2 d3 : DWord) : Bool :=
  let kind := fld d0 0 4
  let kf := fld d0 4 4
  let roww := fld d0 16 8
  decide (kind > 4) || fld d0 24 8 != 0 || fld d0 12 4 != 0 || fld d0 8 2 != 0 || decide (kf > 5) || (d0.getLsbD 11 && kind != 4) ||
  fld d1 57 7 != 0 || fld d2 40 24 != 0 ||
  (kind != 0 && (
    roww == 0 || fld d1 0 7 != 0 || decide (fld d1 0 57 ≥ 2 ^ 55) || fld d2 0 40 == 0 ||
    fld d2 0 40 % (16 * roww) != 0 ||
    (kind == 1 && decide (kf > 3)) || (kind == 4 && kf != 5) ||
    (kind == 4 && fld d3 20 44 != 0) || ((kind == 2 || kind == 3) && d3 != 0)))

/-- R166: the line of an address of the storage that a build is given, the byte in it and its attributes: the storage is no declared
table's yet, so step 3 of R182 is not asked of it. (DEDUCED, log 64) -/
def State.storeLine (s : State) (ctx va : Nat) (rc : Bool) : Option (LineId × Nat × BitVec 16) :=
  match s.walk ctx va with
  | some e =>
    let pa := e.frameOf (va / 65536) * 65536 + va % 65536
    some (.dev (pa / 128), pa % 128, BitVec.ofNat 16 (e.attr.toNat % 2 ^ 15 + if rc then 2 ^ 15 else 0))
  | none => none

/-- What a build is given: the context, the storage, bytes of a row, key format, and whether the table is row-cached. -/
structure BuildJob where
  ctx : Nat
  base : Nat
  rb : Nat
  kf : KeyFmt
  rc : Bool
  deriving DecidableEq, Repr

/-- The words of a BUILD. -/
def Cmd.job (c : Cmd) (ctx : Nat) : BuildJob :=
  ⟨ctx, c.f 3 0 57, 16 * c.f 2 16 8, fmtOf (c.f 2 4 4), (wordAt c.w 2).getLsbD 10⟩

/-- What a build has found: (slot, key) in slot order, and the −0 keys to be rewritten, or the status and detail that end it. -/
structure Built where
  index : List (Nat × Nat)
  zeros : List (LineId × Nat × BitVec 16)
  bad : Option (Nat × Nat)
  deriving DecidableEq, Repr

/-- R166, R225, R336: one row of a build: its key is read at the home, and a −0 key must be writable. (DEDUCED, log 64) -/
def State.buildRow (j : BuildJob) (s : State) (b : Built) (i : Nat) : State × Built :=
  match s.storeLine j.ctx (j.base + j.rb * i) j.rc with
  | none => (s, { b with bad := some (Code.translation.num, 0) })
  | some (l, off, a) =>
    let n := keyBytes j.kf
    let (s, d, p) := s.agentRead l a j.ctx
    let raw := leNat (slice d off n)
    let k := keyCanon j.kf raw
    if p &&& touched off n ≠ 0 then (s, { b with bad := some (Code.machineCheck.num, 0) })
    else if keyNan j.kf k then (s, { b with bad := some (0x84, 0) })
    else if b.index.any fun e => e.2 == k then (s, { b with bad := some (0x83, i % 2 ^ 16) })
    else if k = raw then (s, { b with index := b.index ++ [(i, k)] })
    else if attrW a then (s, { b with index := b.index ++ [(i, k)], zeros := b.zeros ++ [(l, off, a)] })
    else (s, { b with bad := some (Code.permission.num, 0) })

/-- R224: the homes of the rows' lines can serve the build. -/
def State.buildFree (s : State) (j : BuildJob) (n : Nat) : Bool :=
  (List.range n).all fun i => match s.storeLine j.ctx (j.base + j.rb * i) j.rc with
    | some (l, _, _) => s.homeFree l
    | none => true

/-- R336: the rows of a build, until one ends it. -/
def State.buildIndex (s : State) (j : BuildJob) (n : Nat) : State × Built :=
  (List.range n).foldl (fun (s, b) i => if b.bad.isSome then (s, b) else s.buildRow j b i) (s, ⟨[], [], none⟩)

/-- R336: −0 keys are rewritten as +0. -/
def State.canonRows (s : State) (zs : List (LineId × Nat × BitVec 16)) : State :=
  zs.foldl (fun s z => s.agentWrite z.1 z.2.2 z.2.1 (leBytes 4 0)) s

/-- BUILD (R336), once the host's copies of the rows it rewrites have come back (R229). Whether a build that ends with a status has
rewritten −0 keys is free. (DEDUCED, log 64) -/
def execBuild (core seq : Nat) (s : State) : Host.Outcome State Fault Refusal :=
  match s.cmdAt core 4 seq with
  | none => .next s
  | some c =>
    if !(c.code == 0x50 && s.mayStart core 4 seq) then .next s
    else
      let ctx := (s.cmdGrid c).ctx
      let id := c.f 1 0 20
      let d0 := wordAt c.w 2
      let n := c.f 5 0 32
      let kind := fld d0 0 4
      if (s.current ctx id).isSome then .next (s.failCmd core 4 seq .tableVersion)
      else if c.f 1 20 44 != 0 || c.f 5 32 32 != 0 || !c.zeroFrom 6 || !(kind == 2 || kind == 3) || fld d0 32 32 != 0 ||
          d0.getLsbD 11 || descBad d0 (wordAt c.w 3) (wordAt c.w 4) 0 || decide (n > fld (wordAt c.w 4) 0 40 / (16 * fld d0 16 8)) then
        .next (s.failCmd core 4 seq .illegalOperand)
      else
        if !s.buildFree (c.job ctx) n then .next s
        else
        let (t, b) := s.buildIndex (c.job ctx) n
        match s.askBack (engKey core 4 seq) ctx (b.zeros.map Prod.fst) with
        | some s => .next s
        | none =>
          match b.bad with
          | some (st, detail) =>
            let t := if !b.zeros.isEmpty && Config.freeBool t.fresh then t.canonRows b.zeros else t
            .next ({ t with fresh := t.fresh + 1 }.finishCmd core 4 seq st detail)
          | none =>
            let v : Version := ⟨t.uid, ctx, id, withVersion d0 1, wordAt c.w 3, wordAt c.w 4, 0, true, b.index, [], []⟩
            let t := t.canonRows b.zeros
            .next ({ t with uid := t.uid + 1, tabs := t.tabs ++ [v] }.finishCmd core 4 seq 0 0)

/-! ### LAUNCH (R337) -/

def State.queue (s : State) (q : Nat) : Queue := s.sch.queues.getD q Queue.reset
def State.modQueue (s : State) (q : Nat) (f : Queue → Queue) : State :=
  { s with sch := { s.sch with queues := s.sch.queues.modify q f } }

/-- A launch queue has room for a packet of LAUNCH. (DESIGN CHOICE, log 5) -/
def Queue.room (q : Queue) : Bool := decide ((q.pkts.filter fun p => p.status.isNone).length < 1 + Config.launchMore)

/-- A packet enters a launch queue. Interface 15: it came from LAUNCH. -/
def Queue.enter (q : Queue) (iface ring seq : Nat) (w : List DWord) : Queue :=
  { q with pkts := q.pkts ++ [⟨q.nextIdx, iface, ring, seq, w, false, none⟩], nextIdx := q.nextIdx + 1 }

/-- R307, R337: a LAUNCH that has started waits, for room or for an earlier one of its launch queue, without holding up its team's later
commands. -/
def State.launchWaits (s : State) (core seq : Nat) : State := s.modCmd core 5 seq fun c => { c with phase := .running }

/-- LAUNCH (R337). (DESIGN CHOICE, log 5) -/
def execLaunch (core seq : Nat) (s : State) : Host.Outcome State Fault Refusal :=
  match s.cmdAt core 5 seq with
  | none => .next s
  | some c =>
    let q := c.f 1 0 6
    if !(c.code == 0x60 && (c.phase == .running || s.mayStart core 5 seq)) then .next s
    else if (s.cmdsBefore core 5 seq).any fun d => d.code == 0x60 && d.f 1 0 6 == q && !d.phase.isFinished then .next (s.launchWaits core seq)
    else if c.f 1 6 58 != 0 || !c.zeroFrom 6 then .next (s.failCmd core 5 seq .illegalOperand)
    else
      match (s.queue q).bind with
      | none => .next (s.failCmd core 5 seq .permission)
      | some (ctx, _, _, _) =>
        if ctx != (s.cmdGrid c).ctx then .next (s.failCmd core 5 seq .permission)
        else if !(s.queue q).room then .next (s.launchWaits core seq)
        else
          let w := ((List.range 4).map fun i => wordAt c.w (2 + i)) ++ List.replicate 4 0
          .next ((s.modQueue q fun k => k.enter 15 0 seq w).finishCmd core 5 seq 0 0)

/-! ### SETASIDE (R352 to R354) -/

/-- A DRAM address lies on the channel. -/
def onChannel (ch addr : Nat) : Bool := channelOf (addr / 65536) == ch

/-- R354: a channel is written with zeros, whatever copies were held. (DEDUCED, log 86) -/
def State.zeroChannel (s : State) (ch : Nat) : State :=
  let here := fun (l : LineId) => match l with
    | .dev n => onChannel ch (128 * n)
    | .host _ => false
  let s := s.modMem fun m => { m with
    dram := m.dram.filter fun (a, _) => !onChannel ch a
    poison := m.poison.filter fun x => !onChannel ch (32 * x)
    cellar := m.cellar.filter fun x => !here x.line
    dir := m.dir.filter fun e => !here e.line }
  { s with cores := s.cores.map fun (k : Core) => { k with l1 := k.l1.filter fun (x : L1Line) => !here x.line } }

/-- R229, R354: the lines of a channel of which the host holds copies. -/
def State.hostLinesOn (s : State) (ch : Nat) : List LineId :=
  (s.mem.dir.filter fun e => e.host && (match e.line with
    | .dev n => onChannel ch (128 * n)
    | .host _ => false)).map DirE.line

/-- R354: the channels that a SETASIDE clears: another context used them last. -/
def State.toZero (s : State) (ctx : Nat) (c : Cmd) : List Nat :=
  c.channels.filter fun h => match s.mem.lastCtx.find? fun p => p.1 == h with
    | some (_, x) => x != ctx
    | none => false

/-- SETASIDE (R353, R354): the channels are set aside as it starts; their period begins at its completion (`State.startAside`).
(DEDUCED, log 86) -/
def execSetaside (core seq : Nat) (s : State) : Host.Outcome State Fault Refusal :=
  match s.cmdAt core 5 seq with
  | none => .next s
  | some c =>
    if !(c.code == 0x61 && s.mayStart core 5 seq) then .next s
    else
      let ctx := (s.cmdGrid c).ctx
      let dur := c.f 3 0 32
      if c.channels.isEmpty || dur == 0 || decide (dur > 1000000) || c.f 3 32 32 != 0 || !c.zeroFrom 4 then
        .next (s.failCmd core 5 seq .illegalOperand)
      else if c.channels.any fun h => !s.mem.dedicated.getLsbD h then .next (s.failCmd core 5 seq .permission)
      else
        match c.channels.find? fun h => s.mem.aside.any fun (g, x, _) => g == h && x != ctx with
        | some h => .next (s.finishCmd core 5 seq 0x88 h)
        | none =>
          match s.askBack (engKey core 5 seq) ctx ((s.toZero ctx c).flatMap s.hostLinesOn) with
          | some s => .next s
          | none =>
            let s := (s.toZero ctx c).foldl State.zeroChannel s
            let s := s.modMem fun m => { m with
              aside := m.aside ++ (c.channels.filter fun h => !m.aside.any fun p => p.1 == h).map fun h => (h, ctx, 0)
              lastCtx := (m.lastCtx.filter fun p => !c.channels.contains p.1) ++ c.channels.map fun h => (h, ctx) }
            .next (s.finishCmd core 5 seq 0 0)

/-- R177: TLB entries of a context that satisfy a test are invalidated, at every core and pair. -/
def State.dropTlb (s : State) (bad : TlbE → Bool) : State :=
  let keep := fun (t : List TlbE) => t.filter fun e => !bad e
  let s := s.modMem fun m => { m with pairTlb := m.pairTlb.map keep }
  { s with cores := s.cores.map fun (k : Core) => { k with tlb := keep k.tlb } }

/-- An entry maps a frame of the channel. -/
def TlbE.onCh (e : TlbE) (ch : Nat) : Bool := decide (e.page < 2 ^ 39) && (List.range (min e.pages 32)).any fun i => channelOf (e.frame + i) == ch

/-- R354: a memory-side command works on the channel: an attention request of its group, or a transform that writes a line there. -/
def State.onAside (s : State) (c : Cmd) (core ch : Nat) : Bool :=
  (c.code == 0x30 && c.f 3 28 4 == ch / 8) ||
  (c.code == 0x20 && decide (1 ≤ c.xf ∧ c.xf ≤ 4) &&
    (let a := s.agentOf c core
     let n := c.f 3 0 40 / sizeOf' c.sfmt * sizeOf' c.dfmt
     (pieces (wordAt c.w 2).toNat n).any fun p => s.xfChan a p.1 == ch))

/-- R354: the memory-side commands of a context that work on a channel: core and command. -/
def State.asideCmds (s : State) (ctx ch : Nat) : List (Nat × Cmd) :=
  (List.range s.cores.length).flatMap fun k =>
    (((s.core k).queues.getD 1 [] ++ (s.core k).queues.getD 2 []).filter fun c =>
      (s.cmdGrid c).ctx == ctx && !c.phase.isFinished && s.onAside c k ch).map fun c => (k, c)

/-- The channels on which a command's MSUs work: an attention group's, or those of a transform's destination. -/
def State.msusOf (s : State) (core : Nat) (c : Cmd) : List Nat :=
  if c.code = 0x30 then (List.range 8).map fun j => 8 * c.f 3 28 4 + j
  else if c.code = 0x20 ∧ 1 ≤ c.xf ∧ c.xf ≤ 4 then
    ((s.xfWork (s.agentOf c core) c).map Prod.fst).eraseDups.filter fun ch => decide (ch < 128)
  else []

/-- R354: a SETASIDE has set the channel aside, and its completion is still to begin the period. -/
def State.asideHeld (s : State) (ch : Nat) : Bool :=
  s.cores.any fun k => (k.queues.getD 5 []).any fun c => c.code == 0x61 && c.phase == .finished 0 0 && c.channels.contains ch

/-- SETASIDE_EXPIRY (R354): at the end of the period, commands that have not started fail and those that have go on. -/
def execSetasideExpiry (ch : Nat) (s : State) : Host.Outcome State Fault Refusal :=
  match s.mem.aside.find? fun p => p.1 == ch with
  | none => .next s
  | some (_, ctx, t) =>
    if s.gtime < t ∨ s.asideHeld ch then .next s
    else
      let cs := s.asideCmds ctx ch
      let late := cs.filter fun p => !s.begun p.1 p.2
      let on := (cs.filter fun p => s.begun p.1 p.2).map fun p => (ch, ctx, engKey p.1 p.2.q p.2.id)
      let s := late.foldl (fun s p => s.failCmd p.1 p.2.q p.2.id .permission) s
      let s := s.dropTlb fun e => e.ctx == ctx && e.onCh ch
      .next (s.modMem fun m => { m with aside := m.aside.filter (fun p => p.1 != ch), lame := m.lame ++ on })

end Sys2Proof.Machine
end

