-- ==== Sys2Proof/Machine/Attention.lean ====
section
/-! DEFINITION. The attention commands: ATTEND (R355 to R363, R367) and MAPINV (R364 to R366). -/

namespace Sys2Proof.Machine

/-! ### The words of ATTEND (R356, R357) -/

def Cmd.aQ (c : Cmd) : Nat := c.f 1 0 57
def Cmd.aO (c : Cmd) : Nat := c.f 2 0 57
def Cmd.rowsQ (c : Cmd) : Nat := c.f 3 48 8 + 1
def Cmd.heads (c : Cmd) : Nat := c.f 3 40 8 + 1
def Cmd.gq (c : Cmd) : Nat := c.f 3 36 4
def Cmd.hd (c : Cmd) : Nat := 16 * (c.f 3 32 4 + 1)
def Cmd.grp (c : Cmd) : Nat := c.f 3 28 4
def Cmd.kvf (c : Cmd) : Nat := c.f 3 24 4
def Cmd.qf (c : Cmd) : Nat := c.f 3 20 4
def Cmd.kvt (c : Cmd) : Nat := c.f 3 0 20
def Cmd.layer (c : Cmd) : Nat := c.f 4 32 32
def Cmd.seqN (c : Cmd) : Nat := c.f 4 0 32
def Cmd.alen (c : Cmd) : Nat := c.f 5 32 32
def Cmd.kvh0 (c : Cmd) : Nat := c.f 5 0 32
def Cmd.qpos (c : Cmd) : Nat := c.f 6 0 32
def Cmd.amask (c : Cmd) : Nat := c.f 7 0 57

/-- R356: the words of an ATTEND. -/
def Cmd.attendOk (c : Cmd) : Bool :=
  c.f 1 57 7 == 0 && c.f 2 57 7 == 0 && c.f 3 56 8 == 0 && decide (c.gq ≤ 6) && c.heads % 2 ^ c.gq == 0 &&
  [1, 2, 3, 4].contains c.kvf && [0, 2].contains c.qf && c.alen != 0 && c.f 7 57 7 == 0

/-- R357: KV head of a query head. -/
def Cmd.khOf (c : Cmd) (h : Nat) : Nat := (c.kvh0 + h / 2 ^ c.gq) % 2 ^ 32

/-- R357: where an element of row `r` of head `h` lies in a matrix of element size `e`. -/
def Cmd.rowAt' (c : Cmd) (base e h r : Nat) : Nat := base + e * (c.hd * (h * c.rowsQ + r))

def Cmd.lseAt (c : Cmd) (h r : Nat) : Nat := c.aO + 4 * c.hd * c.heads * c.rowsQ + 4 * (h * c.rowsQ + r)

/-- R245, R357: the key of a position of a KV head. -/
def Cmd.kvKey (c : Cmd) (kh p : Nat) : Nat := p + kh * 2 ^ 32 + c.layer * 2 ^ 64 + c.seqN * 2 ^ 96

/-- R357: bytes between the mask rows. -/
def Cmd.mstr (c : Cmd) : Nat := 64 * ((c.alen + 511) / 512)

/-! ### Reading (R349, R357, R405) -/

/-- A range read by the MSUs. -/
def State.msuRange (s : State) (a : Agent) (va n : Nat) : State × Got :=
  (pieces va n).foldl (fun (s, g) (v, k) =>
    match g with
    | .fault _ => (s, g)
    | _ =>
      let (s, h) := s.msuRead a v k
      (s, g.and h)) (s, .data [])

/-- Ranges read one after another. -/
def State.msuRanges (s : State) (a : Agent) (n : Nat) (vs : List Nat) : State × Got :=
  vs.foldl (fun (s, g) v =>
    match g with
    | .fault _ => (s, g)
    | _ =>
      let (s, h) := s.msuRange a v n
      (s, g.and h)) (s, .data [])

/-- R357: position `p` is masked for row `r`; `bits` holds the mask rows. -/
def Cmd.masked (c : Cmd) (bits : List Byte) (r p : Nat) : Bool :=
  (hdrFlags c.head % 2 == 1 && decide (p > c.qpos + r)) ||
  (c.amask != 0 && ((bits.getD (c.mstr * r + p / 8) 0).toNat).testBit (p % 8))

/-- The mask rows, where there is a mask. -/
def State.maskBits (s : State) (a : Agent) (c : Cmd) : State × Got :=
  if c.amask = 0 then (s, .data []) else s.msuRange a c.amask (c.mstr * (c.rowsQ - 1) + (c.alen + 7) / 8)

/-- R358: a page is needed for a row. -/
def Cmd.needs (c : Cmd) (bits : List Byte) (pg r : Nat) : Bool :=
  (List.range 64).any fun i => decide (64 * pg + i < c.alen) && !c.masked bits r (64 * pg + i)

/-- R358: the pages that some row needs. -/
def Cmd.neededPages (c : Cmd) (bits : List Byte) : List Nat :=
  (List.range ((c.alen + 63) / 64)).filter fun pg => (List.range c.rowsQ).any fun r => c.needs bits pg r

/-- The KV heads of a command, by the number of the first query head that uses them. -/
def Cmd.kvHeads (c : Cmd) : List Nat := (List.range (c.heads / 2 ^ c.gq)).map fun i => (c.kvh0 + i) % 2 ^ 32

/-! ### The block-table cache (R364) -/

def State.groupCache (s : State) (g : Nat) : List MapE := s.mem.mapCache.getD g []

/-- What a resolution found: the page base, or status 5 or 6, with the map's version and slot; poison. -/
inductive Res where
  | page (base tab slot : Nat)
  | fail (s : Nat)
  | poison
  deriving DecidableEq, Repr

/-- What an entry of the cache says. -/
def MapE.res (e : MapE) : Res := if e.st = 1 then .fail 6 else .page e.base e.tab e.slot

/-- R245, R358, R364: a page is resolved through the group's cache. (DEDUCED, log 87) -/
def State.resolve (s : State) (die g ctx : Nat) (v : Version) (c : Cmd) (kh pg : Nat) : State × Res :=
  let k := [ctx, c.kvt, c.seqN, c.layer, kh, pg]
  let key := c.kvKey kh (64 * pg)
  match (s.groupCache g).find? fun e => e.key == k with
  | some e => (s, e.res)
  | none =>
    match s.mapSlot v key with
    | none => (s, .fail 5)
    | some (m, slot) =>
      match s.mapRow die v key with
      | (s, none) => (s, .fail 5)
      | (s, some (base, st, p)) =>
        if p then (s, .poison)
        else
          let e : MapE := ⟨k, base, st, m.uid, slot⟩
          (s.modMem fun m => { m with mapCache := m.mapCache.modify g fun l =>
            (if l.length < 4096 then l else l.drop 1) ++ [e] }, e.res)

/-- A resolution as the command keeps it: KV head and page; base and status; the map's version and slot. -/
def resCode (kh pg : Nat) (r : Res) : Nat × Nat × Nat × Nat :=
  (kh * 2 ^ 32 + pg, match r with
    | .page b t n => (8 * b, t, n)
    | .fail n => (n, 0, 0)
    | .poison => (7, 0, 0))

/-- Needed pages resolved, each once. -/
def State.resolveAll (s : State) (die ctx : Nat) (v : Version) (c : Cmd) (ks : List (Nat × Nat)) :
    State × List (Nat × Nat × Nat × Nat) :=
  ks.foldl (fun (s, l) (kh, pg) =>
    let (s, r) := s.resolve die c.grp ctx v c kh pg
    (s, l ++ [resCode kh pg r])) (s, [])

/-! ### Arithmetic (R359, R360) -/

def fvEq (a b : FV) : Bool := !a.isNan && !b.isNan && FV.cmp a b == 0

def fmax32 (a b : Word) : Word := BitVec.ofNat 32 (maxBits fmt32 false a.toNat b.toNat)

/-- 1 where the values are equal, else e^(x − y). (DEDUCED, log 87) -/
def expDiff (x y : Word) : FV :=
  if fvEq (f32 x) (f32 y) then .fin false 1 0 else exp32 (FV.add .rn (f32 x) (f32 y).neg)

def fvDot (a b : List FV) : FV := (List.zipWith FV.mul a b).foldl (FV.add .rn) (.fin false 0 0)

/-- A partial: m, l, a (R359); `any`: it covered a position. -/
structure Partial where
  m : Word
  l : Word
  a : List Word
  any : Bool
  deriving DecidableEq, Repr

def Partial.none_ (d : Nat) : Partial := ⟨0xFF800000, 0, List.replicate d 0, false⟩

/-- R359: one position enters a partial. -/
def Partial.step (scale : Word) (q : List FV) (p : Partial) (kv : List FV × List FV) : Partial :=
  let s := to32 .rn (FV.mul (f32 scale) (fvDot q kv.1))
  let mn := fmax32 p.m s
  let c := expDiff p.m mn
  let w := expDiff s mn
  ⟨mn, to32 .rn (FV.add .rn (FV.mul (f32 p.l) c) w),
   List.zipWith (fun x v => to32 .rn (FV.add .rn (FV.mul (f32 x) c) (FV.mul w v))) p.a kv.2, true⟩

/-- R360: two partials merged; the first has covered nothing at the start. -/
def Partial.merge (x y : Partial) : Partial :=
  if !y.any then x
  else
    let mn := fmax32 x.m y.m
    let c1 := expDiff x.m mn
    let c2 := expDiff y.m mn
    ⟨mn, to32 .rn (FV.add .rn (FV.mul (f32 x.l) c1) (FV.mul (f32 y.l) c2)),
     List.zipWith (fun u v => to32 .rn (FV.add .rn (FV.mul (f32 u) c1) (FV.mul (f32 v) c2))) x.a y.a, true⟩

/-- R360: the outputs and the LSE word. -/
def Partial.result (p : Partial) : List Word × Word :=
  if p.any then
    (p.a.map fun x => to32 .rn (FV.div (f32 x) (f32 p.l)), to32 .rn (FV.add .rn (f32 p.m) (lnFV (f32 p.l))))
  else (p.a.map fun _ => 0, 0xFF800000)

/-! ### A page's tiles (R361) -/

/-- A resolved page's keys and values, decoded, a pair for each position below LEN, and the map's version and slot. -/
structure PageKV where
  kh : Nat
  pg : Nat
  fail : Nat
  nonfin : Bool
  kv : List (List FV × List FV)
  tab : Nat
  slot : Nat
  deriving DecidableEq, Repr

def fvRow (f n : Nat) (b : List Byte) : List FV := (List.range n).map fun i => elemFV f (leNat (slice b (i * sizeOf' f) (sizeOf' f)))

/-- A page read: its rows of keys and values. -/
def State.pageKV (s : State) (a : Agent) (c : Cmd) (rb : Nat) (e : Nat × Nat × Nat × Nat) : State × Except Got PageKV :=
  let kh := e.1 / 2 ^ 32
  let pg := e.1 % 2 ^ 32
  let fail := e.2.1 % 8
  if fail ≠ 0 then (s, .ok ⟨kh, pg, fail, false, [], 0, 0⟩)
  else
    let n := min 64 (c.alen - 64 * pg)
    let ek := sizeOf' c.kvf
    let base := e.2.1 / 8
    match s.msuRanges a (2 * c.hd * ek) ((List.range n).map fun i => base + rb * i) with
    | (s, .data b) =>
      if anyPoison b then (s, .error (.fault .machineCheck))
      else
        let raw := rawBytes b
        let kv := (List.range n).map fun i =>
          let row := slice raw (i * 2 * c.hd * ek) (2 * c.hd * ek)
          (fvRow c.kvf c.hd row, fvRow c.kvf c.hd (row.drop (c.hd * ek)))
        let nf := kv.any fun (k, v) => k.any (fun x => !x.finite) || v.any fun x => !x.finite
        (s, .ok ⟨kh, pg, if nf then 6 else 0, nf, kv, e.2.2.1, e.2.2.2⟩)
    | (s, g) => (s, .error g)

def State.pagesKV (s : State) (a : Agent) (c : Cmd) (rb : Nat) : State × Except Got (List PageKV) :=
  c.resolved.foldl (fun ((s, r) : State × Except Got (List PageKV)) e =>
    match r with
    | .error (.fault x) => (s, .error (.fault x))
    | _ =>
      match s.pageKV a c rb e with
      | (s, .error g) => (s, .error g)
      | (s, .ok p) => (s, match r with
        | .ok l => .ok (l ++ [p])
        | x => x)) (s, .ok [])

/-- R361: the status of a row: the largest among the needed pages of its KV head. -/
def rowStatus (c : Cmd) (bits : List Byte) (ps : List PageKV) (h r : Nat) : Nat :=
  ((ps.filter fun p => p.kh == c.khOf h && c.needs bits p.pg r).map PageKV.fail).foldl max 0

/-- R359, R360: a row's outputs and LSE word. -/
def rowResult (c : Cmd) (bits : List Byte) (ps : List PageKV) (q : List FV) (h r : Nat) : List Word × Word :=
  let scale : Word := BitVec.ofNat 32 (c.f 6 32 32)
  let part := fun (j : Nat) =>
    (ps.filter fun p => p.kh == c.khOf h && p.pg % 8 == j).foldl (fun (x : Partial) p =>
      p.kv.zipIdx.foldl (fun (x : Partial) (kv, i) =>
        if c.masked bits r (64 * p.pg + i) then x else x.step scale q kv) x) (Partial.none_ c.hd)
  (((List.range 8).map part).foldl Partial.merge (Partial.none_ c.hd)).result

/-! ### Quarantine (R362) -/

/-- R362: where the state byte of the resolved map row is, while that row still holds the key of the page. -/
def State.stateByte (s : State) (c : Cmd) (p : PageKV) : Option Nat :=
  match s.version p.tab with
  | none => none
  | some m =>
    if (m.index.find? fun e => e.1 == p.slot) = some (p.slot, mapKey (c.kvKey p.kh (64 * p.pg))) then some (m.handle p.slot + 24) else none

/-- R362: the bytes that a command's quarantines set; QR is kept in its card. -/
def State.stateBytes (s : State) (c : Cmd) (ps : List PageKV) : List Nat :=
  if c.card.steps = 1 then (ps.filter PageKV.nonfin).filterMap fun p => s.stateByte c p else []

/-- R362. -/
def State.quarantine (s : State) (die ctx : Nat) (c : Cmd) (p : PageKV) : State :=
  let s := (s.stateBytes c [p]).foldl (fun s va => s.rowWrite die ctx va 2 [1]) s
  let k := [ctx, c.kvt, c.seqN, c.layer, p.kh, p.pg]
  let mark := fun (e : MapE) => if e.key == k then { e with st := 1 } else e
  let s := s.modMem fun m => { m with mapCache := m.mapCache.modify c.grp (List.map mark) }
  s.ctxEvent ctx [eventWord 3 ctx p.kh, BitVec.ofNat 64 (c.layer * 2 ^ 32 + c.seqN), BitVec.ofNat 64 p.pg,
    BitVec.ofNat 64 (c.seq * 2 ^ 32 + c.pc.toNat % 2 ^ 24)]

/-! ### ATTEND -/

/-- R356: why an ATTEND may not start; one that has begun goes on on channels whose set-aside has ended (R354). -/
def State.attendBad (s : State) (c : Cmd) (ctx key : Nat) : Except Code Version :=
  if !c.attendOk then .error .illegalOperand
  else
    match s.ctx ctx with
    | none => .error .permission
    | some x =>
      if (List.range 8).any fun j => !(s.channelOk x (8 * c.grp + j) || s.mem.lame.contains (8 * c.grp + j, ctx, key)) then
        .error .permission
      else
        match s.current ctx c.kvt with
        | none => .error .tableKey
        | some v =>
          if v.kind ≠ 4 then .error .tableKey
          else if v.rowBytes < 2 * c.hd * sizeOf' c.kvf then .error .illegalOperand
          else .ok v

/-- R357, R358: the command starts: its pages are resolved. -/
def State.attendStart (s : State) (core seq : Nat) (c : Cmd) : State :=
  let a := s.agentOf c core
  match s.attendBad c a.ctx a.key with
  | .error x => s.failCmd core 2 seq x
  | .ok v =>
    match s.maskBits a c with
    | (s, .wait) => s
    | (s, .fault x) => s.failCmd core 2 seq x
    | (s, .data b) =>
      if anyPoison b then s.failCmd core 2 seq .machineCheck
      else
        let pages := c.neededPages (rawBytes b)
        if s.rowBusy core a.ctx (s.mapRows v (c.kvHeads.flatMap fun kh => pages.map fun pg => c.kvKey kh (64 * pg))) then s
        else
        let (s, l) := s.resolveAll (core / 64) a.ctx v c (c.kvHeads.flatMap fun kh => pages.map fun pg => (kh, pg))
        if l.any fun e => e.2.1 == 7 then s.failCmd core 2 seq .machineCheck
        else s.modCmd core 2 seq fun d => { d with phase := .running, resolved := l, card := ⟨v.rowBytes, if v.d0.getLsbD 11 then 1 else 0, false⟩ }

/-- Bytes written by MSUs over a range; none where it may not be written now. -/
def State.msuPut (s : State) (a : Agent) (va : Nat) (b : List Byte) : State :=
  (pieces va b.length).foldl (fun s (v, k) =>
    match s.msuLine a v with
    | (s, .ok (l, off)) => s.msuWrite l off (slice b (v - va) k)
    | (s, .error _) => s) s

/-- Whether the MSUs may write a range. -/
def State.msuReady (s : State) (a : Agent) (va n : Nat) : State × Got :=
  (pieces va n).foldl (fun ((s, g) : State × Got) (v, _) =>
    match g with
    | .fault _ => (s, g)
    | _ =>
      match s.msuLine a v with
      | (s, .ok _) => (s, g)
      | (s, .error h) => (s, g.and h)) (s, .data [])

/-- R363: the status of a finished ATTEND. -/
def attendStatus (ps : List PageKV) (sts : List Nat) : Nat :=
  if ps.any PageKV.nonfin then 0x41 else if sts.contains 6 then 0x86 else if sts.contains 5 then 0x85 else 0

/-- The query rows of a command: head and row. -/
def Cmd.queryRows (c : Cmd) : List (Nat × Nat) := (List.range c.heads).flatMap fun h => (List.range c.rowsQ).map fun r => (h, r)

/-- The bytes of a command's results. -/
def Cmd.resultBytes (c : Cmd) : Nat := 4 * c.hd * c.heads * c.rowsQ + 4 * c.heads * c.rowsQ

/-- R359 to R363: every row's result is written, from the mask's bits, the query's bytes and the pages, and the command is done. -/
def State.attendStore (s : State) (core seq : Nat) (c : Cmd) (bits q : List Byte) (ps : List PageKV) : State :=
  let a := s.agentOf c core
  let eq := sizeOf' c.qf
  let hr := c.queryRows
  let sts := hr.map fun (h, r) => rowStatus c bits ps h r
  let s := (List.zip hr sts).foldl (fun s ((h, r), st) =>
    if st ≠ 0 then s.msuPut a (c.lseAt h r) (leBytes 4 (0xFFFFFF00 + st))
    else
      let row := fvRow c.qf c.hd (slice q (eq * (c.hd * (h * c.rowsQ + r))) (eq * c.hd))
      let (o, lse) := rowResult c bits ps row h r
      (s.msuPut a (c.rowAt' c.aO 4 h r) (o.flatMap fun x => leBytes 4 x.toNat)).msuPut a (c.lseAt h r) (leBytes 4 lse.toNat)) s
  let s := (ps.filter PageKV.nonfin).foldl (fun s p => s.quarantine (core / 64) a.ctx c p) s
  (s.msuInval a c.aO c.resultBytes).finishCmd core 2 seq (attendStatus ps sts)
    (min 0xFFFF (sts.filter fun x => x != 0).length)

/-- R359 to R363: the command computes on the pages it resolved, writes its rows and is done, once the host's copies of map rows that it
writes have come back (R229). Its card holds the row width and QR of the
version that it started with. -/
def State.attendRun (s : State) (core seq : Nat) (c : Cmd) : State :=
  let a := s.agentOf c core
  let (s, gm) := s.maskBits a c
  let (s, gq) := s.msuRange a c.aQ (sizeOf' c.qf * c.hd * c.heads * c.rowsQ)
  let (s, gp) := s.pagesKV a c c.card.tiles
  let (s, go) := s.msuReady a c.aO c.resultBytes
  match gm, gq, gp, go with
  | .data bm, .data bq, .ok ps, .data _ =>
    if anyPoison bm || anyPoison bq then s.failCmd core 2 seq .machineCheck
    else
      let ls := (s.stateBytes c ps).filterMap fun va => s.rowLine (core / 64) a.ctx va
      match s.askBack a.key a.ctx ls with
      | some s => s
      | none => if !ls.all s.homeFree then s else s.attendStore core seq c (rawBytes bm) (rawBytes bq) ps
  | .fault x, _, _, _ | _, .fault x, _, _ | _, _, .error (.fault x), _ | _, _, _, .fault x => s.failCmd core 2 seq x
  | _, _, _, _ => s

/-- ATTEND (R355 to R363): a waiting command resolves its pages; one under way computes and completes. (DEDUCED, log 87) -/
def execAttend (core seq : Nat) (s : State) : Host.Outcome State Fault Refusal :=
  match s.cmdAt core 2 seq with
  | none => .next s
  | some c =>
    if c.code ≠ 0x30 then .next s
    else if c.phase = .running then .next (s.attendRun core seq c)
    else if s.mayStart core 2 seq then .next (s.attendStart core seq c)
    else .next s

/-! ### MAPINV (R365, R366) -/

/-- R365: the words of a MAPINV. -/
def Cmd.mapinvOk (c : Cmd) : Bool :=
  c.f 1 33 31 == 0 && c.f 1 20 12 == 0 && c.f 4 16 48 == 0 && c.f 4 0 16 != 0 && c.zeroFrom 5

/-- R365: an entry of the cache that the command names. -/
def Cmd.drops (c : Cmd) (ctx : Nat) (k : List Nat) : Bool :=
  k.getD 0 0 == ctx && k.getD 1 0 == c.f 1 0 20 &&
  (c.f 1 32 1 == 1 ||
    (k.getD 2 0 == c.f 2 0 32 && k.getD 3 0 == c.f 2 32 32 && k.getD 4 0 == c.f 3 0 32 && k.getD 5 0 == c.f 3 32 32))

/-- R366: an ATTEND under way that resolved an entry the MAPINV drops. -/
def State.holdsDropped (s : State) (c : Cmd) (ctx : Nat) (d : Cmd) : Bool :=
  d.code == 0x30 && d.phase == .running && (s.cmdGrid d).ctx == ctx && (c.f 4 0 16).testBit d.grp &&
  d.resolved.any fun e => c.drops ctx [ctx, d.kvt, d.seqN, d.layer, e.1 / 2 ^ 32, e.1 % 2 ^ 32]

/-- MAPINV (R366): the entries are dropped; the command is done once every request that resolved one has completed. -/
def execMapinv (core seq : Nat) (s : State) : Host.Outcome State Fault Refusal :=
  match s.cmdAt core 2 seq with
  | none => .next s
  | some c =>
    let ctx := (s.cmdGrid c).ctx
    if c.code ≠ 0x31 then .next s
    else if c.phase = .running then
      (if c.resolved.any fun (k, n, _) => (s.cmdAt k 2 n).any fun d => d.phase == .running then .next s
       else .next (s.finishCmd core 2 seq 0 0))
    else if !s.mayStart core 2 seq then .next s
    else if !c.mapinvOk then .next (s.failCmd core 2 seq .illegalOperand)
    else if (s.current ctx (c.f 1 0 20)).all fun v => v.kind != 4 then .next (s.failCmd core 2 seq .tableKey)
    else
      let late := (List.range s.cores.length).flatMap fun k =>
        (((s.core k).queues.getD 2 []).filter fun d => s.holdsDropped c ctx d).map fun d => (k, d.id, 0, 0)
      let cut := fun (l : List MapE) => l.filter fun e => !c.drops ctx e.key
      let mask := c.f 4 0 16
      let s := s.modMem fun m => { m with
        mapCache := m.mapCache.zipIdx.map fun (l, g) => if mask.testBit g then cut l else l }
      .next (s.modCmd core 2 seq fun d => { d with phase := .running, resolved := late })

end Sys2Proof.Machine
end

