-- ==== Sys2Proof/Machine/Legal.lean ====
section
/-! DEFINITION. Which operand classes, types and modifiers each word accepts (R80 to R88, R114 to R129, R139 to R156,
R159, R180 to R194, R204, R240 to R242, R288, R298, R310, R342, R384). One check per operand structure. -/

namespace Sys2Proof

/-! ### Classes -/

def Src.isV : Src → Bool
  | .v _ _ => true
  | _ => false
def Src.isS : Src → Bool
  | .s _ _ => true
  | _ => false
def Src.isLit : Src → Bool
  | .lit _ => true
  | _ => false
def Src.isImm : Src → Bool
  | .imm _ => true
  | _ => false
/-- V, S or a class 11 literal. -/
def Src.vsl (s : Src) : Bool := !s.isImm
/-- V or S. -/
def Src.vs (s : Src) : Bool := s.isV || s.isS
/-- S or literal. -/
def Src.sl (s : Src) : Bool := s.isS || s.isLit
/-- No last use, no keep (positions where L and K must be 0). -/
def Src.unmarked : Src → Bool
  | .v _ u | .s _ u => u == .plain
  | _ => true
/-- A literal, if it is one, lies in 0 to `n`, read as signed (R159, R242, R384). -/
def Src.litUpTo (s : Src) (n : Nat) : Bool :=
  match s with
  | .lit x => decide (x.toNat ≤ n ∧ x.toNat < 128)
  | _ => true

def Dst.isV : Dst → Bool
  | .v _ => true
  | _ => false
def Dst.isS : Dst → Bool
  | .s _ => true
  | _ => false
def Dst.isP : Dst → Bool
  | .p _ => true
  | _ => false
def Dst.isC : Dst → Bool
  | .c _ => true
  | _ => false
def Dst.isDisc : Dst → Bool
  | .disc => true
  | _ => false
/-- Group 0x0 destinations (R82, R110): V, S or discard. -/
def Dst.vsd (d : Dst) : Bool := d.isV || d.isS || d.isDisc
/-- V or discard (R139). -/
def Dst.vd (d : Dst) : Bool := d.isV || d.isDisc

/-- R82: the scalar form takes no V source. -/
def formOk (d : Dst) (s : Src) : Bool := !(d.scalar && s.isV)

/-! ### Types -/

def Ty.arith : Ty → Bool
  | .i32 | .n32 | .i64 | .n64 => true
  | _ => false
def Ty.logic : Ty → Bool
  | .i32 | .n32 | .i64 | .n64 | .b32 | .b64 => true
  | _ => false
/-- R145: every type but B32 and B64. -/
def Ty.cvt : Ty → Bool
  | .b32 | .b64 => false
  | _ => true

/-! ### Group 0x0 -/

/-- One-source words: `tys` the types accepted, `sat` whether `.SAT` is accepted. -/
def Int1.legal (o : Int1) (tys : Ty → Bool) (sat : Bool) : Bool :=
  tys o.ty && (!o.sat || sat) && o.dst.vsd && o.a.vsl && formOk o.dst o.a

/-- Two-source words: `imm` whether the immediate form exists for B. -/
def Int2.legal (o : Int2) (tys : Ty → Bool) (sat imm : Bool) : Bool :=
  tys o.ty && (!o.sat || sat) && o.dst.vsd && o.a.vsl && (o.b.vsl || imm) && formOk o.dst o.a && formOk o.dst o.b

def Int3.legal (o : Int3) (tys : Ty → Bool) (sat : Bool) : Bool :=
  tys o.ty && (!o.sat || sat) && o.dst.vsd && o.a.vsl && o.b.vsl && o.c.vsl &&
  formOk o.dst o.a && formOk o.dst o.b && formOk o.dst o.c

def SelOp.legal (o : SelOp) : Bool :=
  (o.ty.logic || o.ty == .f32) && o.dst.vsd && o.a.vsl && o.b.vsl && formOk o.dst o.a && formOk o.dst o.b

def LeaOp.legal (o : LeaOp) : Bool :=
  (o.ty.arith || o.ty == .b64) && o.dst.vsd && o.a.vsl && o.b.vsl && formOk o.dst o.a && formOk o.dst o.b

def MovOp.legal (o : MovOp) : Bool :=
  (o.ty.logic || o.ty == .f32) && o.dst.vsd && o.a.vsl && formOk o.dst o.a

/-- R124: E0 to E7 into S; E12 to E15 into V or the discard (R84). -/
def QPopOp.legal (o : QPopOp) : Bool :=
  if o.e.toNat < 8 then o.dst.isS else decide (12 ≤ o.e.toNat) && o.dst.vd

def QPushOp.legal (o : QPushOp) : Bool := decide (8 ≤ o.e.toNat ∧ o.e.toNat < 12) && o.a.isV

def MoviOp.legal (o : MoviOp) : Bool := (o.ty.logic || o.ty == .f32) && o.dst.vsd

/-! ### Groups 0x1 to 0x3 -/

/-- `rs` says that RND and SAT are fields of the word (R141). -/
def F2.legal (o : F2) (rs : Bool) : Bool :=
  o.dst.vd && o.a.vsl && o.b.vsl && (rs || (o.rnd == .rn && !o.sat))
def F3.legal (o : F3) (rs : Bool) : Bool :=
  o.dst.vd && o.a.vsl && o.b.vsl && o.c.vsl && (rs || (o.rnd == .rn && !o.sat))
def H2.legal (o : H2) (rs : Bool) : Bool :=
  o.dst.vd && o.a.vsl && o.b.vsl && (rs || (o.rnd == .rn && !o.sat))
def H3.legal (o : H3) : Bool := o.dst.vd && o.a.vsl && o.b.vsl && o.c.vsl
def CvtOp.legal (o : CvtOp) : Bool := o.dt.cvt && o.st.cvt && o.dst.vd && o.a.vsl
def FrndOp.legal (o : FrndOp) : Bool := o.dst.vd && o.a.vsl
def SfuOp.legal (o : SfuOp) : Bool := o.dst.vd && o.a.vsl
def RandOp.legal (o : RandOp) : Bool :=
  (o.ty == .n32 || o.ty == .n64 || o.ty == .f32) && o.dst.vd && o.a.vsl && o.b.sl
def CsampOp.legal (o : CsampOp) : Bool := o.dst.vd && o.a.vsl && o.b.sl

/-- SHFL writes a V register and discards nothing (DEDUCED, log 21). -/
def ShflOp.legal (o : ShflOp) : Bool := o.dst.isV && o.a.isV && o.b.vsl
/-- PSWAP writes a V register and discards nothing (DEDUCED, log 21). -/
def PswapOp.legal (o : PswapOp) : Bool := o.dst.isV && o.a.isV
/-- QSWAP writes a V register and discards nothing (DEDUCED, log 21). -/
def QswapOp.legal (o : QswapOp) : Bool := o.dst.isV && o.a.isV
def QbcastOp.legal (o : QbcastOp) : Bool := o.dst.isV && o.a.isV && o.n.sl && o.n.litUpTo 3
def VoteO.legal (o : VoteO) : Bool :=
  if o.op = .ballot then o.dst.isV || o.dst.isS else o.dst.isP || o.dst.isC
def MatchOp.legal (o : MatchOp) : Bool := (o.ty.logic || o.ty == .f32) && o.dst.isV && o.a.isV

/-- R156: types a reduction accepts. -/
def RedOp.types (op : RedOp) (t : Ty) : Bool :=
  match op with
  | .add | .min | .max => t.arith || t == .f32
  | .and | .or | .xor => t.logic

def rndOnlyAddF32 (op : RedOp) (t : Ty) (r : Rnd) : Bool := r == .rn || (op == .add && t == .f32)

def RdxOp.legal (o : RdxOp) : Bool :=
  o.op.types o.ty && rndOnlyAddF32 o.op o.ty o.rnd && (o.dst.isV || o.dst.isS) && o.a.isV
def ScnOp.legal (o : ScnOp) : Bool :=
  o.op.types o.ty && rndOnlyAddF32 o.op o.ty o.rnd && o.dst.isV && o.a.isV && o.st.isS
def ElectOp.legal (o : ElectOp) : Bool := o.sd.isS || o.sd.isDisc

/-! ### Groups 0x4 and 0x5 -/

def ItestOp.legal (o : ItestOp) : Bool :=
  o.ty.arith && o.cmp != .num && o.cmp != .nan && (o.dst.isP || o.dst.isC) && o.a.vsl &&
  formOk o.dst o.a && formOk o.dst o.b
def FtestOp.legal (o : FtestOp) : Bool :=
  (o.dst.isP || o.dst.isC) && o.a.vsl && formOk o.dst o.a && formOk o.dst o.b
def Htest2Op.legal (o : Htest2Op) : Bool :=
  (o.dst.isP || o.dst.isC) && o.a.vsl && o.b.vsl && formOk o.dst o.a && formOk o.dst o.b &&
  o.dst != .p o.e && o.dst != .c o.e
/-- CSET and S2P: an S register or a literal (R128). -/
def BitSrcOp.legal (o : BitSrcOp) : Bool := o.a.sl
def TargetOp.legal (o : TargetOp) : Bool := o.t.vs
def BruRegOp.legal (o : BruRegOp) : Bool := o.t.vs
def CallOp.legal (o : CallOp) : Bool := o.ret.vd
def CallxOp.legal (o : CallxOp) : Bool := o.ret.vd && o.t.vs
/-- NAP Sn. -/
def MaskOp.legalS (o : MaskOp) : Bool := o.m.isS

/-! ### Group 0x6 -/

def LdOp.legal (o : LdOp) : Bool :=
  (o.ord == .rlx || o.ord == .acq || o.ord == .sc) && o.dst.vd && o.addr.vs
def StOp.legal (o : StOp) : Bool :=
  (o.ord == .rlx || o.ord == .rel || o.ord == .sc) && o.addr.vs && o.data.vsl
def StCbOp.legal (o : StCbOp) : Bool := o.addr.vs && o.data.vsl && o.cb.isS
def PrfOp.legal (o : PrfOp) : Bool := o.addr.vs
def MaintOp.legal (o : MaintOp) : Bool := o.addr.vs && o.len.sl

/-- R188: types an atomic operation accepts. -/
def AtomOp.types (op : AtomOp) (t : Ty) : Bool :=
  match op with
  | .add | .min | .max => t.arith || t == .f32
  | .and | .or | .xor => t.logic
  | .exch => t.logic || t == .f32
  | .inc | .dec => t == .n32 || t == .n64

def AtomO.legal (o : AtomO) : Bool := o.op.types o.ty && o.dst.vd && o.addr.vs && o.b.vsl
def RedO.legal (o : RedO) : Bool :=
  o.op.types o.ty && (o.ord == .rlx || o.ord == .rel || o.ord == .sc) && o.addr.vs && o.b.vsl
def casSrc (t : CasTy) (s : Src) : Bool :=
  match t with
  | .n32 => s.vsl
  | .n64 => s.vs
  | .b64pair => s.isV
def CasOp.legal (o : CasOp) : Bool := o.addr.vs && casSrc o.ct o.cv && casSrc o.ct o.nv
def FenceOp.legal (o : FenceOp) : Bool := o.ord != .rlx

/-! ### Group 0x7 -/

/-- R242: table ids are S registers or literals 0 to 127. -/
def idOk (s : Src) : Bool := s.sl && s.litUpTo 127
def keyOk (kf : KeyFmt) (s : Src) : Bool := if kf = .kc128 then s.isV else s.vsl
/-- R242: the bound of a start key in V255 would be V256 and beyond, which are no registers. -/
def boundOk (key : Src) : Bool :=
  match key with
  | .v n _ => n.toNat != 255
  | .s n _ => n.toNat != 255
  | _ => false

def TKeyOp.legal (o : TKeyOp) : Bool := o.dst.vd && keyOk o.kf o.key && idOk o.id
def TSeekOp.legal (o : TSeekOp) : Bool :=
  o.dst.vd && keyOk o.kf o.key && idOk o.id && (!o.bnd || boundOk o.key)
def TStepOp.legal (o : TStepOp) : Bool := o.dst.vd
def TRekeyOp.legal (o : TRekeyOp) : Bool := o.dst.vd && keyOk o.kf o.key && idOk o.id && keyOk o.kf o.new
def TAddOp.legal (o : TAddOp) : Bool := o.addr.vs && o.val.vsl
def TIdOp.legal (o : TIdOp) : Bool := o.dst.vd && idOk o.id
def TUnpinOp.legal (o : TUnpinOp) : Bool := o.dst.vd && o.ver.vsl && idOk o.id
def TSwapOp.legal (o : TSwapOp) : Bool := o.dst.vd && o.e.vsl && idOk o.id && idOk o.st
def TRowOp.legal (o : TRowOp) : Bool := o.dst.vd && o.n.vsl && idOk o.id

/-! ### Groups 0x8 to 0xB -/

def PushOp.legal (o : PushOp) : Bool := o.sb.toNat % 8 == 0
/-- A mask or count of groups 0x8 and 0xA: S or literal, L and K 0 (R310, R342). -/
def MaskOp.legalSL (o : MaskOp) : Bool := o.m.sl && o.m.unmarked
/-- BAR: a literal 0 to 15, or S (R159). -/
def MaskOp.legalBar (o : MaskOp) : Bool := o.m.sl && o.m.litUpTo 15
/-- SYNCM: S, V.D or literal (R159). -/
def MaskOp.legalSyncm (o : MaskOp) : Bool := o.m.vsl
/-- LEASE: an `n` of 0 is illegal (R310). -/
def MaskOp.legalLease (o : MaskOp) : Bool := o.m.sl && o.m.unmarked && o.m != .lit 0#8
/-- WAITANY: a mask of 0 is illegal (R310). -/
def MaskOp.legalAny (o : MaskOp) : Bool := o.m.sl && o.m.unmarked && o.m != .lit 0#8
def FfrOp.legal (o : FfrOp) : Bool := o.m.sl && o.m.unmarked
def BarxOp.legal (o : BarxOp) : Bool :=
  o.op != .xor && o.op.types o.ty && (o.dst.isS || o.dst.isDisc) && o.a.vsl && o.n.sl && o.n.litUpTo 15
def CbarmOp.legal (o : CbarmOp) : Bool := o.t.sl && o.t.unmarked && o.t.litUpTo 127
def CbwaitOp.legal (o : CbwaitOp) : Bool := o.n.sl && o.n.unmarked && o.n.litUpTo 127

/-- R298: the limits of a live set. -/
def liveOk (vl sl : BitVec 8) (n : BitVec 6) (m : BitVec 5) : Bool :=
  decide (n.toNat ≤ 32) && decide (m.toNat ≤ 16) && decide (vl.toNat + n.toNat ≤ 255) &&
  (n.toNat != 0 || vl == 0) && (m.toNat != 0 || sl == 0)
def RegrpOp.legal (o : RegrpOp) : Bool := liveOk o.vl o.sl o.n o.m
def RegrpbOp.legal (o : RegrpbOp) : Bool := liveOk o.vl o.sl o.n o.m

/-- A constant operand of group 0xA. -/
def pconst (s : Src) : Bool := s.sl && s.unmarked
def PmodeOp.legal (o : PmodeOp) : Bool := pconst o.m
/-- `sg` says that SGN is a field of the word (R342). -/
def Press2.legal (o : Press2) (sg : Bool) : Bool :=
  (!o.sgn || sg) && o.b.unmarked && (if o.k then o.b.sl else o.b.isS)
def PcmpOp.legal (o : PcmpOp) : Bool :=
  o.cmp != .num && o.cmp != .nan && o.b.unmarked && (if o.k then o.b.sl else o.b.isS)
def PsatOp.legal (o : PsatOp) : Bool := pconst o.lo && pconst o.hi
def PshiftOp.legal (o : PshiftOp) (sg : Bool) : Bool := (!o.sgn || sg) && pconst o.n

/-- R89, R290: the registers MOVS reads. -/
def MovsOp.legal (o : MovsOp) : Bool :=
  (o.dst.isS && (decide (o.r.toNat < 8) ||
    (decide (32 ≤ o.r.toNat ∧ o.r.toNat ≤ 60) && !(decide (44 ≤ o.r.toNat ∧ o.r.toNat ≤ 47)) &&
      !(decide (51 ≤ o.r.toNat ∧ o.r.toNat ≤ 55)))) ||
   (o.dst.isV && (decide (32 ≤ o.r.toNat ∧ o.r.toNat ≤ 60) &&
      !(decide (44 ≤ o.r.toNat ∧ o.r.toNat ≤ 47)) && !(decide (51 ≤ o.r.toNat ∧ o.r.toNat ≤ 55)))))
def MovwOp.legal (o : MovwOp) : Bool := o.a.sl
def MarkOp.legal (o : MarkOp) : Bool := o.a.sl

end Sys2Proof
end

