-- ==== Sys2Proof/WellFormed.lean ====
section
/-! DEFINITION. Well-formed instructions: every operand in a class, type and range its word accepts
(ILLEGAL_OPERAND otherwise, R100 step 2), `.D` and `.Q` groups aligned (R86), and, for the steps that are no words,
every part number in its range (R21). -/

namespace Sys2Proof

/-- A warp slot of a core (R21). -/
def slotOk (core slot : Nat) : Bool := decide (core < 256 ∧ slot < 64)

/-- The operand checks of one word, without the alignment. -/
def Instr.operandsOk : Instr → Bool
  | .nop _ => true
  | .mov _ o => o.legal
  | .movQueuePop _ o => o.legal
  | .movQueuePush _ o => o.legal
  | .movi _ o => o.legal
  | .iadd _ o | .isub _ o | .imul _ o => o.legal Ty.arith true true
  | .imulh _ o => o.legal Ty.arith false false
  | .imad _ o => o.legal Ty.arith true
  | .imadw _ o => o.legal (fun t => t == .i32 || t == .n32) true
  | .imin _ o | .imax _ o => o.legal Ty.arith false true
  | .iabs _ o => o.legal (fun t => t == .i32 || t == .i64) true
  | .iand _ o | .ior _ o | .ixor _ o => o.legal Ty.logic false true
  | .inot _ o => o.legal Ty.logic false
  | .shl _ o | .shr _ o | .sar _ o | .rol _ o | .bfe _ o => o.legal Ty.logic false true
  | .bfi _ o => o.legal Ty.logic false
  | .popc _ o | .clz _ o | .brev _ o => o.legal Ty.logic false
  | .sel _ o => o.legal
  | .lea _ o => o.legal
  | .bpick _ o => o.legal (fun t => t == .b32) false
  | .fadd _ o | .fsub _ o | .fmul _ o | .fscale _ o => o.legal true
  | .ffma _ o => o.legal true
  | .fmin _ o | .fmax _ o => o.legal false
  | .fclamp _ o => o.legal false
  | .hadd2 _ o | .hsub2 _ o | .hmul2 _ o => o.legal true
  | .hfma2 _ o | .hdot2 _ o => o.legal
  | .hmin2 _ o | .hmax2 _ o => o.legal false
  | .cvt _ o => o.legal
  | .frnd _ o => o.legal
  | .rcp _ o | .rsq _ o | .sqrt _ o | .ex2 _ o | .lg2 _ o | .sin _ o | .cos _ o | .sincos _ o
  | .tanh _ o | .sigm _ o => o.legal
  | .rand _ o => o.legal
  | .csamp _ o => o.legal
  | .shfl _ o => o.legal
  | .pswap _ o => o.legal
  | .qswap _ o => o.legal
  | .qbcast _ o => o.legal
  | .vote _ o => o.legal
  | .matchLanes _ o => o.legal
  | .rdx _ o => o.legal
  | .scn _ o => o.legal
  | .elect _ o => o.legal
  | .itest _ o => o.legal
  | .ftest _ o => o.legal
  | .htest2 _ o => o.legal
  | .pcomb _ _ | .ccomb _ _ => true
  | .cset _ o | .s2p _ o => o.legal
  | .p2s _ _ => true
  | .bra _ _ | .bruLabel _ _ => true
  | .bruRegister _ o => o.legal
  | .brx _ o | .ret _ o => o.legal
  | .call _ o => o.legal
  | .callx _ o => o.legal
  | .exit _ => true
  | .napImmediate _ _ => true
  | .napRegister _ o => o.legalS
  | .ld _ o => o.legal
  | .st _ o => o.legal
  | .stCb _ o => o.legal
  | .prf _ o => o.legal
  | .clean _ o | .inval _ o | .clinv _ o | .drop _ o => o.legal
  | .atom _ o => o.legal
  | .red _ o => o.legal
  | .cas _ o => o.legal
  | .fence _ o => o.legal
  | .opfence _ => true
  | .tlook _ o | .tins _ o | .tdel _ o => o.legal
  | .tseek _ o => o.legal
  | .tnext _ o | .tprev _ o => o.legal
  | .tclose _ _ => true
  | .trekey _ o => o.legal
  | .tadd _ o => o.legal
  | .tpin _ o | .tstat _ o | .tcount _ o => o.legal
  | .tunpin _ o => o.legal
  | .tswap _ o => o.legal
  | .trow _ o => o.legal
  | .push _ o => o.legal
  | .waitany _ o => o.legalAny
  | .waitall _ o | .tagclr _ o | .tagset _ o => o.legalSL
  | .ffr _ o => o.legal
  | .leaseRegister _ o => o.legalLease
  | .leaseImmediate _ o => o.n != 0
  | .unlease _ => true
  | .bar _ o => o.legalBar
  | .barx _ o => o.legal
  | .syncm _ o => o.legalSyncm
  | .cbarm _ o => o.legal
  | .cbwait _ o => o.legal
  | .regrp _ o => o.legal
  | .regrpb _ o => o.legal
  | .pmodePress _ o | .pmodeCache _ o => o.legal
  | .pxin _ _ | .pxout _ _ => true
  | .padd _ o | .psub _ o | .pmul _ o => o.legal true
  | .pand _ o | .por _ o | .pxor _ o => o.legal false
  | .pnot _ _ | .pcnt _ _ => true
  | .pcmp _ o => o.legal
  | .psel _ _ => true
  | .psat _ o => o.legal
  | .pshl _ o => o.legal false
  | .pshr _ o => o.legal true
  | .psync _ o => o.legalSL
  | .trap _ _ | .bkpt _ _ | .eret _ | .illeg _ _ | .stopchk _ _ => true
  | .movs _ o => o.legal
  | .movw _ o => o.legal
  | .mark _ o => o.legal
  | .napEnd k n | .fenceCompletion k n | .fenceScCompletion k n | .opfenceCompletion k n | .pushPlaceFreed k n
  | .tagWaitWakeup k n | .cbwaitSatisfied k n | .cbwaitTimeout k n | .regrpArrival k n | .pressAcceptance k n
  | .psyncCompletion k n | .queueAccessUnblock k n | .warpSave k n | .debugStop k n => slotOk k n
  | .writeBack k n _ => slotOk k n
  | .runIssue k i => decide (k < 256 ∧ i < 2)
  | .pressEntryCompletion b | .pressDrainCompletion b | .pressOperationCompletion b => decide (b < 24)
  | .homeRequest n | .frequencyAgeing n => decide (n < 192)
  | .portFailure n => decide (n < 16)
  | .rdreq f | .rdrsp f | .wr f | .wrcb f | .atomFlit f | .atomrsp f | .wrack f | .rwrite f | .credit f
  | .unknownFlit f | .flitCrcRetry f => decide (f.port < 16 ∧ f.payload.length ≤ 224)
  | .gemm k _ | .reserve k _ | .loadb k _ | .release k _ | .copyNone k _ | .copyScale k _ | .copyAdd k _
  | .copyCast k _ | .copyReduce k _ | .allGather k _ | .reduceScatter k _ | .allReduce k _
  | .chunkCompletion k _ _ _ | .build k _ | .launch k _ | .setaside k _ | .attend k _ | .mapinv k _
  | .tileBoundary k => decide (k < 256)
  | .commandCompletion k q _ => decide (k < 256 ∧ q < 7)
  | .setasideExpiry n => decide (n < 128)
  | .kernel q _ | .wait q _ | .signal q _ | .packetStart q => decide (q < 64)
  | .teamPlacement d | .sync d | .clockChange d | .thermalStepDown d | .thermalStepUp d => decide (d < 4)
  | .tlbWalkCompletion d _ _ | .atsTranslationCompletion d _ _ _ => decide (d < 4)
  | .cdb f _ _ _ => decide (f < 9)
  | .ldb f _ _ _ _ => decide (f < 8)
  | .hostSnoop _ _ _ | .hostStoreCxlMem _ _ | .backInvalidateReply _ _ | .atomicopCompletion _ _
  | .atsInvalidateRequest _ _ _ | .relocationCompletion _ _ | .teamRetirement _ _ | .gridEnd _
  | .grant _ | .stop _ | .stopDelivery _ | .drainEnd _ | .faultreplyRetry _ | .faultreplyDeliver _
  | .faultreplyAbort _ | .faultreplyRefused _ | .ctxdesc _ | .tabledesc _ | .tlbinv _ | .ncrange _
  | .dedicate _ | .group _ | .domain _ | .qrestart _ | .pasidGrant _ | .pasidRevoke _ | .destroy _
  | .clock _ | .qbindBind _ | .qbindUnbind _ | .ringcfg _ | .evctrSet _ | .evctrAdd _
  | .unknownControlPacket _ | .heartbeatTick | .countersLatch | .traceControlWrite _ _ | .daccAccess _ _
  | .debuggerRequest _ _ | .resume _ _ | .ago _ _ | .registerWrite _ _ _ _ | .resetRelease
  | .selfTestStageCompletion _ _ | .alarm | .correctableError | .uncorrectableError _ | .patrolScrub _
  | .hostReadCxlMem _ | .hostReadCompletion _ _ => true

/-- The instruction is well formed. -/
def Instr.wellFormed (i : Instr) : Bool :=
  i.operandsOk && (match i.info with
    | some w => w.aligned
    | none => true)

end Sys2Proof
end

