-- ==== Sys2Proof/Decode.lean ====
section
/-! DEFINITION. The decoder and the encoder of the 96-bit instruction word (R80 to R88, R94, R101 and the
encoding tables of the home chapters). A word is first cut into the fields of R80; a row of the opcode table (R101)
reads the fields; what it reads must be well formed. A word is refused by name: ILLEGAL_OPCODE or
ILLEGAL_OPERAND (R100), with the guard that decides whether it has an active lane (R81). -/

namespace Sys2Proof

/-- The fields of R80. `dst` is class and index; `sa`, `sb` are class, index, L, K; `sc` is [39:24]. -/
structure Fields where
  opc : BitVec 10
  md : BitVec 8
  gneg : Bool
  gidx : BitVec 3
  dst : BitVec 10
  sa : BitVec 12
  sb : BitVec 12
  sc : BitVec 16
  sch : BitVec 24
  deriving DecidableEq, Repr

/-- R80: cutting a word into its fields. -/
def fieldsOf (w : InstrWord) : Fields where
  opc := w.extractLsb' 86 10
  md := w.extractLsb' 78 8
  gneg := w.getLsbD 77
  gidx := w.extractLsb' 74 3
  dst := w.extractLsb' 64 10
  sa := w.extractLsb' 52 12
  sb := w.extractLsb' 40 12
  sc := w.extractLsb' 24 16
  sch := w.extractLsb' 0 24

/-- R80: the word with the given fields. -/
def wordOf (f : Fields) : InstrWord :=
  f.opc ++ f.md ++ BitVec.ofBool f.gneg ++ f.gidx ++ f.dst ++ f.sa ++ f.sb ++ f.sc ++ f.sch

/-- R83: the 28-bit long immediate [51:24]. -/
def Fields.imm28 (f : Fields) : BitVec 28 := f.sb ++ f.sc

/-! ### The scheduling field (R94) -/

def schedOf (x : BitVec 24) : Sched where
  stall := x.extractLsb' 20 4
  yld := x.getLsbD 19
  fin := x.getLsbD 18
  rgn := x.getLsbD 17
  wait := x.extractLsb' 11 6
  setw := x.extractLsb' 8 3
  setr := x.extractLsb' 5 3
  wcnt := x.extractLsb' 0 5

def encSched (s : Sched) : BitVec 24 :=
  s.stall ++ BitVec.ofBool s.yld ++ BitVec.ofBool s.fin ++ BitVec.ofBool s.rgn ++ s.wait ++ s.setw ++ s.setr ++ s.wcnt

def Fields.ctl (f : Fields) : Ctl := ⟨⟨f.gneg, f.gidx⟩, schedOf f.sch⟩

/-! ### Codes (R54, R103, R125, R127, R152, R154, R156, R180, R188, R240) -/

def tyOf (x : BitVec 4) : Ty :=
  match x.toNat with
  | 0 => .i32 | 1 => .n32 | 2 => .i64 | 3 => .n64 | 4 => .i16 | 5 => .n16 | 6 => .i8 | 7 => .n8
  | 8 => .b32 | 9 => .b64 | 10 => .f32 | 11 => .f16 | 12 => .bf16 | 13 => .e4m3 | 14 => .e5m2 | _ => .d2p8

def encTy : Ty → BitVec 4
  | .i32 => 0 | .n32 => 1 | .i64 => 2 | .n64 => 3 | .i16 => 4 | .n16 => 5 | .i8 => 6 | .n8 => 7
  | .b32 => 8 | .b64 => 9 | .f32 => 10 | .f16 => 11 | .bf16 => 12 | .e4m3 => 13 | .e5m2 => 14 | .d2p8 => 15

def rndOf (x : BitVec 3) : Option Rnd :=
  match x.toNat with
  | 0 => some .rn | 1 => some .rna | 2 => some .rz | 3 => some .rm | 4 => some .rp | _ => none

def encRnd : Rnd → BitVec 3
  | .rn => 0 | .rna => 1 | .rz => 2 | .rm => 3 | .rp => 4

def scopeOf (x : BitVec 3) : Option Scope :=
  match x.toNat with
  | 0 => some .warp | 1 => some .team | 2 => some .coh | 3 => some .dev | 4 => some .sys | _ => none

def encScope : Scope → BitVec 3
  | .warp => 0 | .team => 1 | .coh => 2 | .dev => 3 | .sys => 4

def orderOf (x : BitVec 3) : Option Order :=
  match x.toNat with
  | 0 => some .rlx | 1 => some .acq | 2 => some .rel | 3 => some .ar | 4 => some .sc | _ => none

def encOrder : Order → BitVec 3
  | .rlx => 0 | .acq => 1 | .rel => 2 | .ar => 3 | .sc => 4

def cmpOf (x : BitVec 3) : Cmp :=
  match x.toNat with
  | 0 => .eq | 1 => .ne | 2 => .lt | 3 => .le | 4 => .gt | 5 => .ge | 6 => .num | _ => .nan

def encCmp : Cmp → BitVec 3
  | .eq => 0 | .ne => 1 | .lt => 2 | .le => 3 | .gt => 4 | .ge => 5 | .num => 6 | .nan => 7

def bitOpOf (x : BitVec 2) : BitOp :=
  match x.toNat with
  | 0 => .and | 1 => .or | 2 => .xor | _ => .andn

def encBitOp : BitOp → BitVec 2
  | .and => 0 | .or => 1 | .xor => 2 | .andn => 3

def shflOf (x : BitVec 2) : ShflMode :=
  match x.toNat with
  | 0 => .idx | 1 => .up | 2 => .down | _ => .xor

def encShfl : ShflMode → BitVec 2
  | .idx => 0 | .up => 1 | .down => 2 | .xor => 3

def qswapOf (x : BitVec 2) : Option QswapMode :=
  match x.toNat with
  | 0 => some .h | 1 => some .v | 2 => some .d | _ => none

def encQswap : QswapMode → BitVec 2
  | .h => 0 | .v => 1 | .d => 2

def voteOf (x : BitVec 2) : VoteOp :=
  match x.toNat with
  | 0 => .any | 1 => .all | 2 => .eq | _ => .ballot

def encVote : VoteOp → BitVec 2
  | .any => 0 | .all => 1 | .eq => 2 | .ballot => 3

def redOpOf (x : BitVec 3) : Option RedOp :=
  match x.toNat with
  | 0 => some .add | 1 => some .min | 2 => some .max | 3 => some .and | 4 => some .or | 5 => some .xor | _ => none

def encRedOp : RedOp → BitVec 3
  | .add => 0 | .min => 1 | .max => 2 | .and => 3 | .or => 4 | .xor => 5

def atomOpOf (x : BitVec 4) : Option AtomOp :=
  match x.toNat with
  | 0 => some .add | 1 => some .min | 2 => some .max | 3 => some .and | 4 => some .or | 5 => some .xor
  | 6 => some .exch | 7 => some .inc | 8 => some .dec | _ => none

def encAtomOp : AtomOp → BitVec 4
  | .add => 0 | .min => 1 | .max => 2 | .and => 3 | .or => 4 | .xor => 5 | .exch => 6 | .inc => 7 | .dec => 8

def casTyOf (x : BitVec 2) : Option CasTy :=
  match x.toNat with
  | 0 => some .n32 | 1 => some .n64 | 2 => some .b64pair | _ => none

def encCasTy : CasTy → BitVec 2
  | .n32 => 0 | .n64 => 1 | .b64pair => 2

def kfOf (x : BitVec 3) : Option KeyFmt :=
  match x.toNat with
  | 0 => some .ki32 | 1 => some .kn32 | 2 => some .ki64 | 3 => some .kn64 | 4 => some .kf32 | 5 => some .kc128
  | _ => none

def encKf : KeyFmt → BitVec 3
  | .ki32 => 0 | .kn32 => 1 | .ki64 => 2 | .kn64 => 3 | .kf32 => 4 | .kc128 => 5

def frndOf (x : BitVec 2) : Option FrndFmt :=
  match x.toNat with
  | 0 => some .f32 | 1 => some .f16 | 2 => some .bf16 | _ => none

def encFrnd : FrndFmt → BitVec 2
  | .f32 => 0 | .f16 => 1 | .bf16 => 2

/-! ### Operand fields (R83, R84, R87) -/

def useOf (x : BitVec 2) : Option Use :=
  match x.toNat with
  | 0 => some .plain | 1 => some .keep | 2 => some .last | _ => none

def encUse : Use → BitVec 2
  | .plain => 0 | .keep => 1 | .last => 2

/-- A source field: V, S or literal. Class 10 is opened only by the positions that name it. -/
def srcOf (f : BitVec 12) : Option Src :=
  match (f.extractLsb' 10 2).toNat, useOf (f.extractLsb' 0 2) with
  | 0, some u => some (.v (f.extractLsb' 2 8) u)
  | 1, some u => some (.s (f.extractLsb' 2 8) u)
  | 3, some .plain => some (.lit (f.extractLsb' 2 8))
  | _, _ => none

def encSrc : Src → BitVec 12
  | .v n u => 0#2 ++ n ++ encUse u
  | .s n u => 1#2 ++ n ++ encUse u
  | .lit x => 3#2 ++ x ++ 0#2
  | .imm _ => 0

/-- The SC field as a source with extension 0. -/
def srcScOf (f : BitVec 16) : Option Src :=
  if f.extractLsb' 0 4 = 0 then srcOf (f.extractLsb' 4 12) else none

def encSrcSc (s : Src) : BitVec 16 := encSrc s ++ 0#4

/-- P0 to P7 in a source position: class 10, index 240 to 247, L and K 0. -/
def pOf (f : BitVec 12) : Option (BitVec 3) :=
  if f.extractLsb' 5 7 = 0x5E#7 ∧ f.extractLsb' 0 2 = 0#2 then some (f.extractLsb' 2 3) else none

def encP (i : BitVec 3) : BitVec 12 := 0x5E#7 ++ i ++ 0#2

/-- C0 to C7 in a source position: class 10, index 248 to 255. -/
def cOf (f : BitVec 12) : Option (BitVec 3) :=
  if f.extractLsb' 5 7 = 0x5F#7 ∧ f.extractLsb' 0 2 = 0#2 then some (f.extractLsb' 2 3) else none

def encC (i : BitVec 3) : BitVec 12 := 0x5F#7 ++ i ++ 0#2

/-- K0 to K7 in the cursor position: class 10, index 16 to 23. -/
def kOf (f : BitVec 12) : Option (BitVec 3) :=
  if f.extractLsb' 5 7 = 0x42#7 ∧ f.extractLsb' 0 2 = 0#2 then some (f.extractLsb' 2 3) else none

def encK (i : BitVec 3) : BitVec 12 := 0x42#7 ++ i ++ 0#2

/-- An unmarked S register. -/
def sOf (f : BitVec 12) : Option (BitVec 8) :=
  if f.extractLsb' 10 2 = 1#2 ∧ f.extractLsb' 0 2 = 0#2 then some (f.extractLsb' 2 8) else none

def encS (n : BitVec 8) : BitVec 12 := 1#2 ++ n ++ 0#2

/-- An unmarked V register. -/
def vOf (f : BitVec 12) : Option (BitVec 8) :=
  if f.extractLsb' 10 2 = 0#2 ∧ f.extractLsb' 0 2 = 0#2 then some (f.extractLsb' 2 8) else none

def encV (n : BitVec 8) : BitVec 12 := 0#2 ++ n ++ 0#2

/-- A second destination: unmarked S register or class 11 (R152). -/
def secondOf (f : BitVec 12) : Option Dst :=
  if f.extractLsb' 0 2 = 0#2 then
    match (f.extractLsb' 10 2).toNat with
    | 1 => some (.s (f.extractLsb' 2 8))
    | 3 => some .disc
    | _ => none
  else none

def encSecond : Dst → BitVec 12
  | .s n => 1#2 ++ n ++ 0#2
  | _ => 3#2 ++ 0#8 ++ 0#2

/-- The destination field. -/
def dstOf (d : BitVec 10) : Option Dst :=
  match (d.extractLsb' 8 2).toNat with
  | 0 => some (.v (d.extractLsb' 0 8))
  | 1 => some (.s (d.extractLsb' 0 8))
  | 3 => some .disc
  | _ =>
    if d.extractLsb' 3 5 = 30#5 then some (.p (d.extractLsb' 0 3))
    else if d.extractLsb' 3 5 = 31#5 then some (.c (d.extractLsb' 0 3)) else none

def encDst : Dst → BitVec 10
  | .v n => 0#2 ++ n
  | .s n => 1#2 ++ n
  | .p i => 2#2 ++ 30#5 ++ i
  | .c i => 2#2 ++ 31#5 ++ i
  | .disc => 3#2 ++ 0#8

def dstP (d : BitVec 10) : Option (BitVec 3) :=
  if d.extractLsb' 3 7 = 0x5E#7 then some (d.extractLsb' 0 3) else none
def encDstP (i : BitVec 3) : BitVec 10 := 0x5E#7 ++ i
def dstC (d : BitVec 10) : Option (BitVec 3) :=
  if d.extractLsb' 3 7 = 0x5F#7 then some (d.extractLsb' 0 3) else none
def encDstC (i : BitVec 3) : BitVec 10 := 0x5F#7 ++ i
def dstS (d : BitVec 10) : Option (BitVec 8) :=
  if d.extractLsb' 8 2 = 1#2 then some (d.extractLsb' 0 8) else none
def encDstS (n : BitVec 8) : BitVec 10 := 1#2 ++ n
def dstV (d : BitVec 10) : Option (BitVec 8) :=
  if d.extractLsb' 8 2 = 0#2 then some (d.extractLsb' 0 8) else none
def encDstV (n : BitVec 8) : BitVec 10 := 0#2 ++ n

/-- R82: the destination names the scalar form (class 01, or C0 to C7). -/
def dstScalar (d : BitVec 10) : Bool := d.extractLsb' 8 2 == 1#2 || d.extractLsb' 3 7 == 0x5F#7

/-- `some x` where the unused fields hold 0 (R88). -/
def need {α : Type} (b : Bool) (x : Option α) : Option α := if b then x else none

/-- Fields with everything but opcode, guard and scheduling field 0. -/
def base (opc : Nat) (c : Ctl) : Fields where
  opc := BitVec.ofNat 10 opc
  md := 0
  gneg := c.g.neg
  gidx := c.g.idx
  dst := 0
  sa := 0
  sb := 0
  sc := 0
  sch := encSched c.sch

/-! ### Group 0x0 -/

/-- MOD of group 0x0 (R113): type, SAT, IMM. -/
def md0 (ty : Ty) (sat imm : Bool) : BitVec 8 := encTy ty ++ BitVec.ofBool sat ++ BitVec.ofBool imm ++ 0#2

def int1Of (f : Fields) : Option Int1 :=
  need (f.md.extractLsb' 0 3 == 0#3 && f.sb == 0 && f.sc == 0)
    (match dstOf f.dst, srcOf f.sa with
    | some d, some a => some ⟨tyOf (f.md.extractLsb' 4 4), f.md.getLsbD 3, d, a⟩
    | _, _ => none)

def encInt1 (b : Fields) (o : Int1) : Fields :=
  { b with md := md0 o.ty o.sat false, dst := encDst o.dst, sa := encSrc o.a }

def int2Of (f : Fields) : Option Int2 :=
  need (f.md.extractLsb' 0 2 == 0#2)
    (if f.md.getLsbD 2 then
      need (f.sb == 0)
        (match dstOf f.dst, srcOf f.sa with
        | some d, some a => some ⟨tyOf (f.md.extractLsb' 4 4), f.md.getLsbD 3, d, a, .imm f.sc⟩
        | _, _ => none)
    else
      need (f.sc == 0)
        (match dstOf f.dst, srcOf f.sa, srcOf f.sb with
        | some d, some a, some b => some ⟨tyOf (f.md.extractLsb' 4 4), f.md.getLsbD 3, d, a, b⟩
        | _, _, _ => none))

/-- The 16-bit immediate of a source, 0 where it is none. -/
def immOf : Src → BitVec 16
  | .imm x => x
  | _ => 0

def encInt2 (b : Fields) (o : Int2) : Fields :=
  { b with
    md := md0 o.ty o.sat o.b.isImm, dst := encDst o.dst, sa := encSrc o.a, sb := encSrc o.b, sc := immOf o.b }

def int3Of (f : Fields) : Option Int3 :=
  need (f.md.extractLsb' 0 3 == 0#3)
    (match dstOf f.dst, srcOf f.sa, srcOf f.sb, srcScOf f.sc with
    | some d, some a, some b, some c => some ⟨tyOf (f.md.extractLsb' 4 4), f.md.getLsbD 3, d, a, b, c⟩
    | _, _, _, _ => none)

def encInt3 (b : Fields) (o : Int3) : Fields :=
  { b with
    md := md0 o.ty o.sat false, dst := encDst o.dst, sa := encSrc o.a, sb := encSrc o.b, sc := encSrcSc o.c }

/-- R117: SC names the predicate, SC[24] negates it. -/
def selOf (f : Fields) : Option SelOp :=
  need (f.md.extractLsb' 0 4 == 0#4 && f.sc.extractLsb' 1 3 == 0#3)
    (match dstOf f.dst, srcOf f.sa, srcOf f.sb,
      (if dstScalar f.dst then cOf (f.sc.extractLsb' 4 12) else pOf (f.sc.extractLsb' 4 12)) with
    | some d, some a, some b, some p => some ⟨tyOf (f.md.extractLsb' 4 4), d, a, b, f.sc.getLsbD 0, p⟩
    | _, _, _, _ => none)

def encSel (b : Fields) (o : SelOp) : Fields :=
  { b with
    md := md0 o.ty false false, dst := encDst o.dst, sa := encSrc o.a, sb := encSrc o.b,
    sc := (if o.dst.scalar then encC o.pi else encP o.pi) ++ 0#3 ++ BitVec.ofBool o.neg }

def leaOf (f : Fields) : Option LeaOp :=
  need (f.md.extractLsb' 0 4 == 0#4 && f.sc.extractLsb' 4 12 == 0#12)
    (match dstOf f.dst, srcOf f.sa, srcOf f.sb with
    | some d, some a, some b => some ⟨tyOf (f.md.extractLsb' 4 4), d, a, b, f.sc.extractLsb' 0 4⟩
    | _, _, _ => none)

def encLea (b : Fields) (o : LeaOp) : Fields :=
  { b with
    md := md0 o.ty false false, dst := encDst o.dst, sa := encSrc o.a, sb := encSrc o.b, sc := 0#12 ++ o.sh }

def moviOf (f : Fields) : Option MoviOp :=
  need (f.md.extractLsb' 0 4 == 0#4 && f.sa == 0)
    (match dstOf f.dst with
    | some d => some ⟨tyOf (f.md.extractLsb' 4 4), d, f.imm28⟩
    | _ => none)

def encMovi (b : Fields) (o : MoviOp) : Fields :=
  { b with
    md := md0 o.ty false false, dst := encDst o.dst, sb := o.imm.extractLsb' 16 12, sc := o.imm.extractLsb' 0 16 }

/-- MOV and its queue forms (R121, R124): E in SA pops, E8 to E11 in DST pushes. -/
def movOf (c : Ctl) (f : Fields) : Option Instr :=
  need (f.md.extractLsb' 0 4 == 0#4 && f.sb == 0 && f.sc == 0)
    (if f.sa.extractLsb' 6 6 = 0x20#6 then
      need (f.sa.extractLsb' 0 2 == 0#2)
        (let e := f.sa.extractLsb' 2 4
         match dstOf f.dst with
         | some d =>
           need (tyOf (f.md.extractLsb' 4 4) == (if e.toNat < 8 then Ty.b64 else Ty.b32))
             (some (.movQueuePop c ⟨e, d⟩))
         | none => none)
    else if f.dst.extractLsb' 4 6 = 0x20#6 then
      match srcOf f.sa with
      | some a => need (tyOf (f.md.extractLsb' 4 4) == Ty.b32) (some (.movQueuePush c ⟨f.dst.extractLsb' 0 4, a⟩))
      | none => none
    else
      match dstOf f.dst, srcOf f.sa with
      | some d, some a => some (.mov c ⟨tyOf (f.md.extractLsb' 4 4), d, a⟩)
      | _, _ => none)

def encMov (b : Fields) (o : MovOp) : Fields :=
  { b with md := md0 o.ty false false, dst := encDst o.dst, sa := encSrc o.a }
def encQPop (b : Fields) (o : QPopOp) : Fields :=
  { b with
    md := md0 (if o.e.toNat < 8 then .b64 else .b32) false false, dst := encDst o.dst, sa := 0x20#6 ++ o.e ++ 0#2 }
def encQPush (b : Fields) (o : QPushOp) : Fields :=
  { b with md := md0 .b32 false false, dst := 0x20#6 ++ o.e, sa := encSrc o.a }

/-! ### Groups 0x1 and 0x2 -/

/-- MOD of group 0x1 (R141): RND, SAT, FTZ, FMT. -/
def md1 (r : Rnd) (sat ftz fmt : Bool) : BitVec 8 :=
  encRnd r ++ BitVec.ofBool sat ++ BitVec.ofBool ftz ++ BitVec.ofBool fmt ++ 0#2

def f2Of (f : Fields) : Option F2 :=
  need (f.md.extractLsb' 0 3 == 0#3 && f.sc == 0)
    (match rndOf (f.md.extractLsb' 5 3), dstOf f.dst, srcOf f.sa, srcOf f.sb with
    | some r, some d, some a, some b => some ⟨r, f.md.getLsbD 4, f.md.getLsbD 3, d, a, b⟩
    | _, _, _, _ => none)

def encF2 (b : Fields) (o : F2) : Fields :=
  { b with md := md1 o.rnd o.sat o.ftz false, dst := encDst o.dst, sa := encSrc o.a, sb := encSrc o.b }

def f3Of (f : Fields) : Option F3 :=
  need (f.md.extractLsb' 0 3 == 0#3)
    (match rndOf (f.md.extractLsb' 5 3), dstOf f.dst, srcOf f.sa, srcOf f.sb, srcScOf f.sc with
    | some r, some d, some a, some b, some c => some ⟨r, f.md.getLsbD 4, f.md.getLsbD 3, d, a, b, c⟩
    | _, _, _, _, _ => none)

def encF3 (b : Fields) (o : F3) : Fields :=
  { b with
    md := md1 o.rnd o.sat o.ftz false, dst := encDst o.dst, sa := encSrc o.a, sb := encSrc o.b, sc := encSrcSc o.c }

def h2Of (f : Fields) : Option H2 :=
  need (f.md.extractLsb' 0 2 == 0#2 && f.sc == 0)
    (match rndOf (f.md.extractLsb' 5 3), dstOf f.dst, srcOf f.sa, srcOf f.sb with
    | some r, some d, some a, some b => some ⟨f.md.getLsbD 2, r, f.md.getLsbD 4, f.md.getLsbD 3, d, a, b⟩
    | _, _, _, _ => none)

def encH2 (b : Fields) (o : H2) : Fields :=
  { b with md := md1 o.rnd o.sat o.ftz o.bf, dst := encDst o.dst, sa := encSrc o.a, sb := encSrc o.b }

def h3Of (f : Fields) : Option H3 :=
  need (f.md.extractLsb' 0 2 == 0#2)
    (match rndOf (f.md.extractLsb' 5 3), dstOf f.dst, srcOf f.sa, srcOf f.sb, srcScOf f.sc with
    | some r, some d, some a, some b, some c => some ⟨f.md.getLsbD 2, r, f.md.getLsbD 4, f.md.getLsbD 3, d, a, b, c⟩
    | _, _, _, _, _ => none)

def encH3 (b : Fields) (o : H3) : Fields :=
  { b with
    md := md1 o.rnd o.sat o.ftz o.bf, dst := encDst o.dst, sa := encSrc o.a, sb := encSrc o.b, sc := encSrcSc o.c }

/-- R145: the control word in [39:24]. -/
def cvtOf (f : Fields) : Option CvtOp :=
  need (f.sb == 0 && f.sc.extractLsb' 5 11 == 0#11)
    (match rndOf (f.sc.extractLsb' 0 3), dstOf f.dst, srcOf f.sa with
    | some r, some d, some a =>
      some ⟨tyOf (f.md.extractLsb' 4 4), tyOf (f.md.extractLsb' 0 4), r, f.sc.getLsbD 3, f.sc.getLsbD 4, d, a⟩
    | _, _, _ => none)

def encCvt (b : Fields) (o : CvtOp) : Fields :=
  { b with
    md := encTy o.dt ++ encTy o.st, dst := encDst o.dst, sa := encSrc o.a,
    sc := 0#11 ++ BitVec.ofBool o.ftz ++ BitVec.ofBool o.sat ++ encRnd o.rnd }

def frndOpOf (f : Fields) : Option FrndOp :=
  need (f.md.getLsbD 4 == false && f.md.getLsbD 0 == false && f.sb == 0 && f.sc == 0)
    (match frndOf (f.md.extractLsb' 1 2), rndOf (f.md.extractLsb' 5 3), dstOf f.dst, srcOf f.sa with
    | some t, some r, some d, some a => some ⟨t, r, f.md.getLsbD 3, d, a⟩
    | _, _, _, _ => none)

def encFrndOp (b : Fields) (o : FrndOp) : Fields :=
  { b with
    md := encRnd o.rnd ++ 0#1 ++ BitVec.ofBool o.ftz ++ encFrnd o.fmt ++ 0#1, dst := encDst o.dst, sa := encSrc o.a }

def sfuOf (f : Fields) : Option SfuOp :=
  need (f.md.extractLsb' 4 4 == 0#4 && f.md.extractLsb' 0 2 == 0#2 && f.sb == 0 && f.sc == 0)
    (match dstOf f.dst, srcOf f.sa with
    | some d, some a => some ⟨f.md.getLsbD 2, f.md.getLsbD 3, d, a⟩
    | _, _ => none)

def encSfu (b : Fields) (o : SfuOp) : Fields :=
  { b with
    md := 0#4 ++ BitVec.ofBool o.ftz ++ BitVec.ofBool o.f16 ++ 0#2, dst := encDst o.dst, sa := encSrc o.a }

def randOf (f : Fields) : Option RandOp :=
  need (f.md.extractLsb' 0 4 == 0#4 && f.sc == 0)
    (match dstOf f.dst, srcOf f.sa, srcOf f.sb with
    | some d, some a, some b => some ⟨tyOf (f.md.extractLsb' 4 4), d, a, b⟩
    | _, _, _ => none)

def encRand (b : Fields) (o : RandOp) : Fields :=
  { b with md := encTy o.ty ++ 0#4, dst := encDst o.dst, sa := encSrc o.a, sb := encSrc o.b }

def csampOf (f : Fields) : Option CsampOp :=
  need (f.md == 0xA0#8 && f.sc == 0)
    (match dstOf f.dst, srcOf f.sa, srcOf f.sb with
    | some d, some a, some b => some ⟨d, a, b⟩
    | _, _, _ => none)

def encCsamp (b : Fields) (o : CsampOp) : Fields :=
  { b with md := 0xA0#8, dst := encDst o.dst, sa := encSrc o.a, sb := encSrc o.b }

/-! ### Group 0x3 -/

def shflOpOf (f : Fields) : Option ShflOp :=
  need (f.md.extractLsb' 2 6 == 0#6 && f.sc.extractLsb' 0 4 == 0#4)
    (match dstOf f.dst, srcOf f.sa, srcOf f.sb, pOf (f.sc.extractLsb' 4 12) with
    | some d, some a, some b, some p => some ⟨shflOf (f.md.extractLsb' 0 2), d, a, b, p⟩
    | _, _, _, _ => none)

def encShflOp (b : Fields) (o : ShflOp) : Fields :=
  { b with
    md := 0#6 ++ encShfl o.mode, dst := encDst o.dst, sa := encSrc o.a, sb := encSrc o.b, sc := encP o.pv ++ 0#4 }

def pswapOf (f : Fields) : Option PswapOp :=
  need (f.md == 0 && f.sb == 0 && f.sc.extractLsb' 0 4 == 0#4)
    (match dstOf f.dst, srcOf f.sa, pOf (f.sc.extractLsb' 4 12) with
    | some d, some a, some p => some ⟨d, a, p⟩
    | _, _, _ => none)

def encPswap (b : Fields) (o : PswapOp) : Fields :=
  { b with dst := encDst o.dst, sa := encSrc o.a, sc := encP o.pv ++ 0#4 }

def qswapOpOf (f : Fields) : Option QswapOp :=
  need (f.md.extractLsb' 2 6 == 0#6 && f.sb == 0 && f.sc.extractLsb' 0 4 == 0#4)
    (match qswapOf (f.md.extractLsb' 0 2), dstOf f.dst, srcOf f.sa, pOf (f.sc.extractLsb' 4 12) with
    | some m, some d, some a, some p => some ⟨m, d, a, p⟩
    | _, _, _, _ => none)

def encQswapOp (b : Fields) (o : QswapOp) : Fields :=
  { b with md := 0#6 ++ encQswap o.mode, dst := encDst o.dst, sa := encSrc o.a, sc := encP o.pv ++ 0#4 }

def qbcastOf (f : Fields) : Option QbcastOp :=
  need (f.md == 0 && f.sc.extractLsb' 0 4 == 0#4)
    (match dstOf f.dst, srcOf f.sa, srcOf f.sb, pOf (f.sc.extractLsb' 4 12) with
    | some d, some a, some b, some p => some ⟨d, a, b, p⟩
    | _, _, _, _ => none)

def encQbcast (b : Fields) (o : QbcastOp) : Fields :=
  { b with dst := encDst o.dst, sa := encSrc o.a, sb := encSrc o.n, sc := encP o.pv ++ 0#4 }

def voteOpOf (f : Fields) : Option VoteO :=
  need (f.md.extractLsb' 2 6 == 0#6 && f.sb == 0 && f.sc == 0)
    (match dstOf f.dst, pOf f.sa with
    | some d, some p => some ⟨voteOf (f.md.extractLsb' 0 2), d, p⟩
    | _, _ => none)

def encVoteOp (b : Fields) (o : VoteO) : Fields :=
  { b with md := 0#6 ++ encVote o.op, dst := encDst o.dst, sa := encP o.px }

def matchOf (f : Fields) : Option MatchOp :=
  need (f.md.extractLsb' 0 4 == 0#4 && f.sb == 0 && f.sc == 0)
    (match dstOf f.dst, srcOf f.sa with
    | some d, some a => some ⟨tyOf (f.md.extractLsb' 4 4), d, a⟩
    | _, _ => none)

def encMatch (b : Fields) (o : MatchOp) : Fields :=
  { b with md := encTy o.ty ++ 0#4, dst := encDst o.dst, sa := encSrc o.a }

def rdxOf (f : Fields) : Option RdxOp :=
  need (f.md.getLsbD 0 == false && f.sb == 0 && f.sc.getLsbD 3 == false)
    (match redOpOf (f.md.extractLsb' 5 3), rndOf (f.sc.extractLsb' 0 3), dstOf f.dst, srcOf f.sa,
      pOf (f.sc.extractLsb' 4 12) with
    | some op, some r, some d, some a, some p => some ⟨op, tyOf (f.md.extractLsb' 1 4), r, d, a, p⟩
    | _, _, _, _, _ => none)

def encRdx (b : Fields) (o : RdxOp) : Fields :=
  { b with
    md := encRedOp o.op ++ encTy o.ty ++ 0#1, dst := encDst o.dst, sa := encSrc o.a,
    sc := encP o.pm ++ 0#1 ++ encRnd o.rnd }

def scnOf (f : Fields) : Option ScnOp :=
  need (f.md.getLsbD 0 == false && f.sc.getLsbD 3 == false)
    (match redOpOf (f.md.extractLsb' 5 3), rndOf (f.sc.extractLsb' 0 3), dstOf f.dst, srcOf f.sa,
      secondOf f.sb, pOf (f.sc.extractLsb' 4 12) with
    | some op, some r, some d, some a, some t, some p => some ⟨op, tyOf (f.md.extractLsb' 1 4), r, d, a, t, p⟩
    | _, _, _, _, _, _ => none)

def encScn (b : Fields) (o : ScnOp) : Fields :=
  { b with
    md := encRedOp o.op ++ encTy o.ty ++ 0#1, dst := encDst o.dst, sa := encSrc o.a, sb := encSecond o.st,
    sc := encP o.pm ++ 0#1 ++ encRnd o.rnd }

def electOf (f : Fields) : Option ElectOp :=
  need (f.md == 0 && f.sb == 0 && f.sc == 0)
    (match dstP f.dst, secondOf f.sa with
    | some p, some d => some ⟨p, d⟩
    | _, _ => none)

def encElect (b : Fields) (o : ElectOp) : Fields :=
  { b with dst := encDstP o.pd, sa := encSecond o.sd }

/-! ### Groups 0x4 and 0x5 -/

def itestOf (f : Fields) : Option ItestOp :=
  if f.md.getLsbD 3 then
    need (f.sb == 0)
      (match dstOf f.dst, srcOf f.sa with
      | some d, some a => some ⟨tyOf (f.md.extractLsb' 4 4), cmpOf (f.md.extractLsb' 0 3), d, a, .imm f.sc⟩
      | _, _ => none)
  else
    need (f.sc == 0)
      (match dstOf f.dst, srcOf f.sa, srcOf f.sb with
      | some d, some a, some b => some ⟨tyOf (f.md.extractLsb' 4 4), cmpOf (f.md.extractLsb' 0 3), d, a, b⟩
      | _, _, _ => none)

def encItest (b : Fields) (o : ItestOp) : Fields :=
  { b with
    md := encTy o.ty ++ BitVec.ofBool o.b.isImm ++ encCmp o.cmp, dst := encDst o.dst, sa := encSrc o.a,
    sb := encSrc o.b, sc := immOf o.b }

def ftestOf (f : Fields) : Option FtestOp :=
  match itestOf f with
  | some o => need (o.ty == .f32) (some ⟨o.cmp, o.dst, o.a, o.b⟩)
  | none => none

def encFtest (b : Fields) (o : FtestOp) : Fields := encItest b ⟨.f32, o.cmp, o.dst, o.a, o.b⟩

def htest2Of (f : Fields) : Option Htest2Op :=
  need (f.md.getLsbD 3 == false && (f.md.extractLsb' 4 4 == 11#4 || f.md.extractLsb' 4 4 == 12#4) &&
      f.sc.extractLsb' 0 4 == 0#4)
    (match dstOf f.dst, srcOf f.sa, srcOf f.sb,
      (if dstScalar f.dst then cOf (f.sc.extractLsb' 4 12) else pOf (f.sc.extractLsb' 4 12)) with
    | some d, some a, some b, some e => some ⟨f.md.extractLsb' 4 4 == 12#4, cmpOf (f.md.extractLsb' 0 3), d, e, a, b⟩
    | _, _, _, _ => none)

def encHtest2 (b : Fields) (o : Htest2Op) : Fields :=
  { b with
    md := encTy (if o.bf then .bf16 else .f16) ++ 0#1 ++ encCmp o.cmp, dst := encDst o.dst, sa := encSrc o.a,
    sb := encSrc o.b, sc := (if o.dst.scalar then encC o.e else encP o.e) ++ 0#4 }

def pcombOf (f : Fields) : Option CombOp :=
  need (f.md.extractLsb' 2 6 == 0#6 && f.sc == 0)
    (match dstP f.dst, pOf f.sa, pOf f.sb with
    | some d, some x, some y => some ⟨bitOpOf (f.md.extractLsb' 0 2), d, x, y⟩
    | _, _, _ => none)

def encPcomb (b : Fields) (o : CombOp) : Fields :=
  { b with md := 0#6 ++ encBitOp o.op, dst := encDstP o.d, sa := encP o.x, sb := encP o.y }

def ccombOf (f : Fields) : Option CombOp :=
  need (f.md.extractLsb' 2 6 == 0#6 && f.sc == 0)
    (match dstC f.dst, cOf f.sa, cOf f.sb with
    | some d, some x, some y => some ⟨bitOpOf (f.md.extractLsb' 0 2), d, x, y⟩
    | _, _, _ => none)

def encCcomb (b : Fields) (o : CombOp) : Fields :=
  { b with md := 0#6 ++ encBitOp o.op, dst := encDstC o.d, sa := encC o.x, sb := encC o.y }

def csetOf (f : Fields) : Option BitSrcOp :=
  need (f.md == 0 && f.sb == 0 && f.sc == 0)
    (match dstC f.dst, srcOf f.sa with
    | some d, some a => some ⟨d, a⟩
    | _, _ => none)

def encCset (b : Fields) (o : BitSrcOp) : Fields := { b with dst := encDstC o.d, sa := encSrc o.a }

def s2pOf (f : Fields) : Option BitSrcOp :=
  need (f.md == 0 && f.sb == 0 && f.sc == 0)
    (match dstP f.dst, srcOf f.sa with
    | some d, some a => some ⟨d, a⟩
    | _, _ => none)

def encS2p (b : Fields) (o : BitSrcOp) : Fields := { b with dst := encDstP o.d, sa := encSrc o.a }

def p2sOf (f : Fields) : Option P2sOp :=
  need (f.md == 0 && f.sb == 0 && f.sc == 0)
    (match dstS f.dst, pOf f.sa with
    | some d, some p => some ⟨d, p⟩
    | _, _ => none)

def encP2s (b : Fields) (o : P2sOp) : Fields := { b with dst := encDstS o.sd, sa := encP o.px }

/-- The two halves of the long immediate. -/
def encImm28 (b : Fields) (x : BitVec 28) : Fields :=
  { b with sb := x.extractLsb' 16 12, sc := x.extractLsb' 0 16 }

def braOf (f : Fields) : Option BraOp := need (f.md == 0 && f.dst == 0 && f.sa == 0) (some ⟨f.imm28⟩)

/-- BRU with MOD[0] 0 or 1 (R129). -/
def bruOf (c : Ctl) (f : Fields) : Option Instr :=
  need (f.md.extractLsb' 1 7 == 0#7 && f.dst == 0)
    (match pOf f.sa with
    | some p =>
      if f.md.getLsbD 0 then
        need (f.sc == 0) ((srcOf f.sb).map (fun t => .bruRegister c ⟨p, t⟩))
      else some (.bruLabel c ⟨p, f.imm28⟩)
    | none => none)

def encBruLabel (b : Fields) (o : BruLabelOp) : Fields := { encImm28 b o.imm with sa := encP o.px }
def encBruReg (b : Fields) (o : BruRegOp) : Fields := { b with md := 1, sa := encP o.px, sb := encSrc o.t }

def targetOf (f : Fields) : Option TargetOp :=
  need (f.md == 0 && f.dst == 0 && f.sb == 0 && f.sc == 0) ((srcOf f.sa).map (fun t => ⟨t⟩))
def encTarget (b : Fields) (o : TargetOp) : Fields := { b with sa := encSrc o.t }

def callOf (f : Fields) : Option CallOp :=
  need (f.md == 0 && f.sa == 0) ((dstOf f.dst).map (fun d => ⟨d, f.imm28⟩))
def encCall (b : Fields) (o : CallOp) : Fields := { encImm28 b o.imm with dst := encDst o.ret }

def callxOf (f : Fields) : Option CallxOp :=
  need (f.md == 0 && f.sb == 0 && f.sc == 0)
    (match dstOf f.dst, srcOf f.sa with
    | some d, some t => some ⟨d, t⟩
    | _, _ => none)
def encCallx (b : Fields) (o : CallxOp) : Fields := { b with dst := encDst o.ret, sa := encSrc o.t }

/-- NAP with MOD[0] 0 or 1 (R129). -/
def napOf (c : Ctl) (f : Fields) : Option Instr :=
  need (f.md.extractLsb' 1 7 == 0#7 && f.dst == 0 && f.sb == 0)
    (if f.md.getLsbD 0 then need (f.sc == 0) ((srcOf f.sa).map (fun m => .napRegister c ⟨m⟩))
     else need (f.sa == 0) (some (.napImmediate c ⟨f.sc⟩)))

/-! ### Group 0x6 -/

/-- MOD of the memory words (R180): type, scope, bit 0. -/
def md6 (ty : Ty) (s : Scope) (b : Bool) : BitVec 8 := encTy ty ++ encScope s ++ BitVec.ofBool b

def ldOf (f : Fields) : Option LdOp :=
  need (f.md.getLsbD 0 == false && f.sb == 0)
    (match scopeOf (f.md.extractLsb' 1 3), orderOf (f.sc.extractLsb' 0 3), dstOf f.dst, srcOf f.sa with
    | some s, some o, some d, some a =>
      some ⟨tyOf (f.md.extractLsb' 4 4), s, o, f.sc.extractLsb' 3 3, f.sc.extractLsb' 6 10, d, a⟩
    | _, _, _, _ => none)

def encLd (b : Fields) (o : LdOp) : Fields :=
  { b with
    md := md6 o.ty o.sc false, dst := encDst o.dst, sa := encSrc o.addr, sc := o.off ++ o.rc ++ encOrder o.ord }

/-- ST and ST.CB, MOD[0] 0 or 1 (R180). -/
def stOf (c : Ctl) (f : Fields) : Option Instr :=
  need (f.dst == 0)
    (if f.md.getLsbD 0 then
      match scopeOf (f.md.extractLsb' 1 3), srcOf f.sa, srcOf f.sb, srcScOf f.sc with
      | some s, some a, some d, some cb => some (.stCb c ⟨tyOf (f.md.extractLsb' 4 4), s, a, d, cb⟩)
      | _, _, _, _ => none
    else
      match scopeOf (f.md.extractLsb' 1 3), orderOf (f.sc.extractLsb' 0 3), srcOf f.sa, srcOf f.sb with
      | some s, some o, some a, some d =>
        some (.st c ⟨tyOf (f.md.extractLsb' 4 4), s, o, f.sc.extractLsb' 3 3, f.sc.extractLsb' 6 10, a, d⟩)
      | _, _, _, _ => none)

def encSt (b : Fields) (o : StOp) : Fields :=
  { b with
    md := md6 o.ty o.sc false, sa := encSrc o.addr, sb := encSrc o.data, sc := o.off ++ o.rc ++ encOrder o.ord }
def encStCb (b : Fields) (o : StCbOp) : Fields :=
  { b with md := md6 o.ty o.sc true, sa := encSrc o.addr, sb := encSrc o.data, sc := encSrcSc o.cb }

def prfOf (f : Fields) : Option PrfOp :=
  need (f.md.getLsbD 0 == false && f.dst == 0 && f.sb == 0 && f.sc.extractLsb' 0 3 == 0#3)
    (match scopeOf (f.md.extractLsb' 1 3), srcOf f.sa with
    | some s, some a => some ⟨tyOf (f.md.extractLsb' 4 4), s, f.sc.extractLsb' 3 3, f.sc.extractLsb' 6 10, a⟩
    | _, _ => none)

def encPrf (b : Fields) (o : PrfOp) : Fields :=
  { b with md := md6 o.ty o.sc false, sa := encSrc o.addr, sc := o.off ++ o.rc ++ 0#3 }

def maintOf (f : Fields) : Option MaintOp :=
  need (f.md.extractLsb' 4 4 == 0#4 && f.md.getLsbD 0 == false && f.dst == 0 && f.sc == 0)
    (match scopeOf (f.md.extractLsb' 1 3), srcOf f.sa, srcOf f.sb with
    | some s, some a, some l => some ⟨s, a, l⟩
    | _, _, _ => none)

def encMaint (b : Fields) (o : MaintOp) : Fields :=
  { b with md := 0#4 ++ encScope o.sc ++ 0#1, sa := encSrc o.addr, sb := encSrc o.len }

def atomOf (f : Fields) : Option AtomO :=
  need (f.md.getLsbD 0 == false && f.sc.extractLsb' 8 8 == 0#8 && f.sc.getLsbD 3 == false)
    (match atomOpOf (f.sc.extractLsb' 4 4), scopeOf (f.md.extractLsb' 1 3), orderOf (f.sc.extractLsb' 0 3),
      dstOf f.dst, srcOf f.sa, srcOf f.sb with
    | some op, some s, some o, some d, some a, some b => some ⟨op, tyOf (f.md.extractLsb' 4 4), s, o, d, a, b⟩
    | _, _, _, _, _, _ => none)

def encAtom (b : Fields) (o : AtomO) : Fields :=
  { b with
    md := md6 o.ty o.sc false, dst := encDst o.dst, sa := encSrc o.addr, sb := encSrc o.b,
    sc := 0#8 ++ encAtomOp o.op ++ 0#1 ++ encOrder o.ord }

def redOf (f : Fields) : Option RedO :=
  need (f.md.getLsbD 0 == false && f.dst == 0 && f.sc.extractLsb' 8 8 == 0#8 && f.sc.getLsbD 3 == false)
    (match atomOpOf (f.sc.extractLsb' 4 4), scopeOf (f.md.extractLsb' 1 3), orderOf (f.sc.extractLsb' 0 3),
      srcOf f.sa, srcOf f.sb with
    | some op, some s, some o, some a, some b => some ⟨op, tyOf (f.md.extractLsb' 4 4), s, o, a, b⟩
    | _, _, _, _, _ => none)

def encRed (b : Fields) (o : RedO) : Fields :=
  { b with
    md := md6 o.ty o.sc false, sa := encSrc o.addr, sb := encSrc o.b,
    sc := 0#8 ++ encAtomOp o.op ++ 0#1 ++ encOrder o.ord }

/-- R194: the order of CAS lies in MOD[5:4] and SC[27]. -/
def casOf (f : Fields) : Option CasOp :=
  need (f.md.getLsbD 0 == false)
    (match casTyOf (f.md.extractLsb' 6 2), scopeOf (f.md.extractLsb' 1 3),
      orderOf (f.md.extractLsb' 4 2 ++ f.sc.extractLsb' 3 1), dstV f.dst, srcOf f.sa, srcOf f.sb,
      srcOf (f.sc.extractLsb' 4 12) with
    | some t, some s, some o, some d, some a, some c, some n => some ⟨t, s, o, d, a, c, n, f.sc.extractLsb' 0 3⟩
    | _, _, _, _, _, _, _ => none)

def encCas (b : Fields) (o : CasOp) : Fields :=
  { b with
    md := encCasTy o.ct ++ (encOrder o.ord).extractLsb' 1 2 ++ encScope o.sc ++ 0#1, dst := encDstV o.dst,
    sa := encSrc o.addr, sb := encSrc o.cv, sc := encSrc o.nv ++ (encOrder o.ord).extractLsb' 0 1 ++ o.ps }

def fenceOf (f : Fields) : Option FenceOp :=
  need (f.md.extractLsb' 4 4 == 0#4 && f.md.getLsbD 0 == false && f.dst == 0 && f.sa == 0 && f.sb == 0 &&
      f.sc.extractLsb' 3 13 == 0#13)
    (match scopeOf (f.md.extractLsb' 1 3), orderOf (f.sc.extractLsb' 0 3) with
    | some s, some o => some ⟨s, o⟩
    | _, _ => none)

def encFence (b : Fields) (o : FenceOp) : Fields :=
  { b with md := 0#4 ++ encScope o.sc ++ 0#1, sc := 0#13 ++ encOrder o.ord }

/-! ### Group 0x7 -/

/-- MOD of the keyed instructions (R240): KF, BND. -/
def md7 (k : KeyFmt) (bnd : Bool) : BitVec 8 := encKf k ++ BitVec.ofBool bnd ++ 0#4

def tkeyOf (f : Fields) : Option TKeyOp :=
  need (f.md.extractLsb' 0 5 == 0#5 && f.sc == 0)
    (match kfOf (f.md.extractLsb' 5 3), dstOf f.dst, srcOf f.sa, srcOf f.sb with
    | some k, some d, some a, some b => some ⟨k, d, a, b⟩
    | _, _, _, _ => none)

def encTKey (b : Fields) (o : TKeyOp) : Fields :=
  { b with md := md7 o.kf false, dst := encDst o.dst, sa := encSrc o.key, sb := encSrc o.id }

def tseekOf (f : Fields) : Option TSeekOp :=
  need (f.md.extractLsb' 0 4 == 0#4 && f.sc.extractLsb' 0 4 == 0#4)
    (match kfOf (f.md.extractLsb' 5 3), dstOf f.dst, srcOf f.sa, srcOf f.sb, kOf (f.sc.extractLsb' 4 12) with
    | some kf, some d, some a, some b, some k => some ⟨kf, f.md.getLsbD 4, d, a, b, k⟩
    | _, _, _, _, _ => none)

def encTSeek (b : Fields) (o : TSeekOp) : Fields :=
  { b with
    md := md7 o.kf o.bnd, dst := encDst o.dst, sa := encSrc o.key, sb := encSrc o.id, sc := encK o.k ++ 0#4 }

def tstepOf (f : Fields) : Option TStepOp :=
  need (f.md == 0 && f.sa == 0 && f.sb == 0 && f.sc.extractLsb' 0 4 == 0#4)
    (match dstOf f.dst, kOf (f.sc.extractLsb' 4 12) with
    | some d, some k => some ⟨d, k⟩
    | _, _ => none)

def encTStep (b : Fields) (o : TStepOp) : Fields := { b with dst := encDst o.dst, sc := encK o.k ++ 0#4 }

def tcloseOf (f : Fields) : Option TCloseOp :=
  need (f.md == 0 && f.dst == 0 && f.sa == 0 && f.sb == 0 && f.sc.extractLsb' 0 4 == 0#4)
    ((kOf (f.sc.extractLsb' 4 12)).map (fun k => ⟨k⟩))

def encTClose (b : Fields) (o : TCloseOp) : Fields := { b with sc := encK o.k ++ 0#4 }

def trekeyOf (f : Fields) : Option TRekeyOp :=
  need (f.md.extractLsb' 0 5 == 0#5)
    (match kfOf (f.md.extractLsb' 5 3), dstOf f.dst, srcOf f.sa, srcOf f.sb, srcScOf f.sc with
    | some k, some d, some a, some b, some n => some ⟨k, d, a, b, n⟩
    | _, _, _, _, _ => none)

def encTRekey (b : Fields) (o : TRekeyOp) : Fields :=
  { b with
    md := md7 o.kf false, dst := encDst o.dst, sa := encSrc o.key, sb := encSrc o.id, sc := encSrcSc o.new }

def taddOf (f : Fields) : Option TAddOp :=
  need (f.md.extractLsb' 0 7 == 0#7 && f.dst == 0 && f.sc.extractLsb' 0 6 == 0#6)
    (match srcOf f.sa, srcOf f.sb with
    | some a, some b => some ⟨f.md.getLsbD 7, a, b, f.sc.extractLsb' 6 10⟩
    | _, _ => none)

def encTAdd (b : Fields) (o : TAddOp) : Fields :=
  { b with md := BitVec.ofBool o.q ++ 0#7, sa := encSrc o.addr, sb := encSrc o.val, sc := o.off ++ 0#6 }

def tidOf (f : Fields) : Option TIdOp :=
  need (f.md == 0 && f.sa == 0 && f.sc == 0)
    (match dstOf f.dst, srcOf f.sb with
    | some d, some b => some ⟨d, b⟩
    | _, _ => none)

def encTId (b : Fields) (o : TIdOp) : Fields := { b with dst := encDst o.dst, sb := encSrc o.id }

def tunpinOf (f : Fields) : Option TUnpinOp :=
  need (f.md == 0 && f.sc == 0)
    (match dstOf f.dst, srcOf f.sa, srcOf f.sb with
    | some d, some v, some b => some ⟨d, v, b⟩
    | _, _, _ => none)

def encTUnpin (b : Fields) (o : TUnpinOp) : Fields :=
  { b with dst := encDst o.dst, sa := encSrc o.ver, sb := encSrc o.id }

def tswapOf (f : Fields) : Option TSwapOp :=
  need (f.md == 0)
    (match dstOf f.dst, srcOf f.sa, srcOf f.sb, srcScOf f.sc with
    | some d, some e, some b, some s => some ⟨d, e, b, s⟩
    | _, _, _, _ => none)

def encTSwap (b : Fields) (o : TSwapOp) : Fields :=
  { b with dst := encDst o.dst, sa := encSrc o.e, sb := encSrc o.id, sc := encSrcSc o.st }

def trowOf (f : Fields) : Option TRowOp :=
  need (f.md.extractLsb' 0 5 == 0#5 && f.sc == 0)
    (match kfOf (f.md.extractLsb' 5 3), dstOf f.dst, srcOf f.sa, srcOf f.sb with
    | some k, some d, some a, some b => some ⟨k, d, a, b⟩
    | _, _, _, _ => none)

def encTRow (b : Fields) (o : TRowOp) : Fields :=
  { b with md := md7 o.kf false, dst := encDst o.dst, sa := encSrc o.n, sb := encSrc o.id }

/-! ### Groups 0x8 and 0x9 -/

def pushOf (f : Fields) : Option PushOp :=
  need (f.md.extractLsb' 3 5 == 0#5 && f.sb == 0 && f.sc == 0)
    (match dstC f.dst, sOf f.sa with
    | some d, some s => some ⟨f.md.extractLsb' 0 3, d, s⟩
    | _, _ => none)

def encPush (b : Fields) (o : PushOp) : Fields :=
  { b with md := 0#5 ++ o.q, dst := encDstC o.cd, sa := encS o.sb }

/-- Words with one operand in SA, all else 0. -/
def maskOf (f : Fields) : Option MaskOp :=
  need (f.md == 0 && f.dst == 0 && f.sb == 0 && f.sc == 0) ((srcOf f.sa).map (fun m => ⟨m⟩))

def encMask (b : Fields) (o : MaskOp) : Fields := { b with sa := encSrc o.m }

def ffrOf (f : Fields) : Option FfrOp :=
  need (f.md == 0 && f.sb == 0 && f.sc == 0)
    (match dstS f.dst, srcOf f.sa with
    | some d, some m => some ⟨d, m⟩
    | _, _ => none)

def encFfr (b : Fields) (o : FfrOp) : Fields := { b with dst := encDstS o.sd, sa := encSrc o.m }

/-- LEASE with MOD[0] 0 or 1 (R310). -/
def leaseOf (c : Ctl) (f : Fields) : Option Instr :=
  need (f.md.extractLsb' 1 7 == 0#7 && f.dst == 0 && f.sb == 0)
    (if f.md.getLsbD 0 then need (f.sa == 0) (some (.leaseImmediate c ⟨f.sc⟩))
     else need (f.sc == 0) ((srcOf f.sa).map (fun m => .leaseRegister c ⟨m⟩)))

def allZero (f : Fields) : Bool := f.md == 0 && f.dst == 0 && f.sa == 0 && f.sb == 0 && f.sc == 0

def barxOf (f : Fields) : Option BarxOp :=
  need (f.md.getLsbD 0 == false && f.sc == 0)
    (match redOpOf (f.md.extractLsb' 5 3), dstOf f.dst, srcOf f.sa, srcOf f.sb with
    | some op, some d, some a, some n => some ⟨op, tyOf (f.md.extractLsb' 1 4), d, a, n⟩
    | _, _, _, _ => none)

def encBarx (b : Fields) (o : BarxOp) : Fields :=
  { b with
    md := encRedOp o.op ++ encTy o.ty ++ 0#1, dst := encDst o.dst, sa := encSrc o.a, sb := encSrc o.n }

def cbarmOf (f : Fields) : Option CbarmOp :=
  need (f.md == 0 && f.dst == 0 && f.sc == 0)
    (match sOf f.sa, srcOf f.sb with
    | some a, some t => some ⟨a, t⟩
    | _, _ => none)

def encCbarm (b : Fields) (o : CbarmOp) : Fields := { b with sa := encS o.a, sb := encSrc o.t }

def cbwaitOf (f : Fields) : Option CbwaitOp :=
  need (f.md == 0 && f.sc == 0)
    (match dstC f.dst, sOf f.sa, srcOf f.sb with
    | some d, some a, some n => some ⟨d, a, n⟩
    | _, _, _ => none)

def encCbwait (b : Fields) (o : CbwaitOp) : Fields := { b with dst := encDstC o.cd, sa := encS o.a, sb := encSrc o.n }

def regrpOf (f : Fields) : Option RegrpOp :=
  need (f.md.extractLsb' 1 7 == 0#7 && f.sc.extractLsb' 11 5 == 0#5)
    (match dstV f.dst, vOf f.sa, sOf f.sb with
    | some vl, some vk, some sl => some ⟨f.md.getLsbD 0, vk, vl, sl, f.sc.extractLsb' 0 6, f.sc.extractLsb' 6 5⟩
    | _, _, _ => none)

def encRegrp (b : Fields) (o : RegrpOp) : Fields :=
  { b with
    md := 0#7 ++ BitVec.ofBool o.core, dst := encDstV o.vl, sa := encV o.vk, sb := encS o.sl, sc := 0#5 ++ o.m ++ o.n }

def regrpbOf (f : Fields) : Option RegrpbOp :=
  need (f.md == 0 && f.sa == 0 && f.sc.extractLsb' 11 5 == 0#5)
    (match dstV f.dst, sOf f.sb with
    | some vl, some sl => some ⟨vl, sl, f.sc.extractLsb' 0 6, f.sc.extractLsb' 6 5⟩
    | _, _ => none)

def encRegrpb (b : Fields) (o : RegrpbOp) : Fields :=
  { b with dst := encDstV o.vl, sb := encS o.sl, sc := 0#5 ++ o.m ++ o.n }

/-! ### Group 0xA -/

/-- PMODE.CACHE and PMODE.PRESS (R342). -/
def pmodeOf (c : Ctl) (f : Fields) : Option Instr :=
  need (f.md.extractLsb' 1 7 == 0#7 && f.dst == 0 && f.sb == 0 && f.sc.extractLsb' 6 10 == 0#10)
    (match srcOf f.sa with
    | some m =>
      some (if f.md.getLsbD 0 then .pmodePress c ⟨m, f.sc.extractLsb' 0 6⟩ else .pmodeCache c ⟨m, f.sc.extractLsb' 0 6⟩)
    | none => none)

def encPmode (b : Fields) (o : PmodeOp) (press : Bool) : Fields :=
  { b with md := 0#7 ++ BitVec.ofBool press, sa := encSrc o.m, sc := 0#10 ++ o.t }

def pxferOf (f : Fields) : Option PxferOp :=
  need (f.md == 0 && f.sc == 0)
    (match dstS f.dst, sOf f.sa, sOf f.sb with
    | some d, some a, some n => some ⟨d, a, n⟩
    | _, _, _ => none)

def encPxfer (b : Fields) (o : PxferOp) : Fields := { b with dst := encDstS o.d, sa := encS o.a, sb := encS o.n }

/-- MOD of group 0xA: SGN, K, CMP. -/
def mdA (sgn k : Bool) (cmp : BitVec 3) : BitVec 8 := BitVec.ofBool sgn ++ BitVec.ofBool k ++ 0#3 ++ cmp

def press2Of (f : Fields) : Option Press2 :=
  need (f.md.extractLsb' 0 6 == 0#6 && f.sc == 0)
    (match dstS f.dst, sOf f.sa, srcOf f.sb with
    | some d, some a, some b => some ⟨f.md.getLsbD 7, f.md.getLsbD 6, d, a, b⟩
    | _, _, _ => none)

def encPress2 (b : Fields) (o : Press2) : Fields :=
  { b with md := mdA o.sgn o.k 0, dst := encDstS o.d, sa := encS o.a, sb := encSrc o.b }

def press1Of (f : Fields) : Option Press1 :=
  need (f.md == 0 && f.sb == 0 && f.sc == 0)
    (match dstS f.dst, sOf f.sa with
    | some d, some a => some ⟨d, a⟩
    | _, _ => none)

def encPress1 (b : Fields) (o : Press1) : Fields := { b with dst := encDstS o.d, sa := encS o.a }

def pcmpOf (f : Fields) : Option PcmpOp :=
  need (f.md.extractLsb' 3 3 == 0#3 && f.sc == 0)
    (match dstS f.dst, sOf f.sa, srcOf f.sb with
    | some d, some a, some b => some ⟨cmpOf (f.md.extractLsb' 0 3), f.md.getLsbD 7, f.md.getLsbD 6, d, a, b⟩
    | _, _, _ => none)

def encPcmp (b : Fields) (o : PcmpOp) : Fields :=
  { b with md := mdA o.sgn o.k (encCmp o.cmp), dst := encDstS o.d, sa := encS o.a, sb := encSrc o.b }

def pselOf (f : Fields) : Option PselOp :=
  need (f.md == 0 && f.sc.extractLsb' 0 4 == 0#4)
    (match dstS f.dst, sOf f.sa, sOf f.sb, sOf (f.sc.extractLsb' 4 12) with
    | some d, some a, some b, some m => some ⟨d, a, b, m⟩
    | _, _, _, _ => none)

def encPsel (b : Fields) (o : PselOp) : Fields :=
  { b with dst := encDstS o.d, sa := encS o.a, sb := encS o.b, sc := encS o.m ++ 0#4 }

def psatOf (f : Fields) : Option PsatOp :=
  need (f.md.extractLsb' 0 7 == 0#7)
    (match dstS f.dst, sOf f.sa, srcOf f.sb, srcScOf f.sc with
    | some d, some a, some l, some h => some ⟨f.md.getLsbD 7, d, a, l, h⟩
    | _, _, _, _ => none)

def encPsat (b : Fields) (o : PsatOp) : Fields :=
  { b with md := mdA o.sgn false 0, dst := encDstS o.d, sa := encS o.a, sb := encSrc o.lo, sc := encSrcSc o.hi }

def pshiftOf (f : Fields) : Option PshiftOp :=
  need (f.md.extractLsb' 0 7 == 0#7 && f.sc == 0)
    (match dstS f.dst, sOf f.sa, srcOf f.sb with
    | some d, some a, some n => some ⟨f.md.getLsbD 7, d, a, n⟩
    | _, _, _ => none)

def encPshift (b : Fields) (o : PshiftOp) : Fields :=
  { b with md := mdA o.sgn false 0, dst := encDstS o.d, sa := encS o.a, sb := encSrc o.n }

/-! ### Group 0xB -/

def imm16Of (f : Fields) : Option Imm16Op := need (f.md == 0 && f.dst == 0 && f.sa == 0 && f.sb == 0) (some ⟨f.sc⟩)
def encImm16 (b : Fields) (o : Imm16Op) : Fields := { b with sc := o.n }

def movsOf (f : Fields) : Option MovsOp :=
  need (f.md == 0 && f.sb == 0 && f.sc == 0 && f.sa.extractLsb' 10 2 == 2#2 && f.sa.extractLsb' 0 2 == 0#2)
    ((dstOf f.dst).map (fun d => ⟨d, f.sa.extractLsb' 2 8⟩))
def encMovs (b : Fields) (o : MovsOp) : Fields := { b with dst := encDst o.dst, sa := 2#2 ++ o.r ++ 0#2 }

def movwOf (f : Fields) : Option MovwOp :=
  need (f.md == 0 && f.dst == 0x23B#10 && f.sb == 0 && f.sc == 0) ((srcOf f.sa).map (fun a => ⟨a⟩))
def encMovw (b : Fields) (o : MovwOp) : Fields := { b with dst := 0x23B#10, sa := encSrc o.a }

def stopchkOf (f : Fields) : Option StopchkOp :=
  need (f.md == 0 && f.sa == 0 && f.sb == 0 && f.sc == 0) ((dstC f.dst).map (fun d => ⟨d⟩))
def encStopchk (b : Fields) (o : StopchkOp) : Fields := { b with dst := encDstC o.cd }

def markOf (f : Fields) : Option MarkOp :=
  need (f.md == 0 && f.dst == 0 && f.sb == 0) ((srcOf f.sa).map (fun a => ⟨f.sc, a⟩))
def encMark (b : Fields) (o : MarkOp) : Fields := { b with sa := encSrc o.a, sc := o.n }

/-- ILLEG keeps every field it does not read (R294). -/
def illegOf (f : Fields) : BitVec 58 := f.md ++ f.dst ++ f.sa ++ f.sb ++ f.sc
def encIlleg (b : Fields) (x : BitVec 58) : Fields :=
  { b with
    md := x.extractLsb' 50 8, dst := x.extractLsb' 40 10, sa := x.extractLsb' 28 12, sb := x.extractLsb' 16 12,
    sc := x.extractLsb' 0 16 }

/-! ### The opcode table (R101) -/

/-- The Guard column of R101. -/
inductive GuardKind where
  | lane | uni | byDst
  deriving DecidableEq, Repr

/-- One assigned opcode: its number, its guard kind, and how its fields are read. -/
structure Row where
  opc : Nat
  guard : GuardKind
  parse : Ctl → Fields → Option Instr

/-- A row whose operand structure is read by `g`. -/
def row {α : Type} (opc : Nat) (k : GuardKind) (g : Fields → Option α) (mk : Ctl → α → Instr) : Row :=
  ⟨opc, k, fun c f => (g f).map (mk c)⟩

/-- A row without operands. -/
def row0 (opc : Nat) (k : GuardKind) (mk : Ctl → Instr) : Row :=
  ⟨opc, k, fun c f => need (allZero f) (some (mk c))⟩

def rows0 : List Row :=
  [row0 0x000 .lane .nop, ⟨0x001, .byDst, movOf⟩, row 0x002 .byDst moviOf .movi,
   row 0x003 .byDst int2Of .iadd, row 0x004 .byDst int2Of .isub, row 0x005 .byDst int2Of .imul,
   row 0x006 .byDst int2Of .imulh, row 0x007 .byDst int3Of .imad, row 0x008 .byDst int3Of .imadw,
   row 0x009 .byDst int2Of .imin, row 0x00A .byDst int2Of .imax, row 0x00B .byDst int1Of .iabs,
   row 0x00C .byDst int2Of .iand, row 0x00D .byDst int2Of .ior, row 0x00E .byDst int2Of .ixor,
   row 0x00F .byDst int1Of .inot, row 0x010 .byDst int2Of .shl, row 0x011 .byDst int2Of .shr,
   row 0x012 .byDst int2Of .sar, row 0x013 .byDst int2Of .rol, row 0x014 .byDst int2Of .bfe,
   row 0x015 .byDst int3Of .bfi, row 0x016 .byDst int1Of .popc, row 0x017 .byDst int1Of .clz,
   row 0x018 .byDst int1Of .brev, row 0x019 .byDst selOf .sel, row 0x01A .byDst leaOf .lea,
   row 0x01B .byDst int3Of .bpick]

def rows1 : List Row :=
  [row 0x040 .lane f2Of .fadd, row 0x041 .lane f2Of .fsub, row 0x042 .lane f2Of .fmul, row 0x043 .lane f3Of .ffma,
   row 0x044 .lane f2Of .fmin, row 0x045 .lane f2Of .fmax, row 0x046 .lane f3Of .fclamp, row 0x047 .lane f2Of .fscale,
   row 0x050 .lane h2Of .hadd2, row 0x051 .lane h2Of .hsub2, row 0x052 .lane h2Of .hmul2, row 0x053 .lane h3Of .hfma2,
   row 0x054 .lane h2Of .hmin2, row 0x055 .lane h2Of .hmax2, row 0x056 .lane h3Of .hdot2]

def rows2 : List Row :=
  [row 0x080 .lane cvtOf .cvt, row 0x082 .lane frndOpOf .frnd, row 0x090 .lane sfuOf .rcp, row 0x091 .lane sfuOf .rsq,
   row 0x092 .lane sfuOf .sqrt, row 0x093 .lane sfuOf .ex2, row 0x094 .lane sfuOf .lg2, row 0x095 .lane sfuOf .sin,
   row 0x096 .lane sfuOf .cos, row 0x097 .lane sfuOf .sincos, row 0x098 .lane sfuOf .tanh, row 0x099 .lane sfuOf .sigm,
   row 0x0A0 .lane randOf .rand, row 0x0A1 .lane csampOf .csamp]

def rows3 : List Row :=
  [row 0x0C0 .lane shflOpOf .shfl, row 0x0C1 .lane pswapOf .pswap, row 0x0C2 .lane qswapOpOf .qswap,
   row 0x0C3 .lane qbcastOf .qbcast, row 0x0C4 .lane voteOpOf .vote, row 0x0C5 .lane matchOf .matchLanes,
   row 0x0C6 .lane rdxOf .rdx, row 0x0C7 .lane scnOf .scn, row 0x0C8 .lane electOf .elect]

def rows4 : List Row :=
  [row 0x100 .byDst itestOf .itest, row 0x101 .byDst ftestOf .ftest, row 0x102 .byDst htest2Of .htest2,
   row 0x103 .lane pcombOf .pcomb, row 0x104 .uni csetOf .cset, row 0x105 .uni ccombOf .ccomb,
   row 0x106 .uni p2sOf .p2s, row 0x107 .lane s2pOf .s2p]

def rows5 : List Row :=
  [row 0x140 .lane braOf .bra, ⟨0x141, .uni, bruOf⟩, row 0x142 .lane targetOf .brx, row 0x143 .lane callOf .call,
   row 0x144 .lane callxOf .callx, row 0x145 .lane targetOf .ret, row0 0x146 .lane .exit, ⟨0x147, .uni, napOf⟩]

def rows6 : List Row :=
  [row 0x180 .lane ldOf .ld, ⟨0x181, .lane, stOf⟩, row 0x182 .lane prfOf .prf, row 0x183 .lane maintOf .clean,
   row 0x184 .lane maintOf .inval, row 0x185 .lane maintOf .clinv, row 0x186 .lane maintOf .drop,
   row 0x190 .lane atomOf .atom, row 0x191 .lane redOf .red, row 0x192 .lane casOf .cas,
   row 0x1A0 .lane fenceOf .fence, row0 0x1A1 .lane .opfence]

def rows7 : List Row :=
  [row 0x1C0 .lane tkeyOf .tlook, row 0x1C1 .lane tseekOf .tseek, row 0x1C2 .lane tstepOf .tnext,
   row 0x1C3 .lane tstepOf .tprev, row 0x1C4 .lane tcloseOf .tclose, row 0x1C5 .lane tkeyOf .tins,
   row 0x1C6 .lane tkeyOf .tdel, row 0x1C7 .lane trekeyOf .trekey, row 0x1C8 .lane taddOf .tadd,
   row 0x1C9 .lane tidOf .tpin, row 0x1CA .lane tunpinOf .tunpin, row 0x1CB .lane tswapOf .tswap,
   row 0x1CC .lane tidOf .tstat, row 0x1CD .lane tidOf .tcount, row 0x1CE .lane trowOf .trow]

def rows8 : List Row :=
  [row 0x200 .uni pushOf .push, row 0x201 .uni maskOf .waitany, row 0x202 .uni maskOf .waitall,
   row 0x203 .uni ffrOf .ffr, row 0x204 .uni maskOf .tagclr, ⟨0x205, .uni, leaseOf⟩, row0 0x206 .uni .unlease,
   row 0x207 .uni maskOf .tagset]

def rows9 : List Row :=
  [row 0x240 .lane maskOf .bar, row 0x241 .lane barxOf .barx, row 0x242 .lane maskOf .syncm,
   row 0x243 .uni cbarmOf .cbarm, row 0x244 .uni cbwaitOf .cbwait, row 0x245 .uni regrpOf .regrp,
   row 0x246 .uni regrpbOf .regrpb]

def rowsA : List Row :=
  [⟨0x280, .uni, pmodeOf⟩, row 0x281 .uni pxferOf .pxin, row 0x282 .uni pxferOf .pxout, row 0x283 .uni press2Of .padd,
   row 0x284 .uni press2Of .psub, row 0x285 .uni press2Of .pmul, row 0x286 .uni press2Of .pand,
   row 0x287 .uni press2Of .por, row 0x288 .uni press2Of .pxor, row 0x289 .uni press1Of .pnot,
   row 0x28A .uni pcmpOf .pcmp, row 0x28B .uni pselOf .psel, row 0x28C .uni psatOf .psat,
   row 0x28D .uni press1Of .pcnt, row 0x28E .uni pshiftOf .pshl, row 0x28F .uni pshiftOf .pshr,
   row 0x290 .uni maskOf .psync]

def rowsB : List Row :=
  [row 0x2C0 .lane imm16Of .trap, row0 0x2C1 .uni .eret, row 0x2C2 .byDst movsOf .movs, row 0x2C3 .uni movwOf .movw,
   row 0x2C4 .lane imm16Of .bkpt, ⟨0x2C5, .lane, fun c f => some (.illeg c (illegOf f))⟩,
   row 0x2C6 .uni stopchkOf .stopchk, row 0x2C7 .uni markOf .mark]

/-- The rows of one opcode group (R80, R101); groups 0xC to 0xF have none. -/
def groupRows (g : Nat) : List Row :=
  match g with
  | 0 => rows0 | 1 => rows1 | 2 => rows2 | 3 => rows3 | 4 => rows4 | 5 => rows5 | 6 => rows6 | 7 => rows7
  | 8 => rows8 | 9 => rows9 | 10 => rowsA | 11 => rowsB | _ => []

/-- The row of an opcode, none where R101 lists none. -/
def rowOf (opc : Nat) : Option Row := (groupRows (opc / 64)).find? (fun r => r.opc == opc)

/-! ### Decoding -/

/-- R100: the two decoding faults. -/
inductive RejectCode where
  | illegalOpcode
  | illegalOperand
  deriving DecidableEq, Repr

/-- A word the decoder refuses: why, and the guard and scheduling field that still act (R42, R81). -/
structure Reject where
  code : RejectCode
  ctl : Ctl
  uniform : Bool
  deriving DecidableEq, Repr

/-- R81, R82: the guard kind of a word. -/
def uniformWord (k : GuardKind) (f : Fields) : Bool :=
  match k with
  | .lane => false
  | .uni => true
  | .byDst => dstScalar f.dst

/-- R100 steps 1 and 2, over fields. -/
def decodeFields (f : Fields) : Except Reject Instr :=
  match rowOf f.opc.toNat with
  | none => .error ⟨.illegalOpcode, f.ctl, false⟩
  | some r =>
    match r.parse f.ctl f with
    | none => .error ⟨.illegalOperand, f.ctl, uniformWord r.guard f⟩
    | some i => if i.wellFormed then .ok i else .error ⟨.illegalOperand, f.ctl, uniformWord r.guard f⟩

/-- The decoder: total, and refusing by name. -/
def decode (w : InstrWord) : Except Reject Instr := decodeFields (fieldsOf w)

/-! ### Encoding -/

/-- The fields of an instruction word; none for the steps that are no words. -/
def encodeFields : Instr → Option Fields
  | .nop c => some (base 0x000 c)
  | .mov c o => some (encMov (base 0x001 c) o)
  | .movQueuePop c o => some (encQPop (base 0x001 c) o)
  | .movQueuePush c o => some (encQPush (base 0x001 c) o)
  | .movi c o => some (encMovi (base 0x002 c) o)
  | .iadd c o => some (encInt2 (base 0x003 c) o)
  | .isub c o => some (encInt2 (base 0x004 c) o)
  | .imul c o => some (encInt2 (base 0x005 c) o)
  | .imulh c o => some (encInt2 (base 0x006 c) o)
  | .imad c o => some (encInt3 (base 0x007 c) o)
  | .imadw c o => some (encInt3 (base 0x008 c) o)
  | .imin c o => some (encInt2 (base 0x009 c) o)
  | .imax c o => some (encInt2 (base 0x00A c) o)
  | .iabs c o => some (encInt1 (base 0x00B c) o)
  | .iand c o => some (encInt2 (base 0x00C c) o)
  | .ior c o => some (encInt2 (base 0x00D c) o)
  | .ixor c o => some (encInt2 (base 0x00E c) o)
  | .inot c o => some (encInt1 (base 0x00F c) o)
  | .shl c o => some (encInt2 (base 0x010 c) o)
  | .shr c o => some (encInt2 (base 0x011 c) o)
  | .sar c o => some (encInt2 (base 0x012 c) o)
  | .rol c o => some (encInt2 (base 0x013 c) o)
  | .bfe c o => some (encInt2 (base 0x014 c) o)
  | .bfi c o => some (encInt3 (base 0x015 c) o)
  | .popc c o => some (encInt1 (base 0x016 c) o)
  | .clz c o => some (encInt1 (base 0x017 c) o)
  | .brev c o => some (encInt1 (base 0x018 c) o)
  | .sel c o => some (encSel (base 0x019 c) o)
  | .lea c o => some (encLea (base 0x01A c) o)
  | .bpick c o => some (encInt3 (base 0x01B c) o)
  | .fadd c o => some (encF2 (base 0x040 c) o)
  | .fsub c o => some (encF2 (base 0x041 c) o)
  | .fmul c o => some (encF2 (base 0x042 c) o)
  | .ffma c o => some (encF3 (base 0x043 c) o)
  | .fmin c o => some (encF2 (base 0x044 c) o)
  | .fmax c o => some (encF2 (base 0x045 c) o)
  | .fclamp c o => some (encF3 (base 0x046 c) o)
  | .fscale c o => some (encF2 (base 0x047 c) o)
  | .hadd2 c o => some (encH2 (base 0x050 c) o)
  | .hsub2 c o => some (encH2 (base 0x051 c) o)
  | .hmul2 c o => some (encH2 (base 0x052 c) o)
  | .hfma2 c o => some (encH3 (base 0x053 c) o)
  | .hmin2 c o => some (encH2 (base 0x054 c) o)
  | .hmax2 c o => some (encH2 (base 0x055 c) o)
  | .hdot2 c o => some (encH3 (base 0x056 c) o)
  | .cvt c o => some (encCvt (base 0x080 c) o)
  | .frnd c o => some (encFrndOp (base 0x082 c) o)
  | .rcp c o => some (encSfu (base 0x090 c) o)
  | .rsq c o => some (encSfu (base 0x091 c) o)
  | .sqrt c o => some (encSfu (base 0x092 c) o)
  | .ex2 c o => some (encSfu (base 0x093 c) o)
  | .lg2 c o => some (encSfu (base 0x094 c) o)
  | .sin c o => some (encSfu (base 0x095 c) o)
  | .cos c o => some (encSfu (base 0x096 c) o)
  | .sincos c o => some (encSfu (base 0x097 c) o)
  | .tanh c o => some (encSfu (base 0x098 c) o)
  | .sigm c o => some (encSfu (base 0x099 c) o)
  | .rand c o => some (encRand (base 0x0A0 c) o)
  | .csamp c o => some (encCsamp (base 0x0A1 c) o)
  | .shfl c o => some (encShflOp (base 0x0C0 c) o)
  | .pswap c o => some (encPswap (base 0x0C1 c) o)
  | .qswap c o => some (encQswapOp (base 0x0C2 c) o)
  | .qbcast c o => some (encQbcast (base 0x0C3 c) o)
  | .vote c o => some (encVoteOp (base 0x0C4 c) o)
  | .matchLanes c o => some (encMatch (base 0x0C5 c) o)
  | .rdx c o => some (encRdx (base 0x0C6 c) o)
  | .scn c o => some (encScn (base 0x0C7 c) o)
  | .elect c o => some (encElect (base 0x0C8 c) o)
  | .itest c o => some (encItest (base 0x100 c) o)
  | .ftest c o => some (encFtest (base 0x101 c) o)
  | .htest2 c o => some (encHtest2 (base 0x102 c) o)
  | .pcomb c o => some (encPcomb (base 0x103 c) o)
  | .cset c o => some (encCset (base 0x104 c) o)
  | .ccomb c o => some (encCcomb (base 0x105 c) o)
  | .p2s c o => some (encP2s (base 0x106 c) o)
  | .s2p c o => some (encS2p (base 0x107 c) o)
  | .bra c o => some (encImm28 (base 0x140 c) o.imm)
  | .bruLabel c o => some (encBruLabel (base 0x141 c) o)
  | .bruRegister c o => some (encBruReg (base 0x141 c) o)
  | .brx c o => some (encTarget (base 0x142 c) o)
  | .call c o => some (encCall (base 0x143 c) o)
  | .callx c o => some (encCallx (base 0x144 c) o)
  | .ret c o => some (encTarget (base 0x145 c) o)
  | .exit c => some (base 0x146 c)
  | .napImmediate c o => some (encImm16 (base 0x147 c) o)
  | .napRegister c o => some { encMask (base 0x147 c) o with md := 1 }
  | .ld c o => some (encLd (base 0x180 c) o)
  | .st c o => some (encSt (base 0x181 c) o)
  | .stCb c o => some (encStCb (base 0x181 c) o)
  | .prf c o => some (encPrf (base 0x182 c) o)
  | .clean c o => some (encMaint (base 0x183 c) o)
  | .inval c o => some (encMaint (base 0x184 c) o)
  | .clinv c o => some (encMaint (base 0x185 c) o)
  | .drop c o => some (encMaint (base 0x186 c) o)
  | .atom c o => some (encAtom (base 0x190 c) o)
  | .red c o => some (encRed (base 0x191 c) o)
  | .cas c o => some (encCas (base 0x192 c) o)
  | .fence c o => some (encFence (base 0x1A0 c) o)
  | .opfence c => some (base 0x1A1 c)
  | .tlook c o => some (encTKey (base 0x1C0 c) o)
  | .tseek c o => some (encTSeek (base 0x1C1 c) o)
  | .tnext c o => some (encTStep (base 0x1C2 c) o)
  | .tprev c o => some (encTStep (base 0x1C3 c) o)
  | .tclose c o => some (encTClose (base 0x1C4 c) o)
  | .tins c o => some (encTKey (base 0x1C5 c) o)
  | .tdel c o => some (encTKey (base 0x1C6 c) o)
  | .trekey c o => some (encTRekey (base 0x1C7 c) o)
  | .tadd c o => some (encTAdd (base 0x1C8 c) o)
  | .tpin c o => some (encTId (base 0x1C9 c) o)
  | .tunpin c o => some (encTUnpin (base 0x1CA c) o)
  | .tswap c o => some (encTSwap (base 0x1CB c) o)
  | .tstat c o => some (encTId (base 0x1CC c) o)
  | .tcount c o => some (encTId (base 0x1CD c) o)
  | .trow c o => some (encTRow (base 0x1CE c) o)
  | .push c o => some (encPush (base 0x200 c) o)
  | .waitany c o => some (encMask (base 0x201 c) o)
  | .waitall c o => some (encMask (base 0x202 c) o)
  | .ffr c o => some (encFfr (base 0x203 c) o)
  | .tagclr c o => some (encMask (base 0x204 c) o)
  | .leaseRegister c o => some (encMask (base 0x205 c) o)
  | .leaseImmediate c o => some { encImm16 (base 0x205 c) o with md := 1 }
  | .unlease c => some (base 0x206 c)
  | .tagset c o => some (encMask (base 0x207 c) o)
  | .bar c o => some (encMask (base 0x240 c) o)
  | .barx c o => some (encBarx (base 0x241 c) o)
  | .syncm c o => some (encMask (base 0x242 c) o)
  | .cbarm c o => some (encCbarm (base 0x243 c) o)
  | .cbwait c o => some (encCbwait (base 0x244 c) o)
  | .regrp c o => some (encRegrp (base 0x245 c) o)
  | .regrpb c o => some (encRegrpb (base 0x246 c) o)
  | .pmodePress c o => some (encPmode (base 0x280 c) o true)
  | .pmodeCache c o => some (encPmode (base 0x280 c) o false)
  | .pxin c o => some (encPxfer (base 0x281 c) o)
  | .pxout c o => some (encPxfer (base 0x282 c) o)
  | .padd c o => some (encPress2 (base 0x283 c) o)
  | .psub c o => some (encPress2 (base 0x284 c) o)
  | .pmul c o => some (encPress2 (base 0x285 c) o)
  | .pand c o => some (encPress2 (base 0x286 c) o)
  | .por c o => some (encPress2 (base 0x287 c) o)
  | .pxor c o => some (encPress2 (base 0x288 c) o)
  | .pnot c o => some (encPress1 (base 0x289 c) o)
  | .pcmp c o => some (encPcmp (base 0x28A c) o)
  | .psel c o => some (encPsel (base 0x28B c) o)
  | .psat c o => some (encPsat (base 0x28C c) o)
  | .pcnt c o => some (encPress1 (base 0x28D c) o)
  | .pshl c o => some (encPshift (base 0x28E c) o)
  | .pshr c o => some (encPshift (base 0x28F c) o)
  | .psync c o => some (encMask (base 0x290 c) o)
  | .trap c o => some (encImm16 (base 0x2C0 c) o)
  | .eret c => some (base 0x2C1 c)
  | .movs c o => some (encMovs (base 0x2C2 c) o)
  | .movw c o => some (encMovw (base 0x2C3 c) o)
  | .bkpt c o => some (encImm16 (base 0x2C4 c) o)
  | .illeg c x => some (encIlleg (base 0x2C5 c) x)
  | .stopchk c o => some (encStopchk (base 0x2C6 c) o)
  | .mark c o => some (encMark (base 0x2C7 c) o)
  | _ => none

/-- The word of a well-formed instruction (R80). -/
def encode (i : Instr) : Option InstrWord := (encodeFields i).map wordOf

/-! ### Words in memory -/

/-- R80: the 12 bytes of a word, least significant byte first. -/
def wordBytes (w : InstrWord) : List Byte := (List.range 12).map (fun k => w.extractLsb' (8 * k) 8)

/-- The word of 12 bytes, least significant byte first. -/
def bytesWord (b : List Byte) : InstrWord :=
  (List.range 12).foldl (fun acc k => acc ||| ((b.getD k 0).zeroExtend 96 <<< (8 * k))) 0

/-- The instruction the decoder reads from a table row's bits, bit 0 the least significant bit of the first byte;
bits above `nbits` are 0. -/
def decodeTableWord (nbits w : Nat) : Option Instr :=
  match decode (BitVec.ofNat 96 (w % 2 ^ nbits)) with
  | .ok i => some i
  | .error _ => none

end Sys2Proof
end

