-- ==== Sys2Proof/Machine/Launching.lean ====
section
/-! DEFINITION. Launch packets and queues (R267 to R272), the start of warps and teams (R28, R38), placement (R27, R273, R279, R306),
retirement (R43 to R45) and the end of grids (R46). -/

namespace Sys2Proof.Machine

/-! ### Packets (R268 to R270) -/

def QPkt.f (p : QPkt) (i lo n : Nat) : Nat := fld (wordAt p.w i) lo n
def QPkt.type (p : QPkt) : Nat := p.f 0 0 8

/-- R271: ORDER of a KERNEL or SIGNAL. -/
def QPkt.ordered (p : QPkt) : Bool := (p.type == 1 || p.type == 3) && p.f 0 8 1 == 1
/-- R271: INTR of a KERNEL or SIGNAL. -/
def QPkt.intr (p : QPkt) : Bool := (p.type == 1 || p.type == 3) && p.f 0 9 1 == 1

def Queue.pkt (q : Queue) (idx : Nat) : Option QPkt := q.pkts.find? fun p => p.idx == idx

/-- R269: warp width of a WIDTH code. -/
def widthOf (n : Nat) : Nat := 16 * 2 ^ n

/-- R269: the fields of a KERNEL. -/
def QPkt.kernel (p : QPkt) : KernelF where
  scratch := p.f 0 48 8
  tags := p.f 0 41 7
  drain := p.f 0 34 7
  sregs := p.f 0 26 8 + 1
  vregs := p.f 0 18 8
  checker := p.f 0 17 1 == 1
  cohort2 := p.f 0 16 1 == 1
  w := widthOf (p.f 0 14 2)
  entry := BitVec.ofNat 32 (p.f 1 32 32)
  code := p.f 1 0 20
  hv := p.f 2 32 1 == 1
  hpc := BitVec.ofNat 32 (p.f 2 0 32)
  teamdim := p.f 3 32 11 + 1
  griddim := p.f 3 0 32 + 1
  intr := p.f 0 9 1 == 1

/-- R25: warps that a core can hold at a partition. -/
def warpsPerCore (n w : Nat) : Nat := min 64 (524288 / (4 * n * w))

/-- Warps of a team. -/
def KernelF.warps (f : KernelF) : Nat := (f.teamdim + f.w - 1) / f.w

/-- R272: BADFIELD of a KERNEL. -/
def QPkt.kernelBad (p : QPkt) : Bool :=
  let f := p.kernel
  p.f 0 56 8 != 0 || p.f 0 10 4 != 0 || p.f 0 14 2 == 3 || decide (f.scratch > 128) || decide (f.tags > 64) ||
  f.drain == 0 || decide (f.drain > 100) || f.vregs == 0 || p.f 1 20 12 != 0 || p.f 2 33 31 != 0 || p.f 3 43 21 != 0 ||
  ([4, 5, 6, 7].any fun i => wordAt p.w i != 0) || (f.cohort2 && f.griddim % 2 == 1) ||
  decide (f.teamdim > min 2048 (64 * f.w))

/-- R27: the team fits no core. -/
def KernelF.noFit (f : KernelF) : Bool := decide (f.warps > warpsPerCore f.vregs f.w)

/-- R270, R272: BADFIELD of a WAIT. -/
def QPkt.waitBad (p : QPkt) : Bool :=
  p.f 0 8 56 != 0 || p.f 1 8 56 != 0 || [3, 4, 5, 6, 7].any fun i => wordAt p.w i != 0

/-- R270, R272: BADFIELD of a SIGNAL. -/
def QPkt.signalBad (p : QPkt) : Bool :=
  p.f 0 10 54 != 0 || p.f 1 10 54 != 0 || decide (p.f 1 8 2 ≥ 2) || [3, 4, 5, 6, 7].any fun i => wordAt p.w i != 0

/-! ### Completion of packets (R271, R272, R374) -/

/-- Packets at the head of the queue that have completed are retired. -/
def retirePkts : List QPkt → Nat → List QPkt × Nat
  | [], n => ([], n)
  | p :: r, n => if p.status.isSome then retirePkts r (n + 1) else (p :: r, n)

/-- R271, R272, R374: a packet completes. (DEDUCED, log 47) -/
def State.completePkt (s : State) (q idx status : Nat) : State :=
  match (s.queue q).pkt idx with
  | none => s
  | some p =>
    let s := s.modQueue q fun k =>
      let mark := fun (x : QPkt) => if x.idx == idx then { x with status := some status } else x
      let (ps, n) := retirePkts (k.pkts.map mark) k.lret
      { k with pkts := ps, lret := n, halted := k.halted || status != 0, hstat := if status = 0 then k.hstat else status }
    let s := if p.iface < 9 then s.complete p.iface p.seq p.type status 0 else s
    let bound := match (s.queue q).bind with
      | some (_, _, i, _) => i
      | none => p.iface
    if p.intr then s.msix bound 1 else s

/-! ### Event counters (R267) -/

def Ctx.counter (c : Ctx) (i : Nat) : DWord :=
  match c.counters.find? fun p => p.1 == i with
  | some (_, v) => v
  | none => 0

/-- A counter is set; counters of 0 are not listed. -/
def setCounter (i : Nat) (v : DWord) : List (Nat × DWord) → List (Nat × DWord)
  | [] => if v = 0 then [] else [(i, v)]
  | (j, x) :: r =>
    if i < j then (if v = 0 then (j, x) :: r else (i, v) :: (j, x) :: r)
    else if i = j then (if v = 0 then r else (i, v) :: r)
    else (j, x) :: setCounter i v r

/-- A counter is set (0) or added to (1). -/
def State.bumpCounter (s : State) (ctx i op : Nat) (v : DWord) : State :=
  s.modCtx ctx fun c => { c with counters := setCounter i (if op = 0 then v else c.counter i + v) c.counters }

/-- The context of a queue. -/
def State.queueCtx (s : State) (q : Nat) : Nat :=
  match (s.queue q).bind with
  | some (c, _, _, _) => c
  | none => 256

/-! ### Starting packets (R271) -/

/-- A KERNEL whose grid stands. -/
def State.gridFor (s : State) (q idx : Nat) : Option Grid := s.grids.find? fun g => g.queue == q && g.pkt == idx

/-- R271: a packet may start after those before it. (DEDUCED, log 47) -/
def State.pktNext (s : State) (q : Nat) : Option QPkt :=
  let k := s.queue q
  match k.pkts.find? fun p => !p.started with
  | none => none
  | some p =>
    let before := k.pkts.filter fun x => decide (x.idx < p.idx)
    if k.halted || k.bind.isNone || s.boot.st != .ready then none
    else if p.ordered && before.any (fun x => x.status.isNone) then none
    else if before.all fun x => x.status.isSome || (s.gridFor q x.idx).isSome then some p
    else none

/-- PACKET_START (R268, R271, R272): the next packet of a queue starts; one of no type completes with BADTYPE. -/
def execPacketStart (q : Nat) (s : State) : Host.Outcome State Fault Refusal :=
  match s.pktNext q with
  | none => .next s
  | some p =>
    let start := fun (x : QPkt) => if x.idx == p.idx then { x with started := true } else x
    let s := s.modQueue q fun k => { k with pkts := k.pkts.map start }
    if p.type = 1 ∨ p.type = 2 ∨ p.type = 3 then .next s else .next (s.completePkt q p.idx 1)

/-- A packet of a type that has started and has not been carried out. (DEDUCED, log 47) -/
def State.pktDue (s : State) (q idx type : Nat) : Option QPkt :=
  match (s.queue q).pkt idx with
  | some p => if p.started && p.status.isNone && p.type == type && (s.gridFor q idx).isNone then some p else none
  | none => none

/-- KERNEL (R269, R272): the grid starts. (DEDUCED, log 88) -/
def execKernel (q idx : Nat) (s : State) : Host.Outcome State Fault Refusal :=
  match s.pktDue q idx 1 with
  | none => .next s
  | some p =>
    let f := p.kernel
    let ctx := s.queueCtx q
    if p.kernelBad then .next (s.completePkt q idx 2)
    else if f.noFit then .next (s.completePkt q idx 3)
    else if (s.current ctx f.code).isNone then .next (s.completePkt q idx 4)
    else
      let cap := s.trace.armed && s.trace.rq == q && s.trace.ctx == ctx
      let g : Grid := ⟨s.uid, ctx, q, idx, f, 0, 0, false, false, cap⟩
      let s := if cap then { s with trace := { s.trace with armed := false } } else s
      .next { s with uid := s.uid + 1, grids := s.grids ++ [g] }

/-- WAIT (R270, R271): completes when the counter has reached its value. -/
def execWait (q idx : Nat) (s : State) : Host.Outcome State Fault Refusal :=
  match s.pktDue q idx 2 with
  | none => .next s
  | some p =>
    if p.waitBad then .next (s.completePkt q idx 2)
    else
      match s.ctx (s.queueCtx q) with
      | none => .next s
      | some c => if (wordAt p.w 2).toNat ≤ (c.counter (p.f 1 0 8)).toNat then .next (s.completePkt q idx 0) else .next s

/-- SIGNAL (R270, R271): the counter is updated at once. -/
def execSignal (q idx : Nat) (s : State) : Host.Outcome State Fault Refusal :=
  match s.pktDue q idx 3 with
  | none => .next s
  | some p =>
    if p.signalBad then .next (s.completePkt q idx 2)
    else
      .next ((s.bumpCounter (s.queueCtx q) (p.f 1 0 8) (if p.f 1 8 2 = 0 then 1 else 0) (wordAt p.w 2)).completePkt q idx 0)

/-! ### New warps and teams (R28, R38) -/

/-- R28: a lane of a new warp. (DEDUCED, log 48) -/
def newLane (f : KernelF) (team idx i : Nat) : Lane :=
  let has := fun j => decide (idx * f.w + j < f.teamdim)
  let kind := kindAt has i
  let thread := match kind with
    | .thread => idx * f.w + i
    | _ => 0xFFFFFFFF
  ⟨kind, thread, team, if kind == .absent then .exited else .ready, f.entry, f.entry, 0, false,
   List.replicate f.vregs 0, 0, List.replicate 8 none, List.replicate 8 none, [], 0, 0, [], none⟩

/-- R28: warp `idx` of a new team. (DEDUCED, log 48) -/
def newWarp (g : Grid) (uid team core slot idx now : Nat) : Warp where
  uid := uid
  core := core
  slot := slot
  grid := g.uid
  team := team
  idx := idx
  w := g.f.w
  lanes := (List.range g.f.w).map (newLane g.f team idx)
  s := List.replicate 256 0
  c := 0
  tok := List.replicate 6 []
  e := List.replicate 16 []
  wst := 0
  key := BitVec.allOnes 64
  cmdseq := 0
  run := none
  hold := none
  flight := []
  pend := []
  nextEv := 0
  sync := none
  arr := none
  dom := none
  efaults := []
  cmdsDone := 0
  readyAt := now
  streak := 0
  acqFirst := true
  rgnFirst := false
  dbg := false
  dbgReq := none
  nextClk := 0
  walked := []

/-- A new team, resident on a core. (DESIGN CHOICE, log 11) -/
def newTeam (g : Grid) (uid teamId core : Nat) : Team :=
  ⟨uid, g.uid, teamId, .resident core, [], [], 0, List.replicate 16 [], 0, g.f.teamdim, [], [], [], [], []⟩

/-! ### What a core has free (R13, R25, R273) -/

/-- R301: the domains whose slots stay held on a core. -/
def State.heldDoms (s : State) (core : Nat) : List Domain :=
  s.sch.doms.filter fun d => d.core == core && d.back && !(s.domWarps d.id).isEmpty

/-- Slots in use on a core. -/
def State.usedSlots (s : State) (core : Nat) : List Nat :=
  ((s.warps.filter fun w => w.core == core).map Warp.slot ++ (s.heldDoms core).flatMap Domain.slots).eraseDups

def State.freeSlots (s : State) (core : Nat) : List Nat :=
  (List.range 64).filter fun i => !(s.usedSlots core).contains i

/-- R25: bytes of the vector register file that a warp of a kernel occupies. -/
def KernelF.warpBytes (f : KernelF) : Nat := 4 * f.vregs * f.w

/-- Bytes of a core's vector register file in use. -/
def State.usedBytes (s : State) (core : Nat) : Nat :=
  let held := s.heldDoms core
  let lone := s.warps.filter fun w => w.core == core && !held.any fun d => w.dom == some d.id
  (lone.map fun w => (s.gridOf w.grid).f.warpBytes).sum +
    (held.map fun d => d.slots.length * (((s.domWarps d.id).head?.map fun w => (s.gridOf w.grid).f.warpBytes).getD 0)).sum

/-- The teams resident on a core. -/
def State.teamsOn (s : State) (core : Nat) : List Team := s.teams.filter fun t => t.place == .resident core

/-- What teams need of a core. -/
structure Need where
  slots : Nat
  bytes : Nat
  scratch : Nat
  tags : Nat
  teams : Nat
  res : List Reservation
  mx : Nat
  deriving DecidableEq, Repr

def Need.none_ : Need := ⟨0, 0, 0, 0, 0, [], 0⟩

/-- R13, R273: a core fits. -/
def State.fits (s : State) (core : Nat) (n : Need) : Bool :=
  let ts := s.teamsOn core
  let k := s.core core
  decide (n.slots ≤ (s.freeSlots core).length) && decide (s.usedBytes core + n.bytes ≤ 524288) &&
  decide ((ts.map fun t => (s.gridOf t.grid).f.scratch).sum + n.scratch ≤ 128) &&
  decide ((ts.map fun t => (s.gridOf t.grid).f.tags).sum + n.tags ≤ 64) && decide (ts.length + n.teams ≤ 64) &&
  n.res.all (fun r => k.freeRun r.first r.size) && decide (k.res.length + n.res.length ≤ 64) &&
  decide ((k.queues.getD 0 []).length + n.mx ≤ 32)

/-! ### Candidates (R273, R279, R306) -/

/-- Teams that are placed together: saved ones by name, or new ones by TEAMID. -/
structure Cand where
  grid : Nat
  saved : List Nat
  fresh : List Nat
  deriving DecidableEq, Repr

/-- R306: the domains that a team belongs to, whether or not a warp stands in its name. -/
def State.domsOf (s : State) (t : Team) : List Nat :=
  let own := (s.sch.doms.filter fun d => d.orig.any (fun o => o.1 == t.uid) || t.warps.any fun w => w.dom == some d.id).map Domain.id
  own ++ (s.sch.doms.filter fun d => d.waits.any own.contains).map Domain.id

/-- R279, R306: two saved teams are placed as one: they share a domain, or a cohort. -/
def State.together (s : State) (a b : Team) : Bool :=
  a.grid == b.grid && ((s.domsOf a).any (fun d => (s.domsOf b).contains d) ||
    ((s.gridOf a.grid).f.cohort2 && a.teamId / 2 == b.teamId / 2))

/-- The saved teams that go with those listed. -/
def State.closeUnit (s : State) : Nat → List Team → List Team
  | 0, l => l
  | fuel + 1, l =>
    let more := s.teams.filter fun t => t.place == .saved && !(l.any fun x => x.uid == t.uid) && l.any fun x => s.together x t
    if more.isEmpty then l else State.closeUnit s fuel (l ++ more)

/-- R273: a queue's saved team that comes first, with those that go with it. -/
def State.savedCand (s : State) (q : Nat) : Option Cand :=
  let gs := s.grids.filter fun g => g.queue == q && !g.aborted
  gs.findSome? fun g =>
    match leastBy Team.teamId (s.teams.filter fun t => t.grid == g.uid && t.place == .saved) with
    | some t => some ⟨g.uid, (s.closeUnit 64 [t]).map Team.uid, []⟩
    | none => none

/-- R273: a queue's oldest grid with teams never placed. -/
def State.freshCand (s : State) (q : Nat) : Option Cand :=
  match s.grids.find? fun g => g.queue == q && !g.aborted && decide (g.next < g.f.griddim) with
  | some g => some ⟨g.uid, [], if g.f.cohort2 then [g.next, g.next + 1] else [g.next]⟩
  | none => none

/-- R306: slots of a saved team: its warps that are in no formed domain. -/
def State.loneWarps (s : State) (t : Team) : List Warp :=
  t.warps.filter fun w => match w.dom with
    | some d => !s.sch.doms.any fun e => e.id == d && e.back
    | none => true

/-- What a candidate's teams of one side need (side 0, or the follower's 1). -/
def State.needOf (s : State) (c : Cand) (side : Nat) : Need :=
  let g := s.gridOf c.grid
  let here := fun (id : Nat) => !g.f.cohort2 || id % 2 == side
  let ts := c.saved.filterMap s.team
  let mine := ts.filter fun t => here t.teamId
  let doms := (mine.flatMap s.domsOf).eraseDups.filterMap fun d => s.sch.doms.find? fun e => e.id == d && e.back
  let nf := (c.fresh.filter here).length
  let slots := (mine.map fun t => (s.loneWarps t).length).sum + (doms.map fun d => d.slots.length).sum + nf * g.f.warps
  let own := mine.flatMap fun t => t.res.filter fun r => decide (r.first < 128)
  let other := (ts.filter fun t => !here t.teamId).flatMap fun t =>
    (t.res.filter fun r => decide (r.first ≥ 128)).map fun r => { r with first := r.first - 128 }
  let n := mine.length + nf
  ⟨slots, slots * g.f.warpBytes, n * g.f.scratch, n * g.f.tags, n, own ++ other, (mine.map fun t => t.cmds.length).sum⟩

/-- R273, R277: a pair that may take teams of a context. -/
def State.pairOpen (s : State) (ctx pair : Nat) : Bool :=
  match s.ctx ctx with
  | none => false
  | some c =>
    (wordAt c.c (4 + pair / 64)).getLsbD (pair % 64) && c.granted.getLsbD pair &&
      !s.sch.stops.any fun e => e.delivered && e.ctx == ctx && e.pairs.getLsbD pair

/-- The element for which `f` is greatest, the first of several. -/
def mostBy {α : Type} (f : α → Nat) (l : List α) : Option α :=
  l.foldl (fun o x => match o with
    | none => some x
    | some y => if f x > f y then some x else some y) none

/-- R273: where a candidate goes: the cores of side 0 and side 1. -/
def State.siteFor (s : State) (die : Nat) (c : Cand) : Option (Nat × Nat) :=
  let g := s.gridOf c.grid
  let free := fun k => (s.freeSlots k).length
  let pairs := ((List.range 32).map fun i => 32 * die + i).filter (s.pairOpen g.ctx)
  if g.f.cohort2 then
    let ok := pairs.filter fun p => s.fits (2 * p) (s.needOf c 0) && s.fits (2 * p + 1) (s.needOf c 1)
    (mostBy (fun p => free (2 * p) + free (2 * p + 1)) ok).map fun p => (2 * p, 2 * p + 1)
  else
    let cores := (pairs.flatMap fun p => [2 * p, 2 * p + 1]).filter fun k => s.fits k (s.needOf c 0)
    (mostBy free cores).map fun k => (k, k)

/-- Where the grid of a candidate stands in starting order. -/
def State.gridPos (s : State) (g : Nat) : Nat := (s.grids.findIdx? fun x => x.uid == g).getD s.grids.length

/-- R273: what a queue offers a die: its saved team first; where that fits nowhere, only a grid that started before. -/
def State.offerOf (s : State) (die q : Nat) : Option (Cand × Nat × Nat) :=
  match s.savedCand q with
  | some c =>
    (match s.siteFor die c with
    | some k => some (c, k)
    | none =>
      match s.freshCand q with
      | some f => if s.gridPos f.grid < s.gridPos c.grid then (s.siteFor die f).map fun k => (f, k) else none
      | none => none)
  | none =>
    match s.freshCand q with
    | some f => (s.siteFor die f).map fun k => (f, k)
    | none => none

/-- R273: the queues in the order in which a die serves them. -/
def State.queueOrder (s : State) (die : Nat) : List Nat :=
  let from_ := s.sch.turn.getD die 63 + 1
  let rot := (List.range 64).map fun i => (from_ + i) % 64
  [3, 2, 1, 0].flatMap fun p => rot.filter fun q => match (s.queue q).bind with
    | some (_, pr, _, _) => pr == p
    | none => false

/-! ### Placing -/

/-- R28: a new team of a grid is placed; its warps take the lowest free slots, in their order. (DESIGN CHOICE, log 115) -/
def State.placeFresh (s : State) (g : Grid) (core teamId : Nat) : State :=
  let slots := s.freeSlots core
  let t := s.uid
  let ws := (List.range g.f.warps).map fun i => newWarp g (t + 1 + i) t core (slots.getD i 0) i s.gtime
  { s with uid := t + 1 + g.f.warps, teams := s.teams ++ [newTeam g t teamId core], warps := s.warps ++ ws }

/-- R216: the first run of a resumed warp is preceded by an acquire. (DEDUCED, log 35; DEDUCED, log 48) -/
def Warp.resumed (w : Warp) (core slot now : Nat) : Warp := { w with core := core, slot := slot, readyAt := now, nextClk := 0, acqFirst := true }

/-- The new slot of a saved warp: for a formed domain, by its place among the domain's slots. -/
def newSlot (old new : List Nat) (slot : Nat) : Nat := new.getD ((old.findIdx? fun x => x == slot).getD 0) 0

/-- R306: the warps of a formed domain take the domain's new slots, the lowest that are free. (DESIGN CHOICE, log 115) -/
def State.placeDom (s : State) (core : Nat) (ws : List Warp) (d : Domain) : State :=
  let new := (s.freeSlots core).take d.slots.length
  let mine := (ws.filter fun w => w.dom == some d.id).map fun w => w.resumed core (newSlot d.slots new w.slot) s.gtime
  { s with
    warps := s.warps ++ mine
    sch := { s.sch with doms := s.sch.doms.map fun e => if e.id == d.id then { e with core := core, slots := new } else e } }

/-- A saved warp that stands alone takes the lowest free slot; an open domain follows. (DESIGN CHOICE, log 115) -/
def State.placeLone (s : State) (core : Nat) (w : Warp) : State :=
  let slot := (s.freeSlots core).headD 0
  let map := fun (d : Domain) =>
    if w.dom == some d.id then
      { d with core := core, slots := (d.slots.filter fun x => x != w.slot + 64) ++ [slot]
               orig := d.orig.map fun (t, i, k) => if t == w.team && i == w.idx then (t, i, slot) else (t, i, k) }
    else d
  { s with warps := s.warps ++ [w.resumed core slot s.gtime], sch := { s.sch with doms := s.sch.doms.map map } }

/-- R279: a reservation's granules and contents return to a core. -/
def State.putRes (s : State) (core : Nat) (t : Team) (shift : Nat) (r : Reservation) : State :=
  let base := 2048 * r.first
  let d := t.resMem.read (base + 2048 * shift) (2048 * r.size)
  let ps := (t.resPoison.filter fun x => decide (base + 2048 * shift ≤ 32 * x ∧ 32 * x < base + 2048 * (shift + r.size))).map fun x => x - 64 * shift
  s.modCore core fun k => { k with res := k.res ++ [r], opbuf := k.opbuf.write base d, opPoison := k.opPoison ++ ps }

/-- R279: a saved team returns: its engine state, and its place. (DEDUCED, log 37; DEDUCED, log 49) -/
def State.placeTeam (s : State) (core other : Nat) (t : Team) : State :=
  let s := (t.res.filter fun r => decide (r.first < 128)).foldl (fun s r => s.putRes core t 0 r) s
  let s := (t.res.filter fun r => decide (r.first ≥ 128)).foldl (fun s r => s.putRes other t 128 { r with first := r.first - 128 }) s
  let s := s.modCore core fun k => { k with queues := k.queues.modify 0 (· ++ t.cmds.map fun c => { c with core := core }) }
  s.modTeam t.uid fun t => { t with place := .resident core, warps := [], cmds := [], res := [], resMem := [], resPoison := [] }

/-- R279, R306: saved teams are placed again. -/
def State.placeSaved (s : State) (g : Grid) (k0 k1 : Nat) (uids : List Nat) : State :=
  let ts := uids.filterMap s.team
  let coreOf := fun (t : Team) => if g.f.cohort2 && t.teamId % 2 == 1 then k1 else k0
  let ws := ts.flatMap fun t => t.warps
  let doms := (ts.flatMap fun t => (s.domsOf t).map fun d => (coreOf t, d)).eraseDups
  let s := doms.foldl (fun s (core, d) =>
    match s.sch.doms.find? fun e => e.id == d && e.back with
    | some e => s.placeDom core ws e
    | none => s) s
  let s := ts.foldl (fun s t => ((s.loneWarps t).foldl (fun s w => s.placeLone (coreOf t) w) s)) s
  let s := ts.foldl (fun s t => s.placeTeam (coreOf t) (if coreOf t = k0 then k1 else k0) t) s
  uids.foldl State.checkBars s

/-- TEAM_PLACEMENT (R273, R279): the launch unit of a die places the teams that come first. -/
def execTeamPlacement (die : Nat) (s : State) : Host.Outcome State Fault Refusal :=
  match (s.queueOrder die).findSome? fun q => (s.offerOf die q).map fun o => (q, o) with
  | none => .next s
  | some (q, c, k0, k1) =>
    let g := s.gridOf c.grid
    let s := { s with sch := { s.sch with turn := s.sch.turn.set die q } }
    let s := s.placeSaved g k0 k1 c.saved
    let s := c.fresh.foldl (fun s id => s.placeFresh g (if g.f.cohort2 && id % 2 == 1 then k1 else k0) id) s
    .next (s.modGrid g.uid fun g => { g with next := g.next + c.fresh.length })

/-! ### Retirement (R43 to R46) -/

/-- R44, R347: nothing of the team is under way. -/
def State.teamIdle (s : State) (t : Team) : Bool :=
  t.warps.isEmpty && t.cmds.isEmpty && !(s.warps.any fun w => w.team == t.uid || w.lanes.any fun l => l.team == t.uid && l.st != .exited) &&
  !((s.cores.flatMap fun k => k.queues.flatten).any fun c => c.team == t.uid) &&
  !(s.pmodes.any fun p => p.team == t.uid) && !(s.bins.any fun b => b.ops.any fun o => o.team == t.uid)

/-- R44, R45, R323: what retires with a team: reservations and leases, of a cohort when its last team retires. -/
def State.freeTeam (s : State) (t : Team) : State :=
  let g := s.gridOf t.grid
  let owner := s.ownerOf t.uid
  let s := { s with teams := s.teams.filter fun u => u.uid != t.uid }
  let last := !g.f.cohort2 || !s.teams.any fun u => u.grid == t.grid && u.teamId / 2 == t.teamId / 2
  if !last then s
  else
    let free := fun (k : Core) => { k.endLeases fun _ o => o == owner with res := k.res.filter fun r => r.owner != owner }
    let s := { s with cores := s.cores.map free }
    match t.place with
    | .resident c => (leaseCores g c).foldl State.grantIdle s
    | .saved => s

/-- TEAM_RETIREMENT (R44). -/
def execTeamRetirement (grid team : Nat) (s : State) : Host.Outcome State Fault Refusal :=
  match s.teams.find? fun t => t.grid == grid && t.teamId == team with
  | none => .next s
  | some t =>
    if (t.alive == 0 || (s.gridOf grid).aborted) && s.teamIdle t then
      .next ((s.freeTeam t).modGrid grid fun g => { g with retired := g.retired + 1 })
    else .next s

/-- R46: accesses of the grid are still to be performed. -/
def State.gridBusy (s : State) (g : Nat) : Bool :=
  s.mem.queue.any (fun r => r.grid == g) || s.link.out.any fun p => p.grid == g

/-- R287: the pins of a grid are released. -/
def State.unpinGrid (s : State) (g : Nat) : State :=
  { s with tabs := s.tabs.map fun v =>
      let mine := (v.pins.filter fun p => p.grid == some g).map Pin.id
      let cut := fun (x : Nat × List Nat) =>
        let ps := x.2.filter fun p => !mine.contains p
        if ps.isEmpty then none else some (x.1, ps)
      { v with pins := v.pins.filter (fun p => p.grid != some g), graves := v.graves.filterMap cut } }

/-- R272: the status of a grid's KERNEL. -/
def Grid.status (g : Grid) : Nat := if g.aborted then 5 else if g.unreported then 6 else 0

/-- GRID_END (R46, R272, R287). (DESIGN CHOICE, log 46) -/
def execGridEnd (grid : Nat) (s : State) : Host.Outcome State Fault Refusal :=
  match s.grid grid with
  | none => .next s
  | some g =>
    let done := if g.aborted then !s.teams.any fun t => t.grid == grid else decide (g.retired ≥ g.f.griddim)
    if !done || s.gridBusy grid || s.warps.any fun w => w.grid == grid then .next s
    else
      let s := (s.unpinGrid grid).freeVersions
      let s := { s with grids := s.grids.filter fun x => x.uid != grid }
      .next (s.completePkt g.queue g.pkt g.status)

end Sys2Proof.Machine
end

