-- ==== Sys2Proof/Machine/Schedule.lean ====
section
/-! DEFINITION. The choice of runs (R30, R35, R274, R275) and pre-emption (R276 to R279, R306). -/

namespace Sys2Proof.Machine

/-! ### The first word of a run -/

/-- R30: the eligible lane group: the lanes at the smallest PC among those that can issue. -/
def Warp.eligible (w : Warp) : Option (Word × List Nat) :=
  let on := w.threads.filter fun i => (w.lane i).st == .ready
  match leastBy (fun i => (w.lane i).pc.toNat) on with
  | none => none
  | some i => some ((w.lane i).pc, on.filter fun j => (w.lane j).pc == (w.lane i).pc)

/-- The guard and the scheduling field of the word at a PC, and whether it is uniform; none where the fetch faults. -/
def State.firstCtl (s : State) (w : Warp) (pc : Word) : Option (Ctl × Bool) :=
  match s.fetch w pc with
  | .error _ => none
  | .ok b =>
    match decode (bytesWord b) with
    | .error r => some (r.ctl, r.uniform)
    | .ok i => i.info.map fun x => (x.ctl, x.uniform)

/-- R397: the warp is to stand before its next run. -/
def Warp.toStand (w : Warp) : Bool :=
  match w.dbgReq with
  | some (c, _) => c != 0
  | none => false

/-- R95, R274, R277, R396: nothing but its tokens keeps the warp from issuing. -/
def State.free (s : State) (w : Warp) : Bool :=
  w.run.isNone && w.hold.isNone && !w.dbg && !(w.toStand && s.debugged w) && !s.stopping w.core (s.ctxOf w) && s.canIssue w

/-- R30, R35, R274: a run of the warp can be chosen. -/
def State.choosable (s : State) (w : Warp) : Bool :=
  s.free w &&
  match w.eligible with
  | none => false
  | some (pc, _) =>
    match s.firstCtl w pc with
    | some (c, _) => w.waitOk c.sch
    | none => true

/-- R274: since when a run can be chosen. (DEDUCED, log 33) -/
def State.noteReady (s : State) : State :=
  { s with warps := s.warps.map fun w => if s.choosable w then w else { w with readyAt := s.gtime } }

/-! ### Choice (R274, R275) -/

/-- The priority of the queue of a warp's grid. -/
def State.prioOf (s : State) (w : Warp) : Nat :=
  match (s.queue (s.gridOf w.grid).queue).bind with
  | some (_, p, _, _) => p
  | none => 0

/-- R275: a warp that has issued 8 runs in succession is passed over while another of its priority is ready. (DEDUCED, log 32) -/
def State.passedOver (s : State) (ready : List Warp) (w : Warp) : Bool :=
  decide (w.streak ≥ 8) && ready.any fun v => v.uid != w.uid && s.prioOf v == s.prioOf w

/-- R274: the run that an issue slot chooses. (DEDUCED, log 33) -/
def State.chosen (s : State) (core : Nat) : Option Warp :=
  let ready := s.warps.filter fun w => w.core == core && s.choosable w
  let ready := ready.filter fun w => !s.passedOver ready w
  let top := (ready.map s.prioOf).foldl max 0
  leastBy (fun w => w.readyAt * 64 + w.slot) (ready.filter fun w => s.prioOf w == top)

/-- R397: the breakpoint that matches the run's first instruction. (DEDUCED, log 29; DEDUCED, log 34) -/
def State.firstBreak (s : State) (w : Warp) (pc : Word) (lanes : List Nat) : Option Nat :=
  let on := match s.firstCtl w pc with
    | some (c, u) => !(s.actives w c.g u lanes).isEmpty
    | none => true
  if !s.debugged w || !on || w.dbgReq.isSome then none
  else s.trace.bps.findIdx? fun b =>
    b.mode == 1 && b.core == w.core && b.code == (s.gridOf w.grid).f.code && b.pc == pc.toNat

/-- R275: the count of successive runs, of the warp chosen and of the others of its priority. (DEDUCED, log 32) -/
def State.streaks (s : State) (w : Warp) : State :=
  let rivals := s.warps.filter fun v => v.core == w.core && v.uid != w.uid && s.prioOf v == s.prioOf w
  let rival := rivals.any s.choosable
  { s with warps := s.warps.map fun v =>
      if v.uid == w.uid then { v with streak := if rival then v.streak + 1 else 0 }
      else if rivals.any fun u => u.uid == v.uid then { v with streak := 0 }
      else v }

/-- R32, R216, R280, R302: the run of a warp issues. (DEDUCED, log 31) -/
def State.startRun (s : State) (w : Warp) (islot : Nat) (pc : Word) (lanes : List Nat) : State :=
  let rgn := w.rgnFirst || match s.firstCtl w pc with
    | some (c, _) => c.sch.rgn
    | none => false
  let s := s.streaks w
  let s := if w.acqFirst then s.dropSelf w.core else s
  let start := fun (v : Warp) =>
    let v := if rgn then v.modLanes lanes fun l => l.enterRegion pc else v
    { v with run := some ⟨lanes, pc, pc, 0, islot, [], false, false, none⟩, acqFirst := false, rgnFirst := false, dbgReq := none }
  let s := (s.modWarp w.core w.slot start).count w.core 1 1
  { (if rgn then s.freeVersions else s) with cur := some (w.core, w.slot), lastCore := w.core }

/-- R33, R274: the next instruction of the warp's run can issue: it is not held, and its STALL count has passed. -/
def State.goesOn (s : State) (w : Warp) : Bool :=
  w.hold.isNone && s.canIssue w && match w.run with
    | some r => !r.blocked
    | none => false

/-- R95, R274: a free issue slot of the core can serve the warp: its run goes on there, or one of its runs can be chosen. -/
def State.servedBy (s : State) (w : Warp) (islot : Nat) : Bool :=
  s.slotFree w.core islot && (match w.run with
    | some r => r.islot == islot && s.goesOn w
    | none => s.choosable w || w.briefNap)

/-- R30, R33: the warp whose run an issue slot executes and can go on with. -/
def State.runOn (s : State) (core islot : Nat) : Option Warp :=
  s.warps.find? fun w => w.core == core && s.goesOn w && (match w.run with
    | some r => r.islot == islot
    | none => false)

/-- RUN_ISSUE (R274), in a cycle in which the slot is free: a run in execution on it goes on, or a run is chosen; a nap of no cycles has
given up that choice (R137). -/
def execRunIssue (core islot : Nat) (s : State) : Host.Outcome State Fault Refusal :=
  if islot ≥ 2 || !s.slotFree core islot then .next s
  else
    match s.runOn core islot with
    | some w => .next { s with cur := some (core, w.slot), lastCore := core }
    | none =>
      match s.chosen core with
      | none => .next (s.passNaps core)
      | some w =>
        let s := s.passNaps core
        match w.eligible with
        | none => .next s
        | some (pc, lanes) =>
          match s.firstBreak w pc lanes with
          | some j => .next (s.modWarp core w.slot fun v => v.wantStop (1, j, BitVec.ofNat 64 j))
          | none => .next (s.startRun w islot pc lanes)

/-! ### Grants and stops (R276 to R278) -/

/-- A word of a packet. -/
def pktWord (p : Packet) (i : Nat) : DWord := wordAt p.w i
/-- A field of a packet. -/
def pktF (p : Packet) (i lo n : Nat) : Nat := fld (pktWord p i) lo n
def pktType (p : Packet) : Nat := pktF p 0 0 8
def pktCtx (p : Packet) : Nat := pktF p 0 8 8

/-- R276: the pair mask of P1 and P2. -/
def pktPairs (p : Packet) : BitVec 128 := pktWord p 2 ++ pktWord p 1

/-- R374: a control packet completes. -/
def State.reply (s : State) (iface index type status data : Nat) : State :=
  (s.complete iface index type status data).msix iface 0

def State.answer (s : State) (p : Packet) (status data : Nat) : State := s.reply p.iface p.index (pktType p) status data

/-- R374: REFUSED, NOPRIV, PASID_REVOKED. -/
def refused : Nat := 8
def nopriv : Nat := 9
def pasidRevoked : Nat := 10

/-- R368, R373: the request is one for the admin interface, or its interface owns the context. -/
def State.mayAsk (s : State) (p : Packet) (admin : Bool) : Bool :=
  p.iface == 8 || (!admin && match s.ctx (pktCtx p) with
    | some c => c.owner == p.iface
    | none => false)

/-- R370, R373, R400: a request is admitted, and its unnamed fields are 0; else it completes at once. -/
def State.request (s : State) (p : Packet) (admin ok : Bool) (f : State) : State :=
  if s.boot.st != .ready then s.answer p refused 0
  else if !s.mayAsk p admin then s.answer p nopriv 0
  else if !ok then s.answer p refused 0
  else f

/-- The fields that a row does not name are 0: bits of P0 from `lo` on, and the words listed. (DEDUCED, log 40) -/
def pktClear (p : Packet) (lo : Nat) (zero : List Nat) : Bool :=
  pktF p 0 lo (64 - lo) == 0 && zero.all fun i => pktWord p i == 0

/-- R276: the context's CORESET. -/
def Ctx.coreset (c : Ctx) : BitVec 128 := wordAt c.c 5 ++ wordAt c.c 4

/-- R266, R276: OVERRUN of a context. -/
def Ctx.overrun (c : Ctx) : Nat := fld (wordAt c.c 7) 48 16
def Ctx.setOver (c : Ctx) (n : Nat) : Ctx :=
  { c with c := c.c.set 7 (BitVec.ofNat 64 (fld (wordAt c.c 7) 0 48 + min n 65535 * 2 ^ 48)) }

/-- R276: the mask can be granted to the context. -/
def State.grantable (s : State) (c : Ctx) (m : BitVec 128) : Bool :=
  m &&& ~~~c.coreset == 0 && s.sch.ctxs.all fun d => d.id == c.id || m &&& d.granted == 0

/-- A stop is entered. -/
def State.addStop (s : State) (ctx : Nat) (m : BitVec 128) (deadline : Nat) (reply : Option (Nat × Nat)) : State :=
  { s with sch := { s.sch with
      nextStop := s.sch.nextStop + 1
      stops := s.sch.stops ++ [StopE.mk s.sch.nextStop ctx m deadline false 0 reply] } }

/-- R276: pairs are lent to a context; a slice ends as a stop does. -/
def State.grantPairs (s : State) (c : Ctx) (m : BitVec 128) (t : Nat) : State :=
  let s := if t = 0 then s else s.addStop c.id m (s.gtime + t - 1000 * c.overrun) none
  s.modCtx c.id fun c => { c.setOver 0 with granted := c.granted ||| m }

/-- GRANT (R276). -/
def execGrant (p : Packet) (s : State) : Host.Outcome State Fault Refusal :=
  .next (s.request p true (pktClear p 16 [4, 5, 6, 7])
    (match s.ctx (pktCtx p) with
    | none => s.answer p refused 0
    | some c =>
      if s.grantable c (pktPairs p) then (s.grantPairs c (pktPairs p) (pktWord p 3).toNat).answer p 0 0
      else s.answer p refused 0))

/-- STOP (R276). -/
def execStop (p : Packet) (s : State) : Host.Outcome State Fault Refusal :=
  .next (s.request p true (pktClear p 16 [4, 5, 6, 7])
    (match s.ctx (pktCtx p) with
    | none => s.answer p refused 0
    | some _ => s.addStop (pktCtx p) (pktPairs p) (pktWord p 3).toNat (some (p.iface, p.index))))

/-- R277: the teams of a stop: those of its context on its pairs. -/
def State.stopTeams (s : State) (e : StopE) : List (Team × Nat) :=
  s.teams.filterMap fun t =>
    match t.place with
    | .resident c => if (s.gridOf t.grid).ctx == e.ctx && e.pairs.getLsbD (c / 2) then some (t, c) else none
    | .saved => none

/-- R329: the leases of stopped teams, or of their cohorts, end. (DEDUCED, log 36) -/
def State.stopLeases (s : State) (e : StopE) : State :=
  (s.stopTeams e).foldl (fun s (t, c) => s.endLeases (leaseCores (s.gridOf t.grid) c) fun _ o => o == s.ownerOf t.uid) s

/-- STOP_DELIVERY (R277): at the deadline less the drain time, or at once when that has passed. (DEDUCED, log 36) -/
def execStopDelivery (id : Nat) (s : State) : Host.Outcome State Fault Refusal :=
  match s.sch.stops.find? fun e => e.id == id with
  | none => .next s
  | some e =>
    let d := s.drainTime e.ctx e.pairs
    if e.delivered || decide (s.gtime + d < e.deadline) then .next s
    else
      let mark := fun (x : StopE) => if x.id == id then { x with delivered := true, drain := d } else x
      .next ({ s with sch := { s.sch with stops := s.sch.stops.map mark } }.stopLeases e)

/-! ### Saving a warp (R99, R277, R306) -/

/-- R277: a command of a stopped team that does not go on by itself: a card that is not on the array, and one that has not begun. -/
def State.halts (s : State) (c : Cmd) : Bool :=
  !c.phase.isFinished && (if c.q = 0 ∧ c.code = 0x10 then (s.core c.core).array != some c.id else !s.begun c.core c)

/-- R277, R307: a command of the warp does not complete during the stop: it, or an earlier one on the MX queue, does not go on. -/
def State.halted (s : State) (w : Warp) : Bool :=
  s.inFlight.any fun c => c.warp == w.uid && (s.halts c || (c.q == 0 && (s.cmdsBefore c.core 0 c.id).any fun d => d.team == c.team && s.halts d))

/-- R306: an arrived warp of a regroup is not saved before the relocation that its domain's last arrival starts: it is where a warp of the
domain has been saved, or stands at a run boundary and has not arrived, or has arrived with a command that the stop halts. (DEDUCED, log 35) -/
def State.mayArrive (s : State) (w : Warp) : Bool :=
  match w.dom with
  | some d =>
    let comes := fun (v : Warp) => v.run.isSome || (v.arrivedAll && ((v.arr.elim false Arrival.counted) || !s.halted v))
    w.arrivedAll && (s.domWarps d).all comes && !((s.teams.flatMap Team.warps).any fun v => v.dom == some d) &&
      (s.sch.doms.find? fun e => e.id == d).all fun e => e.waits.all fun i => !s.sch.doms.any fun f => f.id == i
  | none => false

/-- R99, R277: nothing of the warp that a stop waits for is in flight: its tokens are clear and its accesses have written back; an
accepted press operation completes while the warp is saved (R347). -/
def Warp.quiet (w : Warp) : Bool :=
  let free := fun id => w.pend.any fun p => p.id == id && p.idle
  w.pend.all (fun p => p.wb || p.idle || p.kind == .press) && w.tok.all fun t => t.all fun e => e.fin || free e.id

/-- R33, R99, R277: a stopped warp can be saved. (DEDUCED, log 35) -/
def State.savable (s : State) (w : Warp) : Bool :=
  s.stopping w.core (s.ctxOf w) && w.run.isNone && w.quiet && !s.mayArrive w

/-- A 64-bit value that nothing fixes. -/
def freeDWord (n : Nat) : DWord := Config.freeWord (2 * n + 1) ++ Config.freeWord (2 * n)

/-- R26, R99, R137, R316, R347, R386: the warp as it is saved: waits are executed again, the rest of a nap is discarded, the scalar
registers beyond the kernel's count are lost (`fresh` draws what they read as), and every token is clear. (DEDUCED, log 35;
DESIGN CHOICE, log 97) -/
def Warp.forSave (w : Warp) (sregs fresh : Nat) : Warp :=
  { w with
    run := none, hold := none, walked := [], tok := List.replicate 6 []
    flight := w.flight.map fun (f : Flight) => { f with sure := true }
    pend := w.pend.filter fun p => !p.wb && p.kind == .press
    s := w.s.zipIdx.map fun (x, i) => if i < sregs then x else freeDWord (fresh * 256 + i) }

/-- R306: the slot of a warp saved from a domain not yet formed is to be found again. -/
def markSlot (w : Warp) (d : Domain) : Domain :=
  if w.dom == some d.id && !d.back then { d with slots := d.slots.map fun x => if x = w.slot then x + 64 else x } else d

/-- WARP_SAVE (R277). -/
def execWarpSave (core slot : Nat) (s : State) : Host.Outcome State Fault Refusal :=
  match s.warpAt core slot with
  | none => .next s
  | some w =>
    if !s.savable w then .next s
    else
      let s := { s with
        fresh := s.fresh + 1
        warps := s.warps.filter fun x => !(x.core == core && x.slot == slot)
        cur := if s.cur = some (core, slot) then none else s.cur
        sch := { s.sch with doms := s.sch.doms.map (markSlot w) } }
      .next (s.modTeam w.team fun t => { t with warps := t.warps ++ [w.forSave (s.gridOf w.grid).f.sregs (s.fresh - 1)] })

/-! ### The end of a drain (R278, R279) -/

/-- R277: no matrix command of the context is in execution on the core: a card has left the array, and what has begun is done. -/
def State.mxQuiet (s : State) (e : StopE) (core : Nat) : Bool :=
  ((s.core core).queues.getD 0 []).all fun c =>
    (s.cmdGrid c).ctx != e.ctx || (c.phase == .waiting && (c.code == 0x10 || !s.begun core c)) ||
      (c.phase == .running && c.code == 0x10 && (s.core core).array != some c.id)

/-- R278: every warp is saved, and every job card has stopped. -/
def State.drained (s : State) (e : StopE) : Bool :=
  !(s.warps.any fun w => s.ctxOf w == e.ctx && e.pairs.getLsbD (w.core / 2)) &&
  (List.range 256).all fun c => !e.pairs.getLsbD (c / 2) || s.mxQuiet e c

/-- The reservations of an owner leave a core, with their contents; `up`: 128 granules for the other core of the pair.
(DEDUCED, log 37) -/
def State.takeRes (s : State) (t : Nat) (owner core up : Nat) : State :=
  let k := s.core core
  let mine := k.res.filter fun r => r.owner == owner
  let s := s.modCore core fun k => { k with res := k.res.filter fun r => r.owner != owner }
  s.modTeam t fun t => mine.foldl (fun (t : Team) r =>
    let base := 2048 * r.first
    { t with
      res := t.res ++ [{ r with first := r.first + up }]
      resMem := t.resMem.write (base + 2048 * up) (k.opbuf.read base (2048 * r.size))
      resPoison := t.resPoison ++ (k.opPoison.filter fun x => decide (base ≤ 32 * x ∧ 32 * x < base + 2048 * r.size)).map
        fun x => x + 64 * up }) t

/-- R277: a team is saved: its matrix commands and its reservations. (DEDUCED, log 37) -/
def State.saveTeam (s : State) (t : Team) (core : Nat) : State :=
  let owner := s.ownerOf t.uid
  let mine := ((s.core core).queues.getD 0 []).filter fun c => c.team == t.uid
  let s := s.modCore core fun k => { k with queues := k.queues.modify 0 (List.filter fun c => c.team != t.uid) }
  let s := s.modTeam t.uid fun t => { t with cmds := t.cmds ++ mine }
  let s := s.takeRes t.uid owner core 0
  let other := core / 2 * 2 + (1 - core % 2)
  let alone := (s.gridOf t.grid).f.cohort2 &&
    !(s.teams.any fun u => u.uid != t.uid && u.grid == t.grid && u.teamId / 2 == t.teamId / 2)
  let s := if alone then s.takeRes t.uid owner other 128 else s
  s.modTeam t.uid fun t => { t with place := .saved }

/-- R278: microseconds, rounded up. -/
def usUp (ns : Nat) : Nat := (ns + 999) / 1000

/-- DRAIN_END (R278): the stop completes, its overrun is accounted, and the pairs leave the grant.
(DEDUCED, log 36; DEDUCED, log 38) -/
def execDrainEnd (id : Nat) (s : State) : Host.Outcome State Fault Refusal :=
  match s.sch.stops.find? fun e => e.id == id with
  | none => .next s
  | some e =>
    if !e.delivered || !s.drained e then .next s
    else
      let late := s.gtime - e.deadline
      let s := s.stopLeases e
      let s := (s.stopTeams e).foldl (fun s (t, c) => s.saveTeam t c) s
      let s := s.modCtx e.ctx fun c => { c.setOver (c.overrun + usUp late) with granted := c.granted &&& ~~~e.pairs }
      let s := { s with sch := { s.sch with stops := s.sch.stops.filter fun x => x.id != id } }
      match e.reply with
      | some (i, n) => .next (s.reply i n 0x11 0 late)
      | none => .next s

end Sys2Proof.Machine
end

