-- ==== Sys2Proof/Machine/Faults.lean ====
section
/-! DEFINITION. FAULTREPLY: the host's answers to a host-class fault (R283). -/

namespace Sys2Proof.Machine

/-- R283, R376: the waiting fault that a reply names, with its warp. (DEDUCED, log 40) -/
def State.waiting (s : State) (p : Packet) : Option (HFault × Warp) :=
  match s.sch.hfaults.find? fun h => h.id == (pktWord p 1).toNat && h.ctx == pktCtx p with
  | none => none
  | some h => (s.anyWarp h.warp).map fun w => (h, w)

/-- R283: the lanes of a warp that a fault holds. -/
def Warp.heldBy (w : Warp) (id : Nat) : List Nat :=
  w.threads.filter fun i => (w.lane i).st == .faultHeld && (w.lane i).fid == id

/-- A fault has been answered. -/
def State.answered (s : State) (id : Nat) : State :=
  { s with sch := { s.sch with hfaults := s.sch.hfaults.filter fun h => h.id != id } }

/-- FAULTREPLY: admitted, and naming a waiting fault; else refused. -/
def State.faultReply (s : State) (p : Packet) (f : HFault → Warp → State → State) : State :=
  s.request p true (pktClear p 18 [2, 3, 4, 5, 6, 7])
    (match s.waiting p with
    | none => s.answer p refused 0
    | some (h, w) => ((f h w s).answered h.id).answer p 0 0)

/-- RETRY: the lanes are released, and restart at REC (R280). -/
def retryFault (h : HFault) (w : Warp) (s : State) : State :=
  let lanes := w.heldBy h.id
  (s.restart w.uid lanes).modWarpU w.uid fun w => w.modLanes lanes fun l => { l with st := .ready, fid := 0 }

/-- FAULTREPLY, answer RETRY (R283). -/
def execFaultreplyRetry (p : Packet) (s : State) : Host.Outcome State Fault Refusal := .next (s.faultReply p retryFault)

/-- FAULTREPLY, answer DELIVER (R283): the fault becomes a trap with return PC REC. -/
def execFaultreplyDeliver (p : Packet) (s : State) : Host.Outcome State Fault Refusal :=
  .next (s.faultReply p fun h w s => s.deliver w (w.heldBy h.id) none)

/-- FAULTREPLY, answer ABORT (R283). -/
def execFaultreplyAbort (p : Packet) (s : State) : Host.Outcome State Fault Refusal :=
  .next (s.faultReply p fun _ w s => s.abortGrid w.grid)

/-- FAULTREPLY, answer 11 (R283): refused; the lanes stay held. (DEDUCED, log 40) -/
def execFaultreplyRefused (p : Packet) (s : State) : Host.Outcome State Fault Refusal :=
  .next (s.request p true (pktClear p 18 [2, 3, 4, 5, 6, 7]) (s.answer p refused 0))

end Sys2Proof.Machine
end

