-- ==== Sys2Proof/Machine/HostControl.lean ====
section
/-! DEFINITION. The requests of the control rings (R370 to R375), with the clock change of a CLOCK (R18). -/

namespace Sys2Proof.Machine

/-- Words of a descriptor image (R370). -/
def imgWord (p : Packet) (i : Nat) : DWord := wordAt p.image i

/-- A request about a context that exists. -/
def State.ctxRequest (s : State) (p : Packet) (admin ok : Bool) (f : Ctx → State) : State :=
  s.request p admin ok (match s.ctx (pktCtx p) with
    | none => s.answer p refused 0
    | some c => f c)

/-! ### Contexts and tables -/

/-- The pairs of a mask. -/
def pairCount (m : BitVec 128) : Nat := ((List.range 128).filter fun i => m.getLsbD i).length

/-- R266: a context descriptor that is refused. The save area ends with the module's memory. (DEDUCED, log 39) -/
def ctxBad (w : Nat → DWord) : Bool :=
  fld (w 0) 38 26 != 0 || fld (w 0) 0 12 != 0 || fld (w 1) 38 26 != 0 || fld (w 1) 0 16 != 0 || fld (w 6) 52 12 != 0 ||
  fld (w 7) 38 10 != 0 || fld (w 7) 1 15 != 0 ||
  decide (fld (w 7) 16 22 * 65536 + 3 * 2 ^ 20 * pairCount (w 5 ++ w 4) > 2 ^ 38)

/-- R266, R267: the descriptor of a context is written; a new context has no groups, no granted pairs, and counters of 0.
(DEDUCED, log 39) -/
def State.setCtx (s : State) (id owner : Nat) (c : List DWord) : State :=
  match s.ctx id with
  | some _ => s.modCtx id fun x => { x with c := c, owner := owner }
  | none => { s with sch := { s.sch with ctxs := s.sch.ctxs ++ [Ctx.mk id c owner [] [] 0] } }

/-- CTXDESC (R266, R370). -/
def execCtxdesc (p : Packet) (s : State) : Host.Outcome State Fault Refusal :=
  .next (s.request p true (pktClear p 16 [3, 4, 5, 6, 7] && pktF p 2 4 60 == 0 && decide (pktF p 2 0 4 ≤ 8) && !ctxBad (imgWord p))
    ((s.setCtx (pktCtx p) (pktF p 2 0 4) ((List.range 8).map (imgWord p))).answer p 0 0))

/-- R233, R256: a descriptor takes the place of a table's current version, which is frozen; KIND 0 leaves the id free.
(DESIGN CHOICE, log 51) -/
def State.putTable (s : State) (ctx id n : Nat) (d0 d1 d2 d3 : DWord) : State :=
  let freeze := fun (v : Version) => if v.cur && v.ctx == ctx && v.id == id then { v with cur := false } else v
  let s := { s with tabs := s.tabs.map freeze }
  let s := if fld d0 0 4 = 0 then s
    else { s with uid := s.uid + 1, tabs := s.tabs ++ [⟨s.uid, ctx, id, withVersion d0 n, d1, d2, d3, true, [], [], []⟩] }
  s.freeVersions

/-- TABLEDESC (R233, R370). -/
def execTabledesc (p : Packet) (s : State) : Host.Outcome State Fault Refusal :=
  .next (s.ctxRequest p false (pktClear p 16 [3, 4, 5, 6, 7] && pktF p 1 20 44 == 0) fun c =>
    let id := pktF p 1 0 20
    let d0 := imgWord p 0
    if descBad d0 (imgWord p 1) (imgWord p 2) (imgWord p 3) then s.answer p refused 0
    else
      match s.current c.id id with
      | none =>
        if fld d0 32 32 = 0 then s.answer p refused 0
        else (s.putTable c.id id (fld d0 32 32) d0 (imgWord p 1) (imgWord p 2) (imgWord p 3)).answer p 0 0
      | some v => (s.putTable c.id id (nextVersion v.number) d0 (imgWord p 1) (imgWord p 2) (imgWord p 3)).answer p 0 0)

/-! ### Requests that complete later -/

/-- A request that has been taken and not completed. -/
def State.slowOf (s : State) (p : Packet) : Option (Nat × Nat × Nat × Nat × Nat) :=
  s.host.slow.find? fun e => e.1 == p.iface && e.2.1 == p.index && e.2.2.1 == pktType p

def State.addSlow (s : State) (p : Packet) (word : Nat) : State :=
  { s with host := { s.host with slow := s.host.slow ++ [(p.iface, p.index, pktType p, pktCtx p, word)] } }

/-- The request completes. -/
def State.endSlow (s : State) (p : Packet) (data : Nat) : State :=
  { s with host := { s.host with slow := s.host.slow.filter fun e =>
      !(e.1 == p.iface && e.2.1 == p.index && e.2.2.1 == pktType p) } }.answer p 0 data

/-- R177: an invalidation covers an entry. -/
def TlbE.inRange (e : TlbE) (ctx base len : Nat) : Bool :=
  e.ctx == ctx && (len == 0 || decide (e.page * 65536 < base + len ∧ base < (e.page + e.pages) * 65536))

/-- R346: transfers of the context that hold the translations of their issue: accepted, or waiting for their bin to have room. -/
def State.xferBusy (s : State) (ctx : Nat) : Bool :=
  (s.bins.flatMap Bin.ops ++ s.warps.filterMap fun w => w.hold.bind Hold.pop).any fun o => o.ctx == ctx && match o.kind with
    | .xin .. => true
    | .xout .. => true
    | _ => false

/-- R177: failed walks that warps of the context have been told of, and have not used yet, are forgotten with the entries. -/
def State.dropWalked (s : State) (ctx base len : Nat) : State :=
  let hit := fun (page : Nat) => len == 0 || decide (page * 65536 < base + len ∧ base < (page + 1) * 65536)
  { s with warps := s.warps.map fun (w : Warp) =>
      if s.ctxOf w = ctx then { w with walked := w.walked.filter fun p => decide (p.1 ≥ 2 ^ 100) || !hit p.1 } else w }

/-- TLBINV (R177, R346, R370): the entries are invalidated at once; the request completes when no accepted PXIN or PXOUT of the
context is left. (DEDUCED, log 43) -/
def execTlbinv (p : Packet) (s : State) : Host.Outcome State Fault Refusal :=
  match s.slowOf p with
  | some (_, _, _, ctx, _) => if s.xferBusy ctx then .next s else .next (s.endSlow p 0)
  | none =>
    .next (s.ctxRequest p false (pktClear p 16 [3, 4, 5, 6, 7]) fun c =>
      let s := (s.dropTlb fun e => TlbE.inRange e c.id (pktWord p 1).toNat (pktWord p 2).toNat).dropWalked c.id
        (pktWord p 1).toNat (pktWord p 2).toNat
      if s.xferBusy c.id then s.addSlow p 0 else s.answer p 0 0)

/-! ### Memory and links -/

/-- NCRANGE (R231, R370). -/
def execNcrange (p : Packet) (s : State) : Host.Outcome State Fault Refusal :=
  .next (s.request p true (pktClear p 16 [5, 6, 7] && pktF p 1 4 60 == 0 && pktF p 4 1 63 == 0)
    (let e : NcE := ⟨(pktWord p 2).toNat, (pktWord p 3).toNat, pktF p 4 0 1 == 1⟩
    (s.modMem fun m => { m with ncTab := m.ncTab.set (pktF p 1 0 4) e }).answer p 0 0))

/-- DEDICATE (R352, R370): refused where it takes a channel that is set aside out of the set. (DEDUCED, log 41) -/
def execDedicate (p : Packet) (s : State) : Host.Outcome State Fault Refusal :=
  .next (s.request p true (pktClear p 16 [3, 4, 5, 6, 7])
    (if s.mem.aside.any fun e => !(pktPairs p).getLsbD e.1 then s.answer p refused 0
    else (s.modMem fun m => { m with dedicated := pktPairs p }).answer p 0 0))

/-- R381: the group of an image. -/
def groupOfImage (id : Nat) (p : Packet) : Group :=
  let all := leNat ((List.range 6).flatMap fun i => leBytes 8 (imgWord p (i + 1)).toNat)
  let g := fld (imgWord p 0) 0 6 + 1
  ⟨id, g, fld (imgWord p 0) 8 6, fld (imgWord p 0) 16 1 == 1, (List.range g).map fun j => all / 2 ^ (6 * j) % 64⟩

/-- R381: a GROUP image that is refused. -/
def groupBad (p : Packet) : Bool :=
  fld (imgWord p 0) 6 2 != 0 || fld (imgWord p 0) 14 2 != 0 || fld (imgWord p 0) 17 47 != 0 || fld (imgWord p 0) 0 6 == 0 ||
  decide (fld (imgWord p 0) 8 6 > fld (imgWord p 0) 0 6)

/-- GROUP (R370, R381). -/
def execGroup (p : Packet) (s : State) : Host.Outcome State Fault Refusal :=
  .next (s.ctxRequest p false (pktClear p 16 [3, 4, 5, 6, 7] && pktF p 1 8 56 == 0 && !groupBad p) fun c =>
    let id := pktF p 1 0 8
    (s.modCtx c.id fun c => { c with groups := c.groups.filter (fun g => g.id != id) ++ [groupOfImage id p] }).answer p 0 0)

/-- DOMAIN (R370, R379). -/
def execDomain (p : Packet) (s : State) : Host.Outcome State Fault Refusal :=
  .next (s.request p true (pktClear p 16 [2, 3, 4, 5, 6, 7] && pktF p 1 6 2 == 0 && pktF p 1 16 48 == 0)
    ({ s with link := { s.link with own := pktF p 1 0 6, exportCtx := some (pktF p 1 8 8) } }.answer p 0 0))

/-! ### Queues, rings and counters (R272, R372) -/

/-- R373: the queue is bound to a context of the interface. -/
def State.queueMine (s : State) (p : Packet) (q : Nat) : Bool :=
  match (s.queue q).bind with
  | some (c, _, _, _) => p.iface == 8 || (match s.ctx c with
    | some x => x.owner == p.iface
    | none => false)
  | none => false

/-- QRESTART (R272, R373). -/
def execQrestart (p : Packet) (s : State) : Host.Outcome State Fault Refusal :=
  .next (s.request p false (pktClear p 16 [2, 3, 4, 5, 6, 7] && pktF p 1 6 58 == 0)
    (if s.queueMine p (pktF p 1 0 6) then
      (s.modQueue (pktF p 1 0 6) fun q => { q with halted := false, hstat := 0 }).answer p 0 0
    else s.answer p nopriv 0))

/-- R372: launch rings belong to QI0 to QI7, and each is bound to one queue. -/
def State.ringTaken (s : State) (i r : Nat) : Bool :=
  s.sch.queues.any fun q => match q.bind with
    | some (_, _, j, k) => j == i && k == r
    | none => false

/-- QBIND, P2[16] = 1 (R372). -/
def execQbindBind (p : Packet) (s : State) : Host.Outcome State Fault Refusal :=
  let q := pktF p 1 0 6
  let i := pktF p 2 0 4
  let r := pktF p 2 8 3
  .next (s.ctxRequest p true (pktClear p 16 [3, 4, 5, 6, 7] && pktF p 1 6 2 == 0 && pktF p 1 10 54 == 0 && pktF p 2 4 4 == 0 &&
      pktF p 2 11 5 == 0 && pktF p 2 17 47 == 0 && decide (i < 8)) fun c =>
    if c.owner != i || (s.queue q).bind.isSome || !(s.queue q).pkts.isEmpty || s.ringTaken i r then s.answer p refused 0
    else (s.modQueue q fun k => { k with bind := some (c.id, pktF p 1 8 2, i, r) }).answer p 0 0)

/-- QBIND, P2[16] = 0 (R372). -/
def execQbindUnbind (p : Packet) (s : State) : Host.Outcome State Fault Refusal :=
  let q := pktF p 1 0 6
  .next (s.request p true (pktClear p 16 [3, 4, 5, 6, 7] && pktF p 1 6 2 == 0 && pktF p 1 10 54 == 0 && pktF p 2 4 4 == 0 &&
      pktF p 2 11 5 == 0 && pktF p 2 17 47 == 0)
    (if !(s.queue q).pkts.isEmpty || (s.queue q).halted then s.answer p refused 0
    else (s.modQueue q fun k => { k with bind := none }).answer p 0 0))

/-- R368, R374, R376: bytes of an entry of ring `r`. (DEDUCED, log 45) -/
def ringEntry (r : Nat) : Nat := if r = 9 then 16 else if r = 10 then 32 else 64

/-- R372: a ring that still holds unfetched packets or uncollected records. -/
def Iface.ringBusy (f : Iface) (r : Nat) : Bool :=
  match f.rings.getD r none with
  | none => false
  | some x => if r = 10 then decide (f.ehead < f.events) else decide (x.head < x.tail)

/-- R376: records held for a full ring are written as places come free. -/
def State.flushEvents (s : State) (i : Nat) : State :=
  match s.host.ifaces[i]? with
  | none => s
  | some f =>
    ({ s with host := { s.host with ifaces := s.host.ifaces.set i { f with heldEvents := [] } } } : State) |> fun s =>
      f.heldEvents.foldl (fun s e => s.event i e) s

/-- RINGCFG (R372). (DEDUCED, log 45) -/
def execRingcfg (p : Packet) (s : State) : Host.Outcome State Fault Refusal :=
  let i := pktF p 1 0 4
  let r := pktF p 1 8 4
  let n := pktF p 3 0 5
  .next (s.request p true (pktClear p 16 [4, 5, 6, 7] && pktF p 1 4 4 == 0 && pktF p 1 12 52 == 0 && pktF p 3 5 59 == 0 &&
      decide (i ≤ 8 ∧ r ≤ 10 ∧ 4 ≤ n ∧ n ≤ 16) && (i != 8 || r == 0 || r == 9 || r == 10) &&
      (pktWord p 2).toNat % (ringEntry r * 2 ^ n) == 0)
    (match s.host.ifaces[i]? with
    | none => s.answer p refused 0
    | some f =>
      if f.ringBusy r then s.answer p refused 0
      else
        let f := { f with rings := f.rings.set r (some ⟨(pktWord p 2).toNat, n, 0, 0⟩) }
        let f := if r = 0 then { f with chead := 0 } else if r = 10 then { f with events := 0, ehead := 0 } else f
        let s := { s with host := { s.host with ifaces := s.host.ifaces.set i f } }
        ((if r = 10 then s.flushEvents i else s).answer p 0 0)))

/-- EVCTR (R372). -/
def State.evctr (s : State) (p : Packet) (op : Nat) : State :=
  s.ctxRequest p false (pktClear p 16 [3, 4, 5, 6, 7] && pktF p 1 9 55 == 0) fun c =>
    (s.bumpCounter c.id (pktF p 1 0 8) op (pktWord p 2)).answer p 0 0

/-- EVCTR, P1[8] = 0: set (R372). -/
def execEvctrSet (p : Packet) (s : State) : Host.Outcome State Fault Refusal := .next (s.evctr p 0)

/-- EVCTR, P1[8] = 1: add (R372). -/
def execEvctrAdd (p : Packet) (s : State) : Host.Outcome State Fault Refusal := .next (s.evctr p 1)

/-! ### PASIDs (R375) -/

/-- R375: the PASID is granted to the interface. -/
def State.granted (s : State) (pasid iface : Nat) : Bool := s.host.pasids.contains (pasid, iface)

def pasidOk (p : Packet) : Bool :=
  pktClear p 16 [3, 4, 5, 6, 7] && pktF p 1 20 44 == 0 && pktF p 2 3 5 == 0 && pktF p 2 9 55 == 0

/-- PASID, P2[8] = 1 (R375). -/
def execPasidGrant (p : Packet) (s : State) : Host.Outcome State Fault Refusal :=
  let e := (pktF p 1 0 20, pktF p 2 0 3)
  .next (s.request p true (pasidOk p)
    ({ s with host := { s.host with
        pasids := s.host.pasids.filter (fun x => x != e) ++ [e]
        revoked := s.host.revoked.filter fun x => x != e.1 } }.answer p 0 0))

/-- PASID, P2[8] = 0 (R375): a PASID granted to no interface any more is revoked. (DEDUCED, log 42) -/
def execPasidRevoke (p : Packet) (s : State) : Host.Outcome State Fault Refusal :=
  let e := (pktF p 1 0 20, pktF p 2 0 3)
  let left := s.host.pasids.filter fun x => x != e
  let gone := s.host.pasids.contains e && !left.any fun x => x.1 == e.1
  .next (s.request p true (pasidOk p)
    ({ s with host := { s.host with
        pasids := left
        revoked := if gone then s.host.revoked.filter (fun x => x != e.1) ++ [e.1] else s.host.revoked } }.answer p 0 0))

/-! ### DESTROY (R287, R339, R370) -/

/-- R339: the context's pressed bins start to drain. -/
def State.drainBins (s : State) (ctx : Nat) : State :=
  { s with bins := s.bins.map fun (b : Bin) => if b.owner == ctx && b.st == .press then { b with st := .draining } else b }

/-- The context's grids have ended and its bins are caches again. -/
def State.ctxQuiet (s : State) (ctx : Nat) : Bool :=
  !(s.grids.any fun g => g.ctx == ctx) && !s.bins.any fun b => b.owner == ctx && b.st != .cache

/-- R370: the context is freed, with its tables, translations, stops and faults. (DEDUCED, log 43) -/
def State.freeCtx (s : State) (ctx : Nat) : State :=
  let s := s.dropTlb fun e => e.ctx == ctx
  { s with
    tabs := s.tabs.filter fun v => v.ctx != ctx
    sch := { s.sch with
      ctxs := s.sch.ctxs.filter fun c => c.id != ctx
      stops := s.sch.stops.filter fun e => e.ctx != ctx
      hfaults := s.sch.hfaults.filter fun h => h.ctx != ctx } }

/-- DESTROY (R370): the grids are aborted and the bins drained; when that is over, the context is freed. (DEDUCED, log 43) -/
def execDestroy (p : Packet) (s : State) : Host.Outcome State Fault Refusal :=
  match s.slowOf p with
  | some (_, _, _, ctx, _) =>
    let s := s.drainBins ctx
    if s.ctxQuiet ctx then .next ((s.freeCtx ctx).endSlow p 0) else .next s
  | none =>
    .next (s.ctxRequest p true (pktClear p 16 [1, 2, 3, 4, 5, 6, 7]) fun c =>
      let s := (s.grids.filter fun g => g.ctx == c.id).foldl (fun s g => s.abortGrid g.uid) s
      (s.drainBins c.id).addSlow p 0)

/-! ### Clocks (R18, R371) -/

def State.modDie (s : State) (d : Nat) (f : Die → Die) : State := { s with dies := s.dies.modify d f }

/-- R371: a die has reached the selected setting, or is held below it by heat. -/
def Die.settled (d : Die) : Bool := d.setting == min d.selected d.heat

/-- R371: every die of a mask is settled. -/
def State.clockDone (s : State) (mask : Nat) : Bool := (List.range 4).all fun d => mask / 2 ^ d % 2 == 0 || (s.die d).settled

/-- R371: DATA of the completion record: the setting in force on each die. (DEDUCED, log 44) -/
def State.clockData (s : State) : Nat := ((List.range 4).map fun d => (s.die d).setting * 2 ^ (4 * d)).sum

/-- CLOCK (R371). -/
def execClock (p : Packet) (s : State) : Host.Outcome State Fault Refusal :=
  match s.slowOf p with
  | some (_, _, _, _, mask) => if s.clockDone mask then .next (s.endSlow p s.clockData) else .next s
  | none =>
    let mask := pktF p 1 0 4
    let v := pktF p 2 0 4
    .next (s.request p true (pktClear p 16 [3, 4, 5, 6, 7] && pktF p 1 4 60 == 0 && pktF p 2 4 60 == 0 && mask != 0 && decide (v ≤ 10))
      ((List.range 4).foldl (fun s d => if mask / 2 ^ d % 2 = 1 then s.modDie d fun x => { x with selected := v } else s) s |>.addSlow p mask))

/-- R18: a new setting is in force; a cycle in progress ends at the old one. -/
def Die.change (d : Die) (v : Nat) : Die := { d with setting := v, target := v, cycle := if d.frac = 0 then v else d.cycle }

/-- R18, R390: the change of a die's clock, with its SYNC record. -/
def State.setClock (s : State) (d v : Nat) : State :=
  let s := s.modDie d fun x => x.change v
  if s.trace.flags.getLsbD 0 then s.resync.traceSync d true else s

/-- CLOCK_CHANGE (R18): at a heartbeat tick, the setting that the tick found takes effect. -/
def execClockChange (die : Nat) (s : State) : Host.Outcome State Fault Refusal :=
  let d := s.die die
  if s.gtime % 256 ≠ 0 ∨ d.setting = d.target then .next s else .next (s.setClock die d.target)

/-- UNKNOWN_CONTROL_PACKET (R370): BADTYPE; REFUSED while the module is not READY (R400). -/
def execUnknownControlPacket (p : Packet) (s : State) : Host.Outcome State Fault Refusal :=
  .next (s.answer p (if s.boot.st == .ready then 1 else refused) 0)

end Sys2Proof.Machine
end

