-- ==== Sys2Proof/Machine/Rings.lean ====
section
/-! DEFINITION. Doorbells: the fetch of packets from a ring, and where they go (R369, R373, R374, R400). -/

namespace Sys2Proof.Machine

/-! ### Doorbells (R369) -/

/-- R369: a doorbell value is neither behind the tail nor more than the ring's size ahead of the fetched index. -/
def Ring.accepts (r : Ring) (tail : Nat) : Bool := decide (r.tail ≤ tail ∧ tail ≤ r.head + 2 ^ r.log)

/-- R369: the packets in a ring's slots, each with its ring index, its interface and the PASID of the doorbell. -/
def tagged (iface head : Nat) (pasid : BitVec 20) (ps : List Packet) : List Packet :=
  ps.zipIdx.map fun (p, j) => { p with iface := iface, index := head + j, pasid := pasid }

/-- The interface fetches what the doorbell announces: the new state and the packets. The slots' contents come with the
doorbell, one packet for each slot. (DESIGN CHOICE, log 9) -/
def State.fetchRing (s : State) (iface r : Nat) (tail : DWord) (pasid : Option (BitVec 20)) (ps : List Packet) :
    Option (State × List Packet) :=
  match pasid, s.host.ifaces[iface]? with
  | some x, some f =>
    (match f.rings.getD r none with
    | none => none
    | some g =>
      if !g.accepts tail.toNat || ps.length != tail.toNat - g.head then none
      else
        let f' := { f with
          rings := f.rings.set r (some { g with head := tail.toNat, tail := tail.toNat })
          chead := if r = 0 then tail.toNat else f.chead }
        some ({ s with host := { s.host with ifaces := s.host.ifaces.set iface f' } }, tagged iface g.head x ps))
  | _, _ => none

/-! ### Control packets (R370) -/

/-- R276, R370: the request that a packet of a control ring makes. (DEDUCED, log 42) -/
def requestOf (p : Packet) : Instr :=
  match pktType p with
  | 0x10 => .grant p
  | 0x11 => .stop p
  | 0x12 => (match pktF p 0 16 2 with
    | 0 => .faultreplyRetry p
    | 1 => .faultreplyDeliver p
    | 2 => .faultreplyAbort p
    | _ => .faultreplyRefused p)
  | 0x20 => .ctxdesc p
  | 0x21 => .tabledesc p
  | 0x22 => .tlbinv p
  | 0x23 => .ncrange p
  | 0x24 => .dedicate p
  | 0x25 => .group p
  | 0x26 => .domain p
  | 0x27 => .qrestart p
  | 0x28 => if pktF p 2 8 1 = 1 then .pasidGrant p else .pasidRevoke p
  | 0x29 => .destroy p
  | 0x2A => .clock p
  | 0x2B => if pktF p 2 16 1 = 1 then .qbindBind p else .qbindUnbind p
  | 0x2C => .ringcfg p
  | 0x2D => if pktF p 1 8 1 = 1 then .evctrAdd p else .evctrSet p
  | _ => .unknownControlPacket p

/-- R368, R370: types that only the admin interface may use. -/
def adminType (t : Nat) : Bool := [0x10, 0x11, 0x12, 0x20, 0x23, 0x24, 0x26, 0x28, 0x29, 0x2A, 0x2B, 0x2C].contains t

/-- R373, R374, R400: what becomes of a fetched control packet: a refusal, or its request, which comes next. -/
def State.takeControl (s : State) (p : Packet) : State × List Instr :=
  if s.boot.st != .ready then (s.answer p refused 0, [])
  else if !s.mayAsk p (adminType (pktType p)) then (s, [requestOf p])
  else if p.iface != 8 && !s.granted p.pasid.toNat p.iface then (s.answer p pasidRevoked 0, [])
  else (s, [requestOf p])

/-- CDB (R369): the control ring's packets are fetched; their requests are carried out next, in ring order. (DESIGN CHOICE, log 9) -/
def execCdb (iface : Nat) (tail : DWord) (pasid : Option (BitVec 20)) (ps : List Packet) (s : State) :
    Host.Outcome State Fault Refusal :=
  match s.fetchRing iface 0 tail pasid ps with
  | none => .next s
  | some (s, ps) =>
    let (s, is) := ps.foldl (fun (s, is) p => let (s, i) := s.takeControl p; (s, is ++ i)) (s, [])
    .next { s with agenda := is.map (fun i => (0, i)) ++ s.agenda }

/-! ### Launch packets -/

/-- The launch queue bound to a ring (R372). -/
def State.queueOfRing (s : State) (iface ring : Nat) : Option Nat :=
  s.sch.queues.findIdx? fun q => match q.bind with
    | some (_, _, i, r) => i == iface && r == ring
    | none => false

/-- R372, R374, R375, R400: what becomes of a fetched launch packet. (DEDUCED, log 45) -/
def State.takeLaunch (s : State) (ring : Nat) (p : Packet) : State :=
  if s.boot.st != .ready then s.complete p.iface p.index (pktType p) refused 0
  else if !s.granted p.pasid.toNat p.iface then s.complete p.iface p.index (pktType p) pasidRevoked 0
  else
    match s.queueOfRing p.iface ring with
    | none => s.complete p.iface p.index (pktType p) refused 0
    | some q => s.modQueue q fun k => k.enter p.iface ring p.index p.w

/-- LDB (R369): the packets of a launch ring are fetched and enter the bound queue. (DESIGN CHOICE, log 9) -/
def execLdb (iface ring : Nat) (tail : DWord) (pasid : Option (BitVec 20)) (ps : List Packet) (s : State) :
    Host.Outcome State Fault Refusal :=
  if ring ≥ 8 then .next s
  else
    match s.fetchRing iface (ring + 1) tail pasid ps with
    | none => .next s
    | some (s, ps) => .next (ps.foldl (fun s p => s.takeLaunch ring p) s)

end Sys2Proof.Machine
end

