-- ==== Sys2Proof/Machine/Links.lean ====
section
/-! DEFINITION. Verene Link: flits from peers, their answers, reduce-writes, and failures (R378 to R382). -/

namespace Sys2Proof.Machine

/-! ### Peers' accesses (R379, R380) -/

/-- R379: an address of the export context: the line, the byte in it and the attributes, or the fault. -/
def State.exported (s : State) (off n : Nat) (write : Bool) : Except Code (LineId × Nat × BitVec 16) :=
  match s.link.exportCtx with
  | none => .error .translation
  | some ctx =>
    if n = 0 ∨ off % 128 + n > 128 then .error .align
    else
      match s.engPlace 0 ctx off write with
      | .line l o a _ => if (List.range n).all fun i => (s.storageAt ctx (off + i)).isSome then .ok (l, o, a) else .error .notable
      | .fault c => .error c
      | _ => .error .translation

/-- A request for a peer enters the pool: uncached, by no core of this module (R380). (DESIGN CHOICE, log 67) -/
def State.peerReq (s : State) (l : LineId) (a : BitVec 16) (ops : List LineOp) (deps : List Nat) : State × Nat :=
  s.addReq ⟨0, 0, 256, 0, 0, s.link.exportCtx.getD 256, l, attrNc a, .atHome, ops, 0, true, deps, none, false, false, 0, [], []⟩

/-- The flit is answered when its last request has been performed. -/
def State.owe (s : State) (id : Nat) (f : Flit) : State := { s with link := { s.link with inb := s.link.inb ++ [(id, f)] } }

/-- R379: the answer to a flit that faults, or that only asks. -/
def State.deny (s : State) (f : Flit) (c : Option Code) : State :=
  s.sendFlit (answerFlit f (BitVec.ofNat 6 s.link.own) (answerKind f) (match c with
    | some c => c.num
    | none => 0) [])

/-- R378, R379: one operation for a peer. (DESIGN CHOICE, log 67) -/
def State.servePeer (s : State) (f : Flit) (n : Nat) (write : Bool) (ops : Nat → List LineOp) : State :=
  match s.exported f.off.toNat n write with
  | .error c => s.deny f (some c)
  | .ok (l, o, a) =>
    let (s, id) := s.peerReq l a (ops o) []
    s.owe id f

/-- R400, R403: the links are in service. -/
def State.linked (s : State) : Bool := s.boot.st == .ready

/-- RDREQ (R379, R380): the answer carries the line, with its poison (R405). (DEDUCED, log 66) -/
def execRdreq (f : Flit) (s : State) : Host.Outcome State Fault Refusal :=
  if !s.linked then .next s else .next (s.servePeer f 1 false fun _ => [.fetch])

/-- R380, R405: the bytes of a flit written from byte `o` of a line on, with their poison. -/
def Flit.stores (f : Flit) (o : Nat) : List LineOp := [.write o f.payload, .taint (f.poison &&& touched o f.payload.length)]

/-- WR (R379, R380). -/
def execWr (f : Flit) (s : State) : Host.Outcome State Fault Refusal :=
  if !s.linked then .next s else .next (s.servePeer f f.payload.length true (Flit.stores f))

/-- R383, R384: the count barrier that a WRCB names. -/
def State.peerBarrier (s : State) (cb : Nat) : Except Code (LineId × BitVec 16) :=
  if cb % 128 ≠ 0 then .error .align
  else
    match s.exported cb 8 true with
    | .error c => .error c
    | .ok (l, _, a) => if attrCoh a = 2 ∨ attrLvl a = 2 then .ok (l, a) else .error .permission

/-- R383: the increment, after the data is performed. -/
def State.peerCount (s : State) (f : Flit) (l : LineId) (a : BitVec 16) (deps : List Nat) : State :=
  let (s, id) := s.peerReq l a [.cbInc 0 [0]] deps
  s.owe id f

/-- WRCB (R185, R383): the data is written, then COUNT grows by 1. A flit without data asks whether the object may be counted at.
(DESIGN CHOICE, log 60) -/
def execWrcb (f : Flit) (s : State) : Host.Outcome State Fault Refusal :=
  if !s.linked then .next s
  else
    match s.peerBarrier (fld f.h2 0 42) with
    | .error c => .next (s.deny f (some c))
    | .ok (l, a) =>
      if f.payload.isEmpty then .next (s.deny f none)
      else
        match s.exported f.off.toNat f.payload.length true with
        | .error c => .next (s.deny f (some c))
        | .ok (m, o, b) =>
          let (s, id) := s.peerReq m b (Flit.stores f o) []
          .next (s.peerCount f l a [id])

/-- R103: the type of a code. -/
def tyOf (n : Nat) : Ty :=
  ([.i32, .n32, .i64, .n64, .i16, .n16, .i8, .n8, .b32, .b64, .f32, .f16, .bf16, .e4m3, .e5m2, .d2p8] : List Ty).getD n .i32

/-- R188: the operation of a code. -/
def atomOf (n : Nat) : Option AtomOp := ([.add, .min, .max, .and, .or, .xor, .exch, .inc, .dec] : List AtomOp)[n]?

/-- R378: the operation that an ATOM flit asks for: its width, and the operation at a byte of a line. -/
def flitOp (f : Flit) : Option (Nat × (Nat → LineOp)) :=
  if f.op = 15 then
    let n := if f.typ = 1 then 4 else if f.typ = 3 then 8 else if f.typ = 9 then 16 else 0
    if n ≠ 0 ∧ f.payload.length = 2 * n then some (n, fun o => .cas 0 o n (f.payload.take n) (f.payload.drop n) 0) else none
  else
    let t := tyOf f.typ.toNat
    match atomOf f.op.toNat with
    | some op => if op.types t && f.payload.length == t.bytes then
        some (t.bytes, fun o => .atom 0 o op t (BitVec.ofNat 64 (leNat f.payload)) none) else none
    | none => none

/-- A flit of no kind, or an ATOM that names no operation: dropped, and the host is told (R376, R378). -/
def State.dropFlit (s : State) (f : Flit) : State := (s.send (.linkError f.port)).msix 8 3

/-- ATOM (R379, R380): indivisible at the home. (DESIGN CHOICE, log 67) -/
def execAtomFlit (f : Flit) (s : State) : Host.Outcome State Fault Refusal :=
  if !s.linked then .next s
  else
    match flitOp f with
    | none => .next (s.dropFlit f)
    | some (n, op) =>
      if f.off.toNat % n ≠ 0 then .next (s.deny f (some .align))
      else .next (s.servePeer f n true fun o => [op o])

/-! ### Answers (R378 to R380) -/

/-- The access that an answer is for. -/
def State.asked (s : State) (f : Flit) : Option PeerReq := s.link.out.find? fun p => p.id == f.id.toNat && p.flit.isNone

def State.unask (s : State) (p : PeerReq) : State :=
  { s with link := { s.link with out := s.link.out.filter fun q => q.req != p.req } }

/-- R185: the operation asks whether a count barrier may be counted at. -/
def LineOp.probes : LineOp → Bool
  | .cbInc _ ls => ls.isEmpty
  | _ => false

/-- R185: the answer about a count barrier is noted in the warp that asked. -/
def State.noteCb (s : State) (p : PeerReq) (code : Nat) : State :=
  s.modWarpU p.warp fun w => { w with walked := w.walked ++ [(cbNote p.va code, true)] }

/-- R185: a lane whose data store failed is not counted at the barrier of its instruction: neither here, nor by a flit that has not
left. -/
def State.uncount (s : State) (warp pend : Nat) (lanes : List Nat) : State :=
  let cut := fun (o : LineOp) => match o with
    | .cbInc off ls => .cbInc off (ls.filter fun l => !lanes.contains l)
    | o => o
  let s := s.modMem fun m => { m with queue := m.queue.map fun (q : HomeReq) =>
    if q.warp = warp ∧ q.pend = pend then { q with ops := q.ops.map cut } else q }
  let gone := s.link.out.filter fun q => q.warp == warp && q.pend == pend && lanes.contains q.lane && q.flit.isSome && (match q.op with
    | .cbInc .. => true
    | _ => false)
  gone.foldl (fun s q => (s.unask q).finishReq q.core q.warp q.pend q.req []) s

/-- R379, R380: an access that a peer refused, or whose answer is lost: its lane faults, or its engine is told. (DEDUCED, log 68) -/
def State.peerFails (s : State) (p : PeerReq) (c : Code) : State :=
  let s := s.unask p
  if p.warp = 0 then s.hostDone p.req (some [BitVec.ofNat 8 c.num]) 0
  else if p.op.probes then s.noteCb p c.num
  else
    let pc := match (s.warpU p.warp).bind fun w => w.pend.find? fun q => q.id == p.pend with
      | some q => q.pc
      | none => 0
    let cut := fun (q : Pend) => if q.id = p.pend then
      { q with writes := q.writes.filter fun r => !(perLane r.key && r.lane == p.lane) } else q
    let s := ((s.uncount p.warp p.pend [p.lane]).finishReq p.core p.warp p.pend p.req []).modWarpU p.warp fun w => { w with pend := w.pend.map cut }
    s.raiseLanes p.warp pc [⟨p.lane, c, p.va⟩]

/-- An answer without fault, with the poisoned sectors of its line (R405). -/
def State.peerDone (s : State) (p : PeerReq) (d : List Byte) (q : BitVec 4) (rs : List LaneRes) : State :=
  let s := s.unask p
  if p.warp = 0 then s.hostDone p.req (some d) q
  else if p.op.probes then s.noteCb p 0
  else s.finishReq p.core p.warp p.pend p.req rs

/-- An answer to an access of this module. -/
def State.answered_ (s : State) (f : Flit) (ok : LineOp → Bool) (rs : LineOp → List LaneRes) : State :=
  match s.asked f with
  | none => s
  | some p =>
    if !ok p.op then s
    else if f.status ≠ 0 then s.peerFails p ((codeOf f.status.toNat).getD .machineCheck)
    else s.peerDone p f.payload f.poison (rs p.op)

/-- The bytes of a line that a read asked for. -/
def readPart (op : LineOp) (d : List Byte) : List Byte :=
  match op with
  | .read _ off size _ _ => slice d off size
  | _ => d

/-- RDRSP (R378). -/
def execRdrsp (f : Flit) (s : State) : Host.Outcome State Fault Refusal :=
  .next (s.answered_ f (fun op => !op.writes) fun op => [hostRes op (readPart op f.payload) f.poison])

/-- ATOMRSP (R378). -/
def execAtomrsp (f : Flit) (s : State) : Host.Outcome State Fault Refusal :=
  .next (s.answered_ f (fun op => match op with
    | .atom .. => true
    | .cas .. => true
    | .cbInc .. => true
    | _ => false) fun op => match op with
    | .cbInc .. => []
    | op => [hostRes op f.payload 0])

/-- WRACK (R380): the store is performed at `.SYS`. -/
def execWrack (f : Flit) (s : State) : Host.Outcome State Fault Refusal :=
  .next (s.answered_ f (fun op => match op with
    | .write .. => true
    | .cbInc .. => true
    | _ => false) fun _ => [])

/-! ### The rest -/

/-- RWRITE (R378, R382): a member's contribution to a chunk; each enters once, a poisoned one without its bytes (R405). -/
def execRwrite (f : Flit) (s : State) : Host.Outcome State Fault Refusal :=
  let key := f.grp.toNat * 16 + f.chunk.toNat
  let rank := fld f.h2 0 6
  if !s.linked || s.link.parts.any fun p => p.1 == key && p.2.1 == rank && p.2.2.1 == f.off.toNat then .next s
  else .next { s with link := { s.link with parts := s.link.parts ++
    [(key, rank, f.off.toNat, if f.poison = 0 then f.payload else [])] } }

/-- CREDIT (R378): flow control of the link; nothing that a program can see changes. -/
def execCredit (_f : Flit) (s : State) : Host.Outcome State Fault Refusal := .next s

/-- A flit of an unassigned kind (R378), where the links are in service (R400). -/
def execUnknownFlit (f : Flit) (s : State) : Host.Outcome State Fault Refusal :=
  if !s.linked then .next s else .next (s.dropFlit f)

/-- A flit that fails its CRC is retried (R378): it arrives later, with the same effect. -/
def execFlitCrcRetry (_f : Flit) (s : State) : Host.Outcome State Fault Refusal := .next s

/-- R382: a port has failed while collectives are under way: flits of theirs may be lost. -/
def State.markLoss (s : State) : State :=
  let mark := fun (c : Cmd) => if c.code = 0x40 ∧ c.phase = .running then { c with card := { c.card with bad := true } } else c
  { s with cores := s.cores.map fun (k : Core) => { k with queues := k.queues.map fun q => q.map mark } }

/-- R380, R404, R406: a port leaves the live ports; what awaits an answer on it completes with MACHINE_CHECK. (DEDUCED, log 68) -/
def State.failPort (s : State) (port : Nat) : State :=
  if !s.link.live.getLsbD port then s
  else
    let s := { s with link := { s.link with live := s.link.live &&& ~~~(1#16 <<< port) } }
    let s := s.markLoss.machineRecord 0xFF 2 0 port
    (s.link.out.filter fun p => p.port == port).foldl (fun s p => s.peerFails p .machineCheck) s

/-- PORT_FAILURE (R380). (DEDUCED, log 68) -/
def execPortFailure (port : Nat) (s : State) : Host.Outcome State Fault Refusal := .next (s.failPort port)

end Sys2Proof.Machine
end

