-- ==== Sys2Proof/Machine/Debug.lean ====
section
/-! DEFINITION. Time and the heartbeat (R18 to R20, R208), the trace page, counters and SYNC records (R387 to R392), and the debugger
(R395 to R397). -/

namespace Sys2Proof.Machine

/-! ### Time (R18, R19) -/

/-- Units of a die's clock in one ns. -/
def clockUnit : Nat := 25237812600

/-- R18, R371: the cycle of a setting, in those units: 1,000 ÷ (700 + 35 × s) ns. -/
def period (setting : Nat) : Nat := 721080360000 / (20 + setting)

/-- R18: a die's clock runs on for `dt` ns; the cycle in progress ends at its own setting. -/
def Die.pass (d : Die) (dt : Nat) : Die :=
  let u := d.frac + clockUnit * dt
  let p := period d.cycle
  if u < p then { d with frac := u }
  else
    let q := period d.setting
    { d with clk := d.clk + 1 + (u - p) / q, frac := (u - p) % q, cycle := d.setting }

/-! ### Cycles of use and of stall (R389, R391) -/

/-- A run of the core is in execution; every one of them waits. -/
def State.issueUse (s : State) (core : Nat) : Bool × Bool :=
  let rs := (s.warps.filter fun w => w.core == core).filterMap Warp.run
  (!rs.isEmpty, !rs.isEmpty && rs.all Run.blocked)

/-- A card is on the array; it waits for another unit. -/
def State.arrayUse (s : State) (core : Nat) : Bool × Bool :=
  match (s.core core).array with
  | none => (false, false)
  | some n => (true, s.engPending (engKey core 0 n))

/-- A command is in progress: it has begun and is not done, or its writes are still to be performed. -/
def State.working (s : State) (core : Nat) (c : Cmd) : Bool :=
  (s.begun core c && !c.phase.isFinished) || s.engPending (engKey core c.q c.id)

/-- A command of a queue is in progress on a die; all of them wait for another unit. -/
def State.queueUse (s : State) (die q : Nat) (is : Cmd → Bool) : Bool × Bool :=
  let cs := (List.range 64).flatMap fun i =>
    (((s.core (64 * die + i)).queues.getD q []).filter fun c => s.working (64 * die + i) c && is c).map fun c => (64 * die + i, c)
  (!cs.isEmpty, !cs.isEmpty && cs.all fun (k, c) => s.engPending (engKey k q c.id))

/-- R389: the index engine of a die has a BUILD or a table instruction of a core in progress; all of them wait for the host or for homes. -/
def State.indexUse (s : State) (die : Nat) : Bool × Bool :=
  let ps := ((s.warps.filter fun w => w.core / 64 == die).flatMap Warp.pend).filter fun p => (p.kind == .table || p.kind == .tadd) && !p.wb
  let b := s.queueUse die 4 fun _ => true
  (b.1 || !ps.isEmpty, (b.1 || !ps.isEmpty) && (!b.1 || b.2) && ps.all fun p => !p.reqs.isEmpty)

/-- A use that is one unit's, as numbers. -/
def oneUse (b : Bool × Bool) : Nat × Nat := (if b.1 then 1 else 0, if b.2 then 1 else 0)

/-- R389: the MSUs of a die with work in progress, and those of which all work waits for another unit. -/
def State.msuUse (s : State) (die : Nat) : Nat × Nat :=
  let cs := s.cores.zipIdx.flatMap fun ((k : Core), i) =>
    (((k.queues.getD 1 [] ++ k.queues.getD 2 []).filter fun c => s.working i c).map fun c => (s.msusOf i c, s.engPending (engKey i c.q c.id)))
  let on := fun (p : List Nat × Bool) (h : Nat) => p.1.contains h
  let busy := (List.range 32).filter fun i => cs.any fun p => on p (32 * die + i)
  (busy.length, (busy.filter fun i => cs.all fun p => !on p (32 * die + i) || p.2).length)

/-- R389: the ports of a die with accesses under way, and those of which every access still waits to leave. -/
def State.portUse (s : State) (die : Nat) : Nat × Nat :=
  let of := fun (i : Nat) => s.link.out.filter fun p => p.port == 4 * die + i
  let busy := (List.range 4).filter fun i => !(of i).isEmpty
  (busy.length, (busy.filter fun i => (of i).all fun p => p.flit.isSome).length)

/-- R389: a bin has operations to perform; the first waits for the host's copies to come back. -/
def State.binUse (s : State) (b : Nat) : Bool × Bool :=
  (!(s.bin b).ops.isEmpty, s.engPending (binKey b))

/-- R389: the launch unit has a team to place; no core can take one. -/
def State.launchUse (s : State) (die : Nat) : Bool × Bool :=
  let qs := s.queueOrder die
  let waits := s.grids.any fun g => !g.aborted && decide (g.next < g.f.griddim)
  let some_ := qs.any fun q => (s.savedCand q).isSome || (s.freshCand q).isSome
  (waits || some_, waits && !some_)

/-- R389: the units of a die, W2 to W13 of a UNITS record: how many are busy, how many stall. (DEDUCED, log 70) -/
def State.unitUse (s : State) (die : Nat) : List (Nat × Nat) :=
  let all := fun (_ : Cmd) => true
  [oneUse (s.indexUse die), oneUse (s.launchUse die), oneUse (s.queueUse die 1 fun c => c.xf == 0), oneUse (s.queueUse die 3 all)] ++
    ((List.range 6).map fun i => oneUse (s.binUse (6 * die + i))) ++ [s.msuUse die, s.portUse die]

def bump (n : Nat) (u : Nat × Nat) (b : Nat × Nat) : Nat × Nat :=
  (min (2 ^ 32 - 1) (u.1 + n * b.1), min (2 ^ 32 - 1) (u.2 + n * b.2))

/-- R389, R392: cycles that pass are counted where counters are recorded; `cs`: the cycles of each die. -/
def State.countUse (s : State) (cs : List Nat) : State :=
  if !s.trace.flags.getLsbD 1 then s
  else
    let n := fun (core : Nat) => cs.getD (core / 64) 0
    let units := s.trace.units.zipIdx.map fun (us, d) => List.zipWith (fun u b => bump (cs.getD d 0) u b) us (s.unitUse d)
    let cores := s.cores.zipIdx.map fun ((k : Core), i) => { k with
      issueUse := bump (n i) k.issueUse (oneUse (s.issueUse i)), arrayUse := bump (n i) k.arrayUse (oneUse (s.arrayUse i)) }
    let ready := fun c => s.warps.any fun w => w.core == c && s.choosable w
    let idle := if s.trace.evsel.contains 4 then (List.range 256).filter ready else []
    let s := { s with cores := cores, trace := { s.trace with units := units } }
    idle.foldl (fun s c => s.count c 4 (n c)) s

/-- R18, R19: `dt` ns pass. (DESIGN CHOICE, log 13) -/
def State.pass (s : State) (dt : Nat) : State :=
  if dt = 0 then s
  else
    let ds := s.dies.map fun d => d.pass dt
    let s := s.countUse (List.zipWith (fun a b => a.clk - b.clk) ds s.dies)
    { s with gtime := s.gtime + dt, dies := ds }

/-- HEARTBEAT_TICK (R20): GTIME[7:0] becomes 0: clock changes take effect (R18, R371), and FENCE.SC waits that are over are put in
order (R208). -/
def execHeartbeatTick (s : State) : Host.Outcome State Fault Refusal :=
  let s := s.pass (256 - s.gtime % 256)
  .next { s with
    dies := s.dies.map fun d => { d with target := min d.selected d.heat }
    warps := s.warps.map Warp.tickFence }

/-! ### Counters and SYNC (R389 to R391) -/

/-- Two counts in a word. -/
def useWord (u : Nat × Nat) : Nat := u.2 + u.1 * 2 ^ 32

/-- R389: the COUNTERS record of a core. -/
def State.countersRec (s : State) (c : Nat) : State :=
  let k := s.core c
  let hb := s.gtime / 256
  s.traceRec 2 ([traceHead 2 s.trace.ctx (c / 64) (c % 64) hb 2, hb, useWord k.issueUse, useWord k.arrayUse] ++
    (List.range 8).map fun i => k.ev.getD (2 * i) 0 + k.ev.getD (2 * i + 1) 0 * 2 ^ 32)

/-- R389: the UNITS record of a die. -/
def State.unitsRec (s : State) (d : Nat) : State :=
  let hb := s.gtime / 256
  s.traceRec 3 ([traceHead 3 s.trace.ctx d 64 hb 3, hb] ++ (s.trace.units.getD d []).map useWord)

/-- R391: a latch falls due. -/
def State.latchDue (s : State) : Bool :=
  s.trace.flags.getLsbD 1 && s.gtime % 2 ^ s.trace.k == 0 && s.trace.latched != s.gtime

/-- COUNTERS_LATCH (R391): the records are written, where tracing is on (R387), and the counts start again. -/
def execCountersLatch (s : State) : Host.Outcome State Fault Refusal :=
  if !s.latchDue then .next s
  else
    let s := if s.trace.flags.getLsbD 0 then (List.range 4).foldl State.unitsRec ((List.range 256).foldl State.countersRec s) else s
    .next { s with
      cores := s.cores.map fun (k : Core) => { k with issueUse := (0, 0), arrayUse := (0, 0), ev := k.ev.map fun _ => 0 }
      trace := { s.trace with latched := s.gtime, units := s.trace.units.map fun us => us.map fun _ => (0, 0) } }

/-- R390: GTIME when a die's cycle count last reached a multiple of 2^16, and that count. (DEDUCED, log 70) -/
def State.syncPoint (s : State) (d : Die) : Nat × Nat :=
  let ago := d.clk % 65536 * period d.setting + d.frac
  (s.gtime - (ago + clockUnit - 1) / clockUnit, d.clk / 65536 * 65536)

/-- SYNC (R390): CLK[15:0] of the die has become 0. -/
def execSync (die : Nat) (s : State) : Host.Outcome State Fault Refusal :=
  let d := s.die die
  if d.synced = d.clk / 65536 then .next s
  else
    let (g, c) := s.syncPoint d
    let s := s.modDie die fun x => { x with synced := d.clk / 65536 }
    if s.trace.flags.getLsbD 0 then
      .next (s.resync.traceRaw 0 [traceHead 1 s.trace.ctx die 64 c 0, g, c % 2 ^ 64, mhzOf d.setting])
    else .next s

/-! ### The trace page (R387) -/

/-- R387: tracing can be turned on: DEST names a flat table of the context, a multiple of 128 and at least 4 KiB long. -/
def State.destOk (s : State) (ctx : Nat) : Bool :=
  match s.current ctx s.trace.dest with
  | some v => v.kind == 1 && v.len % 128 == 0 && decide (v.len ≥ 4096)
  | none => false

/-- R387, R394: the word at 0x000; where RPL is cleared, or set anew, no grid is captured until the next one starts. (DEDUCED, log 71) -/
def State.writeControl (s : State) (v : DWord) : State :=
  let ctx := fld v 24 8
  let k := fld v 16 5
  let on := v.getLsbD 0
  if on && !s.destOk ctx then s
  else
    let goesOn := v.getLsbD 4 && s.trace.flags.getLsbD 4
    { s with
      grids := if goesOn then s.grids else s.grids.map fun (g : Grid) => { g with capture := false }
      trace := { s.trace with
        ctx := ctx
        k := if 8 ≤ k ∧ k ≤ 20 then k else s.trace.k
        flags := v.truncate 6
        armed := v.getLsbD 4 && (s.trace.armed || !s.trace.flags.getLsbD 4) } }

/-- R387: what a read of the trace page returns: to the admin interface its fields, to another 0. -/
def State.readTrace (s : State) (admin : Bool) (off : Nat) : DWord :=
  let t := s.trace
  let w := (s.core (t.dsel / 256 % 256)).watch
  if !admin then 0
  else if off = 0x000 then BitVec.ofNat 64 (t.flags.toNat + t.k % 32 * 2 ^ 16 + t.ctx % 256 * 2 ^ 24)
  else if off = 0x008 then BitVec.ofNat 64 t.dest
  else if off = 0x010 then BitVec.ofNat 64 t.widx
  else if off = 0x018 then BitVec.ofNat 64 t.ridx
  else if off = 0x020 then BitVec.ofNat 64 t.lost
  else if off = 0x028 then BitVec.ofNat 64 (t.rteam + t.rq * 2 ^ 32)
  else if off = 0x040 then BitVec.ofNat 64 (leNat ((t.evsel.take 8).map (BitVec.ofNat 8)))
  else if off = 0x048 then BitVec.ofNat 64 (leNat ((t.evsel.drop 8).map (BitVec.ofNat 8)))
  else if 0x080 ≤ off ∧ off < 0x100 ∧ off % 8 = 0 then
    match t.bps[(off - 0x080) / 16]? with
    | some b => if off % 16 = 0 then BitVec.ofNat 64 (b.pc + b.seq * 2 ^ 32) else BitVec.ofNat 64 (b.core + b.mode * 2 ^ 8 + b.code * 2 ^ 10)
    | none => 0
  else if off = 0x100 then BitVec.ofNat 64 t.dsel
  else if off = 0x108 then t.dacc
  else if off = 0x110 then t.ddata
  else if 0x120 ≤ off ∧ off < 0x160 ∧ off % 8 = 0 then
    match w[(off - 0x120) / 16]? with
    | some p => if off % 16 = 0 then BitVec.ofNat 64 p.base else BitVec.ofNat 64 (p.len + p.kind * 2 ^ 8)
    | none => 0
  else 0

/-- TRACE_CONTROL_WRITE (R387). -/
def execTraceControlWrite (admin : Bool) (v : DWord) (s : State) : Host.Outcome State Fault Refusal :=
  if admin then .next (s.writeControl v) else .next s

/-! ### The debugger (R396, R397) -/

/-- R387: the warp that DSEL names. -/
def State.selected (s : State) : Option Warp := s.warpAt (s.trace.dsel / 256 % 256) (s.trace.dsel % 64)

/-- R387: a register as the debugger names it: class, lane, index. (DEDUCED, log 71) -/
def Warp.debugRead (w : Warp) (cls lane index : Nat) : DWord :=
  match cls with
  | 0 => (w.lane lane).getV index |>.zeroExtend 64
  | 1 => w.getS index
  | 2 =>
    if index = 59 then w.wst.zeroExtend 64
    else if 240 ≤ index ∧ index < 248 then (if (w.lane lane).getP (index - 240) then 1 else 0)
    else if 248 ≤ index then (if w.getC (index - 248) then 1 else 0)
    else 0
  | _ => (w.lane lane).pc.zeroExtend 64

/-- A debugger write of a register of a stopped warp (DEDUCED, log 71). -/
def Warp.debugWrite (w : Warp) (cls lane index : Nat) (x : DWord) : Warp :=
  match cls with
  | 0 => w.put lane (.v index) x
  | 1 => w.put 0 (.s index) x
  | 2 =>
    if index = 59 then { w with wst := x.truncate 5 }
    else if 240 ≤ index ∧ index < 248 then w.put lane (.p (index - 240)) x
    else if 248 ≤ index then w.put 0 (.c (index - 248)) x
    else w
  | _ => w.modLane lane fun l => { l with pc := x.truncate 32 }

/-- R396, R397: a write of DACC: with GO, the access to a debug-held warp, or the request to stop a running one. -/
def State.writeDacc (s : State) (v : DWord) : State :=
  let cls := fld v 60 2
  let lane := fld v 54 6
  let index := fld v 0 8
  let s := { s with trace := { s.trace with dacc := v &&& ~~~(1#64 <<< 63) } }
  if !v.getLsbD 63 then s
  else
    match s.selected with
    | none => s
    | some w =>
      if w.dbg then
        (if v.getLsbD 62 then s.modWarp w.core w.slot fun w => w.debugWrite cls lane index s.trace.ddata
        else { s with trace := { s.trace with ddata := w.debugRead cls lane index } })
      else if cls = 3 && s.debugged w then s.modWarp w.core w.slot fun w => w.wantStop (4, 0, 0)
      else s

/-- DACC_ACCESS (R396). -/
def execDaccAccess (admin : Bool) (v : DWord) (s : State) : Host.Outcome State Fault Refusal :=
  if admin then .next (s.writeDacc v) else .next s

/-- DEBUGGER_REQUEST (R397): DACC with GO and class 11 on a running warp. -/
def execDebuggerRequest (admin : Bool) (v : DWord) (s : State) : Host.Outcome State Fault Refusal :=
  if admin then .next (s.writeDacc v) else .next s

/-- R396: the debug-held warp that DSEL names goes on. -/
def State.writeResume (s : State) (v : DWord) : State :=
  if !v.getLsbD 0 then s
  else
    match s.selected with
    | some w => if w.dbg then s.modWarp w.core w.slot fun w => { w with dbg := false } else s
    | none => s

/-- RESUME (R396). -/
def execResume (admin : Bool) (v : DWord) (s : State) : Host.Outcome State Fault Refusal :=
  if admin then .next (s.writeResume v) else .next s

/-- R396: the PC at which a warp stands: that of the lane group which issues next, else the smallest of its lanes that have not exited. -/
def Warp.standPc (w : Warp) : Word :=
  match w.eligible with
  | some (pc, _) => pc
  | none =>
  match leastBy (fun i => (w.lane i).pc.toNat) (w.threads.filter fun i => (w.lane i).st != .exited) with
  | some i => (w.lane i).pc
  | none => 0

/-- R397: the stop stands before the run that the breakpoint names, which RESUME lets issue. (DEDUCED, log 34) -/
def State.standsBefore (s : State) (w : Warp) (cause : Nat) (d : DWord) : Bool :=
  match s.trace.bps[d.toNat]? with
  | some b => cause == 1 && b.mode == 1 && b.pc == w.standPc.toNat
  | none => false

/-- DEBUG_STOP (R395, R396): where stops act on the warp, what is in flight has completed, and the warp stands debug-held. (DEDUCED, log 34) -/
def execDebugStop (core slot : Nat) (s : State) : Host.Outcome State Fault Refusal :=
  match s.warpAt core slot with
  | none => .next s
  | some w =>
    match w.dbgReq with
    | none => .next s
    | some (c, r, d) =>
      if !s.debugged w then .next (s.modWarp core slot fun w => { w with dbgReq := none })
      else if c = 0 || w.run.isSome || !w.quiet || !w.pend.all (fun p => p.wb || p.idle) then .next s
      else
        let mark := if s.standsBefore w c d then some (0, r, 0) else none
        let s := s.modWarp core slot fun w => { w with dbg := true, dbgReq := mark }
        .next (s.traceCore 0 core (s.ctxOf w) 9 (w.standPc.toNat + c * 2 ^ 32) d.toNat 0)

end Sys2Proof.Machine
end

