-- ==== Sys2Proof/Machine/Bringup.lean ====
section
/-! DEFINITION. Bring-up, the status page, firmware and attestation (R399 to R402), plain register writes (R369, R387, R400), the alarm (R403)
and thermal steps (R408). -/

namespace Sys2Proof.Machine

def State.modBoot (s : State) (f : Boot → Boot) : State := { s with boot := f s.boot }

/-! ### Bring-up (R399 to R401) -/

/-- R401: what fuses hold survives a reset. (DESIGN CHOICE, log 12) -/
def Boot.fused (b : Boot) : Boot :=
  { Boot.reset with revoked := b.revoked, rollback := b.rollback, erase := b.erase, erased := b.erased, serial := b.serial }

/-- RESET_RELEASE (R399): the module as reset leaves it, at stage 1. (DESIGN CHOICE, log 12) -/
def execResetRelease (s : State) : Host.Outcome State Fault Refusal :=
  .next { State.reset with agenda := s.agenda, tempo := s.tempo, fresh := s.fresh, boot := s.boot.fused }

/-- R399, R400: the sequence ends in SAFE. -/
def Boot.fails (b : Boot) (cause unit : Nat) : Boot := { b with st := .safe, cause := cause, unit := unit }

/-- R401: the header fields before the signature, as bytes. (DESIGN CHOICE, log 102) -/
def Firmware.header (f : Firmware) : List Byte :=
  leBytes 8 f.length ++ leBytes 8 f.slot ++ leBytes 8 f.svn.toNat ++ leBytes 8 f.minsvn.toNat

/-- R401: the digest of an image. -/
def digestOf (f : Firmware) : BitVec 512 := Config.sha512 (Firmware.header f ++ f.body)

/-- R401: the slot's key is not revoked, and the signature verifies under it. -/
def Boot.signed (b : Boot) (f : Firmware) : Bool :=
  decide (f.slot < 4) && !b.revoked.getLsbD f.slot && Config.ed25519Verify f.slot (leBytes 64 (digestOf f).toNat) f.signature

/-- R401, R403: the image runs; the rollback counter rises, unless its unlock fuses have been destroyed. -/
def Boot.accept (b : Boot) (f : Firmware) : Boot :=
  { b with
    stage := 5, fwsvn := f.svn, digest := digestOf f
    rollback := if !b.erased && decide (b.rollback.toNat < f.minsvn.toNat) then f.minsvn else b.rollback }

/-- R401: verification of the image. -/
def Boot.verify (b : Boot) (fw : Option Firmware) : Boot :=
  match fw with
  | none => b.fails 4 0
  | some f =>
    if !b.signed f then b.fails 4 0
    else if f.svn.toNat < b.rollback.toNat then b.fails 5 0
    else b.accept f

/-- R399: every DRAM frame and every cellar line is zero. -/
def State.zeroAll (s : State) : State :=
  s.modMem fun m => { m with dram := [], poison := [], cellar := [] }

/-- SELF_TEST_STAGE_COMPLETION (R399): the stage under way ends. -/
def execSelfTestStageCompletion (r : StageResult) (fw : Option Firmware) (s : State) : Host.Outcome State Fault Refusal :=
  if s.boot.st ≠ .booting then .next s
  else
    match s.boot.stage with
    | 4 => .next (s.modBoot fun b => b.verify fw)
    | 5 => .next (s.zeroAll.modBoot fun b => { b with st := .ready })
    | n =>
      match r with
      | .failed u => .next (s.modBoot fun b => b.fails n u)
      | .down ps =>
        if n = 3 then
          let s := s.modBoot fun b => { b with stage := 4, down := ps }
          .next { s with link := { s.link with live := s.link.live &&& ~~~ps } }
        else .next (s.modBoot fun b => { b with stage := n + 1 })
      | .passed => .next (s.modBoot fun b => { b with stage := n + 1 })

/-! ### Attestation (R402) -/

/-- R402: the fields that a report signs: NONCE, digest, FWSVN, rollback counter, fuse policy, serial number.
(DESIGN CHOICE, log 72) -/
def Boot.claims (b : Boot) : List Byte :=
  b.nonce ++ leBytes 64 b.digest.toNat ++ leBytes 8 b.fwsvn.toNat ++ leBytes 8 b.rollback.toNat ++
    leBytes 8 (b.revoked.toNat + if b.erase then 16 else 0) ++ leBytes 8 b.serial.toNat

/-- R402, R403: REPORT: the fields and their signature, all zero once the key has been erased. (DESIGN CHOICE, log 72) -/
def Boot.makeReport (b : Boot) : List Byte :=
  let c := b.claims
  let sig := if b.erased then List.replicate 64 0 else leBytes 64 (Config.ed25519Sign c).toNat
  ((c ++ sig) ++ List.replicate 512 0).take 512

/-- R402: a write of AGO; after an alarm no report is made (R403). While AGO is 1, the step stands for the end of the report.
(DESIGN CHOICE, log 72) -/
def State.writeAgo (s : State) (v : DWord) : State :=
  s.modBoot fun b =>
    if b.st = .alarm then b
    else if b.ago then { b with ago := false, report := b.makeReport }
    else if v.getLsbD 0 then { b with ago := true }
    else b

/-- AGO (R402). -/
def execAgo (admin : Bool) (v : DWord) (s : State) : Host.Outcome State Fault Refusal :=
  if admin || s.boot.ago then .next (s.writeAgo v) else .next s

/-! ### Register writes (R369, R387, R400) -/

/-- One byte of EVSEL[8i .. 8i+7] for each counter of a word. -/
def setEvsel (e : List Nat) (i : Nat) (v : DWord) : List Nat :=
  (List.range 16).map fun j => if j / 8 = i then fld v (8 * (j % 8)) 8 else e.getD j 0

/-- R387: a watchpoint register of the core that DSEL names. -/
def State.modWatch (s : State) (i : Nat) (f : Watch → Watch) : State :=
  s.modCore (s.trace.dsel / 256 % 256) fun k => { k with watch := k.watch.modify i f }

/-- R387: the trace page's registers that take a plain write. -/
def State.writeTrace (s : State) (off : Nat) (v : DWord) : State :=
  let t := s.trace
  match off with
  | 0x000 => s.writeControl v
  | 0x008 => { s with trace := { t with dest := fld v 0 20 } }
  | 0x018 => { s with trace := { t with ridx := v.toNat } }
  | 0x028 => { s with trace := { t with rq := fld v 32 6, rteam := fld v 0 32 } }
  | 0x040 => { s with trace := { t with evsel := setEvsel t.evsel 0 v } }
  | 0x048 => { s with trace := { t with evsel := setEvsel t.evsel 1 v } }
  | 0x100 => { s with trace := { t with dsel := fld v 8 8 * 256 + fld v 0 6 } }
  | 0x108 => s.writeDacc v
  | 0x110 => { s with trace := { t with ddata := v } }
  | 0x118 => s.writeResume v
  | _ =>
    if 0x080 ≤ off ∧ off < 0x100 ∧ off % 8 = 0 then
      let j := (off - 0x080) / 16
      if off % 16 = 0 then { s with trace := { t with bps := t.bps.modify j fun b => { b with seq := fld v 32 32, pc := fld v 0 32 } } }
      else { s with trace := { t with bps := t.bps.modify j fun b =>
        { b with code := fld v 10 20, mode := fld v 8 2, core := fld v 0 8 } } }
    else if 0x120 ≤ off ∧ off < 0x160 ∧ off % 8 = 0 then
      let j := (off - 0x120) / 16
      if off % 16 = 0 then s.modWatch j fun w => { w with base := fld v 0 57 }
      else s.modWatch j fun w => { w with kind := fld v 8 2, len := fld v 0 4 }
    else s

/-- R400: the status page's registers. -/
def State.writeStatus (s : State) (off : Nat) (v : DWord) : State :=
  if 0x040 ≤ off ∧ off < 0x060 ∧ off % 8 = 0 then
    if s.boot.ago then s
    else s.modBoot fun b => { b with nonce := patch b.nonce (off - 0x040) (leBytes 8 v.toNat) }
  else if off = 0x060 ∧ !s.boot.ago then s.writeAgo v
  else s

/-- R369, R376: EHEAD; records held for a full ring are written. -/
def State.writeNotify (s : State) (iface off : Nat) (v : DWord) : State :=
  if off ≠ 0x100 then s
  else
    match s.host.ifaces[iface]? with
    | none => s
    | some f => { s with host := { s.host with ifaces := s.host.ifaces.set iface { f with ehead := v.toNat } } }.flushEvents iface

/-- STATE as the status page shows it (R400). -/
def BootSt.num : BootSt → Nat
  | .booting => 0
  | .ready => 1
  | .safe => 2
  | .alarm => 3

/-- R400: what a read of the status page returns, to every interface. -/
def State.readStatus (s : State) (off : Nat) : DWord :=
  let b := s.boot
  if off % 8 ≠ 0 then 0
  else if off = 0x000 then BitVec.ofNat 64 (BootSt.num b.st + b.cause % 256 * 2 ^ 8)
  else if off = 0x008 then BitVec.ofNat 64 b.unit
  else if off = 0x010 then b.fwsvn
  else if off = 0x018 then b.cecnt
  else if 0x040 ≤ off ∧ off < 0x060 then BitVec.ofNat 64 (leNat (slice b.nonce (off - 0x040) 8))
  else if off = 0x060 then (if b.ago then 1 else 0)
  else if 0x100 ≤ off ∧ off < 0x300 then BitVec.ofNat 64 (leNat (slice b.report (off - 0x100) 8))
  else 0

/-- R369: the launch queue bound to a ring of an interface. -/
def State.boundQueue (s : State) (iface k : Nat) : Option Queue := (s.queueOfRing iface k).map s.queue

/-- R369: what a read of an interface's notify page returns. -/
def State.readNotify (s : State) (iface off : Nat) : DWord :=
  match s.host.ifaces[iface]? with
  | none => 0
  | some f =>
    if off % 8 ≠ 0 then 0
    else if off = 0x008 then BitVec.ofNat 64 f.chead
    else if 0x080 ≤ off ∧ off < 0x0C0 then
      (match s.boundQueue iface ((off - 0x080) / 8) with
      | some q => BitVec.ofNat 64 q.lret
      | none => 0)
    else if 0x0C0 ≤ off ∧ off < 0x100 then
      (match s.boundQueue iface ((off - 0x0C0) / 8) with
      | some q => BitVec.ofNat 64 (q.hstat % 256 + if q.halted then 2 ^ 63 else 0)
      | none => 0)
    else if off = 0x100 then BitVec.ofNat 64 f.ehead
    else 0

/-- REGISTER_WRITE (R369, R387, R400). -/
def execRegisterWrite (admin : Bool) (page : Page) (off : Nat) (v : DWord) (s : State) : Host.Outcome State Fault Refusal :=
  match page with
  | .notify i => .next (s.writeNotify i off v)
  | .trace => if admin then .next (s.writeTrace off v) else .next s
  | .status => if admin then .next (s.writeStatus off v) else .next s

/-! ### The alarm (R403) -/

/-- R403: everything stops; nothing is saved, and nothing completes afterwards. (DEDUCED, log 73) -/
def State.halt (s : State) : State :=
  { s with
    cur := none
    warps := [], teams := [], grids := [], pmodes := []
    cores := s.cores.map fun (k : Core) => { k with queues := List.replicate 6 [], array := none, lease := none, leaseReq := [], slaved := false,
                                                    held := [] }
    mem := { s.mem with queue := [], hostOps := [], walks := [], ats := [], atsInv := [] }
    sch := { s.sch with stops := [], hfaults := [], doms := [], queues := s.sch.queues.map fun (q : Queue) => { q with pkts := [] } }
    bins := s.bins.map fun (b : Bin) => { b with ops := [] }
    host := { s.host with slow := [], ifaces := s.host.ifaces.map fun (f : Iface) => { f with heldEvents := [] } }
    link := { s.link with out := [], inb := [], parts := [] } }

/-- ALARM (R403). (DEDUCED, log 73) -/
def execAlarm (s : State) : Host.Outcome State Fault Refusal :=
  .next (s.halt.modBoot fun b => { b with
    st := .alarm, cause := 6, erased := b.erased || b.erase, ago := false
    report := if b.ago then List.replicate 512 0 else b.report })

/-! ### Heat (R408) -/

/-- A die's ceiling moves; its clock follows at once, at the tick. (DEDUCED, log 73) -/
def State.setHeat (s : State) (die h : Nat) : State :=
  let s := s.modDie die fun d => { d with heat := h }
  let d := s.die die
  let v := min d.selected h
  if v = d.setting then s else s.setClock die v

/-- R408: one step of a die at a heartbeat tick: `h` is the ceiling it moves to. (DEDUCED, log 73) -/
def State.heatStep (s : State) (die h : Nat) : State :=
  if s.gtime % 256 ≠ 0 ∨ (s.die die).stepped = s.gtime / 256 + 1 then s
  else (s.modDie die fun d => { d with stepped := s.gtime / 256 + 1 }).setHeat die h

/-- THERMAL_STEP_DOWN (R408): at a tick, 35 MHz down, to 0.70 GHz at the least. -/
def execThermalStepDown (die : Nat) (s : State) : Host.Outcome State Fault Refusal :=
  .next (s.heatStep die (min (s.die die).heat (s.die die).setting - 1))

/-- THERMAL_STEP_UP (R408): at a tick, 35 MHz up, to the selected setting at the most. -/
def execThermalStepUp (die : Nat) (s : State) : Host.Outcome State Fault Refusal :=
  .next (s.heatStep die (min 10 ((s.die die).heat + 1)))

end Sys2Proof.Machine
end

