-- ==== Sys2Proof/Machine/Errors.lean ====
section
/-! DEFINITION. Soft errors (R404 to R406). -/

namespace Sys2Proof.Machine

/-- CORRECTABLE_ERROR (R400, R404): corrected, and counted. (DEDUCED, log 74) -/
def execCorrectableError (s : State) : Host.Outcome State Fault Refusal :=
  .next (s.modBoot fun b => { b with cecnt := if b.cecnt = BitVec.allOnes 64 then b.cecnt else b.cecnt + 1 })

/-- A poisoned sector is listed once. -/
def addPoison (l : List Nat) (x : Nat) : List Nat := if l.contains x then l else l ++ [x]

/-- R404: an uncorrectable error in a line of DRAM. -/
def State.errDram (s : State) (sector : Nat) : State :=
  let n := sector / 4
  let s := s.modMem fun m => { m with poison := ([0, 1, 2, 3] : List Nat).foldl (fun l i => addPoison l (4 * n + i)) m.poison }
  s.machineRecord 0xFF 1 (128 * n) (channelOf (n / 512))

/-- R406: the context that a core's pair is granted to, or 0xFF. (DEDUCED, log 74) -/
def State.coreCtx (s : State) (core : Nat) : Nat :=
  match s.sch.ctxs.find? fun c => c.granted.getLsbD (core / 2) with
  | some c => c.id
  | none => 0xFF

/-- A byte address for a record: of module memory, or of the host's. -/
def LineId.addr (l : LineId) (sector : Nat) : Nat := 128 * l.num + 32 * (sector % 4)

/-- R404: an uncorrectable error in a cellar line, of module memory or of the host's. -/
def State.errCellar (s : State) (l : LineId) (sector : Nat) : State :=
  match s.cell l with
  | none => s
  | some c => (s.modCell l fun c => { c with poison := c.poison ||| (1#4 <<< (sector % 4)) }).machineRecord c.ctx 3 (LineId.addr l sector) (l.home % 256)

/-- R404: an uncorrectable error in an L1 line. -/
def State.errL1 (s : State) (core : Nat) (l : LineId) (sector : Nat) : State :=
  match s.l1 core l with
  | none => s
  | some _ => (s.modL1 core l fun c => { c with poison := c.poison ||| (1#4 <<< (sector % 4)) }).machineRecord (s.coreCtx core) 3
      (LineId.addr l sector) core

/-- R404: an uncorrectable error in the scratchpad grant of a warp's team. -/
def State.errScratch (s : State) (core slot sector : Nat) : State :=
  match s.warpAt core slot with
  | none => s
  | some w =>
    (s.modTeam w.team fun t => { t with poison := addPoison t.poison sector }).machineRecord (s.ctxOf w) 3 (32 * sector) (core + slot * 256)

/-- R404: an uncorrectable error in an operand buffer. -/
def State.errOpbuf (s : State) (core sector : Nat) : State :=
  (s.modCore core fun k => { k with opPoison := addPoison k.opPoison sector }).machineRecord (s.coreCtx core) 3 (32 * sector) core

/-- The lanes of a warp that a request is for; where it names none, all that have not exited. (DEDUCED, log 74) -/
def HomeReq.lanesOf (r : HomeReq) (w : Warp) : List Nat :=
  let ls := r.lanes.eraseDups
  if ls.isEmpty then w.threads.filter fun i => (w.lane i).st != .exited else ls

/-- R185, R380: the requests of peers that wait for others of theirs among those listed: a count that follows data. -/
def State.peerAfter (s : State) (rs : List HomeReq) : List HomeReq :=
  s.mem.queue.filter fun r => r.warp == 0 && (r.deps.any fun d => rs.any fun q => q.warp == 0 && q.id == d) && !rs.any fun q => q.id == r.id

/-- R185, R404: requests are lost: they end, a lane whose data is lost is not counted at its count barrier, and every warp that waits for
one receives MACHINE_CHECK; so does the peer that made one, whose count is lost with its data. (DEDUCED, log 74) -/
def State.loseReqs (s : State) (rs : List HomeReq) : State :=
  let rs := rs ++ s.peerAfter rs
  let lost := fun (id : Nat) => rs.any fun r => r.id == id
  let s := s.modMem fun m => { m with queue := m.queue.filter (fun r => !lost r.id), hostOps := m.hostOps.filter fun o => !lost o.req }
  rs.foldl (fun s r =>
    match s.warpU r.warp with
    | none => ((s.finishReq r.core r.warp r.pend r.id []).answerPeer r [⟨0, none, false, [], false, true⟩]).traceDone r.id
    | some w =>
      let pc := match w.pend.find? fun p => p.id == r.pend with
        | some p => p.pc
        | none => 0
      ((s.uncount r.warp r.pend (r.lanesOf w)).finishReq r.core r.warp r.pend r.id []).raiseLanes r.warp pc
        ((r.lanesOf w).map fun i => ⟨i, .machineCheck, 0⟩)) s

/-- R404: the entry of a line is lost, with the requests on it. -/
def State.errTags (s : State) (l : LineId) : State :=
  let rs := s.mem.queue.filter fun r => r.line == l
  let ctx := match rs.head?, s.cell l with
    | some r, _ => r.ctx
    | none, some c => c.ctx
    | none, none => 0xFF
  (s.loseReqs rs).machineRecord ctx 4 (128 * l.num) (l.home % 256)

/-- The PC and the lanes of a warp that read a register: those of its run, or of the run that comes next. -/
def Warp.readers (w : Warp) : Word × List Nat :=
  match w.run with
  | some r => (r.pc, r.lanes)
  | none => w.eligible.getD (0, [])

/-- A run that has lost all its lanes is over. -/
def State.endIfEmpty (s : State) (core slot : Nat) : State :=
  match (s.warpAt core slot).bind Warp.run with
  | some r => if r.lanes.isEmpty then s.finishRun core slot else s
  | none => s

/-- R404, R406: MACHINE_CHECK in the lanes that read a register. -/
def State.errReg (s : State) (w : Warp) (lanes : List Nat) (reg lane : Nat) : State :=
  if lanes.isEmpty then s
  else
    let s := s.machineRecord (s.ctxOf w) 5 (reg + lane * 256) (w.core + w.slot * 256)
    (s.raiseLanes w.uid w.readers.1 (lanes.map fun i => ⟨i, .machineCheck, 0⟩)).endIfEmpty w.core w.slot

/-- R404: an uncorrectable error in a vector register, read by its lane. -/
def State.errVreg (s : State) (core slot lane reg : Nat) : State :=
  match s.warpAt core slot with
  | none => s
  | some w => s.errReg w (w.readers.2.filter fun i => i == lane) reg lane

/-- R404: an uncorrectable error in a scalar register, read for the group. -/
def State.errSreg (s : State) (core slot reg : Nat) : State :=
  match s.warpAt core slot with
  | none => s
  | some w => s.errReg w w.readers.2 reg 0

/-- R404: a TLB's entry is lost: it leaves the core's TLB and its pair's, and the warps that wait for its walk receive MACHINE_CHECK.
(DEDUCED, log 74) -/
def State.errTlb (s : State) (core ctx page : Nat) : State :=
  let here := fun (k : Walk) => k.die == core / 64 && k.ctx == ctx && k.page == page
  let us := (s.mem.walks.filter here).flatMap Walk.waiters
  let frame := match s.tlb core ctx page with
    | some e => e.frameOf page
    | none => 0
  let s := s.modCore core fun k => { k with tlb := k.tlb.filter fun e => !e.covers ctx page }
  let s := s.modMem fun m => { m with
    pairTlb := m.pairTlb.modify (core / 2) fun t => t.filter fun e => !e.covers ctx page
    walks := m.walks.filter fun k => !here k }
  let s := us.foldl (fun s u =>
    match s.warpU u with
    | none => s
    | some w => (s.raiseLanes u w.readers.1 (w.readers.2.map fun i => ⟨i, .machineCheck, 0⟩)).endIfEmpty w.core w.slot) s
  s.machineRecord ctx 4 (65536 * frame) core

/-- A snoop of the host's copy. -/
def HostOpKind.snoops : HostOpKind → Bool
  | .backInval _ => true
  | _ => false

/-- R380, R404: the host's port fails: every access that still waits for the host completes with MACHINE_CHECK, and the host holds no
copies of module memory any more; a second-stage translation that it was asked for fails (R377). (DEDUCED, log 74) -/
def State.errCxl (s : State) : State :=
  let snooped := fun (r : HomeReq) => s.mem.hostOps.any fun o => o.req == r.id && o.kind.snoops
  let s := s.loseReqs (s.mem.queue.filter fun r => r.wait.isSome && !snooped r)
  let peers := s.link.out.map PeerReq.req
  let fail := fun (o : HostOp) => if o.done.isNone && !peers.contains o.id then { o with done := some none } else o
  let free := fun (r : HomeReq) => { r with wait := none }
  (s.modMem fun m => { m with
    hostOps := (m.hostOps.filter fun o => !o.kind.snoops).map fail
    queue := m.queue.map free
    ats := []
    s2 := m.s2 ++ m.ats.map fun e => ⟨e.die, e.pasid, e.page, none, true⟩
    dir := m.dir.map fun e => { e with host := false } }).machineRecord 0xFF 2 0 0xFF

/-- UNCORRECTABLE_ERROR (R404 to R406). -/
def execUncorrectableError (e : ErrSite) (s : State) : Host.Outcome State Fault Refusal :=
  match e with
  | .dram x => .next (s.errDram x)
  | .link p => .next (s.failPort p)
  | .cellar l x => .next (s.errCellar l x)
  | .l1 c l x => .next (s.errL1 c l x)
  | .scratch c k x => .next (s.errScratch c k x)
  | .opbuf c x => .next (s.errOpbuf c x)
  | .tags l => .next (s.errTags l)
  | .vreg c k l r => .next (s.errVreg c k l r)
  | .sreg c k r => .next (s.errSreg c k r)
  | .tlb c x p => .next (s.errTlb c x p)
  | .cxl => .next s.errCxl

end Sys2Proof.Machine
end

