-- ==== Sys2Proof/Machine/Dispatch.lean ====
section
/-! DEFINITION. One step's meaning: one arm per constructor of `Instr`. -/

namespace Sys2Proof.Machine

def exec (i : Instr) (s : State) : Host.Outcome State Fault Refusal :=
  match i with
  | .nop c => Sys2Proof.Machine.execNop c s
  | .mov c o => Sys2Proof.Machine.execMov c o s
  | .movQueuePop c o => Sys2Proof.Machine.execMovQueuePop c o s
  | .movQueuePush c o => Sys2Proof.Machine.execMovQueuePush c o s
  | .movi c o => Sys2Proof.Machine.execMovi c o s
  | .iadd c o => Sys2Proof.Machine.execIadd c o s
  | .isub c o => Sys2Proof.Machine.execIsub c o s
  | .imul c o => Sys2Proof.Machine.execImul c o s
  | .imulh c o => Sys2Proof.Machine.execImulh c o s
  | .imad c o => Sys2Proof.Machine.execImad c o s
  | .imadw c o => Sys2Proof.Machine.execImadw c o s
  | .imin c o => Sys2Proof.Machine.execImin c o s
  | .imax c o => Sys2Proof.Machine.execImax c o s
  | .iabs c o => Sys2Proof.Machine.execIabs c o s
  | .iand c o => Sys2Proof.Machine.execIand c o s
  | .ior c o => Sys2Proof.Machine.execIor c o s
  | .ixor c o => Sys2Proof.Machine.execIxor c o s
  | .inot c o => Sys2Proof.Machine.execInot c o s
  | .shl c o => Sys2Proof.Machine.execShl c o s
  | .shr c o => Sys2Proof.Machine.execShr c o s
  | .sar c o => Sys2Proof.Machine.execSar c o s
  | .rol c o => Sys2Proof.Machine.execRol c o s
  | .bfe c o => Sys2Proof.Machine.execBfe c o s
  | .bfi c o => Sys2Proof.Machine.execBfi c o s
  | .popc c o => Sys2Proof.Machine.execPopc c o s
  | .clz c o => Sys2Proof.Machine.execClz c o s
  | .brev c o => Sys2Proof.Machine.execBrev c o s
  | .sel c o => Sys2Proof.Machine.execSel c o s
  | .lea c o => Sys2Proof.Machine.execLea c o s
  | .bpick c o => Sys2Proof.Machine.execBpick c o s
  | .fadd c o => Sys2Proof.Machine.execFadd c o s
  | .fsub c o => Sys2Proof.Machine.execFsub c o s
  | .fmul c o => Sys2Proof.Machine.execFmul c o s
  | .ffma c o => Sys2Proof.Machine.execFfma c o s
  | .fmin c o => Sys2Proof.Machine.execFmin c o s
  | .fmax c o => Sys2Proof.Machine.execFmax c o s
  | .fclamp c o => Sys2Proof.Machine.execFclamp c o s
  | .fscale c o => Sys2Proof.Machine.execFscale c o s
  | .hadd2 c o => Sys2Proof.Machine.execHadd2 c o s
  | .hsub2 c o => Sys2Proof.Machine.execHsub2 c o s
  | .hmul2 c o => Sys2Proof.Machine.execHmul2 c o s
  | .hfma2 c o => Sys2Proof.Machine.execHfma2 c o s
  | .hmin2 c o => Sys2Proof.Machine.execHmin2 c o s
  | .hmax2 c o => Sys2Proof.Machine.execHmax2 c o s
  | .hdot2 c o => Sys2Proof.Machine.execHdot2 c o s
  | .cvt c o => Sys2Proof.Machine.execCvt c o s
  | .frnd c o => Sys2Proof.Machine.execFrnd c o s
  | .rcp c o => Sys2Proof.Machine.execRcp c o s
  | .rsq c o => Sys2Proof.Machine.execRsq c o s
  | .sqrt c o => Sys2Proof.Machine.execSqrt c o s
  | .ex2 c o => Sys2Proof.Machine.execEx2 c o s
  | .lg2 c o => Sys2Proof.Machine.execLg2 c o s
  | .sin c o => Sys2Proof.Machine.execSin c o s
  | .cos c o => Sys2Proof.Machine.execCos c o s
  | .sincos c o => Sys2Proof.Machine.execSincos c o s
  | .tanh c o => Sys2Proof.Machine.execTanh c o s
  | .sigm c o => Sys2Proof.Machine.execSigm c o s
  | .rand c o => Sys2Proof.Machine.execRand c o s
  | .csamp c o => Sys2Proof.Machine.execCsamp c o s
  | .shfl c o => Sys2Proof.Machine.execShfl c o s
  | .pswap c o => Sys2Proof.Machine.execPswap c o s
  | .qswap c o => Sys2Proof.Machine.execQswap c o s
  | .qbcast c o => Sys2Proof.Machine.execQbcast c o s
  | .vote c o => Sys2Proof.Machine.execVote c o s
  | .matchLanes c o => Sys2Proof.Machine.execMatchLanes c o s
  | .rdx c o => Sys2Proof.Machine.execRdx c o s
  | .scn c o => Sys2Proof.Machine.execScn c o s
  | .elect c o => Sys2Proof.Machine.execElect c o s
  | .itest c o => Sys2Proof.Machine.execItest c o s
  | .ftest c o => Sys2Proof.Machine.execFtest c o s
  | .htest2 c o => Sys2Proof.Machine.execHtest2 c o s
  | .pcomb c o => Sys2Proof.Machine.execPcomb c o s
  | .cset c o => Sys2Proof.Machine.execCset c o s
  | .ccomb c o => Sys2Proof.Machine.execCcomb c o s
  | .p2s c o => Sys2Proof.Machine.execP2s c o s
  | .s2p c o => Sys2Proof.Machine.execS2p c o s
  | .bra c o => Sys2Proof.Machine.execBra c o s
  | .bruLabel c o => Sys2Proof.Machine.execBruLabel c o s
  | .bruRegister c o => Sys2Proof.Machine.execBruRegister c o s
  | .brx c o => Sys2Proof.Machine.execBrx c o s
  | .call c o => Sys2Proof.Machine.execCall c o s
  | .callx c o => Sys2Proof.Machine.execCallx c o s
  | .ret c o => Sys2Proof.Machine.execRet c o s
  | .exit c => Sys2Proof.Machine.execExit c s
  | .napImmediate c o => Sys2Proof.Machine.execNapImmediate c o s
  | .napRegister c o => Sys2Proof.Machine.execNapRegister c o s
  | .napEnd core slot => Sys2Proof.Machine.execNapEnd core slot s
  | .ld c o => Sys2Proof.Machine.execLd c o s
  | .st c o => Sys2Proof.Machine.execSt c o s
  | .stCb c o => Sys2Proof.Machine.execStCb c o s
  | .prf c o => Sys2Proof.Machine.execPrf c o s
  | .clean c o => Sys2Proof.Machine.execClean c o s
  | .inval c o => Sys2Proof.Machine.execInval c o s
  | .clinv c o => Sys2Proof.Machine.execClinv c o s
  | .drop c o => Sys2Proof.Machine.execDrop c o s
  | .atom c o => Sys2Proof.Machine.execAtom c o s
  | .red c o => Sys2Proof.Machine.execRed c o s
  | .cas c o => Sys2Proof.Machine.execCas c o s
  | .fence c o => Sys2Proof.Machine.execFence c o s
  | .fenceCompletion core slot => Sys2Proof.Machine.execFenceCompletion core slot s
  | .fenceScCompletion core slot => Sys2Proof.Machine.execFenceScCompletion core slot s
  | .opfence c => Sys2Proof.Machine.execOpfence c s
  | .opfenceCompletion core slot => Sys2Proof.Machine.execOpfenceCompletion core slot s
  | .tlook c o => Sys2Proof.Machine.execTlook c o s
  | .tseek c o => Sys2Proof.Machine.execTseek c o s
  | .tnext c o => Sys2Proof.Machine.execTnext c o s
  | .tprev c o => Sys2Proof.Machine.execTprev c o s
  | .tclose c o => Sys2Proof.Machine.execTclose c o s
  | .tins c o => Sys2Proof.Machine.execTins c o s
  | .tdel c o => Sys2Proof.Machine.execTdel c o s
  | .trekey c o => Sys2Proof.Machine.execTrekey c o s
  | .tadd c o => Sys2Proof.Machine.execTadd c o s
  | .tpin c o => Sys2Proof.Machine.execTpin c o s
  | .tunpin c o => Sys2Proof.Machine.execTunpin c o s
  | .tswap c o => Sys2Proof.Machine.execTswap c o s
  | .tstat c o => Sys2Proof.Machine.execTstat c o s
  | .tcount c o => Sys2Proof.Machine.execTcount c o s
  | .trow c o => Sys2Proof.Machine.execTrow c o s
  | .push c o => Sys2Proof.Machine.execPush c o s
  | .pushPlaceFreed core slot => Sys2Proof.Machine.execPushPlaceFreed core slot s
  | .waitany c o => Sys2Proof.Machine.execWaitany c o s
  | .waitall c o => Sys2Proof.Machine.execWaitall c o s
  | .tagWaitWakeup core slot => Sys2Proof.Machine.execTagWaitWakeup core slot s
  | .ffr c o => Sys2Proof.Machine.execFfr c o s
  | .tagclr c o => Sys2Proof.Machine.execTagclr c o s
  | .tagset c o => Sys2Proof.Machine.execTagset c o s
  | .leaseRegister c o => Sys2Proof.Machine.execLeaseRegister c o s
  | .leaseImmediate c o => Sys2Proof.Machine.execLeaseImmediate c o s
  | .unlease c => Sys2Proof.Machine.execUnlease c s
  | .bar c o => Sys2Proof.Machine.execBar c o s
  | .barx c o => Sys2Proof.Machine.execBarx c o s
  | .syncm c o => Sys2Proof.Machine.execSyncm c o s
  | .cbarm c o => Sys2Proof.Machine.execCbarm c o s
  | .cbwait c o => Sys2Proof.Machine.execCbwait c o s
  | .cbwaitSatisfied core slot => Sys2Proof.Machine.execCbwaitSatisfied core slot s
  | .cbwaitTimeout core slot => Sys2Proof.Machine.execCbwaitTimeout core slot s
  | .regrp c o => Sys2Proof.Machine.execRegrp c o s
  | .regrpb c o => Sys2Proof.Machine.execRegrpb c o s
  | .regrpArrival core slot => Sys2Proof.Machine.execRegrpArrival core slot s
  | .relocationCompletion dom err => Sys2Proof.Machine.execRelocationCompletion dom err s
  | .pmodePress c o => Sys2Proof.Machine.execPmodePress c o s
  | .pmodeCache c o => Sys2Proof.Machine.execPmodeCache c o s
  | .pressEntryCompletion bin => Sys2Proof.Machine.execPressEntryCompletion bin s
  | .pressDrainCompletion bin => Sys2Proof.Machine.execPressDrainCompletion bin s
  | .pxin c o => Sys2Proof.Machine.execPxin c o s
  | .pxout c o => Sys2Proof.Machine.execPxout c o s
  | .padd c o => Sys2Proof.Machine.execPadd c o s
  | .psub c o => Sys2Proof.Machine.execPsub c o s
  | .pmul c o => Sys2Proof.Machine.execPmul c o s
  | .pand c o => Sys2Proof.Machine.execPand c o s
  | .por c o => Sys2Proof.Machine.execPor c o s
  | .pxor c o => Sys2Proof.Machine.execPxor c o s
  | .pnot c o => Sys2Proof.Machine.execPnot c o s
  | .pcmp c o => Sys2Proof.Machine.execPcmp c o s
  | .psel c o => Sys2Proof.Machine.execPsel c o s
  | .psat c o => Sys2Proof.Machine.execPsat c o s
  | .pcnt c o => Sys2Proof.Machine.execPcnt c o s
  | .pshl c o => Sys2Proof.Machine.execPshl c o s
  | .pshr c o => Sys2Proof.Machine.execPshr c o s
  | .pressAcceptance core slot => Sys2Proof.Machine.execPressAcceptance core slot s
  | .pressOperationCompletion bin => Sys2Proof.Machine.execPressOperationCompletion bin s
  | .psync c o => Sys2Proof.Machine.execPsync c o s
  | .psyncCompletion core slot => Sys2Proof.Machine.execPsyncCompletion core slot s
  | .trap c o => Sys2Proof.Machine.execTrap c o s
  | .eret c => Sys2Proof.Machine.execEret c s
  | .movs c o => Sys2Proof.Machine.execMovs c o s
  | .movw c o => Sys2Proof.Machine.execMovw c o s
  | .bkpt c o => Sys2Proof.Machine.execBkpt c o s
  | .illeg c raw => Sys2Proof.Machine.execIlleg c raw s
  | .stopchk c o => Sys2Proof.Machine.execStopchk c o s
  | .mark c o => Sys2Proof.Machine.execMark c o s
  | .runIssue core islot => Sys2Proof.Machine.execRunIssue core islot s
  | .writeBack core slot id => Sys2Proof.Machine.execWriteBack core slot id s
  | .queueAccessUnblock core slot => Sys2Proof.Machine.execQueueAccessUnblock core slot s
  | .tlbWalkCompletion die ctx page => Sys2Proof.Machine.execTlbWalkCompletion die ctx page s
  | .homeRequest slice => Sys2Proof.Machine.execHomeRequest slice s
  | .frequencyAgeing slice => Sys2Proof.Machine.execFrequencyAgeing slice s
  | .hostSnoop line half inval => Sys2Proof.Machine.execHostSnoop line half inval s
  | .hostStoreCxlMem pa bytes => Sys2Proof.Machine.execHostStoreCxlMem pa bytes s
  | .backInvalidateReply line dirty => Sys2Proof.Machine.execBackInvalidateReply line dirty s
  | .atomicopCompletion id old => Sys2Proof.Machine.execAtomicopCompletion id old s
  | .atsInvalidateRequest pasid page pages => Sys2Proof.Machine.execAtsInvalidateRequest pasid page pages s
  | .rdreq f => Sys2Proof.Machine.execRdreq f s
  | .rdrsp f => Sys2Proof.Machine.execRdrsp f s
  | .wr f => Sys2Proof.Machine.execWr f s
  | .wrcb f => Sys2Proof.Machine.execWrcb f s
  | .atomFlit f => Sys2Proof.Machine.execAtomFlit f s
  | .atomrsp f => Sys2Proof.Machine.execAtomrsp f s
  | .wrack f => Sys2Proof.Machine.execWrack f s
  | .rwrite f => Sys2Proof.Machine.execRwrite f s
  | .credit f => Sys2Proof.Machine.execCredit f s
  | .unknownFlit f => Sys2Proof.Machine.execUnknownFlit f s
  | .flitCrcRetry f => Sys2Proof.Machine.execFlitCrcRetry f s
  | .portFailure port => Sys2Proof.Machine.execPortFailure port s
  | .gemm core seq => Sys2Proof.Machine.execGemm core seq s
  | .tileBoundary core => Sys2Proof.Machine.execTileBoundary core s
  | .reserve core seq => Sys2Proof.Machine.execReserve core seq s
  | .loadb core seq => Sys2Proof.Machine.execLoadb core seq s
  | .release core seq => Sys2Proof.Machine.execRelease core seq s
  | .copyNone core seq => Sys2Proof.Machine.execCopyNone core seq s
  | .copyScale core seq => Sys2Proof.Machine.execCopyScale core seq s
  | .copyAdd core seq => Sys2Proof.Machine.execCopyAdd core seq s
  | .copyCast core seq => Sys2Proof.Machine.execCopyCast core seq s
  | .copyReduce core seq => Sys2Proof.Machine.execCopyReduce core seq s
  | .allGather core seq => Sys2Proof.Machine.execAllGather core seq s
  | .reduceScatter core seq => Sys2Proof.Machine.execReduceScatter core seq s
  | .allReduce core seq => Sys2Proof.Machine.execAllReduce core seq s
  | .chunkCompletion core seq chunk peers => Sys2Proof.Machine.execChunkCompletion core seq chunk peers s
  | .build core seq => Sys2Proof.Machine.execBuild core seq s
  | .launch core seq => Sys2Proof.Machine.execLaunch core seq s
  | .setaside core seq => Sys2Proof.Machine.execSetaside core seq s
  | .setasideExpiry ch => Sys2Proof.Machine.execSetasideExpiry ch s
  | .attend core seq => Sys2Proof.Machine.execAttend core seq s
  | .mapinv core seq => Sys2Proof.Machine.execMapinv core seq s
  | .commandCompletion core q seq => Sys2Proof.Machine.execCommandCompletion core q seq s
  | .kernel q idx => Sys2Proof.Machine.execKernel q idx s
  | .wait q idx => Sys2Proof.Machine.execWait q idx s
  | .signal q idx => Sys2Proof.Machine.execSignal q idx s
  | .packetStart q => Sys2Proof.Machine.execPacketStart q s
  | .teamPlacement die => Sys2Proof.Machine.execTeamPlacement die s
  | .teamRetirement grid team => Sys2Proof.Machine.execTeamRetirement grid team s
  | .gridEnd grid => Sys2Proof.Machine.execGridEnd grid s
  | .grant p => Sys2Proof.Machine.execGrant p s
  | .stop p => Sys2Proof.Machine.execStop p s
  | .stopDelivery id => Sys2Proof.Machine.execStopDelivery id s
  | .warpSave core slot => Sys2Proof.Machine.execWarpSave core slot s
  | .drainEnd id => Sys2Proof.Machine.execDrainEnd id s
  | .faultreplyRetry p => Sys2Proof.Machine.execFaultreplyRetry p s
  | .faultreplyDeliver p => Sys2Proof.Machine.execFaultreplyDeliver p s
  | .faultreplyAbort p => Sys2Proof.Machine.execFaultreplyAbort p s
  | .faultreplyRefused p => Sys2Proof.Machine.execFaultreplyRefused p s
  | .ctxdesc p => Sys2Proof.Machine.execCtxdesc p s
  | .tabledesc p => Sys2Proof.Machine.execTabledesc p s
  | .tlbinv p => Sys2Proof.Machine.execTlbinv p s
  | .ncrange p => Sys2Proof.Machine.execNcrange p s
  | .dedicate p => Sys2Proof.Machine.execDedicate p s
  | .group p => Sys2Proof.Machine.execGroup p s
  | .domain p => Sys2Proof.Machine.execDomain p s
  | .qrestart p => Sys2Proof.Machine.execQrestart p s
  | .pasidGrant p => Sys2Proof.Machine.execPasidGrant p s
  | .pasidRevoke p => Sys2Proof.Machine.execPasidRevoke p s
  | .destroy p => Sys2Proof.Machine.execDestroy p s
  | .clock p => Sys2Proof.Machine.execClock p s
  | .clockChange die => Sys2Proof.Machine.execClockChange die s
  | .qbindBind p => Sys2Proof.Machine.execQbindBind p s
  | .qbindUnbind p => Sys2Proof.Machine.execQbindUnbind p s
  | .ringcfg p => Sys2Proof.Machine.execRingcfg p s
  | .evctrSet p => Sys2Proof.Machine.execEvctrSet p s
  | .evctrAdd p => Sys2Proof.Machine.execEvctrAdd p s
  | .unknownControlPacket p => Sys2Proof.Machine.execUnknownControlPacket p s
  | .cdb iface tail pasid ps => Sys2Proof.Machine.execCdb iface tail pasid ps s
  | .ldb iface ring tail pasid ps => Sys2Proof.Machine.execLdb iface ring tail pasid ps s
  | .heartbeatTick => Sys2Proof.Machine.execHeartbeatTick s
  | .countersLatch => Sys2Proof.Machine.execCountersLatch s
  | .sync die => Sys2Proof.Machine.execSync die s
  | .traceControlWrite admin v => Sys2Proof.Machine.execTraceControlWrite admin v s
  | .daccAccess admin v => Sys2Proof.Machine.execDaccAccess admin v s
  | .debuggerRequest admin v => Sys2Proof.Machine.execDebuggerRequest admin v s
  | .resume admin v => Sys2Proof.Machine.execResume admin v s
  | .debugStop core slot => Sys2Proof.Machine.execDebugStop core slot s
  | .ago admin v => Sys2Proof.Machine.execAgo admin v s
  | .registerWrite admin page off v => Sys2Proof.Machine.execRegisterWrite admin page off v s
  | .resetRelease => Sys2Proof.Machine.execResetRelease s
  | .selfTestStageCompletion r fw => Sys2Proof.Machine.execSelfTestStageCompletion r fw s
  | .alarm => Sys2Proof.Machine.execAlarm s
  | .thermalStepDown die => Sys2Proof.Machine.execThermalStepDown die s
  | .thermalStepUp die => Sys2Proof.Machine.execThermalStepUp die s
  | .correctableError => Sys2Proof.Machine.execCorrectableError s
  | .uncorrectableError e => Sys2Proof.Machine.execUncorrectableError e s
  | .patrolScrub line => Sys2Proof.Machine.execPatrolScrub line s
  | .hostReadCxlMem line => Sys2Proof.Machine.execHostReadCxlMem line s
  | .atsTranslationCompletion die pasid page res => Sys2Proof.Machine.execAtsTranslationCompletion die pasid page res s
  | .hostReadCompletion id data => Sys2Proof.Machine.execHostReadCompletion id data s

end Sys2Proof.Machine
end

