-- ==== Sys2Proof/Machine/Agenda.lean ====
section
/-! DEFINITION. What happens next where nothing from outside is named: what is due at once, and one order of the module's own steps
(MODEL: the spec leaves the order open, and the agenda may name any other); fetching the next word; and placing a word where it is
fetched. -/

namespace Sys2Proof.Machine

/-! ### Due at once -/

/-- What a heartbeat tick, a count or a cycle calls for before time goes on: clock changes (R18), latches (R391), SYNC records (R390),
FENCE.SC completions (R208), ageing (R260). -/
def State.due (s : State) : Option Instr :=
  let dies := List.range 4
  match dies.find? fun d => (s.die d).synced != (s.die d).clk / 65536 with
  | some d => some (.sync d)
  | none =>
    match (if s.gtime % 256 = 0 then dies.find? fun d => (s.die d).setting != (s.die d).target else none) with
    | some d => some (.clockChange d)
    | none =>
      if s.latchDue then some .countersLatch
      else
        match s.warps.find? fun w => match w.hold with
          | some h => h.ready && !h.isNap && w.dbg == false
          | none => false with
        | some w => some (.fenceScCompletion w.core w.slot)
        | none => (s.mem.fills.findIdx? fun n => decide (n ≥ 16384)).map Instr.frequencyAgeing

/-! ### The module's own steps -/

/-- The event that ends a hold. -/
def Hold.ender (h : Hold) (core slot : Nat) : List Instr :=
  match h.i with
  | .fence .. | .ld .. | .st .. | .atom .. | .red .. | .cas .. => [.fenceCompletion core slot]
  | .opfence .. => [.opfenceCompletion core slot]
  | .waitany .. | .waitall .. => [.tagWaitWakeup core slot]
  | .cbwait .. => [.cbwaitSatisfied core slot, .cbwaitTimeout core slot]
  | .napImmediate .. | .napRegister .. => [.napEnd core slot]
  | .push .. => [.pushPlaceFreed core slot]
  | .movQueuePop .. | .movQueuePush .. | .movs .. => [.queueAccessUnblock core slot]
  | .psync .. => [.psyncCompletion core slot]
  | _ => [.pressAcceptance core slot]

/-- Events of a warp. -/
def Warp.events (w : Warp) : List Instr :=
  ((w.pend.filter fun p => !p.wb && p.reqs.isEmpty && !p.idle).map fun p => Instr.writeBack w.core w.slot p.id) ++
  (match w.hold with
  | some h => if w.dbg then [] else h.ender w.core w.slot
  | none => []) ++
  (match w.arr with
  | some a => if a.counted then [] else [.regrpArrival w.core w.slot]
  | none => []) ++
  (if w.dbgReq.isSome then [.debugStop w.core w.slot] else [])

/-- The step that carries out a command. -/
def Cmd.starter (c : Cmd) (core : Nat) : List Instr :=
  match c.code with
  | 0x10 => [.gemm core c.id]
  | 0x11 => [.reserve core c.id]
  | 0x12 => [.loadb core c.id]
  | 0x13 => [.release core c.id]
  | 0x20 => [.copyNone core c.id, .copyScale core c.id, .copyAdd core c.id, .copyCast core c.id, .copyReduce core c.id]
  | 0x30 => [.attend core c.id]
  | 0x31 => [.mapinv core c.id]
  | 0x40 => [.allGather core c.id, .reduceScatter core c.id, .allReduce core c.id]
  | 0x50 => [.build core c.id]
  | 0x60 => [.launch core c.id]
  | 0x61 => [.setaside core c.id]
  | _ => []

/-- Events of the commands of a core; what waits for the host or a peer is left alone. -/
def State.coreEvents (s : State) (core : Nat) : List Instr :=
  let k := s.core core
  let cs := k.queues.zipIdx.flatMap fun (l, q) => l.map fun c => (q, c)
  let own := cs.flatMap fun (q, c) =>
    (if s.engPending (engKey core q c.id) then [] else c.starter core ++ [.commandCompletion core q c.id]) ++
      (c.chunks.filter fun h => !s.engPending (chunkKey core c.id h)).map fun h => Instr.chunkCompletion core c.id h []
  own ++ if k.array.isSome || k.lease.isSome then [.tileBoundary core] else []

/-- Events of a launch queue. -/
def Queue.events (q : Queue) (i : Nat) : List Instr :=
  .packetStart i :: (q.pkts.filter fun p => p.started && p.status.isNone).map fun p =>
    if p.type = 1 then Instr.kernel i p.idx else if p.type = 2 then Instr.wait i p.idx else Instr.signal i p.idx

/-- Events of a stop. -/
def State.stopEvents (s : State) (e : StopE) : List Instr :=
  if e.delivered then (s.warps.filter fun w => s.savable w).map (fun w => Instr.warpSave w.core w.slot) ++ [.drainEnd e.id]
  else [.stopDelivery e.id]

/-- A request that completes later, as the packet that asks again. -/
def slowEvent (e : Nat × Nat × Nat × Nat × Nat) : List Instr :=
  let p : Packet := ⟨e.1, e.2.1, 0, BitVec.ofNat 64 (e.2.2.1 + 256 * e.2.2.2.1) :: List.replicate 7 0, []⟩
  match e.2.2.1 with
  | 0x22 => [.tlbinv p]
  | 0x29 => [.destroy p]
  | 0x2A => [.clock p]
  | _ => []

/-- The module's own steps that may be possible. (DESIGN CHOICE, log 6; DESIGN CHOICE, log 13) -/
def State.candidates (s : State) : List Instr :=
  s.warps.flatMap Warp.events ++
  (s.mem.walks.map fun w => .tlbWalkCompletion w.die w.ctx w.page) ++
  ((s.mem.queue.map fun r => r.line.home).eraseDups.map .homeRequest) ++
  (s.mem.atsInv.map fun x => .atsInvalidateRequest x.1 x.2.1 x.2.2) ++
  ((s.sch.doms.filter fun d => s.domReady d.id).map fun d => .relocationCompletion d.id none) ++
  s.sch.stops.flatMap s.stopEvents ++
  ((List.range s.bins.length).flatMap fun b =>
    [.pressOperationCompletion b, .pressEntryCompletion b, .pressDrainCompletion b]) ++
  ((List.range s.cores.length).flatMap s.coreEvents) ++
  (s.sch.queues.zipIdx.flatMap fun (q, i) => if q.pkts.isEmpty then [] else q.events i) ++
  (s.teams.map fun t => .teamRetirement t.grid t.teamId) ++ (s.grids.map fun g => .gridEnd g.uid) ++
  (if s.grids.isEmpty then [] else (List.range 4).map .teamPlacement) ++
  (s.mem.aside.map fun e => .setasideExpiry e.1) ++ s.host.slow.flatMap slowEvent ++
  if s.boot.ago then [.ago false 0] else []

/-- The warp that a hold's event names. -/
def holder : Instr → Option (Nat × Nat)
  | .fenceCompletion c k | .opfenceCompletion c k | .tagWaitWakeup c k | .cbwaitSatisfied c k | .cbwaitTimeout c k | .napEnd c k
  | .pushPlaceFreed c k | .queueAccessUnblock c k | .psyncCompletion c k | .pressAcceptance c k => some (c, k)
  | _ => none

/-- A step that does something: for a hold, one that ends it. -/
def State.does (s : State) (i : Instr) : Bool :=
  match exec i s with
  | .next t =>
    (match holder i with
    | some (c, k) => (match t.warpAt c k with
      | some w => w.hold.isNone
      | none => true)
    | none => t != s)
  | _ => false

/-- The issue slot that serves a run next, the cores in turn. -/
def State.nextRun (s : State) : Option Instr :=
  let cores := (List.range 256).map fun i => (s.lastCore + 1 + i) % 256
  cores.findSome? fun c =>
    ([0, 1].find? fun k => s.warps.any fun w => w.core == c && s.servedBy w k).map fun k => .runIssue c k

/-- The step that the module takes of itself: one of its own that does something, else a run, else time goes on.
(DESIGN CHOICE, log 6) -/
def State.nextDefault (s : State) : Instr :=
  match s.candidates.find? s.does with
  | some i => i
  | none => s.nextRun.getD .heartbeatTick

/-! ### Fetching (R80) -/

/-- R80, R100: the word at the PC of the run in execution is executed, or rejected, or its fetch faults. -/
def runFetched (w : Warp) (r : Run) (s : State) : Host.Outcome State Fault Refusal :=
  match s.fetch w r.pc with
  | .error c => runFetchFault c s
  | .ok b =>
    let s := s.fetched w r.pc b
    match decode (bytesWord b) with
    | .ok i => exec i s
    | .error j => runReject j.ctl j.uniform (match j.code with
      | .illegalOpcode => .illegalOpcode
      | .illegalOperand => .illegalOperand) s

/-- Before each step it is noted which runs are ready (R274); an event other than a choice of runs lets blocked runs look again. -/
def State.stir (s : State) (i : Instr) : State :=
  match i with
  | .runIssue .. => s.noteReady
  | _ => s.noteReady.wake

/-- R33, R95: the run in execution whose next word can issue in this cycle. -/
def State.going (s : State) : Option (Warp × Run) := s.inRun.filter fun p => s.canIssue p.1 && s.slotFree p.1.core p.2.islot

/-- The next step of the module itself: the next word of the run in execution, or where it cannot issue yet another step. -/
def runOwn (s : State) : Host.Outcome State Fault Refusal :=
  match s.going with
  | some (w, r) => runFetched w r s.noteReady
  | none =>
    let s := { s with cur := none }
    let i := s.nextDefault
    exec i (s.stir i)

/-- The next step that the agenda names. Words come from memory: a word on the agenda stands for the module's own next step.
(DESIGN CHOICE, log 6) -/
def runNamed (i : Instr) (s : State) : Host.Outcome State Fault Refusal :=
  if i.info.isSome then runOwn s else exec i (s.stir i)

/-! ### Placing a word -/

/-- The bytes of a word of which `nbits` bits are given, the others 0. -/
def givenBytes (nbits w : Nat) : List Byte := wordBytes (BitVec.ofNat 96 (w % 2 ^ nbits))

/-- A table entry as bytes at an address. -/
def putEntry (m : Mem) (a v : Nat) : Mem := m.write a (leBytes 8 v)

/-- A context of number 0 with one page of code at address 0: five table levels, frame 0 for the page. -/
def bareTables (m : Mem) (code : List Byte) : Mem :=
  let m := putEntry m 0x10000 (2 * 65536 + 1)
  let m := putEntry m 0x20000 (3 * 65536 + 1)
  let m := putEntry m 0x30000 (4 * 65536 + 1)
  let m := putEntry m 0x40000 (5 * 65536 + 1)
  let m := putEntry m 0x50000 0x8007
  m.write 0 code

def bareCtx : Ctx := ⟨0, [0x10000, 0, 1, 0, 1, 0, 0, 0], 8, [], [], 1⟩

/-- A kernel of one warp of 16 threads. -/
def bareKernel : KernelF := ⟨0, 64, 1, 256, 255, false, false, 16, 0, 0, false, 0, 16, 1, false⟩

/-- The code table of the kernel: a flat table of 64 KiB at address 0. -/
def bareCode (uid : Nat) : Version :=
  ⟨uid, 0, 0, BitVec.ofNat 64 (1 + 2 ^ 16 + 2 ^ 32), 0, 65536, 0, true, [], [], []⟩

/-- The issue slots of a core are free, and its instruction cache is empty. -/
def State.openCore (s : State) (core : Nat) : State :=
  { s with slots := s.slots.set core (0, 0) }.modCore core fun k => { k with icache := [] }

/-- A module in which one warp is about to execute its first word, `code`. (DEDUCED, log 8) -/
def State.bare (s : State) (code : List Byte) : State :=
  let s := s.openCore 0
  let g : Grid := ⟨s.uid, 0, 0, 0, bareKernel, 1, 0, false, false, false⟩
  let w := newWarp g (s.uid + 2) (s.uid + 1) 0 0 0 s.gtime
  let w := { w with acqFirst := false, run := some ⟨w.threads, 0, 0, 0, 0, [], false, false, none⟩ }
  { s with
    uid := s.uid + 4
    cur := some (0, 0)
    boot := { s.boot with st := .ready }
    mem := { s.mem with dram := bareTables s.mem.dram code }
    sch := { s.sch with ctxs := bareCtx :: s.sch.ctxs.filter fun c => c.id != 0 }
    tabs := bareCode (s.uid + 3) :: s.tabs.filter fun v => v.ctx != 0
    grids := g :: s.grids
    teams := newTeam g (s.uid + 1) 0 0 :: s.teams
    warps := w :: s.warps.filter fun w => !(w.core == 0 && w.slot == 0) }

/-- The word is written where the run in execution fetches next, no STALL count outstanding; where no run is in execution, a bare module is made for it.
(DEDUCED, log 8) -/
def State.placeWord (s : State) (code : List Byte) : State :=
  match s.inRun with
  | none => s.bare code
  | some (w, r) =>
    match s.codeAddr (s.gridOf w.grid) r.pc with
    | none => s.bare code
    | some a => ((s.openCore w.core).modWarp w.core w.slot fun v => { v with nextClk := 0 }).putVA (s.gridOf w.grid).ctx a 12 code

end Sys2Proof.Machine
end

