-- ==== Sys2Proof/Machine/Step.lean ====
section
/-! DEFINITION. One step of the module, and placing a word where the next step fetches it. -/

namespace Sys2Proof.Machine

/-- One step: what is due at once; else what the agenda names, once its time has come; else the module's own next step. Time
never passes a heartbeat tick unnoticed (R20). -/
def step (s : State) : Host.Outcome State Fault Refusal :=
  match s.due with
  | some i => exec i (s.stir i)
  | none =>
    match s.agenda with
    | (dt, i) :: r =>
      if s.gtime % 256 + dt ≥ 256 then
        exec .heartbeatTick ({ s with agenda := (s.gtime % 256 + dt - 256, i) :: r }.stir .heartbeatTick)
      else runNamed i ({ s with agenda := r }.pass dt)
    | [] =>
      if s.gtime % 256 + min s.tempo 255 ≥ 256 then exec .heartbeatTick (s.stir .heartbeatTick)
      else runOwn (s.pass (min s.tempo 255))

/-- The instruction of the given bits stands where the next step fetches; no time passes before it and the agenda names
nothing. (DEDUCED, log 8) -/
def State.withFetchWord (s : State) (nbits w : Nat) : State :=
  { s with agenda := [], tempo := 0 }.placeWord (givenBytes nbits w)

end Sys2Proof.Machine
end

