-- ==== Sys2Proof/Safety.lean ====
section
/-! DEFINITION. What counts as a safe run, in the terms the statements use: when an instruction word executes (R42, R100), what it
then sees, and what a word that only writes registers leaves as it was. -/

namespace Sys2Proof.Machine

/-! ### A word that executes -/

/-- R29, R39, R81, R82, R97: the active lanes of a word, its guard read as the word reads it. -/
def actsOf (i : WordInfo) (s : State) (w : Warp) (r : Run) : List Nat := s.actives w i.ctl.g i.uniform r.lanes

/-- R42, R96, R100: the word of run `r` of warp `w` executes: the run is in execution, a lane is active, every register named is
declared and aligned, the scheduling field is legal, the checker finds no result read too early, and no token that the word
names is full. -/
structure Ready (i : WordInfo) (s : State) (w : Warp) (r : Run) : Prop where
  run : s.inRun = some (w, r)
  active : (actsOf i s w r).isEmpty = false
  declared : i.declared (s.gridOf w.grid).f.vregs (s.gridOf w.grid).f.sregs = true
  aligned : i.aligned = true
  sched : schedOk i r.n = true
  checked : ((s.gridOf w.grid).f.checker && w.stallShort i r (actsOf i s w r)) = false
  setw : w.tokFull i.ctl.sch.setw = false
  setr : w.tokFull i.ctl.sch.setr = false

/-- What a ready word sees: its registers as they read (R69, R97), its grid, its run, its active lanes. -/
def seenBy (i : WordInfo) (s : State) (w : Warp) (r : Run) : Wx :=
  ⟨w.core, w.slot, w.view s.fresh i.readKeys, s.gridOf w.grid, r, actsOf i s w r⟩

/-- The state in which a ready word's own effect begins: a breakpoint of the run is noted (R397), and the counter of the free
values has advanced where the word reads one (R97). -/
def startOf (i : WordInfo) (s : State) (w : Warp) (r : Run) : State :=
  (s.midBreak w (s.gridOf w.grid) r).drawn w i.seenKeys

/-! ### Frames -/

/-- The cores are as before, but for their event counters. -/
abbrev SameCores (s t : State) : Prop :=
  t.cores.map (fun k => { k with ev := [] }) = s.cores.map fun k => { k with ev := [] }

/-- Everything but warps, the issue logic's own counters and the event counters is as it was: memory, the cores' caches, operand buffers,
engines, command queues, reservations and leases, the grids and teams, the tables, contexts and queues, the bins, the host interface,
the links, the trace, the clocks, the boot state. -/
structure SameModule (s t : State) : Prop where
  gtime : t.gtime = s.gtime
  dies : t.dies = s.dies
  mem : t.mem = s.mem
  cores : SameCores s t
  grids : t.grids = s.grids
  teams : t.teams = s.teams
  bins : t.bins = s.bins
  pmodes : t.pmodes = s.pmodes
  sch : t.sch = s.sch
  link : t.link = s.link
  trace : t.trace = s.trace
  boot : t.boot = s.boot
  agenda : t.agenda = s.agenda
  tabs : t.tabs = s.tabs
  host : t.host = s.host

/-- What a word changes of no warp: identity, special registers WST and KEY, CMDSEQ, the status and fault queues, the barrier
and regroup state, the engine faults, and of every lane what it holds, its thread, its region entry, RET, INH, its cursors and what a
restart of its region restores. -/
structure SameWarp (w v : Warp) : Prop where
  name : v.uid = w.uid ∧ v.core = w.core ∧ v.slot = w.slot ∧ v.grid = w.grid ∧ v.team = w.team ∧ v.idx = w.idx ∧ v.w = w.w
  wst : v.wst = w.wst
  key : v.key = w.key
  cmdseq : v.cmdseq = w.cmdseq
  e : v.e = w.e
  sync : v.sync = w.sync
  arr : v.arr = w.arr
  dom : v.dom = w.dom
  efaults : v.efaults = w.efaults
  cmdsDone : v.cmdsDone = w.cmdsDone
  lanes : v.lanes.length = w.lanes.length
  lane : ∀ l, (v.lane l).kind = (w.lane l).kind ∧ (v.lane l).thread = (w.lane l).thread ∧ (v.lane l).team = (w.lane l).team ∧
    (v.lane l).entry = (w.lane l).entry ∧ (v.lane l).ret = (w.lane l).ret ∧ (v.lane l).inh = (w.lane l).inh ∧
    (v.lane l).k = (w.lane l).k ∧ (v.lane l).fid = (w.lane l).fid ∧ (v.lane l).kRec = (w.lane l).kRec ∧
    (v.lane l).pinLog = (w.lane l).pinLog ∧ (v.lane l).kSaved = (w.lane l).kSaved

/-- The registers after a word that writes `ws`: the registers whose last use it marks are poisoned (R69), then the results
are written in order. -/
def Warp.after (w : Warp) (i : WordInfo) (act : List Nat) (ws : List RegWrite) : Warp := (w.lastUses i act).writes ws

/-- R43, R287: the warp does not leave its slot when its run ends: its grid is not aborted, and one of its threads has not exited. -/
abbrev Stands (s : State) (w : Warp) : Prop :=
  (s.gridOf w.grid).aborted = false ∧ ∃ l ∈ w.threads, (w.lane l).st ≠ .exited

/-- The effect of a word that only writes registers: its results `ws`, and nothing else but the course of the run. -/
structure Writes (i : WordInfo) (s : State) (w : Warp) (r : Run) (ws : List RegWrite) (t : State) : Prop where
  regs : ∀ v, t.warpAt w.core w.slot = some v → ∀ l k, v.get l k = (w.after i (actsOf i s w r) ws).get l k
  warp : ∀ v, t.warpAt w.core w.slot = some v → SameWarp w v
  pc : ∀ v, t.warpAt w.core w.slot = some v → ∀ l, r.lanes.contains l = false → (v.lane l).pc = (w.lane l).pc
  others : ∀ c k, ¬ (c = w.core ∧ k = w.slot) → t.warpAt c k = s.warpAt c k
  there : Stands s w → ∃ v, t.warpAt w.core w.slot = some v
  rest : Stands s w → SameModule s t

/-! ### Saying what a word comes to -/

/-- The state that a ready word leaves when its own effect is `e`. -/
def afterWord (n : WordInfo) (s : State) (w : Warp) (r : Run) (e : Eff) : State :=
  (startOf n s w r).close n (seenBy n s w r) w e

/-- Instruction `i`, a word described by `n`, completes with the effect `eff` in every state in which it is ready and what it sees
meets `pre`. -/
def Does (i : Instr) (n : WordInfo) (pre : Wx → State → Prop) (eff : Wx → State → Eff) : Prop :=
  ∀ s w r, Ready n s w r → pre (seenBy n s w r) (startOf n s w r) →
    exec i s = .next (afterWord n s w r (eff (seenBy n s w r) (startOf n s w r)))

/-- Instruction `i` makes no access, and raises ALIGN in every thread, where all of its addresses are misaligned: memory, scratchpads
and links stay. `ea` gives a lane's address and the size. -/
def AllAlign (i : Instr) (n : WordInfo) (k : PendKind) (ea : Wx → Nat → Nat × Nat) : Prop :=
  ∀ s w r, Ready n s w r → (seenBy n s w r).w.acquiring = false →
    (∀ l ∈ (seenBy n s w r).thr, (ea (seenBy n s w r) l).1 % (ea (seenBy n s w r) l).2 ≠ 0) →
    ∃ t : State, exec i s = .next (afterWord n s w r (.done t [] (some (pendOf k [] none))
        ((seenBy n s w r).thr.map fun l => ⟨l, .align, (ea (seenBy n s w r) l).1⟩))) ∧
      t.mem = s.mem ∧ t.teams = s.teams ∧ t.link = s.link

/-- Instruction `i`, a word described by `n`, completes whenever it is ready: it writes the registers that `res` lists, and changes
nothing else but the course of the run. -/
def Computes (i : Instr) (n : WordInfo) (res : Wx → List RegWrite) : Prop :=
  ∀ s w r, Ready n s w r → ∃ t, exec i s = .next t ∧ Writes n s w r (res (seenBy n s w r)) t

/-- The access has been translated and passed every check of R182. -/
def Loc.found : Loc → Bool
  | .line .. | .peer .. | .scratch _ | .opbuf _ => true
  | _ => false

/-- R182: the accesses of every active lane, of `n` bytes at the address that `ea` gives, are translated and pass every check. -/
abbrev AllFound (x : Wx) (s : State) (ea : Nat → Nat) (n : Nat) (wr : Bool) : Prop :=
  ∀ l ∈ x.thr, (s.laneLoc x l (ea l) n wr).found = true

/-- R203, R208: an access of the order may be made now: no acquire of the warp is outstanding, and a `.SC` access has waited. -/
abbrev MayAccess (x : Wx) (o : Order) : Prop := x.w.acquiring = false ∧ (o = .sc → x.run.fenced = true)

/-- R197, R203: a releasing access of the lanes to a window need not wait: the warp has no access outstanding, or none goes to a window. -/
abbrev NotEarly (x : Wx) (s : State) (o : Order) (ea : Nat → Nat) (n : Nat) : Prop :=
  Order.releases o = true → x.w.outstanding ≠ [] → ∀ l ∈ x.thr, ∀ a, s.laneLoc x l (ea l) n true ≠ .scratch a ∧
    s.laneLoc x l (ea l) n true ≠ .opbuf a

/-- R368, R373, R400: the module is READY, and the packet's interface may make the request: the admin interface, or, where `admin` does not
say that it alone may, the owner of the context. -/
abbrev Admits (s : State) (p : Packet) (admin : Bool) : Prop := s.boot.st = .ready ∧ s.mayAsk p admin = true

/-- R187: the lines of a lane's range, each with where it lies, up to the first that faults. -/
abbrev maintOf (s : State) (x : Wx) (o : MaintOp) (wr : Bool) (l : Nat) : List (Loc × Nat) :=
  s.maintRange x wr (x.ea l o.addr 0 + x.len l o.len) (x.len l o.len / 128 + 2) (x.ea l o.addr 0)

/-- R140, R181, R183: what a lane receives as `b` fills V registers from `reg` on: one for up to 4 bytes, with a narrow signed value
extended, else one for each 4 bytes. -/
def received (lane reg : Nat) (sx : Bool) (b : List Byte) : List RegWrite :=
  if b.length ≤ 4 then groupWrites reg 1 lane (if sx then wrapN 32 (sgn (8 * b.length) (leNat b)) else leNat b)
  else groupWrites reg (b.length / 4) lane (leNat b)

/-- The access in flight under the event `ev` will give lane `lane` the bytes `b` in its V registers from `reg` on. -/
def WillGive (v : Warp) (ev lane reg : Nat) (sx : Bool) (b : List Byte) : Prop :=
  ∃ p ∈ v.pend, p.id = ev ∧ p.wb = false ∧ ∀ r ∈ received lane reg sx b, r ∈ p.writes

/-- R239: the instruction's table is in use, of one of the kinds, and has the key format that the instruction names. -/
abbrev OnTable (x : Wx) (s : State) (id : Src) (kinds : List Nat) (kf : Option KeyFmt) (v : Version) : Prop :=
  s.tableOf x.g.ctx (x.w.src x.low id .b64) = some v ∧ v.accepts kinds kf = true

/-- R307: nothing of the warp keeps a mutation, a PUSH or a TAGSET waiting. -/
abbrev Settled (x : Wx) : Prop := x.w.acquiring = false ∧ x.w.outstanding = []

/-- R343: the bin is in press mode for the context and has room for an operation. -/
abbrev BinOpen (x : Wx) (s : State) (b : Nat) : Prop :=
  (s.bin b).st = .press ∧ (s.bin b).owner = x.g.ctx ∧ (s.bin b).ops.length < 32

/-! ### Rules over all words -/

/-- R34: the instructions that must be the last of a run. -/
def endsRun : Instr → Bool
  | .bra .. | .bruLabel .. | .bruRegister .. | .brx .. | .call .. | .callx .. | .ret .. | .exit .. | .bar .. | .barx .. | .syncm ..
  | .cbwait .. | .regrp .. | .regrpb .. | .waitany .. | .waitall .. | .psync .. | .napImmediate .. | .napRegister .. | .trap ..
  | .bkpt .. | .eret .. => true
  | _ => false

/-- Memory of every kind is in canonical form: device memory, every team's scratchpad and what a stop saved of it, every
operand buffer. -/
abbrev MemoryForm (s : State) : Prop :=
  s.mem.dram.wf = true ∧ (∀ t ∈ s.teams, t.scratch.wf = true ∧ t.resMem.wf = true) ∧ ∀ k ∈ s.cores, k.opbuf.wf = true

/-- R168, R405: a lane's place is in its team's scratchpad, in a sector without poison. -/
abbrev CleanScratch (s : State) (x : Wx) (l : Nat) (p : Loc) : Prop :=
  ∃ a q, p = .scratch a ∧ s.team (x.w.lane l).team = some q ∧ a / 32 ∉ q.poison

/-- No other lane of the same team accesses the `n` bytes at byte `a` of the scratchpad that lane `l` accesses. -/
def Alone (x : Wx) (s : State) (ea : Nat → Nat) (n l a : Nat) : Prop :=
  ∀ k ∈ x.thr, ∀ e, k ≠ l → (x.w.lane k).team = (x.w.lane l).team → s.laneLoc x k (ea k) n true = .scratch e → e + n ≤ a ∨ a + n ≤ e

/-- The byte `b` of team `u`'s scratchpad lies where an active lane stores `n` bytes. -/
def StoresTo (x : Wx) (s : State) (ea : Nat → Nat) (n u b : Nat) : Prop :=
  ∃ l ∈ x.thr, ∃ a, (x.w.lane l).team = u ∧ s.laneLoc x l (ea l) n true = .scratch a ∧ a ≤ b ∧ b < a + n

end Sys2Proof.Machine
end

