-- ==== Sys2Proof/Certificates/Slice0/Obligations.lean ====
section
/-! DEFINITION. What is claimed of the model, one statement for each entry of OBLIGATIONS.json. -/

open Sys2Proof Sys2Proof.Machine

/-! ### Words that only write registers -/

/-- R114, R118: two- and three-source integer arithmetic: the exact result, wrapped, or clamped under `.SAT`. -/
def Obligations.IntegerArithmetic : Prop :=
  (∀ c o, Computes (.iadd c o) (infoInt2 c o 2 o.ty.words) fun x => perForm x o.dst fun l =>
    resultOf o.dst o.ty l (tyRes o.ty o.sat (tyVal o.ty (x.w.src l o.a o.ty) + tyVal o.ty (x.w.src l o.b o.ty)))) ∧
  (∀ c o, Computes (.isub c o) (infoInt2 c o 2 o.ty.words) fun x => perForm x o.dst fun l =>
    resultOf o.dst o.ty l (tyRes o.ty o.sat (tyVal o.ty (x.w.src l o.a o.ty) - tyVal o.ty (x.w.src l o.b o.ty)))) ∧
  (∀ c o, Computes (.imul c o) (infoInt2 c o 4 o.ty.words) fun x => perForm x o.dst fun l =>
    resultOf o.dst o.ty l (tyRes o.ty o.sat (tyVal o.ty (x.w.src l o.a o.ty) * tyVal o.ty (x.w.src l o.b o.ty)))) ∧
  (∀ c o, Computes (.imulh c o) (infoInt2 c o 4 o.ty.words) fun x => perForm x o.dst fun l =>
    resultOf o.dst o.ty l (tyRes o.ty o.sat
      (tyVal o.ty (x.w.src l o.a o.ty) * tyVal o.ty (x.w.src l o.b o.ty) / (2 ^ o.ty.bits : Nat)))) ∧
  (∀ c o, Computes (.imad c o) (infoInt3 c o 4 o.ty.words o.ty.words o.ty.words o.ty.words) fun x => perForm x o.dst fun l =>
    resultOf o.dst o.ty l (tyRes o.ty o.sat
      (tyVal o.ty (x.w.src l o.a o.ty) * tyVal o.ty (x.w.src l o.b o.ty) + tyVal o.ty (x.w.src l o.c o.ty)))) ∧
  (∀ c o, Computes (.imadw c o) (infoInt3 c o 4 1 1 2 2) fun x => perForm x o.dst fun l =>
    resultOf o.dst (wideTy o.ty) l (tyRes (wideTy o.ty) o.sat
      (tyVal o.ty (x.w.src l o.a o.ty) * tyVal o.ty (x.w.src l o.b o.ty) + tyVal (wideTy o.ty) (x.w.src l o.c (wideTy o.ty))))) ∧
  (∀ c o, Computes (.imin c o) (infoInt2 c o 2 o.ty.words) fun x => perForm x o.dst fun l =>
    resultOf o.dst o.ty l (tyRes o.ty o.sat (min (tyVal o.ty (x.w.src l o.a o.ty)) (tyVal o.ty (x.w.src l o.b o.ty))))) ∧
  (∀ c o, Computes (.imax c o) (infoInt2 c o 2 o.ty.words) fun x => perForm x o.dst fun l =>
    resultOf o.dst o.ty l (tyRes o.ty o.sat (max (tyVal o.ty (x.w.src l o.a o.ty)) (tyVal o.ty (x.w.src l o.b o.ty))))) ∧
  (∀ c o, Computes (.iabs c o) (infoInt1 c o 2) fun x => perForm x o.dst fun l =>
    resultOf o.dst o.ty l (tyRes o.ty o.sat (tyVal o.ty (x.w.src l o.a o.ty)).natAbs))

/-- R114 to R116: bitwise words, shifts, rotates, fields and counts. -/
def Obligations.IntegerBits : Prop :=
  (∀ c o, Computes (.iand c o) (infoInt2 c o 2 o.ty.words) fun x => perForm x o.dst fun l =>
    resultOf o.dst o.ty l (x.w.src l o.a o.ty &&& x.w.src l o.b o.ty)) ∧
  (∀ c o, Computes (.ior c o) (infoInt2 c o 2 o.ty.words) fun x => perForm x o.dst fun l =>
    resultOf o.dst o.ty l (x.w.src l o.a o.ty ||| x.w.src l o.b o.ty)) ∧
  (∀ c o, Computes (.ixor c o) (infoInt2 c o 2 o.ty.words) fun x => perForm x o.dst fun l =>
    resultOf o.dst o.ty l (x.w.src l o.a o.ty ^^^ x.w.src l o.b o.ty)) ∧
  (∀ c o, Computes (.inot c o) (infoInt1 c o 2) fun x => perForm x o.dst fun l =>
    resultOf o.dst o.ty l (BitVec.ofNat 64 (2 ^ o.ty.bits - 1 - (x.w.src l o.a o.ty).toNat))) ∧
  (∀ c o, Computes (.shl c o) (infoInt2 c o 2 1) fun x => perForm x o.dst fun l =>
    resultOf o.dst o.ty l (BitVec.ofNat 64
      (shlBits o.ty.bits (x.w.src l o.a o.ty).toNat (x.w.src l o.b (countTy o.ty)).toNat))) ∧
  (∀ c o, Computes (.shr c o) (infoInt2 c o 2 1) fun x => perForm x o.dst fun l =>
    resultOf o.dst o.ty l (BitVec.ofNat 64
      (shrBits o.ty.bits (x.w.src l o.a o.ty).toNat (x.w.src l o.b (countTy o.ty)).toNat))) ∧
  (∀ c o, Computes (.sar c o) (infoInt2 c o 2 1) fun x => perForm x o.dst fun l =>
    resultOf o.dst o.ty l (BitVec.ofNat 64
      (sarBits o.ty.bits (x.w.src l o.a o.ty).toNat (x.w.src l o.b (countTy o.ty)).toNat))) ∧
  (∀ c o, Computes (.rol c o) (infoInt2 c o 2 1) fun x => perForm x o.dst fun l =>
    resultOf o.dst o.ty l (BitVec.ofNat 64
      (rolBits o.ty.bits (x.w.src l o.a o.ty).toNat (x.w.src l o.b (countTy o.ty)).toNat))) ∧
  (∀ c o, Computes (.bfe c o) (infoInt2 c o 2 1) fun x => perForm x o.dst fun l =>
    resultOf o.dst o.ty l (BitVec.ofNat 64
      (bfeBits o.ty (x.w.src l o.a o.ty).toNat (x.w.src l o.b (countTy o.ty)).toNat))) ∧
  (∀ c o, Computes (.bfi c o) (infoInt3 c o 2 o.ty.words o.ty.words 1 o.ty.words) fun x => perForm x o.dst fun l =>
    resultOf o.dst o.ty l (BitVec.ofNat 64
      (bfiBits o.ty.bits (x.w.src l o.a o.ty).toNat (x.w.src l o.b o.ty).toNat (x.w.src l o.c (countTy o.ty)).toNat))) ∧
  (∀ c o, Computes (.popc c o) (infoInt1 c o 2) fun x => perForm x o.dst fun l =>
    resultOf o.dst o.ty l (BitVec.ofNat 64 (popBits o.ty.bits (x.w.src l o.a o.ty).toNat))) ∧
  (∀ c o, Computes (.clz c o) (infoInt1 c o 2) fun x => perForm x o.dst fun l =>
    resultOf o.dst o.ty l (BitVec.ofNat 64 (clzBits o.ty.bits (x.w.src l o.a o.ty).toNat))) ∧
  (∀ c o, Computes (.brev c o) (infoInt1 c o 2) fun x => perForm x o.dst fun l =>
    resultOf o.dst o.ty l (BitVec.ofNat 64 (brevBits o.ty.bits (x.w.src l o.a o.ty).toNat))) ∧
  (∀ c o, Computes (.bpick c o) (infoInt3 c o 2 1 1 1 1) fun x => perForm x o.dst fun l =>
    resultOf o.dst o.ty l (BitVec.ofNat 64
      (bpickBits (x.w.src l o.a o.ty).toNat (x.w.src l o.b o.ty).toNat (x.w.src l o.c o.ty).toNat)))

/-- R117, R119, R121, R122: moves, selection and address arithmetic; NOP writes nothing. -/
def Obligations.MovesAndSelects : Prop :=
  (∀ c, Computes (.nop c) (infoNop c) fun _ => []) ∧
  (∀ c o, Computes (.mov c o) (infoMov c o) fun x => perForm x o.dst fun l => resultOf o.dst o.ty l (x.w.src l o.a o.ty)) ∧
  (∀ c o, Computes (.movi c o) (infoMovi c o) fun x => perForm x o.dst fun l => resultOf o.dst o.ty l (moviBits o.ty o.imm)) ∧
  (∀ c o, Computes (.sel c o) (infoSel c o) fun x => perForm x o.dst fun l =>
    resultOf o.dst o.ty l
      (if ((if o.dst.scalar then x.w.getC o.pi.toNat else (x.w.lane l).getP o.pi.toNat) != o.neg) = true then
        x.w.src l o.a o.ty else x.w.src l o.b o.ty)) ∧
  (∀ c o, Computes (.lea c o) (infoLea c o) fun x => perForm x o.dst fun l =>
    resultOf o.dst .b64 l (x.w.src l o.a .b64 +
      BitVec.ofInt 64 (tyVal o.ty (x.w.src l o.b o.ty) * (2 ^ o.sh.toNat : Nat))))

/-- R142, R143: FP32 arithmetic: the exact result of the operands, rounded once; MIN, MAX and CLAMP select bits. -/
def Obligations.FloatArithmetic : Prop :=
  (∀ c o, Computes (.fadd c o) (infoF2 c o 4) fun x => x.act.flatMap fun l => resultOf o.dst .f32 l
    ((to32x o.rnd o.sat o.ftz (FV.add o.rnd (f32z o.ftz (x.w.src32 l o.a .f32)) (f32z o.ftz (x.w.src32 l o.b .f32)))).zeroExtend 64)) ∧
  (∀ c o, Computes (.fsub c o) (infoF2 c o 4) fun x => x.act.flatMap fun l => resultOf o.dst .f32 l
    ((to32x o.rnd o.sat o.ftz
      (FV.add o.rnd (f32z o.ftz (x.w.src32 l o.a .f32)) (f32z o.ftz (x.w.src32 l o.b .f32)).neg)).zeroExtend 64)) ∧
  (∀ c o, Computes (.fmul c o) (infoF2 c o 4) fun x => x.act.flatMap fun l => resultOf o.dst .f32 l
    ((to32x o.rnd o.sat o.ftz (FV.mul (f32z o.ftz (x.w.src32 l o.a .f32)) (f32z o.ftz (x.w.src32 l o.b .f32)))).zeroExtend 64)) ∧
  (∀ c o, Computes (.ffma c o) (infoF3 c o 4) fun x => x.act.flatMap fun l => resultOf o.dst .f32 l
    ((to32x o.rnd o.sat o.ftz (FV.add o.rnd
      (FV.mul (f32z o.ftz (x.w.src32 l o.a .f32)) (f32z o.ftz (x.w.src32 l o.b .f32)))
      (f32z o.ftz (x.w.src32 l o.c .f32)))).zeroExtend 64)) ∧
  (∀ c o, Computes (.fmin c o) (infoF2 c o 2) fun x => x.act.flatMap fun l => resultOf o.dst .f32 l
    (BitVec.ofNat 64 (minBits fmt32 o.ftz (x.w.src32 l o.a .f32).toNat (x.w.src32 l o.b .f32).toNat))) ∧
  (∀ c o, Computes (.fmax c o) (infoF2 c o 2) fun x => x.act.flatMap fun l => resultOf o.dst .f32 l
    (BitVec.ofNat 64 (maxBits fmt32 o.ftz (x.w.src32 l o.a .f32).toNat (x.w.src32 l o.b .f32).toNat))) ∧
  (∀ c o, Computes (.fclamp c o) (infoF3 c o 2) fun x => x.act.flatMap fun l => resultOf o.dst .f32 l
    (BitVec.ofNat 64 (clampBits o.ftz (x.w.src32 l o.a .f32).toNat (x.w.src32 l o.b .f32).toNat (x.w.src32 l o.c .f32).toNat))) ∧
  (∀ c o, Computes (.fscale c o) (infoF2 c o 4) fun x => x.act.flatMap fun l => resultOf o.dst .f32 l
    ((to32x o.rnd o.sat o.ftz
      (scaleFV (f32z o.ftz (x.w.src32 l o.a .f32)) (tyVal .i32 (x.w.src l o.b .i32)))).zeroExtend 64))

/-- R144: packed pairs: each element as its own exact result, rounded once; HDOT2 sums two products and an FP32 addend. -/
def Obligations.PackedArithmetic : Prop :=
  (∀ c o, Computes (.hadd2 c o) (infoH2 c o 4) fun x => h2 x o fun a b => FV.add o.rnd a b) ∧
  (∀ c o, Computes (.hsub2 c o) (infoH2 c o 4) fun x => h2 x o fun a b => FV.add o.rnd a b.neg) ∧
  (∀ c o, Computes (.hmul2 c o) (infoH2 c o 4) fun x => h2 x o fun a b => FV.mul a b) ∧
  (∀ c o, Computes (.hfma2 c o) (infoH3 c o 4) fun x => x.act.flatMap fun l =>
    let e := fun i => FV.round (hFmt o.bf) o.rnd o.sat o.ftz (FV.add o.rnd
      (FV.mul (hVal x.w l o.a o.bf o.ftz i) (hVal x.w l o.b o.bf o.ftz i)) (hVal x.w l o.c o.bf o.ftz i))
    resultOf o.dst .b32 l (BitVec.ofNat 64 (e 0 + e 1 * 2 ^ 16))) ∧
  (∀ c o, Computes (.hmin2 c o) (infoH2 c o 2) fun x => h2Bits x o minBits) ∧
  (∀ c o, Computes (.hmax2 c o) (infoH2 c o 2) fun x => h2Bits x o maxBits) ∧
  (∀ c o, Computes (.hdot2 c o) (infoH3 c o 4) fun x => x.act.flatMap fun l =>
    let p := fun i => FV.mul (hVal x.w l o.a o.bf o.ftz i) (hVal x.w l o.b o.bf o.ftz i)
    resultOf o.dst .f32 l ((to32x o.rnd o.sat o.ftz
      (FV.add o.rnd (FV.add o.rnd (p 0) (p 1)) (f32z o.ftz (x.w.src32 l o.c .f32)))).zeroExtend 64))

/-- R145 to R150: conversions, rounding to integral values, special functions and random numbers. -/
def Obligations.ConversionsAndFunctions : Prop :=
  (∀ c o, Computes (.cvt c o) (infoCvt c o) fun x => x.act.flatMap fun l =>
    resultOf o.dst o.dt l (placeBits o.dt (cvtBits o.dt o.st o.rnd o.sat o.ftz (x.w.src l o.a o.st).toNat))) ∧
  (∀ c o, Computes (.frnd c o) (infoFrnd c o) fun x => x.act.flatMap fun l =>
    let f := (tyFmt (frndTy o.fmt)).getD fmt32
    resultOf o.dst .n32 l (BitVec.ofNat 64
      (FV.round f .rn false o.ftz (integral o.rnd (FV.ofBits f o.ftz (x.w.src l o.a (frndTy o.fmt)).toNat))))) ∧
  (∀ c o, Computes (.rcp c o) (infoSfu c o 1) fun x => sfu .rcp x o) ∧
  (∀ c o, Computes (.rsq c o) (infoSfu c o 1) fun x => sfu .rsq x o) ∧
  (∀ c o, Computes (.sqrt c o) (infoSfu c o 1) fun x => sfu .sqrt x o) ∧
  (∀ c o, Computes (.ex2 c o) (infoSfu c o 1) fun x => sfu .ex2 x o) ∧
  (∀ c o, Computes (.lg2 c o) (infoSfu c o 1) fun x => sfu .lg2 x o) ∧
  (∀ c o, Computes (.sin c o) (infoSfu c o 1) fun x => sfu .sin x o) ∧
  (∀ c o, Computes (.cos c o) (infoSfu c o 1) fun x => sfu .cos x o) ∧
  (∀ c o, Computes (.tanh c o) (infoSfu c o 1) fun x => sfu .tanh x o) ∧
  (∀ c o, Computes (.sigm c o) (infoSfu c o 1) fun x => sfu .sigm x o) ∧
  (∀ c o, Computes (.sincos c o) (infoSfu c o (if o.f16 then 1 else 2)) fun x => x.act.flatMap fun l =>
    let a := (x.w.src l o.a (if o.f16 then .f16 else .f32)).toNat
    if o.f16 then resultOf o.dst .b32 l (BitVec.ofNat 64 (sfuBits .sin o.f16 o.ftz a + sfuBits .cos o.f16 o.ftz a * 2 ^ 16))
    else resultOf o.dst .b64 l (BitVec.ofNat 64 (sfuBits .sin o.f16 o.ftz a + sfuBits .cos o.f16 o.ftz a * 2 ^ 32))) ∧
  (∀ c o, Computes (.rand c o) (infoRand c o) fun x => x.act.flatMap fun l =>
    resultOf o.dst o.ty l (randBits o.ty (x.w.src32 l o.a .n32) (x.w.src l o.b .b64)))

/-- R41, R152 to R155: exchanges, votes, matches and election among the active lanes. -/
def Obligations.CrossLaneExchange : Prop :=
  (∀ c o, Computes (.shfl c o) (infoShfl c o) fun x => exchange x o.dst o.a o.pv fun l =>
    shflSource o.mode l (x.w.src l o.b .n32).toNat) ∧
  (∀ c o, Computes (.pswap c o) (infoPswap c o) fun x => x.act.flatMap fun l =>
    let own := x.w.src l o.a .b64
    match sourceLane x (some (l ^^^ 1)) with
    | some j =>
      let other := x.w.src j o.a .b64
      resultOf o.dst .b64 l
        (if l % 2 = 0 then (other.truncate 32 : Word) ++ (own.truncate 32 : Word)
         else ((own >>> 32).truncate 32 : Word) ++ ((other >>> 32).truncate 32 : Word)) ++ bitResult (.p o.pv) l true
    | none => resultOf o.dst .b64 l own ++ bitResult (.p o.pv) l false) ∧
  (∀ c o, Computes (.qswap c o) (infoQswap c o) fun x => exchange x o.dst o.a o.pv fun l => some (l ^^^ qswapMask o.mode)) ∧
  (∀ c o, Computes (.qbcast c o) (infoQbcast c o) fun x => exchange x o.dst o.a o.pv fun l =>
    let n := (x.w.src l o.n .n32).toNat
    if n < 4 then some (4 * (l / 4) + n) else none) ∧
  (∀ c o, Computes (.vote c o) (infoVote c o) fun x =>
    let r := voteBits o.op x.w x.thr o.px.toNat
    if o.dst.scalar then resultOf o.dst .b64 0 r else x.act.flatMap fun l => resultOf o.dst .b64 l r) ∧
  (∀ c o, Computes (.matchLanes c o) (infoMatch c o) fun x => x.act.flatMap fun l =>
    resultOf o.dst .b64 l (BitVec.ofNat 64 ((x.thr.filter fun j =>
      laneMatch o.ty (x.w.src j o.a o.ty) (x.w.src (x.w.anchorOf l) o.a o.ty)).map fun j => 2 ^ j).sum)) ∧
  (∀ c o, Computes (.elect c o) (infoElect c o) fun x =>
    (x.act.flatMap fun l => bitResult (.p o.pd) l (x.w.anchorOf l == x.thr.headD 0)) ++
      resultOf o.sd .n32 0 (BitVec.ofNat 64 (x.thr.headD 0)))

/-- R125 to R128: compares, and predicate and condition logic. A poisoned operand of a packed compare is a NaN in both elements. -/
def Obligations.ComparesAndPredicates : Prop :=
  (∀ c o, Computes (.itest c o) (infoItest c o) fun x => perForm x o.dst fun l =>
    bitResult o.dst l (cmpInt o.cmp (tyVal o.ty (x.w.src l o.a o.ty)) (tyVal o.ty (x.w.src l o.b o.ty)))) ∧
  (∀ c o, Computes (.ftest c o) (infoFtest c o) fun x => perForm x o.dst fun l =>
    bitResult o.dst l (cmpFV o.cmp (f32 (x.w.src32 l o.a .f32)) (f32 (x.w.src32 l o.b .f32)))) ∧
  (∀ c o, Computes (.htest2 c o) (infoHtest2 c o) fun x => perForm x o.dst fun l =>
    let e := fun (a : Src) i => FV.ofBits (hFmt o.bf) false
      (packedSrc x.w l a o.bf (if x.w.src l a .b32 = 0x7FC0DEAD then 1 else i))
    let t := fun i => cmpFV o.cmp (e o.a i) (e o.b i)
    bitResult o.dst l (t 0) ++ bitResult (if o.dst.scalar then .c o.e else .p o.e) l (t 1)) ∧
  (∀ c o, Computes (.pcomb c o) (infoPcomb c o) fun x => x.act.flatMap fun l =>
    bitResult (.p o.d) l (bitOp o.op ((x.w.lane l).getP o.x.toNat) ((x.w.lane l).getP o.y.toNat))) ∧
  (∀ c o, Computes (.ccomb c o) (infoCcomb c o) fun x =>
    bitResult (.c o.d) 0 (bitOp o.op (x.w.getC o.x.toNat) (x.w.getC o.y.toNat))) ∧
  (∀ c o, Computes (.cset c o) (infoCset c o) fun x => bitResult (.c o.d) 0 (x.w.src 0 o.a .b64 != 0)) ∧
  (∀ c o, Computes (.p2s c o) (infoP2s c o) fun x => [⟨.s o.sd.toNat, 0, BitVec.ofNat 64
    ((x.run.lanes.filter fun l => (x.w.lane l).getP o.px.toNat).map fun l => 2 ^ l).sum⟩]) ∧
  (∀ c o, Computes (.s2p c o) (infoS2p c o) fun x => x.act.flatMap fun l =>
    bitResult (.p o.d) l ((x.w.src l o.a .b64).getLsbD (x.w.anchorOf l)))


/-! ### Words that also change a warp, a team or the module -/

/-- R151, R155 to R158: reductions and scans over the contributing lanes, and sampling. Where no lane contributes, WST.EMPTY is
set, and RDX leaves its vector destination. -/
def Obligations.Reductions : Prop :=
  (∀ c o r, Does (.rdx c o) (infoRdx c o) (fun x _ => rdxValue x o = some r) fun x s =>
    .done s (perForm x o.dst fun l => resultOf o.dst o.ty (if o.dst.scalar then 0 else l) r) none []) ∧
  (∀ c o, Does (.rdx c o) (infoRdx c o) (fun x _ => rdxValue x o = none) fun x s =>
    .done (s.modWarp x.core x.slot Warp.setEmpty)
      (if o.dst.scalar then resultOf o.dst o.ty 0 (identity o.op o.ty) else []) none []) ∧
  (∀ c o, Does (.scn c o) (infoScn c o) (fun _ _ => True) fun x s =>
    .done (if (members x o.pm).isEmpty then s.modWarp x.core x.slot Warp.setEmpty else s)
      ((x.act.flatMap fun l => resultOf o.dst o.ty l (scnValue x o (x.w.anchorOf l))) ++
        resultOf o.st o.ty 0 (scnValue x o x.w.w)) none []) ∧
  (∀ c o n, Does (.csamp c o) (infoCsamp c o)
    (fun x _ => csampLane (f32 (x.w.src32 x.low o.b .f32)) (x.thr.map fun l => (l, f32 (x.w.src32 l o.a .f32))) = some n)
    fun x s => .done s (x.act.flatMap fun l => resultOf o.dst .n32 l (BitVec.ofNat 64 n)) none []) ∧
  (∀ c o, Does (.csamp c o) (infoCsamp c o)
    (fun x _ => csampLane (f32 (x.w.src32 x.low o.b .f32)) (x.thr.map fun l => (l, f32 (x.w.src32 l o.a .f32))) = none)
    fun x s => .done (s.modWarp x.core x.slot Warp.setEmpty)
      (x.act.flatMap fun l => resultOf o.dst .n32 l 0xFFFFFFFF) none [])

/-- R129 to R135: a control transfer gives each lane of the run's group its PC, and the run ends; BRU goes by the
group's lowest lane, whose choice the checker may find to be every lane's. -/
def Obligations.ControlTransfers : Prop :=
  (∀ c o, Does (.bra c o) (infoBra c) (fun _ _ => True) fun x s =>
    .ends (s.transfer x c.sch.yld (x.ifActive fun _ => x.run.pc + o.imm.signExtend 32)) [] none) ∧
  (∀ c o, Does (.brx c o) (infoTarget c o) (fun _ _ => True) fun x s =>
    .ends (s.transfer x c.sch.yld (x.ifActive fun l => x.w.src32 l o.t .n32)) [] none) ∧
  (∀ c o, Does (.bruLabel c o) (infoBruLabel c o)
    (fun x _ => x.g.f.checker = true → ∀ l ∈ x.run.lanes,
      (x.w.lane l).getP o.px.toNat = (x.w.lane (x.run.lanes.headD 0)).getP o.px.toNat) fun x s =>
    .ends (s.transfer x c.sch.yld fun _ =>
      if (x.w.lane (x.run.lanes.headD 0)).getP o.px.toNat = true then some (x.run.pc + o.imm.signExtend 32) else none) [] none) ∧
  (∀ c o, Does (.bruRegister c o) (infoBruReg c o)
    (fun x _ => x.g.f.checker = true → ∀ l ∈ x.run.lanes,
      (x.w.lane l).getP o.px.toNat = (x.w.lane (x.run.lanes.headD 0)).getP o.px.toNat ∧
        ((x.w.lane (x.run.lanes.headD 0)).getP o.px.toNat = true →
          x.w.src32 l o.t .n32 = x.w.src32 (x.run.lanes.headD 0) o.t .n32)) fun x s =>
    .ends (s.transfer x c.sch.yld fun _ =>
      if (x.w.lane (x.run.lanes.headD 0)).getP o.px.toNat = true then some (x.w.src32 (x.run.lanes.headD 0) o.t .n32) else none)
      [] none) ∧
  (∀ c o, Does (.call c o) (infoCall c o) (fun _ _ => True) fun x s =>
    .ends (s.transfer x false (x.ifActive fun _ => x.run.pc + o.imm.signExtend 32))
      (x.act.flatMap fun l => resultOf o.ret .n32 l ((x.run.pc + 1).zeroExtend 64)) none) ∧
  (∀ c o, Does (.callx c o) (infoCallx c o) (fun _ _ => True) fun x s =>
    .ends (s.transfer x false (x.ifActive fun l => x.w.src32 l o.t .n32))
      (x.act.flatMap fun l => resultOf o.ret .n32 l ((x.run.pc + 1).zeroExtend 64)) none) ∧
  (∀ c o, Does (.ret c o) (infoTarget c o) (fun _ _ => True) fun x s =>
    .ends ((s.traceCore 3 x.core x.g.ctx 8 (x.run.pc.toNat + (x.w.src32 x.low o.t .n32).toNat * 2 ^ 32)
      ((x.act.map fun l => 2 ^ l).sum) 0).transfer x false (x.ifActive fun l => x.w.src32 l o.t .n32)) [] none)

/-- R132, R162, R182, R292, R303: faults of a word as a whole: under the checker, BRU whose lanes disagree on the predicate, or on a
target that is taken, and SYNCM with masks that differ from the phase's first; a barrier or command word of a warp that is MIXED; ERET with no lane in a handler; and ALIGN in every lane of an
access that is misaligned in all of them, which is not made. -/
def Obligations.WordFaults : Prop :=
  (∀ c o s w r, Ready (infoBruReg c o) s w r → (s.gridOf w.grid).f.checker = true →
    (let x := seenBy (infoBruReg c o) s w r
     (∃ l ∈ r.lanes, (x.w.lane l).getP o.px.toNat ≠ (x.w.lane (r.lanes.headD 0)).getP o.px.toNat) ∨
     ((x.w.lane (r.lanes.headD 0)).getP o.px.toNat = true ∧
       ∃ l ∈ r.lanes, x.w.src32 l o.t .n32 ≠ x.w.src32 (r.lanes.headD 0) o.t .n32)) →
    exec (.bruRegister c o) s =
      .next (afterWord (infoBruReg c o) s w r (.fault .uniform 0 false))) ∧
  (∀ c o, Does (.bruLabel c o) (infoBruLabel c o)
    (fun x _ => x.g.f.checker = true ∧ ∃ l ∈ x.run.lanes,
      (x.w.lane l).getP o.px.toNat ≠ (x.w.lane (x.run.lanes.headD 0)).getP o.px.toNat) fun _ _ => .fault .uniform 0 false) ∧
  (∀ c o, Does (.syncm c o) (infoSyncm c o)
    (fun x _ => x.g.f.checker = true ∧ ∃ l ∈ x.thr, syncMask x.w l o.m ≠
      (match x.w.sync with
      | some p => p.first
      | none => syncMask x.w (x.thr.headD 0) o.m)) fun _ _ => .fault .maskmis 0 false) ∧
  (∀ i n, ((∃ c o, i = .bar c o ∧ n = infoBar c o) ∨ (∃ c o, i = .barx c o ∧ n = infoBarx c o) ∨
      (∃ c o, i = .push c o ∧ n = infoPush c o) ∨ (∃ c o, (i = .waitany c o ∨ i = .waitall c o) ∧ n = infoMask c o true) ∨
      (∃ c o, i = .ffr c o ∧ n = infoFfr c o) ∨
      (∃ c o, (i = .tagclr c o ∨ i = .tagset c o ∨ i = .leaseRegister c o) ∧ n = infoMask c o false) ∨
      (∃ c o, i = .leaseImmediate c o ∧ n = infoUni c false) ∨ (∃ c, i = .unlease c ∧ n = infoUni c false)) →
    Does i n (fun x _ => x.w.mixed = true) fun _ _ => .fault .mixedBarrier 0 false) ∧
  (∀ c, Does (.eret c) (infoUni c true) (fun x _ => ∀ l ∈ x.run.lanes, (x.w.lane l).inh = false) fun _ _ =>
    .fault .illegalOperand 0 false) ∧
  (∀ c o, o.ord = .rlx → AllAlign (.ld c o) (infoLd c o) .load fun x l => (x.ea l o.addr o.off, o.ty.bytes)) ∧
  (∀ c o, o.ord = .rlx → AllAlign (.st c o) (infoSt c o) .store fun x l => (x.ea l o.addr o.off, o.ty.bytes))

/-- R43, R136, R137: EXIT and NAP. -/
def Obligations.ExitAndNap : Prop :=
  (∀ c, Does (.exit c) (infoLane c true) (fun _ _ => True) fun x s =>
    .ends ((s.modWarp x.core x.slot fun w => w.modLanes x.run.lanes fun l => { l with pc := x.run.pc + 1 }).exitLanes x.w x.thr)
      [] none) ∧
  (∀ c o, Does (.napImmediate c o) (infoNapImm c) (fun _ _ => True) fun x s =>
    .ends (s.modWarp x.core x.slot fun w => { w.modLanes x.run.lanes (fun l => { l with pc := x.run.pc + 1 }) with
      hold := some ⟨.napImmediate c o, x.run.lanes, x.run.pc, s.gtime, s.clkOf x.core, o.n.toNat, w.cmdsDone, false, none⟩ }) []
      (some (pendOf .held [] none))) ∧
  (∀ c o, Does (.napRegister c o) (infoNapReg c o) (fun _ _ => True) fun x s =>
    .ends (s.modWarp x.core x.slot fun w => { w.modLanes x.run.lanes (fun l => { l with pc := x.run.pc + 1 }) with
      hold := some ⟨.napRegister c o, x.run.lanes, x.run.pc, s.gtime, s.clkOf x.core,
        min 16777215 (x.w.src 0 o.m .b64).toNat, w.cmdsDone, false, none⟩ }) [] (some (pendOf .held [] none)))

/-- R284, R289, R292 to R294: TRAP and BKPT trap with their number in the record; BKPT under a debugger stops the warp after the run;
ERET returns each lane that is in a handler, with its cursor slots as its region entry left them where it returns there; ILLEG faults with
ILLEGAL_OPCODE. That lanes guarded off at TRAP and BKPT go to PC + 1, and the cause and detail of a stop by BKPT, are the model's readings
(DEDUCED, log 19; DEDUCED, log 29). -/
def Obligations.Traps : Prop :=
  (∀ c o, Does (.trap c o) (infoLane c true) (fun _ _ => True) fun x s =>
    .ends ((s.modWarp x.core x.slot fun w => w.modLanes x.run.lanes fun l => { l with pc := x.run.pc + 1 }).trap x.w.uid x.thr
      (some (x.run.pc + 1)) (e7Word x.run.pc o.n.toNat .trap)) [] none) ∧
  (∀ c o, Does (.bkpt c o) (infoLane c true) (fun x s => s.debugged x.w = false) fun x s =>
    .ends ((s.modWarp x.core x.slot fun w => w.modLanes x.run.lanes fun l => { l with pc := x.run.pc + 1 }).trap x.w.uid x.thr
      (some (x.run.pc + 1)) (e7Word x.run.pc o.n.toNat .bkpt)) [] none) ∧
  (∀ c o, Does (.bkpt c o) (infoLane c true) (fun x s => s.debugged x.w = true) fun x s =>
    .ends (s.modWarp x.core x.slot fun w =>
      { w.modLanes x.run.lanes (fun l => { l with pc := x.run.pc + 1 }) with
        run := w.run.map fun r => { r with stopAfter := mergeStop r.stopAfter (3, 0, 0) } }) [] none) ∧
  (∀ c, Does (.eret c) (infoUni c true) (fun x _ => ∃ l ∈ x.run.lanes, (x.w.lane l).inh = true) fun x s =>
    .ends ((x.run.lanes.foldl (fun s l => s.undoPins (x.w.lane l).toUndo) s).modWarp x.core x.slot fun w =>
      w.modLanes x.run.lanes fun l =>
        if l.inh then
          (match l.kSaved with
          | some (k, _) => { l with pc := l.ret, inh := false, k := k, kRec := k, pinLog := [], kSaved := none }
          | none => { l with pc := l.ret, inh := false })
        else { l with pc := x.run.pc + 1 }) [] none) ∧
  (∀ c raw s w r, s.inRun = some (w, r) → (s.actives w c.g false r.lanes).isEmpty = false →
    exec (.illeg c raw) s = .next ((s.drawn w (guardKeys c.g false)).wholeFault w r
      ((s.actives w c.g false r.lanes).filter fun l => (w.lane l).kind.isThread) .illegalOpcode 0 false))

/-- R290, R291, R295, R296: special registers, WST, STOPCHK and MARK. -/
def Obligations.SystemWords : Prop :=
  (∀ c o, Does (.movs c o) (infoMovs c o) (fun _ _ => 8 ≤ o.r.toNat) fun x s =>
    let v := fun l => s.special x.w x.g l o.r.toNat
    let s1 := if capturedReg o.r.toNat then x.thr.foldl (fun s l => s.rval x.w l x.run.pc (s.special x.w x.g l o.r.toNat).toNat 0) s
      else s
    .done (if o.r.toNat = 56 then s1.dropSelf x.core else s1) (perForm x o.dst fun l =>
      resultOf o.dst (if o.dst.scalar then .b64 else .b32) l (v l)) none []) ∧
  (∀ c o v rest, Does (.movs c o) (infoMovs c o)
    (fun x _ => o.r.toNat < 8 ∧ x.w.e.getD o.r.toNat [] = v :: rest) fun x s =>
    .done (x.thr.foldl (fun s l => s.rval x.w l x.run.pc v.toNat 0)
        ((s.modWarpU x.w.uid fun w => { w with e := w.e.set o.r.toNat rest }).deliverHeld x.w.uid o.r.toNat))
      (resultOf o.dst .b64 0 v) (some (pendOf .queue [] none)) []) ∧
  (∀ c o, Does (.movw c o) (infoMovw c o) (fun _ _ => True) fun x s =>
    .done (s.modWarp x.core x.slot fun w =>
      { w with wst := w.wst &&& ~~~((x.w.src 0 o.a .i64).truncate 5 &&& 0x15#5) }) [] none []) ∧
  (∀ c o, Does (.stopchk c o) (infoStopchk c o) (fun _ _ => True) fun x s =>
    .done s [⟨.c o.cd.toNat, 0, if s.stopNear x.w then 1 else 0⟩] none []) ∧
  (∀ c o, Does (.mark c o) (infoMark c o) (fun _ _ => True) fun x s =>
    .done (s.traceCore 2 x.core x.g.ctx 4 (x.w.src 0 o.a .i64).toNat (x.run.pc.toNat + x.w.cmdseq.toNat * 2 ^ 32)
      (o.n.toNat + x.slot % 64 * 2 ^ 16)) [] none [])

/-- R181 to R184, R188 to R190: an access whose lanes all pass the checks of R182 is made, and the word completes; a RED returns
nothing. What an operation on a line does: a load returns its bytes; an atomic returns the old value and stores the new one; a
CAS returns the old value and stores where it equals the compare value; an operation that touches a poisoned sector returns nothing
but that it met poison, and stores nothing. What a lane receives fills its V registers, a narrow signed type extended. -/
def Obligations.MemoryAccesses : Prop :=
  (∀ c o, Does (.ld c o) (infoLd c o)
    (fun x s => MayAccess x o.ord ∧ AllFound x s (fun l => x.ea l o.addr o.off) o.ty.bytes false) fun x s =>
      let as := s.places x (fun l => x.ea l o.addr o.off) o.ty.bytes false
      (((s.translated x as).watched x true false as o.ty.bytes).perform x ⟨loadKind, loadHit, o.rc.toNat, false, []⟩
        (partsOf x.w as (fun l off => .read l off o.ty.bytes (dstV o.dst) o.ty) fun _ _ => [])).finish x .load (x.scope (fun l => x.ea l o.addr o.off) o.sc) o.ord [] []) ∧
  (∀ c o, Does (.st c o) (infoSt c o)
    (fun x s => MayAccess x o.ord ∧ AllFound x s (fun l => x.ea l o.addr o.off) o.ty.bytes true ∧
      NotEarly x s o.ord (fun l => x.ea l o.addr o.off) o.ty.bytes) fun x s =>
      let as := s.places x (fun l => x.ea l o.addr o.off) o.ty.bytes true
      (((s.translated x as).watched x false true as o.ty.bytes).perform x
        ⟨storeKind o.rc.toNat, storeHit o.rc.toNat (!(x.deps o.ord).isEmpty), o.rc.toNat, false, x.deps o.ord⟩
        (partsOf x.w as (fun l off => .write off (x.bytes l o.data o.ty)) fun l off => lateOf o.data l off o.ty.bytes)).finish x .store (x.scope (fun l => x.ea l o.addr o.off) o.sc) o.ord [] []) ∧
  (∀ c o, Does (.atom c o) (infoAtom c o)
    (fun x s => MayAccess x o.ord ∧ AllFound x s (fun l => x.ea l o.addr 0) o.ty.bytes true ∧
      NotEarly x s o.ord (fun l => x.ea l o.addr 0) o.ty.bytes ∧
      ∀ l ∈ x.thr, viaAtomicOp o.sc (s.laneLoc x l (x.ea l o.addr 0) o.ty.bytes true) = true → carried o.op o.ty = true) fun x s =>
      let as := s.places x (fun l => x.ea l o.addr 0) o.ty.bytes true
      (((s.translated x as).watched x false true as o.ty.bytes).perform x
        ⟨fun _ _ => .atHome, fun _ _ _ _ => false, 0, o.sc == .sys, x.deps o.ord⟩
        (partsOf x.w as (fun l off => .atom l off o.op o.ty (x.w.src l o.b o.ty) (some (dstV o.dst))) fun l _ => lateOf o.b l 0 o.ty.bytes)).finish x .rmw (x.scope (fun l => x.ea l o.addr 0) o.sc) o.ord [] []) ∧
  (∀ c o, Does (.red c o) (infoRed c o)
    (fun x s => MayAccess x o.ord ∧ AllFound x s (fun l => x.ea l o.addr 0) o.ty.bytes true ∧
      NotEarly x s o.ord (fun l => x.ea l o.addr 0) o.ty.bytes ∧
      ∀ l ∈ x.thr, viaAtomicOp o.sc (s.laneLoc x l (x.ea l o.addr 0) o.ty.bytes true) = true → carried o.op o.ty = true) fun x s =>
      let as := s.places x (fun l => x.ea l o.addr 0) o.ty.bytes true
      (((s.translated x as).watched x false true as o.ty.bytes).perform x
        ⟨fun _ _ => .atHome, fun _ _ _ _ => false, 0, o.sc == .sys, x.deps o.ord⟩
        (partsOf x.w as (fun l off => .atom l off o.op o.ty (x.w.src l o.b o.ty) none) fun l _ => lateOf o.b l 0 o.ty.bytes)).finish x .rmw (x.scope (fun l => x.ea l o.addr 0) o.sc) o.ord [] []) ∧
  (∀ c o, Does (.cas c o) (infoCas c o)
    (fun x s => MayAccess x o.ord ∧ AllFound x s (fun l => x.ea l o.addr 0) (CasTy.size o.ct) true ∧
      NotEarly x s o.ord (fun l => x.ea l o.addr 0) (CasTy.size o.ct)) fun x s =>
      let as := s.places x (fun l => x.ea l o.addr 0) (CasTy.size o.ct) true
      let m := ((s.translated x as).watched x false true as (CasTy.size o.ct)).perform x
        ⟨fun _ _ => .atHome, fun _ _ _ _ => false, 0, o.sc == .sys, x.deps o.ord⟩
        (partsOf x.w as (fun l off =>
            .cas l off (CasTy.size o.ct) (x.casBytes l o.cv o.ct) (x.casBytes l o.nv o.ct) o.dst.toNat) fun l _ =>
          lateOf o.cv l 0 (CasTy.size o.ct) ++ lateOf o.nv l (CasTy.size o.ct) (CasTy.size o.ct))
      m.finish x .rmw (x.scope (fun l => x.ea l o.addr 0) o.sc) o.ord
        (x.w.withHelpers (casOk o (x.thr.filter fun l => !((resBads m.rs).map Bad.lane).contains l))) []) ∧
  (∀ lane off n reg ty d p, p &&& touched off n = 0 →
    LineOp.run (.read lane off n reg ty) d p = (d, p, [⟨lane, some reg, ty.signed, slice d off n, false, false⟩])) ∧
  (∀ lane off op ty b reg d p, p &&& touched off ty.bytes = 0 →
    LineOp.run (.atom lane off op ty b reg) d p =
      (patch d off (leBytes ty.bytes (atomNew op ty (leNat (slice d off ty.bytes)) (b.toNat % 2 ^ ty.bits))), p,
        [⟨lane, reg, false, slice d off ty.bytes, false, false⟩])) ∧
  (∀ lane off n c new reg d p, p &&& touched off n = 0 →
    LineOp.run (.cas lane off n c new reg) d p =
      (if slice d off n = c then patch d off new else d, p, [⟨lane, some reg, false, slice d off n, true, false⟩])) ∧
  (∀ op d p, p &&& touched op.range.1 op.range.2 ≠ 0 →
    (∃ lane off n reg ty, op = .read lane off n reg ty) ∨ (∃ lane off o ty b reg, op = .atom lane off o ty b reg) ∨
      (∃ lane off n c new reg, op = .cas lane off n c new reg) →
    (LineOp.run op d p).1 = d ∧ ∃ r, (LineOp.run op d p).2.2 = [r] ∧ r.bad = true ∧ LaneRes.regWrites r = []) ∧
  (∀ lane reg sx b cas bad, LaneRes.regWrites ⟨lane, some reg, sx, b, cas, bad⟩ = received lane reg sx b)

/-- R185, R383 to R386: a counting store to a count barrier of the module; one to a barrier of a peer, which asks the peer to check the
barrier, waits, and then makes its stores, each of which counts where its data lies at that peer as well, while the peer counts for the
other lanes; the arming of a barrier; and CBWAIT: 1 at once where COUNT has reached TARGET, 0 at once for n = 0 where it has not, else it
waits. The question to a peer and when a CBWAIT reads are the model's (DESIGN CHOICE, log 60; DESIGN CHOICE, log 114). -/
def Obligations.CountBarriers : Prop :=
  (∀ c o l off a nc, Does (.stCb c o) (infoStCb c o)
    (fun x s => x.w.acquiring = false ∧ x.thr ≠ [] ∧ s.cbPlace x (x.w.src 0 o.cb .b64).toNat = .line l off a nc ∧
      AllFound x s (fun l => x.ea l o.addr 0) o.ty.bytes true ∧ NotEarly x s .rel (fun l => x.ea l o.addr 0) o.ty.bytes ∧
      s.link.live ≠ 0) fun x s =>
      let as := s.places x (fun l => x.ea l o.addr 0) o.ty.bytes true
      let m := ((s.translated x as).watched x false true as o.ty.bytes).perform x
        ⟨storeKind 0, storeHit 0 (!(x.deps .rel).isEmpty), 0, false, x.deps .rel⟩
        (partsOf x.w as (fun l off => .write off (x.bytes l o.data o.ty)) fun l off => lateOf o.data l off o.ty.bytes)
      let q := m.s.addReqs x [⟨l, a, nc, .cbInc off x.thr, [], x.thr⟩] (fun _ => .atHome) 0 false (x.deps .rel ++ m.ids)
      ({ m with s := q.1, ids := m.ids ++ q.2 } : Made).finish x .store (x.scope (fun l => x.ea l o.addr 0) o.sc) .rel [] []) ∧
  (∀ c o md off, Does (.stCb c o) (infoStCb c o)
    (fun x s => x.w.acquiring = false ∧ s.cbPlace x (x.w.src 0 o.cb .b64).toNat = .peer md off ∧
      AllFound x s (fun l => x.ea l o.addr 0) o.ty.bytes true ∧ NotEarly x s .rel (fun l => x.ea l o.addr 0) o.ty.bytes ∧
      s.cbAnswer x (x.w.src 0 o.cb .b64).toNat md off = .ok 0 ∧ s.link.live ≠ 0) fun x s =>
      let as := s.places x (fun l => x.ea l o.addr 0) o.ty.bytes true
      let ps := partsOf x.w as (fun l off => .write off (x.bytes l o.data o.ty)) fun l off => lateOf o.data l off o.ty.bytes
      let there := ps.filter fun p => !p.atPeer md
      let m := (((s.translated x as).watched x false true as o.ty.bytes).perform x
        ⟨storeKind 0, storeHit 0 (!(x.deps .rel).isEmpty), 0, false, x.deps .rel⟩ there).peers x (x.deps .rel) (countingFlit off)
          (ps.filter fun p => p.atPeer md)
      (m.peers x (x.deps .rel ++ m.ids) id (there.map fun p => ⟨.peer md off, .cbInc (off % 128) [p.lane], p.lane, []⟩)).finish x .store
        (x.scope (fun l => x.ea l o.addr 0) o.sc) .rel [] []) ∧
  (∀ c o md off t, Does (.stCb c o) (infoStCb c o)
    (fun x s => x.w.acquiring = false ∧ s.cbPlace x (x.w.src 0 o.cb .b64).toNat = .peer md off ∧
      AllFound x s (fun l => x.ea l o.addr 0) o.ty.bytes true ∧ s.cbAnswer x (x.w.src 0 o.cb .b64).toNat md off = .error t)
    fun _ _ => .hold t) ∧
  (∀ c o md off n k, Does (.stCb c o) (infoStCb c o)
    (fun x s => x.w.acquiring = false ∧ s.cbPlace x (x.w.src 0 o.cb .b64).toNat = .peer md off ∧
      AllFound x s (fun l => x.ea l o.addr 0) o.ty.bytes true ∧
      s.cbAnswer x (x.w.src 0 o.cb .b64).toNat md off = .ok n ∧ n ≠ 0 ∧ codeOf n = some k) fun x _ =>
      .fault k (x.w.src 0 o.cb .b64).toNat true) ∧
  (∀ (s : State) x cb md off, x.w.walked.find? (fun n => n.1 / 2 ^ 8 == cbNote cb 0 / 2 ^ 8) = none → s.link.live ≠ 0 →
    ∃ t, s.cbAnswer x cb md off = .error t ∧ ((s.link.out.any fun p => p.warp == x.w.uid && p.op == .cbInc 0 []) = true → t = s) ∧
      ((s.link.out.any fun p => p.warp == x.w.uid && p.op == .cbInc 0 []) = false → t = (s.addPeer x md off x.low (.cbInc 0 []) [] id).1)) ∧
  (∀ c o l off a nc, Does (.cbarm c o) (infoCbarm c o)
    (fun x s => x.w.acquiring = false ∧ s.cbObject x.w (x.w.getS o.a.toNat).toNat true = .line l off a nc) fun x s =>
      let q := s.addReqs x [⟨l, a, nc, .cbArm off (x.w.src 0 o.t .b64) x.thr, [], x.thr⟩] (fun _ => .atHome) 0 false (x.deps .ar)
      .done q.1 [] (some (pendOf .rmw q.2 (some .sys))) []) ∧
  (∀ c o l off a nc u n g bad, Does (.cbwait c o) (infoCbwait c o)
    (fun x s => x.w.acquiring = false ∧ s.cbObject x.w (x.w.getS o.a.toNat).toNat false = .line l off a nc ∧
      s.lineBusy x.core l = false ∧ s.homeFree l = true ∧ s.cbRead l off a x.g.ctx = (u, n, g, bad)) fun x _ =>
      if bad then .done u [] (some (pendOver .load)) (x.thr.map fun l => ⟨l, .machineCheck, (x.w.getS o.a.toNat).toNat⟩)
      else if g ≤ n then .done ((u.rvalCb x.w x.thr x.run.pc 1).dropSelf x.core) [⟨.c o.cd.toNat, 0, 1⟩] (some (pendOver .load)) []
      else if (x.w.src 0 o.n .n64).toNat = 0 then
        .done (u.rvalCb x.w x.thr x.run.pc 0) [⟨.c o.cd.toNat, 0, 0⟩] (some (pendOver .load)) []
      else .ends ((u.stand x).modWarp x.core x.slot fun w => { w with
        hold := some ⟨.cbwait c o, x.run.lanes, x.run.pc, u.gtime, u.clkOf x.core,
          min (x.w.src 0 o.n .n64).toNat (2 ^ 40), (x.w.getS o.a.toNat).toNat, false, none⟩ }) [] (some (pendOf .held [] none)))

/-- R186, R187: a prefetch completes and raises no fault: it asks, once each, for the lines that its lanes' addresses lie in, where they
pass the checks of R182 and a cache may hold them, near lines only where the L1 has none; a missing translation is waited for. A
maintenance word completes: it asks each line of the ranges of the lanes none of whose bytes fails, with the operation of its
kind and the levels of its scope; each other lane faults at its first byte that fails. A range that does not fail has one entry for each
line that holds a byte of it, with the line's place. -/
def Obligations.CacheMaintenance : Prop :=
  (∀ c o, Does (.prf c o) (infoPrf c o)
    (fun x s => s.ask x ((s.places x (fun l => x.ea l o.addr o.off) 1 false).map fun a => a.2.2) = none) fun x s =>
      let as := s.places x (fun l => x.ea l o.addr o.off) 1 false
      let near := fun (a : BitVec 16) => decide ((o.sc = .warp ∨ o.sc = .team) ∧ attrLvl a = 0 ∧ attrCls a ≠ .unc)
      .done ((s.translated x as).addReqs x
        (as.filterMap fun p => match p.2.2 with
          | .line l _ a nc =>
            if nc = true ∨ attrLvl a = 2 ∨ (near a = true ∧ (s.l1 x.core l).isSome = true) then none
            else some ⟨l, a, nc, .read p.1 0 0 255 .n8, [], [p.1]⟩
          | _ => none) (fun i => .prefetch (near i.attr)) o.rc.toNat false []).1 [] none []) ∧
  (∀ c o t, Does (.prf c o) (infoPrf c o)
    (fun x s => s.ask x ((s.places x (fun l => x.ea l o.addr o.off) 1 false).map fun a => a.2.2) = some t) fun _ _ => .hold t) ∧
  (∀ c o i kind wr, (i = Instr.clean c o ∧ kind = ReqKind.clean ∧ wr = false) ∨ (i = .inval c o ∧ kind = .inval ∧ wr = true) ∨
      (i = .clinv c o ∧ kind = .clinv ∧ wr = false) ∨ (i = .drop c o ∧ kind = .drop ∧ wr = true) →
    Does i (infoMaint c o) (fun x s => x.w.acquiring = false ∧
        s.ask x (x.thr.flatMap fun l => (maintOf s x o wr l).map Prod.fst) = none) fun x s =>
      let bad := x.thr.flatMap fun l => (maintOf s x o wr l).filterMap fun r => match r.1 with
        | .fault c => some (Bad.mk l c r.2)
        | _ => none
      let its := (x.thr.filter fun l => !bad.any fun b => b.lane == l).flatMap fun l =>
        (maintOf s x o wr l).filterMap fun r => match r.1 with
        | .line n _ a nc => if attrLvl a = 2 then none else some (Item.mk n a nc (.read l 0 0 255 .n8) [] [l])
        | _ => none
      let q := (s.dropFailed x bad).addReqs x its (fun _ => kind (o.sc == .dev || o.sc == .sys) (o.sc == .sys)) 0 false []
      .done q.1 [] (some (pendOf .maint q.2 none)) bad) ∧
  (∀ (s : State) x o wr l, let r := maintOf s x o wr l
    let va := x.ea l o.addr 0
    let n := x.len l o.len
    (∀ e ∈ r, ∀ c, e.1 ≠ .fault c) →
    r = (List.range (if n = 0 then 0 else (va + n - 1) / 128 - va / 128 + 1)).map fun j =>
      let a := if j = 0 then va else 128 * (va / 128 + j)
      (s.engPlace (x.core / 64) x.g.ctx a wr, a))

/-- R206, R210: a fence whose wait is over acquires what its order says and completes; OPFENCE completes once every register
write of the warp has taken place. -/
def Obligations.Fences : Prop :=
  (∀ c o, Does (.fence c o) (infoFence c)
    (fun x _ => x.run.fenced = true ∨ (o.ord ≠ .sc ∧ x.w.fenceDone o.sc o.ord = true)) fun x s =>
      .done (if o.ord = .rel then s else s.acquireNow x.core o.sc) [] (some (pendOver .maint)) []) ∧
  (∀ c o, Does (.fence c o) (infoFence c)
    (fun x _ => x.run.fenced = false ∧ (o.ord = .sc ∨ x.w.fenceDone o.sc o.ord = false)) fun x s =>
      .hold (s.modWarp x.core x.slot fun w =>
        { w with hold := some ⟨.fence c o, [], x.run.pc, s.gtime, s.clkOf x.core, 0, w.cmdsDone, false, none⟩ })) ∧
  (∀ c, Does (.opfence c) (infoFence c) (fun x _ => x.w.opDone = true) fun x s =>
      .done (s.modWarp x.core x.slot fun w => { w with flight := w.flight.map fun f => { f with sure := true } }) []
        (some (pendOver .maint)) [])

/-- R243 to R249, R258, R259: lookups and cursors on a table that passes R239. -/
def Obligations.TableLookups : Prop :=
  (∀ c o v, Does (.tlook c o) (infoTKey c o)
    (fun x s => x.w.acquiring = false ∧ OnTable x (s.dropSelf x.core) o.id [1, 2, 3, 4] (some o.kf) v ∧
      (s.dropSelf x.core).rowBusy x.core x.g.ctx
        ((s.dropSelf x.core).mapRows v (x.thr.map fun l => x.w.keyOf l o.kf o.key)) = false) fun x s =>
      let r := x.each (s.dropSelf x.core) fun s l => s.tlook (x.core / 64) l v o.kf (x.w.keyOf l o.kf o.key)
      r.1.quads x o.dst [v.uid] r.2) ∧
  (∀ c o v, Does (.trow c o) (infoTRow c o)
    (fun x s => x.w.acquiring = false ∧ OnTable x (s.dropSelf x.core) o.id [1, 2, 3] (some o.kf) v) fun x s =>
      (s.dropSelf x.core).quads x o.dst [v.uid] (x.thr.map fun l =>
        (l, .quad (if (x.w.src32 l o.n .n32).toNat ≥ v.rows then .status 2
          else match v.keyAt (x.w.src32 l o.n .n32).toNat with
            | some k => .row (v.handle (x.w.src32 l o.n .n32).toNat) k
            | none => .status 1)))) ∧
  (∀ c o v, Does (.tseek c o) (infoTSeek c o)
    (fun x s => x.w.acquiring = false ∧ OnTable x (s.dropSelf x.core) o.id [1, 2] (some o.kf) v ∧
      (∀ l ∈ x.thr, (x.w.lane l).cursor o.k.toNat = none) ∧ v.pins.length + x.thr.length < 2 ^ 32) fun x s =>
      let r := x.each (s.dropSelf x.core) fun s l => s.tseek x o v l
      (r.1.count x.core 0x0A (r.2.filter fun o => match o.2 with
        | .quad q => q.st != 4
        | .bad _ => false).length).quads x o.dst [v.uid] r.2) ∧
  (∀ c o, Does (.tnext c o) (infoTStep c o)
    (fun x _ => x.w.acquiring = false ∧ ∀ l ∈ x.thr, (x.w.lane l).cursor o.k.toNat ≠ none) fun x s =>
      let r := x.each (s.dropSelf x.core) fun s l => s.tstep x o.k.toNat true l
      (r.1.count x.core 0x0A x.thr.length).quads x o.dst
        ((x.thr.filterMap fun l => ((x.w.lane l).cursor o.k.toNat).map Cursor.ver).eraseDups) r.2) ∧
  (∀ c o, Does (.tprev c o) (infoTStep c o)
    (fun x _ => x.w.acquiring = false ∧ ∀ l ∈ x.thr, (x.w.lane l).cursor o.k.toNat ≠ none) fun x s =>
      let r := x.each (s.dropSelf x.core) fun s l => s.tstep x o.k.toNat false l
      (r.1.count x.core 0x0A x.thr.length).quads x o.dst
        ((x.thr.filterMap fun l => ((x.w.lane l).cursor o.k.toNat).map Cursor.ver).eraseDups) r.2) ∧
  (∀ c o, Does (.tclose c o) (infoTClose c) (fun _ _ => True) fun x s =>
      .done ((x.thr.foldl (fun s l => s.tclose x o.k.toNat l) s).freeVersions.count x.core 9 1) [] (some (pendOver .table)) []) ∧
  (∀ c o v, Does (.tstat c o) (infoTId c o)
    (fun x s => x.w.acquiring = false ∧ OnTable x (s.dropSelf x.core) o.id [1, 2, 3, 4] none v) fun x s =>
      (s.dropSelf x.core).quads x o.dst [] (x.thr.map fun l =>
        (l, .quad ⟨v.number, fld v.d0 0 24, 0, min v.rows 0xFFFFFFFF⟩))) ∧
  (∀ c o v, Does (.tcount c o) (infoTId c o)
    (fun x s => x.w.acquiring = false ∧ OnTable x (s.dropSelf x.core) o.id [1, 2, 3, 4] none v ∧
      (s.dropSelf x.core).rowBusy x.core x.g.ctx ((s.dropSelf x.core).stateRows v) = false) fun x s =>
      let r := (s.dropSelf x.core).tcount (x.core / 64) v
      r.1.quads x o.dst [v.uid] (x.thr.map fun l => (l, .quad ⟨r.2 % 2 ^ 32, r.2 / 2 ^ 32, 0, v.number⟩)))

/-- R224, R229, R250 to R256, R261 to R263: mutations, lane by lane in ascending order, once the host has given back its copies of the lines
they write, and their homes serve no other request to them; TADD, and pins and versions. That a mutation acts as it issues, on all its
lanes at one instant, and that it waits until nothing of its warp is outstanding, is the model's choice (DESIGN CHOICE, log 62; DESIGN
CHOICE, log 52). -/
def Obligations.TableMutations : Prop :=
  (∀ c o v, Does (.tins c o) (infoTKey c o)
    (fun x s => Settled x ∧ OnTable x (s.dropSelf x.core) o.id [2, 3] (some o.kf) v ∧
      let r := x.each (s.dropSelf x.core) fun s l => s.tins x v.uid o.kf l (x.w.keyOf l o.kf o.key)
      (s.dropSelf x.core).askBack (rowKey x.w.uid) x.g.ctx
          ((s.dropSelf x.core).rowLines (x.core / 64) x.g.ctx v.rowBytes r.2) = none ∧
        ∀ l ∈ (s.dropSelf x.core).rowLines (x.core / 64) x.g.ctx v.rowBytes r.2, (s.dropSelf x.core).homeFree l = true) fun x s =>
      let r := x.each (s.dropSelf x.core) fun s l => s.tins x v.uid o.kf l (x.w.keyOf l o.kf o.key)
      r.1.quads x o.dst [v.uid] r.2) ∧
  (∀ c o v, Does (.tdel c o) (infoTKey c o)
    (fun x s => Settled x ∧ OnTable x (s.dropSelf x.core) o.id [2, 3] (some o.kf) v) fun x s =>
      let r := x.each (s.dropSelf x.core) fun s l => s.tdel v.uid o.kf (x.w.keyOf l o.kf o.key)
      r.1.quads x o.dst [v.uid] r.2) ∧
  (∀ c o v, Does (.trekey c o) (infoTRekey c o)
    (fun x s => Settled x ∧ OnTable x (s.dropSelf x.core) o.id [2, 3] (some o.kf) v ∧
      let r := x.each (s.dropSelf x.core) fun s l =>
        s.trekey x v.uid o.kf l (x.w.keyOf l o.kf o.key) (x.w.keyOf l o.kf o.new)
      (s.dropSelf x.core).askBack (rowKey x.w.uid) x.g.ctx
          ((s.dropSelf x.core).rowLines (x.core / 64) x.g.ctx (keyBytes o.kf) r.2) = none ∧
        ∀ l ∈ (s.dropSelf x.core).rowLines (x.core / 64) x.g.ctx (keyBytes o.kf) r.2, (s.dropSelf x.core).homeFree l = true) fun x s =>
      let r := x.each (s.dropSelf x.core) fun s l =>
        s.trekey x v.uid o.kf l (x.w.keyOf l o.kf o.key) (x.w.keyOf l o.kf o.new)
      r.1.quads x o.dst [v.uid] r.2) ∧
  (∀ c o, Does (.tadd c o) (infoTAdd c o)
    (fun x s => x.w.acquiring = false ∧
      ∀ l ∈ x.thr, (s.taddLoc x (x.ea l o.addr o.off) (if o.q then 8 else 4)).found = true) fun x s =>
      let as := x.thr.map fun l =>
        (l, x.ea l o.addr o.off, s.taddLoc x (x.ea l o.addr o.off) (if o.q then 8 else 4))
      (((s.count x.core 9 1).watched x false true as (if o.q then 8 else 4)).perform x
        ⟨fun _ _ => .atHome, fun _ _ _ _ => false, 0, false, []⟩
        (partsOf x.w as (fun l off => .tadd l off o.q (x.w.src32 l o.val .f32)) fun l _ => lateOf o.val l 0 4)).finish x .tadd .dev .rlx [] []) ∧
  (∀ c o v, Does (.tpin c o) (infoTId c o)
    (fun x s => OnTable x s o.id [1, 2, 3, 4] none v ∧ v.pins.length + x.thr.length < 2 ^ 32) fun x s =>
      let r := x.each s fun s l => ((s.takePin x l v.uid (some x.g.uid)).1, .quad ⟨v.number, 0, 0, 0⟩)
      r.1.quads x o.dst [] r.2) ∧
  (∀ c o v t, Does (.tunpin c o) (infoTUnpin c o)
    (fun x s => OnTable x s o.id [1, 2, 3, 4] none v ∧ s.tunpinAll x v.id o.ver = some t) fun x _ =>
      t.freeVersions.quads x o.dst [] (x.thr.map fun l => (l, .quad (.status 0)))) ∧
  (∀ c o v t, Does (.tswap c o) (infoTSwap c o)
    (fun x s => Settled x ∧ OnTable x (s.dropSelf x.core) o.id [1, 2, 3, 4] none v ∧
      (s.dropSelf x.core).tableOf x.g.ctx (x.w.src x.low o.st .b64) = some t ∧ t.kind = v.kind ∧ t.kfmt = v.kfmt ∧
      t.pins = [] ∧ t.id ≠ v.id) fun x s =>
      let r := x.each (s.dropSelf x.core) fun s l => s.tswap x v.id t.id (x.w.src32 l o.e .n32).toNat
      r.1.freeVersions.quads x o.dst [] r.2)

/-- R285, R310 to R317, R329: commands, tags and leases of a warp that is not MIXED: a PUSH into a full queue sets its C register, or with CT
waits; a LEASE by a team that holds or awaits one on its core's array, or on the follower core of a cohort, raises LEASE. That a lease is
granted at once on an idle array, and that a TAGSET opens its gates at once, is the model's choice (DESIGN CHOICE, log 83; DESIGN CHOICE,
log 84). A wait that observes the tag of a command that has faulted raises the fault of the lowest such tag: it is reported no more, and the
run's lanes trap, to return to the wait. -/
def Obligations.CommandWords : Prop :=
  (∀ c o, Does (.push c o) (infoPush c o)
    (fun x s => x.w.mixed = false ∧ Settled x ∧ queueFull (s.core x.core) o.q.toNat = false ∧
      pushBad o.q.toNat ((List.range 8).map fun j => x.w.getS (o.sb.toNat + j)) x.g.f.tags
        (o.q.toNat == 0 && x.g.f.cohort2 && x.core % 2 == 0) = false) fun x s =>
      .done (s.accept x o.q.toNat ((List.range 8).map fun j => x.w.getS (o.sb.toNat + j))) [⟨.c o.cd.toNat, 0, 0⟩] none []) ∧
  (∀ c o, Does (.push c o) (infoPush c o)
    (fun x s => x.w.mixed = false ∧ queueFull (s.core x.core) o.q.toNat = true ∧
      pushBad o.q.toNat ((List.range 8).map fun j => x.w.getS (o.sb.toNat + j)) x.g.f.tags
        (o.q.toNat == 0 && x.g.f.cohort2 && x.core % 2 == 0) = false) fun x s =>
      if o.cd = 7 then .hold (s.modWarp x.core x.slot fun w =>
        { w with hold := some ⟨.push c o, [], x.run.pc, s.gtime, s.clkOf x.core, o.q.toNat, w.cmdsDone, false, none⟩ })
      else .done (s.count x.core 0x0C 1) [⟨.c o.cd.toNat, 0, 1⟩] none []) ∧
  (∀ c o i all, (i = Instr.waitany c o ∧ all = false) ∨ (i = .waitall c o ∧ all = true) →
    Does i (infoMask c o true) (fun x s => x.w.mixed = false ∧ (x.w.src 0 o.m .b64).toNat < 2 ^ x.g.f.tags ∧
        waitOver all (s.tagmap x.w) (x.w.src 0 o.m .b64) = true ∧ (all = true ∨ x.w.src 0 o.m .b64 ≠ 0) ∧
        x.w.faultedTag (s.tagmap x.w &&& x.w.src 0 o.m .b64) = none) fun x s =>
      .done ((s.rvalLanes x (s.tagmap x.w).toNat).dropSelf x.core) [] none []) ∧
  (∀ c o i all, (i = Instr.waitany c o ∧ all = false) ∨ (i = .waitall c o ∧ all = true) →
    Does i (infoMask c o true) (fun x s => x.w.mixed = false ∧ (x.w.src 0 o.m .b64).toNat < 2 ^ x.g.f.tags ∧
        waitOver all (s.tagmap x.w) (x.w.src 0 o.m .b64) = false ∧ (all = true ∨ x.w.src 0 o.m .b64 ≠ 0)) fun x s =>
      .ends ((s.stand x).modWarp x.core x.slot fun w => { w with
        hold := some ⟨i, x.run.lanes, x.run.pc, s.gtime, s.clkOf x.core, (x.w.src 0 o.m .b64).toNat, w.cmdsDone, false, none⟩ })
        [] (some (pendOf .held [] none))) ∧
  (∀ c o i all f, (i = Instr.waitany c o ∧ all = false) ∨ (i = .waitall c o ∧ all = true) →
    Does i (infoMask c o true) (fun x s => x.w.mixed = false ∧ (x.w.src 0 o.m .b64).toNat < 2 ^ x.g.f.tags ∧
        waitOver all (s.tagmap x.w) (x.w.src 0 o.m .b64) = true ∧ (all = true ∨ x.w.src 0 o.m .b64 ≠ 0) ∧
        x.w.faultedTag (s.tagmap x.w &&& x.w.src 0 o.m .b64) = some f) fun x s =>
      .ends ((s.stand x).raiseEngine x.core x.slot x.run.lanes x.run.pc f) [] none) ∧
  (∀ c o n f, Does (.ffr c o) (infoFfr c o)
    (fun x s => x.w.mixed = false ∧ (x.w.src 0 o.m .b64).toNat < 2 ^ x.g.f.tags ∧ n < 64 ∧
      (s.tagmap x.w &&& x.w.src 0 o.m .b64).getLsbD n = true ∧
      (∀ k < n, (s.tagmap x.w &&& x.w.src 0 o.m .b64).getLsbD k = false) ∧ x.w.faultedTag (1#64 <<< n) = some f)
    fun x s => .ends ((s.stand x).raiseEngine x.core x.slot x.run.lanes x.run.pc f) [] none) ∧
  (∀ (s : State) core slot lanes pc f w, s.warpAt core slot = some w →
    let report := fun (w : Warp) => { w.endHeld with efaults := w.efaults.filter (fun g => g != f), hold := none }
    s.raiseEngine core slot lanes pc f = (s.modWarp core slot report).deliver (report w) lanes (some pc)) ∧
  (∀ (w : Warp) m f, w.faultedTag m = some f → f ∈ w.efaults ∧ m.getLsbD f.tag = true ∧
    ∀ g ∈ w.efaults, m.getLsbD g.tag = true → f.tag ≤ g.tag) ∧
  (∀ c o, Does (.ffr c o) (infoFfr c o)
    (fun x s => x.w.mixed = false ∧ (x.w.src 0 o.m .b64).toNat < 2 ^ x.g.f.tags ∧ s.tagmap x.w &&& x.w.src 0 o.m .b64 = 0)
    fun x s => .done (s.rvalLanes x 64) [⟨.s o.sd.toNat, 0, 64⟩] none []) ∧
  (∀ c o n, Does (.ffr c o) (infoFfr c o)
    (fun x s => x.w.mixed = false ∧ (x.w.src 0 o.m .b64).toNat < 2 ^ x.g.f.tags ∧ n < 64 ∧
      (s.tagmap x.w &&& x.w.src 0 o.m .b64).getLsbD n = true ∧
      (∀ k < n, (s.tagmap x.w &&& x.w.src 0 o.m .b64).getLsbD k = false) ∧ x.w.faultedTag (1#64 <<< n) = none)
    fun x s => .done ((s.rvalLanes x n).dropSelf x.core) [⟨.s o.sd.toNat, 0, BitVec.ofNat 64 n⟩] none []) ∧
  (∀ c o, Does (.tagclr c o) (infoMask c o false)
    (fun x _ => x.w.mixed = false ∧ (x.w.src 0 o.m .b64).toNat < 2 ^ x.g.f.tags) fun x s =>
      .done (s.modTeam x.w.team fun t => { t with tags := t.tags &&& ~~~(x.w.src 0 o.m .b64) }) [] none []) ∧
  (∀ c o, Does (.tagset c o) (infoMask c o false)
    (fun x _ => x.w.mixed = false ∧ (x.w.src 0 o.m .b64).toNat < 2 ^ x.g.f.tags ∧ Settled x) fun x s =>
      .done ((s.modTeam x.w.team fun t => { t with tags := t.tags ||| x.w.src 0 o.m .b64 }).openGates x.w.team) [] none []) ∧
  (∀ c o, Does (.leaseRegister c o) (infoMask c o false)
    (fun x s => x.w.mixed = false ∧ x.w.src 0 o.m .b64 ≠ 0 ∧ ¬ (x.g.f.cohort2 = true ∧ x.core % 2 = 1) ∧
      (s.core x.core).leasing x.w.team = false) fun x s =>
      .done (((leaseCores x.g x.core).foldl (fun s c => s.modCore c fun k => { k with
        leaseReq := k.leaseReq ++ [(x.w.team, s.ownerOf x.w.team, min (x.w.src 0 o.m .b64).toNat 16777215)] }) s).grantIdle x.core) [] none []) ∧
  (∀ c o, Does (.leaseImmediate c o) (infoUni c false)
    (fun x s => x.w.mixed = false ∧ o.n ≠ 0 ∧ ¬ (x.g.f.cohort2 = true ∧ x.core % 2 = 1) ∧
      (s.core x.core).leasing x.w.team = false) fun x s =>
      .done (((leaseCores x.g x.core).foldl (fun s c => s.modCore c fun k => { k with
        leaseReq := k.leaseReq ++ [(x.w.team, s.ownerOf x.w.team, o.n.toNat)] }) s).grantIdle x.core) [] none []) ∧
  (∀ c o, Does (.leaseRegister c o) (infoMask c o false)
    (fun x s => x.w.mixed = false ∧ x.w.src 0 o.m .b64 ≠ 0 ∧
      ((x.g.f.cohort2 = true ∧ x.core % 2 = 1) ∨ (∃ l, (s.core x.core).lease = some l ∧ l.team = x.w.team) ∨
        ∃ q ∈ (s.core x.core).leaseReq, q.1 = x.w.team)) fun _ _ => .fault .lease 0 false) ∧
  (∀ c o, Does (.leaseImmediate c o) (infoUni c false)
    (fun x s => x.w.mixed = false ∧ o.n ≠ 0 ∧
      ((x.g.f.cohort2 = true ∧ x.core % 2 = 1) ∨ (∃ l, (s.core x.core).lease = some l ∧ l.team = x.w.team) ∨
        ∃ q ∈ (s.core x.core).leaseReq, q.1 = x.w.team)) fun _ _ => .fault .lease 0 false) ∧
  (∀ c, Does (.unlease c) (infoUni c false) (fun x _ => x.w.mixed = false) fun x s =>
      .done (let s1 := (leaseCores x.g x.core).foldl (fun s c => s.modCore c fun k => { k with
          lease := k.lease.filter fun l => !(l.team == x.w.team)
          leaseReq := k.leaseReq.filter fun r => !(r.1 == x.w.team) }) s
        (leaseCores x.g x.core).foldl State.grantIdle s1) [] none [])

/-- R91, R124, R328: queue registers: a pop of a record or of an entry that is there, a push into a register with room. The
entry is made of the threads' lanes, and a helper receives its anchor's part (DEDUCED, log 96). -/
def Obligations.QueueRegisters : Prop :=
  (∀ c o v rest, Does (.movQueuePop c o) (infoQPop c o)
    (fun x _ => o.e.toNat < 8 ∧ x.w.e.getD o.e.toNat [] = v :: rest) fun x s =>
      .done ((s.modWarpU x.w.uid fun w => { w with e := w.e.set o.e.toNat rest }).deliverHeld x.w.uid o.e.toNat)
        (resultOf o.dst .b64 0 v) (some (pendOf .queue [] none)) []) ∧
  (∀ c o, Does (.movQueuePop c o) (infoQPop c o)
    (fun x _ => o.e.toNat = 7 ∧ x.w.e.getD 7 [] = []) fun _ s =>
      .done s (resultOf o.dst .b64 0 0) (some (pendOf .queue [] none)) []) ∧
  (∀ c o, Does (.movQueuePop c o) (infoQPop c o)
    (fun x _ => 8 ≤ o.e.toNat ∧ x.w.w / 2 ≤ (x.w.e.getD o.e.toNat []).length) fun x s =>
      .done ((s.cardsOn x.w.uid o.e.toNat).foldl (fun s c => s.putDrain c.1 c.2)
          (s.modWarp x.core x.slot fun w =>
            { w with e := w.e.set o.e.toNat ((x.w.e.getD o.e.toNat []).drop (x.w.w / 2)) }))
        (x.act.flatMap fun l => resultOf o.dst .b32 l
          (BitVec.ofNat 64
          (fld ((x.w.e.getD o.e.toNat []).getD (x.w.anchorOf l / 2) 0) (32 * (x.w.anchorOf l % 2)) 32)))
        (some (pendOf .queue [] none)) []) ∧
  (∀ c o, Does (.movQueuePush c o) (infoQPush c o)
    (fun x _ => (x.w.e.getD o.e.toNat []).length < 4 * (x.w.w / 2)) fun x s =>
      .done (s.modWarp x.core x.slot fun w => { w with e := w.e.set o.e.toNat (x.w.e.getD o.e.toNat [] ++ x.entry o.a) })
        [] (some (pendOf .queue [] none)) []) ∧
  (∀ (x : Wx) a j, j < x.w.w / 2 → (x.entry a)[j]? = some
    ((if x.thr.contains (2 * j + 1) then x.w.src32 (2 * j + 1) a .b32 else 0) ++
      (if x.thr.contains (2 * j) then x.w.src32 (2 * j) a .b32 else 0)))

/-- R159 to R163: the active lanes arrive at a barrier, once the warp's earlier accesses are performed, or at a SYNCM, and the run ends; an
arrival at a barrier may complete the phase. A SYNCM opens a phase with its lowest lane's mask, or joins the open one; where a mask differs
from the phase's first and the checker is off, WST.MASKMIS is set and the arrival counts with the union. -/
def Obligations.Barriers : Prop :=
  (∀ c o s w r, Ready (infoBar c o) s w r →
    let x := seenBy (infoBar c o) s w r
    x.w.mixed = false → (x.w.src 0 o.m .b64).toNat ≤ 15 → Settled x →
    exec (.bar c o) s = .next ((afterWord (infoBar c o) s w r
      (.ends ((startOf (infoBar c o) s w r).arrive x (x.w.src 0 o.m .b64).toNat none none fun _ => 0) [] none)).checkBars x.w.team)) ∧
  (∀ c o s w r, Ready (infoBarx c o) s w r →
    let x := seenBy (infoBarx c o) s w r
    x.w.mixed = false → (x.w.src 0 o.n .b64).toNat ≤ 15 → Settled x →
    exec (.barx c o) s = .next ((afterWord (infoBarx c o) s w r
      (.ends ((startOf (infoBarx c o) s w r).arrive x (x.w.src 0 o.n .b64).toNat (some (o.op, o.ty))
        (match o.dst with
          | .s k => some k.toNat
          | _ => none) fun l => x.w.src l o.a o.ty) [] (some (pendOf .barrier [] none)))).checkBars x.w.team)) ∧
  (∀ c o p, Does (.syncm c o) (infoSyncm c o)
    (fun x _ => x.thr ≠ [] ∧
      p = (x.w.sync.getD ⟨syncMask x.w (x.thr.headD 0) o.m, 0, []⟩) ∧
      (x.g.f.checker = true → ∀ l ∈ x.thr, syncMask x.w l o.m = p.first)) fun x s =>
      .ends (s.modWarp x.core x.slot fun w =>
        let w1 := (w.modLanes x.run.lanes fun l => { l with pc := x.run.pc + 1 }).modLanes x.thr fun l => { l with st := .syncm }
        let w2 := if ∃ l ∈ x.thr, syncMask x.w l o.m ≠ p.first then w1.setMaskmis else w1
        ({ w2 with sync := some ⟨p.first, x.thr.foldl (fun a l => a ||| syncMask x.w l o.m) p.mask, p.arrived ++ x.thr⟩ }).checkSync) [] none)

/-- R299, R300, R304: the active threads arrive at a regroup, and the run ends; a REGRP.TEAM in a mixed warp raises MIXED_BARRIER, before its
KEY is looked at (DEDUCED, log 98), and a REGRP of a warp that has a KEY, or that differs from the arrivals of its domain, ILLEGAL_OPERAND. -/
def Obligations.RegroupArrivals : Prop :=
  (∀ c o, Does (.regrp c o) (infoRegrp c o)
    (fun x s => (o.core = true ∨ x.w.mixed = false) ∧ x.w.key = BitVec.allOnes 64 ∧
      s.agrees x.w ⟨false, o.core, o.vl.toNat, o.n.toNat, o.sl.toNat, o.m.toNat, false⟩ = true) fun x s =>
      .ends (s.regArrive x ⟨false, o.core, o.vl.toNat, o.n.toNat, o.sl.toNat, o.m.toNat, false⟩ fun l =>
        (x.w.src32 l (.v o.vk .plain) .n32).toNat % 2 ^ 16) [] none) ∧
  (∀ c o, o.core = false → Does (.regrp c o) (infoRegrp c o) (fun x _ => x.w.mixed = true) fun _ _ => .fault .mixedBarrier 0 false) ∧
  (∀ c o, Does (.regrp c o) (infoRegrp c o)
    (fun x s => (o.core = true ∨ x.w.mixed = false) ∧ (x.w.key ≠ BitVec.allOnes 64 ∨
      s.agrees x.w ⟨false, o.core, o.vl.toNat, o.n.toNat, o.sl.toNat, o.m.toNat, false⟩ = false)) fun _ _ => .fault .illegalOperand 0 false) ∧
  (∀ c o, Does (.regrpb c o) (infoRegrpb c o)
    (fun x s => x.w.key ≠ BitVec.allOnes 64 ∧
      s.agrees x.w ⟨true, false, o.vl.toNat, o.n.toNat, o.sl.toNat, o.m.toNat, false⟩ = true) fun x s =>
      .ends (s.regArrive x ⟨true, false, o.vl.toNat, o.n.toNat, o.sl.toNat, o.m.toNat, false⟩ fun _ => 0) [] none)

/-- R340, R348: a PMODE whose bins may all take the switch starts it, with a CMDSEQ of its own; where one of its bins may not, no bin
switches, and it completes with status 0x40; a PMODE of no bins completes with 0. -/
def Obligations.PressModes : Prop :=
  ∀ c o i press, (i = Instr.pmodePress c o ∧ press = true) ∨ (i = .pmodeCache c o ∧ press = false) →
    (Does i (infoPmode c o) (fun x s => (x.w.src 0 o.m .b64).toNat < 2 ^ 24 ∧ o.t.toNat < x.g.f.tags ∧
        binsOf (x.w.src 0 o.m .b64).toNat ≠ [] ∧ ∀ b ∈ binsOf (x.w.src 0 o.m .b64).toNat,
          if press = true then (s.bin b).st = .cache else (s.bin b).st = .press ∧ (s.bin b).owner = x.g.ctx) fun x s =>
      let bs := binsOf (x.w.src 0 o.m .b64).toNat
      let seq := (s.core x.core).nextSeq
      let s1 := (s.modCore x.core fun k => { k with nextSeq := bumpSeq seq }).modWarp x.core x.slot fun w =>
        { w with cmdseq := BitVec.ofNat 32 seq }
      let s2 := bs.foldl (fun s b => s.switchBin x.g.ctx press b) s1
      .done { s2 with pmodes := s2.pmodes ++ [⟨x.core, x.w.uid, x.w.team, seq, o.t.toNat, x.run.pc, press, bs⟩] } []
        (some (pendOver .press)) []) ∧
    (∀ b, Does i (infoPmode c o) (fun x s => (x.w.src 0 o.m .b64).toNat < 2 ^ 24 ∧ o.t.toNat < x.g.f.tags ∧
        (binsOf (x.w.src 0 o.m .b64).toNat).find? (fun b =>
          if press then (s.bin b).st != .cache else (s.bin b).st != .press || (s.bin b).owner != x.g.ctx) = some b) fun x s =>
      let seq := (s.core x.core).nextSeq
      let s1 := (s.modCore x.core fun k => { k with nextSeq := bumpSeq seq }).modWarp x.core x.slot fun w =>
        { w with cmdseq := BitVec.ofNat 32 seq }
      .done (s1.report ⟨6, x.core, x.core, x.w.uid, x.w.team, o.t.toNat, seq, x.run.pc⟩ 0x40 b) [] (some (pendOver .press)) []) ∧
    Does i (infoPmode c o) (fun x _ => (x.w.src 0 o.m .b64).toNat < 2 ^ 24 ∧ o.t.toNat < x.g.f.tags ∧
        binsOf (x.w.src 0 o.m .b64).toNat = []) fun x s =>
      let seq := (s.core x.core).nextSeq
      let s1 := (s.modCore x.core fun k => { k with nextSeq := bumpSeq seq }).modWarp x.core x.slot fun w =>
        { w with cmdseq := BitVec.ofNat 32 seq }
      .done (s1.report ⟨6, x.core, x.core, x.w.uid, x.w.team, o.t.toNat, seq, x.run.pc⟩ 0 0) [] (some (pendOver .press)) []

/-- R341 to R344: a press operation on vectors of one bin that is in press mode, is the context's and has room, is accepted. -/
def Obligations.PressOperations : Prop :=
  (∀ c o i k sg, (i = Instr.padd c o ∧ k = POpKind.add ∧ sg = o.sgn) ∨ (i = .psub c o ∧ k = .sub ∧ sg = o.sgn) ∨
      (i = .pmul c o ∧ k = .mul ∧ sg = o.sgn) ∨ (i = .pand c o ∧ k = .and ∧ sg = false) ∨
      (i = .por c o ∧ k = .or ∧ sg = false) ∨ (i = .pxor c o ∧ k = .xor ∧ sg = false) →
    (∀ b d a, o.b.isS = false ∨ o.k = true → Does i (infoPress2 c o)
      (fun x s => descsOf [x.w.getS o.d.toNat, x.w.getS o.a.toNat] = some (b, [d, a]) ∧ BinOpen x s b) fun x s =>
        s.acceptPress x b ⟨x.w.uid, x.w.team, x.g.ctx, 0, k, sg, d, a, .const (x.const o.b sg)⟩) ∧
    (∀ b d a e n u, o.b = .s n u → o.k = false → Does i (infoPress2 c o)
      (fun x s => descsOf [x.w.getS o.d.toNat, x.w.getS o.a.toNat, x.w.getS n.toNat] = some (b, [d, a, e]) ∧ BinOpen x s b)
      fun x s => s.acceptPress x b ⟨x.w.uid, x.w.team, x.g.ctx, 0, k, sg, d, a, .vec e⟩)) ∧
  (∀ c o b d a, o.b.isS = false ∨ o.k = true → Does (.pcmp c o) (infoPcmp c o)
    (fun x s => descsOf [x.w.getS o.d.toNat, x.w.getS o.a.toNat] = some (b, [d, a]) ∧ BinOpen x s b)
    fun x s => s.acceptPress x b 
      ⟨x.w.uid, x.w.team, x.g.ctx, 0, .cmp o.cmp, o.sgn, d, a, .const (x.const o.b o.sgn)⟩) ∧
  (∀ c o b d a e n u, o.b = .s n u → o.k = false → Does (.pcmp c o) (infoPcmp c o)
    (fun x s => descsOf [x.w.getS o.d.toNat, x.w.getS o.a.toNat, x.w.getS n.toNat] = some (b, [d, a, e]) ∧ BinOpen x s b)
    fun x s => s.acceptPress x b ⟨x.w.uid, x.w.team, x.g.ctx, 0, .cmp o.cmp, o.sgn, d, a, .vec e⟩) ∧
  (∀ c o b d a, Does (.pnot c o) (infoPress1 c o)
    (fun x s => descsOf [x.w.getS o.d.toNat, x.w.getS o.a.toNat] = some (b, [d, a]) ∧ BinOpen x s b) fun x s =>
      s.acceptPress x b ⟨x.w.uid, x.w.team, x.g.ctx, 0, .not, false, d, a, .const 0⟩) ∧
  (∀ c o b d a e m, m.w = 1 → Does (.psel c o) (infoPsel c o)
    (fun x s => descsOf [x.w.getS o.d.toNat, x.w.getS o.a.toNat, x.w.getS o.b.toNat, x.w.getS o.m.toNat] = some (b, [d, a, e, m]) ∧
      BinOpen x s b) fun x s =>
      s.acceptPress x b ⟨x.w.uid, x.w.team, x.g.ctx, 0, .sel m, false, d, a, .vec e⟩) ∧
  (∀ c o b d a, Does (.psat c o) (infoPsat c o)
    (fun x s => descsOf [x.w.getS o.d.toNat, x.w.getS o.a.toNat] = some (b, [d, a]) ∧ BinOpen x s b) fun x s =>
      s.acceptPress x b 
        ⟨x.w.uid, x.w.team, x.g.ctx, 0, .sat (x.const o.lo o.sgn) (x.const o.hi o.sgn), o.sgn, d, a, .const 0⟩) ∧
  (∀ c o b a, Does (.pcnt c o) (infoPcnt c o)
    (fun x s => descsOf [x.w.getS o.a.toNat] = some (b, [a]) ∧ BinOpen x s b) fun x s =>
      s.acceptPress x b ⟨x.w.uid, x.w.team, x.g.ctx, 0, .cnt o.d.toNat, false, a, a, .const 0⟩) ∧
  (∀ c o b d a, Does (.pshl c o) (infoPshift c o)
    (fun x s => descsOf [x.w.getS o.d.toNat, x.w.getS o.a.toNat] = some (b, [d, a]) ∧ BinOpen x s b) fun x s =>
      s.acceptPress x b ⟨x.w.uid, x.w.team, x.g.ctx, 0, .shl (min 64 (x.w.src 0 o.n .n64).toNat), false, d, a, .const 0⟩) ∧
  (∀ c o b d a, Does (.pshr c o) (infoPshift c o)
    (fun x s => descsOf [x.w.getS o.d.toNat, x.w.getS o.a.toNat] = some (b, [d, a]) ∧ BinOpen x s b) fun x s =>
      s.acceptPress x b ⟨x.w.uid, x.w.team, x.g.ctx, 0, .shr (min 64 (x.w.src 0 o.n .n64).toNat), o.sgn, d, a, .const 0⟩)

/-- R346, R347: PXIN and PXOUT of a range that lies in one flat table and passes every check are accepted; PSYNC of bins with no
operation of the warp completes as an acquire, and holds the warp otherwise. -/
def Obligations.PressTransfers : Prop :=
  (∀ c o i out b v t, (i = Instr.pxin c o ∧ out = false) ∨ (i = .pxout c o ∧ out = true) →
    Does i (infoPxfer c o) (fun x s =>
        let a := (x.w.getS o.a.toNat).toNat
        let n := (x.w.getS o.n.toNat).toNat
        descsOf [x.w.getS o.d.toNat] = some (b, [v]) ∧ 1 ≤ n ∧ n ≤ 262144 ∧ a % elemSize v.w = 0 ∧
        s.storageAt x.g.ctx a = some t ∧ a + elemSize v.w * n ≤ t.base + t.len ∧ t.kind = 1 ∧ BinOpen x s b ∧
        ∀ p ∈ pieces a (elemSize v.w * n), ∃ l k at_ nc, s.engPlace (x.core / 64) x.g.ctx p.1 out = .line (.dev l) k at_ nc) fun x s =>
      let a := (x.w.getS o.a.toNat).toNat
      let n := (x.w.getS o.n.toNat).toNat
      let lines := (pieces a (elemSize v.w * n)).filterMap fun p => match s.engPlace (x.core / 64) x.g.ctx p.1 out with
        | .line (.dev l) _ at_ _ => some (l, at_)
        | _ => none
      s.acceptPress x b ⟨x.w.uid, x.w.team, x.g.ctx, 0,
        if out then .xout n (a % 128) lines else .xin n (a % 128) lines, false, v, v, .const 0⟩) ∧
  (∀ c o, Does (.psync c o) (infoPsync c o)
    (fun x s => (x.w.src 0 o.m .b64).toNat < 2 ^ 24 ∧ s.pressBusy x.w.uid (x.w.src 0 o.m .b64).toNat = false) fun x s =>
      .done (s.dropSelf x.core) [] (some (pendOver .press)) []) ∧
  (∀ c o, Does (.psync c o) (infoPsync c o)
    (fun x s => (x.w.src 0 o.m .b64).toNat < 2 ^ 24 ∧ s.pressBusy x.w.uid (x.w.src 0 o.m .b64).toNat = true) fun x s =>
      .ends ((s.stand x).modWarp x.core x.slot fun w => { w with
        hold := some ⟨.psync c o, x.run.lanes, x.run.pc, s.gtime, s.clkOf x.core, (x.w.src 0 o.m .b64).toNat, w.cmdsDone, false, none⟩ })
        [] (some (pendOf .held [] none)))


/-! ### The module's own steps, and what reaches it from outside -/

/-- R91, R96, R137, R206, R208, R210, R311, R316, R343, R347, R386: a hold ends when what it waits for has come: the run's lanes go on, or the
word is executed where it stands; the event of a wait that is over finishes then. A nap of no cycles ends once a choice of a run has passed
it over. A CBWAIT reads its object at the home each time (DESIGN CHOICE, log 114), and faults where it is poisoned. -/
def Obligations.HeldWaitsEnd : Prop :=
  ∀ s core slot w (h : Hold), s.warpAt core slot = some w → w.hold = some h →
  (h.isNap = true → (h.n ≠ 0 ∧ s.clkOf w.core ≥ h.k0 + h.n) ∨ (h.n = 0 ∧ h.ready = true) ∨ w.cmdsDone > h.seen →
    exec (.napEnd core slot) s = .next (s.modWarp core slot fun w => { w.endHeld with hold := none, readyAt := s.gtime })) ∧
  (∀ sc o, h.fence = some (sc, o) → o ≠ .sc → w.fenceDone sc o = true →
    exec (.fenceCompletion core slot) s = .next (s.fenceOver core slot h)) ∧
  (∀ sc, h.fence = some (sc, .sc) → h.ready = true →
    exec (.fenceScCompletion core slot) s = .next (s.fenceOver core slot h)) ∧
  (∀ c o, h.i = .fence c o → s.fenceOver core slot h =
    (s.unhold core slot true).redo core slot (infoFence c) (fenceBody (.fence c o) o)) ∧
  (∀ sc o, h.fence = some (sc, o) → (∀ c o, h.i ≠ .fence c o) → s.fenceOver core slot h =
    if o = .rel then s.unhold core slot true else (s.unhold core slot true).acquireNow core sc) ∧
  (∀ c, h.i = .opfence c → w.opDone = true →
    exec (.opfenceCompletion core slot) s =
      .next ((s.unhold core slot false).redo core slot (infoFence c) (opfenceBody (.opfence c)))) ∧
  (∀ c o, h.i = .push c o → queueFull (s.core core) o.q.toNat = false →
    exec (.pushPlaceFreed core slot) s =
      .next ((s.unhold core slot false).redo core slot (infoPush c o) (pushBody (.push c o) o))) ∧
  (∀ all, h.tagWait = some all → waitOver all (s.tagmap w) (BitVec.ofNat 64 h.n) = true →
      w.faultedTag (s.tagmap w &&& BitVec.ofNat 64 h.n) = none →
    exec (.tagWaitWakeup core slot) s = .next (((h.lanes.foldl (fun t l => t.rval w l h.pc (s.tagmap w).toNat 0) s).dropSelf core).modWarp
      core slot fun w => w.goOn h s.gtime)) ∧
  (∀ all f, h.tagWait = some all → waitOver all (s.tagmap w) (BitVec.ofNat 64 h.n) = true →
      w.faultedTag (s.tagmap w &&& BitVec.ofNat 64 h.n) = some f →
    exec (.tagWaitWakeup core slot) s = .next (s.raiseEngine core slot h.lanes h.pc f)) ∧
  (∀ c o u n g, h.i = .cbwait c o → s.cbLook w h = some (u, n, g, false) → g ≤ n →
    exec (.cbwaitSatisfied core slot) s = .next (((u.rvalCb w h.lanes h.pc 1).dropSelf core).modWarp core slot fun w =>
      w.cbEnd h o 1 s.gtime)) ∧
  (∀ c o u n g, h.i = .cbwait c o → s.cbLook w h = some (u, n, g, false) → n < g → s.gtime ≥ h.t0 + h.n →
    exec (.cbwaitTimeout core slot) s = .next ((u.rvalCb w h.lanes h.pc 0).modWarp core slot fun w => w.cbEnd h o 0 s.gtime)) ∧
  (∀ c o u n g, h.i = .cbwait c o → s.cbLook w h = some (u, n, g, true) →
    exec (.cbwaitSatisfied core slot) s = .next (u.cbPoison w h)) ∧
  (∀ c o, h.i = .movQueuePop c o →
    exec (.queueAccessUnblock core slot) s =
      .next ((s.unhold core slot false).redo core slot (infoQPop c o) (popBody (.movQueuePop c o) o))) ∧
  (∀ c o, h.i = .movQueuePush c o →
    exec (.queueAccessUnblock core slot) s =
      .next ((s.unhold core slot false).redo core slot (infoQPush c o) (qpushBody (.movQueuePush c o) o))) ∧
  (∀ c o, h.i = .movs c o →
    exec (.queueAccessUnblock core slot) s =
      .next ((s.unhold core slot false).redo core slot (infoMovs c o) (movsQueueBody (.movs c o) o))) ∧
  (∀ c o, h.i = .psync c o → s.pressBusy w.uid h.n = false →
    exec (.psyncCompletion core slot) s = .next ((s.dropSelf core).modWarp core slot fun w => w.goOn h s.gtime)) ∧
  (∀ (w : Warp) (h : Hold) now, (w.goOn h now).hold = none ∧ ∀ p ∈ (w.goOn h now).pend, p.kind = .held → p.wb = true) ∧
  (∀ n o, pressInfo h.i = some n → h.pop = some o → s.pressOpen h (s.ctxOf w) = true →
    exec (.pressAcceptance core slot) s =
      .next ((s.unhold core slot false).redo core slot n fun x s => s.offerOp x h.i h.n o))

/-- R30, R32, R95, R96, R137, R254, R274, R275: an issue slot that is free goes on with the run it executes, or starts the run it chooses, and
a warp in a nap of no cycles has given up that choice (DESIGN CHOICE, log 119); a slot that has issued a word is not free in the same cycle, nor,
for a warp of 64 lanes, in the next; a pending result that has come is written, and the instruction's pins are released. -/
def Obligations.RunsAndWriteBack : Prop :=
  (∀ s core islot, s.slotFree core islot = false → exec (.runIssue core islot) s = .next s) ∧
  (∀ s core islot w, islot < 2 → s.slotFree core islot = true → s.runOn core islot = some w →
    exec (.runIssue core islot) s = .next { s with cur := some (core, w.slot), lastCore := core }) ∧
  (∀ s core islot w pc lanes, islot < 2 → s.slotFree core islot = true → s.runOn core islot = none →
      s.chosen core = some w → w.eligible = some (pc, lanes) → s.firstBreak w pc lanes = none →
    exec (.runIssue core islot) s = .next (State.startRun { s with warps := s.warps.map fun v =>
      if v.core == core && v.briefNap then { v with hold := v.hold.map fun h => { h with ready := true } } else v } w islot pc lanes)) ∧
  (∀ (s : State) (w : Warp) (r : Run) islot, w.core < s.slots.length → w.run = some r → r.islot = islot → islot < 2 →
    ((s.occupy w).slotFree w.core islot = false ∧ (s.occupy w).slotFree w.core (1 - islot) = s.slotFree w.core (1 - islot)) ∧
    ∀ u : State, u.slots = (s.occupy w).slots → u.clkOf w.core = s.clkOf w.core + 1 → u.slotFree w.core islot = decide (w.w ≠ 64)) ∧
  (∀ s core slot id w p, s.warpAt core slot = some w →
      w.pend.find? (fun p => p.id == id && p.reqs.isEmpty && !p.wb && !p.idle) = some p →
    let t := s.modWarp core slot fun w => w.writeBack id
    exec (.writeBack core slot id) s = .next
      (if p.pins = [] then t else (p.pins.foldl (fun s q => s.unpin q.1 q.2) t).freeVersions))

/-- R299, R301, R302, R304, R306: a warp that has arrived and has nothing outstanding counts; once every warp of its domain does, and no
domain that its domain waits for is open, relocation packs the warps anew, or, after an error, leaves the packing and traps the lanes. -/
def Obligations.Relocation : Prop :=
  (∀ s core slot w, s.warpAt core slot = some w → s.regReady w = true →
    exec (.regrpArrival core slot) s = .next ((s.fixDomain core slot).modWarp core slot fun w =>
      { w with arr := w.arr.map fun a => { a with counted := true } })) ∧
  (∀ s dom d, s.sch.doms.find? (fun d => d.id == dom) = some d → s.domReady dom = true →
    exec (.relocationCompletion dom none) s = .next (if d.back then s.restorePacking d else s.relocate d) ∧
    ∀ slot reg, exec (.relocationCompletion dom (some (slot, reg))) s = .next (s.relocFails d slot reg)) ∧
  (∀ (s : State) dom, s.domReady dom = true ↔
    (∃ w ∈ s.warps, w.dom = some dom) ∧
      (∀ d, s.sch.doms.find? (fun d => d.id == dom) = some d → ∀ i ∈ d.waits, ∀ e ∈ s.sch.doms, e.id ≠ i) ∧
      (∀ w ∈ s.warps, w.dom = some dom → ∃ a, w.arr = some a ∧ a.counted = true) ∧
      ∀ t ∈ s.teams, ∀ w ∈ t.warps, w.dom ≠ some dom)

/-- R215, R224, R229, R340, R343, R344, R346, R403: a bin enters press mode with every row 0, leaves it empty once it has no operation, neither
after an alarm, and performs its oldest operation, a transfer once the homes of its lines can serve it. A computing operation gives element `l` of its destination the value of R344 on element `l` of its sources, wrapped to the
vector's width, and changes no row beside; PCNT gives the count of the elements that are not 0; PXIN takes its elements from the bytes read
of its lines, 0 beyond its count; PXOUT writes its elements' bytes over its lines. -/
def Obligations.PressCompletions : Prop :=
  (∀ s b, (s.bin b).st = .entering → s.boot.st ≠ .alarm →
    exec (.pressEntryCompletion b) s = .next ((s.modBin b fun q => { q with st := .press, rows := [] }).binReached b)) ∧
  (∀ s b, (s.bin b).st = .draining → (s.bin b).ops = [] → s.boot.st ≠ .alarm →
    exec (.pressDrainCompletion b) s = .next ((s.modBin b fun q => { q with st := .cache, rows := [], owner := 0 }).binReached b)) ∧
  (∀ s b, s.boot.st = .alarm → exec (.pressEntryCompletion b) s = .next s ∧ exec (.pressDrainCompletion b) s = .next s) ∧
  (∀ s b o r, (s.bin b).ops = o :: r → s.askBack (binKey b) o.ctx o.writes = none → (∃ l ∈ o.lines, s.homeFree l = false) →
    exec (.pressOperationCompletion b) s = .next s) ∧
  (∀ s b o r, (s.bin b).ops = o :: r → s.askBack (binKey b) o.ctx o.writes = none → (∀ l ∈ o.lines, s.homeFree l = true) →
    exec (.pressOperationCompletion b) s =
      .next (((s.pressPerform b o).1.modBin b fun q => { q with ops := r }).pressDone o (s.pressPerform b o).2)) ∧
  (∀ s b o r t, (s.bin b).ops = o :: r → s.askBack (binKey b) o.ctx o.writes = some t →
    exec (.pressOperationCompletion b) s = .next t) ∧
  (∀ s b o r (f : Int → Int → Nat → Int), (s.bin b).ops = o :: r →
      (o.kind = .add ∧ f = fun x y _ => x + y) ∨ (o.kind = .sub ∧ f = fun x y _ => x - y) ∨ (o.kind = .mul ∧ f = fun x y _ => x * y) ∨
      (o.kind = .and ∧ f = fun x y _ => ((wrapN 64 x &&& wrapN 64 y : Nat) : Int)) ∨ (o.kind = .or ∧ f = fun x y _ => ((wrapN 64 x ||| wrapN 64 y : Nat) : Int)) ∨
      (o.kind = .xor ∧ f = fun x y _ => ((wrapN 64 x ^^^ wrapN 64 y : Nat) : Int)) ∨ (o.kind = .not ∧ f = fun x _ _ => -x - 1) ∨
      (∃ c, o.kind = .cmp c ∧ f = fun x y _ => if cmpInt c x y = true then 1 else 0) ∨
      (∃ m, o.kind = .sel m ∧ f = fun x y l => if elemBits (s.bin b).rows m l % 2 = 1 then x else y) ∨
      (∃ lo hi, o.kind = .sat lo hi ∧ f = fun x _ _ => min (max x lo) hi) ∨
      (∃ n, o.kind = .shl n ∧ f = fun x _ _ => if o.d.w ≤ n then 0 else x * 2 ^ n) ∨
      (∃ n, o.kind = .shr n ∧ f = fun x _ _ => if o.a.w ≤ n then (if o.sgn = true ∧ x < 0 then -1 else 0) else x / 2 ^ n) →
    ∃ t, exec (.pressOperationCompletion b) s = .next t ∧ t.mem = s.mem ∧ (t.bin b).ops = r ∧
      (∀ l < 262144, elemBits (t.bin b).rows o.d l =
        wrapN o.d.w (f (elem (s.bin b).rows o.sgn o.a l) (srcB (s.bin b).rows o.sgn o.b l) l)) ∧
      (∀ n, n < o.d.row ∨ o.d.row + o.d.w ≤ n → rowAt (t.bin b).rows n = rowAt (s.bin b).rows n) ∧
      ∀ k, k ≠ b → t.bin k = s.bin k) ∧
  (∀ s b o r k w p, (s.bin b).ops = o :: r → o.kind = .cnt k → s.warpU o.warp = some w →
      w.pend.find? (fun p => p.reqs.contains o.pend) = some p →
    ∃ t v q, exec (.pressOperationCompletion b) s = .next t ∧ t.mem = s.mem ∧ (t.bin b).rows = (s.bin b).rows ∧
      t.warpU o.warp = some v ∧ q ∈ v.pend ∧ q.id = p.id ∧ q.reqs = [] ∧
      ⟨.s k, 0, BitVec.ofNat 64 ((List.range 262144).filter fun l => elem (s.bin b).rows o.sgn o.a l != 0).length⟩ ∈ q.writes) ∧
  (∀ s b o r n off lines, (s.bin b).ops = o :: r → o.kind = .xin n off lines → (∀ l ∈ o.lines, s.homeFree l = true) →
    ∃ t, exec (.pressOperationCompletion b) s = .next t ∧ t.mem = (s.readLines o.ctx lines).1.mem ∧
      (∀ l < 262144, n ≤ l → elemBits (t.bin b).rows o.d l = 0) ∧
      (∀ l < n, l < 262144 → linesPoison (s.readLines o.ctx lines).2 (off + elemSize o.d.w * l) = false →
        elemBits (t.bin b).rows o.d l =
          leNat (slice ((s.readLines o.ctx lines).2.flatMap Prod.fst) (off + elemSize o.d.w * l) (elemSize o.d.w)) % 2 ^ o.d.w) ∧
      ∀ n, n < o.d.row ∨ o.d.row + o.d.w ≤ n → rowAt (t.bin b).rows n = rowAt (s.bin b).rows n) ∧
  (∀ s b o r n off lines, (s.bin b).ops = o :: r → o.kind = .xout n off lines → s.askBack (binKey b) o.ctx o.writes = none →
      (∀ l ∈ o.lines, s.homeFree l = true) →
    ∃ t, exec (.pressOperationCompletion b) s = .next t ∧ (t.bin b).rows = (s.bin b).rows ∧
      t.mem = (s.writeLines off ((List.range n).flatMap fun l =>
        leBytes (elemSize o.d.w) (elemBits (s.bin b).rows o.d l)) lines).mem) ∧
  (∀ (s : State) n a ctx, s.dirOf (.dev n) = none → s.cell (.dev n) = none →
    (s.agentRead (.dev n) a ctx).2 = (s.mem.dram.read (128 * n) 128, dramPoison s.mem n)) ∧
  (∀ (s : State) n a off d, s.dirOf (.dev n) = none → s.cell (.dev n) = none → s.mem.dram.wf = true → d ≠ [] → off + d.length ≤ 128 →
    ∀ k, (s.agentWrite (.dev n) a off d).mem.dram.get k =
      if 128 * n + off ≤ k ∧ k < 128 * n + off + d.length then d.getD (k - (128 * n + off)) 0 else s.mem.dram.get k)

/-- R97, R176, R187, R191, R219, R224 to R231, R260, R377, R403, R404, R405: walks, requests at a home slice, ageing and scrub, and what the
host does to lines. Which request a slice serves next (log 54), what a walk that fails leaves (log 61), what a line at the bridge costs (log
59), whether the bridge evicts another half as one arrives (log 111) and whether a source overwritten meanwhile is read old or new (log 16)
are the model's. -/
def Obligations.HomeAndHostSteps : Prop :=
  (∀ s die ctx page k e, s.mem.walks.find? (fun k => k.die == die && k.ctx == ctx && k.page == page) = some k →
      s.walk ctx (page * 65536) = some e →
    exec (.tlbWalkCompletion die ctx page) s = .next
      (let s1 := s.modMem fun m => { m with walks := m.walks.filter fun w => w != k }
       ((k.waiters.filterMap fun u => (s.warpU u).map Warp.core).eraseDups).foldl (fun s c => s.fillTlb c e) s1)) ∧
  (∀ s die ctx page k, s.mem.walks.find? (fun k => k.die == die && k.ctx == ctx && k.page == page) = some k →
      s.walk ctx (page * 65536) = none →
    exec (.tlbWalkCompletion die ctx page) s = .next
      { s.modMem (fun m => { m with walks := m.walks.filter fun w => w != k }) with
        warps := s.warps.map fun w => if k.waiters.contains w.uid then { w with walked := w.walked ++ [(page, true)] } else w }) ∧
  (∀ s slice, s.homeNext slice = none → exec (.homeRequest slice) s = .next s) ∧
  (∀ s slice r, s.homeNext slice = some r → r.late = [] → exec (.homeRequest slice) s = .next (s.serveReq r)) ∧
  (∀ s slice r, s.homeNext slice = some r → r.late ≠ [] →
    exec (.homeRequest slice) s = .next (({ s with fresh := s.fresh + 1 } : State).serveReq (s.readLate r))) ∧
  (∀ (s : State) r w p e off d, s.warpU r.warp = some w → w.pend.find? (fun p => p.id == r.pend) = some p → r.late = [e] →
      r.ops = [.write off d] → off ≤ e.pos → e.pos + e.n ≤ off + d.length → (s.readLate r).ops = [.write off
    (if (p.torn.any fun x => samePlace x.1 x.2 e.key e.lane) && Config.freeBool (placeNum s.fresh e.lane e.key e.half)
     then patch d (e.pos - off) (slice (leBytes 8 (w.get e.lane e.key).toNat) (4 * e.half) e.n) else d)]) ∧
  (∀ (s : State) r l, s.backFirst r = some l →
    s.serveReq r = (s.hostOp r.id 0 r.ctx (.backInval l.num) fun _ => .backInval l.num).setWait r.id (some s.mem.nextId)) ∧
  (∀ (s : State) r n, r.line = .dev n → s.backFirst r = none → s.serveReq r = (s.serve r).1.retireReq r (s.serve r).2) ∧
  (∀ (s : State) r n, s.backFirst r = none → r.line = .host n → r.viaHost = true →
    s.serveReq r = ((if r.nc then s.ncClass r.line else s).dropOwn r.core r.line).startNc r) ∧
  (∀ (s : State) l, s.otherClass l .unc = true → s.ncClass l = ((s.changeClass l .unc).cleanBridge l.num).dropBridge l.num) ∧
  (∀ (s : State) r n h, s.backFirst r = none → r.line = .host n → r.viaHost = false →
      [false, true].find? (fun h => decide (s.halfLevel n h < r.need (s.cellable r.line r.attr) h)) = some h →
    s.serveReq r = (s.hostOp r.id 0 r.ctx (.cxlRead n h (r.need (s.cellable r.line r.attr) h == 2)) fun id =>
      .cxlRead id n h (r.need (s.cellable r.line r.attr) h == 2)).setWait r.id (some s.mem.nextId)) ∧
  (∀ (s : State) r n t, s.backFirst r = none → r.line = .host n → r.viaHost = false →
      (∀ h, s.halfLevel n h ≥ r.need (s.cellable r.line r.attr) h) →
      t = (if r.ops.any LineOp.isAtom then (s.recall r.line none false).evictCell r.line else s) →
    s.serveReq r = if (t.serve r).1.bereft r = true then (t.serve r).1.modMem fun m => { m with queue := m.queue.map fun q =>
      if q.id = r.id then { q with kind := .refetch, ops := [] } else q } else (t.serve r).1.retireReq r (t.serve r).2) ∧
  (∀ s slice, s.mem.fills.getD slice 0 ≥ 16384 →
    exec (.frequencyAgeing slice) s = .next (s.modMem fun m => { m with
      fills := m.fills.modify slice (fun n => n - 16384),
      cellar := m.cellar.map fun c => if c.line.home == slice then { c with freq := c.freq.map fun f => f / 2 } else c })) ∧
  (∀ s line, exec (.patrolScrub line) s = .next s) ∧
  (∀ s die pasid page res, (s.mem.ats.any fun e => e.die == die && e.pasid == pasid && e.page == page) = true →
    exec (.atsTranslationCompletion die pasid page res) s = .next (s.modMem fun m => { m with
      ats := m.ats.filter (fun e => !(e.die == die && e.pasid == pasid && e.page == page)),
      s2 := s2Room die (m.s2.filter fun e => !(e.die == die && e.pasid == pasid && e.page == page)) ++ [⟨die, pasid, page, res, false⟩] })) ∧
  (∀ s pasid page pages, s.pasidBusy pasid = false →
    exec (.atsInvalidateRequest pasid page pages) s = .next ((s.modMem fun m => { m with
      s2 := m.s2.filter (fun e => !(e.pasid == pasid && decide (page ≤ e.page ∧ e.page < page + pages))),
      atsInv := m.atsInv.filter fun x => x != (pasid, page, pages) }).send (.atsDone pasid page))) ∧
  (∀ s line half inval, (∀ b, s.bridgeOf line = some b → b.half half = .invalid) →
    exec (.hostSnoop line half inval) s = .next (s.send (.snoopDone line half))) ∧
  (∀ s line half inval b, s.bridgeOf line = some b → b.half half ≠ .invalid → exec (.hostSnoop line half inval) s = .next
    (let s1 := s.gatherHost line
     let b1 := (s1.bridgeOf line).getD b
     let k := if half then 2 else 0
     let s2 := if b1.half half = .modified then s1.send (.cxlData b1.line half (slice b1.data (32 * k) 64)
       (b1.dirty.extractLsb' k 2) (b1.poison.extractLsb' k 2)) else s1
     let st : HalfSt := if inval then .invalid else .shared
     let lose := fun (x : BridgeLine) => if x.line == line then
       (if half then { x with h1 := st, dirty := x.dirty &&& 0x3#4 } else { x with h0 := st, dirty := x.dirty &&& 0xC#4 }) else x
     let kept := fun (x : BridgeLine) => !(x.h0 == .invalid && x.h1 == .invalid)
     (s2.modMem fun m => { m with bridge := (m.bridge.map lose).filter kept }).send (.snoopDone line half))) ∧
  (∀ s pa bytes, s.boot.memOpen = true → exec (.hostStoreCxlMem pa bytes) s = .next
    (let b := bytes.bytes.take (128 - pa % 128)
     (s.addReq ⟨0, 0, 256, 0, 0, 256, .dev (pa / 128), 0, .memWrite,
       [.write (pa % 128) b, .taint (touched (pa % 128) b.length &&& bytes.poison)], 0, true, [], none, false, false, 0, [], []⟩).1)) ∧
  (∀ (s : State) (r : HomeReq) off b q, r.kind = .memWrite → r.ops = [.write off b, .taint q] →
    let put := fun (d : List Byte × BitVec 4) => runOps r.ops d.1 d.2
    let s1 := s.recall r.line none false
    let home := put (s1.homeData r.line)
    let below := put (s1.below r.line)
    s.serve r = ((s1.putBelow r.line (touched off b.length) below.1 below.2.1).modCell r.line fun c =>
      { c with data := home.1, poison := home.2.1, rc := none }, [])) ∧
  (∀ s pa line bytes, s.boot.memOpen = false → exec (.hostStoreCxlMem pa bytes) s = .next s ∧ exec (.hostReadCxlMem line) s = .next s) ∧
  (∀ s line, s.boot.memOpen = true → exec (.hostReadCxlMem line) s = .next
    (s.addReq ⟨0, 0, 256, 0, 0, 256, .dev line, 0, .memRead, [], 0, true, [], none, false, false, 0, [], []⟩).1) ∧
  (∀ (s : State) (r : HomeReq), r.kind = .memRead →
    let h := ((s.needDir r.line ((s.dirOf r.line).elim .dir DirE.cls)).recall r.line none true).homeRead r.line 0x10#16 r.ctx 0
    s.serve r = ((h.1.modDir r.line fun e => { e with host := true }).send (.memData r.line.num h.2.1 h.2.2), [])) ∧
  (∀ s line dirty, (s.mem.hostOps.filter fun o => o.kind == .backInval line) ≠ [] →
    exec (.backInvalidateReply line dirty) s = .next
    (let mine := s.mem.hostOps.filter fun o => o.kind == .backInval line
     let s1 := match dirty with
       | some d => (s.dropCell (.dev line)).putBelow (.dev line) 0xF#4 ((d.bytes ++ List.replicate 128 0).take 128) d.poison
       | none => s
     let s2 := (s1.modDir (.dev line) fun e => { e with host := false }).modMem fun m =>
       { m with hostOps := m.hostOps.filter fun o => o.kind != .backInval line }
     mine.foldl (fun s o => s.setWait o.req none) s2)) ∧
  (∀ s id o data, s.mem.hostOps.find? (fun o => o.id == id && o.done.isNone) = some o → (∀ n h w, o.kind ≠ .cxlRead n h w) →
    exec (.hostReadCompletion id data) s = .next ((s.modMem fun m => { m with hostOps := m.hostOps.map fun x =>
      if x.id == id then { x with done := some (some data.bytes), poison := data.poison } else x }).settleHost o.req)) ∧
  (∀ s id o n h own data, s.mem.hostOps.find? (fun o => o.id == id && o.done.isNone) = some o → o.kind = .cxlRead n h own →
    exec (.hostReadCompletion id data) s = .next ((((s.bridgeEvict n).fillHalf n h own data.bytes data.poison).modMem fun m =>
      { m with hostOps := m.hostOps.filter fun x => x.id != id }).setWait o.req none)) ∧
  (∀ (s : State) n,
    let idle := s.mem.bridge.filter fun b => b.line != n && !s.mem.queue.any fun r => r.line == .host b.line && r.wait.isSome
    (idle = [] → s.bridgeEvict n = s) ∧
    (idle ≠ [] → s.bridgeEvict n = { s with fresh := s.fresh + 1 } ∨ ∃ b ∈ idle, ∃ h,
      s.bridgeEvict n = ({ s with fresh := s.fresh + 1 } : State).loseHalf b.line h .invalid)) ∧
  (∀ (s : State) line half inval, exec (.hostSnoop line half inval) s =
    .next ((s.loseHalf line half (if inval then .invalid else .shared)).send (.snoopDone line half))) ∧
  (∀ s id o old, s.mem.hostOps.find? (fun o => o.id == id && o.done.isNone) = some o → (∀ n h w, o.kind ≠ .cxlRead n h w) →
    exec (.atomicopCompletion id old) s = .next ((s.modMem fun m => { m with hostOps := m.hostOps.map fun x =>
      if x.id == id then { x with done := some (old.map CxlData.bytes), poison := old.elim 0 CxlData.poison } else x }).settleHost o.req))

/-- R378 to R383, R405: flits in service: a peer's access enters the pool, an answer completes the access that awaits it, a contribution
is kept once, a flit of no kind is dropped, and the link's own traffic changes nothing that a program sees. A port that fails leaves the live
ports; a record says so, and each access that awaits an answer on it fails. A WRCB without payload is the model's question about a barrier
(DESIGN CHOICE, log 60). -/
def Obligations.LinkFlits : Prop :=
  (∀ s f l o a, s.boot.st = .ready → s.exported f.off.toNat 1 false = .ok (l, o, a) →
    exec (.rdreq f) s = .next ((s.peerReq l a [.fetch] []).1.owe (s.peerReq l a [.fetch] []).2 f)) ∧
  (∀ s f l o a, s.boot.st = .ready → s.exported f.off.toNat f.payload.length true = .ok (l, o, a) →
    let ops := [LineOp.write o f.payload, .taint (f.poison &&& touched o f.payload.length)]
    exec (.wr f) s = .next ((s.peerReq l a ops []).1.owe (s.peerReq l a ops []).2 f)) ∧
  (∀ s f l a m o b, s.boot.st = .ready → s.peerBarrier (fld f.h2 0 42) = .ok (l, a) → f.payload ≠ [] →
      s.exported f.off.toNat f.payload.length true = .ok (m, o, b) →
    let ops := [LineOp.write o f.payload, .taint (f.poison &&& touched o f.payload.length)]
    exec (.wrcb f) s = .next ((s.peerReq m b ops []).1.peerCount f l a [(s.peerReq m b ops []).2])) ∧
  (∀ s f l a, s.boot.st = .ready → s.peerBarrier (fld f.h2 0 42) = .ok (l, a) → f.payload = [] →
    exec (.wrcb f) s = .next (s.deny f none)) ∧
  (∀ s f n op l o a, s.boot.st = .ready → flitOp f = some (n, op) → f.off.toNat % n = 0 →
      s.exported f.off.toNat n true = .ok (l, o, a) →
    exec (.atomFlit f) s = .next ((s.peerReq l a [op o] []).1.owe (s.peerReq l a [op o] []).2 f)) ∧
  (∀ s f p, s.asked f = some p → f.status = 0 → p.op.writes = false →
    exec (.rdrsp f) s = .next (s.peerDone p f.payload f.poison [hostRes p.op (readPart p.op f.payload) f.poison])) ∧
  (∀ s f p, s.asked f = some p → f.status = 0 →
      (∃ lane off op t b reg, p.op = .atom lane off op t b reg) ∨ (∃ lane off size c n reg, p.op = .cas lane off size c n reg) →
    exec (.atomrsp f) s = .next (s.peerDone p f.payload f.poison [hostRes p.op f.payload 0])) ∧
  (∀ s f p, s.asked f = some p → f.status = 0 → (∃ off b, p.op = .write off b) ∨ (∃ off ls, p.op = .cbInc off ls) →
    exec (.wrack f) s = .next (s.peerDone p f.payload f.poison [])) ∧
  (∀ s f p, s.asked f = some p → f.status ≠ 0 →
    (p.op.writes = false → exec (.rdrsp f) s = .next (s.peerFails p ((codeOf f.status.toNat).getD .machineCheck))) ∧
    ((∃ off b, p.op = .write off b) → exec (.wrack f) s = .next (s.peerFails p ((codeOf f.status.toNat).getD .machineCheck)))) ∧
  (∀ s f, s.boot.st = .ready →
      (∀ p ∈ s.link.parts, ¬ (p.1 = f.grp.toNat * 16 + f.chunk.toNat ∧ p.2.1 = fld f.h2 0 6 ∧ p.2.2.1 = f.off.toNat)) →
    exec (.rwrite f) s = .next { s with link := { s.link with
      parts := s.link.parts ++ [(f.grp.toNat * 16 + f.chunk.toNat, fld f.h2 0 6, f.off.toNat,
        if f.poison = 0 then f.payload else [])] } }) ∧
  (∀ s f, exec (.credit f) s = .next s ∧ exec (.flitCrcRetry f) s = .next s) ∧
  (∀ s f, s.boot.st = .ready → exec (.unknownFlit f) s = .next ((s.send (.linkError f.port)).msix 8 3)) ∧
  (∀ s f, s.boot.st ≠ .ready → exec (.rdreq f) s = .next s ∧ exec (.wr f) s = .next s ∧ exec (.wrcb f) s = .next s ∧
    exec (.atomFlit f) s = .next s ∧ exec (.rwrite f) s = .next s ∧ exec (.unknownFlit f) s = .next s) ∧
  (∀ s p, s.link.live.getLsbD p = true →
    exec (.portFailure p) s = .next
      (let lost := fun (c : Cmd) => if c.code = 0x40 ∧ c.phase = .running then { c with card := { c.card with bad := true } } else c
       let s1 := ({ s with
         link := { s.link with live := s.link.live &&& ~~~(1#16 <<< p) }
         cores := s.cores.map fun k => { k with queues := k.queues.map fun q => q.map lost } } : State).machineRecord 0xFF 2 0 p
       (s1.link.out.filter fun q => q.port == p).foldl (fun s q => s.peerFails q .machineCheck) s1)) ∧
  (∀ s p, s.link.live.getLsbD p = false → exec (.portFailure p) s = .next s)

/-- R211, R319 to R331: the matrix engine: a reservation, its release, a load of B, a card that goes on the array, and the end of a tile: its
words are written together and it counts once the host and the peers have performed theirs (DEDUCED, log 82); a fault or a word refused there
ends the card at the tile. At the boundary a card stays while its team, or no team that waits, has the lease of each of its arrays. -/
def Obligations.MatrixCommands : Prop :=
  (∀ s core seq c a, s.cmdAt core 0 seq = some c → c.code = 0x11 → s.mxTurn core seq = true → c.reserveOk = true →
      (∀ k ∈ c.onCores core, (s.core k).resOf (s.ownerOf c.team) (c.f 1 0 6) = none ∧ (s.core k).res.length < 64) →
      (List.range (129 - c.f 1 8 8)).find? (fun a => (c.onCores core).all fun k => (s.core k).freeRun a (c.f 1 8 8)) = some a →
    exec (.reserve core seq) s = .next (((c.onCores core).foldl (fun t k => t.modCore k fun q => { q with
      res := q.res ++ [⟨s.ownerOf c.team, c.f 1 0 6, a, c.f 1 8 8, c.f 1 16 4, c.f 1 20 2, c.f 1 24 5, c.f 1 32 16, c.f 2 0 32⟩] })
      s).finishCmd core 0 seq 0 a)) ∧
  (∀ s core seq c, s.cmdAt core 0 seq = some c → c.code = 0x13 → s.mxTurn core seq = true → c.f 1 6 58 = 0 → c.zeroFrom 2 = true →
      (∀ k ∈ c.onCores core, (s.core k).resOf (s.ownerOf c.team) (c.f 1 0 6) ≠ none) →
    exec (.release core seq) s = .next (((c.onCores core).foldl (fun t k => t.modCore k fun q => { q with
      res := q.res.filter fun r => !(r.owner == s.ownerOf c.team && r.id == c.f 1 0 6) }) s).finishCmd core 0 seq 0 0)) ∧
  (∀ s core seq c rs t b, s.cmdAt core 0 seq = some c → c.code = 0x12 → s.mxTurn core seq = true →
      c.f 1 57 7 = 0 ∧ c.f 2 6 2 = 0 ∧ c.f 2 32 32 = 0 ∧ c.f 3 24 40 = 0 ∧ c.f 4 40 24 = 0 ∧ c.zeroFrom 5 = true →
      ((c.onCores core).map fun k => (k, (s.core k).resOf (s.ownerOf c.team) (c.f 2 0 6))) = rs.map (fun r => (r.1, some r.2)) →
      sameFormat rs = true →
      s.loadBlocks (s.agentOf c core) c rs false (blockList (c.f 3 12 12) (c.f 3 0 12)) = (t, .data b) →
    exec (.loadb core seq) s = .next (if anyPoison b then t.failCmd core 0 seq .machineCheck else t.finishCmd core 0 seq 0 0)) ∧
  (∀ s core seq c, s.cmdAt core 0 seq = some c → (s.core core).array = none → (s.core core).slaved = false →
      (s.cardNext core).map Cmd.id = some seq → (c.phase = .waiting → c.gemmOk = true ∧
        s.tensorBad (s.cmdGrid c).ctx (c.f 7 0 16) = none ∧ s.tensorBad (s.cmdGrid c).ctx (c.f 7 16 16) = none) →
      (∀ k ∈ c.onCores core, (s.core k).cardRes (s.ownerOf c.team) c ≠ none) →
    exec (.gemm core seq) s = .next
      (let s0 := (c.onCores core).foldl (fun t k => t.modCore k fun q => { q with
         scales := if c.phase == .waiting then [] else q.scales }) s
       let s1 := (leaseOf core (s.ownerOf c.team)).foldl (fun t k => t.modCore k fun q => { q with
         lease := q.lease.map fun l => if l.owner == s.ownerOf c.team then { l with idle := none } else l })
         (s0.modCore core fun q => { q with array := some seq })
       let s2 := if c.pair then s1.modCore (core + 1) fun q => { q with slaved := true } else s1
       s2.modCmd core 0 seq fun c => { c with phase := .running })) ∧
  (∀ s core seq c d s0 cs, (s.core core).array = some seq → s.cmdAt core 0 seq = some c →
      (c.pair = true → (s.core (core + 1)).array = none) → c.rows = [] → c.card.steps ≠ 1 → c.card.tiles < c.tiles →
      (let need := if c.feed.isSome then c.feedNeed (s.cmdGrid c).f.w (16 * 2 ^ (cs.head?.map fun p => p.2.bl).getD 0) else 0
       cs = ((c.onCores core).filterMap fun k => ((s.core k).cardRes (s.ownerOf c.team) c).map fun r => (k, r)) ∧
       s0 = (if c.feed.isSome then s.takeFeed core c.id need else s) ∧
       cs.length = (c.onCores core).length ∧ s0.cmdAt core 0 seq = some d ∧ need ≤ d.fed.length) →
    (∀ s1 r bad s2 b e, s0.gemmTile (s.agentOf c core) d (s.cmdGrid c).f.w cs = (s1, .rows r bad) →
        s1.putTile (s.agentOf c core) core d (s.cmdGrid c).f.w r bad = (s2, .data b) → s2.cmdAt core 0 seq = some e →
      exec (.tileBoundary core) s = .next (s2.tileWritten core e)) ∧
    ∀ s1 x n, s0.gemmTile (s.agentOf c core) d (s.cmdGrid c).f.w cs = (s1, .fault x n) →
      exec (.tileBoundary core) s = .next
        (((s1.countSteps core d n).finishCmd core 0 d.id x.num (d.card.tiles % 2 ^ 16)).leaveArray core d.pair)) ∧
  (∀ s core seq c, (s.core core).array = some seq → s.cmdAt core 0 seq = some c →
      (c.pair = true → (s.core (core + 1)).array = none) → c.card.steps = 1 →
    exec (.tileBoundary core) s = .next (s.tileWritten core c)) ∧
  (∀ (s : State) core c,
    (s.engPending (engKey core 0 c.id) = true → s.tileWritten core c = s) ∧
    (s.engPending (engKey core 0 c.id) = false → s.engRefused (engKey core 0 c.id) = none → s.tileWritten core c =
      (((s.forgetOps (engKey core 0 c.id)).modCmd core 0 c.id fun d => { d with
        card := ⟨d.card.tiles + 1, 0, d.card.bad⟩ }).putDrain core c.id).boundary core c) ∧
    ∀ st, s.engPending (engKey core 0 c.id) = false → s.engRefused (engKey core 0 c.id) = some st → s.tileWritten core c =
      ((s.countSteps core c c.kb).finishCmd core 0 c.id st (c.card.tiles % 2 ^ 16)).leaveArray core c.pair) ∧
  (∀ (s : State) core c, s.stays core c = true ↔ s.stopping core (s.cmdGrid c).ctx = false ∧ (s.core core).slaved = false ∧
    ∀ k ∈ c.onCores core, (∀ l, (s.core k).lease = some l → l.owner = s.ownerOf c.team) ∧
      ((s.core k).lease = none → (s.core k).leaseReq = []))

/-- R212, R332, R333, R350: a step of a copy copies some of the pieces that are left, at least one and else free (DESIGN CHOICE, log 108), all
of them where source and destination differ in their place in a word, and no piece cuts a word of four bytes else; it is done with the last. A
transform, whose order among faults is the model's (DESIGN CHOICE, log 77), and
whose sources are all there works through the lines of its destination, each computed and then written, and reports the fault of the first
that faults. -/
def Obligations.CopyCommands : Prop :=
  (∀ s core seq c t gs, s.copyGoing core seq = some c → c.copyNoneOk = true →
      let a := s.agentOf c core
      let all := copyPieces (wordAt c.w 1).toNat (wordAt c.w 2).toNat 0 (c.f 3 0 40 / 64 + 4) (c.f 3 0 40)
      let left := all.drop c.card.tiles
      let k := copyPart s.fresh left.length (wordAt c.w 1).toNat (wordAt c.w 2).toNat
      s.copyAll a (wordAt c.w 1).toNat (wordAt c.w 2).toNat (left.take k) = (t, gs) → (∀ g ∈ gs, ∃ b, g.2 = .data b) →
    exec (.copyNone core seq) s = .next
      (let u := gs.foldl (fun u g => match g.2 with
         | .data b => u.engWrite1 a ((wordAt c.w 2).toNat + g.1) b
         | _ => u) t
       let v := ({ u with fresh := u.fresh + 1 } : State)
       if all.length ≤ c.card.tiles + k then v.finishCmd core 1 seq 0 0
       else v.modCmd core 1 seq fun c' => { c' with phase := .running, card := { c'.card with tiles := c.card.tiles + k } })) ∧
  (∀ n k src dst, 1 ≤ k → 1 ≤ copyPart n k src dst ∧ copyPart n k src dst ≤ k ∧
    (src % 4 ≠ dst % 4 → copyPart n k src dst = k)) ∧
  (∀ src dst off fuel n p, src % 4 = dst % 4 → p ∈ copyPieces src dst off fuel n →
    (p.1 = off ∨ (src + p.1) % 4 = 0) ∧ (p.1 + p.2 = off + n ∨ (src + p.1 + p.2) % 4 = 0)) ∧
  (∀ s core seq c t u rs e x i, (x = 1 ∧ i = Instr.copyScale core seq) ∨ (x = 2 ∧ i = .copyAdd core seq) ∨
      (x = 3 ∧ i = .copyCast core seq) ∨ (x = 4 ∧ i = .copyReduce core seq) →
      s.copyStart core seq (· == x) = some c → c.xfOk = true → c.xfAligned = true → s.xfAll core c = (t, rs) →
      (rs.any fun r => xfWaits r.2) = false →
      let a := s.agentOf c core
      let n := c.f 3 0 40 / sizeOf' c.sfmt
      State.xfRun a c t.fresh (n + 1) { t with fresh := t.fresh + 1 } (t.xfWork a c) = (u, e) →
    exec i s = .next (match e with
      | some x => (u.msuInval a (wordAt c.w 2).toNat (n * sizeOf' c.dfmt)).failCmd core 1 seq x
      | none => (u.msuInval a (wordAt c.w 2).toNat (n * sizeOf' c.dfmt)).finishCmd core 1 seq 0 0)) ∧
  (∀ (s t : State) a c fresh n ch first k rest x, (∀ l ∈ rest, l.1 = ch) → s.xfLine a c first k = (t, .ok x) →
    State.xfRun a c fresh (n + 1) s ((ch, first, k) :: rest) =
      State.xfRun a c fresh n (t.msuWrite x.line x.off x.bytes) (rest.filter fun l => l.2.1 != first)) ∧
  (∀ (s t : State) a c fresh n ch first k rest f, (∀ l ∈ rest, l.1 = ch) → s.xfLine a c first k = (t, .error (.fault f)) →
    State.xfRun a c fresh (n + 1) s ((ch, first, k) :: rest) = (t, some f))

/-- R211, R334, R335, R381, R382: a collective starts every chunk; a chunk whose contributions are all here is combined and written, and is
reported once its writes are performed, with the status of one that was refused. -/
def Obligations.CollectiveCommands : Prop :=
  (∀ s core seq c g t op i, (op = 0 ∧ i = Instr.allGather core seq) ∨ (op = 1 ∧ i = .reduceScatter core seq) ∨
      (op = 2 ∧ i = .allReduce core seq) →
      s.cmdAt core 3 seq = some c → c.code = 0x40 → s.mayStart core 3 seq = true → c.cop = op →
      s.groupOf (s.cmdGrid c).ctx (c.f 3 56 8) = some g → c.collOk = true →
      (if c.viaSwitch g then s.sendChunks (s.agentOf c core) c g else (s, false)) = (t, false) →
    exec i s = .next (t.modCmd core 3 seq fun d => { d with phase := .running, chunks := List.range c.nch })) ∧
  (∀ s core seq chunk peers c g s1 s2 b x, s.cmdAt core 3 seq = some c → c.phase = .running → chunk ∈ c.chunks →
      s.groupOf (s.cmdGrid c).ctx (c.f 3 56 8) = some g → s.chunkWritten (chunkKey core seq chunk) = false →
      s.partPoison g chunk = false → (∀ d ∈ s.partsOf c g chunk peers, d.length = c.chunk) →
      let a := { s.agentOf c core with key := chunkKey core seq chunk }
      s.engRead a (c.srcOf g.rank chunk) c.chunk = (s1, .data b) → anyPoison b = false →
      let ws := chunkWrites c g chunk s1.fresh ((s.partsOf c g chunk peers).set g.rank (rawBytes b))
      ({ s1 with fresh := s1.fresh + 1 } : State).rangesReady a ws = (s2, .data x) →
    exec (.chunkCompletion core seq chunk peers) s = .next
      (let u := ws.foldl (fun t w => t.engWrite a w.1 (clean w.2)) s2
       if u.chunkWritten a.key then u else u.closeChunk core seq c g chunk 0)) ∧
  (∀ s core seq chunk peers c g, s.cmdAt core 3 seq = some c → c.phase = .running → chunk ∈ c.chunks →
      s.groupOf (s.cmdGrid c).ctx (c.f 3 56 8) = some g → s.chunkWritten (chunkKey core seq chunk) = true →
      s.engPending (chunkKey core seq chunk) = false →
    exec (.chunkCompletion core seq chunk peers) s = .next
      (s.closeChunk core seq c g chunk ((s.engRefused (chunkKey core seq chunk)).getD 0)))

/-- R287, R307 to R318, R336, R337, R353 to R366: the other engines: a table is built, a launch enters a queue or waits without holding up its
team's later commands, channels are set aside as SETASIDE runs and for a period that begins at its completion (DEDUCED, log 86) and
returned, attention starts and computes on the row width and QR of the version it started with (DEDUCED, log 87), the map cache is
invalidated, and a finished command reports, a cancelled one once no warp of its grid is left. -/
def Obligations.EngineCommands : Prop :=
  (∀ s core seq c t b, s.cmdAt core 4 seq = some c → c.code = 0x50 → s.mayStart core 4 seq = true →
      s.current (s.cmdGrid c).ctx (c.f 1 0 20) = none → c.f 1 20 44 = 0 → c.f 5 32 32 = 0 → c.zeroFrom 6 = true →
      (fld (wordAt c.w 2) 0 4 = 2 ∨ fld (wordAt c.w 2) 0 4 = 3) → fld (wordAt c.w 2) 32 32 = 0 →
      (wordAt c.w 2).getLsbD 11 = false → descBad (wordAt c.w 2) (wordAt c.w 3) (wordAt c.w 4) 0 = false →
      c.f 5 0 32 ≤ fld (wordAt c.w 4) 0 40 / (16 * fld (wordAt c.w 2) 16 8) →
      s.buildFree (c.job (s.cmdGrid c).ctx) (c.f 5 0 32) = true →
      s.buildIndex (c.job (s.cmdGrid c).ctx) (c.f 5 0 32) = (t, b) → b.bad = none →
      s.askBack (engKey core 4 seq) (s.cmdGrid c).ctx (b.zeros.map Prod.fst) = none →
    exec (.build core seq) s = .next
      (let u := b.zeros.foldl (fun s z => s.agentWrite z.1 z.2.2 z.2.1 (leBytes 4 0)) t
       ({ u with
          uid := u.uid + 1,
          tabs := u.tabs ++ [Version.mk t.uid (s.cmdGrid c).ctx (c.f 1 0 20) (withVersion (wordAt c.w 2) 1) (wordAt c.w 3)
            (wordAt c.w 4) 0 true b.index [] []] } : State).finishCmd core 4 seq 0 0)) ∧
  (∀ s core seq c, s.cmdAt core 5 seq = some c → c.code = 0x60 → c.phase = .running ∨ s.mayStart core 5 seq = true →
      (∃ d ∈ s.cmdsBefore core 5 seq, d.code = 0x60 ∧ d.f 1 0 6 = c.f 1 0 6 ∧ d.phase.isFinished = false) ∨
        (c.f 1 6 58 = 0 ∧ c.zeroFrom 6 = true ∧ (∃ b, (s.queue (c.f 1 0 6)).bind = some ((s.cmdGrid c).ctx, b)) ∧
          (s.queue (c.f 1 0 6)).room = false) →
    exec (.launch core seq) s = .next (s.modCmd core 5 seq fun d => { d with phase := .running })) ∧
  (∀ s core seq c ctx b, s.cmdAt core 5 seq = some c → c.code = 0x60 → c.phase = .running ∨ s.mayStart core 5 seq = true →
      (∀ d ∈ s.cmdsBefore core 5 seq, ¬ (d.code = 0x60 ∧ d.f 1 0 6 = c.f 1 0 6 ∧ d.phase.isFinished = false)) →
      c.f 1 6 58 = 0 → c.zeroFrom 6 = true → (s.queue (c.f 1 0 6)).bind = some (ctx, b) → ctx = (s.cmdGrid c).ctx →
      (s.queue (c.f 1 0 6)).room = true →
    exec (.launch core seq) s = .next ((s.modQueue (c.f 1 0 6) fun k =>
      k.enter 15 0 seq (((List.range 4).map fun i => wordAt c.w (2 + i)) ++ List.replicate 4 0)).finishCmd core 5 seq 0 0)) ∧
  (∀ s core seq c, s.cmdAt core 5 seq = some c → c.code = 0x61 → s.mayStart core 5 seq = true → c.channels ≠ [] →
      1 ≤ c.f 3 0 32 ∧ c.f 3 0 32 ≤ 1000000 ∧ c.f 3 32 32 = 0 ∧ c.zeroFrom 4 = true →
      (∀ h ∈ c.channels, s.mem.dedicated.getLsbD h = true ∧ ∀ e ∈ s.mem.aside, e.1 = h → e.2.1 = (s.cmdGrid c).ctx) →
      let zero := c.channels.filter fun h => (s.mem.lastCtx.find? fun p => p.1 == h).any fun p => p.2 != (s.cmdGrid c).ctx
      s.askBack (engKey core 5 seq) (s.cmdGrid c).ctx (zero.flatMap s.hostLinesOn) = none →
    exec (.setaside core seq) s = .next (((zero.foldl State.zeroChannel s).modMem fun m => { m with
      aside := m.aside ++ (c.channels.filter fun h => !m.aside.any fun p => p.1 == h).map fun h => (h, (s.cmdGrid c).ctx, 0),
      lastCtx := (m.lastCtx.filter fun p => !c.channels.contains p.1) ++ c.channels.map fun h => (h, (s.cmdGrid c).ctx) }).finishCmd
        core 5 seq 0 0)) ∧
  (∀ s core seq c detail, s.cmdAt core 5 seq = some c → c.phase = .finished 0 detail → c.code = 0x61 →
      s.engPending (engKey core 5 seq) = false → s.engRefused (engKey core 5 seq) = none →
    exec (.commandCompletion core 5 seq) s = .next
      (let begin_ := fun (p : Nat × Nat × Nat) => if c.channels.contains p.1 then (p.1, p.2.1, s.gtime + 1000 * c.f 3 0 32) else p
       ((s.modMem fun m => { m with aside := m.aside.map begin_ }).dropCmd core 5 seq).report (c.who core) 0 detail)) ∧
  (∀ s ch h ctx t, s.mem.aside.find? (fun p => p.1 == ch) = some (h, ctx, t) → s.gtime ≥ t → s.asideHeld ch = false →
    exec (.setasideExpiry ch) s = .next
      (let cs := s.asideCmds ctx ch
       let s1 := (cs.filter fun p => !s.begun p.1 p.2).foldl (fun s p => s.failCmd p.1 p.2.q p.2.id .permission) s
       (s1.dropTlb fun e => e.ctx == ctx && e.onCh ch).modMem fun m => { m with
         aside := m.aside.filter (fun p => p.1 != ch)
         lame := m.lame ++ (cs.filter fun p => s.begun p.1 p.2).map fun p => (ch, ctx, engKey p.1 p.2.q p.2.id) })) ∧
  (∀ (s : State) ctx ch k c, (k, c) ∈ s.asideCmds ctx ch ↔ k < s.cores.length ∧
    c ∈ (s.core k).queues.getD 1 [] ++ (s.core k).queues.getD 2 [] ∧ (s.cmdGrid c).ctx = ctx ∧ c.phase.isFinished = false ∧
      s.onAside c k ch = true) ∧
  (∀ s core seq c v s1 s2 b l, s.cmdAt core 2 seq = some c → c.code = 0x30 → c.phase ≠ .running → s.mayStart core 2 seq = true →
      s.attendBad c (s.cmdGrid c).ctx (s.agentOf c core).key = .ok v → s.maskBits (s.agentOf c core) c = (s1, .data b) →
      anyPoison b = false → s1.rowBusy core (s.cmdGrid c).ctx (s1.mapRows v (c.kvHeads.flatMap fun kh =>
        (c.neededPages (rawBytes b)).map fun pg => c.kvKey kh (64 * pg))) = false →
      s1.resolveAll (core / 64) (s.cmdGrid c).ctx v c
        (c.kvHeads.flatMap fun kh => (c.neededPages (rawBytes b)).map fun pg => (kh, pg)) = (s2, l) → (∀ e ∈ l, e.2.1 ≠ 7) →
    exec (.attend core seq) s = .next (s2.modCmd core 2 seq fun d => { d with
      phase := .running, resolved := l, card := ⟨v.rowBytes, if v.d0.getLsbD 11 then 1 else 0, false⟩ })) ∧
  (∀ s core seq c s1 s2 s3 s4 bm bq ps b, s.cmdAt core 2 seq = some c → c.code = 0x30 → c.phase = .running →
      s.maskBits (s.agentOf c core) c = (s1, .data bm) →
      s1.msuRange (s.agentOf c core) c.aQ (sizeOf' c.qf * c.hd * c.heads * c.rowsQ) = (s2, .data bq) →
      s2.pagesKV (s.agentOf c core) c c.card.tiles = (s3, .ok ps) →
      s3.msuReady (s.agentOf c core) c.aO c.resultBytes = (s4, .data b) → anyPoison bm = false → anyPoison bq = false →
      s4.askBack (s.agentOf c core).key (s.agentOf c core).ctx
        ((s4.stateBytes c ps).filterMap fun va => s4.rowLine (core / 64) (s.agentOf c core).ctx va) = none →
      (∀ l ∈ (s4.stateBytes c ps).filterMap fun va => s4.rowLine (core / 64) (s.agentOf c core).ctx va, s4.homeFree l = true) →
    exec (.attend core seq) s = .next (s4.attendStore core seq c (rawBytes bm) (rawBytes bq) ps)) ∧
  (∀ s core seq c v, s.cmdAt core 2 seq = some c → c.code = 0x31 → c.phase ≠ .running → s.mayStart core 2 seq = true →
      c.mapinvOk = true → s.current (s.cmdGrid c).ctx (c.f 1 0 20) = some v → v.kind = 4 →
    exec (.mapinv core seq) s = .next
      (let late := (List.range s.cores.length).flatMap fun k =>
         (((s.core k).queues.getD 2 []).filter fun d => s.holdsDropped c (s.cmdGrid c).ctx d).map fun d => (k, d.id, 0, 0)
       let cut := fun (l : List MapE) => l.filter fun e => !c.drops (s.cmdGrid c).ctx e.key
       let group := fun (p : List MapE × Nat) => if (c.f 4 0 16).testBit p.2 then cut p.1 else p.1
       (s.modMem fun m => { m with mapCache := m.mapCache.zipIdx.map group }).modCmd core 2 seq fun d =>
         { d with phase := .running, resolved := late })) ∧
  (∀ s core seq c, s.cmdAt core 2 seq = some c → c.code = 0x31 → c.phase = .running →
      (∀ e ∈ c.resolved, ∀ d, s.cmdAt e.1 2 e.2.1 = some d → d.phase ≠ .running) →
    exec (.mapinv core seq) s = .next (s.finishCmd core 2 seq 0 0)) ∧
  (∀ s core q seq c st detail, s.cmdAt core q seq = some c → c.phase = .finished st detail → st ≠ 0 →
      (q = 0 → ∀ d ∈ s.cmdsBefore core q seq, d.team ≠ c.team) → s.engPending (engKey core q seq) = false →
      (st = 0xF0 → s.aborting c = false) →
    exec (.commandCompletion core q seq) s = .next ((s.dropCmd core q seq).report (c.who core) st detail)) ∧
  (∀ s core q seq c detail, s.cmdAt core q seq = some c → c.phase = .finished 0 detail → c.code ≠ 0x40 → c.code ≠ 0x61 →
      (q = 0 → ∀ d ∈ s.cmdsBefore core q seq, d.team ≠ c.team) → s.engPending (engKey core q seq) = false →
      s.engRefused (engKey core q seq) = none →
    exec (.commandCompletion core q seq) s = .next ((s.dropCmd core q seq).report (c.who core) 0 detail))

/-- R44, R46, R268 to R273: launch packets in a queue, the teams of a grid placed and retired, and a grid that ends. The turn in which a packet
starts, the capture flag of a grid and the slots that a team's warps take are the model's (DEDUCED, log 47; DEDUCED, log 88; DESIGN CHOICE,
log 115). -/
def Obligations.LaunchPackets : Prop :=
  (∀ s q p, s.pktNext q = some p →
    exec (.packetStart q) s = .next
      (let s1 := s.modQueue q fun k => { k with pkts := k.pkts.map fun x => if x.idx == p.idx then { x with started := true } else x }
       if p.type = 1 ∨ p.type = 2 ∨ p.type = 3 then s1 else s1.completePkt q p.idx 1)) ∧
  (∀ s q n p, s.pktDue q n 1 = some p → p.kernelBad = false → p.kernel.noFit = false →
      s.current (s.queueCtx q) p.kernel.code ≠ none →
    ∃ t, exec (.kernel q n) s = .next t ∧ t.uid = s.uid + 1 ∧ t.grids = s.grids ++ [⟨s.uid, s.queueCtx q, q, n, p.kernel, 0, 0,
      false, false, s.trace.armed && s.trace.rq == q && s.trace.ctx == s.queueCtx q⟩] ∧
      t.warps = s.warps ∧ t.teams = s.teams ∧ t.mem = s.mem ∧ t.sch = s.sch ∧ t.tabs = s.tabs) ∧
  (∀ s q n p c, s.pktDue q n 2 = some p → p.waitBad = false → s.ctx (s.queueCtx q) = some c →
      (wordAt p.w 2).toNat ≤ (c.counter (p.f 1 0 8)).toNat →
    exec (.wait q n) s = .next (s.completePkt q n 0)) ∧
  (∀ s q n p, s.pktDue q n 3 = some p → p.signalBad = false →
    exec (.signal q n) s = .next ((s.bumpCounter (s.queueCtx q) (p.f 1 0 8) (if p.f 1 8 2 = 0 then 1 else 0)
      (wordAt p.w 2)).completePkt q n 0)) ∧
  (∀ s die q o, ((s.queueOrder die).findSome? fun q => (s.offerOf die q).map fun o => (q, o)) = some (q, o) →
    exec (.teamPlacement die) s = .next
      (let g := s.gridOf o.1.grid
       let s1 := ({ s with sch := { s.sch with turn := s.sch.turn.set die q } } : State).placeSaved g o.2.1 o.2.2 o.1.saved
       let s2 := o.1.fresh.foldl (fun s i => s.placeFresh g (if g.f.cohort2 && i % 2 == 1 then o.2.2 else o.2.1) i) s1
       s2.modGrid g.uid fun g => { g with next := g.next + o.1.fresh.length })) ∧
  (∀ s grid team t, s.teams.find? (fun t => t.grid == grid && t.teamId == team) = some t →
      t.alive = 0 ∨ (s.gridOf grid).aborted = true → s.teamIdle t = true →
    exec (.teamRetirement grid team) s = .next
      ((s.freeTeam t).modGrid grid fun g => { g with retired := g.retired + 1 })) ∧
  (∀ s grid g, s.grid grid = some g → s.gridBusy grid = false → (∀ w ∈ s.warps, w.grid ≠ grid) →
      (if g.aborted then (∀ t ∈ s.teams, t.grid ≠ grid) else g.f.griddim ≤ g.retired) →
    exec (.gridEnd grid) s = .next
      (let s1 := (s.unpinGrid grid).freeVersions
       ({ s1 with grids := s1.grids.filter fun x => x.uid != grid } : State).completePkt g.queue g.pkt g.status))

/-- R276 to R279: the grant of core pairs and their return: STOP, its delivery, the save of each warp, the end of the drain.
What a warp keeps, that leases end again at the end of the drain, and the DATA of STOP's completion are the model's readings (DEDUCED, log 35;
DEDUCED, log 36; DEDUCED, log 38). -/
def Obligations.GrantsAndStops : Prop :=
  (∀ s p c, Admits s p true → pktClear p 16 [4, 5, 6, 7] = true → s.ctx (pktCtx p) = some c → s.grantable c (pktPairs p) = true →
    exec (.grant p) s = .next ((s.grantPairs c (pktPairs p) (pktWord p 3).toNat).answer p 0 0)) ∧
  (∀ s p c, Admits s p true → pktClear p 16 [4, 5, 6, 7] = true → s.ctx (pktCtx p) = some c →
    exec (.stop p) s = .next (s.addStop (pktCtx p) (pktPairs p) (pktWord p 3).toNat (some (p.iface, p.index)))) ∧
  (∀ s n e, s.sch.stops.find? (fun e => e.id == n) = some e → e.delivered = false →
      e.deadline ≤ s.gtime + s.drainTime e.ctx e.pairs →
    exec (.stopDelivery n) s = .next
      (({ s with sch := { s.sch with stops := s.sch.stops.map fun x =>
          if x.id == n then { x with delivered := true, drain := s.drainTime e.ctx e.pairs } else x } } : State).stopLeases e)) ∧
  (∀ s core slot w, s.warpAt core slot = some w → s.savable w = true →
    ∃ t, exec (.warpSave core slot) s = .next t ∧
      t.warps = s.warps.filter (fun x => !(x.core == core && x.slot == slot)) ∧
      t.teams = s.teams.map (fun q => if q.uid == w.team then { q with warps := q.warps ++ [w.forSave (s.gridOf w.grid).f.sregs s.fresh] } else q) ∧
      t.mem = s.mem ∧ t.grids = s.grids ∧ t.tabs = s.tabs ∧ t.cores = s.cores) ∧
  (∀ s n e, s.sch.stops.find? (fun e => e.id == n) = some e → e.delivered = true → s.drained e = true →
    exec (.drainEnd n) s = .next
      (let s1 := s.stopLeases e
       let s2 := (s1.stopTeams e).foldl (fun s (t, c) => s.saveTeam t c) s1
       let s3 := s2.modCtx e.ctx fun c => { c.setOver (c.overrun + usUp (s.gtime - e.deadline)) with granted := c.granted &&& ~~~e.pairs }
       let s4 := ({ s3 with sch := { s3.sch with stops := s3.sch.stops.filter fun x => x.id != n } } : State)
       match e.reply with
       | some (i, m) => s4.reply i m 0x11 0 (s.gtime - e.deadline)
       | none => s4))

/-- R283, R374: the answers to a fault that waits for the host: its lanes restart, trap, or end with their grid. -/
def Obligations.FaultReplies : Prop :=
  (∀ s p h w, Admits s p true → pktClear p 18 [2, 3, 4, 5, 6, 7] = true → s.waiting p = some (h, w) →
    exec (.faultreplyRetry p) s = .next (((retryFault h w s).answered h.id).answer p 0 0)) ∧
  (∀ s p h w, Admits s p true → pktClear p 18 [2, 3, 4, 5, 6, 7] = true → s.waiting p = some (h, w) →
    exec (.faultreplyDeliver p) s = .next (((s.deliver w (w.heldBy h.id) none).answered h.id).answer p 0 0)) ∧
  (∀ s p h w, Admits s p true → pktClear p 18 [2, 3, 4, 5, 6, 7] = true → s.waiting p = some (h, w) →
    exec (.faultreplyAbort p) s = .next (((s.abortGrid w.grid).answered h.id).answer p 0 0)) ∧
  (∀ s p, Admits s p true → exec (.faultreplyRefused p) s = .next (s.answer p refused 0))

/-- R231, R266, R352, R370, R379, R381: requests that the host makes about contexts, tables, translations, memory, groups and domains.
DEDICATE is accepted where every channel set aside stays in the mask (DEDUCED, log 41), and TLBINV waits for every transfer of its context
(DEDUCED, log 43). -/
def Obligations.HostSetup : Prop :=
  (∀ s p, Admits s p true → pktClear p 16 [3, 4, 5, 6, 7] = true → pktF p 2 4 60 = 0 → pktF p 2 0 4 ≤ 8 → ctxBad (imgWord p) = false →
    exec (.ctxdesc p) s = .next ((s.setCtx (pktCtx p) (pktF p 2 0 4) ((List.range 8).map (imgWord p))).answer p 0 0)) ∧
  (∀ s p c, Admits s p false → pktClear p 16 [3, 4, 5, 6, 7] = true → pktF p 1 20 44 = 0 → s.ctx (pktCtx p) = some c →
      descBad (imgWord p 0) (imgWord p 1) (imgWord p 2) (imgWord p 3) = false →
      (s.current c.id (pktF p 1 0 20) = none → fld (imgWord p 0) 32 32 ≠ 0) →
    exec (.tabledesc p) s = .next ((s.putTable c.id (pktF p 1 0 20)
      (match s.current c.id (pktF p 1 0 20) with
       | none => fld (imgWord p 0) 32 32
       | some v => nextVersion v.number) (imgWord p 0) (imgWord p 1) (imgWord p 2) (imgWord p 3)).answer p 0 0)) ∧
  (∀ s p c, s.slowOf p = none → Admits s p false → pktClear p 16 [3, 4, 5, 6, 7] = true → s.ctx (pktCtx p) = some c →
    exec (.tlbinv p) s = .next
      (let s1 := s.dropTlb fun e => TlbE.inRange e c.id (pktWord p 1).toNat (pktWord p 2).toNat
       if s1.xferBusy c.id then s1.addSlow p 0 else s1.answer p 0 0)) ∧
  (∀ s p, Admits s p true → pktClear p 16 [5, 6, 7] = true →
      pktF p 1 4 60 = 0 → pktF p 4 1 63 = 0 →
    exec (.ncrange p) s = .next ((s.modMem fun m => { m with
      ncTab := m.ncTab.set (pktF p 1 0 4) ⟨(pktWord p 2).toNat, (pktWord p 3).toNat, pktF p 4 0 1 == 1⟩ }).answer p 0 0)) ∧
  (∀ s p, Admits s p true → pktClear p 16 [3, 4, 5, 6, 7] = true → (∀ e ∈ s.mem.aside, (pktPairs p).getLsbD e.1 = true) →
    exec (.dedicate p) s = .next ((s.modMem fun m => { m with dedicated := pktPairs p }).answer p 0 0)) ∧
  (∀ s p c, Admits s p false → pktClear p 16 [3, 4, 5, 6, 7] = true → pktF p 1 8 56 = 0 → groupBad p = false →
      s.ctx (pktCtx p) = some c →
    exec (.group p) s = .next ((s.modCtx c.id fun c => { c with
      groups := c.groups.filter (fun g => g.id != pktF p 1 0 8) ++ [groupOfImage (pktF p 1 0 8) p] }).answer p 0 0)) ∧
  (∀ s p, Admits s p true → pktClear p 16 [2, 3, 4, 5, 6, 7] = true → pktF p 1 6 2 = 0 → pktF p 1 16 48 = 0 →
    exec (.domain p) s = .next (({ s with link := { s.link with own := pktF p 1 0 6, exportCtx := some (pktF p 1 8 8) } } : State).answer
      p 0 0))

/-- R369 to R375, R400: queue bindings, rings, PASIDs, event counters, doorbells; packets of no known type; and packets fetched while the
module is not READY, or under a PASID that its interface may not use. A PASID is revoked where no interface has it any more, and NOPRIV is found
before PASID_REVOKED (DEDUCED, log 42); what DESTROY starts is the model's reading (DEDUCED, log 43). -/
def Obligations.HostQueues : Prop :=
  (∀ s p, Admits s p false → pktClear p 16 [2, 3, 4, 5, 6, 7] = true → pktF p 1 6 58 = 0 → s.queueMine p (pktF p 1 0 6) = true →
    exec (.qrestart p) s = .next
      ((s.modQueue (pktF p 1 0 6) fun q => { q with halted := false, hstat := 0 }).answer p 0 0)) ∧
  (∀ s p, Admits s p true → pasidOk p = true →
    exec (.pasidGrant p) s = .next (({ s with host := { s.host with
      pasids := s.host.pasids.filter (fun x => x != (pktF p 1 0 20, pktF p 2 0 3)) ++ [(pktF p 1 0 20, pktF p 2 0 3)],
      revoked := s.host.revoked.filter fun x => x != pktF p 1 0 20 } } : State).answer p 0 0)) ∧
  (∀ s p, Admits s p true → pasidOk p = true →
    exec (.pasidRevoke p) s = .next
      (let e := (pktF p 1 0 20, pktF p 2 0 3)
       let left := s.host.pasids.filter fun x => x != e
       ({ s with host := { s.host with
         pasids := left,
         revoked := if e ∈ s.host.pasids ∧ ∀ x ∈ left, x.1 ≠ e.1 then s.host.revoked.filter (fun x => x != e.1) ++ [e.1]
           else s.host.revoked } } : State).answer p 0 0)) ∧
  (∀ s p c, s.slowOf p = none → Admits s p true → pktClear p 16 [1, 2, 3, 4, 5, 6, 7] = true → s.ctx (pktCtx p) = some c →
    exec (.destroy p) s = .next
      ((((s.grids.filter fun g => g.ctx == c.id).foldl (fun s g => s.abortGrid g.uid) s).drainBins c.id).addSlow p 0)) ∧
  (∀ s p c, Admits s p true → pktClear p 16 [3, 4, 5, 6, 7] = true → pktF p 1 6 2 = 0 → pktF p 1 10 54 = 0 → pktF p 2 4 4 = 0 →
      pktF p 2 11 5 = 0 → pktF p 2 17 47 = 0 → pktF p 2 0 4 < 8 → s.ctx (pktCtx p) = some c → c.owner = pktF p 2 0 4 →
      (s.queue (pktF p 1 0 6)).bind = none → (s.queue (pktF p 1 0 6)).pkts = [] → s.ringTaken (pktF p 2 0 4) (pktF p 2 8 3) = false →
    exec (.qbindBind p) s = .next ((s.modQueue (pktF p 1 0 6) fun k => { k with
      bind := some (c.id, pktF p 1 8 2, pktF p 2 0 4, pktF p 2 8 3) }).answer p 0 0)) ∧
  (∀ s p, Admits s p true → pktClear p 16 [3, 4, 5, 6, 7] = true → pktF p 1 6 2 = 0 → pktF p 1 10 54 = 0 → pktF p 2 4 4 = 0 →
      pktF p 2 11 5 = 0 → pktF p 2 17 47 = 0 → (s.queue (pktF p 1 0 6)).pkts = [] → (s.queue (pktF p 1 0 6)).halted = false →
    exec (.qbindUnbind p) s = .next ((s.modQueue (pktF p 1 0 6) fun k => { k with bind := none }).answer p 0 0)) ∧
  (∀ s p f, Admits s p true → pktClear p 16 [4, 5, 6, 7] = true → pktF p 1 4 4 = 0 → pktF p 1 12 52 = 0 → pktF p 3 5 59 = 0 →
      pktF p 1 0 4 ≤ 8 → pktF p 1 8 4 ≤ 10 → 4 ≤ pktF p 3 0 5 → pktF p 3 0 5 ≤ 16 →
      (pktF p 1 0 4 = 8 → pktF p 1 8 4 = 0 ∨ pktF p 1 8 4 = 9 ∨ pktF p 1 8 4 = 10) →
      (pktWord p 2).toNat % (ringEntry (pktF p 1 8 4) * 2 ^ pktF p 3 0 5) = 0 → s.host.ifaces[pktF p 1 0 4]? = some f →
    (f.ringBusy (pktF p 1 8 4) = true → exec (.ringcfg p) s = .next (s.answer p refused 0)) ∧
    (f.ringBusy (pktF p 1 8 4) = false → exec (.ringcfg p) s = .next
      (let set := { f with rings := f.rings.set (pktF p 1 8 4) (some ⟨(pktWord p 2).toNat, pktF p 3 0 5, 0, 0⟩) }
       let g := if pktF p 1 8 4 = 0 then { set with chead := 0 } else if pktF p 1 8 4 = 10 then { set with events := 0, ehead := 0 } else set
       let t := ({ s with host := { s.host with ifaces := s.host.ifaces.set (pktF p 1 0 4) g } } : State)
       (if pktF p 1 8 4 = 10 then t.flushEvents (pktF p 1 0 4) else t).answer p 0 0))) ∧
  (∀ (s : State) i f, s.host.ifaces[i]? = some f → s.flushEvents i = f.heldEvents.foldl (fun s e => s.event i e)
    { s with host := { s.host with ifaces := s.host.ifaces.set i { f with heldEvents := [] } } }) ∧
  (∀ s p c i op, (op = 0 ∧ i = Instr.evctrSet p) ∨ (op = 1 ∧ i = .evctrAdd p) → Admits s p false →
      pktClear p 16 [3, 4, 5, 6, 7] = true → pktF p 1 9 55 = 0 → s.ctx (pktCtx p) = some c →
    exec i s = .next ((s.bumpCounter c.id (pktF p 1 0 8) op (pktWord p 2)).answer p 0 0)) ∧
  (∀ s p, exec (.unknownControlPacket p) s = .next (s.answer p (if s.boot.st = .ready then 1 else refused) 0)) ∧
  (∀ s t iface tail pasid ps qs, s.fetchRing iface 0 tail pasid ps = some (t, qs) →
    ∃ u is, exec (.cdb iface tail pasid ps) s = .next { u with agenda := is.map (fun i => (0, i)) ++ u.agenda } ∧
      qs.foldl (fun a p => ((a.1.takeControl p).1, a.2 ++ (a.1.takeControl p).2)) (t, []) = (u, is)) ∧
  (∀ s t iface ring tail pasid ps qs, ring < 8 → s.fetchRing iface (ring + 1) tail pasid ps = some (t, qs) →
    exec (.ldb iface ring tail pasid ps) s = .next (qs.foldl (fun s p => s.takeLaunch ring p) t)) ∧
  (∀ s t iface tail pasid ps qs, s.fetchRing iface 0 tail pasid ps = some (t, qs) → s.boot.st ≠ .ready →
    exec (.cdb iface tail pasid ps) s = .next (qs.foldl (fun u p => u.answer p refused 0) t)) ∧
  (∀ s t iface ring tail pasid ps qs, ring < 8 → s.fetchRing iface (ring + 1) tail pasid ps = some (t, qs) → s.boot.st ≠ .ready →
    exec (.ldb iface ring tail pasid ps) s = .next
      (qs.foldl (fun u p => u.complete p.iface p.index (pktType p) refused 0) t)) ∧
  (∀ (s : State) (p : Packet), s.boot.st = .ready → p.iface ≠ 8 → s.granted p.pasid.toNat p.iface = false →
    (s.mayAsk p (adminType (pktType p)) = true → s.takeControl p = (s.answer p pasidRevoked 0, [])) ∧
    ∀ ring, s.takeLaunch ring p = s.complete p.iface p.index (pktType p) pasidRevoked 0) ∧
  (∀ (s : State) (p : Packet), s.boot.st = .ready →
    (p.iface = 8 ∨ s.granted p.pasid.toNat p.iface = true ∨ s.mayAsk p (adminType (pktType p)) = false →
      s.takeControl p = (s, [requestOf p])) ∧
    ∀ ring, s.granted p.pasid.toNat p.iface = true → s.takeLaunch ring p = match s.queueOfRing p.iface ring with
      | none => s.complete p.iface p.index (pktType p) refused 0
      | some q => s.modQueue q fun k => k.enter p.iface ring p.index p.w)

/-- R370, R371, R374: requests that take time: they complete when asked again, once nothing keeps them (DEDUCED, log 43);
CLOCK's DATA names all four dies (DEDUCED, log 44). -/
def Obligations.SlowRequests : Prop :=
  (∀ s p i n y ctx m, s.slowOf p = some (i, n, y, ctx, m) → s.xferBusy ctx = false →
    exec (.tlbinv p) s = .next (s.endSlow p 0)) ∧
  (∀ s p i n y ctx m, s.slowOf p = some (i, n, y, ctx, m) → (s.drainBins ctx).ctxQuiet ctx = true →
    exec (.destroy p) s = .next (((s.drainBins ctx).freeCtx ctx).endSlow p 0)) ∧
  (∀ s p i n y ctx m, s.slowOf p = some (i, n, y, ctx, m) → s.clockDone m = true →
    exec (.clock p) s = .next (s.endSlow p s.clockData)) ∧
  (∀ s p, s.slowOf p = none → Admits s p true → pktClear p 16 [3, 4, 5, 6, 7] = true → pktF p 1 4 60 = 0 →
      pktF p 2 4 60 = 0 → pktF p 1 0 4 ≠ 0 → pktF p 2 0 4 ≤ 10 →
    ∃ t : State, exec (.clock p) s = .next (t.addSlow p (pktF p 1 0 4)) ∧
      (∀ d, d < 4 → d < s.dies.length → (t.die d).selected =
        if (pktF p 1 0 4).testBit d then pktF p 2 0 4 else (s.die d).selected) ∧
      (∀ d, (t.die d).setting = (s.die d).setting ∧ (t.die d).target = (s.die d).target) ∧
      t.mem = s.mem ∧ t.warps = s.warps ∧ t.grids = s.grids) ∧
  (∀ s die, s.gtime % 256 = 0 → (s.die die).setting ≠ (s.die die).target →
    exec (.clockChange die) s = .next (s.setClock die (s.die die).target))

/-- R20, R387 to R397: the heartbeat, the trace unit and the debugger; a stop where stops do not act is forgotten (R395). The mark that
DEBUG_STOP leaves and where a warp stands are the model's readings (DEDUCED, log 34). -/
def Obligations.ClocksTraceAndDebug : Prop :=
  (∀ s, exec .heartbeatTick s = .next
    (let t := s.pass (256 - s.gtime % 256)
     { t with
       dies := t.dies.map fun d => { d with target := min d.selected d.heat },
       warps := t.warps.map Warp.tickFence })) ∧
  (∀ s, s.latchDue = true → exec .countersLatch s = .next
    (let t := if s.trace.flags.getLsbD 0 then (List.range 4).foldl State.unitsRec ((List.range 256).foldl State.countersRec s) else s
     { t with
       cores := t.cores.map fun (k : Core) => { k with issueUse := (0, 0), arrayUse := (0, 0), ev := k.ev.map fun _ => 0 },
       trace := { t.trace with latched := t.gtime, units := t.trace.units.map fun us => us.map fun _ => (0, 0) } })) ∧
  (∀ s die, (s.die die).synced ≠ (s.die die).clk / 65536 →
    exec (.sync die) s = .next
      (let t := s.modDie die fun x => { x with synced := (s.die die).clk / 65536 }
       if t.trace.flags.getLsbD 0 then
         t.resync.traceRaw 0 [traceHead 1 t.trace.ctx die 64 (s.syncPoint (s.die die)).2 0, (s.syncPoint (s.die die)).1,
           (s.syncPoint (s.die die)).2 % 2 ^ 64, mhzOf (s.die die).setting]
       else t)) ∧
  (∀ s v, (v.getLsbD 0 = true → s.destOk (fld v 24 8) = true) →
    exec (.traceControlWrite true v) s = .next { s with
      grids := if v.getLsbD 4 && s.trace.flags.getLsbD 4 then s.grids else s.grids.map fun g => { g with capture := false },
      trace := { s.trace with
      ctx := fld v 24 8,
      k := if 8 ≤ fld v 16 5 ∧ fld v 16 5 ≤ 20 then fld v 16 5 else s.trace.k,
      flags := v.truncate 6,
      armed := v.getLsbD 4 && (s.trace.armed || !s.trace.flags.getLsbD 4) } }) ∧
  (∀ s v, v.getLsbD 0 = true → s.destOk (fld v 24 8) = false → exec (.traceControlWrite true v) s = .next s) ∧
  (∀ s v, exec (.traceControlWrite false v) s = .next s ∧ exec (.daccAccess false v) s = .next s ∧
    exec (.debuggerRequest false v) s = .next s ∧ exec (.resume false v) s = .next s) ∧
  (∀ (s : State) ctx, s.destOk ctx = true ↔
    ∃ v, s.current ctx s.trace.dest = some v ∧ v.kind = 1 ∧ v.len % 128 = 0 ∧ 4096 ≤ v.len) ∧
  (∀ s v w, v.getLsbD 63 = true → s.selected = some w → w.dbg = true →
    exec (.daccAccess true v) s = .next
      (let t := { s with trace := { s.trace with dacc := v &&& ~~~(1#64 <<< 63) } }
       if v.getLsbD 62 then t.modWarp w.core w.slot fun w => w.debugWrite (fld v 60 2) (fld v 54 6) (fld v 0 8) s.trace.ddata
       else { t with trace := { t.trace with ddata := w.debugRead (fld v 60 2) (fld v 54 6) (fld v 0 8) } })) ∧
  (∀ s v w, v.getLsbD 63 = true → fld v 60 2 = 3 → s.selected = some w → w.dbg = false → s.debugged w = true →
    exec (.debuggerRequest true v) s = .next
      (({ s with trace := { s.trace with dacc := v &&& ~~~(1#64 <<< 63) } } : State).modWarp w.core w.slot fun w => w.wantStop (4, 0, 0))) ∧
  (∀ s v w, v.getLsbD 0 = true → s.selected = some w → w.dbg = true →
    exec (.resume true v) s = .next (s.modWarp w.core w.slot fun w => { w with dbg := false })) ∧
  (∀ s core slot w c n d, s.warpAt core slot = some w → w.dbgReq = some (c, n, d) → s.debugged w = false →
    exec (.debugStop core slot) s = .next (s.modWarp core slot fun w => { w with dbgReq := none })) ∧
  (∀ s core slot w c n d, s.warpAt core slot = some w → w.dbgReq = some (c, n, d) → s.debugged w = true → c ≠ 0 → w.run = none →
      w.quiet = true → (∀ p ∈ w.pend, p.wb = true ∨ p.kind = .barrier ∨ p.kind = .held) →
    exec (.debugStop core slot) s = .next
      ((s.modWarp core slot fun v => { v with dbg := true, dbgReq := if s.standsBefore w c d then some (0, n, 0) else none }).traceCore
        0 core (s.ctxOf w) 9 (w.standPc.toNat + c * 2 ^ 32) d.toNat 0))

/-- R369, R376, R387, R399 to R408: reset, the stages of bring-up, firmware, attestation, the pages' registers, the alarm, heat, and errors
found in the module: what each sets, which record it makes, and in which lanes MACHINE_CHECK is raised. The report's bytes and AGO in two phases
(DESIGN CHOICE, log 72), what the alarm keeps and the thermal step (DEDUCED, log 73), the lanes and contexts of errors and CECNT (DEDUCED,
log 74) and a failed port (DEDUCED, log 68) are the model's. -/
def Obligations.BringupAndErrors : Prop :=
  (∀ s admin v, (s.boot.st = .alarm → exec (.ago admin v) s = .next s) ∧
    (s.boot.st ≠ .alarm → s.boot.ago = true → exec (.ago admin v) s = .next { s with boot := { s.boot with
      ago := false,
      report := (s.boot.claims ++ (if s.boot.erased then List.replicate 64 0 else leBytes 64 (Config.ed25519Sign s.boot.claims).toNat) ++
        List.replicate 512 0).take 512 } }) ∧
    (s.boot.st ≠ .alarm → s.boot.ago = false → admin = true → v.getLsbD 0 = true →
      exec (.ago admin v) s = .next { s with boot := { s.boot with ago := true } }) ∧
    (s.boot.ago = false → admin = false ∨ v.getLsbD 0 = false → exec (.ago admin v) s = .next s)) ∧
  (∀ s i off v admin, (off ≠ 0x100 → exec (.registerWrite admin (.notify i) off v) s = .next s) ∧
    ∀ f, s.host.ifaces[i]? = some f → exec (.registerWrite admin (.notify i) 0x100 v) s = .next
      (f.heldEvents.foldl (fun s e => s.event i e)
        { s with host := { s.host with ifaces := s.host.ifaces.set i { f with ehead := v.toNat, heldEvents := [] } } })) ∧
  (∀ s off v, exec (.registerWrite false .trace off v) s = .next s ∧ exec (.registerWrite false .status off v) s = .next s) ∧
  (∀ s v, exec (.registerWrite true .trace 0x008 v) s = .next { s with trace := { s.trace with dest := fld v 0 20 } } ∧
    exec (.registerWrite true .trace 0x018 v) s = .next { s with trace := { s.trace with ridx := v.toNat } } ∧
    exec (.registerWrite true .trace 0x028 v) s = .next { s with trace := { s.trace with rq := fld v 32 6, rteam := fld v 0 32 } } ∧
    exec (.registerWrite true .trace 0x100 v) s = .next { s with trace := { s.trace with dsel := fld v 8 8 * 256 + fld v 0 6 } } ∧
    exec (.registerWrite true .trace 0x110 v) s = .next { s with trace := { s.trace with ddata := v } }) ∧
  (∀ s i v, i < 2 → exec (.registerWrite true .trace (0x040 + 8 * i) v) s = .next { s with trace := { s.trace with
    evsel := (List.range 16).map fun j => if j / 8 = i then fld v (8 * (j % 8)) 8 else s.trace.evsel.getD j 0 } }) ∧
  (∀ s j v, j < 8 →
    exec (.registerWrite true .trace (0x080 + 16 * j) v) s = .next { s with trace := { s.trace with
      bps := s.trace.bps.modify j fun b => { b with seq := fld v 32 32, pc := fld v 0 32 } } } ∧
    exec (.registerWrite true .trace (0x088 + 16 * j) v) s = .next { s with trace := { s.trace with
      bps := s.trace.bps.modify j fun b => { b with code := fld v 10 20, mode := fld v 8 2, core := fld v 0 8 } } }) ∧
  (∀ s j v, j < 4 →
    exec (.registerWrite true .trace (0x120 + 16 * j) v) s = .next (s.modCore (s.trace.dsel / 256 % 256) fun k => { k with
      watch := k.watch.modify j fun p => { p with base := fld v 0 57 } }) ∧
    exec (.registerWrite true .trace (0x128 + 16 * j) v) s = .next (s.modCore (s.trace.dsel / 256 % 256) fun k => { k with
      watch := k.watch.modify j fun p => { p with kind := fld v 8 2, len := fld v 0 4 } })) ∧
  (∀ s j v, j < 4 → exec (.registerWrite true .status (0x040 + 8 * j) v) s = .next
    (if s.boot.ago then s else { s with boot := { s.boot with nonce := patch s.boot.nonce (8 * j) (leBytes 8 v.toNat) } })) ∧
  (∀ s v, s.boot.st ≠ .alarm → exec (.registerWrite true .status 0x060 v) s = .next
    (if s.boot.ago = false ∧ v.getLsbD 0 = true then { s with boot := { s.boot with ago := true } } else s)) ∧
  (∀ (s : State) off, s.readTrace false off = 0 ∧ s.readTrace true 0x020 = BitVec.ofNat 64 s.trace.lost ∧ s.readTrace true 0x110 = s.trace.ddata ∧
    s.readStatus 0x010 = s.boot.fwsvn ∧ s.readStatus 0x018 = s.boot.cecnt ∧
    ∀ i f, s.host.ifaces[i]? = some f → s.readNotify i 0x008 = BitVec.ofNat 64 f.chead ∧ s.readNotify i 0x100 = BitVec.ofNat 64 f.ehead) ∧
  (∀ s, exec .resetRelease s = .next { State.reset with
    agenda := s.agenda, tempo := s.tempo, fresh := s.fresh
    boot := { Boot.reset with
      revoked := s.boot.revoked, rollback := s.boot.rollback, erase := s.boot.erase, erased := s.boot.erased, serial := s.boot.serial } }) ∧
  (∀ s r, s.boot.st = .booting → s.boot.stage = 4 →
    (exec (.selfTestStageCompletion r none) s = .next { s with boot := { s.boot with st := .safe, cause := 4, unit := 0 } }) ∧
    ∀ f, (s.boot.signed f = false →
        exec (.selfTestStageCompletion r (some f)) s = .next { s with boot := { s.boot with st := .safe, cause := 4, unit := 0 } }) ∧
      (s.boot.signed f = true → f.svn.toNat < s.boot.rollback.toNat →
        exec (.selfTestStageCompletion r (some f)) s = .next { s with boot := { s.boot with st := .safe, cause := 5, unit := 0 } }) ∧
      (s.boot.signed f = true → s.boot.rollback.toNat ≤ f.svn.toNat →
        exec (.selfTestStageCompletion r (some f)) s = .next { s with boot := { s.boot with
          stage := 5, fwsvn := f.svn, digest := digestOf f,
          rollback := if s.boot.erased = false ∧ s.boot.rollback.toNat < f.minsvn.toNat then f.minsvn else s.boot.rollback } })) ∧
  (∀ (b : Boot) f, b.signed f = true ↔ f.slot < 4 ∧ b.revoked.getLsbD f.slot = false ∧
    Config.ed25519Verify f.slot (leBytes 64 (digestOf f).toNat) f.signature = true) ∧
  (∀ s r fw, s.boot.st = .booting → s.boot.stage = 5 → exec (.selfTestStageCompletion r fw) s = .next { s with
    mem := { s.mem with dram := [], poison := [], cellar := [] }, boot := { s.boot with st := .ready } }) ∧
  (∀ s fw, s.boot.st = .booting → s.boot.stage < 4 →
    exec (.selfTestStageCompletion .passed fw) s = .next { s with boot := { s.boot with stage := s.boot.stage + 1 } } ∧
    ∀ u, exec (.selfTestStageCompletion (.failed u) fw) s = .next
      { s with boot := { s.boot with st := .safe, cause := s.boot.stage, unit := u } }) ∧
  (∀ s fw ps, s.boot.st = .booting → s.boot.stage = 3 → exec (.selfTestStageCompletion (.down ps) fw) s = .next { s with
    boot := { s.boot with stage := 4, down := ps }, link := { s.link with live := s.link.live &&& ~~~ps } }) ∧
  (∀ s r fw, s.boot.st ≠ .booting → exec (.selfTestStageCompletion r fw) s = .next s) ∧
  (∀ s, exec .alarm s = .next { s.halt with boot := { s.boot with
    st := .alarm, cause := 6, erased := s.boot.erased || s.boot.erase, ago := false,
    report := if s.boot.ago then List.replicate 512 0 else s.boot.report } }) ∧
  (∀ (s : State), s.halt.warps = [] ∧ s.halt.teams = [] ∧ s.halt.grids = [] ∧ s.halt.cur = none ∧ s.halt.mem.queue = [] ∧
    s.halt.mem.hostOps = [] ∧ s.halt.mem.walks = [] ∧ s.halt.mem.ats = [] ∧ (∀ f ∈ s.halt.host.ifaces, f.heldEvents = []) ∧
    s.halt.bins.map Bin.st = s.bins.map Bin.st ∧ s.halt.link.out = [] ∧ s.halt.link.inb = [] ∧ s.halt.host.slow = [] ∧
    (∀ k ∈ s.halt.cores, ∀ q ∈ k.queues, q = []) ∧ (∀ q ∈ s.halt.sch.queues, q.pkts = []) ∧ (∀ b ∈ s.halt.bins, b.ops = []) ∧
    s.halt.mem.dram = s.mem.dram) ∧
  (∀ s die, s.gtime % 256 = 0 → (s.die die).stepped ≠ s.gtime / 256 + 1 → die < s.dies.length →
    ∃ t u, exec (.thermalStepDown die) s = .next t ∧ exec (.thermalStepUp die) s = .next u ∧
      (t.die die).heat = min (s.die die).heat (s.die die).setting - 1 ∧
      (t.die die).setting = min (s.die die).selected (min (s.die die).heat (s.die die).setting - 1) ∧
      (u.die die).heat = min 10 ((s.die die).heat + 1) ∧
      (u.die die).setting = min (s.die die).selected (min 10 ((s.die die).heat + 1)) ∧
      (t.die die).stepped = s.gtime / 256 + 1 ∧ (u.die die).stepped = s.gtime / 256 + 1 ∧
      (∀ d, d ≠ die → t.die d = s.die d ∧ u.die d = s.die d) ∧ t.warps = s.warps ∧ u.warps = s.warps) ∧
  (∀ s die, s.gtime % 256 ≠ 0 ∨ (s.die die).stepped = s.gtime / 256 + 1 →
    exec (.thermalStepDown die) s = .next s ∧ exec (.thermalStepUp die) s = .next s) ∧
  (∀ s, exec .correctableError s = .next { s with boot := { s.boot with
    cecnt := if s.boot.cecnt = BitVec.allOnes 64 then s.boot.cecnt else s.boot.cecnt + 1 } }) ∧
  (∀ (s : State) ctx what a b, s.machineRecord ctx what a b = if s.boot.st = .alarm then s else
    s.event 8 [eventWord 5 ctx what, BitVec.ofNat 64 a, BitVec.ofNat 64 b, BitVec.ofNat 64 s.gtime]) ∧
  (∀ s x, ∃ bad, (∀ y, y ∈ bad ↔ y ∈ s.mem.poison ∨ y / 4 = x / 4) ∧ exec (.uncorrectableError (.dram x)) s = .next
    ((s.modMem fun m => { m with poison := bad }).machineRecord 0xFF 1 (128 * (x / 4)) (channelOf (x / 4 / 512)))) ∧
  (∀ s p, (s.link.live.getLsbD p = false → exec (.uncorrectableError (.link p)) s = .next s) ∧
    (s.link.live.getLsbD p = true → exec (.uncorrectableError (.link p)) s = exec (.portFailure p) s)) ∧
  (∀ s l x c, s.cell l = some c → exec (.uncorrectableError (.cellar l x)) s = .next
    ((s.modCell l fun c => { c with poison := c.poison ||| (1#4 <<< (x % 4)) }).machineRecord c.ctx 3 (128 * l.num + 32 * (x % 4))
      (l.home % 256))) ∧
  (∀ s l x, s.cell l = none → exec (.uncorrectableError (.cellar l x)) s = .next s) ∧
  (∀ s k l x c, s.l1 k l = some c → exec (.uncorrectableError (.l1 k l x)) s = .next
    ((s.modL1 k l fun c => { c with poison := c.poison ||| (1#4 <<< (x % 4)) }).machineRecord (s.coreCtx k) 3 (128 * l.num + 32 * (x % 4)) k)) ∧
  (∀ s k l x, s.l1 k l = none → exec (.uncorrectableError (.l1 k l x)) s = .next s) ∧
  (∀ s core slot x w, s.warpAt core slot = some w → exec (.uncorrectableError (.scratch core slot x)) s = .next
    ((s.modTeam w.team fun t => { t with poison := addPoison t.poison x }).machineRecord (s.ctxOf w) 3 (32 * x) (core + slot * 256))) ∧
  (∀ s core x, exec (.uncorrectableError (.opbuf core x)) s = .next
    ((s.modCore core fun k => { k with opPoison := addPoison k.opPoison x }).machineRecord (s.coreCtx core) 3 (32 * x) core)) ∧
  (∀ l x y, y ∈ addPoison l x ↔ y ∈ l ∨ y = x) ∧
  (∀ s l, exec (.uncorrectableError (.tags l)) s = .next ((s.loseReqs (s.mem.queue.filter fun r => r.line == l)).machineRecord
    (match (s.mem.queue.filter fun r => r.line == l).head?, s.cell l with
     | some r, _ => r.ctx
     | none, some c => c.ctx
     | none, none => 0xFF) 4 (128 * l.num) (l.home % 256))) ∧
  (∀ (s : State) rs0, s.loseReqs rs0 =
    (let rs := rs0 ++ s.peerAfter rs0
     rs.foldl (fun s r => match s.warpU r.warp with
      | none => ((s.finishReq r.core r.warp r.pend r.id []).answerPeer r [⟨0, none, false, [], false, true⟩]).traceDone r.id
      | some w => ((s.uncount r.warp r.pend (r.lanesOf w)).finishReq r.core r.warp r.pend r.id []).raiseLanes r.warp
          (match w.pend.find? fun p => p.id == r.pend with
           | some p => p.pc
           | none => 0) ((r.lanesOf w).map fun i => ⟨i, .machineCheck, 0⟩))
    (s.modMem fun m => { m with
      queue := m.queue.filter fun r => !(rs.any fun q => q.id == r.id),
      hostOps := m.hostOps.filter fun o => !(rs.any fun q => q.id == o.req) }))) ∧
  (∀ (s : State) rs r, r ∈ s.peerAfter rs ↔ r ∈ s.mem.queue ∧ r.warp = 0 ∧ (∃ q ∈ rs, q.warp = 0 ∧ q.id ∈ r.deps) ∧ ∀ q ∈ rs, q.id ≠ r.id) ∧
  (∀ s core slot lane reg w, s.warpAt core slot = some w → exec (.uncorrectableError (.vreg core slot lane reg)) s = .next
    (if lane ∈ w.readers.2 then
      ((s.machineRecord (s.ctxOf w) 5 (reg + lane * 256) (w.core + w.slot * 256)).raiseLanes w.uid w.readers.1
        ((w.readers.2.filter fun i => i == lane).map fun i => ⟨i, .machineCheck, 0⟩)).endIfEmpty w.core w.slot
     else s)) ∧
  (∀ s core slot reg w, s.warpAt core slot = some w → w.readers.2 ≠ [] → exec (.uncorrectableError (.sreg core slot reg)) s = .next
    (((s.machineRecord (s.ctxOf w) 5 reg (w.core + w.slot * 256)).raiseLanes w.uid w.readers.1
      (w.readers.2.map fun i => ⟨i, .machineCheck, 0⟩)).endIfEmpty w.core w.slot)) ∧
  (∀ s core ctx page, exec (.uncorrectableError (.tlb core ctx page)) s = .next
    (let here := fun (k : Walk) => k.die == core / 64 && k.ctx == ctx && k.page == page
     let s1 := s.modCore core fun k => { k with tlb := k.tlb.filter fun e => !e.covers ctx page }
     let s2 := s1.modMem fun m => { m with
       pairTlb := m.pairTlb.modify (core / 2) fun t => t.filter fun e => !e.covers ctx page
       walks := m.walks.filter fun k => !here k }
     let s3 := ((s.mem.walks.filter here).flatMap Walk.waiters).foldl (fun s u => match s.warpU u with
       | none => s
       | some w => (s.raiseLanes u w.readers.1 (w.readers.2.map fun i => ⟨i, .machineCheck, 0⟩)).endIfEmpty w.core w.slot) s2
     s3.machineRecord ctx 4 (65536 * (match s.tlb core ctx page with
       | some e => e.frameOf page
       | none => 0)) core)) ∧
  (∀ s, exec (.uncorrectableError .cxl) s = .next
    (let t := s.loseReqs (s.mem.queue.filter fun r =>
       r.wait.isSome && !(s.mem.hostOps.any fun o => o.req == r.id && HostOpKind.snoops o.kind))
     let peers := t.link.out.map PeerReq.req
     (t.modMem fun m => { m with
       hostOps := (m.hostOps.filter fun o => !HostOpKind.snoops o.kind).map fun o =>
         if o.done.isNone && !peers.contains o.id then { o with done := some none } else o
       queue := m.queue.map fun r => { r with wait := none }
       ats := []
       s2 := m.s2 ++ m.ats.map fun e => ⟨e.die, e.pasid, e.page, none, true⟩
       dir := m.dir.map fun e => { e with host := false } }).machineRecord 0xFF 2 0 0xFF))

/-! ### Words and their execution -/

/-- R80 to R95, R102: an encoded well-formed instruction word is decoded to that instruction, whatever its operands. -/
def Obligations.EncodeDecode : Prop :=
  ∀ i w, i.wellFormed = true → encode i = some w → decode w = .ok i

/-- R80, R94: words written out from the encodings of the spec. -/
def Obligations.DecodeWords : Prop :=
  decode 0x00001C000000000000F46000 = .ok (.nop ⟨⟨false, 7⟩, ⟨15, false, true, false, 12, 0, 0, 0⟩⟩) ∧
  decode 0x00A41D020001FFFF00200000 = .ok (.movi ⟨⟨false, 7⟩, ⟨2, false, false, false, 0, 0, 0, 0⟩⟩ ⟨.b64, .s 2, 0x1FFFF00⟩) ∧
  decode 0x10C00C0400600800D0440A00 = .ok (.ffma ⟨⟨false, 3⟩, ⟨4, false, true, false, 1, 2, 0, 0⟩⟩
    ⟨.rn, false, false, .v 4, .v 1 .last, .v 2 .plain, .v 3 .keep⟩) ∧
  decode 0x40009EF10000040000200000 = .ok (.itest ⟨⟨false, 7⟩, ⟨2, false, false, false, 0, 0, 0, 0⟩⟩
    ⟨.i32, .lt, .p 1, .v 0 .plain, .v 1 .plain⟩) ∧
  decode 0x80001EF94400000000200000 = .ok (.push ⟨⟨false, 7⟩, ⟨2, false, false, false, 0, 0, 0, 0⟩⟩ ⟨0, 1, 16⟩) ∧
  decode 0x91001EFA4104140000040000 = .ok (.cbwait ⟨⟨false, 7⟩, ⟨0, false, true, false, 0, 0, 0, 0⟩⟩ ⟨2, 4, .s 5 .plain⟩) ∧
  decode 0xA0E01D044144180000000000 = .ok (.padd ⟨⟨false, 7⟩, ⟨0, false, false, false, 0, 0, 0, 0⟩⟩ ⟨true, false, 4, 5, .s 6 .plain⟩) ∧
  decode 0xB0001C000000000012040000 = .ok (.trap ⟨⟨false, 7⟩, ⟨0, false, true, false, 0, 0, 0, 0⟩⟩ ⟨0x12⟩)

/-- R13, R80: a step of the run in execution, on an issue slot that is free, notes which runs are ready, fetches the word at its PC through
the instruction cache (DESIGN CHOICE, log 110) and executes what it decodes to; nothing else is due. What the agenda names is executed
instead, once its time has come. -/
def Obligations.StepRunsWord : Prop :=
  (∀ s t w r, s.due = none → s.agenda = [] → s.gtime % 256 + min s.tempo 255 < 256 → t = s.pass (min s.tempo 255) →
      t.inRun = some (w, r) → t.canIssue w = true → t.slotFree w.core r.islot = true →
    (∀ b i, t.noteReady.fetch w r.pc = .ok b → decode (bytesWord b) = .ok i → step s = exec i (t.noteReady.fetched w r.pc b)) ∧
    (∀ b j, t.noteReady.fetch w r.pc = .ok b → decode (bytesWord b) = .error j →
      step s = runReject j.ctl j.uniform (match j.code with
        | .illegalOpcode => .illegalOpcode
        | .illegalOperand => .illegalOperand) (t.noteReady.fetched w r.pc b)) ∧
    (∀ c, t.noteReady.fetch w r.pc = .error c → step s = runFetchFault c t.noteReady)) ∧
  (∀ (t : State) w pc a, t.codeAddr (t.gridOf w.grid) pc = some a →
    (∀ c, t.fetchBytes (w.core / 64) (t.gridOf w.grid).ctx a = .error c → t.fetch w pc = .error c) ∧
    ∀ b, t.fetchBytes (w.core / 64) (t.gridOf w.grid).ctx a = .ok b →
      (t.cached w.core (t.gridOf w.grid).ctx a = none ∨ t.cached w.core (t.gridOf w.grid).ctx a = some b → t.fetch w pc = .ok b) ∧
      (∀ c, t.cached w.core (t.gridOf w.grid).ctx a = some c → t.fetch w pc = .ok b ∨ t.fetch w pc = .ok c) ∧
      ((t.fetched w pc b).warps = t.warps ∧ (t.fetched w pc b).mem = t.mem ∧
        (w.core < t.cores.length → (t.fetched w pc b).cached w.core (t.gridOf w.grid).ctx a = some b))) ∧
  (∀ s dt i l, s.due = none → s.agenda = (dt, i) :: l → s.gtime % 256 + dt < 256 → i.info = none →
    step s = exec i ((({ s with agenda := l } : State).pass dt).stir i)) ∧
  (∀ s i, s.due = some i → step s = exec i (s.stir i))

/-- R102: the all-zero word is NOP, and ILLEG raises ILLEGAL_OPCODE whatever its other fields hold, whenever it has an active lane. -/
def Obligations.ZeroWordAndIlleg : Prop :=
  (∃ c, decode 0 = .ok (.nop c)) ∧
  (∀ u : InstrWord, u.extractLsb' 86 10 = 0x2C5 → ∃ c raw, decode u = .ok (.illeg c raw) ∧
    ∀ s w r, s.inRun = some (w, r) → (s.actives w c.g false r.lanes).isEmpty = false →
      exec (.illeg c raw) s = .next ((s.drawn w (guardKeys c.g false)).wholeFault w r
        ((s.actives w c.g false r.lanes).filter fun l => (w.lane l).kind.isThread) .illegalOpcode 0 false))

/-- R34: a word that must end its run, standing elsewhere in one with an active lane, raises ILLEGAL_SCHED and does not execute. -/
def Obligations.MustEndRun : Prop :=
  ∀ i s w r, endsRun i = true → s.inRun = some (w, r) → ∃ n, i.info = some n ∧
    ((actsOf n s w r).isEmpty = false → n.declared (s.gridOf w.grid).f.vregs (s.gridOf w.grid).f.sregs = true → n.aligned = true →
      n.ctl.sch.fin = false →
      exec i s = .next (s.wholeFault w r ((actsOf n s w r).filter fun l => (w.lane l).kind.isThread) .illegalSched 0 false))

/-- R42: a word without an active lane writes no register, touches no token, raises no fault and changes nothing else; its STALL
and END act, and the run goes on or ends. -/
def Obligations.NoActiveLane : Prop :=
  ∀ i n s w r, i.info = some n → s.inRun = some (w, r) → actsOf n s w r = [] →
    ∃ t, exec i s = .next t ∧
      (∀ v, t.warpAt w.core w.slot = some v → SameWarp w v ∧ v.tok = w.tok ∧ v.pend = w.pend ∧ v.hold = w.hold ∧
        (∀ l k, v.get l k = w.get l k) ∧
        (n.ctl.sch.fin = false → r.n < 23 → r.lanes ≠ [] → ∃ q, v.run = some q ∧ q.n = r.n + 1 ∧ q.pc = r.pc + 1 ∧ q.lanes = r.lanes)) ∧
      (∀ c k, ¬ (c = w.core ∧ k = w.slot) → t.warpAt c k = s.warpAt c k) ∧
      (Stands s w → (∃ v, t.warpAt w.core w.slot = some v) ∧ SameModule s t)

/-- R84, R87: V255 reads 0 and a write to it is discarded; P7 and CT read 1 and a write to them is discarded. -/
def Obligations.ConstantRegisters : Prop :=
  (∀ w l, Warp.get w l (.v 255) = 0 ∧ Warp.get w l (.p 7) = 1 ∧ Warp.get w l (.c 7) = 1) ∧
  (∀ w l x m k, Warp.get (Warp.put w l (.v 255) x) m k = Warp.get w m k) ∧
  (∀ w l x m k, Warp.get (Warp.put w l (.p 7) x) m k = Warp.get w m k) ∧
  (∀ w l x m k, Warp.get (Warp.put w l (.c 7) x) m k = Warp.get w m k)

/-- R114: 32-bit sums, differences and products in vector registers wrap modulo 2^32. -/
def Obligations.WrappingArithmetic : Prop :=
  ∀ c o d s w r, (o.ty = .i32 ∨ o.ty = .n32) → o.sat = false → o.dst = .v d → d ≠ 255 →
    (∀ l, l < w.lanes.length → d.toNat < (w.lane l).v.length) →
    (Ready (infoInt2 c o 2 1) s w r → ∃ t, exec (.iadd c o) s = .next t ∧ ∀ v, t.warpAt w.core w.slot = some v →
      ∀ l ∈ actsOf (infoInt2 c o 2 1) s w r, v.get l (.v d.toNat) =
        (((seenBy (infoInt2 c o 2 1) s w r).w.src l o.a o.ty).truncate 32 +
          ((seenBy (infoInt2 c o 2 1) s w r).w.src l o.b o.ty).truncate 32 : Word).zeroExtend 64) ∧
    (Ready (infoInt2 c o 2 1) s w r → ∃ t, exec (.isub c o) s = .next t ∧ ∀ v, t.warpAt w.core w.slot = some v →
      ∀ l ∈ actsOf (infoInt2 c o 2 1) s w r, v.get l (.v d.toNat) =
        (((seenBy (infoInt2 c o 2 1) s w r).w.src l o.a o.ty).truncate 32 -
          ((seenBy (infoInt2 c o 2 1) s w r).w.src l o.b o.ty).truncate 32 : Word).zeroExtend 64) ∧
    (Ready (infoInt2 c o 4 1) s w r → ∃ t, exec (.imul c o) s = .next t ∧ ∀ v, t.warpAt w.core w.slot = some v →
      ∀ l ∈ actsOf (infoInt2 c o 4 1) s w r, v.get l (.v d.toNat) =
        (((seenBy (infoInt2 c o 4 1) s w r).w.src l o.a o.ty).truncate 32 *
          ((seenBy (infoInt2 c o 4 1) s w r).w.src l o.b o.ty).truncate 32 : Word).zeroExtend 64)

/-! ### Traps -/

/-- R284: the delivery of a trap: without a handler, or to a lane in one, the grid is aborted; else each trapping lane keeps its
return PC in RET, is marked INH and stands at the handler, and no other lane is affected. -/
def Obligations.TrapDelivery : Prop :=
  (∀ (s : State) (w : Warp) lanes ret, (s.gridOf w.grid).f.hv = false ∨ (∃ l ∈ lanes, (w.lane l).inh = true) →
    s.deliver w lanes ret = s.abortGrid w.grid) ∧
  (∀ (s : State) (w v : Warp) (lanes : List Nat) ret, (s.gridOf w.grid).f.hv = true → (∀ l ∈ lanes, (w.lane l).inh = false ∧ l < w.lanes.length) →
      s.warpU w.uid = some w → (s.deliver w lanes ret).warpU w.uid = some v →
    (∀ l ∈ lanes, (v.lane l).pc = (s.gridOf w.grid).f.hpc ∧ (v.lane l).entry = (s.gridOf w.grid).f.hpc ∧ (v.lane l).inh = true ∧
      (v.lane l).ret = ret.getD (w.lane l).entry ∧ (v.lane l).v = (w.lane l).v ∧ (v.lane l).p = (w.lane l).p) ∧
    (∀ l, l ∉ lanes → v.lane l = w.lane l))

/-! ### Memory -/

/-- Memory as a list of cells: a written byte reads as written and every other as before, the canonical form is kept, and memories
in that form that read alike are equal. -/
def Obligations.MemoryBytes : Prop :=
  (∀ (m : Mem) a (d : List Byte) b, m.wf = true →
    (m.write a d).wf = true ∧ (m.write a d).get b = if a ≤ b ∧ b < a + d.length then d.getD (b - a) 0 else m.get b) ∧
  (∀ m n : Mem, m.wf = true → n.wf = true → (∀ a, m.get a = n.get a) → m = n)

/-- R183, R184, R188 to R190, R405: accesses to the team's scratchpad. A store: the bytes of every active lane at its address, where no
other lane stores to them; every other byte of every scratchpad, all of memory and the cores as before. A load, an atomic or a CAS
gives each lane the bytes that stood at its address, where they are free of poison and no other lane of the word writes them, and an
atomic or CAS leaves its new value there. That it acts as its word executes, and that a releasing access first waits, is the model's choice
(DESIGN CHOICE, log 57; DESIGN CHOICE, log 52). -/
def Obligations.ScratchStores : Prop :=
  (∀ c o s w r, Ready (infoSt c o) s w r → MayAccess (seenBy (infoSt c o) s w r) o.ord → MemoryForm s →
    (s.gridOf w.grid).aborted = false → (Order.releases o.ord = true → (seenBy (infoSt c o) s w r).w.outstanding = []) →
    (let x := seenBy (infoSt c o) s w r
     let s0 := startOf (infoSt c o) s w r
     let ea := fun l => x.ea l o.addr o.off
     (∀ l ∈ x.thr, ∃ a, s0.laneLoc x l (ea l) o.ty.bytes true = .scratch a) →
     ∃ t, exec (.st c o) s = .next t ∧ t.mem = s.mem ∧ SameCores s t ∧
       (∀ u q, s.team u = some q → ∃ p, t.team u = some p ∧
         (∀ b, ¬ StoresTo x s0 ea o.ty.bytes u b → p.scratch.get b = q.scratch.get b) ∧
         ∀ l ∈ x.thr, ∀ a, (x.w.lane l).team = u → s0.laneLoc x l (ea l) o.ty.bytes true = .scratch a →
           Alone x s0 ea o.ty.bytes l a →
           p.scratch.read a o.ty.bytes = x.bytes l o.data o.ty))) ∧
  (∀ c o s w r, Ready (infoLd c o) s w r → MayAccess (seenBy (infoLd c o) s w r) o.ord → MemoryForm s → Stands s w →
    (let x := seenBy (infoLd c o) s w r
     let place := fun l => (startOf (infoLd c o) s w r).laneLoc x l (x.ea l o.addr o.off) o.ty.bytes false
     (∀ l ∈ x.thr, CleanScratch s x l (place l)) →
     ∃ t v ev, exec (.ld c o) s = .next t ∧ t.warpAt w.core w.slot = some v ∧ t.mem = s.mem ∧ SameCores s t ∧
       (∀ u q, s.team u = some q → ∃ p, t.team u = some p ∧ p.scratch = q.scratch) ∧
       ∀ l ∈ x.thr, ∀ a q, place l = .scratch a → s.team (x.w.lane l).team = some q →
         WillGive v ev l (dstV o.dst) o.ty.signed (q.scratch.read a o.ty.bytes))) ∧
  (∀ c o s w r, Ready (infoAtom c o) s w r → MayAccess (seenBy (infoAtom c o) s w r) o.ord → MemoryForm s → Stands s w →
    (Order.releases o.ord = true → (seenBy (infoAtom c o) s w r).w.outstanding = []) → s.trace.flags = 0 →
    (let x := seenBy (infoAtom c o) s w r
     let s0 := startOf (infoAtom c o) s w r
     let ea := fun l => x.ea l o.addr 0
     (∀ l ∈ x.thr, CleanScratch s x l (s0.laneLoc x l (ea l) o.ty.bytes true)) →
     ∃ t v ev, exec (.atom c o) s = .next t ∧ t.warpAt w.core w.slot = some v ∧ t.mem = s.mem ∧ SameCores s t ∧
       ∀ u q, s.team u = some q → ∃ p, t.team u = some p ∧
         (∀ b, ¬ StoresTo x s0 ea o.ty.bytes u b → p.scratch.get b = q.scratch.get b) ∧
         ∀ l ∈ x.thr, ∀ a, (x.w.lane l).team = u → s0.laneLoc x l (ea l) o.ty.bytes true = .scratch a →
           Alone x s0 ea o.ty.bytes l a →
           WillGive v ev l (dstV o.dst) false (q.scratch.read a o.ty.bytes) ∧
           p.scratch.read a o.ty.bytes = leBytes o.ty.bytes
             (atomNew o.op o.ty (leNat (q.scratch.read a o.ty.bytes)) ((x.w.src l o.b o.ty).toNat % 2 ^ o.ty.bits)))) ∧
  (∀ c o s w r, Ready (infoCas c o) s w r → MayAccess (seenBy (infoCas c o) s w r) o.ord → MemoryForm s → Stands s w →
    (Order.releases o.ord = true → (seenBy (infoCas c o) s w r).w.outstanding = []) → s.trace.flags = 0 →
    (let x := seenBy (infoCas c o) s w r
     let s0 := startOf (infoCas c o) s w r
     let ea := fun l => x.ea l o.addr 0
     let n := CasTy.size o.ct
     (∀ l ∈ x.thr, CleanScratch s x l (s0.laneLoc x l (ea l) n true)) →
     ∃ t v ev, exec (.cas c o) s = .next t ∧ t.warpAt w.core w.slot = some v ∧ t.mem = s.mem ∧ SameCores s t ∧
       ∀ u q, s.team u = some q → ∃ p, t.team u = some p ∧
         (∀ b, ¬ StoresTo x s0 ea n u b → p.scratch.get b = q.scratch.get b) ∧
         ∀ l ∈ x.thr, ∀ a, (x.w.lane l).team = u → s0.laneLoc x l (ea l) n true = .scratch a → Alone x s0 ea n l a →
           WillGive v ev l o.dst.toNat false (q.scratch.read a n) ∧
           p.scratch.read a n = if q.scratch.read a n = x.casBytes l o.cv o.ct then x.casBytes l o.nv o.ct else q.scratch.read a n))

/-- R178, R217: sectors written at the home of a line: the line reads as written in those sectors and as before in the others,
and every other line as before. -/
def Obligations.HomeWrites : Prop :=
  ∀ s l mask d p, MemoryForm s → d.length = 128 → (s.homeData l).1.length = 128 → (s.cell l).isSome = true ∨ l.isHost = false →
    (∀ m, m ≠ l → (s.homePatch l mask d p).homeData m = s.homeData m) ∧
    (∀ b, b < 128 → ((s.homePatch l mask d p).homeData l).1.getD b 0 =
      if mask.getLsbD (b / 32) then d.getD b 0 else (s.homeData l).1.getD b 0) ∧
    (∀ i, i < 4 → ((s.homePatch l mask d p).homeData l).2.getLsbD i =
      if mask.getLsbD i then p.getLsbD i else (s.homeData l).2.getLsbD i)

/-- Every step keeps memory of every kind in its canonical form. -/
def Obligations.MemoryFormKept : Prop := ∀ s t, MemoryForm s → step s = .next t → MemoryForm t

/-! ### Reset and privilege -/

/-- R19, R312, R371, R399: after reset GTIME is 0, every die's selected setting is 10, every core numbers its commands from 1,
nothing is resident, memory is in canonical form, and the module is not READY. -/
def Obligations.ResetHolds : Prop :=
  State.reset.gtime = 0 ∧ (∀ d, d < 4 → (State.reset.die d).selected = 10) ∧ (∀ k ∈ State.reset.cores, k.nextSeq = 1) ∧
  State.reset.boot.st ≠ .ready ∧ State.reset.warps = [] ∧ State.reset.grids = [] ∧ MemoryForm State.reset

/-- R368, R370, R373, R400: a request that only the admin interface may make completes with NOPRIV, and has no other effect, on
any other interface, and REFUSED where the module is not READY; a write to the status page that does not carry the admin interface's PASID is dropped. -/
def Obligations.AdminOnly : Prop :=
  (∀ s p i, s.boot.st = .ready → p.iface ≠ 8 → i ∈ [Instr.grant p, .stop p, .faultreplyRetry p, .faultreplyDeliver p, .faultreplyAbort p,
      .faultreplyRefused p, .ctxdesc p, .ncrange p, .dedicate p, .domain p, .pasidGrant p, .pasidRevoke p, .qbindBind p,
      .qbindUnbind p, .ringcfg p] → exec i s = .next (s.answer p nopriv 0)) ∧
  (∀ s p i, s.boot.st = .ready → p.iface ≠ 8 → s.slowOf p = none → i ∈ [Instr.destroy p, .clock p] → exec i s = .next (s.answer p nopriv 0)) ∧
  (∀ s p c i, s.boot.st = .ready → s.ctx (pktCtx p) = some c → p.iface ≠ 8 → p.iface ≠ c.owner → i ∈ [Instr.tabledesc p, .group p, .evctrSet p, .evctrAdd p] →
    exec i s = .next (s.answer p nopriv 0)) ∧
  (∀ s p i, s.boot.st ≠ .ready → s.slowOf p = none → i ∈ [Instr.grant p, .stop p, .faultreplyRetry p, .faultreplyDeliver p,
      .faultreplyAbort p, .faultreplyRefused p, .ctxdesc p, .tabledesc p, .tlbinv p, .ncrange p, .dedicate p, .group p, .domain p, .qrestart p,
      .pasidGrant p, .pasidRevoke p, .destroy p, .clock p, .qbindBind p, .qbindUnbind p, .ringcfg p, .evctrSet p, .evctrAdd p] →
    exec i s = .next (s.answer p refused 0)) ∧
  (∀ s off v, exec (.registerWrite false .status off v) s = .next s)
end

