-- ==== Sys2Proof/Laws/Decode.lean ====
section
/-! SUPPORT. The field readers of the decoder invert the field writers of the encoder, and a word keeps its fields. -/

namespace Sys2Proof

theorem extract_hi {n m k : Nat} (x : BitVec n) (y : BitVec m) (i : Nat) (h : m ≤ i) :
    (x ++ y).extractLsb' i k = x.extractLsb' (i - m) k := by
  ext j hj
  simp only [BitVec.getElem_extractLsb']
  rw [BitVec.getLsbD_append]; simp [show ¬ (i + j < m) by omega]; congr 1; omega
theorem extract_lo {n m k : Nat} (x : BitVec n) (y : BitVec m) (i : Nat) (h : i + k ≤ m) :
    (x ++ y).extractLsb' i k = y.extractLsb' i k := by
  ext j hj
  simp only [BitVec.getElem_extractLsb']
  rw [BitVec.getLsbD_append]; simp [show (i + j < m) by omega]
theorem extract_all {n : Nat} (x : BitVec n) : x.extractLsb' 0 n = x := by ext j hj; simp

@[simp] theorem need_true {α : Type} (x : Option α) : need true x = x := rfl
@[simp] theorem tyOf_encTy (t : Ty) : tyOf (encTy t) = t := by cases t <;> rfl
@[simp] theorem rndOf_enc (t : Rnd) : rndOf (encRnd t) = some t := by cases t <;> rfl
@[simp] theorem scopeOf_enc (t : Scope) : scopeOf (encScope t) = some t := by cases t <;> rfl
@[simp] theorem orderOf_enc (t : Order) : orderOf (encOrder t) = some t := by cases t <;> rfl
@[simp] theorem kfOf_enc (t : KeyFmt) : kfOf (encKf t) = some t := by cases t <;> rfl
@[simp] theorem atomOpOf_enc (t : AtomOp) : atomOpOf (encAtomOp t) = some t := by cases t <;> rfl
theorem srcOf_enc (a : Src) (h : a.isImm = false) : srcOf (encSrc a) = some a := by
  cases a with
  | v n u =>
    have h1 : (encSrc (.v n u)).extractLsb' 10 2 = 0#2 := by
      show (0#2 ++ n ++ encUse u).extractLsb' 10 2 = _
      rw [extract_hi _ _ _ (by decide), extract_hi _ _ _ (by decide)]; rfl
    have h2 : (encSrc (.v n u)).extractLsb' 2 8 = n := by
      show (0#2 ++ n ++ encUse u).extractLsb' 2 8 = _
      rw [extract_hi _ _ _ (by decide), extract_lo _ _ _ (by decide)]; exact extract_all _
    have h3 : (encSrc (.v n u)).extractLsb' 0 2 = encUse u := by
      show (0#2 ++ n ++ encUse u).extractLsb' 0 2 = _
      rw [extract_lo _ _ _ (by decide)]; exact extract_all _
    have h4 : useOf (encUse u) = some u := by cases u <;> rfl
    simp [srcOf, h1, h2, h3, h4]
  | s n u =>
    have h1 : (encSrc (.s n u)).extractLsb' 10 2 = 1#2 := by
      show (1#2 ++ n ++ encUse u).extractLsb' 10 2 = _
      rw [extract_hi _ _ _ (by decide), extract_hi _ _ _ (by decide)]; rfl
    have h2 : (encSrc (.s n u)).extractLsb' 2 8 = n := by
      show (1#2 ++ n ++ encUse u).extractLsb' 2 8 = _
      rw [extract_hi _ _ _ (by decide), extract_lo _ _ _ (by decide)]; exact extract_all _
    have h3 : (encSrc (.s n u)).extractLsb' 0 2 = encUse u := by
      show (1#2 ++ n ++ encUse u).extractLsb' 0 2 = _
      rw [extract_lo _ _ _ (by decide)]; exact extract_all _
    have h4 : useOf (encUse u) = some u := by cases u <;> rfl
    simp [srcOf, h1, h2, h3, h4]
  | lit n =>
    have h1 : (encSrc (.lit n)).extractLsb' 10 2 = 3#2 := by
      show (3#2 ++ n ++ 0#2).extractLsb' 10 2 = _
      rw [extract_hi _ _ _ (by decide), extract_hi _ _ _ (by decide)]; rfl
    have h2 : (encSrc (.lit n)).extractLsb' 2 8 = n := by
      show (3#2 ++ n ++ 0#2).extractLsb' 2 8 = _
      rw [extract_hi _ _ _ (by decide), extract_lo _ _ _ (by decide)]; exact extract_all _
    have h3 : (encSrc (.lit n)).extractLsb' 0 2 = 0#2 := by
      show (3#2 ++ n ++ 0#2).extractLsb' 0 2 = _
      rw [extract_lo _ _ _ (by decide)]; exact extract_all _
    have h4 : useOf (0#2) = some .plain := by rfl
    simp [srcOf, h1, h2, h3, h4]
  | imm x => simp [Src.isImm] at h
theorem srcScOf_enc (a : Src) (h : a.isImm = false) : srcScOf (encSrcSc a) = some a := by
  have h1 : (encSrcSc a).extractLsb' 0 4 = 0#4 := by
    show (encSrc a ++ 0#4).extractLsb' 0 4 = _
    rw [extract_lo _ _ _ (by decide)]; rfl
  have h2 : (encSrcSc a).extractLsb' 4 12 = encSrc a := by
    show (encSrc a ++ 0#4).extractLsb' 4 12 = _
    rw [extract_hi _ _ _ (by decide)]; exact extract_all _
  simp [srcScOf, h1, h2, srcOf_enc a h]
@[simp] theorem dstOf_enc (d : Dst) : dstOf (encDst d) = some d := by
  cases d with
  | v n => revert n; decide
  | s n => revert n; decide
  | p n => revert n; decide
  | c n => revert n; decide
  | disc => rfl
@[simp] theorem pOf_enc (i : BitVec 3) : pOf (encP i) = some i := by revert i; decide
@[simp] theorem cOf_enc (i : BitVec 3) : cOf (encC i) = some i := by revert i; decide
@[simp] theorem kOf_enc (i : BitVec 3) : kOf (encK i) = some i := by revert i; decide
@[simp] theorem sOf_enc (i : BitVec 8) : sOf (encS i) = some i := by revert i; decide
@[simp] theorem vOf_enc (i : BitVec 8) : vOf (encV i) = some i := by revert i; decide
@[simp] theorem secondOf_s (i : BitVec 8) : secondOf (encSecond (.s i)) = some (.s i) := by revert i; decide
@[simp] theorem secondOf_d : secondOf (encSecond .disc) = some .disc := by decide
@[simp] theorem dstP_enc (i : BitVec 3) : dstP (encDstP i) = some i := by revert i; decide
@[simp] theorem dstC_enc (i : BitVec 3) : dstC (encDstC i) = some i := by revert i; decide
@[simp] theorem dstS_enc (i : BitVec 8) : dstS (encDstS i) = some i := by revert i; decide
@[simp] theorem dstV_enc (i : BitVec 8) : dstV (encDstV i) = some i := by revert i; decide
@[simp] theorem dstScalar_enc (d : Dst) : dstScalar (encDst d) = d.scalar := by
  cases d with
  | v n => revert n; decide
  | s n => revert n; decide
  | p n => revert n; decide
  | c n => revert n; decide
  | disc => rfl
theorem lsb_hi {n m : Nat} (x : BitVec n) (y : BitVec m) (i : Nat) (h : m ≤ i) : (x ++ y).getLsbD i = x.getLsbD (i - m) := by
  rw [BitVec.getLsbD_append]; simp [Nat.not_lt.mpr h]
theorem lsb_lo {n m : Nat} (x : BitVec n) (y : BitVec m) (i : Nat) (h : i < m) : (x ++ y).getLsbD i = y.getLsbD i := by
  rw [BitVec.getLsbD_append]; simp [h]
theorem fieldsOf_wordOf (f : Fields) : fieldsOf (wordOf f) = f := by
  obtain ⟨a, b, c, d, e, g, h, i, j⟩ := f
  simp only [fieldsOf, wordOf, Fields.mk.injEq]
  refine ⟨?_, ?_, ?_, ?_, ?_, ?_, ?_, ?_, ?_⟩
  case refine_3 =>
    repeat (refine (lsb_hi _ _ _ (by decide)).trans ?_)
    refine (lsb_lo _ _ _ (by decide)).trans ?_
    simp
  case refine_9 => refine (extract_lo _ _ _ (by decide)).trans (extract_all _)
  case refine_1 =>
    repeat (refine (extract_hi _ _ _ (by decide)).trans ?_)
    exact extract_all _
  all_goals
    repeat (refine (extract_hi _ _ _ (by decide)).trans ?_)
    refine (extract_lo _ _ _ (by decide)).trans ?_
    exact extract_all _
theorem schedOf_encSched (s : Sched) : schedOf (encSched s) = s := by
  obtain ⟨a, b, c, d, e, f, g, h⟩ := s
  simp only [schedOf, encSched, Sched.mk.injEq]
  refine ⟨?_, ?_, ?_, ?_, ?_, ?_, ?_, ?_⟩
  case refine_1 =>
    repeat (refine (extract_hi _ _ _ (by decide)).trans ?_)
    exact extract_all _
  case refine_8 => refine (extract_lo _ _ _ (by decide)).trans (extract_all _)
  all_goals
    first
    | (repeat (refine (extract_hi _ _ _ (by decide)).trans ?_)
       refine (extract_lo _ _ _ (by decide)).trans ?_
       exact extract_all _)
    | (repeat (refine (lsb_hi _ _ _ (by decide)).trans ?_)
       refine (lsb_lo _ _ _ (by decide)).trans ?_
       simp)
theorem imm28_cat (x : BitVec 28) : (x.extractLsb' 16 12 ++ x.extractLsb' 0 16 : BitVec 28) = x := by
  apply BitVec.eq_of_getLsbD_eq
  intro i hi
  rw [BitVec.getLsbD_append]
  split
  · simp; omega
  · simp [show i - 16 < 12 by omega]; congr 1; omega
theorem ctl_base (k : Nat) (c : Ctl) : (base k c).ctl = c := by
  show (⟨⟨c.g.neg, c.g.idx⟩, schedOf (encSched c.sch)⟩ : Ctl) = c
  rw [schedOf_encSched]

/-- What a decoding rests on: the row of the opcode, and what that row reads. -/
theorem decodeFields_of {f : Fields} {r : Row} {i : Instr} (hr : rowOf f.opc.toNat = some r)
    (hp : r.parse f.ctl f = some i) (h : i.wellFormed = true) : decodeFields f = .ok i := by
  simp only [decodeFields, hr, hp, h, if_true]

/-- A word decodes as its fields do. -/
theorem decode_of {i : Instr} {f : Fields} {w : InstrWord} (he : encodeFields i = some f) (hw : encode i = some w)
    (h : decodeFields f = .ok i) : decode w = .ok i := by
  simp only [encode, he, Option.map_some, Option.some.injEq] at hw
  rw [← hw, decode, fieldsOf_wordOf, h]

end Sys2Proof
end

