-- ==== Sys2Proof/Laws/Memory.lean ====
section
/-! SUPPORT. Memory as a list of cells: what a store of a byte, a store of bytes and a read do, and that the canonical form is
kept. -/

namespace Sys2Proof.Machine

/-! ### The canonical form -/

theorem Mem.wfFrom_mono {m : Mem} {a b : Nat} (h : m.wfFrom b = true) (le : a ≤ b) : m.wfFrom a = true := by
  cases m with
  | nil => rfl
  | cons c r => simp only [Mem.wfFrom, Bool.and_eq_true, decide_eq_true_eq] at h ⊢; exact ⟨⟨by omega, h.1.2⟩, h.2⟩

/-- A store of a byte at or above the bound keeps the form. -/
theorem Mem.wfFrom_put {m : Mem} {lo a : Nat} {x : Byte} (h : m.wfFrom lo = true) (le : lo ≤ a) : (m.put a x).wfFrom lo = true := by
  induction m generalizing lo with
  | nil => by_cases hx : x = 0#8 <;> simp [Mem.put, hx, Mem.wfFrom, le]
  | cons c r ih =>
    obtain ⟨k, b⟩ := c
    simp only [Mem.wfFrom, Bool.and_eq_true, decide_eq_true_eq] at h
    simp only [Mem.put]
    split
    · rename_i lt
      by_cases hx : x = 0#8
      · simp [hx, Mem.wfFrom, h.1.1, h.2]; simpa using h.1.2
      · simp [hx, Mem.wfFrom, le, h.2]; exact ⟨by omega, by simpa using h.1.2⟩
    · split
      · rename_i _ e; subst e
        by_cases hx : x = 0#8
        · simp only [hx]; exact Mem.wfFrom_mono h.2 (by omega)
        · simp [hx, Mem.wfFrom, le, h.2]
      · simp only [Mem.wfFrom, Bool.and_eq_true, decide_eq_true_eq]
        exact ⟨h.1, ih h.2 (by omega)⟩

theorem Mem.wf_put {m : Mem} (h : m.wf = true) (a : Nat) (x : Byte) : (m.put a x).wf = true := Mem.wfFrom_put h (Nat.zero_le a)

theorem Mem.wf_write {m : Mem} (h : m.wf = true) (a : Nat) (d : List Byte) : (m.write a d).wf = true := by
  induction d generalizing m a with
  | nil => exact h
  | cons x d ih => exact ih (Mem.wf_put h a x) (a + 1)

theorem Mem.wf_nil : Mem.wf [] = true := rfl

/-- Dropping cells keeps the form. -/
theorem Mem.wfFrom_filter {m : Mem} {lo : Nat} (p : Nat × Byte → Bool) (h : m.wfFrom lo = true) :
    Mem.wfFrom lo (m.filter p) = true := by
  induction m generalizing lo with
  | nil => rfl
  | cons c r ih =>
    obtain ⟨k, b⟩ := c
    simp only [Mem.wfFrom, Bool.and_eq_true, decide_eq_true_eq] at h
    simp only [List.filter_cons]
    split
    · simp only [Mem.wfFrom, Bool.and_eq_true, decide_eq_true_eq]; exact ⟨h.1, ih h.2⟩
    · exact Mem.wfFrom_mono (ih h.2) (by omega)

theorem Mem.wf_filter {m : Mem} (p : Nat × Byte → Bool) (h : m.wf = true) : Mem.wf (m.filter p) = true := Mem.wfFrom_filter p h

/-! ### Reading -/

/-- Below the bound of the form nothing is listed. -/
theorem Mem.get_below {m : Mem} {lo a : Nat} (h : m.wfFrom lo = true) (lt : a < lo) : m.get a = 0 := by
  cases m with
  | nil => rfl
  | cons c r =>
    obtain ⟨k, b⟩ := c
    simp only [Mem.wfFrom, Bool.and_eq_true, decide_eq_true_eq] at h
    simp only [Mem.get]
    rw [if_neg (by omega), if_pos (by omega)]

theorem Mem.get_put {m : Mem} {lo : Nat} (h : m.wfFrom lo = true) (a b : Nat) (x : Byte) :
    (m.put a x).get b = if b = a then x else m.get b := by
  induction m generalizing lo with
  | nil =>
    by_cases e : b = a
    · subst e; by_cases hx : x = 0 <;> simp only [Mem.put, hx, if_true, if_false, Mem.get]
    · by_cases hx : x = 0
      · simp only [Mem.put, hx, if_true, if_neg e]
      · simp only [Mem.put, if_neg hx, Mem.get, if_neg (Ne.symm e), if_neg e, ite_self]
  | cons c r ih =>
    obtain ⟨k, y⟩ := c
    simp only [Mem.wfFrom, Bool.and_eq_true, decide_eq_true_eq] at h
    simp only [Mem.put]
    split
    · rename_i lt
      by_cases e : b = a
      · subst e
        by_cases hx : x = 0
        · simp only [hx, if_true, Mem.get, if_neg (Nat.ne_of_gt lt), if_pos lt]
        · simp only [hx, if_false, Mem.get, if_true]
      · by_cases hx : x = 0
        · simp only [hx, if_true, if_neg e]
        · simp only [hx, if_false, Mem.get, if_neg (Ne.symm e), if_neg e]
          by_cases lb : b < a
          · rw [if_pos lb, if_neg (by omega), if_pos (by omega)]
          · rw [if_neg lb]
    · split
      · rename_i _ e; subst e
        by_cases e : b = a
        · subst e
          by_cases hx : x = 0
          · simp only [hx, if_true]; exact Mem.get_below h.2 (by omega)
          · simp only [hx, if_false, Mem.get, if_true]
        · by_cases hx : x = 0
          · simp only [hx, if_true, if_neg e, Mem.get, if_neg (Ne.symm e)]
            by_cases lb : b < a
            · rw [if_pos lb]; exact Mem.get_below h.2 (by omega)
            · rw [if_neg lb]
          · simp only [hx, if_false, Mem.get, if_neg e, if_neg (Ne.symm e)]
      · simp only [Mem.get, ih h.2]
        by_cases e : b = a
        · subst e; simp only [if_true]; rw [if_neg (by omega), if_neg (by omega)]
        · simp only [if_neg e]

theorem Mem.get_write {m : Mem} (h : m.wf = true) (a : Nat) (d : List Byte) (b : Nat) :
    (m.write a d).get b = if a ≤ b ∧ b < a + d.length then d.getD (b - a) 0 else m.get b := by
  induction d generalizing m a with
  | nil => rw [if_neg (fun h => absurd h.2 (by simpa using h.1))]; rfl
  | cons x d ih =>
    simp only [Mem.write]
    rw [ih (Mem.wf_put h a x), Mem.get_put h]
    simp only [List.length_cons]
    by_cases e : b = a
    · subst e; rw [if_neg (by omega), if_pos rfl, if_pos (by omega)]; simp
    · by_cases hb : a ≤ b ∧ b < a + (d.length + 1)
      · have : b - a = (b - (a + 1)) + 1 := by omega
        rw [if_pos (by omega), if_pos hb, this]; simp
      · rw [if_neg (by omega), if_neg e, if_neg hb]

theorem Mem.read_length (m : Mem) (a n : Nat) : (m.read a n).length = n := by
  induction n generalizing a with
  | zero => rfl
  | succ n ih => simp [Mem.read, ih]

theorem Mem.read_get (m : Mem) (a n i : Nat) (h : i < n) : (m.read a n).getD i 0 = m.get (a + i) := by
  induction n generalizing a i with
  | zero => omega
  | succ n ih =>
    cases i with
    | zero => rfl
    | succ i => 
      have := ih (a + 1) i (by omega)
      simp only [Mem.read, List.getD_cons_succ, this]; congr 1; omega

end Sys2Proof.Machine
end

