-- ==== Sys2Proof/Laws/Form.lean ====
section
/-! SUPPORT. What keeps the canonical form of every memory: a change that leaves the memories alone, a change of one
team, core or memory system that keeps theirs. -/

namespace Sys2Proof.Machine

/-- The form looks at nothing but the memories. -/
theorem MemoryForm.congr {s t : State} (h : MemoryForm s) (hm : t.mem.dram = s.mem.dram) (ht : t.teams = s.teams)
    (hc : t.cores = s.cores) : MemoryForm t := by
  obtain ⟨a, b, c⟩ := h
  exact ⟨hm ▸ a, ht ▸ b, hc ▸ c⟩

/-- A change of one team that keeps its scratchpad and its saved operand buffers in form. -/
theorem MemoryForm.modTeam {s : State} (h : MemoryForm s) (u : Nat) (f : Team → Team)
    (hf : ∀ t ∈ s.teams, (f t).scratch.wf = true ∧ (f t).resMem.wf = true) : MemoryForm (s.modTeam u f) := by
  obtain ⟨a, b, c⟩ := h
  refine ⟨a, fun t ht => ?_, c⟩
  simp only [State.modTeam, List.mem_map] at ht
  obtain ⟨t', ht', rfl⟩ := ht
  split
  · exact hf t' ht'
  · exact b t' ht'

/-- A change of one core that keeps its operand buffer in form. -/
theorem MemoryForm.modCore {s : State} (h : MemoryForm s) (k : Nat) (f : Core → Core)
    (hf : ∀ x ∈ s.cores, (f x).opbuf.wf = true) : MemoryForm (s.modCore k f) := by
  obtain ⟨a, b, c⟩ := h
  refine ⟨a, b, fun x hx => ?_⟩
  simp only [State.modCore] at hx
  rw [List.mem_iff_getElem?] at hx
  obtain ⟨i, hi⟩ := hx
  rw [List.getElem?_modify] at hi
  split at hi
  · obtain ⟨y, hy, rfl⟩ := Option.map_eq_some_iff.mp hi
    exact hf y (List.mem_of_getElem? hy)
  · simp at hi
    exact c x (List.mem_of_getElem? hi)

/-- A change of the memory system that keeps device memory in form. -/
theorem MemoryForm.modMem {s : State} (h : MemoryForm s) (f : MemSys → MemSys) (hf : (f s.mem).dram.wf = true) :
    MemoryForm (s.modMem f) := ⟨hf, h.2.1, h.2.2⟩

/-- A change of one warp leaves every memory alone. -/
theorem MemoryForm.modWarp {s : State} (h : MemoryForm s) (c k : Nat) (f : Warp → Warp) : MemoryForm (s.modWarp c k f) := h

/-- A message to the host leaves every memory alone. -/
theorem MemoryForm.send {s : State} (h : MemoryForm s) (m : Msg) : MemoryForm (s.send m) := h

end Sys2Proof.Machine
end

