-- ==== Sys2Proof/Laws/State.lean ====
section
/-! SUPPORT. What each plain update of the state leaves as it was: one lemma for every field that it does not touch, and the field
that it does. -/

namespace Sys2Proof.Machine

@[simp] theorem State.modWarp_agenda (s : State) (c k : Nat) (f : Warp → Warp) : (s.modWarp c k f).agenda = s.agenda := rfl
@[simp] theorem State.modWarp_tempo (s : State) (c k : Nat) (f : Warp → Warp) : (s.modWarp c k f).tempo = s.tempo := rfl
@[simp] theorem State.modWarp_fresh (s : State) (c k : Nat) (f : Warp → Warp) : (s.modWarp c k f).fresh = s.fresh := rfl
@[simp] theorem State.modWarp_uid (s : State) (c k : Nat) (f : Warp → Warp) : (s.modWarp c k f).uid = s.uid := rfl
@[simp] theorem State.modWarp_cur (s : State) (c k : Nat) (f : Warp → Warp) : (s.modWarp c k f).cur = s.cur := rfl
@[simp] theorem State.modWarp_lastCore (s : State) (c k : Nat) (f : Warp → Warp) : (s.modWarp c k f).lastCore = s.lastCore := rfl
@[simp] theorem State.modWarp_gtime (s : State) (c k : Nat) (f : Warp → Warp) : (s.modWarp c k f).gtime = s.gtime := rfl
@[simp] theorem State.modWarp_dies (s : State) (c k : Nat) (f : Warp → Warp) : (s.modWarp c k f).dies = s.dies := rfl
@[simp] theorem State.modWarp_teams (s : State) (c k : Nat) (f : Warp → Warp) : (s.modWarp c k f).teams = s.teams := rfl
@[simp] theorem State.modWarp_grids (s : State) (c k : Nat) (f : Warp → Warp) : (s.modWarp c k f).grids = s.grids := rfl
@[simp] theorem State.modWarp_cores (s : State) (c k : Nat) (f : Warp → Warp) : (s.modWarp c k f).cores = s.cores := rfl
@[simp] theorem State.modWarp_mem (s : State) (c k : Nat) (f : Warp → Warp) : (s.modWarp c k f).mem = s.mem := rfl
@[simp] theorem State.modWarp_tabs (s : State) (c k : Nat) (f : Warp → Warp) : (s.modWarp c k f).tabs = s.tabs := rfl
@[simp] theorem State.modWarp_sch (s : State) (c k : Nat) (f : Warp → Warp) : (s.modWarp c k f).sch = s.sch := rfl
@[simp] theorem State.modWarp_bins (s : State) (c k : Nat) (f : Warp → Warp) : (s.modWarp c k f).bins = s.bins := rfl
@[simp] theorem State.modWarp_pmodes (s : State) (c k : Nat) (f : Warp → Warp) : (s.modWarp c k f).pmodes = s.pmodes := rfl
@[simp] theorem State.modWarp_host (s : State) (c k : Nat) (f : Warp → Warp) : (s.modWarp c k f).host = s.host := rfl
@[simp] theorem State.modWarp_link (s : State) (c k : Nat) (f : Warp → Warp) : (s.modWarp c k f).link = s.link := rfl
@[simp] theorem State.modWarp_trace (s : State) (c k : Nat) (f : Warp → Warp) : (s.modWarp c k f).trace = s.trace := rfl
@[simp] theorem State.modWarp_boot (s : State) (c k : Nat) (f : Warp → Warp) : (s.modWarp c k f).boot = s.boot := rfl

@[simp] theorem State.modWarp_slots (s : State) (c k : Nat) (f : Warp → Warp) : (s.modWarp c k f).slots = s.slots := rfl

@[simp] theorem State.putWarp_agenda (s : State) (w : Warp) : (s.putWarp w).agenda = s.agenda := rfl
@[simp] theorem State.putWarp_tempo (s : State) (w : Warp) : (s.putWarp w).tempo = s.tempo := rfl
@[simp] theorem State.putWarp_fresh (s : State) (w : Warp) : (s.putWarp w).fresh = s.fresh := rfl
@[simp] theorem State.putWarp_uid (s : State) (w : Warp) : (s.putWarp w).uid = s.uid := rfl
@[simp] theorem State.putWarp_cur (s : State) (w : Warp) : (s.putWarp w).cur = s.cur := rfl
@[simp] theorem State.putWarp_lastCore (s : State) (w : Warp) : (s.putWarp w).lastCore = s.lastCore := rfl
@[simp] theorem State.putWarp_gtime (s : State) (w : Warp) : (s.putWarp w).gtime = s.gtime := rfl
@[simp] theorem State.putWarp_dies (s : State) (w : Warp) : (s.putWarp w).dies = s.dies := rfl
@[simp] theorem State.putWarp_teams (s : State) (w : Warp) : (s.putWarp w).teams = s.teams := rfl
@[simp] theorem State.putWarp_grids (s : State) (w : Warp) : (s.putWarp w).grids = s.grids := rfl
@[simp] theorem State.putWarp_cores (s : State) (w : Warp) : (s.putWarp w).cores = s.cores := rfl
@[simp] theorem State.putWarp_mem (s : State) (w : Warp) : (s.putWarp w).mem = s.mem := rfl
@[simp] theorem State.putWarp_tabs (s : State) (w : Warp) : (s.putWarp w).tabs = s.tabs := rfl
@[simp] theorem State.putWarp_sch (s : State) (w : Warp) : (s.putWarp w).sch = s.sch := rfl
@[simp] theorem State.putWarp_bins (s : State) (w : Warp) : (s.putWarp w).bins = s.bins := rfl
@[simp] theorem State.putWarp_pmodes (s : State) (w : Warp) : (s.putWarp w).pmodes = s.pmodes := rfl
@[simp] theorem State.putWarp_host (s : State) (w : Warp) : (s.putWarp w).host = s.host := rfl
@[simp] theorem State.putWarp_link (s : State) (w : Warp) : (s.putWarp w).link = s.link := rfl
@[simp] theorem State.putWarp_trace (s : State) (w : Warp) : (s.putWarp w).trace = s.trace := rfl
@[simp] theorem State.putWarp_boot (s : State) (w : Warp) : (s.putWarp w).boot = s.boot := rfl

@[simp] theorem State.putWarp_slots (s : State) (w : Warp) : (s.putWarp w).slots = s.slots := rfl

@[simp] theorem State.modWarpU_agenda (s : State) (u : Nat) (f : Warp → Warp) : (s.modWarpU u f).agenda = s.agenda := rfl
@[simp] theorem State.modWarpU_tempo (s : State) (u : Nat) (f : Warp → Warp) : (s.modWarpU u f).tempo = s.tempo := rfl
@[simp] theorem State.modWarpU_fresh (s : State) (u : Nat) (f : Warp → Warp) : (s.modWarpU u f).fresh = s.fresh := rfl
@[simp] theorem State.modWarpU_uid (s : State) (u : Nat) (f : Warp → Warp) : (s.modWarpU u f).uid = s.uid := rfl
@[simp] theorem State.modWarpU_cur (s : State) (u : Nat) (f : Warp → Warp) : (s.modWarpU u f).cur = s.cur := rfl
@[simp] theorem State.modWarpU_lastCore (s : State) (u : Nat) (f : Warp → Warp) : (s.modWarpU u f).lastCore = s.lastCore := rfl
@[simp] theorem State.modWarpU_gtime (s : State) (u : Nat) (f : Warp → Warp) : (s.modWarpU u f).gtime = s.gtime := rfl
@[simp] theorem State.modWarpU_dies (s : State) (u : Nat) (f : Warp → Warp) : (s.modWarpU u f).dies = s.dies := rfl
@[simp] theorem State.modWarpU_grids (s : State) (u : Nat) (f : Warp → Warp) : (s.modWarpU u f).grids = s.grids := rfl
@[simp] theorem State.modWarpU_cores (s : State) (u : Nat) (f : Warp → Warp) : (s.modWarpU u f).cores = s.cores := rfl
@[simp] theorem State.modWarpU_mem (s : State) (u : Nat) (f : Warp → Warp) : (s.modWarpU u f).mem = s.mem := rfl
@[simp] theorem State.modWarpU_tabs (s : State) (u : Nat) (f : Warp → Warp) : (s.modWarpU u f).tabs = s.tabs := rfl
@[simp] theorem State.modWarpU_sch (s : State) (u : Nat) (f : Warp → Warp) : (s.modWarpU u f).sch = s.sch := rfl
@[simp] theorem State.modWarpU_bins (s : State) (u : Nat) (f : Warp → Warp) : (s.modWarpU u f).bins = s.bins := rfl
@[simp] theorem State.modWarpU_pmodes (s : State) (u : Nat) (f : Warp → Warp) : (s.modWarpU u f).pmodes = s.pmodes := rfl
@[simp] theorem State.modWarpU_host (s : State) (u : Nat) (f : Warp → Warp) : (s.modWarpU u f).host = s.host := rfl
@[simp] theorem State.modWarpU_link (s : State) (u : Nat) (f : Warp → Warp) : (s.modWarpU u f).link = s.link := rfl
@[simp] theorem State.modWarpU_trace (s : State) (u : Nat) (f : Warp → Warp) : (s.modWarpU u f).trace = s.trace := rfl
@[simp] theorem State.modWarpU_boot (s : State) (u : Nat) (f : Warp → Warp) : (s.modWarpU u f).boot = s.boot := rfl

@[simp] theorem State.modWarpU_slots (s : State) (u : Nat) (f : Warp → Warp) : (s.modWarpU u f).slots = s.slots := rfl

@[simp] theorem State.modGrid_agenda (s : State) (u : Nat) (f : Grid → Grid) : (s.modGrid u f).agenda = s.agenda := rfl
@[simp] theorem State.modGrid_tempo (s : State) (u : Nat) (f : Grid → Grid) : (s.modGrid u f).tempo = s.tempo := rfl
@[simp] theorem State.modGrid_fresh (s : State) (u : Nat) (f : Grid → Grid) : (s.modGrid u f).fresh = s.fresh := rfl
@[simp] theorem State.modGrid_uid (s : State) (u : Nat) (f : Grid → Grid) : (s.modGrid u f).uid = s.uid := rfl
@[simp] theorem State.modGrid_cur (s : State) (u : Nat) (f : Grid → Grid) : (s.modGrid u f).cur = s.cur := rfl
@[simp] theorem State.modGrid_lastCore (s : State) (u : Nat) (f : Grid → Grid) : (s.modGrid u f).lastCore = s.lastCore := rfl
@[simp] theorem State.modGrid_gtime (s : State) (u : Nat) (f : Grid → Grid) : (s.modGrid u f).gtime = s.gtime := rfl
@[simp] theorem State.modGrid_dies (s : State) (u : Nat) (f : Grid → Grid) : (s.modGrid u f).dies = s.dies := rfl
@[simp] theorem State.modGrid_warps (s : State) (u : Nat) (f : Grid → Grid) : (s.modGrid u f).warps = s.warps := rfl
@[simp] theorem State.modGrid_teams (s : State) (u : Nat) (f : Grid → Grid) : (s.modGrid u f).teams = s.teams := rfl
@[simp] theorem State.modGrid_cores (s : State) (u : Nat) (f : Grid → Grid) : (s.modGrid u f).cores = s.cores := rfl
@[simp] theorem State.modGrid_mem (s : State) (u : Nat) (f : Grid → Grid) : (s.modGrid u f).mem = s.mem := rfl
@[simp] theorem State.modGrid_tabs (s : State) (u : Nat) (f : Grid → Grid) : (s.modGrid u f).tabs = s.tabs := rfl
@[simp] theorem State.modGrid_sch (s : State) (u : Nat) (f : Grid → Grid) : (s.modGrid u f).sch = s.sch := rfl
@[simp] theorem State.modGrid_bins (s : State) (u : Nat) (f : Grid → Grid) : (s.modGrid u f).bins = s.bins := rfl
@[simp] theorem State.modGrid_pmodes (s : State) (u : Nat) (f : Grid → Grid) : (s.modGrid u f).pmodes = s.pmodes := rfl
@[simp] theorem State.modGrid_host (s : State) (u : Nat) (f : Grid → Grid) : (s.modGrid u f).host = s.host := rfl
@[simp] theorem State.modGrid_link (s : State) (u : Nat) (f : Grid → Grid) : (s.modGrid u f).link = s.link := rfl
@[simp] theorem State.modGrid_trace (s : State) (u : Nat) (f : Grid → Grid) : (s.modGrid u f).trace = s.trace := rfl
@[simp] theorem State.modGrid_boot (s : State) (u : Nat) (f : Grid → Grid) : (s.modGrid u f).boot = s.boot := rfl

@[simp] theorem State.modGrid_slots (s : State) (u : Nat) (f : Grid → Grid) : (s.modGrid u f).slots = s.slots := rfl

@[simp] theorem State.modTeam_agenda (s : State) (u : Nat) (f : Team → Team) : (s.modTeam u f).agenda = s.agenda := rfl
@[simp] theorem State.modTeam_tempo (s : State) (u : Nat) (f : Team → Team) : (s.modTeam u f).tempo = s.tempo := rfl
@[simp] theorem State.modTeam_fresh (s : State) (u : Nat) (f : Team → Team) : (s.modTeam u f).fresh = s.fresh := rfl
@[simp] theorem State.modTeam_uid (s : State) (u : Nat) (f : Team → Team) : (s.modTeam u f).uid = s.uid := rfl
@[simp] theorem State.modTeam_cur (s : State) (u : Nat) (f : Team → Team) : (s.modTeam u f).cur = s.cur := rfl
@[simp] theorem State.modTeam_lastCore (s : State) (u : Nat) (f : Team → Team) : (s.modTeam u f).lastCore = s.lastCore := rfl
@[simp] theorem State.modTeam_gtime (s : State) (u : Nat) (f : Team → Team) : (s.modTeam u f).gtime = s.gtime := rfl
@[simp] theorem State.modTeam_dies (s : State) (u : Nat) (f : Team → Team) : (s.modTeam u f).dies = s.dies := rfl
@[simp] theorem State.modTeam_warps (s : State) (u : Nat) (f : Team → Team) : (s.modTeam u f).warps = s.warps := rfl
@[simp] theorem State.modTeam_grids (s : State) (u : Nat) (f : Team → Team) : (s.modTeam u f).grids = s.grids := rfl
@[simp] theorem State.modTeam_cores (s : State) (u : Nat) (f : Team → Team) : (s.modTeam u f).cores = s.cores := rfl
@[simp] theorem State.modTeam_mem (s : State) (u : Nat) (f : Team → Team) : (s.modTeam u f).mem = s.mem := rfl
@[simp] theorem State.modTeam_tabs (s : State) (u : Nat) (f : Team → Team) : (s.modTeam u f).tabs = s.tabs := rfl
@[simp] theorem State.modTeam_sch (s : State) (u : Nat) (f : Team → Team) : (s.modTeam u f).sch = s.sch := rfl
@[simp] theorem State.modTeam_bins (s : State) (u : Nat) (f : Team → Team) : (s.modTeam u f).bins = s.bins := rfl
@[simp] theorem State.modTeam_pmodes (s : State) (u : Nat) (f : Team → Team) : (s.modTeam u f).pmodes = s.pmodes := rfl
@[simp] theorem State.modTeam_host (s : State) (u : Nat) (f : Team → Team) : (s.modTeam u f).host = s.host := rfl
@[simp] theorem State.modTeam_link (s : State) (u : Nat) (f : Team → Team) : (s.modTeam u f).link = s.link := rfl
@[simp] theorem State.modTeam_trace (s : State) (u : Nat) (f : Team → Team) : (s.modTeam u f).trace = s.trace := rfl
@[simp] theorem State.modTeam_boot (s : State) (u : Nat) (f : Team → Team) : (s.modTeam u f).boot = s.boot := rfl

@[simp] theorem State.modTeam_slots (s : State) (u : Nat) (f : Team → Team) : (s.modTeam u f).slots = s.slots := rfl

@[simp] theorem State.modCore_agenda (s : State) (c : Nat) (f : Core → Core) : (s.modCore c f).agenda = s.agenda := rfl
@[simp] theorem State.modCore_tempo (s : State) (c : Nat) (f : Core → Core) : (s.modCore c f).tempo = s.tempo := rfl
@[simp] theorem State.modCore_fresh (s : State) (c : Nat) (f : Core → Core) : (s.modCore c f).fresh = s.fresh := rfl
@[simp] theorem State.modCore_uid (s : State) (c : Nat) (f : Core → Core) : (s.modCore c f).uid = s.uid := rfl
@[simp] theorem State.modCore_cur (s : State) (c : Nat) (f : Core → Core) : (s.modCore c f).cur = s.cur := rfl
@[simp] theorem State.modCore_lastCore (s : State) (c : Nat) (f : Core → Core) : (s.modCore c f).lastCore = s.lastCore := rfl
@[simp] theorem State.modCore_gtime (s : State) (c : Nat) (f : Core → Core) : (s.modCore c f).gtime = s.gtime := rfl
@[simp] theorem State.modCore_dies (s : State) (c : Nat) (f : Core → Core) : (s.modCore c f).dies = s.dies := rfl
@[simp] theorem State.modCore_warps (s : State) (c : Nat) (f : Core → Core) : (s.modCore c f).warps = s.warps := rfl
@[simp] theorem State.modCore_teams (s : State) (c : Nat) (f : Core → Core) : (s.modCore c f).teams = s.teams := rfl
@[simp] theorem State.modCore_grids (s : State) (c : Nat) (f : Core → Core) : (s.modCore c f).grids = s.grids := rfl
@[simp] theorem State.modCore_mem (s : State) (c : Nat) (f : Core → Core) : (s.modCore c f).mem = s.mem := rfl
@[simp] theorem State.modCore_tabs (s : State) (c : Nat) (f : Core → Core) : (s.modCore c f).tabs = s.tabs := rfl
@[simp] theorem State.modCore_sch (s : State) (c : Nat) (f : Core → Core) : (s.modCore c f).sch = s.sch := rfl
@[simp] theorem State.modCore_bins (s : State) (c : Nat) (f : Core → Core) : (s.modCore c f).bins = s.bins := rfl
@[simp] theorem State.modCore_pmodes (s : State) (c : Nat) (f : Core → Core) : (s.modCore c f).pmodes = s.pmodes := rfl
@[simp] theorem State.modCore_host (s : State) (c : Nat) (f : Core → Core) : (s.modCore c f).host = s.host := rfl
@[simp] theorem State.modCore_link (s : State) (c : Nat) (f : Core → Core) : (s.modCore c f).link = s.link := rfl
@[simp] theorem State.modCore_trace (s : State) (c : Nat) (f : Core → Core) : (s.modCore c f).trace = s.trace := rfl
@[simp] theorem State.modCore_boot (s : State) (c : Nat) (f : Core → Core) : (s.modCore c f).boot = s.boot := rfl

@[simp] theorem State.modCore_slots (s : State) (c : Nat) (f : Core → Core) : (s.modCore c f).slots = s.slots := rfl

@[simp] theorem State.modMem_agenda (s : State) (f : MemSys → MemSys) : (s.modMem f).agenda = s.agenda := rfl
@[simp] theorem State.modMem_tempo (s : State) (f : MemSys → MemSys) : (s.modMem f).tempo = s.tempo := rfl
@[simp] theorem State.modMem_fresh (s : State) (f : MemSys → MemSys) : (s.modMem f).fresh = s.fresh := rfl
@[simp] theorem State.modMem_uid (s : State) (f : MemSys → MemSys) : (s.modMem f).uid = s.uid := rfl
@[simp] theorem State.modMem_cur (s : State) (f : MemSys → MemSys) : (s.modMem f).cur = s.cur := rfl
@[simp] theorem State.modMem_lastCore (s : State) (f : MemSys → MemSys) : (s.modMem f).lastCore = s.lastCore := rfl
@[simp] theorem State.modMem_gtime (s : State) (f : MemSys → MemSys) : (s.modMem f).gtime = s.gtime := rfl
@[simp] theorem State.modMem_dies (s : State) (f : MemSys → MemSys) : (s.modMem f).dies = s.dies := rfl
@[simp] theorem State.modMem_warps (s : State) (f : MemSys → MemSys) : (s.modMem f).warps = s.warps := rfl
@[simp] theorem State.modMem_teams (s : State) (f : MemSys → MemSys) : (s.modMem f).teams = s.teams := rfl
@[simp] theorem State.modMem_grids (s : State) (f : MemSys → MemSys) : (s.modMem f).grids = s.grids := rfl
@[simp] theorem State.modMem_cores (s : State) (f : MemSys → MemSys) : (s.modMem f).cores = s.cores := rfl
@[simp] theorem State.modMem_tabs (s : State) (f : MemSys → MemSys) : (s.modMem f).tabs = s.tabs := rfl
@[simp] theorem State.modMem_sch (s : State) (f : MemSys → MemSys) : (s.modMem f).sch = s.sch := rfl
@[simp] theorem State.modMem_bins (s : State) (f : MemSys → MemSys) : (s.modMem f).bins = s.bins := rfl
@[simp] theorem State.modMem_pmodes (s : State) (f : MemSys → MemSys) : (s.modMem f).pmodes = s.pmodes := rfl
@[simp] theorem State.modMem_host (s : State) (f : MemSys → MemSys) : (s.modMem f).host = s.host := rfl
@[simp] theorem State.modMem_link (s : State) (f : MemSys → MemSys) : (s.modMem f).link = s.link := rfl
@[simp] theorem State.modMem_trace (s : State) (f : MemSys → MemSys) : (s.modMem f).trace = s.trace := rfl
@[simp] theorem State.modMem_boot (s : State) (f : MemSys → MemSys) : (s.modMem f).boot = s.boot := rfl

@[simp] theorem State.modMem_slots (s : State) (f : MemSys → MemSys) : (s.modMem f).slots = s.slots := rfl

@[simp] theorem State.modCtx_agenda (s : State) (c : Nat) (f : Ctx → Ctx) : (s.modCtx c f).agenda = s.agenda := rfl
@[simp] theorem State.modCtx_tempo (s : State) (c : Nat) (f : Ctx → Ctx) : (s.modCtx c f).tempo = s.tempo := rfl
@[simp] theorem State.modCtx_fresh (s : State) (c : Nat) (f : Ctx → Ctx) : (s.modCtx c f).fresh = s.fresh := rfl
@[simp] theorem State.modCtx_uid (s : State) (c : Nat) (f : Ctx → Ctx) : (s.modCtx c f).uid = s.uid := rfl
@[simp] theorem State.modCtx_cur (s : State) (c : Nat) (f : Ctx → Ctx) : (s.modCtx c f).cur = s.cur := rfl
@[simp] theorem State.modCtx_lastCore (s : State) (c : Nat) (f : Ctx → Ctx) : (s.modCtx c f).lastCore = s.lastCore := rfl
@[simp] theorem State.modCtx_gtime (s : State) (c : Nat) (f : Ctx → Ctx) : (s.modCtx c f).gtime = s.gtime := rfl
@[simp] theorem State.modCtx_dies (s : State) (c : Nat) (f : Ctx → Ctx) : (s.modCtx c f).dies = s.dies := rfl
@[simp] theorem State.modCtx_warps (s : State) (c : Nat) (f : Ctx → Ctx) : (s.modCtx c f).warps = s.warps := rfl
@[simp] theorem State.modCtx_teams (s : State) (c : Nat) (f : Ctx → Ctx) : (s.modCtx c f).teams = s.teams := rfl
@[simp] theorem State.modCtx_grids (s : State) (c : Nat) (f : Ctx → Ctx) : (s.modCtx c f).grids = s.grids := rfl
@[simp] theorem State.modCtx_cores (s : State) (c : Nat) (f : Ctx → Ctx) : (s.modCtx c f).cores = s.cores := rfl
@[simp] theorem State.modCtx_mem (s : State) (c : Nat) (f : Ctx → Ctx) : (s.modCtx c f).mem = s.mem := rfl
@[simp] theorem State.modCtx_tabs (s : State) (c : Nat) (f : Ctx → Ctx) : (s.modCtx c f).tabs = s.tabs := rfl
@[simp] theorem State.modCtx_bins (s : State) (c : Nat) (f : Ctx → Ctx) : (s.modCtx c f).bins = s.bins := rfl
@[simp] theorem State.modCtx_pmodes (s : State) (c : Nat) (f : Ctx → Ctx) : (s.modCtx c f).pmodes = s.pmodes := rfl
@[simp] theorem State.modCtx_host (s : State) (c : Nat) (f : Ctx → Ctx) : (s.modCtx c f).host = s.host := rfl
@[simp] theorem State.modCtx_link (s : State) (c : Nat) (f : Ctx → Ctx) : (s.modCtx c f).link = s.link := rfl
@[simp] theorem State.modCtx_trace (s : State) (c : Nat) (f : Ctx → Ctx) : (s.modCtx c f).trace = s.trace := rfl
@[simp] theorem State.modCtx_boot (s : State) (c : Nat) (f : Ctx → Ctx) : (s.modCtx c f).boot = s.boot := rfl

@[simp] theorem State.modCtx_slots (s : State) (c : Nat) (f : Ctx → Ctx) : (s.modCtx c f).slots = s.slots := rfl

@[simp] theorem State.send_agenda (s : State) (m : Msg) : (s.send m).agenda = s.agenda := rfl
@[simp] theorem State.send_tempo (s : State) (m : Msg) : (s.send m).tempo = s.tempo := rfl
@[simp] theorem State.send_fresh (s : State) (m : Msg) : (s.send m).fresh = s.fresh := rfl
@[simp] theorem State.send_uid (s : State) (m : Msg) : (s.send m).uid = s.uid := rfl
@[simp] theorem State.send_cur (s : State) (m : Msg) : (s.send m).cur = s.cur := rfl
@[simp] theorem State.send_lastCore (s : State) (m : Msg) : (s.send m).lastCore = s.lastCore := rfl
@[simp] theorem State.send_gtime (s : State) (m : Msg) : (s.send m).gtime = s.gtime := rfl
@[simp] theorem State.send_dies (s : State) (m : Msg) : (s.send m).dies = s.dies := rfl
@[simp] theorem State.send_warps (s : State) (m : Msg) : (s.send m).warps = s.warps := rfl
@[simp] theorem State.send_teams (s : State) (m : Msg) : (s.send m).teams = s.teams := rfl
@[simp] theorem State.send_grids (s : State) (m : Msg) : (s.send m).grids = s.grids := rfl
@[simp] theorem State.send_cores (s : State) (m : Msg) : (s.send m).cores = s.cores := rfl
@[simp] theorem State.send_mem (s : State) (m : Msg) : (s.send m).mem = s.mem := rfl
@[simp] theorem State.send_tabs (s : State) (m : Msg) : (s.send m).tabs = s.tabs := rfl
@[simp] theorem State.send_sch (s : State) (m : Msg) : (s.send m).sch = s.sch := rfl
@[simp] theorem State.send_bins (s : State) (m : Msg) : (s.send m).bins = s.bins := rfl
@[simp] theorem State.send_pmodes (s : State) (m : Msg) : (s.send m).pmodes = s.pmodes := rfl
@[simp] theorem State.send_link (s : State) (m : Msg) : (s.send m).link = s.link := rfl
@[simp] theorem State.send_trace (s : State) (m : Msg) : (s.send m).trace = s.trace := rfl
@[simp] theorem State.send_boot (s : State) (m : Msg) : (s.send m).boot = s.boot := rfl

@[simp] theorem State.send_slots (s : State) (m : Msg) : (s.send m).slots = s.slots := rfl

@[simp] theorem State.count_agenda (s : State) (c n k : Nat) : (s.count c n k).agenda = s.agenda := rfl
@[simp] theorem State.count_tempo (s : State) (c n k : Nat) : (s.count c n k).tempo = s.tempo := rfl
@[simp] theorem State.count_fresh (s : State) (c n k : Nat) : (s.count c n k).fresh = s.fresh := rfl
@[simp] theorem State.count_uid (s : State) (c n k : Nat) : (s.count c n k).uid = s.uid := rfl
@[simp] theorem State.count_cur (s : State) (c n k : Nat) : (s.count c n k).cur = s.cur := rfl
@[simp] theorem State.count_lastCore (s : State) (c n k : Nat) : (s.count c n k).lastCore = s.lastCore := rfl
@[simp] theorem State.count_gtime (s : State) (c n k : Nat) : (s.count c n k).gtime = s.gtime := rfl
@[simp] theorem State.count_dies (s : State) (c n k : Nat) : (s.count c n k).dies = s.dies := rfl
@[simp] theorem State.count_warps (s : State) (c n k : Nat) : (s.count c n k).warps = s.warps := rfl
@[simp] theorem State.count_teams (s : State) (c n k : Nat) : (s.count c n k).teams = s.teams := rfl
@[simp] theorem State.count_grids (s : State) (c n k : Nat) : (s.count c n k).grids = s.grids := rfl
@[simp] theorem State.count_mem (s : State) (c n k : Nat) : (s.count c n k).mem = s.mem := rfl
@[simp] theorem State.count_tabs (s : State) (c n k : Nat) : (s.count c n k).tabs = s.tabs := rfl
@[simp] theorem State.count_sch (s : State) (c n k : Nat) : (s.count c n k).sch = s.sch := rfl
@[simp] theorem State.count_bins (s : State) (c n k : Nat) : (s.count c n k).bins = s.bins := rfl
@[simp] theorem State.count_pmodes (s : State) (c n k : Nat) : (s.count c n k).pmodes = s.pmodes := rfl
@[simp] theorem State.count_host (s : State) (c n k : Nat) : (s.count c n k).host = s.host := rfl
@[simp] theorem State.count_link (s : State) (c n k : Nat) : (s.count c n k).link = s.link := rfl
@[simp] theorem State.count_trace (s : State) (c n k : Nat) : (s.count c n k).trace = s.trace := rfl
@[simp] theorem State.count_boot (s : State) (c n k : Nat) : (s.count c n k).boot = s.boot := rfl

@[simp] theorem State.count_slots (s : State) (c n k : Nat) : (s.count c n k).slots = s.slots := rfl

@[simp] theorem State.block_agenda (s : State) (c k : Nat) : (s.block c k).agenda = s.agenda := rfl
@[simp] theorem State.block_tempo (s : State) (c k : Nat) : (s.block c k).tempo = s.tempo := rfl
@[simp] theorem State.block_fresh (s : State) (c k : Nat) : (s.block c k).fresh = s.fresh := rfl
@[simp] theorem State.block_uid (s : State) (c k : Nat) : (s.block c k).uid = s.uid := rfl
@[simp] theorem State.block_lastCore (s : State) (c k : Nat) : (s.block c k).lastCore = s.lastCore := rfl
@[simp] theorem State.block_gtime (s : State) (c k : Nat) : (s.block c k).gtime = s.gtime := rfl
@[simp] theorem State.block_dies (s : State) (c k : Nat) : (s.block c k).dies = s.dies := rfl
@[simp] theorem State.block_teams (s : State) (c k : Nat) : (s.block c k).teams = s.teams := rfl
@[simp] theorem State.block_grids (s : State) (c k : Nat) : (s.block c k).grids = s.grids := rfl
@[simp] theorem State.block_cores (s : State) (c k : Nat) : (s.block c k).cores = s.cores := rfl
@[simp] theorem State.block_mem (s : State) (c k : Nat) : (s.block c k).mem = s.mem := rfl
@[simp] theorem State.block_tabs (s : State) (c k : Nat) : (s.block c k).tabs = s.tabs := rfl
@[simp] theorem State.block_sch (s : State) (c k : Nat) : (s.block c k).sch = s.sch := rfl
@[simp] theorem State.block_bins (s : State) (c k : Nat) : (s.block c k).bins = s.bins := rfl
@[simp] theorem State.block_pmodes (s : State) (c k : Nat) : (s.block c k).pmodes = s.pmodes := rfl
@[simp] theorem State.block_host (s : State) (c k : Nat) : (s.block c k).host = s.host := rfl
@[simp] theorem State.block_link (s : State) (c k : Nat) : (s.block c k).link = s.link := rfl
@[simp] theorem State.block_trace (s : State) (c k : Nat) : (s.block c k).trace = s.trace := rfl
@[simp] theorem State.block_boot (s : State) (c k : Nat) : (s.block c k).boot = s.boot := rfl

@[simp] theorem State.block_slots (s : State) (c k : Nat) : (s.block c k).slots = s.slots := rfl

@[simp] theorem State.wake_agenda (s : State) : (s.wake).agenda = s.agenda := rfl
@[simp] theorem State.wake_tempo (s : State) : (s.wake).tempo = s.tempo := rfl
@[simp] theorem State.wake_fresh (s : State) : (s.wake).fresh = s.fresh := rfl
@[simp] theorem State.wake_uid (s : State) : (s.wake).uid = s.uid := rfl
@[simp] theorem State.wake_cur (s : State) : (s.wake).cur = s.cur := rfl
@[simp] theorem State.wake_lastCore (s : State) : (s.wake).lastCore = s.lastCore := rfl
@[simp] theorem State.wake_gtime (s : State) : (s.wake).gtime = s.gtime := rfl
@[simp] theorem State.wake_dies (s : State) : (s.wake).dies = s.dies := rfl
@[simp] theorem State.wake_teams (s : State) : (s.wake).teams = s.teams := rfl
@[simp] theorem State.wake_grids (s : State) : (s.wake).grids = s.grids := rfl
@[simp] theorem State.wake_cores (s : State) : (s.wake).cores = s.cores := rfl
@[simp] theorem State.wake_mem (s : State) : (s.wake).mem = s.mem := rfl
@[simp] theorem State.wake_tabs (s : State) : (s.wake).tabs = s.tabs := rfl
@[simp] theorem State.wake_sch (s : State) : (s.wake).sch = s.sch := rfl
@[simp] theorem State.wake_bins (s : State) : (s.wake).bins = s.bins := rfl
@[simp] theorem State.wake_pmodes (s : State) : (s.wake).pmodes = s.pmodes := rfl
@[simp] theorem State.wake_host (s : State) : (s.wake).host = s.host := rfl
@[simp] theorem State.wake_link (s : State) : (s.wake).link = s.link := rfl
@[simp] theorem State.wake_trace (s : State) : (s.wake).trace = s.trace := rfl
@[simp] theorem State.wake_boot (s : State) : (s.wake).boot = s.boot := rfl

@[simp] theorem State.wake_slots (s : State) : (s.wake).slots = s.slots := rfl

@[simp] theorem State.unpin_agenda (s : State) (v p : Nat) : (s.unpin v p).agenda = s.agenda := rfl
@[simp] theorem State.unpin_tempo (s : State) (v p : Nat) : (s.unpin v p).tempo = s.tempo := rfl
@[simp] theorem State.unpin_fresh (s : State) (v p : Nat) : (s.unpin v p).fresh = s.fresh := rfl
@[simp] theorem State.unpin_uid (s : State) (v p : Nat) : (s.unpin v p).uid = s.uid := rfl
@[simp] theorem State.unpin_cur (s : State) (v p : Nat) : (s.unpin v p).cur = s.cur := rfl
@[simp] theorem State.unpin_lastCore (s : State) (v p : Nat) : (s.unpin v p).lastCore = s.lastCore := rfl
@[simp] theorem State.unpin_gtime (s : State) (v p : Nat) : (s.unpin v p).gtime = s.gtime := rfl
@[simp] theorem State.unpin_dies (s : State) (v p : Nat) : (s.unpin v p).dies = s.dies := rfl
@[simp] theorem State.unpin_warps (s : State) (v p : Nat) : (s.unpin v p).warps = s.warps := rfl
@[simp] theorem State.unpin_teams (s : State) (v p : Nat) : (s.unpin v p).teams = s.teams := rfl
@[simp] theorem State.unpin_grids (s : State) (v p : Nat) : (s.unpin v p).grids = s.grids := rfl
@[simp] theorem State.unpin_cores (s : State) (v p : Nat) : (s.unpin v p).cores = s.cores := rfl
@[simp] theorem State.unpin_mem (s : State) (v p : Nat) : (s.unpin v p).mem = s.mem := rfl
@[simp] theorem State.unpin_sch (s : State) (v p : Nat) : (s.unpin v p).sch = s.sch := rfl
@[simp] theorem State.unpin_bins (s : State) (v p : Nat) : (s.unpin v p).bins = s.bins := rfl
@[simp] theorem State.unpin_pmodes (s : State) (v p : Nat) : (s.unpin v p).pmodes = s.pmodes := rfl
@[simp] theorem State.unpin_host (s : State) (v p : Nat) : (s.unpin v p).host = s.host := rfl
@[simp] theorem State.unpin_link (s : State) (v p : Nat) : (s.unpin v p).link = s.link := rfl
@[simp] theorem State.unpin_trace (s : State) (v p : Nat) : (s.unpin v p).trace = s.trace := rfl
@[simp] theorem State.unpin_boot (s : State) (v p : Nat) : (s.unpin v p).boot = s.boot := rfl

@[simp] theorem State.unpin_slots (s : State) (v p : Nat) : (s.unpin v p).slots = s.slots := rfl

@[simp] theorem State.addPin_agenda (s : State) (v p : Nat) (g : Option Nat) : (s.addPin v p g).agenda = s.agenda := rfl
@[simp] theorem State.addPin_tempo (s : State) (v p : Nat) (g : Option Nat) : (s.addPin v p g).tempo = s.tempo := rfl
@[simp] theorem State.addPin_fresh (s : State) (v p : Nat) (g : Option Nat) : (s.addPin v p g).fresh = s.fresh := rfl
@[simp] theorem State.addPin_uid (s : State) (v p : Nat) (g : Option Nat) : (s.addPin v p g).uid = s.uid := rfl
@[simp] theorem State.addPin_cur (s : State) (v p : Nat) (g : Option Nat) : (s.addPin v p g).cur = s.cur := rfl
@[simp] theorem State.addPin_lastCore (s : State) (v p : Nat) (g : Option Nat) : (s.addPin v p g).lastCore = s.lastCore := rfl
@[simp] theorem State.addPin_gtime (s : State) (v p : Nat) (g : Option Nat) : (s.addPin v p g).gtime = s.gtime := rfl
@[simp] theorem State.addPin_dies (s : State) (v p : Nat) (g : Option Nat) : (s.addPin v p g).dies = s.dies := rfl
@[simp] theorem State.addPin_warps (s : State) (v p : Nat) (g : Option Nat) : (s.addPin v p g).warps = s.warps := rfl
@[simp] theorem State.addPin_teams (s : State) (v p : Nat) (g : Option Nat) : (s.addPin v p g).teams = s.teams := rfl
@[simp] theorem State.addPin_grids (s : State) (v p : Nat) (g : Option Nat) : (s.addPin v p g).grids = s.grids := rfl
@[simp] theorem State.addPin_cores (s : State) (v p : Nat) (g : Option Nat) : (s.addPin v p g).cores = s.cores := rfl
@[simp] theorem State.addPin_mem (s : State) (v p : Nat) (g : Option Nat) : (s.addPin v p g).mem = s.mem := rfl
@[simp] theorem State.addPin_sch (s : State) (v p : Nat) (g : Option Nat) : (s.addPin v p g).sch = s.sch := rfl
@[simp] theorem State.addPin_bins (s : State) (v p : Nat) (g : Option Nat) : (s.addPin v p g).bins = s.bins := rfl
@[simp] theorem State.addPin_pmodes (s : State) (v p : Nat) (g : Option Nat) : (s.addPin v p g).pmodes = s.pmodes := rfl
@[simp] theorem State.addPin_host (s : State) (v p : Nat) (g : Option Nat) : (s.addPin v p g).host = s.host := rfl
@[simp] theorem State.addPin_link (s : State) (v p : Nat) (g : Option Nat) : (s.addPin v p g).link = s.link := rfl
@[simp] theorem State.addPin_trace (s : State) (v p : Nat) (g : Option Nat) : (s.addPin v p g).trace = s.trace := rfl
@[simp] theorem State.addPin_boot (s : State) (v p : Nat) (g : Option Nat) : (s.addPin v p g).boot = s.boot := rfl

@[simp] theorem State.addPin_slots (s : State) (v p : Nat) (g : Option Nat) : (s.addPin v p g).slots = s.slots := rfl

@[simp] theorem State.releaseBar_agenda (s : State) (t : Nat) (l : List Nat) : (s.releaseBar t l).agenda = s.agenda := rfl
@[simp] theorem State.releaseBar_tempo (s : State) (t : Nat) (l : List Nat) : (s.releaseBar t l).tempo = s.tempo := rfl
@[simp] theorem State.releaseBar_fresh (s : State) (t : Nat) (l : List Nat) : (s.releaseBar t l).fresh = s.fresh := rfl
@[simp] theorem State.releaseBar_uid (s : State) (t : Nat) (l : List Nat) : (s.releaseBar t l).uid = s.uid := rfl
@[simp] theorem State.releaseBar_cur (s : State) (t : Nat) (l : List Nat) : (s.releaseBar t l).cur = s.cur := rfl
@[simp] theorem State.releaseBar_lastCore (s : State) (t : Nat) (l : List Nat) : (s.releaseBar t l).lastCore = s.lastCore := rfl
@[simp] theorem State.releaseBar_gtime (s : State) (t : Nat) (l : List Nat) : (s.releaseBar t l).gtime = s.gtime := rfl
@[simp] theorem State.releaseBar_dies (s : State) (t : Nat) (l : List Nat) : (s.releaseBar t l).dies = s.dies := rfl
@[simp] theorem State.releaseBar_teams (s : State) (t : Nat) (l : List Nat) : (s.releaseBar t l).teams = s.teams := rfl
@[simp] theorem State.releaseBar_grids (s : State) (t : Nat) (l : List Nat) : (s.releaseBar t l).grids = s.grids := rfl
@[simp] theorem State.releaseBar_cores (s : State) (t : Nat) (l : List Nat) : (s.releaseBar t l).cores = s.cores := rfl
@[simp] theorem State.releaseBar_mem (s : State) (t : Nat) (l : List Nat) : (s.releaseBar t l).mem = s.mem := rfl
@[simp] theorem State.releaseBar_tabs (s : State) (t : Nat) (l : List Nat) : (s.releaseBar t l).tabs = s.tabs := rfl
@[simp] theorem State.releaseBar_sch (s : State) (t : Nat) (l : List Nat) : (s.releaseBar t l).sch = s.sch := rfl
@[simp] theorem State.releaseBar_bins (s : State) (t : Nat) (l : List Nat) : (s.releaseBar t l).bins = s.bins := rfl
@[simp] theorem State.releaseBar_pmodes (s : State) (t : Nat) (l : List Nat) : (s.releaseBar t l).pmodes = s.pmodes := rfl
@[simp] theorem State.releaseBar_host (s : State) (t : Nat) (l : List Nat) : (s.releaseBar t l).host = s.host := rfl
@[simp] theorem State.releaseBar_link (s : State) (t : Nat) (l : List Nat) : (s.releaseBar t l).link = s.link := rfl
@[simp] theorem State.releaseBar_trace (s : State) (t : Nat) (l : List Nat) : (s.releaseBar t l).trace = s.trace := rfl
@[simp] theorem State.releaseBar_boot (s : State) (t : Nat) (l : List Nat) : (s.releaseBar t l).boot = s.boot := rfl

@[simp] theorem State.releaseBar_slots (s : State) (t : Nat) (l : List Nat) : (s.releaseBar t l).slots = s.slots := rfl

@[simp] theorem Warp.modLane_uid (w : Warp) (i : Nat) (f : Lane → Lane) : (w.modLane i f).uid = w.uid := rfl
@[simp] theorem Warp.modLane_core (w : Warp) (i : Nat) (f : Lane → Lane) : (w.modLane i f).core = w.core := rfl
@[simp] theorem Warp.modLane_slot (w : Warp) (i : Nat) (f : Lane → Lane) : (w.modLane i f).slot = w.slot := rfl
@[simp] theorem Warp.modLane_grid (w : Warp) (i : Nat) (f : Lane → Lane) : (w.modLane i f).grid = w.grid := rfl
@[simp] theorem Warp.modLane_team (w : Warp) (i : Nat) (f : Lane → Lane) : (w.modLane i f).team = w.team := rfl
@[simp] theorem Warp.modLane_idx (w : Warp) (i : Nat) (f : Lane → Lane) : (w.modLane i f).idx = w.idx := rfl
@[simp] theorem Warp.modLane_w (w : Warp) (i : Nat) (f : Lane → Lane) : (w.modLane i f).w = w.w := rfl
@[simp] theorem Warp.modLane_s (w : Warp) (i : Nat) (f : Lane → Lane) : (w.modLane i f).s = w.s := rfl
@[simp] theorem Warp.modLane_c (w : Warp) (i : Nat) (f : Lane → Lane) : (w.modLane i f).c = w.c := rfl
@[simp] theorem Warp.modLane_tok (w : Warp) (i : Nat) (f : Lane → Lane) : (w.modLane i f).tok = w.tok := rfl
@[simp] theorem Warp.modLane_e (w : Warp) (i : Nat) (f : Lane → Lane) : (w.modLane i f).e = w.e := rfl
@[simp] theorem Warp.modLane_wst (w : Warp) (i : Nat) (f : Lane → Lane) : (w.modLane i f).wst = w.wst := rfl
@[simp] theorem Warp.modLane_key (w : Warp) (i : Nat) (f : Lane → Lane) : (w.modLane i f).key = w.key := rfl
@[simp] theorem Warp.modLane_cmdseq (w : Warp) (i : Nat) (f : Lane → Lane) : (w.modLane i f).cmdseq = w.cmdseq := rfl
@[simp] theorem Warp.modLane_run (w : Warp) (i : Nat) (f : Lane → Lane) : (w.modLane i f).run = w.run := rfl
@[simp] theorem Warp.modLane_hold (w : Warp) (i : Nat) (f : Lane → Lane) : (w.modLane i f).hold = w.hold := rfl
@[simp] theorem Warp.modLane_flight (w : Warp) (i : Nat) (f : Lane → Lane) : (w.modLane i f).flight = w.flight := rfl
@[simp] theorem Warp.modLane_pend (w : Warp) (i : Nat) (f : Lane → Lane) : (w.modLane i f).pend = w.pend := rfl
@[simp] theorem Warp.modLane_nextEv (w : Warp) (i : Nat) (f : Lane → Lane) : (w.modLane i f).nextEv = w.nextEv := rfl
@[simp] theorem Warp.modLane_sync (w : Warp) (i : Nat) (f : Lane → Lane) : (w.modLane i f).sync = w.sync := rfl
@[simp] theorem Warp.modLane_arr (w : Warp) (i : Nat) (f : Lane → Lane) : (w.modLane i f).arr = w.arr := rfl
@[simp] theorem Warp.modLane_dom (w : Warp) (i : Nat) (f : Lane → Lane) : (w.modLane i f).dom = w.dom := rfl
@[simp] theorem Warp.modLane_efaults (w : Warp) (i : Nat) (f : Lane → Lane) : (w.modLane i f).efaults = w.efaults := rfl
@[simp] theorem Warp.modLane_cmdsDone (w : Warp) (i : Nat) (f : Lane → Lane) : (w.modLane i f).cmdsDone = w.cmdsDone := rfl
@[simp] theorem Warp.modLane_readyAt (w : Warp) (i : Nat) (f : Lane → Lane) : (w.modLane i f).readyAt = w.readyAt := rfl
@[simp] theorem Warp.modLane_streak (w : Warp) (i : Nat) (f : Lane → Lane) : (w.modLane i f).streak = w.streak := rfl
@[simp] theorem Warp.modLane_acqFirst (w : Warp) (i : Nat) (f : Lane → Lane) : (w.modLane i f).acqFirst = w.acqFirst := rfl
@[simp] theorem Warp.modLane_rgnFirst (w : Warp) (i : Nat) (f : Lane → Lane) : (w.modLane i f).rgnFirst = w.rgnFirst := rfl
@[simp] theorem Warp.modLane_dbg (w : Warp) (i : Nat) (f : Lane → Lane) : (w.modLane i f).dbg = w.dbg := rfl
@[simp] theorem Warp.modLane_dbgReq (w : Warp) (i : Nat) (f : Lane → Lane) : (w.modLane i f).dbgReq = w.dbgReq := rfl
@[simp] theorem Warp.modLane_nextClk (w : Warp) (i : Nat) (f : Lane → Lane) : (w.modLane i f).nextClk = w.nextClk := rfl
@[simp] theorem Warp.modLane_walked (w : Warp) (i : Nat) (f : Lane → Lane) : (w.modLane i f).walked = w.walked := rfl

@[simp] theorem Warp.modLanes_uid (w : Warp) (l : List Nat) (f : Lane → Lane) : (w.modLanes l f).uid = w.uid := rfl
@[simp] theorem Warp.modLanes_core (w : Warp) (l : List Nat) (f : Lane → Lane) : (w.modLanes l f).core = w.core := rfl
@[simp] theorem Warp.modLanes_slot (w : Warp) (l : List Nat) (f : Lane → Lane) : (w.modLanes l f).slot = w.slot := rfl
@[simp] theorem Warp.modLanes_grid (w : Warp) (l : List Nat) (f : Lane → Lane) : (w.modLanes l f).grid = w.grid := rfl
@[simp] theorem Warp.modLanes_team (w : Warp) (l : List Nat) (f : Lane → Lane) : (w.modLanes l f).team = w.team := rfl
@[simp] theorem Warp.modLanes_idx (w : Warp) (l : List Nat) (f : Lane → Lane) : (w.modLanes l f).idx = w.idx := rfl
@[simp] theorem Warp.modLanes_w (w : Warp) (l : List Nat) (f : Lane → Lane) : (w.modLanes l f).w = w.w := rfl
@[simp] theorem Warp.modLanes_s (w : Warp) (l : List Nat) (f : Lane → Lane) : (w.modLanes l f).s = w.s := rfl
@[simp] theorem Warp.modLanes_c (w : Warp) (l : List Nat) (f : Lane → Lane) : (w.modLanes l f).c = w.c := rfl
@[simp] theorem Warp.modLanes_tok (w : Warp) (l : List Nat) (f : Lane → Lane) : (w.modLanes l f).tok = w.tok := rfl
@[simp] theorem Warp.modLanes_e (w : Warp) (l : List Nat) (f : Lane → Lane) : (w.modLanes l f).e = w.e := rfl
@[simp] theorem Warp.modLanes_wst (w : Warp) (l : List Nat) (f : Lane → Lane) : (w.modLanes l f).wst = w.wst := rfl
@[simp] theorem Warp.modLanes_key (w : Warp) (l : List Nat) (f : Lane → Lane) : (w.modLanes l f).key = w.key := rfl
@[simp] theorem Warp.modLanes_cmdseq (w : Warp) (l : List Nat) (f : Lane → Lane) : (w.modLanes l f).cmdseq = w.cmdseq := rfl
@[simp] theorem Warp.modLanes_run (w : Warp) (l : List Nat) (f : Lane → Lane) : (w.modLanes l f).run = w.run := rfl
@[simp] theorem Warp.modLanes_hold (w : Warp) (l : List Nat) (f : Lane → Lane) : (w.modLanes l f).hold = w.hold := rfl
@[simp] theorem Warp.modLanes_flight (w : Warp) (l : List Nat) (f : Lane → Lane) : (w.modLanes l f).flight = w.flight := rfl
@[simp] theorem Warp.modLanes_pend (w : Warp) (l : List Nat) (f : Lane → Lane) : (w.modLanes l f).pend = w.pend := rfl
@[simp] theorem Warp.modLanes_nextEv (w : Warp) (l : List Nat) (f : Lane → Lane) : (w.modLanes l f).nextEv = w.nextEv := rfl
@[simp] theorem Warp.modLanes_sync (w : Warp) (l : List Nat) (f : Lane → Lane) : (w.modLanes l f).sync = w.sync := rfl
@[simp] theorem Warp.modLanes_arr (w : Warp) (l : List Nat) (f : Lane → Lane) : (w.modLanes l f).arr = w.arr := rfl
@[simp] theorem Warp.modLanes_dom (w : Warp) (l : List Nat) (f : Lane → Lane) : (w.modLanes l f).dom = w.dom := rfl
@[simp] theorem Warp.modLanes_efaults (w : Warp) (l : List Nat) (f : Lane → Lane) : (w.modLanes l f).efaults = w.efaults := rfl
@[simp] theorem Warp.modLanes_cmdsDone (w : Warp) (l : List Nat) (f : Lane → Lane) : (w.modLanes l f).cmdsDone = w.cmdsDone := rfl
@[simp] theorem Warp.modLanes_readyAt (w : Warp) (l : List Nat) (f : Lane → Lane) : (w.modLanes l f).readyAt = w.readyAt := rfl
@[simp] theorem Warp.modLanes_streak (w : Warp) (l : List Nat) (f : Lane → Lane) : (w.modLanes l f).streak = w.streak := rfl
@[simp] theorem Warp.modLanes_acqFirst (w : Warp) (l : List Nat) (f : Lane → Lane) : (w.modLanes l f).acqFirst = w.acqFirst := rfl
@[simp] theorem Warp.modLanes_rgnFirst (w : Warp) (l : List Nat) (f : Lane → Lane) : (w.modLanes l f).rgnFirst = w.rgnFirst := rfl
@[simp] theorem Warp.modLanes_dbg (w : Warp) (l : List Nat) (f : Lane → Lane) : (w.modLanes l f).dbg = w.dbg := rfl
@[simp] theorem Warp.modLanes_dbgReq (w : Warp) (l : List Nat) (f : Lane → Lane) : (w.modLanes l f).dbgReq = w.dbgReq := rfl
@[simp] theorem Warp.modLanes_nextClk (w : Warp) (l : List Nat) (f : Lane → Lane) : (w.modLanes l f).nextClk = w.nextClk := rfl
@[simp] theorem Warp.modLanes_walked (w : Warp) (l : List Nat) (f : Lane → Lane) : (w.modLanes l f).walked = w.walked := rfl

@[simp] theorem Warp.tick_uid (w : Warp) (n : Nat) : (w.tick n).uid = w.uid := rfl
@[simp] theorem Warp.tick_core (w : Warp) (n : Nat) : (w.tick n).core = w.core := rfl
@[simp] theorem Warp.tick_slot (w : Warp) (n : Nat) : (w.tick n).slot = w.slot := rfl
@[simp] theorem Warp.tick_grid (w : Warp) (n : Nat) : (w.tick n).grid = w.grid := rfl
@[simp] theorem Warp.tick_team (w : Warp) (n : Nat) : (w.tick n).team = w.team := rfl
@[simp] theorem Warp.tick_idx (w : Warp) (n : Nat) : (w.tick n).idx = w.idx := rfl
@[simp] theorem Warp.tick_w (w : Warp) (n : Nat) : (w.tick n).w = w.w := rfl
@[simp] theorem Warp.tick_lanes (w : Warp) (n : Nat) : (w.tick n).lanes = w.lanes := rfl
@[simp] theorem Warp.tick_s (w : Warp) (n : Nat) : (w.tick n).s = w.s := rfl
@[simp] theorem Warp.tick_c (w : Warp) (n : Nat) : (w.tick n).c = w.c := rfl
@[simp] theorem Warp.tick_tok (w : Warp) (n : Nat) : (w.tick n).tok = w.tok := rfl
@[simp] theorem Warp.tick_e (w : Warp) (n : Nat) : (w.tick n).e = w.e := rfl
@[simp] theorem Warp.tick_wst (w : Warp) (n : Nat) : (w.tick n).wst = w.wst := rfl
@[simp] theorem Warp.tick_key (w : Warp) (n : Nat) : (w.tick n).key = w.key := rfl
@[simp] theorem Warp.tick_cmdseq (w : Warp) (n : Nat) : (w.tick n).cmdseq = w.cmdseq := rfl
@[simp] theorem Warp.tick_run (w : Warp) (n : Nat) : (w.tick n).run = w.run := rfl
@[simp] theorem Warp.tick_hold (w : Warp) (n : Nat) : (w.tick n).hold = w.hold := rfl
@[simp] theorem Warp.tick_pend (w : Warp) (n : Nat) : (w.tick n).pend = w.pend := rfl
@[simp] theorem Warp.tick_nextEv (w : Warp) (n : Nat) : (w.tick n).nextEv = w.nextEv := rfl
@[simp] theorem Warp.tick_sync (w : Warp) (n : Nat) : (w.tick n).sync = w.sync := rfl
@[simp] theorem Warp.tick_arr (w : Warp) (n : Nat) : (w.tick n).arr = w.arr := rfl
@[simp] theorem Warp.tick_dom (w : Warp) (n : Nat) : (w.tick n).dom = w.dom := rfl
@[simp] theorem Warp.tick_efaults (w : Warp) (n : Nat) : (w.tick n).efaults = w.efaults := rfl
@[simp] theorem Warp.tick_cmdsDone (w : Warp) (n : Nat) : (w.tick n).cmdsDone = w.cmdsDone := rfl
@[simp] theorem Warp.tick_readyAt (w : Warp) (n : Nat) : (w.tick n).readyAt = w.readyAt := rfl
@[simp] theorem Warp.tick_streak (w : Warp) (n : Nat) : (w.tick n).streak = w.streak := rfl
@[simp] theorem Warp.tick_acqFirst (w : Warp) (n : Nat) : (w.tick n).acqFirst = w.acqFirst := rfl
@[simp] theorem Warp.tick_rgnFirst (w : Warp) (n : Nat) : (w.tick n).rgnFirst = w.rgnFirst := rfl
@[simp] theorem Warp.tick_dbg (w : Warp) (n : Nat) : (w.tick n).dbg = w.dbg := rfl
@[simp] theorem Warp.tick_dbgReq (w : Warp) (n : Nat) : (w.tick n).dbgReq = w.dbgReq := rfl
@[simp] theorem Warp.tick_nextClk (w : Warp) (n : Nat) : (w.tick n).nextClk = w.nextClk := rfl
@[simp] theorem Warp.tick_walked (w : Warp) (n : Nat) : (w.tick n).walked = w.walked := rfl

@[simp] theorem Warp.unlatch_uid (w : Warp) (l : Nat) (k : RegKey) : (w.unlatch l k).uid = w.uid := rfl
@[simp] theorem Warp.unlatch_core (w : Warp) (l : Nat) (k : RegKey) : (w.unlatch l k).core = w.core := rfl
@[simp] theorem Warp.unlatch_slot (w : Warp) (l : Nat) (k : RegKey) : (w.unlatch l k).slot = w.slot := rfl
@[simp] theorem Warp.unlatch_grid (w : Warp) (l : Nat) (k : RegKey) : (w.unlatch l k).grid = w.grid := rfl
@[simp] theorem Warp.unlatch_team (w : Warp) (l : Nat) (k : RegKey) : (w.unlatch l k).team = w.team := rfl
@[simp] theorem Warp.unlatch_idx (w : Warp) (l : Nat) (k : RegKey) : (w.unlatch l k).idx = w.idx := rfl
@[simp] theorem Warp.unlatch_w (w : Warp) (l : Nat) (k : RegKey) : (w.unlatch l k).w = w.w := rfl
@[simp] theorem Warp.unlatch_lanes (w : Warp) (l : Nat) (k : RegKey) : (w.unlatch l k).lanes = w.lanes := rfl
@[simp] theorem Warp.unlatch_s (w : Warp) (l : Nat) (k : RegKey) : (w.unlatch l k).s = w.s := rfl
@[simp] theorem Warp.unlatch_c (w : Warp) (l : Nat) (k : RegKey) : (w.unlatch l k).c = w.c := rfl
@[simp] theorem Warp.unlatch_tok (w : Warp) (l : Nat) (k : RegKey) : (w.unlatch l k).tok = w.tok := rfl
@[simp] theorem Warp.unlatch_e (w : Warp) (l : Nat) (k : RegKey) : (w.unlatch l k).e = w.e := rfl
@[simp] theorem Warp.unlatch_wst (w : Warp) (l : Nat) (k : RegKey) : (w.unlatch l k).wst = w.wst := rfl
@[simp] theorem Warp.unlatch_key (w : Warp) (l : Nat) (k : RegKey) : (w.unlatch l k).key = w.key := rfl
@[simp] theorem Warp.unlatch_cmdseq (w : Warp) (l : Nat) (k : RegKey) : (w.unlatch l k).cmdseq = w.cmdseq := rfl
@[simp] theorem Warp.unlatch_hold (w : Warp) (l : Nat) (k : RegKey) : (w.unlatch l k).hold = w.hold := rfl
@[simp] theorem Warp.unlatch_flight (w : Warp) (l : Nat) (k : RegKey) : (w.unlatch l k).flight = w.flight := rfl
@[simp] theorem Warp.unlatch_pend (w : Warp) (l : Nat) (k : RegKey) : (w.unlatch l k).pend = w.pend := rfl
@[simp] theorem Warp.unlatch_nextEv (w : Warp) (l : Nat) (k : RegKey) : (w.unlatch l k).nextEv = w.nextEv := rfl
@[simp] theorem Warp.unlatch_sync (w : Warp) (l : Nat) (k : RegKey) : (w.unlatch l k).sync = w.sync := rfl
@[simp] theorem Warp.unlatch_arr (w : Warp) (l : Nat) (k : RegKey) : (w.unlatch l k).arr = w.arr := rfl
@[simp] theorem Warp.unlatch_dom (w : Warp) (l : Nat) (k : RegKey) : (w.unlatch l k).dom = w.dom := rfl
@[simp] theorem Warp.unlatch_efaults (w : Warp) (l : Nat) (k : RegKey) : (w.unlatch l k).efaults = w.efaults := rfl
@[simp] theorem Warp.unlatch_cmdsDone (w : Warp) (l : Nat) (k : RegKey) : (w.unlatch l k).cmdsDone = w.cmdsDone := rfl
@[simp] theorem Warp.unlatch_readyAt (w : Warp) (l : Nat) (k : RegKey) : (w.unlatch l k).readyAt = w.readyAt := rfl
@[simp] theorem Warp.unlatch_streak (w : Warp) (l : Nat) (k : RegKey) : (w.unlatch l k).streak = w.streak := rfl
@[simp] theorem Warp.unlatch_acqFirst (w : Warp) (l : Nat) (k : RegKey) : (w.unlatch l k).acqFirst = w.acqFirst := rfl
@[simp] theorem Warp.unlatch_rgnFirst (w : Warp) (l : Nat) (k : RegKey) : (w.unlatch l k).rgnFirst = w.rgnFirst := rfl
@[simp] theorem Warp.unlatch_dbg (w : Warp) (l : Nat) (k : RegKey) : (w.unlatch l k).dbg = w.dbg := rfl
@[simp] theorem Warp.unlatch_dbgReq (w : Warp) (l : Nat) (k : RegKey) : (w.unlatch l k).dbgReq = w.dbgReq := rfl
@[simp] theorem Warp.unlatch_nextClk (w : Warp) (l : Nat) (k : RegKey) : (w.unlatch l k).nextClk = w.nextClk := rfl
@[simp] theorem Warp.unlatch_walked (w : Warp) (l : Nat) (k : RegKey) : (w.unlatch l k).walked = w.walked := rfl

@[simp] theorem Warp.prune_uid (w : Warp) : (w.prune).uid = w.uid := rfl
@[simp] theorem Warp.prune_core (w : Warp) : (w.prune).core = w.core := rfl
@[simp] theorem Warp.prune_slot (w : Warp) : (w.prune).slot = w.slot := rfl
@[simp] theorem Warp.prune_grid (w : Warp) : (w.prune).grid = w.grid := rfl
@[simp] theorem Warp.prune_team (w : Warp) : (w.prune).team = w.team := rfl
@[simp] theorem Warp.prune_idx (w : Warp) : (w.prune).idx = w.idx := rfl
@[simp] theorem Warp.prune_w (w : Warp) : (w.prune).w = w.w := rfl
@[simp] theorem Warp.prune_lanes (w : Warp) : (w.prune).lanes = w.lanes := rfl
@[simp] theorem Warp.prune_s (w : Warp) : (w.prune).s = w.s := rfl
@[simp] theorem Warp.prune_c (w : Warp) : (w.prune).c = w.c := rfl
@[simp] theorem Warp.prune_tok (w : Warp) : (w.prune).tok = w.tok := rfl
@[simp] theorem Warp.prune_e (w : Warp) : (w.prune).e = w.e := rfl
@[simp] theorem Warp.prune_wst (w : Warp) : (w.prune).wst = w.wst := rfl
@[simp] theorem Warp.prune_key (w : Warp) : (w.prune).key = w.key := rfl
@[simp] theorem Warp.prune_cmdseq (w : Warp) : (w.prune).cmdseq = w.cmdseq := rfl
@[simp] theorem Warp.prune_run (w : Warp) : (w.prune).run = w.run := rfl
@[simp] theorem Warp.prune_hold (w : Warp) : (w.prune).hold = w.hold := rfl
@[simp] theorem Warp.prune_flight (w : Warp) : (w.prune).flight = w.flight := rfl
@[simp] theorem Warp.prune_nextEv (w : Warp) : (w.prune).nextEv = w.nextEv := rfl
@[simp] theorem Warp.prune_sync (w : Warp) : (w.prune).sync = w.sync := rfl
@[simp] theorem Warp.prune_arr (w : Warp) : (w.prune).arr = w.arr := rfl
@[simp] theorem Warp.prune_dom (w : Warp) : (w.prune).dom = w.dom := rfl
@[simp] theorem Warp.prune_efaults (w : Warp) : (w.prune).efaults = w.efaults := rfl
@[simp] theorem Warp.prune_cmdsDone (w : Warp) : (w.prune).cmdsDone = w.cmdsDone := rfl
@[simp] theorem Warp.prune_readyAt (w : Warp) : (w.prune).readyAt = w.readyAt := rfl
@[simp] theorem Warp.prune_streak (w : Warp) : (w.prune).streak = w.streak := rfl
@[simp] theorem Warp.prune_acqFirst (w : Warp) : (w.prune).acqFirst = w.acqFirst := rfl
@[simp] theorem Warp.prune_rgnFirst (w : Warp) : (w.prune).rgnFirst = w.rgnFirst := rfl
@[simp] theorem Warp.prune_dbg (w : Warp) : (w.prune).dbg = w.dbg := rfl
@[simp] theorem Warp.prune_dbgReq (w : Warp) : (w.prune).dbgReq = w.dbgReq := rfl
@[simp] theorem Warp.prune_nextClk (w : Warp) : (w.prune).nextClk = w.nextClk := rfl
@[simp] theorem Warp.prune_walked (w : Warp) : (w.prune).walked = w.walked := rfl

@[simp] theorem Warp.finishTok_uid (w : Warp) (n : Nat) : (w.finishTok n).uid = w.uid := rfl
@[simp] theorem Warp.finishTok_core (w : Warp) (n : Nat) : (w.finishTok n).core = w.core := rfl
@[simp] theorem Warp.finishTok_slot (w : Warp) (n : Nat) : (w.finishTok n).slot = w.slot := rfl
@[simp] theorem Warp.finishTok_grid (w : Warp) (n : Nat) : (w.finishTok n).grid = w.grid := rfl
@[simp] theorem Warp.finishTok_team (w : Warp) (n : Nat) : (w.finishTok n).team = w.team := rfl
@[simp] theorem Warp.finishTok_idx (w : Warp) (n : Nat) : (w.finishTok n).idx = w.idx := rfl
@[simp] theorem Warp.finishTok_w (w : Warp) (n : Nat) : (w.finishTok n).w = w.w := rfl
@[simp] theorem Warp.finishTok_lanes (w : Warp) (n : Nat) : (w.finishTok n).lanes = w.lanes := rfl
@[simp] theorem Warp.finishTok_s (w : Warp) (n : Nat) : (w.finishTok n).s = w.s := rfl
@[simp] theorem Warp.finishTok_c (w : Warp) (n : Nat) : (w.finishTok n).c = w.c := rfl
@[simp] theorem Warp.finishTok_e (w : Warp) (n : Nat) : (w.finishTok n).e = w.e := rfl
@[simp] theorem Warp.finishTok_wst (w : Warp) (n : Nat) : (w.finishTok n).wst = w.wst := rfl
@[simp] theorem Warp.finishTok_key (w : Warp) (n : Nat) : (w.finishTok n).key = w.key := rfl
@[simp] theorem Warp.finishTok_cmdseq (w : Warp) (n : Nat) : (w.finishTok n).cmdseq = w.cmdseq := rfl
@[simp] theorem Warp.finishTok_run (w : Warp) (n : Nat) : (w.finishTok n).run = w.run := rfl
@[simp] theorem Warp.finishTok_hold (w : Warp) (n : Nat) : (w.finishTok n).hold = w.hold := rfl
@[simp] theorem Warp.finishTok_flight (w : Warp) (n : Nat) : (w.finishTok n).flight = w.flight := rfl
@[simp] theorem Warp.finishTok_pend (w : Warp) (n : Nat) : (w.finishTok n).pend = w.pend := rfl
@[simp] theorem Warp.finishTok_nextEv (w : Warp) (n : Nat) : (w.finishTok n).nextEv = w.nextEv := rfl
@[simp] theorem Warp.finishTok_sync (w : Warp) (n : Nat) : (w.finishTok n).sync = w.sync := rfl
@[simp] theorem Warp.finishTok_arr (w : Warp) (n : Nat) : (w.finishTok n).arr = w.arr := rfl
@[simp] theorem Warp.finishTok_dom (w : Warp) (n : Nat) : (w.finishTok n).dom = w.dom := rfl
@[simp] theorem Warp.finishTok_efaults (w : Warp) (n : Nat) : (w.finishTok n).efaults = w.efaults := rfl
@[simp] theorem Warp.finishTok_cmdsDone (w : Warp) (n : Nat) : (w.finishTok n).cmdsDone = w.cmdsDone := rfl
@[simp] theorem Warp.finishTok_readyAt (w : Warp) (n : Nat) : (w.finishTok n).readyAt = w.readyAt := rfl
@[simp] theorem Warp.finishTok_streak (w : Warp) (n : Nat) : (w.finishTok n).streak = w.streak := rfl
@[simp] theorem Warp.finishTok_acqFirst (w : Warp) (n : Nat) : (w.finishTok n).acqFirst = w.acqFirst := rfl
@[simp] theorem Warp.finishTok_rgnFirst (w : Warp) (n : Nat) : (w.finishTok n).rgnFirst = w.rgnFirst := rfl
@[simp] theorem Warp.finishTok_dbg (w : Warp) (n : Nat) : (w.finishTok n).dbg = w.dbg := rfl
@[simp] theorem Warp.finishTok_dbgReq (w : Warp) (n : Nat) : (w.finishTok n).dbgReq = w.dbgReq := rfl
@[simp] theorem Warp.finishTok_nextClk (w : Warp) (n : Nat) : (w.finishTok n).nextClk = w.nextClk := rfl
@[simp] theorem Warp.finishTok_walked (w : Warp) (n : Nat) : (w.finishTok n).walked = w.walked := rfl

@[simp] theorem Warp.setEmpty_uid (w : Warp) : (w.setEmpty).uid = w.uid := rfl
@[simp] theorem Warp.setEmpty_core (w : Warp) : (w.setEmpty).core = w.core := rfl
@[simp] theorem Warp.setEmpty_slot (w : Warp) : (w.setEmpty).slot = w.slot := rfl
@[simp] theorem Warp.setEmpty_grid (w : Warp) : (w.setEmpty).grid = w.grid := rfl
@[simp] theorem Warp.setEmpty_team (w : Warp) : (w.setEmpty).team = w.team := rfl
@[simp] theorem Warp.setEmpty_idx (w : Warp) : (w.setEmpty).idx = w.idx := rfl
@[simp] theorem Warp.setEmpty_w (w : Warp) : (w.setEmpty).w = w.w := rfl
@[simp] theorem Warp.setEmpty_lanes (w : Warp) : (w.setEmpty).lanes = w.lanes := rfl
@[simp] theorem Warp.setEmpty_s (w : Warp) : (w.setEmpty).s = w.s := rfl
@[simp] theorem Warp.setEmpty_c (w : Warp) : (w.setEmpty).c = w.c := rfl
@[simp] theorem Warp.setEmpty_tok (w : Warp) : (w.setEmpty).tok = w.tok := rfl
@[simp] theorem Warp.setEmpty_e (w : Warp) : (w.setEmpty).e = w.e := rfl
@[simp] theorem Warp.setEmpty_key (w : Warp) : (w.setEmpty).key = w.key := rfl
@[simp] theorem Warp.setEmpty_cmdseq (w : Warp) : (w.setEmpty).cmdseq = w.cmdseq := rfl
@[simp] theorem Warp.setEmpty_run (w : Warp) : (w.setEmpty).run = w.run := rfl
@[simp] theorem Warp.setEmpty_hold (w : Warp) : (w.setEmpty).hold = w.hold := rfl
@[simp] theorem Warp.setEmpty_flight (w : Warp) : (w.setEmpty).flight = w.flight := rfl
@[simp] theorem Warp.setEmpty_pend (w : Warp) : (w.setEmpty).pend = w.pend := rfl
@[simp] theorem Warp.setEmpty_nextEv (w : Warp) : (w.setEmpty).nextEv = w.nextEv := rfl
@[simp] theorem Warp.setEmpty_sync (w : Warp) : (w.setEmpty).sync = w.sync := rfl
@[simp] theorem Warp.setEmpty_arr (w : Warp) : (w.setEmpty).arr = w.arr := rfl
@[simp] theorem Warp.setEmpty_dom (w : Warp) : (w.setEmpty).dom = w.dom := rfl
@[simp] theorem Warp.setEmpty_efaults (w : Warp) : (w.setEmpty).efaults = w.efaults := rfl
@[simp] theorem Warp.setEmpty_cmdsDone (w : Warp) : (w.setEmpty).cmdsDone = w.cmdsDone := rfl
@[simp] theorem Warp.setEmpty_readyAt (w : Warp) : (w.setEmpty).readyAt = w.readyAt := rfl
@[simp] theorem Warp.setEmpty_streak (w : Warp) : (w.setEmpty).streak = w.streak := rfl
@[simp] theorem Warp.setEmpty_acqFirst (w : Warp) : (w.setEmpty).acqFirst = w.acqFirst := rfl
@[simp] theorem Warp.setEmpty_rgnFirst (w : Warp) : (w.setEmpty).rgnFirst = w.rgnFirst := rfl
@[simp] theorem Warp.setEmpty_dbg (w : Warp) : (w.setEmpty).dbg = w.dbg := rfl
@[simp] theorem Warp.setEmpty_dbgReq (w : Warp) : (w.setEmpty).dbgReq = w.dbgReq := rfl
@[simp] theorem Warp.setEmpty_nextClk (w : Warp) : (w.setEmpty).nextClk = w.nextClk := rfl
@[simp] theorem Warp.setEmpty_walked (w : Warp) : (w.setEmpty).walked = w.walked := rfl

@[simp] theorem Warp.setMaskmis_uid (w : Warp) : (w.setMaskmis).uid = w.uid := rfl
@[simp] theorem Warp.setMaskmis_core (w : Warp) : (w.setMaskmis).core = w.core := rfl
@[simp] theorem Warp.setMaskmis_slot (w : Warp) : (w.setMaskmis).slot = w.slot := rfl
@[simp] theorem Warp.setMaskmis_grid (w : Warp) : (w.setMaskmis).grid = w.grid := rfl
@[simp] theorem Warp.setMaskmis_team (w : Warp) : (w.setMaskmis).team = w.team := rfl
@[simp] theorem Warp.setMaskmis_idx (w : Warp) : (w.setMaskmis).idx = w.idx := rfl
@[simp] theorem Warp.setMaskmis_w (w : Warp) : (w.setMaskmis).w = w.w := rfl
@[simp] theorem Warp.setMaskmis_lanes (w : Warp) : (w.setMaskmis).lanes = w.lanes := rfl
@[simp] theorem Warp.setMaskmis_s (w : Warp) : (w.setMaskmis).s = w.s := rfl
@[simp] theorem Warp.setMaskmis_c (w : Warp) : (w.setMaskmis).c = w.c := rfl
@[simp] theorem Warp.setMaskmis_tok (w : Warp) : (w.setMaskmis).tok = w.tok := rfl
@[simp] theorem Warp.setMaskmis_e (w : Warp) : (w.setMaskmis).e = w.e := rfl
@[simp] theorem Warp.setMaskmis_key (w : Warp) : (w.setMaskmis).key = w.key := rfl
@[simp] theorem Warp.setMaskmis_cmdseq (w : Warp) : (w.setMaskmis).cmdseq = w.cmdseq := rfl
@[simp] theorem Warp.setMaskmis_run (w : Warp) : (w.setMaskmis).run = w.run := rfl
@[simp] theorem Warp.setMaskmis_hold (w : Warp) : (w.setMaskmis).hold = w.hold := rfl
@[simp] theorem Warp.setMaskmis_flight (w : Warp) : (w.setMaskmis).flight = w.flight := rfl
@[simp] theorem Warp.setMaskmis_pend (w : Warp) : (w.setMaskmis).pend = w.pend := rfl
@[simp] theorem Warp.setMaskmis_nextEv (w : Warp) : (w.setMaskmis).nextEv = w.nextEv := rfl
@[simp] theorem Warp.setMaskmis_sync (w : Warp) : (w.setMaskmis).sync = w.sync := rfl
@[simp] theorem Warp.setMaskmis_arr (w : Warp) : (w.setMaskmis).arr = w.arr := rfl
@[simp] theorem Warp.setMaskmis_dom (w : Warp) : (w.setMaskmis).dom = w.dom := rfl
@[simp] theorem Warp.setMaskmis_efaults (w : Warp) : (w.setMaskmis).efaults = w.efaults := rfl
@[simp] theorem Warp.setMaskmis_cmdsDone (w : Warp) : (w.setMaskmis).cmdsDone = w.cmdsDone := rfl
@[simp] theorem Warp.setMaskmis_readyAt (w : Warp) : (w.setMaskmis).readyAt = w.readyAt := rfl
@[simp] theorem Warp.setMaskmis_streak (w : Warp) : (w.setMaskmis).streak = w.streak := rfl
@[simp] theorem Warp.setMaskmis_acqFirst (w : Warp) : (w.setMaskmis).acqFirst = w.acqFirst := rfl
@[simp] theorem Warp.setMaskmis_rgnFirst (w : Warp) : (w.setMaskmis).rgnFirst = w.rgnFirst := rfl
@[simp] theorem Warp.setMaskmis_dbg (w : Warp) : (w.setMaskmis).dbg = w.dbg := rfl
@[simp] theorem Warp.setMaskmis_dbgReq (w : Warp) : (w.setMaskmis).dbgReq = w.dbgReq := rfl
@[simp] theorem Warp.setMaskmis_nextClk (w : Warp) : (w.setMaskmis).nextClk = w.nextClk := rfl
@[simp] theorem Warp.setMaskmis_walked (w : Warp) : (w.setMaskmis).walked = w.walked := rfl

@[simp] theorem State.event_agenda (s : State) (i : Nat) (e : List DWord) : (s.event i e).agenda = s.agenda := by
  unfold State.event; repeat (first | rfl | split)
@[simp] theorem State.event_tempo (s : State) (i : Nat) (e : List DWord) : (s.event i e).tempo = s.tempo := by
  unfold State.event; repeat (first | rfl | split)
@[simp] theorem State.event_fresh (s : State) (i : Nat) (e : List DWord) : (s.event i e).fresh = s.fresh := by
  unfold State.event; repeat (first | rfl | split)
@[simp] theorem State.event_uid (s : State) (i : Nat) (e : List DWord) : (s.event i e).uid = s.uid := by
  unfold State.event; repeat (first | rfl | split)
@[simp] theorem State.event_cur (s : State) (i : Nat) (e : List DWord) : (s.event i e).cur = s.cur := by
  unfold State.event; repeat (first | rfl | split)
@[simp] theorem State.event_lastCore (s : State) (i : Nat) (e : List DWord) : (s.event i e).lastCore = s.lastCore := by
  unfold State.event; repeat (first | rfl | split)
@[simp] theorem State.event_gtime (s : State) (i : Nat) (e : List DWord) : (s.event i e).gtime = s.gtime := by
  unfold State.event; repeat (first | rfl | split)
@[simp] theorem State.event_dies (s : State) (i : Nat) (e : List DWord) : (s.event i e).dies = s.dies := by
  unfold State.event; repeat (first | rfl | split)
@[simp] theorem State.event_warps (s : State) (i : Nat) (e : List DWord) : (s.event i e).warps = s.warps := by
  unfold State.event; repeat (first | rfl | split)
@[simp] theorem State.event_teams (s : State) (i : Nat) (e : List DWord) : (s.event i e).teams = s.teams := by
  unfold State.event; repeat (first | rfl | split)
@[simp] theorem State.event_grids (s : State) (i : Nat) (e : List DWord) : (s.event i e).grids = s.grids := by
  unfold State.event; repeat (first | rfl | split)
@[simp] theorem State.event_cores (s : State) (i : Nat) (e : List DWord) : (s.event i e).cores = s.cores := by
  unfold State.event; repeat (first | rfl | split)
@[simp] theorem State.event_mem (s : State) (i : Nat) (e : List DWord) : (s.event i e).mem = s.mem := by
  unfold State.event; repeat (first | rfl | split)
@[simp] theorem State.event_tabs (s : State) (i : Nat) (e : List DWord) : (s.event i e).tabs = s.tabs := by
  unfold State.event; repeat (first | rfl | split)
@[simp] theorem State.event_sch (s : State) (i : Nat) (e : List DWord) : (s.event i e).sch = s.sch := by
  unfold State.event; repeat (first | rfl | split)
@[simp] theorem State.event_bins (s : State) (i : Nat) (e : List DWord) : (s.event i e).bins = s.bins := by
  unfold State.event; repeat (first | rfl | split)
@[simp] theorem State.event_pmodes (s : State) (i : Nat) (e : List DWord) : (s.event i e).pmodes = s.pmodes := by
  unfold State.event; repeat (first | rfl | split)
@[simp] theorem State.event_link (s : State) (i : Nat) (e : List DWord) : (s.event i e).link = s.link := by
  unfold State.event; repeat (first | rfl | split)
@[simp] theorem State.event_trace (s : State) (i : Nat) (e : List DWord) : (s.event i e).trace = s.trace := by
  unfold State.event; repeat (first | rfl | split)
@[simp] theorem State.event_boot (s : State) (i : Nat) (e : List DWord) : (s.event i e).boot = s.boot := by
  unfold State.event; repeat (first | rfl | split)

@[simp] theorem State.event_slots (s : State) (i : Nat) (e : List DWord) : (s.event i e).slots = s.slots := by
  unfold State.event; repeat (first | rfl | split)

@[simp] theorem State.ctxEvent_agenda (s : State) (c : Nat) (e : List DWord) : (s.ctxEvent c e).agenda = s.agenda :=
  State.event_agenda ..
@[simp] theorem State.ctxEvent_tempo (s : State) (c : Nat) (e : List DWord) : (s.ctxEvent c e).tempo = s.tempo :=
  State.event_tempo ..
@[simp] theorem State.ctxEvent_fresh (s : State) (c : Nat) (e : List DWord) : (s.ctxEvent c e).fresh = s.fresh :=
  State.event_fresh ..
@[simp] theorem State.ctxEvent_uid (s : State) (c : Nat) (e : List DWord) : (s.ctxEvent c e).uid = s.uid :=
  State.event_uid ..
@[simp] theorem State.ctxEvent_cur (s : State) (c : Nat) (e : List DWord) : (s.ctxEvent c e).cur = s.cur :=
  State.event_cur ..
@[simp] theorem State.ctxEvent_lastCore (s : State) (c : Nat) (e : List DWord) : (s.ctxEvent c e).lastCore = s.lastCore :=
  State.event_lastCore ..
@[simp] theorem State.ctxEvent_gtime (s : State) (c : Nat) (e : List DWord) : (s.ctxEvent c e).gtime = s.gtime :=
  State.event_gtime ..
@[simp] theorem State.ctxEvent_dies (s : State) (c : Nat) (e : List DWord) : (s.ctxEvent c e).dies = s.dies :=
  State.event_dies ..
@[simp] theorem State.ctxEvent_warps (s : State) (c : Nat) (e : List DWord) : (s.ctxEvent c e).warps = s.warps :=
  State.event_warps ..
@[simp] theorem State.ctxEvent_teams (s : State) (c : Nat) (e : List DWord) : (s.ctxEvent c e).teams = s.teams :=
  State.event_teams ..
@[simp] theorem State.ctxEvent_grids (s : State) (c : Nat) (e : List DWord) : (s.ctxEvent c e).grids = s.grids :=
  State.event_grids ..
@[simp] theorem State.ctxEvent_cores (s : State) (c : Nat) (e : List DWord) : (s.ctxEvent c e).cores = s.cores :=
  State.event_cores ..
@[simp] theorem State.ctxEvent_mem (s : State) (c : Nat) (e : List DWord) : (s.ctxEvent c e).mem = s.mem :=
  State.event_mem ..
@[simp] theorem State.ctxEvent_tabs (s : State) (c : Nat) (e : List DWord) : (s.ctxEvent c e).tabs = s.tabs :=
  State.event_tabs ..
@[simp] theorem State.ctxEvent_sch (s : State) (c : Nat) (e : List DWord) : (s.ctxEvent c e).sch = s.sch :=
  State.event_sch ..
@[simp] theorem State.ctxEvent_bins (s : State) (c : Nat) (e : List DWord) : (s.ctxEvent c e).bins = s.bins :=
  State.event_bins ..
@[simp] theorem State.ctxEvent_pmodes (s : State) (c : Nat) (e : List DWord) : (s.ctxEvent c e).pmodes = s.pmodes :=
  State.event_pmodes ..
@[simp] theorem State.ctxEvent_link (s : State) (c : Nat) (e : List DWord) : (s.ctxEvent c e).link = s.link :=
  State.event_link ..
@[simp] theorem State.ctxEvent_trace (s : State) (c : Nat) (e : List DWord) : (s.ctxEvent c e).trace = s.trace :=
  State.event_trace ..
@[simp] theorem State.ctxEvent_boot (s : State) (c : Nat) (e : List DWord) : (s.ctxEvent c e).boot = s.boot :=
  State.event_boot ..

/-- A fold keeps what every step of it keeps. -/
theorem foldl_keeps {σ α β : Type} (p : σ → β) (f : σ → α → σ) (hf : ∀ s a, p (f s a) = p s) (l : List α) :
    ∀ s, p (l.foldl f s) = p s := by
  induction l with
  | nil => intro s; rfl
  | cons a l ih => intro s; exact (ih _).trans (hf s a)

@[simp] theorem State.ctxEvent_slots (s : State) (c : Nat) (e : List DWord) : (s.ctxEvent c e).slots = s.slots :=
  State.event_slots ..

@[simp] theorem State.freeVersions_agenda (s : State) : s.freeVersions.agenda = s.agenda :=
  foldl_keeps State.agenda _ (fun _ _ => State.ctxEvent_agenda ..) _ _
@[simp] theorem State.freeVersions_tempo (s : State) : s.freeVersions.tempo = s.tempo :=
  foldl_keeps State.tempo _ (fun _ _ => State.ctxEvent_tempo ..) _ _
@[simp] theorem State.freeVersions_fresh (s : State) : s.freeVersions.fresh = s.fresh :=
  foldl_keeps State.fresh _ (fun _ _ => State.ctxEvent_fresh ..) _ _
@[simp] theorem State.freeVersions_uid (s : State) : s.freeVersions.uid = s.uid :=
  foldl_keeps State.uid _ (fun _ _ => State.ctxEvent_uid ..) _ _
@[simp] theorem State.freeVersions_cur (s : State) : s.freeVersions.cur = s.cur :=
  foldl_keeps State.cur _ (fun _ _ => State.ctxEvent_cur ..) _ _
@[simp] theorem State.freeVersions_lastCore (s : State) : s.freeVersions.lastCore = s.lastCore :=
  foldl_keeps State.lastCore _ (fun _ _ => State.ctxEvent_lastCore ..) _ _
@[simp] theorem State.freeVersions_gtime (s : State) : s.freeVersions.gtime = s.gtime :=
  foldl_keeps State.gtime _ (fun _ _ => State.ctxEvent_gtime ..) _ _
@[simp] theorem State.freeVersions_dies (s : State) : s.freeVersions.dies = s.dies :=
  foldl_keeps State.dies _ (fun _ _ => State.ctxEvent_dies ..) _ _
@[simp] theorem State.freeVersions_warps (s : State) : s.freeVersions.warps = s.warps :=
  foldl_keeps State.warps _ (fun _ _ => State.ctxEvent_warps ..) _ _
@[simp] theorem State.freeVersions_teams (s : State) : s.freeVersions.teams = s.teams :=
  foldl_keeps State.teams _ (fun _ _ => State.ctxEvent_teams ..) _ _
@[simp] theorem State.freeVersions_grids (s : State) : s.freeVersions.grids = s.grids :=
  foldl_keeps State.grids _ (fun _ _ => State.ctxEvent_grids ..) _ _
@[simp] theorem State.freeVersions_cores (s : State) : s.freeVersions.cores = s.cores :=
  foldl_keeps State.cores _ (fun _ _ => State.ctxEvent_cores ..) _ _
@[simp] theorem State.freeVersions_mem (s : State) : s.freeVersions.mem = s.mem :=
  foldl_keeps State.mem _ (fun _ _ => State.ctxEvent_mem ..) _ _
@[simp] theorem State.freeVersions_sch (s : State) : s.freeVersions.sch = s.sch :=
  foldl_keeps State.sch _ (fun _ _ => State.ctxEvent_sch ..) _ _
@[simp] theorem State.freeVersions_bins (s : State) : s.freeVersions.bins = s.bins :=
  foldl_keeps State.bins _ (fun _ _ => State.ctxEvent_bins ..) _ _
@[simp] theorem State.freeVersions_pmodes (s : State) : s.freeVersions.pmodes = s.pmodes :=
  foldl_keeps State.pmodes _ (fun _ _ => State.ctxEvent_pmodes ..) _ _
@[simp] theorem State.freeVersions_link (s : State) : s.freeVersions.link = s.link :=
  foldl_keeps State.link _ (fun _ _ => State.ctxEvent_link ..) _ _
@[simp] theorem State.freeVersions_trace (s : State) : s.freeVersions.trace = s.trace :=
  foldl_keeps State.trace _ (fun _ _ => State.ctxEvent_trace ..) _ _
@[simp] theorem State.freeVersions_boot (s : State) : s.freeVersions.boot = s.boot :=
  foldl_keeps State.boot _ (fun _ _ => State.ctxEvent_boot ..) _ _

@[simp] theorem State.freeVersions_slots (s : State) : s.freeVersions.slots = s.slots :=
  foldl_keeps State.slots _ (fun _ _ => State.ctxEvent_slots ..) _ _

@[simp] theorem State.closeCursors_agenda (s : State) (l : Lane) : (s.closeCursors l).agenda = s.agenda := by
  unfold State.closeCursors; rw [State.freeVersions_agenda]
  exact foldl_keeps State.agenda _ (fun s k => by cases k <;> rfl) _ _
@[simp] theorem State.closeCursors_tempo (s : State) (l : Lane) : (s.closeCursors l).tempo = s.tempo := by
  unfold State.closeCursors; rw [State.freeVersions_tempo]
  exact foldl_keeps State.tempo _ (fun s k => by cases k <;> rfl) _ _
@[simp] theorem State.closeCursors_fresh (s : State) (l : Lane) : (s.closeCursors l).fresh = s.fresh := by
  unfold State.closeCursors; rw [State.freeVersions_fresh]
  exact foldl_keeps State.fresh _ (fun s k => by cases k <;> rfl) _ _
@[simp] theorem State.closeCursors_uid (s : State) (l : Lane) : (s.closeCursors l).uid = s.uid := by
  unfold State.closeCursors; rw [State.freeVersions_uid]
  exact foldl_keeps State.uid _ (fun s k => by cases k <;> rfl) _ _
@[simp] theorem State.closeCursors_cur (s : State) (l : Lane) : (s.closeCursors l).cur = s.cur := by
  unfold State.closeCursors; rw [State.freeVersions_cur]
  exact foldl_keeps State.cur _ (fun s k => by cases k <;> rfl) _ _
@[simp] theorem State.closeCursors_lastCore (s : State) (l : Lane) : (s.closeCursors l).lastCore = s.lastCore := by
  unfold State.closeCursors; rw [State.freeVersions_lastCore]
  exact foldl_keeps State.lastCore _ (fun s k => by cases k <;> rfl) _ _
@[simp] theorem State.closeCursors_gtime (s : State) (l : Lane) : (s.closeCursors l).gtime = s.gtime := by
  unfold State.closeCursors; rw [State.freeVersions_gtime]
  exact foldl_keeps State.gtime _ (fun s k => by cases k <;> rfl) _ _
@[simp] theorem State.closeCursors_dies (s : State) (l : Lane) : (s.closeCursors l).dies = s.dies := by
  unfold State.closeCursors; rw [State.freeVersions_dies]
  exact foldl_keeps State.dies _ (fun s k => by cases k <;> rfl) _ _
@[simp] theorem State.closeCursors_warps (s : State) (l : Lane) : (s.closeCursors l).warps = s.warps := by
  unfold State.closeCursors; rw [State.freeVersions_warps]
  exact foldl_keeps State.warps _ (fun s k => by cases k <;> rfl) _ _
@[simp] theorem State.closeCursors_teams (s : State) (l : Lane) : (s.closeCursors l).teams = s.teams := by
  unfold State.closeCursors; rw [State.freeVersions_teams]
  exact foldl_keeps State.teams _ (fun s k => by cases k <;> rfl) _ _
@[simp] theorem State.closeCursors_grids (s : State) (l : Lane) : (s.closeCursors l).grids = s.grids := by
  unfold State.closeCursors; rw [State.freeVersions_grids]
  exact foldl_keeps State.grids _ (fun s k => by cases k <;> rfl) _ _
@[simp] theorem State.closeCursors_cores (s : State) (l : Lane) : (s.closeCursors l).cores = s.cores := by
  unfold State.closeCursors; rw [State.freeVersions_cores]
  exact foldl_keeps State.cores _ (fun s k => by cases k <;> rfl) _ _
@[simp] theorem State.closeCursors_mem (s : State) (l : Lane) : (s.closeCursors l).mem = s.mem := by
  unfold State.closeCursors; rw [State.freeVersions_mem]
  exact foldl_keeps State.mem _ (fun s k => by cases k <;> rfl) _ _
@[simp] theorem State.closeCursors_sch (s : State) (l : Lane) : (s.closeCursors l).sch = s.sch := by
  unfold State.closeCursors; rw [State.freeVersions_sch]
  exact foldl_keeps State.sch _ (fun s k => by cases k <;> rfl) _ _
@[simp] theorem State.closeCursors_bins (s : State) (l : Lane) : (s.closeCursors l).bins = s.bins := by
  unfold State.closeCursors; rw [State.freeVersions_bins]
  exact foldl_keeps State.bins _ (fun s k => by cases k <;> rfl) _ _
@[simp] theorem State.closeCursors_pmodes (s : State) (l : Lane) : (s.closeCursors l).pmodes = s.pmodes := by
  unfold State.closeCursors; rw [State.freeVersions_pmodes]
  exact foldl_keeps State.pmodes _ (fun s k => by cases k <;> rfl) _ _
@[simp] theorem State.closeCursors_link (s : State) (l : Lane) : (s.closeCursors l).link = s.link := by
  unfold State.closeCursors; rw [State.freeVersions_link]
  exact foldl_keeps State.link _ (fun s k => by cases k <;> rfl) _ _
@[simp] theorem State.closeCursors_trace (s : State) (l : Lane) : (s.closeCursors l).trace = s.trace := by
  unfold State.closeCursors; rw [State.freeVersions_trace]
  exact foldl_keeps State.trace _ (fun s k => by cases k <;> rfl) _ _
@[simp] theorem State.closeCursors_boot (s : State) (l : Lane) : (s.closeCursors l).boot = s.boot := by
  unfold State.closeCursors; rw [State.freeVersions_boot]
  exact foldl_keeps State.boot _ (fun s k => by cases k <;> rfl) _ _

@[simp] theorem State.closeCursors_slots (s : State) (l : Lane) : (s.closeCursors l).slots = s.slots := by
  unfold State.closeCursors; rw [State.freeVersions_slots]
  exact foldl_keeps State.slots _ (fun s k => by cases k <;> rfl) _ _

@[simp] theorem State.release_agenda (s : State) (ps : List (Nat × Nat)) : (s.release ps).agenda = s.agenda := by
  unfold State.release; split
  · rfl
  · rw [State.freeVersions_agenda]
    exact foldl_keeps State.agenda (fun (s : State) (p : Nat × Nat) => s.unpin p.1 p.2) (fun _ _ => rfl) _ _
@[simp] theorem State.release_tempo (s : State) (ps : List (Nat × Nat)) : (s.release ps).tempo = s.tempo := by
  unfold State.release; split
  · rfl
  · rw [State.freeVersions_tempo]
    exact foldl_keeps State.tempo (fun (s : State) (p : Nat × Nat) => s.unpin p.1 p.2) (fun _ _ => rfl) _ _
@[simp] theorem State.release_fresh (s : State) (ps : List (Nat × Nat)) : (s.release ps).fresh = s.fresh := by
  unfold State.release; split
  · rfl
  · rw [State.freeVersions_fresh]
    exact foldl_keeps State.fresh (fun (s : State) (p : Nat × Nat) => s.unpin p.1 p.2) (fun _ _ => rfl) _ _
@[simp] theorem State.release_uid (s : State) (ps : List (Nat × Nat)) : (s.release ps).uid = s.uid := by
  unfold State.release; split
  · rfl
  · rw [State.freeVersions_uid]
    exact foldl_keeps State.uid (fun (s : State) (p : Nat × Nat) => s.unpin p.1 p.2) (fun _ _ => rfl) _ _
@[simp] theorem State.release_cur (s : State) (ps : List (Nat × Nat)) : (s.release ps).cur = s.cur := by
  unfold State.release; split
  · rfl
  · rw [State.freeVersions_cur]
    exact foldl_keeps State.cur (fun (s : State) (p : Nat × Nat) => s.unpin p.1 p.2) (fun _ _ => rfl) _ _
@[simp] theorem State.release_lastCore (s : State) (ps : List (Nat × Nat)) : (s.release ps).lastCore = s.lastCore := by
  unfold State.release; split
  · rfl
  · rw [State.freeVersions_lastCore]
    exact foldl_keeps State.lastCore (fun (s : State) (p : Nat × Nat) => s.unpin p.1 p.2) (fun _ _ => rfl) _ _
@[simp] theorem State.release_gtime (s : State) (ps : List (Nat × Nat)) : (s.release ps).gtime = s.gtime := by
  unfold State.release; split
  · rfl
  · rw [State.freeVersions_gtime]
    exact foldl_keeps State.gtime (fun (s : State) (p : Nat × Nat) => s.unpin p.1 p.2) (fun _ _ => rfl) _ _
@[simp] theorem State.release_dies (s : State) (ps : List (Nat × Nat)) : (s.release ps).dies = s.dies := by
  unfold State.release; split
  · rfl
  · rw [State.freeVersions_dies]
    exact foldl_keeps State.dies (fun (s : State) (p : Nat × Nat) => s.unpin p.1 p.2) (fun _ _ => rfl) _ _
@[simp] theorem State.release_warps (s : State) (ps : List (Nat × Nat)) : (s.release ps).warps = s.warps := by
  unfold State.release; split
  · rfl
  · rw [State.freeVersions_warps]
    exact foldl_keeps State.warps (fun (s : State) (p : Nat × Nat) => s.unpin p.1 p.2) (fun _ _ => rfl) _ _
@[simp] theorem State.release_teams (s : State) (ps : List (Nat × Nat)) : (s.release ps).teams = s.teams := by
  unfold State.release; split
  · rfl
  · rw [State.freeVersions_teams]
    exact foldl_keeps State.teams (fun (s : State) (p : Nat × Nat) => s.unpin p.1 p.2) (fun _ _ => rfl) _ _
@[simp] theorem State.release_grids (s : State) (ps : List (Nat × Nat)) : (s.release ps).grids = s.grids := by
  unfold State.release; split
  · rfl
  · rw [State.freeVersions_grids]
    exact foldl_keeps State.grids (fun (s : State) (p : Nat × Nat) => s.unpin p.1 p.2) (fun _ _ => rfl) _ _
@[simp] theorem State.release_cores (s : State) (ps : List (Nat × Nat)) : (s.release ps).cores = s.cores := by
  unfold State.release; split
  · rfl
  · rw [State.freeVersions_cores]
    exact foldl_keeps State.cores (fun (s : State) (p : Nat × Nat) => s.unpin p.1 p.2) (fun _ _ => rfl) _ _
@[simp] theorem State.release_mem (s : State) (ps : List (Nat × Nat)) : (s.release ps).mem = s.mem := by
  unfold State.release; split
  · rfl
  · rw [State.freeVersions_mem]
    exact foldl_keeps State.mem (fun (s : State) (p : Nat × Nat) => s.unpin p.1 p.2) (fun _ _ => rfl) _ _
@[simp] theorem State.release_sch (s : State) (ps : List (Nat × Nat)) : (s.release ps).sch = s.sch := by
  unfold State.release; split
  · rfl
  · rw [State.freeVersions_sch]
    exact foldl_keeps State.sch (fun (s : State) (p : Nat × Nat) => s.unpin p.1 p.2) (fun _ _ => rfl) _ _
@[simp] theorem State.release_bins (s : State) (ps : List (Nat × Nat)) : (s.release ps).bins = s.bins := by
  unfold State.release; split
  · rfl
  · rw [State.freeVersions_bins]
    exact foldl_keeps State.bins (fun (s : State) (p : Nat × Nat) => s.unpin p.1 p.2) (fun _ _ => rfl) _ _
@[simp] theorem State.release_pmodes (s : State) (ps : List (Nat × Nat)) : (s.release ps).pmodes = s.pmodes := by
  unfold State.release; split
  · rfl
  · rw [State.freeVersions_pmodes]
    exact foldl_keeps State.pmodes (fun (s : State) (p : Nat × Nat) => s.unpin p.1 p.2) (fun _ _ => rfl) _ _
@[simp] theorem State.release_link (s : State) (ps : List (Nat × Nat)) : (s.release ps).link = s.link := by
  unfold State.release; split
  · rfl
  · rw [State.freeVersions_link]
    exact foldl_keeps State.link (fun (s : State) (p : Nat × Nat) => s.unpin p.1 p.2) (fun _ _ => rfl) _ _
@[simp] theorem State.release_trace (s : State) (ps : List (Nat × Nat)) : (s.release ps).trace = s.trace := by
  unfold State.release; split
  · rfl
  · rw [State.freeVersions_trace]
    exact foldl_keeps State.trace (fun (s : State) (p : Nat × Nat) => s.unpin p.1 p.2) (fun _ _ => rfl) _ _
@[simp] theorem State.release_boot (s : State) (ps : List (Nat × Nat)) : (s.release ps).boot = s.boot := by
  unfold State.release; split
  · rfl
  · rw [State.freeVersions_boot]
    exact foldl_keeps State.boot (fun (s : State) (p : Nat × Nat) => s.unpin p.1 p.2) (fun _ _ => rfl) _ _

@[simp] theorem State.release_slots (s : State) (ps : List (Nat × Nat)) : (s.release ps).slots = s.slots := by
  unfold State.release; split
  · rfl
  · rw [State.freeVersions_slots]
    exact foldl_keeps State.slots (fun (s : State) (p : Nat × Nat) => s.unpin p.1 p.2) (fun _ _ => rfl) _ _

@[simp] theorem State.dropWarp_agenda (s : State) (w : Warp) : (s.dropWarp w).agenda = s.agenda := by
  show (State.freeVersions _).agenda = _
  rw [State.freeVersions_agenda]
  show (State.release _ _).agenda = _
  rw [State.release_agenda]; split <;> rfl
@[simp] theorem State.dropWarp_tempo (s : State) (w : Warp) : (s.dropWarp w).tempo = s.tempo := by
  show (State.freeVersions _).tempo = _
  rw [State.freeVersions_tempo]
  show (State.release _ _).tempo = _
  rw [State.release_tempo]; split <;> rfl
@[simp] theorem State.dropWarp_fresh (s : State) (w : Warp) : (s.dropWarp w).fresh = s.fresh := by
  show (State.freeVersions _).fresh = _
  rw [State.freeVersions_fresh]
  show (State.release _ _).fresh = _
  rw [State.release_fresh]; split <;> rfl
@[simp] theorem State.dropWarp_uid (s : State) (w : Warp) : (s.dropWarp w).uid = s.uid := by
  show (State.freeVersions _).uid = _
  rw [State.freeVersions_uid]
  show (State.release _ _).uid = _
  rw [State.release_uid]; split <;> rfl
@[simp] theorem State.dropWarp_lastCore (s : State) (w : Warp) : (s.dropWarp w).lastCore = s.lastCore := by
  show (State.freeVersions _).lastCore = _
  rw [State.freeVersions_lastCore]
  show (State.release _ _).lastCore = _
  rw [State.release_lastCore]; split <;> rfl
@[simp] theorem State.dropWarp_gtime (s : State) (w : Warp) : (s.dropWarp w).gtime = s.gtime := by
  show (State.freeVersions _).gtime = _
  rw [State.freeVersions_gtime]
  show (State.release _ _).gtime = _
  rw [State.release_gtime]; split <;> rfl
@[simp] theorem State.dropWarp_dies (s : State) (w : Warp) : (s.dropWarp w).dies = s.dies := by
  show (State.freeVersions _).dies = _
  rw [State.freeVersions_dies]
  show (State.release _ _).dies = _
  rw [State.release_dies]; split <;> rfl
@[simp] theorem State.dropWarp_teams (s : State) (w : Warp) : (s.dropWarp w).teams = s.teams := by
  show (State.freeVersions _).teams = _
  rw [State.freeVersions_teams]
  show (State.release _ _).teams = _
  rw [State.release_teams]; split <;> rfl
@[simp] theorem State.dropWarp_cores (s : State) (w : Warp) : (s.dropWarp w).cores = s.cores := by
  show (State.freeVersions _).cores = _
  rw [State.freeVersions_cores]
  show (State.release _ _).cores = _
  rw [State.release_cores]; split <;> rfl
@[simp] theorem State.dropWarp_mem (s : State) (w : Warp) : (s.dropWarp w).mem = s.mem := by
  show (State.freeVersions _).mem = _
  rw [State.freeVersions_mem]
  show (State.release _ _).mem = _
  rw [State.release_mem]; split <;> rfl
@[simp] theorem State.dropWarp_sch (s : State) (w : Warp) : (s.dropWarp w).sch = s.sch := by
  show (State.freeVersions _).sch = _
  rw [State.freeVersions_sch]
  show (State.release _ _).sch = _
  rw [State.release_sch]; split <;> rfl
@[simp] theorem State.dropWarp_bins (s : State) (w : Warp) : (s.dropWarp w).bins = s.bins := by
  show (State.freeVersions _).bins = _
  rw [State.freeVersions_bins]
  show (State.release _ _).bins = _
  rw [State.release_bins]; split <;> rfl
@[simp] theorem State.dropWarp_pmodes (s : State) (w : Warp) : (s.dropWarp w).pmodes = s.pmodes := by
  show (State.freeVersions _).pmodes = _
  rw [State.freeVersions_pmodes]
  show (State.release _ _).pmodes = _
  rw [State.release_pmodes]; split <;> rfl
@[simp] theorem State.dropWarp_link (s : State) (w : Warp) : (s.dropWarp w).link = s.link := by
  show (State.freeVersions _).link = _
  rw [State.freeVersions_link]
  show (State.release _ _).link = _
  rw [State.release_link]; split <;> rfl
@[simp] theorem State.dropWarp_trace (s : State) (w : Warp) : (s.dropWarp w).trace = s.trace := by
  show (State.freeVersions _).trace = _
  rw [State.freeVersions_trace]
  show (State.release _ _).trace = _
  rw [State.release_trace]; split <;> rfl
@[simp] theorem State.dropWarp_boot (s : State) (w : Warp) : (s.dropWarp w).boot = s.boot := by
  show (State.freeVersions _).boot = _
  rw [State.freeVersions_boot]
  show (State.release _ _).boot = _
  rw [State.release_boot]; split <;> rfl

@[simp] theorem State.dropWarp_slots (s : State) (w : Warp) : (s.dropWarp w).slots = s.slots := by
  show (State.freeVersions _).slots = _
  rw [State.freeVersions_slots]
  show (State.release _ _).slots = _
  rw [State.release_slots]; split <;> rfl

@[simp] theorem State.discardWarp_agenda (s : State) (w : Warp) : (s.discardWarp w).agenda = s.agenda := by
  unfold State.discardWarp; rw [State.dropWarp_agenda]
  exact foldl_keeps State.agenda _ (fun s l => State.closeCursors_agenda s l) _ _
@[simp] theorem State.discardWarp_tempo (s : State) (w : Warp) : (s.discardWarp w).tempo = s.tempo := by
  unfold State.discardWarp; rw [State.dropWarp_tempo]
  exact foldl_keeps State.tempo _ (fun s l => State.closeCursors_tempo s l) _ _
@[simp] theorem State.discardWarp_fresh (s : State) (w : Warp) : (s.discardWarp w).fresh = s.fresh := by
  unfold State.discardWarp; rw [State.dropWarp_fresh]
  exact foldl_keeps State.fresh _ (fun s l => State.closeCursors_fresh s l) _ _
@[simp] theorem State.discardWarp_uid (s : State) (w : Warp) : (s.discardWarp w).uid = s.uid := by
  unfold State.discardWarp; rw [State.dropWarp_uid]
  exact foldl_keeps State.uid _ (fun s l => State.closeCursors_uid s l) _ _
@[simp] theorem State.discardWarp_lastCore (s : State) (w : Warp) : (s.discardWarp w).lastCore = s.lastCore := by
  unfold State.discardWarp; rw [State.dropWarp_lastCore]
  exact foldl_keeps State.lastCore _ (fun s l => State.closeCursors_lastCore s l) _ _
@[simp] theorem State.discardWarp_gtime (s : State) (w : Warp) : (s.discardWarp w).gtime = s.gtime := by
  unfold State.discardWarp; rw [State.dropWarp_gtime]
  exact foldl_keeps State.gtime _ (fun s l => State.closeCursors_gtime s l) _ _
@[simp] theorem State.discardWarp_dies (s : State) (w : Warp) : (s.discardWarp w).dies = s.dies := by
  unfold State.discardWarp; rw [State.dropWarp_dies]
  exact foldl_keeps State.dies _ (fun s l => State.closeCursors_dies s l) _ _
@[simp] theorem State.discardWarp_teams (s : State) (w : Warp) : (s.discardWarp w).teams = s.teams := by
  unfold State.discardWarp; rw [State.dropWarp_teams]
  exact foldl_keeps State.teams _ (fun s l => State.closeCursors_teams s l) _ _
@[simp] theorem State.discardWarp_cores (s : State) (w : Warp) : (s.discardWarp w).cores = s.cores := by
  unfold State.discardWarp; rw [State.dropWarp_cores]
  exact foldl_keeps State.cores _ (fun s l => State.closeCursors_cores s l) _ _
@[simp] theorem State.discardWarp_mem (s : State) (w : Warp) : (s.discardWarp w).mem = s.mem := by
  unfold State.discardWarp; rw [State.dropWarp_mem]
  exact foldl_keeps State.mem _ (fun s l => State.closeCursors_mem s l) _ _
@[simp] theorem State.discardWarp_sch (s : State) (w : Warp) : (s.discardWarp w).sch = s.sch := by
  unfold State.discardWarp; rw [State.dropWarp_sch]
  exact foldl_keeps State.sch _ (fun s l => State.closeCursors_sch s l) _ _
@[simp] theorem State.discardWarp_bins (s : State) (w : Warp) : (s.discardWarp w).bins = s.bins := by
  unfold State.discardWarp; rw [State.dropWarp_bins]
  exact foldl_keeps State.bins _ (fun s l => State.closeCursors_bins s l) _ _
@[simp] theorem State.discardWarp_pmodes (s : State) (w : Warp) : (s.discardWarp w).pmodes = s.pmodes := by
  unfold State.discardWarp; rw [State.dropWarp_pmodes]
  exact foldl_keeps State.pmodes _ (fun s l => State.closeCursors_pmodes s l) _ _
@[simp] theorem State.discardWarp_link (s : State) (w : Warp) : (s.discardWarp w).link = s.link := by
  unfold State.discardWarp; rw [State.dropWarp_link]
  exact foldl_keeps State.link _ (fun s l => State.closeCursors_link s l) _ _
@[simp] theorem State.discardWarp_trace (s : State) (w : Warp) : (s.discardWarp w).trace = s.trace := by
  unfold State.discardWarp; rw [State.dropWarp_trace]
  exact foldl_keeps State.trace _ (fun s l => State.closeCursors_trace s l) _ _
@[simp] theorem State.discardWarp_boot (s : State) (w : Warp) : (s.discardWarp w).boot = s.boot := by
  unfold State.discardWarp; rw [State.dropWarp_boot]
  exact foldl_keeps State.boot _ (fun s l => State.closeCursors_boot s l) _ _

@[simp] theorem State.discardWarp_slots (s : State) (w : Warp) : (s.discardWarp w).slots = s.slots := by
  unfold State.discardWarp; rw [State.dropWarp_slots]
  exact foldl_keeps State.slots _ (fun s l => State.closeCursors_slots s l) _ _

@[simp] theorem Warp.forget_uid (w : Warp) (ws : List RegWrite) : (w.forget ws).uid = w.uid := rfl
@[simp] theorem Warp.forget_core (w : Warp) (ws : List RegWrite) : (w.forget ws).core = w.core := rfl
@[simp] theorem Warp.forget_slot (w : Warp) (ws : List RegWrite) : (w.forget ws).slot = w.slot := rfl
@[simp] theorem Warp.forget_grid (w : Warp) (ws : List RegWrite) : (w.forget ws).grid = w.grid := rfl
@[simp] theorem Warp.forget_team (w : Warp) (ws : List RegWrite) : (w.forget ws).team = w.team := rfl
@[simp] theorem Warp.forget_idx (w : Warp) (ws : List RegWrite) : (w.forget ws).idx = w.idx := rfl
@[simp] theorem Warp.forget_w (w : Warp) (ws : List RegWrite) : (w.forget ws).w = w.w := rfl
@[simp] theorem Warp.forget_lanes (w : Warp) (ws : List RegWrite) : (w.forget ws).lanes = w.lanes := rfl
@[simp] theorem Warp.forget_s (w : Warp) (ws : List RegWrite) : (w.forget ws).s = w.s := rfl
@[simp] theorem Warp.forget_c (w : Warp) (ws : List RegWrite) : (w.forget ws).c = w.c := rfl
@[simp] theorem Warp.forget_tok (w : Warp) (ws : List RegWrite) : (w.forget ws).tok = w.tok := rfl
@[simp] theorem Warp.forget_e (w : Warp) (ws : List RegWrite) : (w.forget ws).e = w.e := rfl
@[simp] theorem Warp.forget_wst (w : Warp) (ws : List RegWrite) : (w.forget ws).wst = w.wst := rfl
@[simp] theorem Warp.forget_key (w : Warp) (ws : List RegWrite) : (w.forget ws).key = w.key := rfl
@[simp] theorem Warp.forget_cmdseq (w : Warp) (ws : List RegWrite) : (w.forget ws).cmdseq = w.cmdseq := rfl
@[simp] theorem Warp.forget_run (w : Warp) (ws : List RegWrite) : (w.forget ws).run = w.run := rfl
@[simp] theorem Warp.forget_hold (w : Warp) (ws : List RegWrite) : (w.forget ws).hold = w.hold := rfl
@[simp] theorem Warp.forget_nextEv (w : Warp) (ws : List RegWrite) : (w.forget ws).nextEv = w.nextEv := rfl
@[simp] theorem Warp.forget_sync (w : Warp) (ws : List RegWrite) : (w.forget ws).sync = w.sync := rfl
@[simp] theorem Warp.forget_arr (w : Warp) (ws : List RegWrite) : (w.forget ws).arr = w.arr := rfl
@[simp] theorem Warp.forget_dom (w : Warp) (ws : List RegWrite) : (w.forget ws).dom = w.dom := rfl
@[simp] theorem Warp.forget_efaults (w : Warp) (ws : List RegWrite) : (w.forget ws).efaults = w.efaults := rfl
@[simp] theorem Warp.forget_cmdsDone (w : Warp) (ws : List RegWrite) : (w.forget ws).cmdsDone = w.cmdsDone := rfl
@[simp] theorem Warp.forget_readyAt (w : Warp) (ws : List RegWrite) : (w.forget ws).readyAt = w.readyAt := rfl
@[simp] theorem Warp.forget_streak (w : Warp) (ws : List RegWrite) : (w.forget ws).streak = w.streak := rfl
@[simp] theorem Warp.forget_acqFirst (w : Warp) (ws : List RegWrite) : (w.forget ws).acqFirst = w.acqFirst := rfl
@[simp] theorem Warp.forget_rgnFirst (w : Warp) (ws : List RegWrite) : (w.forget ws).rgnFirst = w.rgnFirst := rfl
@[simp] theorem Warp.forget_dbg (w : Warp) (ws : List RegWrite) : (w.forget ws).dbg = w.dbg := rfl
@[simp] theorem Warp.forget_dbgReq (w : Warp) (ws : List RegWrite) : (w.forget ws).dbgReq = w.dbgReq := rfl
@[simp] theorem Warp.forget_nextClk (w : Warp) (ws : List RegWrite) : (w.forget ws).nextClk = w.nextClk := rfl
@[simp] theorem Warp.forget_walked (w : Warp) (ws : List RegWrite) : (w.forget ws).walked = w.walked := rfl

@[simp] theorem State.occupy_warps (s : State) (w : Warp) : (s.occupy w).warps = s.warps := rfl
@[simp] theorem State.occupy_agenda (s : State) (w : Warp) : (s.occupy w).agenda = s.agenda := rfl
@[simp] theorem State.occupy_tempo (s : State) (w : Warp) : (s.occupy w).tempo = s.tempo := rfl
@[simp] theorem State.occupy_fresh (s : State) (w : Warp) : (s.occupy w).fresh = s.fresh := rfl
@[simp] theorem State.occupy_uid (s : State) (w : Warp) : (s.occupy w).uid = s.uid := rfl
@[simp] theorem State.occupy_cur (s : State) (w : Warp) : (s.occupy w).cur = s.cur := rfl
@[simp] theorem State.occupy_lastCore (s : State) (w : Warp) : (s.occupy w).lastCore = s.lastCore := rfl
@[simp] theorem State.occupy_gtime (s : State) (w : Warp) : (s.occupy w).gtime = s.gtime := rfl
@[simp] theorem State.occupy_dies (s : State) (w : Warp) : (s.occupy w).dies = s.dies := rfl
@[simp] theorem State.occupy_teams (s : State) (w : Warp) : (s.occupy w).teams = s.teams := rfl
@[simp] theorem State.occupy_grids (s : State) (w : Warp) : (s.occupy w).grids = s.grids := rfl
@[simp] theorem State.occupy_cores (s : State) (w : Warp) : (s.occupy w).cores = s.cores := rfl
@[simp] theorem State.occupy_mem (s : State) (w : Warp) : (s.occupy w).mem = s.mem := rfl
@[simp] theorem State.occupy_tabs (s : State) (w : Warp) : (s.occupy w).tabs = s.tabs := rfl
@[simp] theorem State.occupy_sch (s : State) (w : Warp) : (s.occupy w).sch = s.sch := rfl
@[simp] theorem State.occupy_bins (s : State) (w : Warp) : (s.occupy w).bins = s.bins := rfl
@[simp] theorem State.occupy_pmodes (s : State) (w : Warp) : (s.occupy w).pmodes = s.pmodes := rfl
@[simp] theorem State.occupy_host (s : State) (w : Warp) : (s.occupy w).host = s.host := rfl
@[simp] theorem State.occupy_link (s : State) (w : Warp) : (s.occupy w).link = s.link := rfl
@[simp] theorem State.occupy_trace (s : State) (w : Warp) : (s.occupy w).trace = s.trace := rfl
@[simp] theorem State.occupy_boot (s : State) (w : Warp) : (s.occupy w).boot = s.boot := rfl

@[simp] theorem State.drawn_agenda (s : State) (w : Warp) (ks : List RegKey) : (s.drawn w ks).agenda = s.agenda := by
  unfold State.drawn; split <;> rfl
@[simp] theorem State.drawn_bins (s : State) (w : Warp) (ks : List RegKey) : (s.drawn w ks).bins = s.bins := by
  unfold State.drawn; split <;> rfl
@[simp] theorem State.drawn_boot (s : State) (w : Warp) (ks : List RegKey) : (s.drawn w ks).boot = s.boot := by
  unfold State.drawn; split <;> rfl
@[simp] theorem State.drawn_slots (s : State) (w : Warp) (ks : List RegKey) : (s.drawn w ks).slots = s.slots := by
  unfold State.drawn; split <;> rfl
@[simp] theorem State.drawn_cores (s : State) (w : Warp) (ks : List RegKey) : (s.drawn w ks).cores = s.cores := by
  unfold State.drawn; split <;> rfl
@[simp] theorem State.drawn_cur (s : State) (w : Warp) (ks : List RegKey) : (s.drawn w ks).cur = s.cur := by
  unfold State.drawn; split <;> rfl
@[simp] theorem State.drawn_dies (s : State) (w : Warp) (ks : List RegKey) : (s.drawn w ks).dies = s.dies := by
  unfold State.drawn; split <;> rfl
@[simp] theorem State.drawn_grids (s : State) (w : Warp) (ks : List RegKey) : (s.drawn w ks).grids = s.grids := by
  unfold State.drawn; split <;> rfl
@[simp] theorem State.drawn_gtime (s : State) (w : Warp) (ks : List RegKey) : (s.drawn w ks).gtime = s.gtime := by
  unfold State.drawn; split <;> rfl
@[simp] theorem State.drawn_host (s : State) (w : Warp) (ks : List RegKey) : (s.drawn w ks).host = s.host := by
  unfold State.drawn; split <;> rfl
@[simp] theorem State.drawn_lastCore (s : State) (w : Warp) (ks : List RegKey) : (s.drawn w ks).lastCore = s.lastCore := by
  unfold State.drawn; split <;> rfl
@[simp] theorem State.drawn_link (s : State) (w : Warp) (ks : List RegKey) : (s.drawn w ks).link = s.link := by
  unfold State.drawn; split <;> rfl
@[simp] theorem State.drawn_mem (s : State) (w : Warp) (ks : List RegKey) : (s.drawn w ks).mem = s.mem := by
  unfold State.drawn; split <;> rfl
@[simp] theorem State.drawn_pmodes (s : State) (w : Warp) (ks : List RegKey) : (s.drawn w ks).pmodes = s.pmodes := by
  unfold State.drawn; split <;> rfl
@[simp] theorem State.drawn_sch (s : State) (w : Warp) (ks : List RegKey) : (s.drawn w ks).sch = s.sch := by
  unfold State.drawn; split <;> rfl
@[simp] theorem State.drawn_tabs (s : State) (w : Warp) (ks : List RegKey) : (s.drawn w ks).tabs = s.tabs := by
  unfold State.drawn; split <;> rfl
@[simp] theorem State.drawn_teams (s : State) (w : Warp) (ks : List RegKey) : (s.drawn w ks).teams = s.teams := by
  unfold State.drawn; split <;> rfl
@[simp] theorem State.drawn_tempo (s : State) (w : Warp) (ks : List RegKey) : (s.drawn w ks).tempo = s.tempo := by
  unfold State.drawn; split <;> rfl
@[simp] theorem State.drawn_trace (s : State) (w : Warp) (ks : List RegKey) : (s.drawn w ks).trace = s.trace := by
  unfold State.drawn; split <;> rfl
@[simp] theorem State.drawn_uid (s : State) (w : Warp) (ks : List RegKey) : (s.drawn w ks).uid = s.uid := by
  unfold State.drawn; split <;> rfl
@[simp] theorem State.drawn_warps (s : State) (w : Warp) (ks : List RegKey) : (s.drawn w ks).warps = s.warps := by
  unfold State.drawn; split <;> rfl

@[simp] theorem Warp.enterTok_uid (w : Warp) (k : BitVec 3) (n : Nat) (b : Bool) : (w.enterTok k n b).uid = w.uid := by
  unfold Warp.enterTok; split <;> rfl
@[simp] theorem Warp.enterTok_core (w : Warp) (k : BitVec 3) (n : Nat) (b : Bool) : (w.enterTok k n b).core = w.core := by
  unfold Warp.enterTok; split <;> rfl
@[simp] theorem Warp.enterTok_slot (w : Warp) (k : BitVec 3) (n : Nat) (b : Bool) : (w.enterTok k n b).slot = w.slot := by
  unfold Warp.enterTok; split <;> rfl
@[simp] theorem Warp.enterTok_grid (w : Warp) (k : BitVec 3) (n : Nat) (b : Bool) : (w.enterTok k n b).grid = w.grid := by
  unfold Warp.enterTok; split <;> rfl
@[simp] theorem Warp.enterTok_team (w : Warp) (k : BitVec 3) (n : Nat) (b : Bool) : (w.enterTok k n b).team = w.team := by
  unfold Warp.enterTok; split <;> rfl
@[simp] theorem Warp.enterTok_idx (w : Warp) (k : BitVec 3) (n : Nat) (b : Bool) : (w.enterTok k n b).idx = w.idx := by
  unfold Warp.enterTok; split <;> rfl
@[simp] theorem Warp.enterTok_w (w : Warp) (k : BitVec 3) (n : Nat) (b : Bool) : (w.enterTok k n b).w = w.w := by
  unfold Warp.enterTok; split <;> rfl
@[simp] theorem Warp.enterTok_lanes (w : Warp) (k : BitVec 3) (n : Nat) (b : Bool) : (w.enterTok k n b).lanes = w.lanes := by
  unfold Warp.enterTok; split <;> rfl
@[simp] theorem Warp.enterTok_s (w : Warp) (k : BitVec 3) (n : Nat) (b : Bool) : (w.enterTok k n b).s = w.s := by
  unfold Warp.enterTok; split <;> rfl
@[simp] theorem Warp.enterTok_c (w : Warp) (k : BitVec 3) (n : Nat) (b : Bool) : (w.enterTok k n b).c = w.c := by
  unfold Warp.enterTok; split <;> rfl
@[simp] theorem Warp.enterTok_e (w : Warp) (k : BitVec 3) (n : Nat) (b : Bool) : (w.enterTok k n b).e = w.e := by
  unfold Warp.enterTok; split <;> rfl
@[simp] theorem Warp.enterTok_wst (w : Warp) (k : BitVec 3) (n : Nat) (b : Bool) : (w.enterTok k n b).wst = w.wst := by
  unfold Warp.enterTok; split <;> rfl
@[simp] theorem Warp.enterTok_key (w : Warp) (k : BitVec 3) (n : Nat) (b : Bool) : (w.enterTok k n b).key = w.key := by
  unfold Warp.enterTok; split <;> rfl
@[simp] theorem Warp.enterTok_cmdseq (w : Warp) (k : BitVec 3) (n : Nat) (b : Bool) : (w.enterTok k n b).cmdseq = w.cmdseq := by
  unfold Warp.enterTok; split <;> rfl
@[simp] theorem Warp.enterTok_run (w : Warp) (k : BitVec 3) (n : Nat) (b : Bool) : (w.enterTok k n b).run = w.run := by
  unfold Warp.enterTok; split <;> rfl
@[simp] theorem Warp.enterTok_hold (w : Warp) (k : BitVec 3) (n : Nat) (b : Bool) : (w.enterTok k n b).hold = w.hold := by
  unfold Warp.enterTok; split <;> rfl
@[simp] theorem Warp.enterTok_flight (w : Warp) (k : BitVec 3) (n : Nat) (b : Bool) : (w.enterTok k n b).flight = w.flight := by
  unfold Warp.enterTok; split <;> rfl
@[simp] theorem Warp.enterTok_pend (w : Warp) (k : BitVec 3) (n : Nat) (b : Bool) : (w.enterTok k n b).pend = w.pend := by
  unfold Warp.enterTok; split <;> rfl
@[simp] theorem Warp.enterTok_nextEv (w : Warp) (k : BitVec 3) (n : Nat) (b : Bool) : (w.enterTok k n b).nextEv = w.nextEv := by
  unfold Warp.enterTok; split <;> rfl
@[simp] theorem Warp.enterTok_sync (w : Warp) (k : BitVec 3) (n : Nat) (b : Bool) : (w.enterTok k n b).sync = w.sync := by
  unfold Warp.enterTok; split <;> rfl
@[simp] theorem Warp.enterTok_arr (w : Warp) (k : BitVec 3) (n : Nat) (b : Bool) : (w.enterTok k n b).arr = w.arr := by
  unfold Warp.enterTok; split <;> rfl
@[simp] theorem Warp.enterTok_dom (w : Warp) (k : BitVec 3) (n : Nat) (b : Bool) : (w.enterTok k n b).dom = w.dom := by
  unfold Warp.enterTok; split <;> rfl
@[simp] theorem Warp.enterTok_efaults (w : Warp) (k : BitVec 3) (n : Nat) (b : Bool) : (w.enterTok k n b).efaults = w.efaults := by
  unfold Warp.enterTok; split <;> rfl
@[simp] theorem Warp.enterTok_cmdsDone (w : Warp) (k : BitVec 3) (n : Nat) (b : Bool) : (w.enterTok k n b).cmdsDone = w.cmdsDone := by
  unfold Warp.enterTok; split <;> rfl
@[simp] theorem Warp.enterTok_readyAt (w : Warp) (k : BitVec 3) (n : Nat) (b : Bool) : (w.enterTok k n b).readyAt = w.readyAt := by
  unfold Warp.enterTok; split <;> rfl
@[simp] theorem Warp.enterTok_streak (w : Warp) (k : BitVec 3) (n : Nat) (b : Bool) : (w.enterTok k n b).streak = w.streak := by
  unfold Warp.enterTok; split <;> rfl
@[simp] theorem Warp.enterTok_acqFirst (w : Warp) (k : BitVec 3) (n : Nat) (b : Bool) : (w.enterTok k n b).acqFirst = w.acqFirst := by
  unfold Warp.enterTok; split <;> rfl
@[simp] theorem Warp.enterTok_rgnFirst (w : Warp) (k : BitVec 3) (n : Nat) (b : Bool) : (w.enterTok k n b).rgnFirst = w.rgnFirst := by
  unfold Warp.enterTok; split <;> rfl
@[simp] theorem Warp.enterTok_dbg (w : Warp) (k : BitVec 3) (n : Nat) (b : Bool) : (w.enterTok k n b).dbg = w.dbg := by
  unfold Warp.enterTok; split <;> rfl
@[simp] theorem Warp.enterTok_dbgReq (w : Warp) (k : BitVec 3) (n : Nat) (b : Bool) : (w.enterTok k n b).dbgReq = w.dbgReq := by
  unfold Warp.enterTok; split <;> rfl
@[simp] theorem Warp.enterTok_nextClk (w : Warp) (k : BitVec 3) (n : Nat) (b : Bool) : (w.enterTok k n b).nextClk = w.nextClk := by
  unfold Warp.enterTok; split <;> rfl
@[simp] theorem Warp.enterTok_walked (w : Warp) (k : BitVec 3) (n : Nat) (b : Bool) : (w.enterTok k n b).walked = w.walked := by
  unfold Warp.enterTok; split <;> rfl

@[simp] theorem Warp.put_uid (w : Warp) (l : Nat) (k : RegKey) (x : DWord) : (w.put l k x).uid = w.uid := by
  cases k <;> rfl
@[simp] theorem Warp.put_core (w : Warp) (l : Nat) (k : RegKey) (x : DWord) : (w.put l k x).core = w.core := by
  cases k <;> rfl
@[simp] theorem Warp.put_slot (w : Warp) (l : Nat) (k : RegKey) (x : DWord) : (w.put l k x).slot = w.slot := by
  cases k <;> rfl
@[simp] theorem Warp.put_grid (w : Warp) (l : Nat) (k : RegKey) (x : DWord) : (w.put l k x).grid = w.grid := by
  cases k <;> rfl
@[simp] theorem Warp.put_team (w : Warp) (l : Nat) (k : RegKey) (x : DWord) : (w.put l k x).team = w.team := by
  cases k <;> rfl
@[simp] theorem Warp.put_idx (w : Warp) (l : Nat) (k : RegKey) (x : DWord) : (w.put l k x).idx = w.idx := by
  cases k <;> rfl
@[simp] theorem Warp.put_w (w : Warp) (l : Nat) (k : RegKey) (x : DWord) : (w.put l k x).w = w.w := by
  cases k <;> rfl
@[simp] theorem Warp.put_tok (w : Warp) (l : Nat) (k : RegKey) (x : DWord) : (w.put l k x).tok = w.tok := by
  cases k <;> rfl
@[simp] theorem Warp.put_e (w : Warp) (l : Nat) (k : RegKey) (x : DWord) : (w.put l k x).e = w.e := by
  cases k <;> rfl
@[simp] theorem Warp.put_wst (w : Warp) (l : Nat) (k : RegKey) (x : DWord) : (w.put l k x).wst = w.wst := by
  cases k <;> rfl
@[simp] theorem Warp.put_key (w : Warp) (l : Nat) (k : RegKey) (x : DWord) : (w.put l k x).key = w.key := by
  cases k <;> rfl
@[simp] theorem Warp.put_cmdseq (w : Warp) (l : Nat) (k : RegKey) (x : DWord) : (w.put l k x).cmdseq = w.cmdseq := by
  cases k <;> rfl
@[simp] theorem Warp.put_run (w : Warp) (l : Nat) (k : RegKey) (x : DWord) : (w.put l k x).run = w.run := by
  cases k <;> rfl
@[simp] theorem Warp.put_hold (w : Warp) (l : Nat) (k : RegKey) (x : DWord) : (w.put l k x).hold = w.hold := by
  cases k <;> rfl
@[simp] theorem Warp.put_flight (w : Warp) (l : Nat) (k : RegKey) (x : DWord) : (w.put l k x).flight = w.flight := by
  cases k <;> rfl
@[simp] theorem Warp.put_pend (w : Warp) (l : Nat) (k : RegKey) (x : DWord) : (w.put l k x).pend = w.pend := by
  cases k <;> rfl
@[simp] theorem Warp.put_nextEv (w : Warp) (l : Nat) (k : RegKey) (x : DWord) : (w.put l k x).nextEv = w.nextEv := by
  cases k <;> rfl
@[simp] theorem Warp.put_sync (w : Warp) (l : Nat) (k : RegKey) (x : DWord) : (w.put l k x).sync = w.sync := by
  cases k <;> rfl
@[simp] theorem Warp.put_arr (w : Warp) (l : Nat) (k : RegKey) (x : DWord) : (w.put l k x).arr = w.arr := by
  cases k <;> rfl
@[simp] theorem Warp.put_dom (w : Warp) (l : Nat) (k : RegKey) (x : DWord) : (w.put l k x).dom = w.dom := by
  cases k <;> rfl
@[simp] theorem Warp.put_efaults (w : Warp) (l : Nat) (k : RegKey) (x : DWord) : (w.put l k x).efaults = w.efaults := by
  cases k <;> rfl
@[simp] theorem Warp.put_cmdsDone (w : Warp) (l : Nat) (k : RegKey) (x : DWord) : (w.put l k x).cmdsDone = w.cmdsDone := by
  cases k <;> rfl
@[simp] theorem Warp.put_readyAt (w : Warp) (l : Nat) (k : RegKey) (x : DWord) : (w.put l k x).readyAt = w.readyAt := by
  cases k <;> rfl
@[simp] theorem Warp.put_streak (w : Warp) (l : Nat) (k : RegKey) (x : DWord) : (w.put l k x).streak = w.streak := by
  cases k <;> rfl
@[simp] theorem Warp.put_acqFirst (w : Warp) (l : Nat) (k : RegKey) (x : DWord) : (w.put l k x).acqFirst = w.acqFirst := by
  cases k <;> rfl
@[simp] theorem Warp.put_rgnFirst (w : Warp) (l : Nat) (k : RegKey) (x : DWord) : (w.put l k x).rgnFirst = w.rgnFirst := by
  cases k <;> rfl
@[simp] theorem Warp.put_dbg (w : Warp) (l : Nat) (k : RegKey) (x : DWord) : (w.put l k x).dbg = w.dbg := by
  cases k <;> rfl
@[simp] theorem Warp.put_dbgReq (w : Warp) (l : Nat) (k : RegKey) (x : DWord) : (w.put l k x).dbgReq = w.dbgReq := by
  cases k <;> rfl
@[simp] theorem Warp.put_nextClk (w : Warp) (l : Nat) (k : RegKey) (x : DWord) : (w.put l k x).nextClk = w.nextClk := by
  cases k <;> rfl
@[simp] theorem Warp.put_walked (w : Warp) (l : Nat) (k : RegKey) (x : DWord) : (w.put l k x).walked = w.walked := by
  cases k <;> rfl

end Sys2Proof.Machine
end

