-- ==== Sys2Proof/Laws/Issue.lean ====
section
/-! SUPPORT. Issue: what finding, replacing, writing back and ending a run do, and what a ready word comes to. -/

namespace Sys2Proof.Machine

/-! ### Finding -/

theorem State.warpAt_place {s : State} {c k : Nat} {w : Warp} (h : s.warpAt c k = some w) : w.core = c ∧ w.slot = k := by
  simpa using List.find?_some h

theorem find_map_keep (p : Warp → Bool) (f : Warp → Warp) (hf : ∀ x, p (f x) = p x) (l : List Warp) :
    (l.map f).find? p = (l.find? p).map f := by
  induction l with
  | nil => rfl
  | cons a l ih => simp only [List.map_cons, List.find?_cons, hf]; cases p a <;> simp [ih]

theorem find_map_id (p : Warp → Bool) (f : Warp → Warp) (hf : ∀ x, p (f x) = p x) (hp : ∀ x, p x = true → f x = x)
    (l : List Warp) : (l.map f).find? p = l.find? p := by
  rw [find_map_keep p f hf]
  cases h : l.find? p with
  | none => rfl
  | some x => simp [hp x (List.find?_some h)]

/-- An update that leaves a warp where it is. -/
def Stays (f : Warp → Warp) : Prop := ∀ x, (f x).core = x.core ∧ (f x).slot = x.slot

theorem State.warpAt_modWarp_self (s : State) (c k : Nat) (f : Warp → Warp) (hf : Stays f) :
    (s.modWarp c k f).warpAt c k = (s.warpAt c k).map f := by
  simp only [State.warpAt, State.modWarp]
  rw [find_map_keep]
  · cases h : s.warps.find? (fun w => w.core == c && w.slot == k) with
    | none => rfl
    | some x => simp [by simpa using List.find?_some h]
  · intro x; split
    · simp [(hf x).1, (hf x).2]
    · rfl

theorem State.warpAt_modWarp_ne (s : State) (c k c' k' : Nat) (f : Warp → Warp) (hf : Stays f) (h : ¬(c' = c ∧ k' = k)) :
    (s.modWarp c k f).warpAt c' k' = s.warpAt c' k' := by
  simp only [State.warpAt, State.modWarp]
  apply find_map_id
  · intro x; split
    · simp [(hf x).1, (hf x).2]
    · rfl
  · intro x hx
    have : x.core = c' ∧ x.slot = k' := by simpa using hx
    rw [if_neg]; simp; intro h1 h2; exact h ⟨this.1 ▸ h1, this.2 ▸ h2⟩

theorem State.warpAt_putWarp_self (s : State) (w : Warp) :
    (s.putWarp w).warpAt w.core w.slot = (s.warpAt w.core w.slot).map fun _ => w := by
  simp only [State.warpAt, State.putWarp]
  rw [find_map_keep]
  · cases h : s.warps.find? (fun x => x.core == w.core && x.slot == w.slot) with
    | none => rfl
    | some x => simp [by simpa using List.find?_some h]
  · intro x
    by_cases h : (x.core == w.core && x.slot == w.slot) = true
    · simp only [h, if_true, beq_self_eq_true, Bool.and_self]
    · simp only [Bool.not_eq_true] at h; simp [h]

theorem State.warpAt_putWarp_ne (s : State) (w : Warp) (c k : Nat) (h : ¬(c = w.core ∧ k = w.slot)) :
    (s.putWarp w).warpAt c k = s.warpAt c k := by
  simp only [State.warpAt, State.putWarp]
  apply find_map_id
  · intro x
    by_cases h : (x.core == w.core && x.slot == w.slot) = true
    · have : x.core = w.core ∧ x.slot = w.slot := by simpa using h
      rw [if_pos h]; simp [this.1, this.2]
    · rw [if_neg h]
  · intro x hx
    have : x.core = c ∧ x.slot = k := by simpa using hx
    rw [if_neg]; simp; intro h1 h2; exact h ⟨this.1 ▸ h1, this.2 ▸ h2⟩

/-! ### Leaving -/

theorem State.warpAt_dropWarp_self (s : State) (w : Warp) : (s.dropWarp w).warpAt w.core w.slot = none := by
  simp only [State.warpAt, State.dropWarp, State.freeVersions_warps, State.release_warps]
  simp only [List.find?_eq_none, List.mem_filter]
  rintro x ⟨-, hx⟩ h
  simp_all

theorem State.warpAt_dropWarp_ne (s : State) (w : Warp) (c k : Nat) (h : ¬(c = w.core ∧ k = w.slot)) :
    (s.dropWarp w).warpAt c k = s.warpAt c k := by
  have h1 : (if w.efaults.isEmpty then s else s.modGrid w.grid fun g => { g with unreported := true }).warps = s.warps := by
    split <;> rfl
  simp only [State.warpAt, State.dropWarp, State.freeVersions_warps, State.release_warps, h1]
  induction s.warps with
  | nil => rfl
  | cons x l ih =>
    by_cases hx : (x.core == w.core && x.slot == w.slot) = true
    · have hx' : x.core = w.core ∧ x.slot = w.slot := by simpa using hx
      have hn : (x.core == c && x.slot == k) = false := by
        cases hb : (x.core == c && x.slot == k) with
        | false => rfl
        | true =>
          have hb' : x.core = c ∧ x.slot = k := by simpa using hb
          exact absurd ⟨hb'.1.symm.trans hx'.1, hb'.2.symm.trans hx'.2⟩ h
      rw [List.filter_cons_of_neg (by simp [hx]), List.find?_cons_of_neg (by simp [hn])]; exact ih
    · rw [List.filter_cons_of_pos (by rw [Bool.eq_false_of_not_eq_true hx]; rfl)]
      cases hb : (x.core == c && x.slot == k) with
      | false => rw [List.find?_cons_of_neg (by simp [hb]), List.find?_cons_of_neg (by simp [hb])]; exact ih
      | true => simp only [List.find?_cons, hb]

/-! ### Registers -/

theorem Warp.lane_modLanes (w : Warp) (ls : List Nat) (f : Lane → Lane) (i : Nat) :
    (w.modLanes ls f).lane i = if i < w.lanes.length ∧ ls.contains i = true then f (w.lane i) else w.lane i := by
  simp only [Warp.lane, Warp.modLanes, List.getD_eq_getElem?_getD, List.getElem?_map, List.getElem?_zipIdx]
  by_cases h : i < w.lanes.length
  · simp only [List.getElem?_eq_getElem h, h, true_and, Option.map_some, Option.getD_some, Nat.zero_add]
  · simp [h]

theorem Warp.lanes_modLanes (w : Warp) (ls : List Nat) (f : Lane → Lane) : (w.modLanes ls f).lanes.length = w.lanes.length := by
  simp [Warp.modLanes]

/-- An update of lanes that leaves their registers. -/
def KeepsRegs (f : Lane → Lane) : Prop := ∀ l, (f l).v = l.v ∧ (f l).p = l.p

theorem Warp.get_modLanes (w : Warp) (ls : List Nat) (f : Lane → Lane) (hf : KeepsRegs f) (l : Nat) (k : RegKey) :
    (w.modLanes ls f).get l k = w.get l k := by
  cases k with
  | v n =>
    simp only [Warp.get, Warp.lane_modLanes]; split
    · simp only [Lane.getV, (hf _).1]
    · rfl
  | p n =>
    have h : ((w.modLanes ls f).lane l).getP n = (w.lane l).getP n := by
      rw [Warp.lane_modLanes]; split
      · simp only [Lane.getP, (hf _).2]
      · rfl
    simp only [Warp.get, h]
  | s n => rfl
  | c n => rfl

/-- A warp with the same lanes, S and C registers reads the same. -/
theorem Warp.get_congr {w v : Warp} (hl : v.lanes = w.lanes) (hs : v.s = w.s) (hc : v.c = w.c) (l : Nat) (k : RegKey) :
    v.get l k = w.get l k := by
  cases k <;> simp [Warp.get, Warp.lane, Warp.getS, Warp.getC, hl, hs, hc]

theorem Warp.lane_modLane (w : Warp) (i : Nat) (f : Lane → Lane) (j : Nat) :
    (w.modLane i f).lane j = if j < w.lanes.length ∧ i = j then f (w.lane j) else w.lane j := by
  simp only [Warp.lane, Warp.modLane, List.getD_eq_getElem?_getD, List.getElem?_modify]
  by_cases h : j < w.lanes.length
  · simp only [List.getElem?_eq_getElem h, h, true_and]
    by_cases hij : i = j <;> simp [hij]
  · simp [h]

/-- A write changes of a lane no more than its registers. -/
theorem Warp.lane_put (w : Warp) (l : Nat) (k : RegKey) (x : DWord) (j : Nat) :
    ∃ v p, (w.put l k x).lane j = { w.lane j with v := v, p := p } := by
  cases k with
  | v n =>
    simp only [Warp.put, Warp.lane_modLane]; split
    · simp only [Lane.setV]; split
      · exact ⟨_, _, rfl⟩
      · exact ⟨_, _, rfl⟩
    · exact ⟨_, _, rfl⟩
  | p n =>
    simp only [Warp.put, Warp.lane_modLane]; split
    · exact ⟨_, _, rfl⟩
    · exact ⟨_, _, rfl⟩
  | s n => exact ⟨_, _, rfl⟩
  | c n => exact ⟨_, _, rfl⟩

/-- What writing registers leaves of a warp. -/
structure RegsOnly (w v : Warp) : Prop where
  same : SameWarp w v
  lane : ∀ j, ∃ x p, v.lane j = { w.lane j with v := x, p := p }
  stand : v.tok = w.tok ∧ v.nextEv = w.nextEv ∧ v.hold = w.hold ∧ v.readyAt = w.readyAt ∧ v.dbg = w.dbg ∧ v.dbgReq = w.dbgReq

theorem SameWarp.refl (w : Warp) : SameWarp w w :=
  ⟨by simp, rfl, rfl, rfl, rfl, rfl, rfl, rfl, rfl, rfl, rfl, by simp⟩

theorem SameWarp.trans {u w v : Warp} (a : SameWarp u w) (b : SameWarp w v) : SameWarp u v := by
  refine ⟨?_, b.wst.trans a.wst, b.key.trans a.key, b.cmdseq.trans a.cmdseq, b.e.trans a.e, b.sync.trans a.sync,
    b.arr.trans a.arr, b.dom.trans a.dom, b.efaults.trans a.efaults, b.cmdsDone.trans a.cmdsDone, b.lanes.trans a.lanes, ?_⟩
  · have h1 := a.name; have h2 := b.name; simp_all
  · intro l; have h1 := a.lane l; have h2 := b.lane l; simp_all

theorem RegsOnly.refl (w : Warp) : RegsOnly w w :=
  ⟨SameWarp.refl w, fun j => ⟨_, _, rfl⟩, by simp⟩

theorem RegsOnly.trans {u w v : Warp} (h : RegsOnly u w) (g : RegsOnly w v) : RegsOnly u v := by
  refine ⟨h.same.trans g.same, fun j => ?_, ?_⟩
  · obtain ⟨a, b, hj⟩ := h.lane j; obtain ⟨c, d, gj⟩ := g.lane j
    exact ⟨c, d, by rw [gj, hj]⟩
  · have h1 := h.stand; have g1 := g.stand; simp_all

theorem Warp.regsOnly_put (w : Warp) (l : Nat) (k : RegKey) (x : DWord) : RegsOnly w (w.put l k x) := by
  refine ⟨⟨by simp, by simp, by simp, by simp, by simp, by simp, by simp, by simp, by simp, by simp, ?_, ?_⟩,
    Warp.lane_put w l k x, by simp⟩
  · cases k <;> simp [Warp.put, Warp.modLane]
  · intro j
    obtain ⟨a, b, h⟩ := Warp.lane_put w l k x j
    simp [h]

theorem Warp.regsOnly_write (w : Warp) (r : RegWrite) : RegsOnly w (w.write r) := by
  have h := Warp.regsOnly_put w r.lane r.key r.val
  exact ⟨⟨h.same.name, h.same.wst, h.same.key, h.same.cmdseq, h.same.e, h.same.sync, h.same.arr, h.same.dom, h.same.efaults,
    h.same.cmdsDone, h.same.lanes, h.same.lane⟩, h.lane, h.stand⟩

theorem Warp.regsOnly_writes (ws : List RegWrite) : ∀ w : Warp, RegsOnly w (w.writes ws) := by
  induction ws with
  | nil => exact RegsOnly.refl
  | cons r ws ih => intro w; exact (Warp.regsOnly_write w r).trans (ih _)

theorem regsOnly_foldl {α : Type} (f : Warp → α → Warp) (hf : ∀ w a, RegsOnly w (f w a)) (l : List α) :
    ∀ w, RegsOnly w (l.foldl f w) := by
  induction l with
  | nil => exact RegsOnly.refl
  | cons a l ih => intro w; exact (hf w a).trans (ih _)

/-- A last use changes registers, and what is still on its way into them. -/
theorem Warp.regsOnly_useUp (w : Warp) (l : Nat) (k : RegKey) (p : DWord) : RegsOnly w (w.useUp l k p) := by
  have h := Warp.regsOnly_put w l k (if w.flight.any fun f => !f.sure && samePlace f.key f.lane k l then
    racyPick (2 ^ 80 + w.uid * 2 ^ 40 + w.nextEv) l k (w.get l k) p else p)
  exact ⟨⟨h.same.name, h.same.wst, h.same.key, h.same.cmdseq, h.same.e, h.same.sync, h.same.arr, h.same.dom, h.same.efaults,
    h.same.cmdsDone, h.same.lanes, h.same.lane⟩, h.lane, h.stand⟩

theorem Warp.regsOnly_lastUses (w : Warp) (i : WordInfo) (act : List Nat) : RegsOnly w (w.lastUses i act) := by
  refine regsOnly_foldl _ (fun w a => ?_) _ _
  refine regsOnly_foldl _ (fun w k => ?_) _ _
  split
  · exact regsOnly_foldl _ (fun w l => Warp.regsOnly_useUp _ _ _ _) _ _
  · exact Warp.regsOnly_useUp _ _ _ _

theorem Warp.regsOnly_after (w : Warp) (i : WordInfo) (act : List Nat) (ws : List RegWrite) : RegsOnly w (w.after i act ws) :=
  (Warp.regsOnly_lastUses w i act).trans (Warp.regsOnly_writes ws _)

/-! ### What a word leaves behind -/

/-- Two warps with the same register files. -/
structure SameFiles (w v : Warp) : Prop where
  lanes : v.lanes = w.lanes
  s : v.s = w.s
  c : v.c = w.c

theorem SameFiles.put {w v : Warp} (h : SameFiles w v) (l : Nat) (k : RegKey) (x : DWord) : SameFiles (w.put l k x) (v.put l k x) := by
  cases k <;> exact ⟨by simp [Warp.put, Warp.modLane, h.lanes], by simp [Warp.put, Warp.modLane, h.s],
    by simp [Warp.put, Warp.modLane, h.c]⟩

theorem SameFiles.writes {ws : List RegWrite} : ∀ {w v : Warp}, SameFiles w v → SameFiles (w.writes ws) (v.writes ws) := by
  induction ws with
  | nil => intro w v h; exact h
  | cons r ws ih =>
    intro w v h
    have h1 := h.put r.lane r.key r.val
    exact ih (w := w.write r) (v := v.write r) ⟨h1.lanes, h1.s, h1.c⟩

theorem SameFiles.get {w v : Warp} (h : SameFiles w v) (l : Nat) (k : RegKey) : v.get l k = w.get l k :=
  Warp.get_congr h.lanes h.s h.c l k

/-- An update of a run that changes no more than its held values. -/
def KeepsRun (f : Run → Run) : Prop :=
  ∀ r, (f r).lanes = r.lanes ∧ (f r).start = r.start ∧ (f r).pc = r.pc ∧ (f r).n = r.n ∧ (f r).stopAfter = r.stopAfter

theorem Warp.run_writes (ws : List RegWrite) : ∀ w : Warp, ∃ f, KeepsRun f ∧ (w.writes ws).run = w.run.map f := by
  induction ws with
  | nil => intro w; exact ⟨id, fun r => by simp, by simp [Warp.writes]⟩
  | cons r ws ih =>
    intro w
    obtain ⟨f, hf, h⟩ := ih (w.write r)
    refine ⟨fun q => f { q with latch := q.latch.filter fun h => !samePlace h.key h.lane r.key r.lane }, fun q => ?_, ?_⟩
    · have := hf { q with latch := q.latch.filter fun h => !samePlace h.key h.lane r.key r.lane }
      simpa using this
    · have h2 : (w.write r).run = w.run.map fun q => { q with
          latch := q.latch.filter fun h => !samePlace h.key h.lane r.key r.lane } := by
        simp [Warp.write, Warp.unlatch]
      have h3 : w.writes (r :: ws) = (w.write r).writes ws := rfl
      rw [h3, h, h2]; cases w.run <;> simp

/-- Folds over warps that agree, step by step, up to a map. -/
theorem foldl_map {α σ : Type} (m : σ → σ) (f : σ → α → σ) (hf : ∀ w a, f (m w) a = m (f w a)) (l : List α) :
    ∀ w, l.foldl f (m w) = m (l.foldl f w) := by
  induction l with
  | nil => intro w; rfl
  | cons a l ih => intro w; simp only [List.foldl_cons]; rw [hf, ih]

theorem Warp.useUp_run (w : Warp) (q : Option Run) (l : Nat) (k : RegKey) (p : DWord) :
    ({ w with run := q } : Warp).useUp l k p = { w.useUp l k p with run := q } := by
  cases k <;> rfl

/-- A last use does not depend on the run. -/
theorem Warp.lastUses_run (w : Warp) (q : Option Run) (i : WordInfo) (act : List Nat) :
    ({ w with run := q } : Warp).lastUses i act = { w.lastUses i act with run := q } := by
  refine foldl_map (fun w : Warp => { w with run := q }) _ (fun w a => ?_) _ w
  refine foldl_map (fun w : Warp => { w with run := q }) _ (fun w k => ?_) _ w
  split
  · exact foldl_map (fun w : Warp => { w with run := q }) _ (fun w l => Warp.useUp_run w q l _ _) _ w
  · exact Warp.useUp_run w q _ _ _

theorem Warp.run_lastUses (w : Warp) (i : WordInfo) (act : List Nat) : (w.lastUses i act).run = w.run := by
  show (({ w with run := w.run } : Warp).lastUses i act).run = w.run
  rw [Warp.lastUses_run]

/-- What a word that writes `ws` leaves of the warp it began with. -/
structure Left (w : Warp) (i : WordInfo) (act : List Nat) (ws : List RegWrite) (v : Warp) : Prop where
  files : SameFiles (w.after i act ws) v
  same : SameWarp w v
  run : ∃ f, KeepsRun f ∧ v.run = w.run.map f
  stand : v.hold = w.hold ∧ v.readyAt = w.readyAt ∧ v.dbg = w.dbg ∧ v.dbgReq = w.dbgReq
  pcs : ∀ l, (v.lane l).pc = (w.lane l).pc
  sts : ∀ l, (v.lane l).st = (w.lane l).st

theorem Left.congr {w v u : Warp} {i : WordInfo} {act : List Nat} {ws : List RegWrite} (h : Left w i act ws v)
    (e : ∃ fl tk pe ne wk nc, u = { v with flight := fl, tok := tk, pend := pe, nextEv := ne, walked := wk, nextClk := nc }) :
    Left w i act ws u := by
  obtain ⟨fl, tk, pe, ne, wk, nc, rfl⟩ := e
  have b := h.same
  exact ⟨⟨h.files.lanes, h.files.s, h.files.c⟩, ⟨b.name, b.wst, b.key, b.cmdseq, b.e, b.sync, b.arr, b.dom, b.efaults,
    b.cmdsDone, b.lanes, b.lane⟩, h.run, h.stand, h.pcs, h.sts⟩

theorem Left.enterTok {w v : Warp} {i : WordInfo} {act : List Nat} {ws : List RegWrite} (h : Left w i act ws v)
    (k : BitVec 3) (n : Nat) (b : Bool) : Left w i act ws (v.enterTok k n b) := by
  unfold Warp.enterTok; split
  · exact h
  · exact h.congr ⟨_, _, _, _, _, _, rfl⟩

theorem Left.first (w : Warp) (i : WordInfo) (act : List Nat) (ws : List RegWrite) (g : Run → Run) (hg : KeepsRun g) (n : Nat) :
    Left w i act ws ((({ w.lastUses i act with run := (w.lastUses i act).run.map g } : Warp).tick n).result ws) := by
  let w1 := w.lastUses i act
  let w3 := (({ w1 with run := w1.run.map g } : Warp).tick n).forget ws
  have hfiles : SameFiles (w.after i act ws) (w3.writes ws) := SameFiles.writes (w := w1) (v := w3) ⟨rfl, rfl, rfl⟩
  have h13 : RegsOnly w w1 := Warp.regsOnly_lastUses w i act
  have hw : RegsOnly w3 (w3.writes ws) := Warp.regsOnly_writes ws w3
  have a : SameWarp w w3 :=
    ⟨h13.same.name, h13.same.wst, h13.same.key, h13.same.cmdseq, h13.same.e, h13.same.sync, h13.same.arr, h13.same.dom,
      h13.same.efaults, h13.same.cmdsDone, h13.same.lanes, h13.same.lane⟩
  have b := hw.same
  obtain ⟨f, hf, hrun⟩ := Warp.run_writes ws w3
  have hrun3 : w3.run = w.run.map g := by
    show (w1.run.map g) = _
    rw [Warp.run_lastUses]
  refine ⟨hfiles, a.trans b, ⟨fun r => f (g r), ?_, ?_⟩, ?_, fun l => ?_, fun l => ?_⟩
  · intro r; have h1 := hf (g r); have h2 := hg r; simp_all
  · show (w3.writes ws).run = _
    rw [hrun, hrun3]; cases w.run <;> simp
  · have h1 := h13.stand; have h2 := hw.stand
    exact ⟨h2.2.2.1.trans h1.2.2.1, h2.2.2.2.1.trans h1.2.2.2.1, h2.2.2.2.2.1.trans h1.2.2.2.2.1,
      h2.2.2.2.2.2.trans h1.2.2.2.2.2⟩
  · obtain ⟨x, p, h1⟩ := h13.lane l
    obtain ⟨y, q, h2⟩ := hw.lane l
    show ((w3.writes ws).lane l).pc = _
    rw [h2]; show (w1.lane l).pc = _; rw [h1]
  · obtain ⟨x, p, h1⟩ := h13.lane l
    obtain ⟨y, q, h2⟩ := hw.lane l
    show ((w3.writes ws).lane l).st = _
    rw [h2]; show (w1.lane l).st = _; rw [h1]

/-- The results of a word do not depend on the run. -/
theorem Warp.after_run (w : Warp) (q : Option Run) (i : WordInfo) (act : List Nat) (ws : List RegWrite) :
    SameFiles (w.after i act ws) (({ w with run := q } : Warp).after i act ws) := by
  unfold Warp.after
  rw [Warp.lastUses_run w q]
  exact SameFiles.writes (w := w.lastUses i act) (v := { w.lastUses i act with run := q }) ⟨rfl, rfl, rfl⟩

/-- A word that only writes registers leaves its results in the registers, and nothing else of the warp but tokens, latencies
and its run is changed. -/
theorem Warp.leave_spec (w : Warp) (i : WordInfo) (x : Wx) (ws : List RegWrite) :
    Left w i x.act ws (w.leave i x ws none []) := by
  have first := fun g hg => Left.first w i x.act ws g hg (stallOf i.ctl.sch)
  have results : ∀ v : Warp, Left w i x.act ws (v.result ws) → Left w i x.act ws (v.results i ws none) := by
    intro v h
    unfold Warp.results
    split
    · exact h
    · exact h.congr ⟨_, _, _, _, _, _, rfl⟩
  simp only [Warp.leave]
  split
  · refine (((results _ (first _ ?_)).enterTok i.ctl.sch.setw w.nextEv true).enterTok i.ctl.sch.setr w.nextEv true).congr
      ⟨_, _, _, _, _, _, rfl⟩
    intro r; simp
  · refine (((((results _ (first _ ?_)).congr ⟨_, _, _, _, _, _, rfl⟩).enterTok i.ctl.sch.setw w.nextEv _).enterTok
      i.ctl.sch.setr w.nextEv _)).congr ⟨_, _, _, _, _, _, rfl⟩
    intro r; simp

/-! ### The end of a run -/

theorem State.warpAt_of_warps {s t : State} (h : t.warps = s.warps) (c k : Nat) : t.warpAt c k = s.warpAt c k := by
  simp [State.warpAt, h]

theorem State.warpAt_discardWarp_self (s : State) (w : Warp) : (s.discardWarp w).warpAt w.core w.slot = none :=
  State.warpAt_dropWarp_self _ _

theorem State.warpAt_discardWarp_ne (s : State) (w : Warp) (c k : Nat) (h : ¬(c = w.core ∧ k = w.slot)) :
    (s.discardWarp w).warpAt c k = s.warpAt c k := by
  unfold State.discardWarp
  rw [State.warpAt_dropWarp_ne _ _ _ _ h]
  exact State.warpAt_of_warps (foldl_keeps State.warps _ (fun s l => State.closeCursors_warps s l) _ _) c k

/-- The warp after the end of its run. -/
def Warp.rest (w : Warp) (r : Run) (now : Nat) : Warp :=
  { (w.unpark r.lanes) with
    run := none
    readyAt := now
    dbgReq := r.stopAfter.elim w.dbgReq fun q => mergeStop w.dbgReq q }

theorem KeepsRegs.pc (f : Lane → Word) : KeepsRegs fun l => { l with pc := f l } := fun _ => ⟨rfl, rfl⟩
theorem KeepsRegs.st (f : Lane → LaneSt) : KeepsRegs fun l => { l with st := f l } := fun _ => ⟨rfl, rfl⟩

/-- An update of lanes that changes no more than where they stand. -/
def Moves (f : Lane → Lane) : Prop := ∀ l, ∃ p st ow, f l = { l with pc := p, st := st, owed := ow }

theorem Moves.keeps {f : Lane → Lane} (h : Moves f) : KeepsRegs f := fun l => by
  obtain ⟨p, st, ow, e⟩ := h l; simp [e]

theorem Warp.same_modLanes (w : Warp) (ls : List Nat) {f : Lane → Lane} (hf : Moves f) : SameWarp w (w.modLanes ls f) := by
  refine ⟨by simp, by simp, by simp, by simp, by simp, by simp, by simp, by simp, by simp, by simp, Warp.lanes_modLanes _ _ _, ?_⟩
  intro l
  rw [Warp.lane_modLanes]; split
  · obtain ⟨p, st, ow, e⟩ := hf (w.lane l); simp [e]
  · simp

/-- An update of a warp's lanes that changes no register, no PC, and takes no lane from its threads. -/
structure Wakes (w v : Warp) : Prop where
  regs : ∀ l k, v.get l k = w.get l k
  same : SameWarp w v
  pcs : ∀ l, (v.lane l).pc = (w.lane l).pc
  alive : ∀ l, (w.lane l).st ≠ .exited → (v.lane l).st ≠ .exited

theorem Wakes.modLanes (w : Warp) (ls : List Nat) {f : Lane → Lane}
    (hf : ∀ l, ∃ st ow, f l = { l with st := st, owed := ow } ∧ (l.st ≠ .exited → st ≠ .exited)) : Wakes w (w.modLanes ls f) := by
  have hm : Moves f := fun l => by obtain ⟨st, ow, e, -⟩ := hf l; exact ⟨_, _, _, e⟩
  refine ⟨fun l k => Warp.get_modLanes _ _ _ hm.keeps l k, Warp.same_modLanes _ _ hm, fun l => ?_, fun l hl => ?_⟩
  · rw [Warp.lane_modLanes]; split
    · obtain ⟨st, ow, e, -⟩ := hf (w.lane l); rw [e]
    · rfl
  · rw [Warp.lane_modLanes]; split
    · obtain ⟨st, ow, e, h⟩ := hf (w.lane l); rw [e]; exact h hl
    · exact hl

theorem Wakes.trans {u w v : Warp} (a : Wakes u w) (b : Wakes w v) : Wakes u v :=
  ⟨fun l k => (b.regs l k).trans (a.regs l k), a.same.trans b.same, fun l => (b.pcs l).trans (a.pcs l),
    fun l h => b.alive l (a.alive l h)⟩

theorem Warp.unpark_spec (w : Warp) (g : List Nat) : Wakes w (w.unpark g) := by
  have h1 : ∀ (w : Warp) ls, Wakes w (w.modLanes ls fun l => { l with st := .ready, owed := [] }) := fun w ls =>
    Wakes.modLanes w ls fun l => ⟨_, _, rfl, fun _ => by decide⟩
  have h2 : ∀ (w : Warp) ls (still : Lane → List Nat), Wakes w (w.modLanes ls fun l =>
      if (still l).isEmpty then { l with st := .ready, owed := [] } else { l with owed := still l }) := fun w ls still =>
    Wakes.modLanes w ls fun l => by
      split
      · exact ⟨_, _, rfl, fun _ => by decide⟩
      · exact ⟨_, _, rfl, id⟩
  unfold Warp.unpark
  simp only
  split
  · exact (h2 _ _ _).trans (h1 _ _)
  · exact h2 _ _ _

theorem Warp.unpark_place (w : Warp) (g : List Nat) : (w.unpark g).core = w.core ∧ (w.unpark g).slot = w.slot := by
  have h := (Warp.unpark_spec w g).same.name
  exact ⟨h.2.1, h.2.2.1⟩

theorem Warp.rest_spec (w : Warp) (r : Run) (now : Nat) : Wakes w (w.rest r now) := by
  have h := Warp.unpark_spec w r.lanes
  exact ⟨fun l k => (Warp.get_congr rfl rfl rfl l k).trans (h.regs l k), ⟨h.same.name, h.same.wst, h.same.key, h.same.cmdseq,
    h.same.e, h.same.sync, h.same.arr, h.same.dom, h.same.efaults, h.same.cmdsDone, h.same.lanes, h.same.lane⟩, h.pcs, h.alive⟩

/-- The threads of a warp are the lanes of that kind. -/
theorem SameWarp.threads {w v : Warp} (h : SameWarp w v) : v.threads = w.threads := by
  simp only [Warp.threads, h.lanes, (h.lane _).1]

/-- A warp that stands still has a thread that has not exited after its run. -/
theorem Wakes.stands {w v : Warp} (h : Wakes w v) (hl : ∃ l ∈ w.threads, (w.lane l).st ≠ .exited) :
    (v.threads.all fun i => (v.lane i).st == .exited) = false := by
  obtain ⟨l, hm, hst⟩ := hl
  rw [Bool.eq_false_iff]
  intro hall
  exact h.alive l hst (by simpa using List.all_eq_true.1 hall l (h.same.threads ▸ hm))

theorem State.finishRun_spec {s : State} {c k : Nat} {w : Warp} {r : Run} (h : s.warpAt c k = some w) (hr : w.run = some r) :
    (∀ v, (s.finishRun c k).warpAt c k = some v → v = w.rest r s.gtime) ∧
    (∀ c' k', ¬(c' = c ∧ k' = k) → (s.finishRun c k).warpAt c' k' = s.warpAt c' k') ∧
    (Stands s w → (s.finishRun c k).warpAt c k = some (w.rest r s.gtime) ∧ SameModule s (s.finishRun c k)) := by
  have hp := State.warpAt_place h
  have hu := Warp.unpark_place w r.lanes
  have hv : (w.rest r s.gtime).core = c ∧ (w.rest r s.gtime).slot = k := ⟨hu.1.trans hp.1, hu.2.trans hp.2⟩
  let s1 : State := { s with cur := if s.cur = some (c, k) then none else s.cur }
  have hs1 : ∀ c k, s1.warpAt c k = s.warpAt c k := fun _ _ => rfl
  have hput : (s1.putWarp (w.rest r s.gtime)).warpAt c k = some (w.rest r s.gtime) := by
    have := State.warpAt_putWarp_self s1 (w.rest r s.gtime)
    rw [hv.1, hv.2, hs1, h] at this; exact this
  have hne : ∀ c' k', ¬(c' = c ∧ k' = k) → (s1.putWarp (w.rest r s.gtime)).warpAt c' k' = s.warpAt c' k' := by
    intro c' k' hk
    rw [State.warpAt_putWarp_ne _ _ _ _ (by rw [hv.1, hv.2]; exact hk)]; rfl
  have hfin : s.finishRun c k =
      (if ((s1.putWarp (w.rest r s.gtime)).gridOf (w.rest r s.gtime).grid).aborted then
        (s1.putWarp (w.rest r s.gtime)).discardWarp (w.rest r s.gtime)
      else if (w.rest r s.gtime).threads.all fun i => ((w.rest r s.gtime).lane i).st == .exited then
        (s1.putWarp (w.rest r s.gtime)).dropWarp (w.rest r s.gtime)
      else s1.putWarp (w.rest r s.gtime)) := by
    simp only [State.finishRun, h, hr]; rfl
  rw [hfin]
  have hself := State.warpAt_discardWarp_self (s1.putWarp (w.rest r s.gtime)) (w.rest r s.gtime)
  have hself2 := State.warpAt_dropWarp_self (s1.putWarp (w.rest r s.gtime)) (w.rest r s.gtime)
  rw [hv.1, hv.2] at hself hself2
  have hr1 := Warp.rest_spec w r s.gtime
  split
  · rename_i hab
    refine ⟨fun v hvv => ?_, fun c' k' hk => ?_, fun hs => ?_⟩
    · rw [hself] at hvv; cases hvv
    · rw [State.warpAt_discardWarp_ne _ _ _ _ (by rw [hv.1, hv.2]; exact hk)]; exact hne c' k' hk
    · have : (s.gridOf w.grid).aborted = true := by simpa [State.gridOf, State.grid, s1, hr1.same.name] using hab
      rw [hs.1] at this; cases this
  · split
    · rename_i hex
      refine ⟨fun v hvv => ?_, fun c' k' hk => ?_, fun hs => ?_⟩
      · rw [hself2] at hvv; cases hvv
      · rw [State.warpAt_dropWarp_ne _ _ _ _ (by rw [hv.1, hv.2]; exact hk)]; exact hne c' k' hk
      · rw [hr1.stands hs.2] at hex; cases hex
    · exact ⟨fun v hvv => by rw [hput] at hvv; exact (Option.some.inj hvv).symm, hne, fun _ =>
        ⟨hput, ⟨rfl, rfl, rfl, rfl, rfl, rfl, rfl, rfl, rfl, rfl, rfl, rfl, rfl, rfl, rfl⟩⟩⟩

theorem SameModule.refl (s : State) : SameModule s s := ⟨rfl, rfl, rfl, rfl, rfl, rfl, rfl, rfl, rfl, rfl, rfl, rfl, rfl, rfl, rfl⟩

theorem SameModule.trans {s t u : State} (a : SameModule s t) (b : SameModule t u) : SameModule s u :=
  ⟨b.gtime.trans a.gtime, b.dies.trans a.dies, b.mem.trans a.mem, b.cores.trans a.cores, b.grids.trans a.grids, b.teams.trans a.teams,
    b.bins.trans a.bins, b.pmodes.trans a.pmodes, b.sch.trans a.sch, b.link.trans a.link, b.trace.trans a.trace,
    b.boot.trans a.boot, b.agenda.trans a.agenda, b.tabs.trans a.tabs, b.host.trans a.host⟩

theorem State.sameModule_modWarp (s : State) (c k : Nat) (f : Warp → Warp) : SameModule s (s.modWarp c k f) :=
  ⟨rfl, rfl, rfl, rfl, rfl, rfl, rfl, rfl, rfl, rfl, rfl, rfl, rfl, rfl, rfl⟩

theorem State.sameModule_occupy (s : State) (w : Warp) : SameModule s (s.occupy w) :=
  ⟨rfl, rfl, rfl, rfl, rfl, rfl, rfl, rfl, rfl, rfl, rfl, rfl, rfl, rfl, rfl⟩

/-- Counting events leaves all but the counters. -/
theorem State.sameModule_count (s : State) (c k n : Nat) : SameModule s (s.count c k n) := by
  refine ⟨rfl, rfl, rfl, ?_, rfl, rfl, rfl, rfl, rfl, rfl, rfl, rfl, rfl, rfl, rfl⟩
  apply List.ext_getElem?
  intro i
  simp only [State.count, State.modCore, List.getElem?_map, List.getElem?_modify]
  split <;> cases s.cores[i]? <;> simp only [Option.map_none, Option.map_some, Option.map_eq_map]
  split <;> rfl


/-! ### On to the next word, or the end of the run -/

theorem State.advance_spec {s : State} {c k : Nat} {w : Warp} {r : Run} (fin : Bool) (h : s.warpAt c k = some w) (hr : w.run = some r) :
    (∀ v, (s.advance c k fin).warpAt c k = some v → (∀ l q, v.get l q = w.get l q) ∧ SameWarp w v ∧
      ∀ l, r.lanes.contains l = false → (v.lane l).pc = (w.lane l).pc) ∧
    (∀ c' k', ¬(c' = c ∧ k' = k) → (s.advance c k fin).warpAt c' k' = s.warpAt c' k') ∧
    (Stands s w → (∃ v, (s.advance c k fin).warpAt c k = some v) ∧ SameModule s (s.advance c k fin)) := by
  have hp := State.warpAt_place h
  simp only [State.advance, h, hr]
  split
  · have hf := State.finishRun_spec h hr
    refine ⟨fun v hv => ?_, hf.2.1, fun ha => ⟨⟨_, (hf.2.2 ha).1⟩, (hf.2.2 ha).2⟩⟩
    rw [hf.1 v hv]
    have := Warp.rest_spec w r s.gtime
    exact ⟨this.regs, this.same, fun l _ => this.pcs l⟩
  · split
    · let f : Warp → Warp := fun w => w.modLanes r.lanes fun l => { l with pc := r.pc + 1 }
      have hm : Moves fun l => { l with pc := r.pc + 1 } := fun l => ⟨_, _, _, rfl⟩
      have hst : Stays f := fun x => ⟨rfl, rfl⟩
      have h1 : (s.modWarp c k f).warpAt c k = some (f w) := by rw [State.warpAt_modWarp_self _ _ _ _ hst, h]; rfl
      have hr1 : (f w).run = some r := hr
      have hf := State.finishRun_spec h1 hr1
      refine ⟨fun v hv => ?_, fun c' k' hk => (hf.2.1 c' k' hk).trans (State.warpAt_modWarp_ne _ _ _ _ _ _ hst hk), fun ha => ?_⟩
      · rw [hf.1 v hv]
        have h2 := Warp.rest_spec (f w) r (s.modWarp c k f).gtime
        refine ⟨fun l q => (h2.regs l q).trans (Warp.get_modLanes _ _ _ hm.keeps l q),
          (Warp.same_modLanes w r.lanes hm).trans h2.same, fun l hl => ?_⟩
        rw [h2.pcs l]; show ((w.modLanes r.lanes _).lane l).pc = _
        rw [Warp.lane_modLanes, if_neg (by rw [hl]; simp)]
      · have hs : Stands (s.modWarp c k f) (f w) := by
          obtain ⟨ha, l, hm, hst⟩ := ha
          refine ⟨ha, l, (Warp.same_modLanes w r.lanes ‹_›).threads ▸ hm, ?_⟩
          show ((w.modLanes r.lanes _).lane l).st ≠ _
          rw [Warp.lane_modLanes]; split <;> exact hst
        exact ⟨⟨_, (hf.2.2 hs).1⟩, (State.sameModule_modWarp s c k f).trans (hf.2.2 hs).2⟩
    · let f : Warp → Warp := fun w => { w with run := some { r with pc := r.pc + 1, n := r.n + 1, fenced := false } }
      have hst : Stays f := fun x => ⟨rfl, rfl⟩
      refine ⟨fun v hv => ?_, fun c' k' hk => State.warpAt_modWarp_ne _ _ _ _ _ _ hst hk, fun _ =>
        ⟨⟨f w, by rw [State.warpAt_modWarp_self _ _ _ _ hst, h]; rfl⟩, State.sameModule_modWarp s c k f⟩⟩
      rw [State.warpAt_modWarp_self _ _ _ _ hst, h] at hv
      obtain rfl := Option.some.inj hv
      exact ⟨fun l q => Warp.get_congr rfl rfl rfl l q, ⟨by simp [f], rfl, rfl, rfl, rfl, rfl, rfl, rfl, rfl, rfl, rfl, by simp [f, Warp.lane]⟩,
        fun l _ => rfl⟩

/-! ### A ready word -/

theorem State.inRun_spec {s : State} {w : Warp} {r : Run} (h : s.inRun = some (w, r)) :
    s.cur = some (w.core, w.slot) ∧ s.warpAt w.core w.slot = some w ∧ w.run = some r := by
  unfold State.inRun at h
  split at h
  · cases h
  · rename_i c k hc
    split at h
    · cases h
    · rename_i w' hw
      cases hr : w'.run with
      | none => simp [hr] at h
      | some q =>
        simp only [hr, Option.map_some, Option.some.injEq, Prod.mk.injEq] at h
        obtain ⟨rfl, rfl⟩ := h
        have hp := State.warpAt_place hw
        exact ⟨by rw [hc, hp.1, hp.2], by rw [hp.1, hp.2]; exact hw, hr⟩

/-- A ready word runs its meaning, and what comes of that is its effect, with what follows it. -/
theorem runWordThen_ready {i : WordInfo} {s : State} {w : Warp} {r : Run} (h : Ready i s w r) (body : Wx → State → Eff)
    (more : Eff → Wx → State → State) :
    runWordThen i body more s = .next (more (body (seenBy i s w r) (startOf i s w r)) (seenBy i s w r)
      ((startOf i s w r).close i (seenBy i s w r) w (body (seenBy i s w r) (startOf i s w r)))) := by
  have ha : (s.actives w i.ctl.g i.uniform r.lanes).isEmpty = false := h.active
  have hc := h.checked
  simp only [runWordThen, h.run, ha, Bool.false_eq_true, if_false, State.issue, h.declared, h.aligned, h.sched, h.setw, h.setr,
    Bool.not_true, Bool.or_self]
  unfold actsOf at hc
  simp only [hc, Bool.false_eq_true, if_false]
  rfl

/-- A ready word runs its meaning, and what comes of that is its effect. -/
theorem runWord_ready {i : WordInfo} {s : State} {w : Warp} {r : Run} (h : Ready i s w r) (body : Wx → State → Eff) :
    runWord i body s = .next ((startOf i s w r).close i (seenBy i s w r) w (body (seenBy i s w r) (startOf i s w r))) :=
  runWordThen_ready h body _

/-- The state in which a ready word begins: the same module, and the warp as it was but for a breakpoint to come. -/
theorem startOf_spec {i : WordInfo} {s : State} {w : Warp} {r : Run} (h : Ready i s w r) :
    SameModule s (startOf i s w r) ∧ (startOf i s w r).grids = s.grids ∧
    (∃ q, (startOf i s w r).warpAt w.core w.slot = some { w with run := some { r with stopAfter := q } }) ∧
    ∀ c k, ¬(c = w.core ∧ k = w.slot) → (startOf i s w r).warpAt c k = s.warpAt c k := by
  obtain ⟨-, hw, hr⟩ := State.inRun_spec h.run
  have hid : (some { w with run := some { r with stopAfter := r.stopAfter } } : Option Warp) = some w := by rw [← hr]
  have hmid : SameModule s (s.midBreak w (s.gridOf w.grid) r) ∧ (s.midBreak w (s.gridOf w.grid) r).grids = s.grids ∧
      (∃ q, (s.midBreak w (s.gridOf w.grid) r).warpAt w.core w.slot = some { w with run := some { r with stopAfter := q } }) ∧
      ∀ c k, ¬(c = w.core ∧ k = w.slot) → (s.midBreak w (s.gridOf w.grid) r).warpAt c k = s.warpAt c k := by
    unfold State.midBreak
    split
    · exact ⟨SameModule.refl s, rfl, ⟨r.stopAfter, by rw [hid]; exact hw⟩, fun _ _ _ => rfl⟩
    · split
      · rename_i j _
        have hst : Stays fun w => { w with run := some { r with stopAfter := mergeStop r.stopAfter (1, j, BitVec.ofNat 64 j) } } :=
          fun x => ⟨rfl, rfl⟩
        refine ⟨State.sameModule_modWarp .., rfl, ⟨mergeStop r.stopAfter (1, j, BitVec.ofNat 64 j), ?_⟩, fun c k hk => State.warpAt_modWarp_ne _ _ _ _ _ _ hst hk⟩
        rw [State.warpAt_modWarp_self _ _ _ _ hst, hw]; rfl
      · exact ⟨SameModule.refl s, rfl, ⟨r.stopAfter, by rw [hid]; exact hw⟩, fun _ _ _ => rfl⟩
  unfold startOf State.drawn
  split
  · exact hmid
  · have m := hmid.1
    exact ⟨⟨m.gtime, m.dies, m.mem, m.cores, m.grids, m.teams, m.bins, m.pmodes, m.sch, m.link, m.trace, m.boot, m.agenda, m.tabs,
      m.host⟩, hmid.2.1, hmid.2.2.1, hmid.2.2.2⟩

/-- A ready word that only writes registers takes a next state, and does that and no more. -/
theorem aluWord_ready {i : WordInfo} {s : State} {w : Warp} {r : Run} (h : Ready i s w r) (f : Wx → List RegWrite) :
    ∃ t, aluWord i f s = .next t ∧ Writes i s w r (f (seenBy i s w r)) t := by
  refine ⟨_, runWord_ready h _, ?_⟩
  obtain ⟨hm, hg, ⟨q, hq⟩, hne⟩ := startOf_spec h
  generalize startOf i s w r = s1 at hm hg hq hne ⊢
  generalize f (seenBy i s w r) = ws
  generalize hx : seenBy i s w r = x
  have hxc : x.core = w.core ∧ x.slot = w.slot ∧ x.act = actsOf i s w r := by rw [← hx]; exact ⟨rfl, rfl, rfl⟩
  let s2 : State := ((s1.count w.core 2 1).count w.core 3 x.act.length).occupy w
  have hs2 : ∀ c k, s2.warpAt c k = s1.warpAt c k := fun _ _ => rfl
  let g : Warp → Warp := fun w => { s1.stallUntil i.ctl.sch (w.leave i x ws none []) with hold := none }
  have hst : Stays g := fun y => by
    have := (Warp.leave_spec y i x ws).same.name; exact ⟨this.2.1, this.2.2.1⟩
  let w1 : Warp := { w with run := some { r with stopAfter := q } }
  have h3 : (s2.modWarp w.core w.slot g).warpAt w.core w.slot = some (g w1) := by
    rw [State.warpAt_modWarp_self _ _ _ _ hst, hs2, hq]; rfl
  have hL := Warp.leave_spec w1 i x ws
  obtain ⟨e, he, hrun⟩ := hL.run
  have hrun' : (g w1).run = some (e { r with stopAfter := q }) := by
    show (w1.leave i x ws none []).run = _; rw [hrun]; rfl
  have hadv := State.advance_spec i.ctl.sch.fin h3 hrun'
  have hclose : s1.close i x w (.done s1 ws none []) = (s2.modWarp w.core w.slot g).advance w.core w.slot i.ctl.sch.fin := by
    simp only [State.close, List.isEmpty_nil, if_true, hxc.1, hxc.2.1]; rfl
  rw [hclose]
  have hlanes : (e { r with stopAfter := q }).lanes = r.lanes := by have := (he { r with stopAfter := q }).1; simpa using this
  have hsame : SameWarp w (g w1) := by
    have b := hL.same
    have a : SameWarp w w1 := ⟨by simp [w1], rfl, rfl, rfl, rfl, rfl, rfl, rfl, rfl, rfl, rfl, by simp [w1, Warp.lane]⟩
    have c := a.trans b
    exact ⟨c.name, c.wst, c.key, c.cmdseq, c.e, c.sync, c.arr, c.dom, c.efaults, c.cmdsDone, c.lanes, c.lane⟩
  have hstand : Stands s w → Stands (s2.modWarp w.core w.slot g) (g w1) := by
    rintro ⟨ha, l, hl, hst⟩
    refine ⟨?_, l, hsame.threads ▸ hl, ?_⟩
    · have : (g w1).grid = w.grid := hsame.name.2.2.2.1
      rw [this]
      show (s1.gridOf w.grid).aborted = false
      simpa [State.gridOf, State.grid, hg] using ha
    · have : ((g w1).lane l).st = (w.lane l).st := hL.sts l
      rw [this]; exact hst
  refine ⟨fun v hv l k => ?_, fun v hv => hsame.trans (hadv.1 v hv).2.1, fun v hv l hl => ?_, fun c k hk => ?_,
    fun ha => (hadv.2.2 (hstand ha)).1, fun ha => ?_⟩
  · rw [(hadv.1 v hv).1 l k]
    have h1 : (g w1).get l k = (w1.leave i x ws none []).get l k := Warp.get_congr rfl rfl rfl l k
    rw [h1, hL.files.get l k, hxc.2.2]
    exact (Warp.after_run w _ i (actsOf i s w r) ws).get l k
  · rw [(hadv.1 v hv).2.2 l (by rw [hlanes]; exact hl)]
    have h1 := hL.pcs l
    exact h1
  · rw [hadv.2.1 c k hk, State.warpAt_modWarp_ne _ _ _ _ _ _ hst hk, hs2, hne c k hk]
  · refine (hm.trans ((State.sameModule_count s1 _ _ _).trans ((State.sameModule_count _ _ _ _).trans
      ((State.sameModule_occupy _ _).trans (State.sameModule_modWarp s2 _ _ _))))).trans (hadv.2.2 (hstand ha)).2

end Sys2Proof.Machine
end

