-- ==== Sys2Proof/Laws/Store.lean ====
section
/-! SUPPORT. Stores: what merged stores write into a block, and what an instruction comes to whose accesses are all stores to
scratchpads. -/

namespace Sys2Proof.Machine

/-- The last of a list of stores that covers byte `b`. -/
def storedAt (ws : List (Nat × List Byte)) (b : Nat) : Option Byte :=
  ws.foldl (fun a w => if w.1 ≤ b ∧ b < w.1 + w.2.length then some (w.2.getD (b - w.1) 0) else a) none

theorem patch_length (d x : List Byte) (o : Nat) (h : o + x.length ≤ d.length) : (patch d o x).length = d.length := by
  simp [patch]; omega

theorem patch_get (d x : List Byte) (o b : Nat) (h : o + x.length ≤ d.length) :
    (patch d o x).getD b 0 = if o ≤ b ∧ b < o + x.length then x.getD (b - o) 0 else d.getD b 0 := by
  simp only [patch, List.getD_eq_getElem?_getD, List.getElem?_append, List.length_append, List.length_take,
    List.getElem?_take, List.getElem?_drop, Nat.min_eq_left (show o ≤ d.length by omega)]
  by_cases h1 : b < o
  · rw [if_pos (by omega), if_pos h1, if_pos h1, if_neg (by omega)]
  · by_cases h2 : b < o + x.length
    · rw [if_pos h2, if_neg h1, if_pos (by omega)]
    · rw [if_neg h2, if_neg (by omega)]; congr 2; omega

/-- What a list of operations writes into a block. -/
def applied (ops : List LineOp) (d : List Byte) : List Byte := (runOps ops d 0).1

theorem runOps_go (ops : List LineOp) (d : List Byte) (p : BitVec 4) (rs : List LaneRes)
    (h : ∀ o ∈ ops, ∃ off b, o = .write off b) :
    (ops.foldl (fun (d, p, rs) op => let (d', p', r) := op.run d p; (d', p', rs ++ r)) (d, p, rs)).1 =
      ops.foldl (fun d o => match o with
        | .write off b => patch d off b
        | _ => d) d ∧
    (ops.foldl (fun (d, p, rs) op => let (d', p', r) := op.run d p; (d', p', rs ++ r)) (d, p, rs)).2.2 = rs := by
  induction ops generalizing d p with
  | nil => exact ⟨rfl, rfl⟩
  | cons o r ih =>
    obtain ⟨off, b, rfl⟩ := h o (by simp)
    simp only [List.foldl_cons, LineOp.run, List.append_nil]
    exact ih _ _ (fun o ho => h o (by simp [ho]))

theorem go_spec (arr : List (Option Byte)) : ∀ (i : Nat) (acc d : List Byte), acc.length ≤ i → i + arr.length ≤ d.length →
    (∀ o ∈ mergeStores.go arr i acc, ∃ off b, o = LineOp.write off b) ∧
    ((mergeStores.go arr i acc).foldl (fun d o => match o with
      | .write off b => patch d off b
      | _ => d) d).length = d.length ∧
    ∀ b, ((mergeStores.go arr i acc).foldl (fun d o => match o with
      | .write off b => patch d off b
      | _ => d) d).getD b 0 =
      if i - acc.length ≤ b ∧ b < i then acc.getD (b - (i - acc.length)) 0
      else if i ≤ b ∧ b < i + arr.length then (arr.getD (b - i) none).getD (d.getD b 0) else d.getD b 0 := by
  induction arr with
  | nil =>
    intro i acc d ha hd
    simp only [mergeStores.go]
    cases acc with
    | nil =>
      refine ⟨by simp, rfl, fun b => ?_⟩
      have n1 : ¬ (i - ([] : List Byte).length ≤ b ∧ b < i) := by rw [List.length_nil]; omega
      have n2 : ¬ (i ≤ b ∧ b < i + ([] : List (Option Byte)).length) := by rw [List.length_nil]; omega
      rw [if_neg n1, if_neg n2]; rfl
    | cons a t =>
      have hp : i - (a :: t).length + (a :: t).length ≤ d.length := by simp only [List.length_nil] at hd; omega
      refine ⟨?_, ?_, ?_⟩
      · intro o ho; simp at ho; exact ⟨_, _, ho⟩
      · simpa using patch_length d (a :: t) (i - (a :: t).length) hp
      · intro b
        have := patch_get d (a :: t) (i - (a :: t).length) b hp
        simp only [List.isEmpty_cons, Bool.false_eq_true, if_false, List.foldl_cons, List.foldl_nil]
        rw [this]
        by_cases h : i - (a :: t).length ≤ b ∧ b < i
        · rw [if_pos (by omega), if_pos h]
        · rw [if_neg (by omega), if_neg h, if_neg (by simp only [List.length_nil]; omega)]
  | cons x r ih =>
    intro i acc d ha hd
    simp only [List.length_cons] at hd
    cases x with
    | some v =>
      simp only [mergeStores.go]
      obtain ⟨h1, h2, h3⟩ := ih (i + 1) (acc ++ [v]) d (by simp; omega) (by omega)
      refine ⟨h1, h2, fun b => ?_⟩
      rw [h3 b]
      simp only [List.length_append, List.length_cons, List.length_nil]
      have e : i + 1 - (acc.length + (0 + 1)) = i - acc.length := by omega
      rw [e]
      by_cases hA : i - acc.length ≤ b ∧ b < i
      · rw [if_pos (by omega), if_pos hA, List.getD_append _ _ _ _ (by omega)]
      · rw [if_neg hA]
        by_cases hB : b = i
        · subst hB
          rw [if_pos (by omega), if_pos (by omega)]
          have : b - (b - acc.length) = acc.length := by omega
          rw [this]; simp
        · rw [if_neg (by omega)]
          by_cases hC : i + 1 ≤ b ∧ b < i + 1 + r.length
          · rw [if_pos hC, if_pos (by omega)]
            have : b - i = (b - (i + 1)) + 1 := by omega
            rw [this]; simp
          · rw [if_neg hC, if_neg (by omega)]
    | none =>
      simp only [mergeStores.go]
      cases acc with
      | nil =>
        obtain ⟨h1, h2, h3⟩ := ih (i + 1) [] d (by simp) (by omega)
        simp only [List.isEmpty_nil, if_true, List.nil_append]
        refine ⟨h1, h2, fun b => ?_⟩
        have n1 : ¬ (i + 1 - ([] : List Byte).length ≤ b ∧ b < i + 1) := by rw [List.length_nil]; omega
        have n2 : ¬ (i - ([] : List Byte).length ≤ b ∧ b < i) := by rw [List.length_nil]; omega
        rw [h3 b, if_neg n1, if_neg n2]
        by_cases hB : b = i
        · subst hB
          have m1 : ¬ (b + 1 ≤ b ∧ b < b + 1 + r.length) := by omega
          have m2 : b ≤ b ∧ b < b + ((none : Option Byte) :: r).length := by rw [List.length_cons]; omega
          rw [if_neg m1, if_pos m2]; simp
        · by_cases hC : i + 1 ≤ b ∧ b < i + 1 + r.length
          · have m2 : i ≤ b ∧ b < i + ((none : Option Byte) :: r).length := by rw [List.length_cons]; omega
            have : b - i = (b - (i + 1)) + 1 := by omega
            rw [if_pos hC, if_pos m2, this]; simp
          · have m2 : ¬ (i ≤ b ∧ b < i + ((none : Option Byte) :: r).length) := by rw [List.length_cons]; omega
            rw [if_neg hC, if_neg m2]
      | cons a t =>
        have hp : i - (a :: t).length + (a :: t).length ≤ d.length := by omega
        have hl := patch_length d (a :: t) (i - (a :: t).length) hp
        obtain ⟨h1, h2, h3⟩ := ih (i + 1) [] (patch d (i - (a :: t).length) (a :: t)) (by simp) (by rw [hl]; omega)
        simp only [List.isEmpty_cons, Bool.false_eq_true, if_false, List.cons_append, List.nil_append, List.foldl_cons]
        refine ⟨?_, h2.trans hl, fun b => ?_⟩
        · intro o ho
          rcases List.mem_cons.mp ho with rfl | ho
          · exact ⟨_, _, rfl⟩
          · exact h1 o ho
        · rw [h3 b]
          have hg := patch_get d (a :: t) (i - (a :: t).length) b hp
          have n1 : ¬ (i + 1 - ([] : List Byte).length ≤ b ∧ b < i + 1) := by rw [List.length_nil]; omega
          rw [if_neg n1]
          by_cases hA : i - (a :: t).length ≤ b ∧ b < i
          · rw [if_neg (by omega), if_pos hA, hg, if_pos (by omega)]
          · rw [if_neg hA]
            have hg' : (patch d (i - (a :: t).length) (a :: t)).getD b 0 = d.getD b 0 := by rw [hg, if_neg (by omega)]
            rw [hg']
            by_cases hB : b = i
            · subst hB; rw [if_neg (by omega), if_pos (by simp)]; simp
            · by_cases hC : i + 1 ≤ b ∧ b < i + 1 + r.length
              · rw [if_pos hC, if_pos (by simp only [List.length_cons]; omega)]
                have : b - i = (b - (i + 1)) + 1 := by omega
                rw [this]; simp
              · rw [if_neg hC, if_neg (by simp only [List.length_cons]; omega)]

theorem map_zipIdx_getD {α β : Type} (f : α → Nat → β) (l : List α) (z : β) (y : α) (b : Nat) (h : b < l.length) :
    (l.zipIdx.map fun p => f p.1 p.2).getD b z = f (l.getD b y) b := by
  simp [List.getD_eq_getElem?_getD, h]

theorem merged_arr (ws : List (Nat × List Byte)) : ∀ (a : List (Option Byte)) (g : Nat → Option Byte),
    a.length = 128 → (∀ b, b < 128 → a.getD b none = g b) →
    (ws.foldl (fun a (off, b) => a.zipIdx.map fun (o, i) =>
      if off ≤ i ∧ i < off + b.length then some (b.getD (i - off) 0) else o) a).length = 128 ∧
    ∀ b, b < 128 → (ws.foldl (fun a (off, b) => a.zipIdx.map fun (o, i) =>
      if off ≤ i ∧ i < off + b.length then some (b.getD (i - off) 0) else o) a).getD b none =
      ws.foldl (fun a w => if w.1 ≤ b ∧ b < w.1 + w.2.length then some (w.2.getD (b - w.1) 0) else a) (g b) := by
  induction ws with
  | nil => intro a g h1 h2; exact ⟨h1, h2⟩
  | cons w r ih =>
    intro a g h1 h2
    simp only [List.foldl_cons]
    refine ih _ (fun b => if w.1 ≤ b ∧ b < w.1 + w.2.length then some (w.2.getD (b - w.1) 0) else g b) (by simp [h1]) (fun b hb => ?_)
    have := map_zipIdx_getD (fun (o : Option Byte) i => if w.1 ≤ i ∧ i < w.1 + w.2.length then some (w.2.getD (i - w.1) 0) else o) a none none b
      (by omega)
    rw [this, h2 b hb]

/-- R184: merged stores write what the last store to each byte wrote. -/
theorem mergeStores_spec (ws : List (Nat × List Byte)) (d : List Byte) (p : BitVec 4) (hd : d.length = 128) :
    (runOps (mergeStores ws) d p).2.2 = [] ∧ (runOps (mergeStores ws) d p).1.length = 128 ∧
    ∀ b, b < 128 → (runOps (mergeStores ws) d p).1.getD b 0 = (storedAt ws b).getD (d.getD b 0) := by
  obtain ⟨ha, hb⟩ := merged_arr ws (List.replicate 128 none) (fun _ => none) (by simp) (fun b _ => by
    simp only [List.getD_eq_getElem?_getD, List.getElem?_replicate]; split <;> rfl)
  have hg := go_spec _ 0 [] d (Nat.le_refl 0) (by rw [ha]; omega)
  have hr := runOps_go (mergeStores ws) d p [] hg.1
  refine ⟨hr.2, ?_, fun b hlt => ?_⟩
  · exact (congrArg List.length hr.1).trans (hg.2.1.trans hd)
  · refine ((congrArg (fun l => l.getD b 0) hr.1).trans (hg.2.2 b)).trans ?_
    rw [if_neg (by rw [List.length_nil]; omega), if_pos (by rw [ha]; omega)]
    exact congrArg (fun z => Option.getD z (d.getD b 0)) (hb b hlt)

/-- Operations that are all stores. -/
def Stores (ops : List LineOp) (ws : List (Nat × List Byte)) : Prop := ops = ws.map fun w => .write w.1 w.2

theorem opsOn_stores {ops : List LineOp} {ws : List (Nat × List Byte)} (h : Stores ops ws) : opsOn ops = mergeStores ws := by
  subst h
  have e1 : ∀ P : LineOp → Bool, (∀ a b, P (.write a b) = false) →
      (ws.map fun w => LineOp.write w.1 w.2).filter P = [] := by
    intro P hP; simp only [List.filter_eq_nil_iff, List.mem_map]; rintro _ ⟨w, -, rfl⟩; simp [hP]
  have e2 : ∀ Q : LineOp → Option (Nat × List Byte), (∀ a b, Q (.write a b) = some (a, b)) →
      (ws.map fun w => LineOp.write w.1 w.2).filterMap Q = ws := by
    intro Q hQ; rw [List.filterMap_map]
    have : Q ∘ (fun w => LineOp.write w.1 w.2) = some := by funext w; exact hQ _ _
    rw [this]; exact List.filterMap_some
  unfold opsOn
  rw [e1 _ (fun _ _ => rfl)]
  exact congrArg mergeStores (e2 _ (fun _ _ => rfl))

theorem team_modTeam (s : State) (u v : Nat) (f : Team → Team) (hf : ∀ t, (f t).uid = t.uid) :
    (s.modTeam u f).team v = if v = u then (s.team v).map f else s.team v := by
  simp only [State.team, State.modTeam]
  induction s.teams with
  | nil => simp
  | cons a l ih =>
    simp only [List.map_cons, List.find?_cons]
    by_cases h1 : a.uid = u
    · simp only [h1, beq_self_eq_true, if_true, hf]
      by_cases h2 : v = u
      · simp [h2]
      · have e : (u == v) = false := by simp; exact fun h => h2 h.symm
        rw [if_neg h2] at ih ⊢; simp only [e, ih]
    · have e : (a.uid == u) = false := by simpa using h1
      simp only [e, Bool.false_eq_true, if_false]
      by_cases h3 : a.uid = v
      · have : ¬ v = u := fun h => h1 (h3.trans h)
        simp [h3, this]
      · have e2 : (a.uid == v) = false := by simpa using h3
        simp only [e2, ih]

theorem scratchOps_none {s : State} {u base v : Nat} {ops : List LineOp} (h : s.team v = none) :
    (s.scratchOps u base ops).1.team v = none := by
  simp only [State.scratchOps]
  cases ht : s.team u with
  | none => exact h
  | some t =>
    simp only
    rw [team_modTeam _ _ _ _ (by intro t; rfl), h]; simp

/-- Memory, warps and grids are as they were. -/
structure SameRest (s t : State) : Prop where
  mem : t.mem = s.mem
  warps : t.warps = s.warps
  grids : t.grids = s.grids

/-- Stores made to a block of a team's scratchpad. -/
theorem scratchOps_spec {s : State} {u base : Nat} {ops : List LineOp} {ws : List (Nat × List Byte)} (h : Stores ops ws)
    (hw : ∀ v q, s.team v = some q → q.scratch.wf = true) :
    (s.scratchOps u base (opsOn ops)).2 = [] ∧ SameRest s (s.scratchOps u base (opsOn ops)).1 ∧
    ∀ v q, s.team v = some q → ∃ p, (s.scratchOps u base (opsOn ops)).1.team v = some p ∧ p.scratch.wf = true ∧
      ∀ b, p.scratch.get b = if v = u ∧ base ≤ b ∧ b < base + 128 then (storedAt ws (b - base)).getD (q.scratch.get b)
        else q.scratch.get b := by
  rw [opsOn_stores h]
  simp only [State.scratchOps]
  cases ht : s.team u with
  | none =>
    refine ⟨rfl, ⟨rfl, rfl, rfl⟩, fun v q hv => ⟨q, hv, hw v q hv, fun b => ?_⟩⟩
    rw [if_neg]; rintro ⟨rfl, -⟩; rw [ht] at hv; cases hv
  | some t =>
    simp only [blockOps]
    obtain ⟨m1, m2, m3⟩ := mergeStores_spec ws (t.scratch.read base 128) (blockPoison t.poison base) (Mem.read_length _ _ _)
    refine ⟨m1, ⟨rfl, rfl, rfl⟩, fun v q hv => ?_⟩
    have e := team_modTeam s u v (fun t' => { t' with
      scratch := t.scratch.write base (runOps (mergeStores ws) (t.scratch.read base 128) (blockPoison t.poison base)).1
      poison := setBlockPoison t.poison base (runOps (mergeStores ws) (t.scratch.read base 128) (blockPoison t.poison base)).2.1 })
      (fun _ => rfl)
    by_cases h2 : v = u
    · subst h2
      rw [if_pos rfl, hv] at e
      rw [ht] at hv; obtain rfl := Option.some.inj hv
      refine ⟨_, e, Mem.wf_write (hw v t ht) _ _, fun b => ?_⟩
      show (Mem.write _ _ _).get b = _
      rw [Mem.get_write (hw v t ht), m2]
      by_cases hb : base ≤ b ∧ b < base + 128
      · rw [if_pos hb, if_pos ⟨rfl, hb⟩, m3 _ (by omega), Mem.read_get _ _ _ _ (by omega)]
        congr 2; omega
      · rw [if_neg hb, if_neg (fun q => hb q.2)]
    · rw [if_neg h2, hv] at e
      refine ⟨q, e, hw v q hv, fun b => ?_⟩
      rw [if_neg (fun q => h2 q.1)]

/-- The stores of parts to one target. -/
def storesTo (ps : List Part) (u base : Nat) : List (Nat × List Byte) :=
  (ps.filter fun p => p.tgt == .scratch u base).filterMap fun p => match p.op with
    | .write a b => some (a, b)
    | _ => none

/-- Parts that all store to scratchpads, each within one block. -/
def ScratchParts (ps : List Part) : Prop :=
  ∀ p ∈ ps, ∃ u base off b, p.tgt = .scratch u base ∧ p.op = .write off b ∧ base % 128 = 0

theorem storesTo_stores {ps : List Part} (h : ScratchParts ps) (u base : Nat) :
    Stores ((ps.filter fun p => p.tgt == .scratch u base).map Part.op) (storesTo ps u base) := by
  unfold Stores storesTo
  induction ps with
  | nil => rfl
  | cons p r ih =>
    have ih := ih (fun q hq => h q (by simp [hq]))
    obtain ⟨v, c, off, b, h1, h2, -⟩ := h p (by simp)
    simp only [List.filter_cons]
    split
    · simp only [List.map_cons, List.filterMap_cons, h2, ih]
    · exact ih

/-- Stores to scratchpads, block by block. -/
theorem windows_spec (ps : List Part) (hp : ScratchParts ps) (x : Wx) (ts : List Tgt) : ∀ (m : Made) (S : Nat → Nat → Option Byte) (s0 : State),
    ts.Nodup → (∀ t ∈ ts, ∃ u base, t = .scratch u base ∧ base % 128 = 0) →
    (∀ v q, s0.team v = some q → ∃ p, m.s.team v = some p ∧ p.scratch.wf = true ∧ ∀ b, p.scratch.get b = (S v b).getD (q.scratch.get b)) →
    (∀ v, s0.team v = none → m.s.team v = none) →
    (∀ v b, .scratch v (b / 128 * 128) ∈ ts → S v b = none) →
    let r := ts.foldl (fun m t =>
      let ops := opsOn ((ps.filter fun p => p.tgt == t).map Part.op)
      match t with
      | .scratch team base =>
        let (s, rs) := m.s.scratchOps team base ops
        { m with s := s.count x.core 8 (ps.filter fun p => p.tgt == t).length, rs := m.rs ++ rs }
      | .opbuf base =>
        let (s, rs) := m.s.opbufOps x.core base ops
        { m with s := s, rs := m.rs ++ rs }
      | _ => m) m
    r.rs = m.rs ∧ r.ids = m.ids ∧ r.bad = m.bad ∧ SameRest m.s r.s ∧
    ∀ v q, s0.team v = some q → ∃ p, r.s.team v = some p ∧ ∀ b, p.scratch.get b =
      (if .scratch v (b / 128 * 128) ∈ ts then storedAt (storesTo ps v (b / 128 * 128)) (b % 128) else S v b).getD (q.scratch.get b) := by
  induction ts with
  | nil =>
    intro m S s0 _ _ h1 h2 h3
    refine ⟨rfl, rfl, rfl, ⟨rfl, rfl, rfl⟩, fun v q hv => ?_⟩
    obtain ⟨p, a, -, c⟩ := h1 v q hv
    exact ⟨p, a, fun b => by rw [c b, if_neg (by simp)]⟩
  | cons t ts ih =>
    intro m S s0 hn ht h1 h2 h3
    obtain ⟨u, base, rfl, hb⟩ := ht t (by simp)
    have hwf : ∀ v q, m.s.team v = some q → q.scratch.wf = true := by
      intro v q hv
      cases h0 : s0.team v with
      | none => rw [h2 v h0] at hv; cases hv
      | some q0 =>
        obtain ⟨p, a, c, -⟩ := h1 v q0 h0
        rw [a] at hv; obtain rfl := Option.some.inj hv; exact c
    obtain ⟨s1, s2, s3⟩ := scratchOps_spec (u := u) (base := base) (storesTo_stores hp u base) hwf
    have hnt : Tgt.scratch u base ∉ ts := (List.nodup_cons.mp hn).1
    simp only [List.foldl_cons]
    have := ih
      { m with
        s := (m.s.scratchOps u base (opsOn ((ps.filter fun p => p.tgt == .scratch u base).map Part.op))).1.count x.core 8
          (ps.filter fun p => p.tgt == .scratch u base).length
        rs := m.rs ++ (m.s.scratchOps u base (opsOn ((ps.filter fun p => p.tgt == .scratch u base).map Part.op))).2 }
      (fun v b => if v = u ∧ base ≤ b ∧ b < base + 128 then storedAt (storesTo ps u base) (b - base) else S v b) s0
      (List.nodup_cons.mp hn).2 (fun t h => ht t (by simp [h])) ?_ ?_ ?_
    · obtain ⟨r1, r2, r3, r4, r5⟩ := this
      refine ⟨r1.trans (by rw [s1]; simp), r2, r3, ⟨r4.mem.trans s2.mem, r4.warps.trans s2.warps, r4.grids.trans s2.grids⟩, fun v q hv => ?_⟩
      obtain ⟨p, a, c⟩ := r5 v q hv
      refine ⟨p, a, fun b => ?_⟩
      rw [c b]
      by_cases hm : Tgt.scratch v (b / 128 * 128) ∈ ts
      · rw [if_pos hm, if_pos (by simp [hm])]
      · rw [if_neg hm]
        by_cases he : v = u ∧ base ≤ b ∧ b < base + 128
        · obtain ⟨rfl, he⟩ := he
          have e1 : b / 128 * 128 = base := by omega
          have e2 : b % 128 = b - base := by omega
          rw [if_pos ⟨rfl, he⟩, e1, if_pos (by simp), e2]
        · have : ¬ Tgt.scratch v (b / 128 * 128) ∈ Tgt.scratch u base :: ts := by
            simp only [List.mem_cons, not_or]
            refine ⟨fun h => ?_, hm⟩
            injection h with a1 a2
            exact he ⟨a1, by omega⟩
          rw [if_neg he, if_neg this]
    · intro v q hv
      obtain ⟨p, a, c, d⟩ := h1 v q hv
      obtain ⟨p', a', c', d'⟩ := s3 v p a
      refine ⟨p', a', c', fun b => ?_⟩
      rw [d' b]
      by_cases he : v = u ∧ base ≤ b ∧ b < base + 128
      · rw [if_pos he, if_pos he, d b]
        have e1 : b / 128 * 128 = base := by omega
        rw [h3 v b (by rw [e1, he.1]; simp)]; rfl
      · rw [if_neg he, if_neg he, d b]
    · intro v hv
      exact scratchOps_none (h2 v hv)
    · intro v b hm
      have e : ¬ (v = u ∧ base ≤ b ∧ b < base + 128) := by
        rintro ⟨rfl, he⟩
        have e1 : b / 128 * 128 = base := by omega
        rw [e1] at hm; exact hnt hm
      rw [if_neg e]; exact h3 v b (by simp [hm])

theorem eraseDups_nodup {α : Type} [BEq α] [LawfulBEq α] (l : List α) : l.eraseDups.Nodup := by
  generalize hn : l.length = n
  induction n using Nat.strongRecOn generalizing l with
  | _ n ih =>
    cases l with
    | nil => simp
    | cons a l =>
      rw [List.eraseDups_cons, List.nodup_cons]
      refine ⟨by simp, ih _ ?_ _ rfl⟩
      subst hn; simp only [List.length_cons]
      exact Nat.lt_succ_of_le (List.length_filter_le _ _)

theorem lines_none (m : Made) (x : Wx) (o : Mode) (ps : List Part) (hp : ScratchParts ps) :
    m.lines x o ps = { m with s := m.s.count x.core 6 0, ids := m.ids ++ [] } := by
  have hits : ∀ Q : Part → Option Item, (∀ p ∈ ps, Q p = none) → ps.filterMap Q = [] :=
    fun Q h => List.filterMap_eq_nil_iff.mpr h
  unfold Made.lines
  rw [hits _ (fun p hm => by obtain ⟨u, base, off, b, h1, -, -⟩ := hp p hm; simp only [h1])]
  rfl

theorem peers_none (m : Made) (x : Wx) (deps : List Nat) (edit : Flit → Flit) (ps : List Part) (hp : ScratchParts ps) :
    m.peers x deps edit ps = m := by
  unfold Made.peers
  induction ps with
  | nil => rfl
  | cons p r ih =>
    obtain ⟨u, base, off, b, h1, -, -⟩ := hp p (by simp)
    simp only [List.foldl_cons, h1]
    exact ih fun q hq => hp q (by simp [hq])

/-- R168, R184: an instruction all of whose accesses are stores to scratchpads. -/
theorem perform_scratch (s : State) (x : Wx) (o : Mode) (ps : List Part) (hp : ScratchParts ps)
    (hw : ∀ v q, s.team v = some q → q.scratch.wf = true) :
    (s.perform x o ps).rs = [] ∧ (s.perform x o ps).ids = [] ∧ (s.perform x o ps).bad = [] ∧ SameRest s (s.perform x o ps).s ∧
    ∀ v q, s.team v = some q → ∃ p, (s.perform x o ps).s.team v = some p ∧ ∀ b, p.scratch.get b =
      (storedAt (storesTo ps v (b / 128 * 128)) (b % 128)).getD (q.scratch.get b) := by
  have hts : ∀ t ∈ (ps.map Part.tgt).eraseDups, ∃ u base, t = .scratch u base ∧ base % 128 = 0 := by
    intro t ht
    rw [List.mem_eraseDups, List.mem_map] at ht
    obtain ⟨p, hm, rfl⟩ := ht
    obtain ⟨u, base, off, b, h1, -, h2⟩ := hp p hm
    exact ⟨u, base, h1, h2⟩
  obtain ⟨r1, r2, r3, r4, r5⟩ := windows_spec ps hp x (ps.map Part.tgt).eraseDups (Made.mk s [] [] []) (fun _ _ => none) s
    (eraseDups_nodup _) hts (fun v q hv => ⟨q, hv, hw v q hv, fun b => rfl⟩) (fun v hv => hv) (fun _ _ _ => rfl)
  have hW := lines_none ((Made.mk s [] [] []).windows x ps) x o ps hp
  have hP := peers_none (((Made.mk s [] [] []).windows x ps).lines x o ps) x o.deps id ps hp
  have hR : s.perform x o ps = (((Made.mk s [] [] []).windows x ps).lines x o ps).peers x o.deps id ps := rfl
  rw [hR, hP, hW]
  refine ⟨r1, (List.append_nil _).trans r2, r3, ⟨r4.mem, r4.warps, r4.grids⟩, fun v q hv => ?_⟩
  obtain ⟨p, a, c⟩ := r5 v q hv
  refine ⟨p, a, fun b => ?_⟩
  rw [c b]
  by_cases hm : Tgt.scratch v (b / 128 * 128) ∈ (ps.map Part.tgt).eraseDups
  · rw [if_pos hm]
  · rw [if_neg hm]
    have : storesTo ps v (b / 128 * 128) = [] := by
      unfold storesTo
      have : (ps.filter fun p => p.tgt == Tgt.scratch v (b / 128 * 128)) = [] := by
        rw [List.filter_eq_nil_iff]; intro p hp
        simp only [beq_iff_eq]; intro h
        exact hm (List.mem_eraseDups.mpr (List.mem_map.mpr ⟨p, hp, h⟩))
      rw [this]; rfl
    rw [this]; rfl

end Sys2Proof.Machine
end

