-- ==== Sys2Proof/Laws/Words.lean ====
section
/-! SUPPORT. Words: that each is issued by one operation, what a word without an active lane leaves, and what an access comes to
whose lanes all passed their checks. -/

namespace Sys2Proof.Machine

/-- Every instruction word is issued by one operation with its description, but ILLEG, which is rejected. -/
theorem exec_word (i : Instr) (n : WordInfo) (h : i.info = some n) :
    (∃ body more, ∀ s, exec i s = runWordThen n body more s) ∨ ∃ c raw, i = .illeg c raw := by
  cases i <;> cases h <;> first | exact .inl ⟨_, _, fun _ => rfl⟩ | exact .inr ⟨_, _, rfl⟩

/-- A word whose body is `eff` where `pre` holds does `eff`. -/
theorem Does.of {i : Instr} {n : WordInfo} {body : Wx → State → Eff} {pre : Wx → State → Prop} {eff : Wx → State → Eff}
    (h : ∀ s, exec i s = runWord n body s) (hb : ∀ x s, pre x s → body x s = eff x s) : Does i n pre eff := by
  intro s w r hr hp
  rw [h, runWord_ready hr, hb _ _ hp]; rfl

/-! ### The course of a run -/

theorem Warp.unpark_kept (w : Warp) (l : List Nat) : (w.unpark l).tok = w.tok ∧ (w.unpark l).pend = w.pend ∧ (w.unpark l).hold = w.hold := by
  unfold Warp.unpark; simp only; split <;> exact ⟨rfl, rfl, rfl⟩
/-- Going on leaves the tokens, the outstanding requests and the hold of the warp. -/
theorem State.advance_kept {s : State} {c k : Nat} {w : Warp} {r : Run} (fin : Bool) (h : s.warpAt c k = some w) (hr : w.run = some r)
    (v : Warp) (hv : (s.advance c k fin).warpAt c k = some v) : v.tok = w.tok ∧ v.pend = w.pend ∧ v.hold = w.hold := by
  simp only [State.advance, h, hr] at hv
  split at hv
  · have hf := (State.finishRun_spec h hr).1 v hv
    rw [hf]; exact Warp.unpark_kept w r.lanes
  · split at hv
    · have hst : Stays fun w : Warp => w.modLanes r.lanes fun l => { l with pc := r.pc + 1 } := fun x => ⟨rfl, rfl⟩
      have h1 : (s.modWarp c k fun w : Warp => w.modLanes r.lanes fun l => { l with pc := r.pc + 1 }).warpAt c k =
          some (w.modLanes r.lanes fun l => { l with pc := r.pc + 1 }) := by rw [State.warpAt_modWarp_self _ _ _ _ hst, h]; rfl
      have hf := (State.finishRun_spec h1 (show _ = some r from hr)).1 v hv
      rw [hf]; exact Warp.unpark_kept (w.modLanes r.lanes fun l => { l with pc := r.pc + 1 }) r.lanes
    · have hst : Stays fun w : Warp => { w with run := some { r with pc := r.pc + 1, n := r.n + 1, fenced := false } } := fun x => ⟨rfl, rfl⟩
      rw [State.warpAt_modWarp_self _ _ _ _ hst, h] at hv
      obtain rfl := Option.some.inj hv
      exact ⟨rfl, rfl, rfl⟩

/-! ### Accesses that pass -/

theorem State.gate_none {s : State} {x : Wx} {i : Instr} {o : Order} {near : Bool} (h : MayAccess x o) : s.gate x i o near = none := by
  obtain ⟨h1, h2⟩ := h
  simp only [State.gate, h1]
  by_cases ho : o = .sc
  · simp [ho, h2 ho]
  · simp [ho]

theorem State.ask_none {s : State} {x : Wx} {as : List (Nat × Nat × Loc)} (h : ∀ a ∈ as, a.2.2.found = true) :
    s.ask x (as.map fun a => a.2.2) = none := by
  simp only [State.ask]
  rw [if_neg]
  simp
  intro a b c hm
  have := h _ hm
  cases c <;> simp_all [Loc.found]

theorem badsOf_none {as : List (Nat × Nat × Loc)} (h : ∀ a ∈ as, a.2.2.found = true) : badsOf as = [] := by
  simp only [badsOf, List.filterMap_eq_nil_iff]
  rintro ⟨a, b, c⟩ hm
  have := h _ hm
  cases c <;> simp_all [Loc.found]

theorem okOf_all {as : List (Nat × Nat × Loc)} (h : ∀ a ∈ as, a.2.2.found = true) : okOf as = as := by
  simp only [okOf, List.filter_eq_self]
  rintro ⟨a, b, c⟩ hm
  have := h _ hm
  cases c <;> simp_all [Loc.found]

theorem AllFound.places {x : Wx} {s : State} {ea : Nat → Nat} {n : Nat} {wr : Bool} (h : AllFound x s ea n wr) : ∀ a ∈ s.places x ea n wr, a.2.2.found = true := by
  intro a ha
  simp only [State.places, List.mem_map] at ha
  obtain ⟨l, hl, rfl⟩ := ha
  exact h l hl

theorem State.dropFailed_nil {s : State} {x : Wx} : s.dropFailed x [] = s := by simp [State.dropFailed]

/-- Where every page used is in the core's L1 TLB, and no access fails, the accesses leave the TLBs as they are. -/
theorem State.translated_hit {s : State} {x : Wx} {as : List (Nat × Nat × Loc)} (h : ∀ a ∈ as, a.2.2.found = true)
    (ht : ∀ a ∈ as, (regionOf a.2.1 = .dev ∨ regionOf a.2.1 = .host) → s.tlbMiss x.core x.g.ctx (a.2.1 / 65536) = false) :
    s.translated x as = s := by
  simp only [State.translated, badsOf_none h, State.dropFailed_nil]
  suffices H : ∀ ps : List Nat, (∀ p ∈ ps, s.tlbMiss x.core x.g.ctx p = false) → ps.foldl (fun s p =>
      if s.tlbMiss x.core x.g.ctx p then
        (match s.tlb x.core x.g.ctx p with
        | some e => (s.count x.core 7 1).fillL1Tlb x.core e
        | none => s)
      else s) s = s by
    refine H _ fun p hp => ?_
    rw [List.mem_eraseDups, List.mem_filterMap] at hp
    obtain ⟨⟨l, va, loc⟩, hm, hp⟩ := hp
    have := ht _ hm
    cases hr : regionOf va <;> simp [hr] at hp this
    · exact hp.2 ▸ this
    · exact hp.2 ▸ this
  intro ps
  induction ps with
  | nil => intro _; rfl
  | cons p ps ih =>
    intro hp
    rw [List.foldl_cons, hp p (by simp), if_neg (by decide)]
    exact ih fun q hq => hp q (by simp [hq])

/-! ### Tables and press operations -/

theorem OnTable.withTable {x : Wx} {s : State} {id : Src} {ks : List Nat} {kf : Option KeyFmt} {v : Version} {f : Version → Eff}
    (h : OnTable x s id ks kf v) : s.withTable x id ks kf f = f v := by simp [State.withTable, h.1, h.2]

/-- R343: an operation offered to a bin with room is accepted. -/
theorem BinOpen.offer {x : Wx} {s : State} {i : Instr} {b : Nat} {k : POpKind} {sg : Bool} {d a : PVec} {src : PSrc}
    (h : BinOpen x s b) :
    s.offer x i b k sg d a src = s.acceptPress x b ⟨x.w.uid, x.w.team, x.g.ctx, 0, k, sg, d, a, src⟩ := by
  obtain ⟨h1, h2, h3⟩ := h
  have : ¬ (s.bin b).ops.length ≥ 32 := by omega
  simp only [State.offer, State.offerOp, h1, h2, this]; simp

end Sys2Proof.Machine
end

