-- ==== Sys2Proof/Tests/Slice0.lean ====
section
/-! SUPPORT. Tests: words written out from the encoding tables of the spec, ill-formed instructions, results worked out by
hand or given in the spec, and for every statement with hypotheses a state that meets them. -/

open Sys2Proof Sys2Proof.Machine

namespace Sys2Proof.Tests

set_option Elab.async false

/-! ### Words, field by field (R80), with GRD 0111 (PT or CT) and SCHED 0 -/

/-- OPC, MOD, DST, SA, SB and [39:24] of a word. -/
def word (opc : BitVec 10) (md : BitVec 8) (dst : BitVec 10) (sa sb : BitVec 12) (sc : BitVec 16) : InstrWord :=
  opc ++ md ++ 7#4 ++ dst ++ sa ++ sb ++ sc ++ 0#24

/-- The guard PT or CT, and a scheduling field of zeros. -/
def c0 : Ctl := ⟨⟨false, 7⟩, ⟨0, false, false, false, 0, 0, 0, 0⟩⟩

/-- Group 0x0 (R113, R114, R117, R119, R121 to R124). Class 00 index 3 is 0x00C as a source, class 01 index 4 is 0x410, the literal 5
is 0xC14. -/
theorem test_decode_group0 :
    decode (word 0x000 0 0 0 0 0) = .ok (.nop c0) ∧
    decode (word 0x001 0x80 0x004 0x00C 0 0) = .ok (.mov c0 ⟨.b32, .v 4, .v 3 .plain⟩) ∧
    decode (word 0x001 0x90 0x102 0x800 0 0) = .ok (.movQueuePop c0 ⟨0, .s 2⟩) ∧
    decode (word 0x001 0x80 0x209 0x00C 0 0) = .ok (.movQueuePush c0 ⟨9, .v 3 .plain⟩) ∧
    decode (word 0x002 0xA0 0x003 0 0x3FC 0x0000) = .ok (.movi c0 ⟨.f32, .v 3, 0x3FC0000⟩) ∧
    decode (word 0x003 0x08 0x005 0x00C 0xC14 0) = .ok (.iadd c0 ⟨.i32, true, .v 5, .v 3 .plain, .lit 5⟩) ∧
    decode (word 0x004 0x14 0x005 0x00C 0 0x1234) = .ok (.isub c0 ⟨.n32, false, .v 5, .v 3 .plain, .imm 0x1234⟩) ∧
    decode (word 0x005 0x20 0x105 0x410 0x414 0) = .ok (.imul c0 ⟨.i64, false, .s 5, .s 4 .plain, .s 5 .plain⟩) ∧
    decode (word 0x006 0x10 0x005 0x00E 0x00D 0) = .ok (.imulh c0 ⟨.n32, false, .v 5, .v 3 .last, .v 3 .keep⟩) ∧
    decode (word 0x007 0x00 0x005 0x004 0x008 0x00C0) = .ok (.imad c0 ⟨.i32, false, .v 5, .v 1 .plain, .v 2 .plain, .v 3 .plain⟩) ∧
    decode (word 0x008 0x18 0x006 0x004 0x008 0x0100) = .ok (.imadw c0 ⟨.n32, true, .v 6, .v 1 .plain, .v 2 .plain, .v 4 .plain⟩) ∧
    decode (word 0x009 0x30 0x105 0x410 0xC14 0) = .ok (.imin c0 ⟨.n64, false, .s 5, .s 4 .plain, .lit 5⟩) ∧
    decode (word 0x00A 0x00 0x005 0x00C 0x410 0) = .ok (.imax c0 ⟨.i32, false, .v 5, .v 3 .plain, .s 4 .plain⟩) ∧
    decode (word 0x00B 0x28 0x105 0x410 0 0) = .ok (.iabs c0 ⟨.i64, true, .s 5, .s 4 .plain⟩) ∧
    decode (word 0x00C 0x80 0x300 0x00C 0x410 0) = .ok (.iand c0 ⟨.b32, false, .disc, .v 3 .plain, .s 4 .plain⟩) ∧
    decode (word 0x00D 0x90 0x006 0x008 0x010 0) = .ok (.ior c0 ⟨.b64, false, .v 6, .v 2 .plain, .v 4 .plain⟩) ∧
    decode (word 0x00E 0x00 0x005 0x00C 0x010 0) = .ok (.ixor c0 ⟨.i32, false, .v 5, .v 3 .plain, .v 4 .plain⟩) ∧
    decode (word 0x00F 0x10 0x005 0x00C 0 0) = .ok (.inot c0 ⟨.n32, false, .v 5, .v 3 .plain⟩) := by decide +kernel

theorem test_decode_group0_bits :
    decode (word 0x010 0x90 0x102 0x408 0xC80 0) = .ok (.shl c0 ⟨.b64, false, .s 2, .s 2 .plain, .lit 32⟩) ∧
    decode (word 0x011 0x80 0x005 0x00C 0x010 0) = .ok (.shr c0 ⟨.b32, false, .v 5, .v 3 .plain, .v 4 .plain⟩) ∧
    decode (word 0x012 0x00 0x005 0x00C 0xC14 0) = .ok (.sar c0 ⟨.i32, false, .v 5, .v 3 .plain, .lit 5⟩) ∧
    decode (word 0x013 0x80 0x005 0x00C 0xC14 0) = .ok (.rol c0 ⟨.b32, false, .v 5, .v 3 .plain, .lit 5⟩) ∧
    decode (word 0x014 0x14 0x004 0x00C 0 0x0804) = .ok (.bfe c0 ⟨.n32, false, .v 4, .v 3 .plain, .imm 0x0804⟩) ∧
    decode (word 0x015 0x80 0x005 0x004 0x008 0x00C0) = .ok (.bfi c0 ⟨.b32, false, .v 5, .v 1 .plain, .v 2 .plain, .v 3 .plain⟩) ∧
    decode (word 0x016 0x80 0x005 0x00C 0 0) = .ok (.popc c0 ⟨.b32, false, .v 5, .v 3 .plain⟩) ∧
    decode (word 0x017 0x90 0x105 0x410 0 0) = .ok (.clz c0 ⟨.b64, false, .s 5, .s 4 .plain⟩) ∧
    decode (word 0x018 0x10 0x005 0x00C 0 0) = .ok (.brev c0 ⟨.n32, false, .v 5, .v 3 .plain⟩) ∧
    decode (word 0x019 0xA0 0x005 0x004 0x008 0xBC81) = .ok (.sel c0 ⟨.f32, .v 5, .v 1 .plain, .v 2 .plain, true, 2⟩) ∧
    decode (word 0x01A 0x00 0x00A 0x020 0x00C 0x0002) = .ok (.lea c0 ⟨.i32, .v 10, .v 8 .plain, .v 3 .plain, 2⟩) ∧
    decode (word 0x01B 0x80 0x005 0x004 0x008 0x4100) = .ok (.bpick c0 ⟨.b32, false, .v 5, .v 1 .plain, .v 2 .plain, .s 4 .plain⟩) := by
  decide +kernel

/-- Group 0x1 (R141, R142, R144). -/
theorem test_decode_group1 :
    decode (word 0x040 0x40 0x005 0x004 0x008 0) = .ok (.fadd c0 ⟨.rz, false, false, .v 5, .v 1 .plain, .v 2 .plain⟩) ∧
    decode (word 0x041 0x10 0x005 0x004 0x008 0) = .ok (.fsub c0 ⟨.rn, true, false, .v 5, .v 1 .plain, .v 2 .plain⟩) ∧
    decode (word 0x042 0x08 0x005 0x004 0x008 0) = .ok (.fmul c0 ⟨.rn, false, true, .v 5, .v 1 .plain, .v 2 .plain⟩) ∧
    decode (word 0x043 0x80 0x005 0x004 0x008 0x00C0) =
      .ok (.ffma c0 ⟨.rp, false, false, .v 5, .v 1 .plain, .v 2 .plain, .v 3 .plain⟩) ∧
    decode (word 0x044 0x00 0x005 0x004 0x008 0) = .ok (.fmin c0 ⟨.rn, false, false, .v 5, .v 1 .plain, .v 2 .plain⟩) ∧
    decode (word 0x045 0x08 0x005 0x004 0xC08 0) = .ok (.fmax c0 ⟨.rn, false, true, .v 5, .v 1 .plain, .lit 2⟩) ∧
    decode (word 0x046 0x00 0x005 0x004 0xC00 0xC040) = .ok (.fclamp c0 ⟨.rn, false, false, .v 5, .v 1 .plain, .lit 0, .lit 1⟩) ∧
    decode (word 0x047 0x60 0x005 0x004 0x410 0) = .ok (.fscale c0 ⟨.rm, false, false, .v 5, .v 1 .plain, .s 4 .plain⟩) ∧
    decode (word 0x050 0x04 0x005 0x004 0x008 0) = .ok (.hadd2 c0 ⟨true, .rn, false, false, .v 5, .v 1 .plain, .v 2 .plain⟩) ∧
    decode (word 0x051 0x20 0x005 0x004 0x008 0) = .ok (.hsub2 c0 ⟨false, .rna, false, false, .v 5, .v 1 .plain, .v 2 .plain⟩) ∧
    decode (word 0x052 0x14 0x005 0x004 0x008 0) = .ok (.hmul2 c0 ⟨true, .rn, true, false, .v 5, .v 1 .plain, .v 2 .plain⟩) ∧
    decode (word 0x053 0x00 0x005 0x004 0x008 0x00C0) =
      .ok (.hfma2 c0 ⟨false, .rn, false, false, .v 5, .v 1 .plain, .v 2 .plain, .v 3 .plain⟩) ∧
    decode (word 0x054 0x0C 0x005 0x004 0x008 0) = .ok (.hmin2 c0 ⟨true, .rn, false, true, .v 5, .v 1 .plain, .v 2 .plain⟩) ∧
    decode (word 0x055 0x00 0x005 0x004 0x008 0) = .ok (.hmax2 c0 ⟨false, .rn, false, false, .v 5, .v 1 .plain, .v 2 .plain⟩) ∧
    decode (word 0x056 0x04 0x005 0x004 0x008 0x00C0) =
      .ok (.hdot2 c0 ⟨true, .rn, false, false, .v 5, .v 1 .plain, .v 2 .plain, .v 3 .plain⟩) := by decide +kernel

/-- Group 0x2 (R145 to R151). -/
theorem test_decode_group2 :
    decode (word 0x080 0xA4 0x005 0x004 0 0x001A) = .ok (.cvt c0 ⟨.f32, .i16, .rz, true, true, .v 5, .v 1 .plain⟩) ∧
    decode (word 0x082 0x64 0x005 0x004 0 0) = .ok (.frnd c0 ⟨.bf16, .rm, false, .v 5, .v 1 .plain⟩) ∧
    decode (word 0x090 0x00 0x005 0x004 0 0) = .ok (.rcp c0 ⟨false, false, .v 5, .v 1 .plain⟩) ∧
    decode (word 0x091 0x08 0x005 0x004 0 0) = .ok (.rsq c0 ⟨false, true, .v 5, .v 1 .plain⟩) ∧
    decode (word 0x092 0x04 0x005 0x004 0 0) = .ok (.sqrt c0 ⟨true, false, .v 5, .v 1 .plain⟩) ∧
    decode (word 0x093 0x00 0x005 0x004 0 0) = .ok (.ex2 c0 ⟨false, false, .v 5, .v 1 .plain⟩) ∧
    decode (word 0x094 0x00 0x005 0x004 0 0) = .ok (.lg2 c0 ⟨false, false, .v 5, .v 1 .plain⟩) ∧
    decode (word 0x095 0x00 0x005 0x004 0 0) = .ok (.sin c0 ⟨false, false, .v 5, .v 1 .plain⟩) ∧
    decode (word 0x096 0x00 0x005 0x004 0 0) = .ok (.cos c0 ⟨false, false, .v 5, .v 1 .plain⟩) ∧
    decode (word 0x097 0x00 0x006 0x004 0 0) = .ok (.sincos c0 ⟨false, false, .v 6, .v 1 .plain⟩) ∧
    decode (word 0x098 0x00 0x005 0x004 0 0) = .ok (.tanh c0 ⟨false, false, .v 5, .v 1 .plain⟩) ∧
    decode (word 0x099 0x04 0x005 0x004 0 0) = .ok (.sigm c0 ⟨true, false, .v 5, .v 1 .plain⟩) ∧
    decode (word 0x0A0 0x30 0x006 0x004 0x410 0) = .ok (.rand c0 ⟨.n64, .v 6, .v 1 .plain, .s 4 .plain⟩) ∧
    decode (word 0x0A1 0xA0 0x005 0x004 0x410 0) = .ok (.csamp c0 ⟨.v 5, .v 1 .plain, .s 4 .plain⟩) := by decide +kernel

/-- Group 0x3 (R152, R156): Pv and Pm of index 2 are 0xBC8 in SC. -/
theorem test_decode_group3 :
    decode (word 0x0C0 0x02 0x005 0x004 0x008 0xBC80) = .ok (.shfl c0 ⟨.down, .v 5, .v 1 .plain, .v 2 .plain, 2⟩) ∧
    decode (word 0x0C1 0x00 0x006 0x008 0 0xBC80) = .ok (.pswap c0 ⟨.v 6, .v 2 .plain, 2⟩) ∧
    decode (word 0x0C2 0x01 0x005 0x004 0 0xBC80) = .ok (.qswap c0 ⟨.v, .v 5, .v 1 .plain, 2⟩) ∧
    decode (word 0x0C3 0x00 0x005 0x004 0xC0C 0xBC80) = .ok (.qbcast c0 ⟨.v 5, .v 1 .plain, .lit 3, 2⟩) ∧
    decode (word 0x0C4 0x03 0x105 0xBC4 0 0) = .ok (.vote c0 ⟨.ballot, .s 5, 1⟩) ∧
    decode (word 0x0C4 0x00 0x2F9 0xBC4 0 0) = .ok (.vote c0 ⟨.any, .c 1, 1⟩) ∧
    decode (word 0x0C5 0x10 0x006 0x004 0 0) = .ok (.matchLanes c0 ⟨.n32, .v 6, .v 1 .plain⟩) ∧
    decode (word 0x0C6 0x14 0x105 0x004 0 0xBDC2) = .ok (.rdx c0 ⟨.add, .f32, .rz, .s 5, .v 1 .plain, 7⟩) ∧
    decode (word 0x0C7 0x22 0x005 0x004 0x414 0xBDC0) = .ok (.scn c0 ⟨.min, .n32, .rn, .v 5, .v 1 .plain, .s 5, 7⟩) ∧
    decode (word 0x0C8 0x00 0x2F1 0x414 0 0) = .ok (.elect c0 ⟨1, .s 5⟩) := by decide +kernel

/-- Groups 0x4 and 0x5 (R125 to R129). -/
theorem test_decode_groups45 :
    decode (word 0x100 0x0A 0x2F1 0x004 0 0x8000) = .ok (.itest c0 ⟨.i32, .lt, .p 1, .v 1 .plain, .imm 0x8000⟩) ∧
    decode (word 0x101 0xA7 0x2F1 0x004 0x008 0) = .ok (.ftest c0 ⟨.nan, .p 1, .v 1 .plain, .v 2 .plain⟩) ∧
    decode (word 0x102 0xC0 0x2F1 0x004 0x008 0xBC80) = .ok (.htest2 c0 ⟨true, .eq, .p 1, 2, .v 1 .plain, .v 2 .plain⟩) ∧
    decode (word 0x103 0x03 0x2F1 0xBC8 0xBCC 0) = .ok (.pcomb c0 ⟨.andn, 1, 2, 3⟩) ∧
    decode (word 0x104 0x00 0x2F9 0x410 0 0) = .ok (.cset c0 ⟨1, .s 4 .plain⟩) ∧
    decode (word 0x105 0x02 0x2F9 0xBE8 0xBEC 0) = .ok (.ccomb c0 ⟨.xor, 1, 2, 3⟩) ∧
    decode (word 0x106 0x00 0x105 0xBC4 0 0) = .ok (.p2s c0 ⟨5, 1⟩) ∧
    decode (word 0x107 0x00 0x2F1 0x410 0 0) = .ok (.s2p c0 ⟨1, .s 4 .plain⟩) ∧
    decode (word 0x140 0x00 0 0 0xFFF 0xFFFE) = .ok (.bra c0 ⟨0xFFFFFFE⟩) ∧
    decode (word 0x141 0x00 0 0xBDC 0x001 0x0002) = .ok (.bruLabel c0 ⟨7, 0x0010002⟩) ∧
    decode (word 0x141 0x01 0 0xBC4 0x00C 0) = .ok (.bruRegister c0 ⟨1, .v 3 .plain⟩) ∧
    decode (word 0x142 0x00 0 0x410 0 0) = .ok (.brx c0 ⟨.s 4 .plain⟩) ∧
    decode (word 0x143 0x00 0x005 0 0x000 0x0010) = .ok (.call c0 ⟨.v 5, 0x10⟩) ∧
    decode (word 0x144 0x00 0x300 0x00C 0 0) = .ok (.callx c0 ⟨.disc, .v 3 .plain⟩) ∧
    decode (word 0x145 0x00 0 0x014 0 0) = .ok (.ret c0 ⟨.v 5 .plain⟩) ∧
    decode (word 0x146 0x00 0 0 0 0) = .ok (.exit c0) ∧
    decode (word 0x147 0x00 0 0 0 0x03E8) = .ok (.napImmediate c0 ⟨1000⟩) ∧
    decode (word 0x147 0x01 0 0x410 0 0) = .ok (.napRegister c0 ⟨.s 4 .plain⟩) := by decide +kernel

/-- Group 0x6 (R180, R194, R204, R210), the words of R194 and R209 among them. -/
theorem test_decode_group6 :
    decode (word 0x180 0x92 0x006 0x020 0 0xFE19) = .ok (.ld c0 ⟨.b64, .team, .acq, 3, 0x3F8, .v 6, .v 8 .plain⟩) ∧
    decode 0x6028040C0200000400040100 =
      .ok (.ld ⟨⟨false, 1⟩, ⟨0, false, true, false, 0, 1, 0, 0⟩⟩ ⟨.f32, .warp, .rlx, 0, 16, .v 12, .v 8 .plain⟩) ∧
    decode (word 0x181 0x86 0 0x020 0x00C 0x0402) = .ok (.st c0 ⟨.b32, .dev, .rel, 0, 0x10, .v 8 .plain, .v 3 .plain⟩) ∧
    decode (word 0x181 0x87 0 0x020 0x00C 0x4100) = .ok (.stCb c0 ⟨.b32, .dev, .v 8 .plain, .v 3 .plain, .s 4 .plain⟩) ∧
    decode (word 0x182 0x04 0 0x020 0 0x2000) = .ok (.prf c0 ⟨.i32, .coh, 0, 0x80, .v 8 .plain⟩) ∧
    decode (word 0x183 0x06 0 0x020 0x410 0) = .ok (.clean c0 ⟨.dev, .v 8 .plain, .s 4 .plain⟩) ∧
    decode (word 0x184 0x08 0 0x408 0xC40 0) = .ok (.inval c0 ⟨.sys, .s 2 .plain, .lit 16⟩) ∧
    decode (word 0x185 0x06 0 0x020 0x410 0) = .ok (.clinv c0 ⟨.dev, .v 8 .plain, .s 4 .plain⟩) ∧
    decode (word 0x186 0x06 0 0x020 0x410 0) = .ok (.drop c0 ⟨.dev, .v 8 .plain, .s 4 .plain⟩) ∧
    decode (word 0x190 0x16 0x005 0x020 0x00C 0x0073) = .ok (.atom c0 ⟨.inc, .n32, .dev, .ar, .v 5, .v 8 .plain, .v 3 .plain⟩) ∧
    decode (word 0x191 0xA6 0 0x020 0x00C 0x0002) = .ok (.red c0 ⟨.add, .f32, .dev, .rel, .v 8 .plain, .v 3 .plain⟩) ∧
    decode 0x64A61C10428010030B040A00 = .ok (.cas ⟨⟨false, 7⟩, ⟨0, false, true, false, 1, 2, 0, 0⟩⟩
      ⟨.b64pair, .sys, .ar, 16, .s 10 .plain, .v 4 .plain, .v 12 .plain, 3⟩) ∧
    decode 0x68019C000000000004040000 = .ok (.fence ⟨⟨false, 7⟩, ⟨0, false, true, false, 0, 0, 0, 0⟩⟩ ⟨.dev, .sc⟩) ∧
    decode 0x68401C000000000000000000 = .ok (.opfence c0) := by decide +kernel

/-- Group 0x7 (R240 to R242), the word of R242 among them. -/
theorem test_decode_group7 :
    decode 0x70001C080084100000040100 =
      .ok (.tlook ⟨⟨false, 7⟩, ⟨0, false, true, false, 0, 1, 0, 0⟩⟩ ⟨.ki32, .v 8, .v 2 .plain, .s 4 .plain⟩) ∧
    decode (word 0x1C1 0x00 0x008 0x008 0x410 0x8400) = .ok (.tseek c0 ⟨.ki32, false, .v 8, .v 2 .plain, .s 4 .plain, 0⟩) ∧
    decode (word 0x1C2 0x00 0x008 0 0 0x85C0) = .ok (.tnext c0 ⟨.v 8, 7⟩) ∧
    decode (word 0x1C3 0x00 0x300 0 0 0x8440) = .ok (.tprev c0 ⟨.disc, 1⟩) ∧
    decode (word 0x1C4 0x00 0 0 0 0x8440) = .ok (.tclose c0 ⟨1⟩) ∧
    decode (word 0x1C5 0x80 0x008 0x008 0xC14 0) = .ok (.tins c0 ⟨.kf32, .v 8, .v 2 .plain, .lit 5⟩) ∧
    decode (word 0x1C6 0xA0 0x008 0x010 0x410 0) = .ok (.tdel c0 ⟨.kc128, .v 8, .v 4 .plain, .s 4 .plain⟩) ∧
    decode (word 0x1C7 0x20 0x008 0x008 0x410 0x00C0) =
      .ok (.trekey c0 ⟨.kn32, .v 8, .v 2 .plain, .s 4 .plain, .v 3 .plain⟩) ∧
    decode (word 0x1C8 0x80 0 0x020 0x00C 0x0400) = .ok (.tadd c0 ⟨true, .v 8 .plain, .v 3 .plain, 0x10⟩) ∧
    decode (word 0x1C9 0x00 0x008 0 0x410 0) = .ok (.tpin c0 ⟨.v 8, .s 4 .plain⟩) ∧
    decode (word 0x1CA 0x00 0x008 0x00C 0x410 0) = .ok (.tunpin c0 ⟨.v 8, .v 3 .plain, .s 4 .plain⟩) ∧
    decode (word 0x1CB 0x00 0x008 0x00C 0x410 0x4140) =
      .ok (.tswap c0 ⟨.v 8, .v 3 .plain, .s 4 .plain, .s 5 .plain⟩) ∧
    decode (word 0x1CC 0x00 0x008 0 0x410 0) = .ok (.tstat c0 ⟨.v 8, .s 4 .plain⟩) ∧
    decode (word 0x1CD 0x00 0x008 0 0x410 0) = .ok (.tcount c0 ⟨.v 8, .s 4 .plain⟩) ∧
    decode (word 0x1CE 0x60 0x008 0x00C 0x410 0) = .ok (.trow c0 ⟨.kn64, .v 8, .v 3 .plain, .s 4 .plain⟩) := by decide +kernel

/-- Groups 0x8 and 0x9 (R159, R298, R310, R384), the words of R298 and R310 among them. -/
theorem test_decode_groups89 :
    decode 0x80001EF94400000000200000 =
      .ok (.push ⟨⟨false, 7⟩, ⟨2, false, false, false, 0, 0, 0, 0⟩⟩ ⟨0, 1, 16⟩) ∧
    decode (word 0x201 0x00 0 0xC0C 0 0) = .ok (.waitany c0 ⟨.lit 3⟩) ∧
    decode (word 0x202 0x00 0 0x410 0 0) = .ok (.waitall c0 ⟨.s 4 .plain⟩) ∧
    decode (word 0x203 0x00 0x105 0x410 0 0) = .ok (.ffr c0 ⟨5, .s 4 .plain⟩) ∧
    decode (word 0x204 0x00 0 0xC0C 0 0) = .ok (.tagclr c0 ⟨.lit 3⟩) ∧
    decode (word 0x205 0x00 0 0x410 0 0) = .ok (.leaseRegister c0 ⟨.s 4 .plain⟩) ∧
    decode (word 0x205 0x01 0 0 0 0x0100) = .ok (.leaseImmediate c0 ⟨0x100⟩) ∧
    decode (word 0x206 0x00 0 0 0 0) = .ok (.unlease c0) ∧
    decode (word 0x207 0x00 0 0xC0C 0 0) = .ok (.tagset c0 ⟨.lit 3⟩) ∧
    decode (word 0x240 0x00 0 0xC3C 0 0) = .ok (.bar c0 ⟨.lit 15⟩) ∧
    decode (word 0x241 0x40 0x105 0x00C 0x410 0) = .ok (.barx c0 ⟨.max, .i32, .s 5, .v 3 .plain, .s 4 .plain⟩) ∧
    decode (word 0x242 0x00 0 0x008 0 0) = .ok (.syncm c0 ⟨.v 2 .plain⟩) ∧
    decode (word 0x243 0x00 0 0x410 0xC40 0) = .ok (.cbarm c0 ⟨4, .lit 16⟩) ∧
    decode (word 0x244 0x00 0x2FA 0x410 0x414 0) = .ok (.cbwait c0 ⟨2, 4, .s 5 .plain⟩) ∧
    decode 0x91401C000504000208040000 =
      .ok (.regrp ⟨⟨false, 7⟩, ⟨0, false, true, false, 0, 0, 0, 0⟩⟩ ⟨false, 20, 0, 0, 8, 8⟩) ∧
    decode 0x91801C000004000208040000 =
      .ok (.regrpb ⟨⟨false, 7⟩, ⟨0, false, true, false, 0, 0, 0, 0⟩⟩ ⟨0, 0, 8, 8⟩) := by decide +kernel

/-- Groups 0xA and 0xB (R288, R342). -/
theorem test_decode_groupsAB :
    decode (word 0x280 0x01 0 0xC0C 0 0x0005) = .ok (.pmodePress c0 ⟨.lit 3, 5⟩) ∧
    decode (word 0x280 0x00 0 0x410 0 0x0005) = .ok (.pmodeCache c0 ⟨.s 4 .plain, 5⟩) ∧
    decode (word 0x281 0x00 0x104 0x414 0x418 0) = .ok (.pxin c0 ⟨4, 5, 6⟩) ∧
    decode (word 0x282 0x00 0x104 0x414 0x418 0) = .ok (.pxout c0 ⟨4, 5, 6⟩) ∧
    decode (word 0x283 0x80 0x104 0x414 0x418 0) = .ok (.padd c0 ⟨true, false, 4, 5, .s 6 .plain⟩) ∧
    decode (word 0x284 0xC0 0x104 0x414 0xC08 0) = .ok (.psub c0 ⟨true, true, 4, 5, .lit 2⟩) ∧
    decode (word 0x285 0x00 0x104 0x414 0x418 0) = .ok (.pmul c0 ⟨false, false, 4, 5, .s 6 .plain⟩) ∧
    decode (word 0x286 0x40 0x104 0x414 0x418 0) = .ok (.pand c0 ⟨false, true, 4, 5, .s 6 .plain⟩) ∧
    decode (word 0x287 0x00 0x104 0x414 0x418 0) = .ok (.por c0 ⟨false, false, 4, 5, .s 6 .plain⟩) ∧
    decode (word 0x288 0x00 0x104 0x414 0x418 0) = .ok (.pxor c0 ⟨false, false, 4, 5, .s 6 .plain⟩) ∧
    decode (word 0x289 0x00 0x104 0x414 0 0) = .ok (.pnot c0 ⟨4, 5⟩) ∧
    decode (word 0x28A 0x83 0x104 0x414 0x418 0) = .ok (.pcmp c0 ⟨.le, true, false, 4, 5, .s 6 .plain⟩) ∧
    decode (word 0x28B 0x00 0x104 0x414 0x418 0x41C0) = .ok (.psel c0 ⟨4, 5, 6, 7⟩) ∧
    decode (word 0x28C 0x80 0x104 0x414 0xC00 0xC140) = .ok (.psat c0 ⟨true, 4, 5, .lit 0, .lit 5⟩) ∧
    decode (word 0x28D 0x00 0x104 0x414 0 0) = .ok (.pcnt c0 ⟨4, 5⟩) ∧
    decode (word 0x28E 0x00 0x104 0x414 0xC08 0) = .ok (.pshl c0 ⟨false, 4, 5, .lit 2⟩) ∧
    decode (word 0x28F 0x80 0x104 0x414 0x418 0) = .ok (.pshr c0 ⟨true, 4, 5, .s 6 .plain⟩) ∧
    decode (word 0x290 0x00 0 0xC0C 0 0) = .ok (.psync c0 ⟨.lit 3⟩) ∧
    decode (word 0x2C0 0x00 0 0 0 0xFFFF) = .ok (.trap c0 ⟨0xFFFF⟩) ∧
    decode (word 0x2C1 0x00 0 0 0 0) = .ok (.eret c0) ∧
    decode (word 0x2C2 0x00 0x105 0x8F0 0 0) = .ok (.movs c0 ⟨.s 5, 60⟩) ∧
    decode (word 0x2C3 0x00 0x23B 0xC04 0 0) = .ok (.movw c0 ⟨.lit 1⟩) ∧
    decode (word 0x2C4 0x00 0 0 0 0x0007) = .ok (.bkpt c0 ⟨7⟩) ∧
    decode (word 0x2C5 0xFF 0x3FF 0xFFF 0xFFF 0xFFFF) = .ok (.illeg c0 (BitVec.allOnes 58)) ∧
    decode (word 0x2C6 0x00 0x2F9 0 0 0) = .ok (.stopchk c0 ⟨1⟩) ∧
    decode (word 0x2C7 0x00 0 0x410 0 0x0102) = .ok (.mark c0 ⟨0x102, .s 4 .plain⟩) := by decide +kernel

/-! ### Ill-formed instructions, one for each check -/

theorem test_illformed_groups012 : ([
    .mov c0 ⟨.f16, .v 1, .v 2 .plain⟩, .mov c0 ⟨.b32, .p 1, .v 2 .plain⟩, .mov c0 ⟨.b32, .v 1, .imm 0⟩,
    .mov c0 ⟨.b64, .s 1, .v 2 .plain⟩, .movQueuePop c0 ⟨0, .v 2⟩, .movQueuePop c0 ⟨12, .s 2⟩, .movQueuePop c0 ⟨9, .v 2⟩,
    .movQueuePush c0 ⟨12, .v 2 .plain⟩, .movQueuePush c0 ⟨8, .s 2 .plain⟩, .movi c0 ⟨.i16, .v 1, 0⟩, .movi c0 ⟨.i32, .c 1, 0⟩,
    .iadd c0 ⟨.b32, false, .v 1, .v 2 .plain, .v 3 .plain⟩, .iadd c0 ⟨.i32, false, .p 1, .v 2 .plain, .v 3 .plain⟩,
    .iadd c0 ⟨.i32, false, .v 1, .imm 2, .v 3 .plain⟩, .iadd c0 ⟨.i64, false, .s 1, .s 2 .plain, .v 4 .plain⟩,
    .imulh c0 ⟨.i32, true, .v 1, .v 2 .plain, .v 3 .plain⟩, .imulh c0 ⟨.i32, false, .v 1, .v 2 .plain, .imm 3⟩,
    .imad c0 ⟨.b32, false, .v 1, .v 2 .plain, .v 3 .plain, .v 4 .plain⟩, .imadw c0 ⟨.i64, false, .v 2, .v 2 .plain, .v 4 .plain, .v 4 .plain⟩,
    .iabs c0 ⟨.n32, false, .v 1, .v 2 .plain⟩, .inot c0 ⟨.b32, true, .v 1, .v 2 .plain⟩, .shl c0 ⟨.f32, false, .v 1, .v 2 .plain, .v 3 .plain⟩,
    .sel c0 ⟨.f16, .v 1, .v 2 .plain, .v 3 .plain, false, 0⟩, .lea c0 ⟨.f32, .v 2, .v 4 .plain, .v 3 .plain, 0⟩,
    .bpick c0 ⟨.i32, false, .v 1, .v 2 .plain, .v 3 .plain, .v 4 .plain⟩, .fadd c0 ⟨.rn, false, false, .s 1, .v 2 .plain, .v 3 .plain⟩,
    .fmin c0 ⟨.rz, false, false, .v 1, .v 2 .plain, .v 3 .plain⟩, .fclamp c0 ⟨.rn, true, false, .v 1, .v 2 .plain, .v 3 .plain, .v 4 .plain⟩,
    .hmin2 c0 ⟨false, .rz, false, false, .v 1, .v 2 .plain, .v 3 .plain⟩, .cvt c0 ⟨.b32, .f32, .rn, false, false, .v 1, .v 2 .plain⟩,
    .cvt c0 ⟨.f32, .b64, .rn, false, false, .v 1, .v 2 .plain⟩, .frnd c0 ⟨.f32, .rn, false, .s 1, .v 2 .plain⟩,
    .rand c0 ⟨.i32, .v 1, .v 2 .plain, .s 4 .plain⟩, .rand c0 ⟨.n32, .v 1, .v 2 .plain, .v 4 .plain⟩,
    .csamp c0 ⟨.v 1, .v 2 .plain, .v 4 .plain⟩] : List Instr).all (fun i => !i.wellFormed) = true := by decide +kernel

theorem test_illformed_groups345 : ([
    .shfl c0 ⟨.idx, .disc, .v 1 .plain, .v 2 .plain, 0⟩, .shfl c0 ⟨.idx, .v 1, .s 1 .plain, .v 2 .plain, 0⟩,
    .pswap c0 ⟨.v 3, .v 2 .plain, 0⟩, .qswap c0 ⟨.h, .disc, .v 1 .plain, 0⟩, .qbcast c0 ⟨.v 1, .v 2 .plain, .lit 4, 0⟩,
    .vote c0 ⟨.ballot, .p 1, 0⟩, .vote c0 ⟨.any, .s 1, 0⟩, .matchLanes c0 ⟨.f16, .v 2, .v 1 .plain⟩, .matchLanes c0 ⟨.i32, .v 3, .v 1 .plain⟩,
    .rdx c0 ⟨.add, .b32, .rn, .s 1, .v 1 .plain, 7⟩, .rdx c0 ⟨.min, .f32, .rz, .s 1, .v 1 .plain, 7⟩, .rdx c0 ⟨.and, .f32, .rn, .s 1, .v 1 .plain, 7⟩,
    .scn c0 ⟨.add, .i32, .rn, .v 1, .v 2 .plain, .disc, 7⟩, .elect c0 ⟨1, .v 1⟩, .itest c0 ⟨.b32, .eq, .p 1, .v 1 .plain, .v 2 .plain⟩,
    .itest c0 ⟨.i32, .num, .p 1, .v 1 .plain, .v 2 .plain⟩, .itest c0 ⟨.i32, .nan, .p 1, .v 1 .plain, .v 2 .plain⟩,
    .itest c0 ⟨.i32, .eq, .v 1, .v 1 .plain, .v 2 .plain⟩, .itest c0 ⟨.i32, .eq, .c 1, .v 1 .plain, .s 2 .plain⟩,
    .ftest c0 ⟨.eq, .disc, .v 1 .plain, .v 2 .plain⟩, .htest2 c0 ⟨false, .eq, .p 1, 1, .v 1 .plain, .v 2 .plain⟩,
    .htest2 c0 ⟨false, .eq, .c 1, 1, .s 1 .plain, .s 2 .plain⟩, .cset c0 ⟨1, .v 1 .plain⟩, .bruRegister c0 ⟨7, .lit 1⟩,
    .brx c0 ⟨.lit 1⟩, .call c0 ⟨.s 1, 0⟩, .callx c0 ⟨.v 1, .lit 2⟩, .napRegister c0 ⟨.v 1 .plain⟩] : List Instr).all
      (fun i => !i.wellFormed) = true := by decide +kernel

theorem test_illformed_groups67 : ([
    .ld c0 ⟨.b32, .dev, .rel, 0, 0, .v 1, .v 2 .plain⟩, .ld c0 ⟨.b32, .dev, .rlx, 0, 0, .s 1, .v 2 .plain⟩, .ld c0 ⟨.b32, .dev, .rlx, 0, 0, .v 1, .lit 2⟩,
    .ld c0 ⟨.b32, .dev, .rlx, 0, 0, .v 1, .v 3 .plain⟩, .ld c0 ⟨.b64, .dev, .rlx, 0, 0, .v 1, .v 2 .plain⟩, .st c0 ⟨.b32, .dev, .acq, 0, 0, .v 2 .plain, .v 1 .plain⟩,
    .stCb c0 ⟨.b32, .dev, .v 2 .plain, .v 1 .plain, .v 4 .plain⟩, .prf c0 ⟨.b32, .dev, 0, 0, .lit 0⟩, .clean c0 ⟨.dev, .v 2 .plain, .v 4 .plain⟩,
    .atom c0 ⟨.add, .b32, .dev, .rlx, .v 1, .v 2 .plain, .v 4 .plain⟩, .atom c0 ⟨.inc, .i32, .dev, .rlx, .v 1, .v 2 .plain, .v 4 .plain⟩,
    .atom c0 ⟨.and, .f32, .dev, .rlx, .v 1, .v 2 .plain, .v 4 .plain⟩, .red c0 ⟨.add, .i32, .dev, .acq, .v 2 .plain, .v 4 .plain⟩,
    .cas c0 ⟨.n64, .dev, .rlx, 2, .v 2 .plain, .lit 4, .v 4 .plain, 7⟩, .cas c0 ⟨.b64pair, .dev, .rlx, 4, .v 2 .plain, .s 4 .plain, .v 4 .plain, 7⟩,
    .fence c0 ⟨.dev, .rlx⟩, .tlook c0 ⟨.ki32, .v 2, .v 1 .plain, .s 4 .plain⟩, .tlook c0 ⟨.kc128, .v 4, .s 1 .plain, .s 4 .plain⟩,
    .tlook c0 ⟨.ki32, .v 4, .v 1 .plain, .lit 0x80⟩, .tlook c0 ⟨.ki32, .v 4, .v 1 .plain, .v 2 .plain⟩, .tseek c0 ⟨.ki32, true, .v 4, .lit 1, .s 4 .plain, 0⟩,
    .tseek c0 ⟨.ki32, true, .v 4, .v 255 .plain, .s 4 .plain, 0⟩, .tnext c0 ⟨.s 4, 0⟩, .trekey c0 ⟨.kc128, .v 4, .v 8 .plain, .s 4 .plain, .lit 1⟩,
    .tadd c0 ⟨false, .lit 0, .v 1 .plain, 0⟩, .tpin c0 ⟨.p 1, .s 4 .plain⟩, .tunpin c0 ⟨.v 4, .v 1 .plain, .v 1 .plain⟩,
    .tswap c0 ⟨.v 4, .v 1 .plain, .s 4 .plain, .lit 0xFF⟩, .trow c0 ⟨.ki32, .v 4, .imm 0, .s 4 .plain⟩] : List Instr).all
      (fun i => !i.wellFormed) = true := by decide +kernel

theorem test_illformed_groups89AB : ([
    .push c0 ⟨0, 0, 4⟩, .waitany c0 ⟨.lit 0⟩, .waitall c0 ⟨.v 1 .plain⟩, .waitall c0 ⟨.s 1 .last⟩, .ffr c0 ⟨1, .v 1 .plain⟩,
    .leaseRegister c0 ⟨.lit 0⟩, .leaseImmediate c0 ⟨0⟩, .bar c0 ⟨.lit 16⟩, .bar c0 ⟨.v 1 .plain⟩, .syncm c0 ⟨.v 1 .plain⟩, .syncm c0 ⟨.imm 1⟩,
    .barx c0 ⟨.xor, .i32, .s 1, .v 1 .plain, .lit 0⟩, .barx c0 ⟨.add, .b32, .s 1, .v 1 .plain, .lit 0⟩, .barx c0 ⟨.add, .i32, .v 1, .v 1 .plain, .lit 0⟩,
    .barx c0 ⟨.add, .i32, .s 1, .v 1 .plain, .lit 16⟩, .cbarm c0 ⟨1, .lit 0x80⟩, .cbarm c0 ⟨1, .v 1 .plain⟩, .cbwait c0 ⟨1, 1, .s 2 .keep⟩,
    .regrp c0 ⟨false, 1, 0, 0, 33, 0⟩, .regrp c0 ⟨false, 1, 0, 0, 0, 17⟩, .regrp c0 ⟨false, 1, 224, 0, 32, 0⟩, .regrp c0 ⟨false, 1, 4, 0, 0, 1⟩,
    .regrpb c0 ⟨0, 4, 1, 0⟩, .pmodePress c0 ⟨.v 1 .plain, 0⟩, .pand c0 ⟨true, false, 1, 2, .s 3 .plain⟩, .padd c0 ⟨true, false, 1, 2, .lit 3⟩,
    .padd c0 ⟨true, true, 1, 2, .s 3 .last⟩, .pcmp c0 ⟨.num, false, true, 1, 2, .lit 3⟩, .psat c0 ⟨false, 1, 2, .v 0 .plain, .lit 3⟩,
    .pshl c0 ⟨true, 1, 2, .lit 3⟩, .psync c0 ⟨.v 1 .plain⟩, .movs c0 ⟨.v 1, 3⟩, .movs c0 ⟨.s 1, 46⟩, .movs c0 ⟨.disc, 32⟩, .movw c0 ⟨.v 1 .plain⟩,
    .mark c0 ⟨0, .v 1 .plain⟩] : List Instr).all (fun i => !i.wellFormed) = true := by decide +kernel

/-- Parts that the module does not have (R11 to R17, R21). -/
theorem test_illformed_parts : ([
    .napEnd 256 0, .napEnd 0 64, .runIssue 0 2, .pressEntryCompletion 24, .homeRequest 192, .portFailure 16, .gemm 256 0,
    .commandCompletion 0 7 0, .setasideExpiry 128, .packetStart 64, .teamPlacement 4, .clockChange 4, .cdb 9 0 none [], .ldb 8 0 0 none []] :
      List Instr).all (fun i => !i.wellFormed) = true := by decide +kernel

/-! ### Words the decoder refuses (R80, R83, R84, R87, R88, R100, R101) -/

theorem test_refused_opcodes :
    ([word 0x01C 0 0 0 0 0, word 0x081 0 0 0 0 0, word 0x148 0 0 0 0 0, word 0x1CF 0 0 0 0 0, word 0x208 0 0 0 0 0, word 0x291 0 0 0 0 0,
      word 0x2C8 0 0 0 0 0, word 0x300 0 0 0 0 0, word 0x3FF 0 0 0 0 0] : List InstrWord).all
        (fun u => decode u == .error ⟨.illegalOpcode, c0, false⟩) = true := by decide +kernel

theorem test_refused_fields :
    ([word 0x000 0x01 0 0 0 0, word 0x000 0 1 0 0 0, word 0x000 0 0 1 0 0, word 0x000 0 0 0 1 0, word 0x000 0 0 0 0 1,
      word 0x003 0x01 0x005 0x00C 0x010 0, word 0x003 0x04 0x005 0x00C 0x010 1, word 0x003 0x00 0x005 0x00C 0x010 1,
      word 0x003 0x00 0x005 0x00F 0x010 0, word 0x003 0x00 0x005 0xC01 0x010 0, word 0x003 0x00 0x005 0x800 0x010 0, word 0x003 0x00 0x218 0x00C 0x010 0,
      word 0x019 0x00 0x005 0x004 0x008 0xBE80, word 0x043 0xA0 0x005 0x004 0x008 0x00C0, word 0x080 0xA4 0x005 0x004 0 0x0020,
      word 0x180 0x9A 0x006 0x020 0 0, word 0x180 0x92 0x006 0x020 0 5, word 0x191 0xA6 0 0x020 0x00C 0x0092, word 0x1C0 0xC0 0x008 0x008 0x410 0,
      word 0x1C2 0x00 0x008 0 0 0x8600, word 0x2C1 0x01 0 0 0 0] : List InstrWord).all
        (fun u => match decode u with
          | .error j => j.code == .illegalOperand
          | .ok _ => false) = true := by decide +kernel

/-! ### Values that the spec works out -/

/-- R114: ISUB.N32.SAT of 3 and 5 gives 0, IMUL.I32.SAT of 65,536 and 65,536 the largest I32; without SAT they wrap. -/
theorem test_sat_values : tyRes .n32 true (3 - 5) = 0 ∧ tyRes .i32 true (65536 * 65536) = 0x7FFFFFFF ∧
    tyRes .n32 false (3 - 5) = 0xFFFFFFFE ∧ tyRes .i32 false (65536 * 65536) = 0 := by decide +kernel

/-- R115, R116: counts of the width and more; BFE.N32 with 0x0804 takes bits [11:4]. -/
theorem test_shift_values : shlBits 32 1 32 = 0 ∧ shrBits 32 0xFFFFFFFF 33 = 0 ∧ sarBits 32 0x80000000 99 = 0xFFFFFFFF ∧
    rolBits 32 0x80000001 33 = 3 ∧ bfeBits .n32 0x00000AB0 0x0804 = 0xAB ∧ bfeBits .i32 0x00000AB0 0x0804 = 0xFFFFFFAB ∧
    bfiBits 32 0xFF 0 0x0404 = 0xF0 := by decide +kernel

/-- R120: the three selectors of the rule. -/
theorem test_bpick_values : bpickBits 0xA1B2C3D4 0 0x03020100 = 0xA1B2C3D4 ∧ bpickBits 0xA1B2C3D4 0 0x00010203 = 0xD4C3B2A1 ∧
    bpickBits 0x000000D4 0 0x20202000 = 0xFFFFFFD4 := by decide +kernel

/-- R122: `MOVI.F32 V3, 1.5f` writes 0x3FC0_0000. -/
theorem test_movi_value : moviBits .f32 0x3FC0000 = 0x3FC00000 ∧ (moviBits .i32 0xFFFFFFF).truncate 32 = 0xFFFFFFFF#32 := by decide +kernel

/-- R157: 1 + 2^24 is 2^24 under RN, a tie to even; 1.5 × 1.5 is 2.25; ∞ − ∞ is the canonical NaN 0x7FC0_0000 (R53). -/
theorem test_float_values :
    to32x .rn false false (FV.add .rn (f32 0x3F800000) (f32 0x4B800000)) = 0x4B800000 ∧
    to32x .rn false false (FV.mul (f32 0x3FC00000) (f32 0x3FC00000)) = 0x40100000 ∧
    to32x .rn false false (FV.add .rn (f32 0x7F800000) (f32 0xFF800000)) = 0x7FC00000 := by decide +kernel

/-- R143: −0 is below +0; R126: −0 equals +0, and a NaN is unordered. -/
theorem test_zero_order : minBits fmt32 false 0x80000000 0 = 0x80000000 ∧ maxBits fmt32 false 0x80000000 0 = 0 ∧
    cmpFV .eq (f32 0x80000000) (f32 0) = true ∧ cmpFV .le (f32 0x7FC00000) (f32 0) = false ∧
    cmpFV .ne (f32 0x7FC00000) (f32 0) = true := by decide +kernel

/-- R85: the literal 17 becomes 16 in E4M3. -/
theorem test_cvt_value : cvtBits .e4m3 .i32 .rn false false 17 = cvtBits .e4m3 .i32 .rn false false 16 := by decide +kernel

/-! ### A small module, and what it takes to meet the hypotheses of a statement about a word -/

/-- A kernel of one warp of 16 threads: 32 KiB of scratchpad, 128 S and 40 V registers, eight tags, a handler at word 100. -/
def tk : KernelF := ⟨8, 8, 1, 128, 40, false, false, 16, 0, 0, true, 100, 16, 1, false⟩
def tg : Grid := ⟨1, 0, 0, 0, tk, 1, 0, false, false, false⟩
/-- A run of 16 lanes that stands at word 5. -/
def tr : Run := ⟨List.range 16, 5, 5, 0, 0, [], false, false, none⟩
def tw : Warp := { newWarp tg 3 2 0 0 0 0 with acqFirst := false, run := some tr }
/-- Two cores, one warp in slot 0 of core 0, its run in execution. -/
def t0 : State := { State.reset with
  uid := 10, cur := some (0, 0), boot := { Boot.reset with st := .ready }, cores := [Core.reset, Core.reset],
  grids := [tg], teams := [newTeam tg 2 0 0], warps := [tw] }
/-- The module with its warp changed. -/
def tst (f : Warp → Warp) : State := { t0 with warps := [f tw] }

/-- A ready word, as a test. -/
def readyB (i : WordInfo) (s : State) (w : Warp) (r : Run) : Bool :=
  !(actsOf i s w r).isEmpty && i.declared (s.gridOf w.grid).f.vregs (s.gridOf w.grid).f.sregs && i.aligned && schedOk i r.n &&
  !((s.gridOf w.grid).f.checker && w.stallShort i r (actsOf i s w r)) && !w.tokFull i.ctl.sch.setw && !w.tokFull i.ctl.sch.setr

def meets (n : WordInfo) (s : State) (p : Wx → State → Bool) : Bool :=
  match s.inRun with
  | none => false
  | some (w, r) => readyB n s w r && p (seenBy n s w r) (startOf n s w r)

/-- Some state in which the word described by `n` is ready, and what it sees meets `pre`. -/
def Meets (n : WordInfo) (pre : Wx → State → Prop) : Prop :=
  ∃ s w r, Ready n s w r ∧ pre (seenBy n s w r) (startOf n s w r)

theorem ready_of {i : WordInfo} {s : State} {w : Warp} {r : Run} (hr : s.inRun = some (w, r)) (h : readyB i s w r = true) :
    Ready i s w r := by
  simp only [readyB, Bool.and_eq_true, Bool.not_eq_true'] at h
  obtain ⟨⟨⟨⟨⟨⟨a, b⟩, c⟩, d⟩, e⟩, f⟩, g⟩ := h
  exact ⟨hr, a, b, c, d, e, f, g⟩

theorem meets_of (s : State) {n : WordInfo} {pre : Wx → State → Prop} [∀ x s, Decidable (pre x s)]
    (h : meets n s (fun x s => decide (pre x s)) = true) : Meets n pre := by
  simp only [meets] at h
  split at h
  · exact absurd h (by simp)
  · next w r hr =>
    rw [Bool.and_eq_true] at h
    exact ⟨s, w, r, ready_of hr h.1, of_decide_eq_true h.2⟩

theorem Meets.mono {n : WordInfo} {p q : Wx → State → Prop} (h : ∀ x s, p x s → q x s) : Meets n p → Meets n q
  | ⟨s, w, r, hr, hp⟩ => ⟨s, w, r, hr, h _ _ hp⟩

/-- What a state determines need not be written out. -/
theorem meets_ex {n : WordInfo} {β : Type} {pre : Wx → State → Prop} {q : β → Wx → State → Prop} (h : Meets n pre)
    (hq : ∀ x s, pre x s → ∃ b, q b x s) : ∃ b, Meets n (q b) :=
  match h with
  | ⟨s, w, r, hr, hp⟩ => let ⟨b, hb⟩ := hq _ _ hp; ⟨b, s, w, r, hr, hb⟩

theorem ok_of {α ε : Type} {e : Except ε α} {a : α} (h : e.toOption = some a) : e = .ok a := by
  cases e with
  | error _ => exact absurd h (by simp [Except.toOption])
  | ok b => simpa [Except.toOption] using h

theorem error_of {α ε : Type} {e : Except ε α} (h : e.toOption = none) : ∃ x, e = .error x := by
  cases e with
  | error x => exact ⟨x, rfl⟩
  | ok b => exact absurd h (by simp [Except.toOption])

theorem runs_all {l : List WordInfo} (s : State) (h : l.all (fun n => meets n s fun _ _ => true) = true) :
    ∀ n ∈ l, ∃ s w r, Ready n s w r := by
  intro n hn
  have := List.all_eq_true.mp h n hn
  simp only [meets] at this
  split at this
  · exact absurd this (by simp)
  · next w r hr =>
    rw [Bool.and_eq_true] at this
    exact ⟨s, w, r, ready_of hr this.1⟩

/-- The guard PT or CT, and END. -/
def ce : Ctl := ⟨⟨false, 7⟩, ⟨0, false, true, false, 0, 0, 0, 0⟩⟩
def i1 : Int1 := ⟨.i32, false, .v 5, .v 3 .plain⟩
def i2 : Int2 := ⟨.i32, false, .v 5, .v 3 .plain, .v 4 .last⟩
def i3 : Int3 := ⟨.i32, false, .v 6, .v 2 .plain, .v 4 .keep, .v 8 .plain⟩
def f2 : F2 := ⟨.rn, false, false, .v 5, .v 3 .plain, .v 4 .plain⟩
def f3 : F3 := ⟨.rn, false, false, .v 5, .v 3 .plain, .v 4 .plain, .v 39 .plain⟩
def h2o : H2 := ⟨true, .rn, false, false, .v 5, .v 3 .plain, .v 4 .plain⟩
def h3o : H3 := ⟨true, .rn, false, false, .v 5, .v 3 .plain, .v 4 .plain, .v 39 .plain⟩
def so : SfuOp := ⟨false, false, .v 5, .v 3 .plain⟩

/-! ### Hypotheses that are met -/

theorem witness_IntegerArithmetic : ∀ n ∈ [infoInt2 c0 i2 2 1, infoInt2 c0 ⟨.i64, true, .s 127, .s 3 .plain, .imm 9⟩ 2 2, infoInt2 c0 i2 4 1,
    infoInt3 c0 i3 4 1 1 1 1, infoInt3 c0 i3 4 1 1 2 2, infoInt1 c0 i1 2], ∃ s w r, Ready n s w r := runs_all t0 (by decide +kernel)

theorem witness_IntegerBits : ∀ n ∈ [infoInt2 c0 i2 2 1, infoInt2 c0 ⟨.b64, false, .v 38, .v 2 .plain, .v 39 .plain⟩ 2 1,
    infoInt3 c0 i3 2 1 1 1 1, infoInt1 c0 ⟨.b64, false, .disc, .v 255 .plain⟩ 2, infoInt1 c0 i1 2], ∃ s w r, Ready n s w r :=
  runs_all t0 (by decide +kernel)

theorem witness_MovesAndSelects : ∀ n ∈ [infoNop c0, infoMov c0 ⟨.b32, .v 4, .v 3 .plain⟩, infoMov c0 ⟨.b64, .s 4, .s 3 .last⟩,
    infoMovi c0 ⟨.b64, .v 38, 0x1FFFF00⟩, infoSel c0 ⟨.f32, .v 5, .v 1 .plain, .v 2 .plain, true, 2⟩,
    infoSel c0 ⟨.b64, .s 5, .s 1 .plain, .s 2 .plain, false, 7⟩, infoLea c0 ⟨.i32, .v 10, .v 8 .plain, .v 3 .plain, 2⟩],
    ∃ s w r, Ready n s w r := runs_all t0 (by decide +kernel)

theorem witness_FloatArithmetic : ∀ n ∈ [infoF2 c0 f2 4, infoF3 c0 f3 4, infoF2 c0 f2 2, infoF3 c0 f3 2], ∃ s w r, Ready n s w r :=
  runs_all t0 (by decide +kernel)

theorem witness_PackedArithmetic : ∀ n ∈ [infoH2 c0 h2o 4, infoH3 c0 h3o 4, infoH2 c0 h2o 2], ∃ s w r, Ready n s w r :=
  runs_all t0 (by decide +kernel)

theorem witness_ConversionsAndFunctions : ∀ n ∈ [infoCvt c0 ⟨.f32, .i16, .rz, true, true, .v 5, .v 1 .plain⟩,
    infoCvt c0 ⟨.i64, .f32, .rn, false, false, .v 6, .v 1 .plain⟩, infoFrnd c0 ⟨.bf16, .rm, false, .v 5, .v 1 .plain⟩, infoSfu c0 so 1,
    infoSfu c0 ⟨false, false, .v 6, .v 1 .plain⟩ 2, infoRand c0 ⟨.n64, .v 6, .v 1 .plain, .s 4 .plain⟩], ∃ s w r, Ready n s w r :=
  runs_all t0 (by decide +kernel)

theorem witness_CrossLaneExchange : ∀ n ∈ [infoShfl c0 ⟨.down, .v 5, .v 1 .plain, .v 2 .plain, 2⟩, infoPswap c0 ⟨.v 6, .v 2 .plain, 2⟩,
    infoQswap c0 ⟨.v, .v 5, .v 1 .plain, 2⟩, infoQbcast c0 ⟨.v 5, .v 1 .plain, .lit 3, 2⟩, infoVote c0 ⟨.ballot, .s 5, 1⟩,
    infoVote c0 ⟨.any, .c 1, 1⟩, infoVote c0 ⟨.ballot, .v 6, 7⟩, infoMatch c0 ⟨.n32, .v 6, .v 1 .plain⟩, infoElect c0 ⟨1, .s 5⟩],
    ∃ s w r, Ready n s w r := runs_all t0 (by decide +kernel)

theorem witness_ComparesAndPredicates : ∀ n ∈ [infoItest c0 ⟨.i32, .lt, .p 1, .v 1 .plain, .imm 0x8000⟩,
    infoItest c0 ⟨.n64, .lt, .c 1, .s 1 .plain, .lit 3⟩, infoFtest c0 ⟨.nan, .p 1, .v 1 .plain, .v 2 .plain⟩,
    infoHtest2 c0 ⟨true, .eq, .p 1, 2, .v 1 .plain, .v 2 .plain⟩, infoPcomb c0 ⟨.andn, 1, 2, 3⟩, infoCcomb c0 ⟨.xor, 1, 2, 3⟩,
    infoCset c0 ⟨1, .s 4 .plain⟩, infoP2s c0 ⟨5, 1⟩, infoS2p c0 ⟨1, .s 4 .plain⟩], ∃ s w r, Ready n s w r :=
  runs_all t0 (by decide +kernel)

def rdxO : RdxOp := ⟨.add, .i32, .rn, .s 5, .v 1 .plain, 7⟩
def csO : CsampOp := ⟨.v 5, .v 1 .plain, .s 4 .plain⟩
/-- Every vector register of every lane 1.0, S4 0.5. -/
def tOnes : State := tst fun w => { w with
  lanes := w.lanes.map fun l => { l with v := List.replicate 40 0x3F800000 }, s := w.s.set 4 0x3F000000 }

theorem witness_Reductions :
    (∃ r, Meets (infoRdx c0 rdxO) fun x _ => rdxValue x rdxO = some r) ∧
    Meets (infoRdx c0 ⟨.add, .i32, .rn, .s 5, .v 1 .plain, 1⟩) (fun x _ => rdxValue x ⟨.add, .i32, .rn, .s 5, .v 1 .plain, 1⟩ = none) ∧
    Meets (infoScn c0 ⟨.min, .n32, .rn, .v 5, .v 1 .plain, .s 5, 7⟩) (fun _ _ => True) ∧
    (∃ n, Meets (infoCsamp c0 csO) fun x _ =>
      csampLane (f32 (x.w.src32 x.low csO.b .f32)) (x.thr.map fun l => (l, f32 (x.w.src32 l csO.a .f32))) = some n) ∧
    Meets (infoCsamp c0 csO) (fun x _ =>
      csampLane (f32 (x.w.src32 x.low csO.b .f32)) (x.thr.map fun l => (l, f32 (x.w.src32 l csO.a .f32))) = none) :=
  ⟨⟨0, meets_of t0 (by decide +kernel)⟩, meets_of t0 (by decide +kernel), meets_of t0 (by decide +kernel),
   ⟨8, meets_of tOnes (by decide +kernel)⟩, meets_of t0 (by decide +kernel)⟩

/-- The module under the hazard checker. -/
def tCheck (f : Warp → Warp) : State := { tst f with grids := [{ tg with f := { tk with checker := true } }] }

theorem witness_ControlTransfers :
    (∀ n ∈ [infoBra ce, infoTarget ce ⟨.v 3 .plain⟩, infoCall ce ⟨.v 5, 0x10⟩, infoCallx ce ⟨.disc, .s 4 .plain⟩], ∃ s w r, Ready n s w r) ∧
    Meets (infoBruLabel ce ⟨7, 16⟩) (fun x _ => x.g.f.checker = true ∧ ∀ l ∈ x.run.lanes,
      (x.w.lane l).getP 7 = (x.w.lane (x.run.lanes.headD 0)).getP 7) ∧
    Meets (infoBruReg ce ⟨1, .v 3 .plain⟩) (fun x _ => x.g.f.checker = true ∧ ∀ l ∈ x.run.lanes,
      (x.w.lane l).getP 1 = (x.w.lane (x.run.lanes.headD 0)).getP 1 ∧ ((x.w.lane (x.run.lanes.headD 0)).getP 1 = true →
        x.w.src32 l (.v 3 .plain) .n32 = x.w.src32 (x.run.lanes.headD 0) (.v 3 .plain) .n32)) :=
  ⟨runs_all t0 (by decide +kernel), meets_of (tCheck id) (by decide +kernel), meets_of (tCheck id) (by decide +kernel)⟩

/-- The warp is MIXED (R90, R303). -/
def tMixed : State := tst fun w => { w with wst := BitVec.allOnes 5 }

/-- Lane 1 differs from lane 0 in P1. -/
def tSplit : State := tCheck fun w => { w with lanes := w.lanes.modify 1 fun l => { l with p := 2 } }

/-- Lane 1 differs from lane 0 in P1, or in its mask; a MIXED warp; no lane in a handler; every lane at address 2. -/
theorem witness_WordFaults :
    (∃ s w r, Ready (infoBruReg ce ⟨1, .v 3 .plain⟩) s w r ∧ (s.gridOf w.grid).f.checker = true ∧
      ∃ l ∈ r.lanes, ((seenBy (infoBruReg ce ⟨1, .v 3 .plain⟩) s w r).w.lane l).getP 1 ≠
        ((seenBy (infoBruReg ce ⟨1, .v 3 .plain⟩) s w r).w.lane (r.lanes.headD 0)).getP 1) ∧
    Meets (infoBruLabel ce ⟨1, 16⟩) (fun x _ => x.g.f.checker = true ∧
      ∃ l ∈ x.run.lanes, (x.w.lane l).getP 1 ≠ (x.w.lane (x.run.lanes.headD 0)).getP 1) ∧
    Meets (infoSyncm ce ⟨.v 2 .plain⟩) (fun x _ => x.g.f.checker = true ∧ x.w.sync = none ∧
      ∃ l ∈ x.thr, syncMask x.w l (.v 2 .plain) ≠ syncMask x.w (x.thr.headD 0) (.v 2 .plain)) ∧
    (∀ n ∈ [infoBar ce ⟨.lit 3⟩, infoBarx ce ⟨.max, .i32, .s 5, .v 3 .plain, .s 4 .plain⟩, infoPush c0 ⟨5, 1, 16⟩, infoMask ce ⟨.lit 1⟩ true,
      infoFfr c0 ⟨5, .lit 1⟩, infoMask c0 ⟨.lit 1⟩ false, infoUni c0 false], meets n tMixed (fun x _ => x.w.mixed) = true) ∧
    Meets (infoUni ce true) (fun x _ => ∀ l ∈ x.run.lanes, (x.w.lane l).inh = false) ∧
    Meets (infoLd c0 ⟨.b32, .team, .rlx, 0, 2, .v 5, .s 4 .plain⟩) (fun x _ => x.w.acquiring = false ∧
      ∀ l ∈ x.thr, x.ea l (.s 4 .plain) 2 % Ty.b32.bytes ≠ 0) ∧
    Meets (infoSt c0 ⟨.b32, .team, .rlx, 0, 2, .s 4 .plain, .v 3 .plain⟩) (fun x _ => x.w.acquiring = false ∧
      ∀ l ∈ x.thr, x.ea l (.s 4 .plain) 2 % Ty.b32.bytes ≠ 0) :=
  ⟨⟨tSplit, { tw with lanes := tw.lanes.modify 1 fun l => { l with p := 2 } }, tr, ready_of rfl (by decide +kernel), rfl,
     1, by decide, by decide +kernel⟩, meets_of tSplit (by decide +kernel),
   meets_of (tCheck fun w => { w with lanes := w.lanes.modify 1 fun l => { l with v := l.v.set 2 6 } }) (by decide +kernel), by decide +kernel,
   meets_of t0 (by decide +kernel), meets_of t0 (by decide +kernel), meets_of t0 (by decide +kernel)⟩

theorem witness_ExitAndNap : ∀ n ∈ [infoLane ce true, infoNapImm ce, infoNapReg ce ⟨.s 4 .plain⟩], ∃ s w r, Ready n s w r :=
  runs_all t0 (by decide +kernel)

/-- A debugger at the module, and a context that it may debug. -/
def tDbg : State := { t0 with
  trace := { Trace.reset with flags := 0x20 }, sch := { Sched.reset with ctxs := [⟨0, [0x10000, 0, 1, 0, 1, 0, 0, 1], 8, [], [], 1⟩] } }

theorem witness_Traps :
    Meets (infoLane ce true) (fun x s => s.debugged x.w = false) ∧ Meets (infoLane ce true) (fun x s => s.debugged x.w = true) ∧
    Meets (infoUni ce true) (fun x _ => ∃ l ∈ x.run.lanes, (x.w.lane l).inh = true) ∧
    (∃ (s : State) (w : Warp) (r : Run), s.inRun = some (w, r) ∧ (s.actives w c0.g false r.lanes).isEmpty = false) :=
  ⟨meets_of t0 (by decide +kernel), meets_of tDbg (by decide +kernel),
   meets_of (tst fun w => { w with lanes := w.lanes.modify 15 fun l => { l with inh := true } }) (by decide +kernel),
   t0, tw, tr, rfl, by decide +kernel⟩

theorem witness_SystemWords :
    Meets (infoMovs c0 ⟨.s 5, 60⟩) (fun _ _ => 8 ≤ (60#8).toNat) ∧
    Meets (infoMovs c0 ⟨.s 5, 7⟩) (fun x _ => (7#8).toNat < 8 ∧ x.w.e.getD (7#8).toNat [] = 3#64 :: []) ∧
    (∀ n ∈ [infoMovw c0 ⟨.lit 1⟩, infoStopchk c0 ⟨1⟩, infoMark c0 ⟨0x102, .s 4 .plain⟩], ∃ s w r, Ready n s w r) :=
  ⟨meets_of t0 (by decide +kernel), meets_of (tst fun w => { w with e := w.e.set 7 [3] }) (by decide +kernel),
   runs_all t0 (by decide +kernel)⟩

/-- The scratchpad window in S4. -/
def tScr : State := tst fun w => { w with s := w.s.set 4 0x01FFFF0000000000 }
def ldO : LdOp := ⟨.b32, .team, .rlx, 0, 0x3FC, .v 5, .s 4 .plain⟩

theorem notEarly_of {x : Wx} {s : State} {o : Order} {ea : Nat → Nat} {n : Nat} (h : x.w.outstanding = []) : NotEarly x s o ea n :=
  fun _ h0 => absurd h h0

/-- A load, a store in the scratchpad, and the read-modify-writes at byte 0. -/
theorem witness_MemoryAccesses :
    Meets (infoLd c0 ⟨.b32, .team, .acq, 0, 4, .v 5, .s 4 .plain⟩) (fun x s => MayAccess x .acq ∧
      AllFound x s (fun l => x.ea l (.s 4 .plain) 4) 4 false) ∧
    Meets (infoSt c0 ⟨.b32, .team, .rel, 0, 0x1FC, .s 4 .plain, .v 3 .plain⟩) (fun x s => MayAccess x .rel ∧
      AllFound x s (fun l => x.ea l (.s 4 .plain) 0x1FC) 4 true ∧ NotEarly x s .rel (fun l => x.ea l (.s 4 .plain) 0x1FC) 4) ∧
    Meets (infoAtom c0 ⟨.inc, .n32, .dev, .ar, .v 5, .s 4 .plain, .v 3 .plain⟩) (fun x s => MayAccess x .ar ∧
      AllFound x s (fun l => x.ea l (.s 4 .plain) 0) 4 true ∧ NotEarly x s .ar (fun l => x.ea l (.s 4 .plain) 0) 4 ∧
      ∀ l ∈ x.thr, viaAtomicOp .dev (s.laneLoc x l (x.ea l (.s 4 .plain) 0) 4 true) = true → carried .inc .n32 = true) ∧
    Meets (infoRed c0 ⟨.add, .f32, .dev, .rel, .s 4 .plain, .v 3 .plain⟩) (fun x s => MayAccess x .rel ∧
      AllFound x s (fun l => x.ea l (.s 4 .plain) 0) 4 true ∧ NotEarly x s .rel (fun l => x.ea l (.s 4 .plain) 0) 4 ∧
      ∀ l ∈ x.thr, viaAtomicOp .dev (s.laneLoc x l (x.ea l (.s 4 .plain) 0) 4 true) = true → carried .add .f32 = true) ∧
    Meets (infoCas c0 ⟨.b64pair, .sys, .rlx, 8, .s 4 .plain, .v 12 .plain, .v 20 .plain, 2⟩) (fun x s => MayAccess x .rlx ∧
      AllFound x s (fun l => x.ea l (.s 4 .plain) 0) 16 true ∧ NotEarly x s .rlx (fun l => x.ea l (.s 4 .plain) 0) 16) := by
  refine ⟨meets_of tScr ?_,
    Meets.mono (p := fun x s => (MayAccess x .rel ∧ AllFound x s (fun l => x.ea l (.s 4 .plain) 0x1FC) 4 true) ∧ x.w.outstanding = [])
      (fun x s h => ⟨h.1.1, h.1.2, notEarly_of h.2⟩) (meets_of tScr ?_),
    Meets.mono (p := fun x s => (MayAccess x .ar ∧ AllFound x s (fun l => x.ea l (.s 4 .plain) 0) 4 true ∧
      ∀ l ∈ x.thr, viaAtomicOp .dev (s.laneLoc x l (x.ea l (.s 4 .plain) 0) 4 true) = true → carried .inc .n32 = true) ∧ x.w.outstanding = [])
      (fun x s h => ⟨h.1.1, h.1.2.1, notEarly_of h.2, h.1.2.2⟩) (meets_of tScr ?_),
    Meets.mono (p := fun x s => (MayAccess x .rel ∧ AllFound x s (fun l => x.ea l (.s 4 .plain) 0) 4 true ∧
      ∀ l ∈ x.thr, viaAtomicOp .dev (s.laneLoc x l (x.ea l (.s 4 .plain) 0) 4 true) = true → carried .add .f32 = true) ∧ x.w.outstanding = [])
      (fun x s h => ⟨h.1.1, h.1.2.1, notEarly_of h.2, h.1.2.2⟩) (meets_of tScr ?_),
    Meets.mono (p := fun x s => (MayAccess x .rlx ∧ AllFound x s (fun l => x.ea l (.s 4 .plain) 0) 16 true) ∧ x.w.outstanding = [])
      (fun x s h => ⟨h.1.1, h.1.2, notEarly_of h.2⟩) (meets_of tScr ?_)⟩ <;> decide +kernel

/-- Table 1, a sorted table of KI32 keys with 16 pins of the grid; table 2, its like without pins. -/
def kt : Version := ⟨6, 0, 1, BitVec.ofNat 64 (2 + 2 ^ 16 + 2 ^ 32), 0xF000, 256, 0, true, [(0, 7)],
  (List.range 16).map fun i => ⟨20 + i, some 1⟩, []⟩
def kt2 : Version := ⟨7, 0, 2, BitVec.ofNat 64 (2 + 2 ^ 16 + 2 ^ 32), 0xF100, 256, 0, true, [], [], []⟩
/-- Page 0 of context 0 is mapped, with W, X and LVL 10, in page tables and in the TLB of core 0; S4 is 0x1000. -/
def tMap (f : Warp → Warp) : State := { tst (fun w => f { w with s := w.s.set 4 0x1000 }) with
  cores := [{ Core.reset with tlb := [⟨0, 0, 1, 0, 0x16⟩] }, Core.reset], tabs := [bareCode 5, kt, kt2],
  sch := { Sched.reset with ctxs := [bareCtx] }, mem := { MemSys.reset with dram := bareTables [] [] } }
/-- The same, with a target of 1 armed at the count barrier at 0x1000. -/
def tArmed : State := (tMap id).modMem fun m => { m with dram := m.dram.write 0x1008 [1] }
/-- The count barrier at 0x1000 is poisoned. -/
def tSpoilt : State := (tMap id).modMem fun m => { m with poison := [128] }
/-- Byte 0 of peer 1. -/
def pcb : Nat := 2 ^ 56 + 2 ^ 42
/-- S6 names a count barrier of peer 1; the warp has noted answers `a`, and awaits those of `o`. -/
def tPeerCb (a : List (Nat × Bool)) (o : List PeerReq) : State :=
  { tMap (fun w => { w with s := w.s.set 6 (BitVec.ofNat 64 pcb), walked := a }) with link := { t0.link with out := o } }
def cbO : StCbOp := ⟨.b32, .dev, .s 4 .plain, .v 3 .plain, .s 6 .plain⟩
def cwO : CbwaitOp := ⟨2, 4, .lit 5⟩
def CbAt (x : Wx) (s : State) : Prop := x.w.acquiring = false ∧ s.cbPlace x (x.w.src 0 cbO.cb .b64).toNat = .peer 1 0 ∧
  AllFound x s (fun l => x.ea l cbO.addr 0) cbO.ty.bytes true ∧ (x.w.src 0 cbO.cb .b64).toNat = pcb
def CwAt (x : Wx) (s : State) : Prop := x.w.acquiring = false ∧ s.cbObject x.w (x.w.getS 4).toNat false = .line (.dev 32) 0 0x16 false ∧
  s.lineBusy x.core (.dev 32) = false ∧ s.homeFree (.dev 32) = true

theorem cbRead_ex {n : WordInfo} {v : Nat × Nat × Bool}
    (h : Meets n (fun x s => CwAt x s ∧ (s.cbRead (.dev 32) 0 0x16 x.g.ctx).2 = v)) :
    ∃ u, Meets n (fun x s => CwAt x s ∧ s.cbRead (.dev 32) 0 0x16 x.g.ctx = (u, v)) :=
  meets_ex h fun _ _ h => ⟨_, h.1, Prod.ext rfl h.2⟩

theorem witness_CountBarriers :
    Meets (infoStCb c0 ⟨.b32, .dev, .s 4 .plain, .v 3 .plain, .s 4 .plain⟩) (fun x s => x.w.acquiring = false ∧ x.thr ≠ [] ∧
      s.cbPlace x (x.w.src 0 (.s 4 .plain) .b64).toNat = .line (.dev 32) 0 0x16 false ∧ AllFound x s (fun l => x.ea l (.s 4 .plain) 0) 4 true ∧
      NotEarly x s .rel (fun l => x.ea l (.s 4 .plain) 0) 4 ∧ s.link.live ≠ 0) ∧
    Meets (infoCbarm c0 ⟨4, .lit 16⟩) (fun x s => x.w.acquiring = false ∧
      s.cbObject x.w (x.w.getS 4).toNat true = .line (.dev 32) 0 0x16 false) ∧
    Meets (infoStCb c0 cbO) (fun x s => CbAt x s ∧ NotEarly x s .rel (fun l => x.ea l cbO.addr 0) cbO.ty.bytes ∧
      s.cbAnswer x pcb 1 0 = .ok 0 ∧ s.link.live ≠ 0) ∧
    (∃ t, Meets (infoStCb c0 cbO) fun x s => CbAt x s ∧ s.cbAnswer x pcb 1 0 = .error t) ∧
    Meets (infoStCb c0 cbO) (fun x s => CbAt x s ∧ s.cbAnswer x pcb 1 0 = .ok Code.translation.num ∧ Code.translation.num ≠ 0 ∧
      codeOf Code.translation.num = some .translation) ∧
    (∃ u, Meets (infoCbwait ce cwO) fun x s => CwAt x s ∧ s.cbRead (.dev 32) 0 0x16 x.g.ctx = (u, 0, 0, false)) ∧
    (∃ u, Meets (infoCbwait ce cwO) fun x s => CwAt x s ∧ s.cbRead (.dev 32) 0 0x16 x.g.ctx = (u, 0, 1, false)) ∧
    (∃ u, Meets (infoCbwait ce ⟨2, 4, .lit 0⟩) fun x s => CwAt x s ∧ s.cbRead (.dev 32) 0 0x16 x.g.ctx = (u, 0, 1, false)) ∧
    (∃ u, Meets (infoCbwait ce cwO) fun x s => CwAt x s ∧ s.cbRead (.dev 32) 0 0x16 x.g.ctx = (u, 0, 0, true)) := by
  refine ⟨Meets.mono (p := fun x s => (x.w.acquiring = false ∧ x.thr ≠ [] ∧
      s.cbPlace x (x.w.src 0 (.s 4 .plain) .b64).toNat = .line (.dev 32) 0 0x16 false ∧ AllFound x s (fun l => x.ea l (.s 4 .plain) 0) 4 true ∧
      s.link.live ≠ 0) ∧ x.w.outstanding = []) (fun x s h => ⟨h.1.1, h.1.2.1, h.1.2.2.1, h.1.2.2.2.1, notEarly_of h.2, h.1.2.2.2.2⟩)
      (meets_of (tMap id) ?_), meets_of (tMap id) ?_,
    Meets.mono (p := fun x s => CbAt x s ∧ x.w.outstanding = [] ∧ (s.cbAnswer x pcb 1 0).toOption = some 0 ∧ s.link.live ≠ 0)
      (fun x s h => ⟨h.1, notEarly_of h.2.1, ok_of h.2.2.1, h.2.2.2⟩) (@meets_of (tPeerCb [(cbNote pcb 0, true)] []) _ _ ?_ ?_),
    meets_ex (pre := fun x s => CbAt x s ∧ (s.cbAnswer x pcb 1 0).toOption = none) (@meets_of (tPeerCb [] []) _ _ ?_ ?_)
      fun x s h => let ⟨t, ht⟩ := error_of h.2; ⟨t, h.1, ht⟩,
    Meets.mono (p := fun x s => CbAt x s ∧ (s.cbAnswer x pcb 1 0).toOption = some Code.translation.num)
      (fun x s h => ⟨h.1, ok_of h.2, by decide, by decide⟩) (@meets_of (tPeerCb [(cbNote pcb Code.translation.num, true)] []) _ _ ?_ ?_),
    cbRead_ex (@meets_of (tMap id) _ _ ?_ ?_), cbRead_ex (@meets_of tArmed _ _ ?_ ?_), cbRead_ex (@meets_of tArmed _ _ ?_ ?_),
    cbRead_ex (@meets_of tSpoilt _ _ ?_ ?_)⟩
  all_goals first
    | exact fun _ _ => by unfold CbAt; infer_instance
    | exact fun _ _ => by unfold CwAt; infer_instance
    | decide +kernel

/-- Peer 1 has not been asked yet, and its answer is awaited. -/
theorem witness_CountBarriers_asked (o : List PeerReq) (h : o = [] ∨ o = [⟨1, 9, 0, 0, 3, 1, 4, .cbInc 0 [], 0, 0, [], none⟩]) :
    (seenBy (infoStCb c0 cbO) (tPeerCb [] o) tw tr).w.walked.find? (fun n => n.1 / 2 ^ 8 == cbNote pcb 0 / 2 ^ 8) = none ∧
      (tPeerCb [] o).link.live ≠ 0 := by
  rcases h with h | h <;> subst h <;> decide +kernel

theorem witness_CacheMaintenance :
    Meets (infoPrf c0 ⟨.i32, .coh, 0, 0x82, .s 4 .plain⟩) (fun x s =>
      s.ask x ((s.places x (fun l => x.ea l (.s 4 .plain) 0x82) 1 false).map fun a => a.2.2) = none) ∧
    Meets (infoPrf c0 ⟨.i32, .coh, 0, 0x82, .s 4 .plain⟩) (fun x s =>
      (s.ask x ((s.places x (fun l => x.ea l (.s 4 .plain) 0x82) 1 false).map fun a => a.2.2)).isSome = true) ∧
    Meets (infoMaint c0 ⟨.dev, .s 4 .plain, .lit 5⟩) (fun x s => x.w.acquiring = false ∧
      s.ask x (x.thr.flatMap fun l => (Machine.maintOf s x ⟨.dev, .s 4 .plain, .lit 5⟩ true l).map Prod.fst) = none) :=
  ⟨meets_of (tMap id) (by decide +kernel), meets_of { tMap id with cores := [Core.reset, Core.reset] } (by decide +kernel),
   meets_of (tMap id) (by decide +kernel)⟩

/-- The lines of the 256 bytes from 0x1010 on are the three from line 32 on. -/
theorem witness_CacheMaintenance_range : (State.maintRange (tMap id) (seenBy (infoMaint c0 ⟨.dev, .s 5 .plain, .lit 5⟩) (tMap id) tw tr) true
    (0x1010 + 256) 4 0x1010).map Prod.snd =
      [0x1010, 0x1080, 0x1100] := by decide +kernel

theorem witness_Fences :
    Meets (infoFence c0) (fun x _ => x.run.fenced = true ∨ (Order.ar ≠ .sc ∧ x.w.fenceDone .dev .ar = true)) ∧
    Meets (infoFence c0) (fun x _ => x.run.fenced = false ∧ (Order.sc = .sc ∨ x.w.fenceDone .dev .sc = false)) ∧
    Meets (infoFence c0) (fun x _ => x.w.opDone = true) := by
  refine ⟨meets_of t0 ?_, meets_of t0 ?_, meets_of t0 ?_⟩ <;> decide +kernel

/-- Every lane has cursor 0 open. -/
def tCur : State := tMap fun w => { w with lanes := w.lanes.map fun l => { l with k := l.k.set 0 (some ⟨1, 6, 20, .ki32, 0, none, 9, true⟩) } }

theorem witness_TableLookups :
    Meets (infoTKey c0 ⟨.ki32, .v 8, .v 2 .plain, .lit 1⟩) (fun x s =>
      x.w.acquiring = false ∧ OnTable x (s.dropSelf x.core) (.lit 1) [1, 2, 3, 4] (some .ki32) kt ∧
      (s.dropSelf x.core).rowBusy x.core x.g.ctx ((s.dropSelf x.core).mapRows kt (x.thr.map fun l => x.w.keyOf l .ki32 (.v 2 .plain))) = false) ∧
    Meets (infoTRow c0 ⟨.ki32, .v 8, .v 3 .plain, .lit 1⟩) (fun x s =>
      x.w.acquiring = false ∧ OnTable x (s.dropSelf x.core) (.lit 1) [1, 2, 3] (some .ki32) kt) ∧
    Meets (infoTSeek c0 ⟨.ki32, false, .v 8, .v 2 .plain, .lit 1, 0⟩) (fun x s => x.w.acquiring = false ∧
      OnTable x (s.dropSelf x.core) (.lit 1) [1, 2] (some .ki32) kt ∧
      (∀ l ∈ x.thr, (x.w.lane l).cursor 0 = none) ∧ kt.pins.length + x.thr.length < 2 ^ 32) ∧
    Meets (infoTStep c0 ⟨.v 8, 0⟩) (fun x _ => x.w.acquiring = false ∧ ∀ l ∈ x.thr, (x.w.lane l).cursor 0 ≠ none) ∧
    Meets (infoTClose c0) (fun _ _ => True) ∧
    Meets (infoTId c0 ⟨.v 8, .lit 1⟩) (fun x s => x.w.acquiring = false ∧ OnTable x (s.dropSelf x.core) (.lit 1) [1, 2, 3, 4] none kt ∧
      (s.dropSelf x.core).rowBusy x.core x.g.ctx ((s.dropSelf x.core).stateRows kt) = false) := by
  refine ⟨meets_of (tMap id) ?_, meets_of (tMap id) ?_, meets_of (tMap id) ?_, meets_of tCur ?_, meets_of t0 ?_, meets_of (tMap id) ?_⟩ <;>
    decide +kernel

theorem witness_TableMutations :
    Meets (infoTKey c0 ⟨.ki32, .v 8, .v 2 .plain, .lit 1⟩) (fun x s =>
      Settled x ∧ OnTable x (s.dropSelf x.core) (.lit 1) [2, 3] (some .ki32) kt ∧
      (s.dropSelf x.core).askBack (rowKey x.w.uid) x.g.ctx ((s.dropSelf x.core).rowLines (x.core / 64) x.g.ctx kt.rowBytes
        (x.each (s.dropSelf x.core) fun s l => s.tins x kt.uid .ki32 l (x.w.keyOf l .ki32 (.v 2 .plain))).2) = none ∧
      ∀ n ∈ (s.dropSelf x.core).rowLines (x.core / 64) x.g.ctx kt.rowBytes
        (x.each (s.dropSelf x.core) fun s l => s.tins x kt.uid .ki32 l (x.w.keyOf l .ki32 (.v 2 .plain))).2, (s.dropSelf x.core).homeFree n = true) ∧
    Meets (infoTRekey c0 ⟨.ki32, .v 8, .v 2 .plain, .lit 1, .v 3 .plain⟩) (fun x s =>
      Settled x ∧ OnTable x (s.dropSelf x.core) (.lit 1) [2, 3] (some .ki32) kt ∧
      (s.dropSelf x.core).askBack (rowKey x.w.uid) x.g.ctx ((s.dropSelf x.core).rowLines (x.core / 64) x.g.ctx (keyBytes .ki32)
        (x.each (s.dropSelf x.core) fun s l =>
          s.trekey x kt.uid .ki32 l (x.w.keyOf l .ki32 (.v 2 .plain)) (x.w.keyOf l .ki32 (.v 3 .plain))).2) = none ∧
      ∀ n ∈ (s.dropSelf x.core).rowLines (x.core / 64) x.g.ctx (keyBytes .ki32)
        (x.each (s.dropSelf x.core) fun s l =>
          s.trekey x kt.uid .ki32 l (x.w.keyOf l .ki32 (.v 2 .plain)) (x.w.keyOf l .ki32 (.v 3 .plain))).2,
        (s.dropSelf x.core).homeFree n = true) ∧
    Meets (infoTAdd c0 ⟨false, .s 4 .plain, .v 3 .plain, 4⟩) (fun x s => x.w.acquiring = false ∧
      ∀ l ∈ x.thr, (s.taddLoc x (x.ea l (.s 4 .plain) 4) 4).found = true) ∧
    Meets (infoTId c0 ⟨.v 8, .lit 1⟩) (fun x s => OnTable x s (.lit 1) [1, 2, 3, 4] none kt ∧ kt.pins.length + x.thr.length < 2 ^ 32) ∧
    Meets (infoTUnpin c0 ⟨.v 8, .lit 1, .lit 1⟩) (fun x s => OnTable x s (.lit 1) [1, 2, 3, 4] none kt ∧
      (s.tunpinAll x kt.id (.lit 1)).isSome = true) ∧
    Meets (infoTSwap c0 ⟨.v 8, .lit 1, .lit 1, .lit 2⟩) (fun x s => Settled x ∧ OnTable x (s.dropSelf x.core) (.lit 1) [1, 2, 3, 4] none kt ∧
      (s.dropSelf x.core).tableOf x.g.ctx (x.w.src x.low (.lit 2) .b64) = some kt2 ∧ kt2.kind = kt.kind ∧ kt2.kfmt = kt.kfmt ∧
      kt2.pins = [] ∧ kt2.id ≠ kt.id) := by
  refine ⟨meets_of (tMap fun w => { w with lanes := w.lanes.map fun l => { l with v := l.v.set 2 7 } }) ?_, meets_of (tMap id) ?_,
    meets_of (tMap id) ?_, meets_of (tMap id) ?_, meets_of (tMap id) ?_, meets_of (tMap id) ?_⟩ <;> decide +kernel

/-- S16 holds the header of a LAUNCH; tag 2 of the team is set. -/
def tCmd : State := { tst (fun w => { w with s := w.s.set 16 0x60 }) with teams := [{ newTeam tg 2 0 0 with tags := 4 }] }

/-- The command of tag 2 has faulted. -/
def ef : EngFault := ⟨2, .translation, 1, 4⟩
def tCmdF : State := { tCmd with warps := tCmd.warps.map fun w => { w with efaults := [ef] } }

/-- Queue LN of core 0 holds 32 commands. -/
def tFull : State := { tCmd with cores := [{ Core.reset with
  queues := (List.replicate 6 []).set 5 (List.replicate 32 ⟨5, 1, [], 0, 0, 3, 2, 4, false, .waiting, ⟨0, 0, false⟩, [], [], [], []⟩) }, Core.reset] }
/-- The warp is on core 1, the follower of a cohort of two cores. -/
def tFollow : State := { tst (fun w => { w with core := 1 }) with cur := some (1, 0), grids := [{ tg with f := { tk with cohort2 := true } }] }
/-- The team holds, or has asked for, a lease of the array of core 0. -/
def tLeased (l : Option Lease) (r : List (Nat × Nat × Nat)) : State := t0.modCore 0 fun k => { k with lease := l, leaseReq := r }

theorem witness_CommandWords_refused :
    (∀ n ∈ [infoPush c0 ⟨5, 1, 16⟩, infoPush c0 ⟨5, 7, 16⟩], meets n tFull (fun x s => !x.w.mixed && queueFull (s.core x.core) 5 &&
      !pushBad 5 ((List.range 8).map fun j => x.w.getS (16 + j)) x.g.f.tags ((5 : Nat) == 0 && x.g.f.cohort2 && x.core % 2 == 0)) = true) ∧
    (∀ n ∈ [infoMask c0 ⟨.lit 9⟩ false, infoUni c0 false],
      meets n tFollow (fun x _ => !x.w.mixed && x.g.f.cohort2 && x.core % 2 == 1) = true ∧
      meets n (tLeased (some ⟨2, 2, 9, none⟩) []) (fun x s => (s.core x.core).lease == some ⟨2, 2, 9, none⟩ && x.w.team == 2) = true ∧
      meets n (tLeased none [(2, 2, 9)]) (fun x s => (s.core x.core).leaseReq == [(2, 2, 9)] && x.w.team == 2) = true) ∧
    (∃ w, tCmdF.warpAt 0 0 = some w ∧ w.faultedTag 4 = some ef) := ⟨by decide +kernel, by decide +kernel, _, rfl, by decide +kernel⟩

theorem witness_CommandWords :
    Meets (infoPush c0 ⟨5, 1, 16⟩) (fun x s => x.w.mixed = false ∧ Settled x ∧ queueFull (s.core x.core) 5 = false ∧
      pushBad 5 ((List.range 8).map fun j => x.w.getS (16 + j)) x.g.f.tags ((5 : Nat) == 0 && x.g.f.cohort2 && x.core % 2 == 0) = false) ∧
    Meets (infoMask ce ⟨.lit 4⟩ true) (fun x s => x.w.mixed = false ∧ (x.w.src 0 (.lit 4) .b64).toNat < 2 ^ x.g.f.tags ∧
      waitOver true (s.tagmap x.w) (x.w.src 0 (.lit 4) .b64) = true ∧ waitOver false (s.tagmap x.w) (x.w.src 0 (.lit 4) .b64) = true ∧
      x.w.src 0 (.lit 4) .b64 ≠ 0 ∧ x.w.faultedTag (s.tagmap x.w &&& x.w.src 0 (.lit 4) .b64) = none) ∧
    Meets (infoMask ce ⟨.lit 4⟩ true) (fun x s => x.w.mixed = false ∧ (x.w.src 0 (.lit 4) .b64).toNat < 2 ^ x.g.f.tags ∧
      waitOver true (s.tagmap x.w) (x.w.src 0 (.lit 4) .b64) = true ∧ waitOver false (s.tagmap x.w) (x.w.src 0 (.lit 4) .b64) = true ∧
      x.w.src 0 (.lit 4) .b64 ≠ 0 ∧ x.w.faultedTag (s.tagmap x.w &&& x.w.src 0 (.lit 4) .b64) = some ef) ∧
    Meets (infoFfr c0 ⟨5, .lit 127⟩) (fun x s => x.w.mixed = false ∧ (x.w.src 0 (.lit 127) .b64).toNat < 2 ^ x.g.f.tags ∧ (2 : Nat) < 64 ∧
      (s.tagmap x.w &&& x.w.src 0 (.lit 127) .b64).getLsbD 2 = true ∧
      (∀ k < 2, (s.tagmap x.w &&& x.w.src 0 (.lit 127) .b64).getLsbD k = false) ∧ x.w.faultedTag (1#64 <<< (2 : Nat)) = some ef) ∧
    Meets (infoMask ce ⟨.lit 1⟩ true) (fun x s => x.w.mixed = false ∧ (x.w.src 0 (.lit 1) .b64).toNat < 2 ^ x.g.f.tags ∧
      waitOver true (s.tagmap x.w) (x.w.src 0 (.lit 1) .b64) = false ∧ waitOver false (s.tagmap x.w) (x.w.src 0 (.lit 1) .b64) = false ∧
      x.w.src 0 (.lit 1) .b64 ≠ 0) ∧
    Meets (infoFfr c0 ⟨5, .lit 1⟩) (fun x s => x.w.mixed = false ∧ (x.w.src 0 (.lit 1) .b64).toNat < 2 ^ x.g.f.tags ∧
      s.tagmap x.w &&& x.w.src 0 (.lit 1) .b64 = 0) ∧
    Meets (infoFfr c0 ⟨5, .lit 127⟩) (fun x s => x.w.mixed = false ∧ (x.w.src 0 (.lit 127) .b64).toNat < 2 ^ x.g.f.tags ∧ (2 : Nat) < 64 ∧
      (s.tagmap x.w &&& x.w.src 0 (.lit 127) .b64).getLsbD 2 = true ∧
      (∀ k < 2, (s.tagmap x.w &&& x.w.src 0 (.lit 127) .b64).getLsbD k = false) ∧ x.w.faultedTag (1#64 <<< (2 : Nat)) = none) ∧
    Meets (infoMask c0 ⟨.lit 127⟩ false) (fun x _ => x.w.mixed = false ∧ (x.w.src 0 (.lit 127) .b64).toNat < 2 ^ x.g.f.tags ∧ Settled x) ∧
    Meets (infoMask c0 ⟨.lit 9⟩ false) (fun x s => x.w.mixed = false ∧ x.w.src 0 (.lit 9) .b64 ≠ 0 ∧
      ¬ (x.g.f.cohort2 = true ∧ x.core % 2 = 1) ∧ (s.core x.core).leasing x.w.team = false) ∧
    Meets (infoUni c0 false) (fun x s => x.w.mixed = false ∧ (256#16 : BitVec 16) ≠ 0 ∧ ¬ (x.g.f.cohort2 = true ∧ x.core % 2 = 1) ∧
      (s.core x.core).leasing x.w.team = false) := by
  refine ⟨meets_of tCmd ?_, meets_of tCmd ?_, meets_of tCmdF ?_, meets_of tCmdF ?_, meets_of tCmd ?_, meets_of tCmd ?_, meets_of tCmd ?_, meets_of tCmd ?_, meets_of tCmd ?_,
    meets_of tCmd ?_⟩ <;> decide +kernel

theorem witness_QueueRegisters :
    Meets (infoQPop c0 ⟨0, .s 2⟩) (fun x _ => (0#4).toNat < 8 ∧ x.w.e.getD 0 [] = 5#64 :: []) ∧
    Meets (infoQPop c0 ⟨7, .s 2⟩) (fun x _ => (7#4).toNat = 7 ∧ x.w.e.getD 7 [] = []) ∧
    Meets (infoQPop c0 ⟨12, .v 2⟩) (fun x _ => 8 ≤ (12#4).toNat ∧ x.w.w / 2 ≤ (x.w.e.getD 12 []).length) ∧
    Meets (infoQPush c0 ⟨9, .v 3 .plain⟩) (fun x _ => (x.w.e.getD 9 []).length < 4 * (x.w.w / 2)) := by
  refine ⟨meets_of (tst fun w => { w with e := w.e.set 0 [5] }) ?_, meets_of t0 ?_,
    meets_of (tst fun w => { w with e := w.e.set 12 (List.replicate 8 3) }) ?_,
    meets_of (tst fun w => { w with e := w.e.set 9 (List.replicate 31 3) }) ?_⟩ <;> decide +kernel

theorem witness_Barriers :
    Meets (infoBar ce ⟨.lit 15⟩) (fun x _ => x.w.mixed = false ∧ (x.w.src 0 (.lit 15) .b64).toNat ≤ 15 ∧ Settled x) ∧
    Meets (infoBarx ce ⟨.max, .i32, .s 5, .v 3 .plain, .s 4 .plain⟩) (fun x _ => x.w.mixed = false ∧
      (x.w.src 0 (.s 4 .plain) .b64).toNat ≤ 15 ∧ Settled x) ∧
    Meets (infoSyncm ce ⟨.s 4 .plain⟩) (fun x _ => x.w.sync = none ∧ x.thr ≠ [] ∧ x.g.f.checker = true ∧
      ∀ l ∈ x.thr, syncMask x.w l (.s 4 .plain) = 0xFFFF) ∧
    Meets (infoSyncm ce ⟨.v 2 .plain⟩) (fun x _ => x.w.sync = some ⟨0x30, 0x30, [4]⟩ ∧ x.thr ≠ [] ∧ x.g.f.checker = false ∧
      ∀ l ∈ x.thr, syncMask x.w l (.v 2 .plain) ≠ 0x30) := by
  refine ⟨meets_of t0 ?_, meets_of t0 ?_, meets_of (tCheck fun w => { w with s := w.s.set 4 0xFFFF }) ?_,
    meets_of (tst fun w => { w with sync := some ⟨0x30, 0x30, [4]⟩ }) ?_⟩ <;> decide +kernel

/-- Another warp of the team has arrived at REGRPB. -/
def tOther : State := { t0 with warps := [tw, { tw with uid := 4, slot := 1, run := none, arr := some ⟨true, false, 0, 8, 0, 8, false⟩ }] }
def rgO : RegrpOp := ⟨false, 20, 0, 0, 8, 8⟩

theorem witness_RegroupArrivals :
    (rgO.core = false ∧ Meets (infoRegrp ce rgO) fun x _ => x.w.mixed = true ∧ x.w.key ≠ BitVec.allOnes 64) ∧
    Meets (infoRegrp ce rgO) (fun x _ => x.w.mixed = false ∧ x.w.key ≠ BitVec.allOnes 64) ∧
    Meets (infoRegrp ce rgO) (fun x s => x.w.mixed = false ∧ x.w.key = BitVec.allOnes 64 ∧ s.agrees x.w ⟨false, false, 0, 8, 0, 8, false⟩ = false) ∧
    Meets (infoRegrp ce ⟨false, 20, 0, 0, 8, 8⟩) (fun x s => x.w.key = BitVec.allOnes 64 ∧ (false = true ∨ x.w.mixed = false) ∧
      s.agrees x.w ⟨false, false, 0, 8, 0, 8, false⟩ = true) ∧
    Meets (infoRegrpb ce ⟨0, 0, 8, 8⟩) (fun x s => x.w.key ≠ BitVec.allOnes 64 ∧ s.agrees x.w ⟨true, false, 0, 8, 0, 8, false⟩ = true) := by
  refine ⟨⟨rfl, meets_of (tst fun w => { w with wst := BitVec.allOnes 5, key := 3 }) ?_⟩, meets_of (tst fun w => { w with key := 3 }) ?_,
    meets_of tOther ?_, meets_of t0 ?_, meets_of (tst fun w => { w with key := 3 }) ?_⟩ <;> decide +kernel

/-- S4 to S7 name vectors of bin 17, S7 one bit wide. -/
def pressRegs (w : Warp) : Warp := { w with s := (((w.s.set 4 0x11100040).set 5 0x11100050).set 6 0x11100060).set 7 0x11010000 }
/-- Bin 17 in press mode for context 0. -/
def tPress : State := { tst pressRegs with bins := (List.replicate 24 (⟨.cache, 0, [], []⟩ : Bin)).set 17 ⟨.press, 0, [], []⟩ }
def va (n : Nat) : PVec := ⟨n, 16⟩

theorem witness_PressModes :
    Meets (infoPmode c0 ⟨.lit 3, 5⟩) (fun x s => (x.w.src 0 (.lit 3) .b64).toNat < 2 ^ 24 ∧ (5#6).toNat < x.g.f.tags ∧
      binsOf (x.w.src 0 (.lit 3) .b64).toNat ≠ [] ∧ ∀ b ∈ binsOf (x.w.src 0 (.lit 3) .b64).toNat, (s.bin b).st = .cache) ∧
    Meets (infoPmode c0 ⟨.s 3 .plain, 5⟩) (fun x s => (x.w.src 0 (.s 3 .plain) .b64).toNat < 2 ^ 24 ∧ (5#6).toNat < x.g.f.tags ∧
      binsOf (x.w.src 0 (.s 3 .plain) .b64).toNat ≠ [] ∧ ∀ b ∈ binsOf (x.w.src 0 (.s 3 .plain) .b64).toNat,
        (s.bin b).st = .press ∧ (s.bin b).owner = x.g.ctx) ∧
    Meets (infoPmode c0 ⟨.s 3 .plain, 5⟩) (fun x s => (5#6).toNat < x.g.f.tags ∧
      (binsOf (x.w.src 0 (.s 3 .plain) .b64).toNat).find? (fun b => (s.bin b).st != .cache) = some 17) ∧
    Meets (infoPmode c0 ⟨.lit 3, 5⟩) (fun x s => (5#6).toNat < x.g.f.tags ∧
      (binsOf (x.w.src 0 (.lit 3) .b64).toNat).find? (fun b => (s.bin b).st != .press || (s.bin b).owner != x.g.ctx) = some 0) ∧
    Meets (infoPmode c0 ⟨.lit 0, 5⟩) (fun x _ => (5#6).toNat < x.g.f.tags ∧ binsOf (x.w.src 0 (.lit 0) .b64).toNat = []) := by
  refine ⟨meets_of t0 ?_, meets_of { tPress with warps := [{ tw with s := tw.s.set 3 0x20000 }] } ?_,
    meets_of { tPress with warps := [{ tw with s := tw.s.set 3 0x20000 }] } ?_, meets_of t0 ?_, meets_of t0 ?_⟩ <;> decide +kernel

theorem witness_PressOperations :
    Meets (infoPress2 c0 ⟨true, false, 4, 5, .s 6 .plain⟩) (fun x s =>
      descsOf [x.w.getS 4, x.w.getS 5, x.w.getS 6] = some (17, [va 64, va 80, va 96]) ∧ BinOpen x s 17) ∧
    Meets (infoPress2 c0 ⟨true, true, 4, 5, .lit 2⟩) (fun x s =>
      descsOf [x.w.getS 4, x.w.getS 5] = some (17, [va 64, va 80]) ∧ BinOpen x s 17) ∧
    Meets (infoPcmp c0 ⟨.le, true, true, 4, 5, .lit 2⟩) (fun x s =>
      descsOf [x.w.getS 4, x.w.getS 5] = some (17, [va 64, va 80]) ∧ BinOpen x s 17) ∧
    Meets (infoPcmp c0 ⟨.le, true, false, 4, 5, .s 6 .plain⟩) (fun x s =>
      descsOf [x.w.getS 4, x.w.getS 5, x.w.getS 6] = some (17, [va 64, va 80, va 96]) ∧ BinOpen x s 17) ∧
    Meets (infoPress1 c0 ⟨4, 5⟩) (fun x s => descsOf [x.w.getS 4, x.w.getS 5] = some (17, [va 64, va 80]) ∧ BinOpen x s 17) ∧
    Meets (infoPsel c0 ⟨4, 5, 6, 7⟩) (fun x s =>
      descsOf [x.w.getS 4, x.w.getS 5, x.w.getS 6, x.w.getS 7] = some (17, [va 64, va 80, va 96, ⟨0, 1⟩]) ∧ BinOpen x s 17) ∧
    Meets (infoPsat c0 ⟨true, 4, 5, .lit 0, .lit 5⟩) (fun x s =>
      descsOf [x.w.getS 4, x.w.getS 5] = some (17, [va 64, va 80]) ∧ BinOpen x s 17) ∧
    Meets (infoPcnt c0 ⟨8, 5⟩) (fun x s => descsOf [x.w.getS 5] = some (17, [va 80]) ∧ BinOpen x s 17) ∧
    Meets (infoPshift c0 ⟨true, 4, 5, .lit 3⟩) (fun x s =>
      descsOf [x.w.getS 4, x.w.getS 5] = some (17, [va 64, va 80]) ∧ BinOpen x s 17) := by
  refine ⟨meets_of tPress ?_, meets_of tPress ?_, meets_of tPress ?_, meets_of tPress ?_, meets_of tPress ?_, meets_of tPress ?_,
    meets_of tPress ?_, meets_of tPress ?_, meets_of tPress ?_⟩ <;> decide +kernel

/-- A press operation of the warp waits in bin 17. -/
def tBusy : State := { tPress with
  bins := (List.replicate 24 (⟨.cache, 0, [], []⟩ : Bin)).set 17 ⟨.press, 0, [⟨3, 2, 0, 0, .not, false, va 64, va 80, .const 0⟩], []⟩ }
/-- Bin 17 open, and page 0 mapped: S8 is the address 0x1000, S9 the count 3. -/
def tXfer : State := { tMap fun w => { pressRegs w with s := ((pressRegs w).s.set 8 0x1000).set 9 3 } with bins := tPress.bins }

theorem witness_PressTransfers :
    Meets (infoPxfer c0 ⟨4, 8, 9⟩) (fun x s => descsOf [x.w.getS 4] = some (17, [va 64]) ∧
      1 ≤ (x.w.getS 9).toNat ∧ (x.w.getS 9).toNat ≤ 262144 ∧ (x.w.getS 8).toNat % elemSize (va 64).w = 0 ∧
      s.storageAt x.g.ctx (x.w.getS 8).toNat = some (bareCode 5) ∧
      (x.w.getS 8).toNat + elemSize (va 64).w * (x.w.getS 9).toNat ≤ (bareCode 5).base + (bareCode 5).len ∧ (bareCode 5).kind = 1 ∧ BinOpen x s 17 ∧
      ∀ p ∈ pieces (x.w.getS 8).toNat (elemSize (va 64).w * (x.w.getS 9).toNat),
        ∃ l k at_ nc, s.engPlace (x.core / 64) x.g.ctx p.1 true = .line (.dev l) k at_ nc) ∧
    Meets (infoPsync ce ⟨.lit 3⟩) (fun x s => (x.w.src 0 (.lit 3) .b64).toNat < 2 ^ 24 ∧ s.pressBusy x.w.uid (x.w.src 0 (.lit 3) .b64).toNat = false) ∧
    Meets (infoPsync ce ⟨.s 8 .plain⟩) (fun x s => (x.w.src 0 (.s 8 .plain) .b64).toNat < 2 ^ 24 ∧
      s.pressBusy x.w.uid (x.w.src 0 (.s 8 .plain) .b64).toNat = true) := by
  refine ⟨Meets.mono (p := fun x s => (descsOf [x.w.getS 4] = some (17, [va 64]) ∧
      1 ≤ (x.w.getS 9).toNat ∧ (x.w.getS 9).toNat ≤ 262144 ∧ (x.w.getS 8).toNat % elemSize (va 64).w = 0 ∧
      s.storageAt x.g.ctx (x.w.getS 8).toNat = some (bareCode 5) ∧
      (x.w.getS 8).toNat + elemSize (va 64).w * (x.w.getS 9).toNat ≤ (bareCode 5).base + (bareCode 5).len ∧ (bareCode 5).kind = 1 ∧ BinOpen x s 17) ∧
      ∀ p ∈ pieces (x.w.getS 8).toNat (elemSize (va 64).w * (x.w.getS 9).toNat),
        s.engPlace (x.core / 64) x.g.ctx p.1 true = .line (.dev 32) 0 0x7 false)
      (fun x s h => ⟨h.1.1, h.1.2.1, h.1.2.2.1, h.1.2.2.2.1, h.1.2.2.2.2.1, h.1.2.2.2.2.2.1, h.1.2.2.2.2.2.2.1, h.1.2.2.2.2.2.2.2,
        fun p hp => ⟨32, 0, 0x7, false, h.2 p hp⟩⟩)
      (meets_of tXfer ?_), meets_of tBusy ?_,
    meets_of { tBusy with warps := [{ tw with s := tw.s.set 8 0x20000 }] } ?_⟩ <;> decide +kernel

/-! ### The module's own steps -/

/-- The warp of `s` in core 0, slot 0 is held, and meets `p`. -/
def Held (s : State) (p : Warp → Hold → Prop) : Prop := ∃ w h, s.warpAt 0 0 = some w ∧ w.hold = some h ∧ p w h

theorem held_of (s : State) {p : Warp → Hold → Prop} [∀ w h, Decidable (p w h)]
    (h : (match s.warpAt 0 0 with
      | some w => match w.hold with
        | some h => decide (p w h)
        | none => false
      | none => false) = true) : Held s p := by
  split at h
  · next w hw =>
    split at h
    · next o ho => exact ⟨w, o, hw, ho, of_decide_eq_true h⟩
    · exact absurd h (by simp)
  · exact absurd h (by simp)

/-- The module whose warp is held at instruction `i`, with count or mask `n`. -/
def th (i : Instr) (n : Nat) : State := tst fun w => { w with run := none, hold := some ⟨i, List.range 16, 5, 0, 0, n, 0, true, none⟩ }
/-- Held at WAITALL of tag 2, whose command has faulted. -/
def thFaulted : State := { tst (fun w => { w with
  run := none, efaults := [ef], hold := some ⟨.waitall ce ⟨.lit 4⟩, List.range 16, 5, 0, 0, 4, 0, true, none⟩ }) with teams := tCmd.teams }
/-- Bin 17 in press mode for context 0 with no operation in its queue. -/
def thPress (i : Instr) : State := { tst (fun w => { w with
  run := none, hold := some ⟨i, List.range 16, 5, 0, 0, 17, 0, true, some ⟨3, 2, 0, 0, .not, false, va 64, va 80, .const 0⟩⟩ }) with
  bins := tPress.bins }
/-- Held at CBWAIT on the count barrier at 0x1000, whose target is 1. -/
def thCb (arm : Nat) (bad : List Nat) : State :=
  { (tMap fun w => { w with run := none, hold := some ⟨.cbwait ce cwO, List.range 16, 5, 0, 0, 0, 0x1000, false, none⟩ }).modMem fun m =>
    { m with dram := m.dram.write 0x1008 [BitVec.ofNat 8 arm], poison := bad } with gtime := 3 }

theorem look_of {s : State} {w : Warp} {h : Hold} {v : Nat × Nat × Bool} (e : ((s.cbLook w h).map Prod.snd) = some v) :
    ∃ u, s.cbLook w h = some (u, v) := by
  cases f : s.cbLook w h with
  | none => simp [f] at e
  | some p => obtain ⟨u, x⟩ := p; simp only [f, Option.map_some, Option.some.injEq] at e; exact ⟨u, by rw [e]⟩

theorem Held.mono {s : State} {p q : Warp → Hold → Prop} (h : ∀ w h, p w h → q w h) : Held s p → Held s q
  | ⟨w, o, hw, ho, hp⟩ => ⟨w, o, hw, ho, h _ _ hp⟩

theorem witness_HeldWaitsEnd :
    Held (th (.napImmediate ce ⟨0⟩) 0) (fun _ h => h.isNap = true ∧ h.n = 0 ∧ h.ready = true) ∧
    Held { th (.napImmediate ce ⟨9⟩) 9 with dies := State.reset.dies.map fun d => { d with clk := 9 } } (fun w h => h.isNap = true ∧ h.n ≠ 0 ∧
      State.clkOf { th (.napImmediate ce ⟨9⟩) 9 with dies := State.reset.dies.map fun d => { d with clk := 9 } } w.core ≥ h.k0 + h.n) ∧
    Held (th (.fence c0 ⟨.dev, .ar⟩) 0) (fun w h => h.fence = some (.dev, .ar) ∧ Order.ar ≠ .sc ∧ w.fenceDone .dev .ar = true) ∧
    Held (th (.fence c0 ⟨.sys, .sc⟩) 0) (fun _ h => h.fence = some (.sys, .sc) ∧ h.ready = true) ∧
    Held (th (.opfence c0) 0) (fun w h => h.i = .opfence c0 ∧ w.opDone = true) ∧
    Held (th (.push c0 ⟨5, 1, 16⟩) 0) (fun _ h => h.i = .push c0 ⟨5, 1, 16⟩ ∧ queueFull ((th (.push c0 ⟨5, 1, 16⟩) 0).core 0) 5 = false) ∧
    Held { th (.waitall ce ⟨.lit 4⟩) 4 with teams := tCmd.teams } (fun w h => h.tagWait = some true ∧
      waitOver true (State.tagmap { th (.waitall ce ⟨.lit 4⟩) 4 with teams := tCmd.teams } w) (BitVec.ofNat 64 h.n) = true ∧
      w.faultedTag (State.tagmap { th (.waitall ce ⟨.lit 4⟩) 4 with teams := tCmd.teams } w &&& BitVec.ofNat 64 h.n) = none) ∧
    Held thFaulted (fun w h => h.tagWait = some true ∧ waitOver true (thFaulted.tagmap w) (BitVec.ofNat 64 h.n) = true ∧
      w.faultedTag (thFaulted.tagmap w &&& BitVec.ofNat 64 h.n) = some ef) ∧
    Held (thCb 0 []) (fun w h => h.i = .cbwait ce cwO ∧ ∃ u, (thCb 0 []).cbLook w h = some (u, 0, 0, false)) ∧
    Held (thCb 1 []) (fun w h => h.i = .cbwait ce cwO ∧ (∃ u, (thCb 1 []).cbLook w h = some (u, 0, 1, false)) ∧
      (thCb 1 []).gtime ≥ h.t0 + h.n) ∧
    Held (thCb 0 [128]) (fun w h => h.i = .cbwait ce cwO ∧ ∃ u, (thCb 0 [128]).cbLook w h = some (u, 0, 0, true)) ∧
    Held (th (.movQueuePop c0 ⟨0, .s 2⟩) 0) (fun _ h => h.i = .movQueuePop c0 ⟨0, .s 2⟩) ∧
    Held (th (.movQueuePush c0 ⟨9, .v 3 .plain⟩) 0) (fun _ h => h.i = .movQueuePush c0 ⟨9, .v 3 .plain⟩) ∧
    Held (th (.movs c0 ⟨.s 5, 7⟩) 0) (fun _ h => h.i = .movs c0 ⟨.s 5, 7⟩) ∧
    Held (th (.psync ce ⟨.lit 3⟩) 3) (fun w h => h.i = .psync ce ⟨.lit 3⟩ ∧ (th (.psync ce ⟨.lit 3⟩) 3).pressBusy w.uid h.n = false) ∧
    Held (th (.ld c0 ⟨.b32, .team, .sc, 0, 4, .v 5, .s 4 .plain⟩) 1) (fun w h => h.fence = some (.team, .sc) ∧ h.ready = true) ∧
    Held (thPress (.pnot c0 ⟨4, 5⟩)) (fun w h => pressInfo h.i = some (infoPress1 c0 ⟨4, 5⟩) ∧
      h.pop = some ⟨3, 2, 0, 0, .not, false, va 64, va 80, .const 0⟩ ∧
      (thPress (.pnot c0 ⟨4, 5⟩)).pressOpen h ((thPress (.pnot c0 ⟨4, 5⟩)).ctxOf w) = true) := by
  refine ⟨held_of _ ?_, held_of _ ?_, held_of _ ?_, held_of _ ?_, held_of _ ?_, held_of _ ?_, held_of _ ?_, held_of _ ?_,
    (held_of (thCb 0 []) (p := fun w h => h.i = .cbwait ce cwO ∧ ((thCb 0 []).cbLook w h).map Prod.snd = some (0, 0, false)) ?_).mono
      fun _ _ h => ⟨h.1, look_of h.2⟩,
    (held_of (thCb 1 []) (p := fun w h => h.i = .cbwait ce cwO ∧ ((thCb 1 []).cbLook w h).map Prod.snd = some (0, 1, false) ∧
      (thCb 1 []).gtime ≥ h.t0 + h.n) ?_).mono fun _ _ h => ⟨h.1, look_of h.2.1, h.2.2⟩,
    (held_of (thCb 0 [128]) (p := fun w h => h.i = .cbwait ce cwO ∧ ((thCb 0 [128]).cbLook w h).map Prod.snd = some (0, 0, true)) ?_).mono
      fun _ _ h => ⟨h.1, look_of h.2⟩,
    held_of _ ?_, held_of _ ?_, held_of _ ?_, held_of _ ?_, held_of _ ?_, held_of _ ?_⟩ <;> decide +kernel

/-- The warp stands at word 5 with no run, and its pending load 4 has its data. -/
def tIdle : State := { tst fun w => { w with
  run := none, lanes := w.lanes.map fun l => { l with pc := 5 }, pend := [⟨4, .load, [], [⟨.v 5, 0, 9⟩], [(.v 5, 0)], [], none, false, 4, false, [], 0, []⟩] }
  with cur := none }
def tIdleW : Warp := { tw with
  run := none, lanes := tw.lanes.map fun l => { l with pc := 5 }, pend := [⟨4, .load, [], [⟨.v 5, 0, 9⟩], [(.v 5, 0)], [], none, false, 4, false, [], 0, []⟩] }

/-- Both issue slots of core 0 are taken in this cycle. -/
def tTaken : State := { t0 with slots := (List.replicate 256 (0, 0)).set 0 (1, 1) }

theorem witness_RunsAndWriteBack :
    (tTaken.slotFree 0 0 = false ∧ tTaken.slotFree 0 1 = false) ∧
    (t0.slotFree 0 0 = true ∧ t0.runOn 0 0 = some tw) ∧
    (tIdle.slotFree 0 1 = true ∧ tIdle.runOn 0 1 = none ∧ tIdle.chosen 0 = some tIdleW ∧ tIdleW.eligible = some (5, List.range 16) ∧
      tIdle.firstBreak tIdleW 5 (List.range 16) = none) ∧
    ((∀ n ∈ [0, 1], ({ tw with run := some { tr with islot := n } } : Warp).core < t0.slots.length) ∧
      ∃ u : State, u.slots = (t0.occupy tw).slots ∧ u.clkOf 0 = t0.clkOf 0 + 1) ∧
    (tIdle.warpAt 0 0 = some tIdleW ∧
      (tIdleW.pend.find? fun p => p.id == 4 && p.reqs.isEmpty && !p.wb && !p.idle).isSome = true) := by
  refine ⟨by decide +kernel, by decide +kernel, by decide +kernel, ⟨by decide +kernel,
    (t0.occupy tw).modDie 0 fun d => { d with clk := d.clk + 1 }, rfl, by decide +kernel⟩, by decide +kernel⟩

/-- The warp has arrived at REGRP with every lane; it is alone in its team. -/
def tArrW (back : Bool) (n : Bool) (d : Option Nat) : Warp := { tw with
  run := none, arr := some ⟨back, false, 0, 8, 0, 8, n⟩, dom := d, lanes := tw.lanes.map fun l => { l with st := .regroup } }
def tArr : State := { t0 with warps := [tArrW false false none] }
def tDom (back : Bool) : Domain := ⟨9, 0, [0], [(2, 0, 0)], back, [8]⟩
def tRel (back : Bool) : State := { t0 with warps := [tArrW back true (some 9)], sch := { Sched.reset with doms := [tDom back] } }

theorem witness_Relocation :
    (tArr.warpAt 0 0 = some (tArrW false false none) ∧ tArr.regReady (tArrW false false none) = true ∧
      (((tArr.fixDomain 0 0).modWarp 0 0 fun w => { w with arr := w.arr.map fun a => { a with counted := true } }).warpAt 0 0).map
        Warp.dom = some (some 10)) ∧
    (∀ b, (tRel b).sch.doms.find? (fun d => d.id == 9) = some (tDom b) ∧ (tRel b).domReady 9 = true) := by decide +kernel

/-- An operation of kind `k`, event 6 of the warp, is the oldest of bin 17. -/
def tDoes (k : POpKind) : State := { tPress with
  bins := (List.replicate 24 (⟨.cache, 0, [], []⟩ : Bin)).set 17 ⟨.press, 0, [⟨3, 2, 0, 6, k, false, va 64, va 80, .vec (va 96)⟩], []⟩
  warps := [{ tw with pend := [⟨4, .press, [6], [], [], [], none, false, 4, false, [], 0, []⟩] }] }
def hostDir : DirE := ⟨.dev 32, .dir, [], none, true, 0⟩

theorem witness_PressCompletions :
    ((State.bin { t0 with bins := [⟨.entering, 0, [], []⟩] } 0).st = .entering ∧ t0.boot.st ≠ .alarm) ∧
    ((State.bin { t0 with bins := [⟨.draining, 0, [], []⟩] } 0).st = .draining ∧
      (State.bin { t0 with bins := [⟨.draining, 0, [], []⟩] } 0).ops = []) ∧
    ({ t0 with boot := { t0.boot with st := .alarm } } : State).boot.st = .alarm ∧
    (∃ o, (tBusy.bin 17).ops = o :: [] ∧ o.kind = .not ∧ tBusy.askBack (binKey 17) o.ctx o.writes = none) ∧
    (∀ k ∈ ([.add, .sub, .mul, .and, .or, .xor, .cmp .le, .sel (va 64), .sat 0 5, .shl 3, .shr 3, .xin 3 0 [(32, 0)], .xout 3 0 [(32, 0)]] :
      List POpKind), ∃ o, ((tDoes k).bin 17).ops = o :: [] ∧ o.kind = k ∧ (tDoes k).askBack (binKey 17) o.ctx o.writes = none ∧
      ∀ l ∈ o.lines, (tDoes k).homeFree l = true) ∧
    (∃ o w p, ((tDoes (.cnt 8)).bin 17).ops = o :: [] ∧ o.kind = .cnt 8 ∧ (tDoes (.cnt 8)).warpU o.warp = some w ∧
      w.pend.find? (fun p => p.reqs.contains o.pend) = some p) ∧
    ((tDoes .add).dirOf (.dev 32) = none ∧ (tDoes .add).cell (.dev 32) = none ∧ (tDoes .add).mem.dram.wf = true) := by
  refine ⟨⟨rfl, by decide⟩, ⟨rfl, rfl⟩, rfl, ⟨_, rfl, rfl, by decide +kernel⟩, fun k hk => ⟨_, rfl, rfl, ?_⟩, ⟨_, _, _, rfl, rfl, rfl, rfl⟩, by decide +kernel⟩
  simp only [List.mem_cons, List.not_mem_nil, or_false] at hk
  rcases hk with h | h | h | h | h | h | h | h | h | h | h | h | h <;> subst h <;> decide +kernel

/-- A request at the home of `l`. -/
def rq (l : LineId) : HomeReq := ⟨1, 1, 0, 3, 4, 0, l, 0x16, .atHome, [.write 0 [1]], 0, false, [], none, false, true, 0, [], []⟩

/-- The host has a copy of line 32, to which a PXOUT writes; or a request to line 32 is in the pool of its home. -/
theorem witness_PressCompletions_back : (((tDoes (.xout 3 0 [(32, 0)])).modMem fun m => { m with dir := [hostDir] }).askBack (binKey 17) 0
    [.dev 32]).isSome = true ∧ ∃ o, ((tDoes (.xin 3 0 [(32, 0)])).bin 17).ops = o :: [] ∧
    ((tDoes (.xin 3 0 [(32, 0)])).modMem fun m => { m with queue := [rq (.dev 32)] }).askBack (binKey 17) o.ctx o.writes = none ∧
    ∃ l ∈ o.lines, ((tDoes (.xin 3 0 [(32, 0)])).modMem fun m => { m with queue := [rq (.dev 32)] }).homeFree l = false :=
  ⟨by decide +kernel, _, rfl, by decide +kernel, .dev 32, by decide +kernel, by decide +kernel⟩

def tHome (l : LineId) : State := t0.modMem fun m => { m with queue := [rq l] }
def hop (k : HostOpKind) : State := t0.modMem fun m => { m with hostOps := [⟨1, k, 1, 0, 0, none, 0⟩] }
def tWalk (s : State) : State := s.modMem fun m => { m with walks := [⟨0, 0, 0, [3]⟩] }
/-- The host has a copy of line 32, which a core is to own. -/
def tBack : State := t0.modMem fun m => { m with queue := [{ rq (.dev 32) with kind := .own }], dir := [hostDir] }
def tNc : State := t0.modMem fun m => { m with queue := [{ rq (.host 7) with nc := true }] }
/-- A request that has yet to read V3 of lane 0 for the first of its four bytes; its access is in flight, and V3 has been overwritten. -/
def rqLate : HomeReq := { rq (.dev 3) with ops := [.write 0 [1, 0, 0, 0]], late := [⟨.v 3, 0, 0, 0, 4⟩] }
def tLate : State := (tst fun w => { w with pend := [⟨4, .store, [1], [], [], [], none, false, 4, false, [], 0, [(.v 3, 0)]⟩] }).modMem fun m =>
  { m with queue := [rqLate] }
/-- Host line 7 has a copy at its home under class DIR. -/
def tClass : State := t0.modMem fun m => { m with cellar := [⟨.host 7, .dir, List.replicate 128 0, 0, 0, none, 0, 0, none, 0⟩] }
/-- INVAL.SYS of host line 7 by core 0, while core 1 holds a copy. -/
def rqInval : HomeReq := { rq (.host 7) with kind := .inval true true, ops := [] }
def tBereft : State := t0.modMem fun m => { m with
  queue := [rqInval], dir := [⟨.host 7, .dir, [1], none, false, 0⟩], bridge := [⟨7, .shared, .shared, List.replicate 128 0, 0, 0⟩] }
/-- The bridge has one half of host line 7. -/
def halfLine : BridgeLine := ⟨7, .invalid, .modified, List.replicate 128 0, 0xC, 0⟩
/-- Host line 7 at the bridge, modified. -/
def tBridge : State := (tHome (.host 7)).modMem fun m => { m with bridge := [⟨7, .modified, .modified, List.replicate 128 0, 0xF, 0⟩] }

theorem witness_HomeAndHostSteps :
    ((∃ k e, (tWalk (tMap id)).mem.walks.find? (fun k => k.die == 0 && k.ctx == 0 && k.page == 0) = some k ∧
        (tWalk (tMap id)).walk 0 (0 * 65536) = some e) ∧
      ∃ k, (tWalk t0).mem.walks.find? (fun k => k.die == 0 && k.ctx == 0 && k.page == 0) = some k ∧ (tWalk t0).walk 0 (0 * 65536) = none) ∧
    (t0.homeNext 3 = none ∧ (tHome (.dev 3)).homeNext (LineId.dev 3).home = some (rq (.dev 3)) ∧ (rq (.dev 3)).late = [] ∧
      (tHome (.dev 3)).backFirst (rq (.dev 3)) = none) ∧
    (tLate.homeNext (LineId.dev 3).home = some rqLate ∧ rqLate.late ≠ [] ∧ (∃ w p, tLate.warpU rqLate.warp = some w ∧
      w.pend.find? (fun p => p.id == rqLate.pend) = some p ∧ (p.torn.any fun x => samePlace x.1 x.2 (.v 3) 0) = true)) ∧
    tClass.otherClass (.host 7) .unc = true ∧
    ((tHome (.host 7)).backFirst (rq (.host 7)) = none ∧ (rq (.host 7)).viaHost = false ∧
      [false, true].find? (fun h => decide ((tHome (.host 7)).halfLevel 7 h <
        (rq (.host 7)).need ((tHome (.host 7)).cellable (rq (.host 7)).line (rq (.host 7)).attr) h)) = some false) ∧
    (tBereft.backFirst rqInval = none ∧ rqInval.viaHost = false ∧ (∀ h, tBereft.halfLevel 7 h ≥ rqInval.need (tBereft.cellable (.host 7) rqInval.attr) h) ∧
      rqInval.ops.any LineOp.isAtom = false ∧ (tBereft.serve rqInval).1.bereft rqInval = true) ∧
    (({ rq (.dev 3) with kind := .memWrite, ops := [.write 4 [7], .taint 0] } : HomeReq).ops = [.write 4 [7], .taint 0]) ∧
    State.reset.boot.memOpen = false ∧
    ((tBridge.mem.bridge.filter fun b => b.line != 7 && !tBridge.mem.queue.any fun r => r.line == .host b.line && r.wait.isSome) = [] ∧
      (tBridge.mem.bridge.filter fun b => b.line != 8 && !tBridge.mem.queue.any fun r => r.line == .host b.line && r.wait.isSome) ≠ []) ∧
    ((t0.modMem fun m => { m with bridge := [halfLine] }).bridgeOf 7 = some halfLine ∧ halfLine.half false = .invalid) ∧
    (tBack.homeNext (LineId.dev 32).home = some { rq (.dev 32) with kind := .own } ∧
      tBack.backFirst { rq (.dev 32) with kind := .own } = some (.dev 32)) ∧
    (tNc.homeNext (LineId.host 7).home = some { rq (.host 7) with nc := true } ∧ tNc.backFirst { rq (.host 7) with nc := true } = none ∧
      HomeReq.viaHost { rq (.host 7) with nc := true } = true) ∧
    (tBridge.homeNext (LineId.host 7).home = some (rq (.host 7)) ∧ tBridge.backFirst (rq (.host 7)) = none ∧ (rq (.host 7)).viaHost = false ∧
      (∀ h, tBridge.halfLevel 7 h ≥ (rq (.host 7)).need (tBridge.cellable (rq (.host 7)).line (rq (.host 7)).attr) h) ∧
      ((rq (.host 7)).ops.any LineOp.isAtom = false ∧ (tBridge.serve (rq (.host 7))).1.bereft (rq (.host 7)) = false)) ∧
    (t0.modMem fun m => { m with fills := [16384] }).mem.fills.getD 0 0 ≥ 16384 ∧
    ((t0.modMem fun m => { m with ats := [⟨0, 5, 6, none, false⟩] }).mem.ats.any fun e => e.die == 0 && e.pasid == 5 && e.page == 6) = true ∧
    t0.pasidBusy 5 = false ∧ t0.bridgeOf 7 = none ∧
    (∃ b, tBridge.bridgeOf 7 = some b ∧ b.half true ≠ .invalid) ∧ t0.boot.memOpen = true ∧
    ({ rq (.dev 3) with kind := .memRead } : HomeReq).kind = .memRead ∧
    ((hop (.backInval 3)).mem.hostOps.filter fun o => o.kind == .backInval 3) ≠ [] ∧
    (∃ o, (hop (.pcieRead 64 4)).mem.hostOps.find? (fun o => o.id == 1 && o.done.isNone) = some o ∧ ∀ n h w, o.kind ≠ .cxlRead n h w) ∧
    (∃ o, (hop (.cxlRead 7 true true)).mem.hostOps.find? (fun o => o.id == 1 && o.done.isNone) = some o ∧ o.kind = .cxlRead 7 true true) ∧
    (∃ o, (hop .atomicOp).mem.hostOps.find? (fun o => o.id == 1 && o.done.isNone) = some o ∧ ∀ n h w, o.kind ≠ .cxlRead n h w) := by
  refine ⟨⟨⟨_, (((tWalk (tMap id)).walk 0 (0 * 65536)).getD ⟨0, 0, 0, 0, 0⟩), rfl, by decide +kernel⟩, _, rfl, by decide +kernel⟩, by decide +kernel,
    ⟨by decide +kernel, by decide, _, _, rfl, rfl, by decide +kernel⟩, by decide +kernel, by decide +kernel, by decide +kernel, rfl,
    by decide +kernel, by decide +kernel, by decide +kernel, by decide +kernel, by decide +kernel,
    by decide +kernel, by decide +kernel, by decide +kernel, by decide +kernel, by decide +kernel, ⟨_, rfl, by decide⟩, by decide +kernel, rfl,
    by decide, ⟨_, rfl, fun n h w => nofun⟩, ⟨_, rfl, rfl⟩, ⟨_, rfl, fun n h w => nofun⟩⟩

/-- A flit to byte 0x1000, with payload `b`; its companion header word names the count barrier at 0x1000. -/
def fl (op : BitVec 4) (b : List Byte) : Flit := ⟨0, 1, 3, 0, 9, BitVec.ofNat 8 b.length, op, 0, 0, 0, 0x1000, 0, 0x1000, 0, 0, 0, b⟩
def flR : Flit := { fl 0 [] with off := 3 }
/-- The module opens its context 0 to its peers; its page 0 has LVL 10. -/
def tLink : State := { (tMap id).modMem fun m => { m with dram := m.dram.write 0x50000 [0x17] } with link := { t0.link with exportCtx := some 0 } }
/-- An access that awaits its answer. -/
def tAsk (op : LineOp) : State := { t0 with link := { t0.link with out := [⟨1, 9, 0, 0, 3, 1, 4, op, 0, 0, [], none⟩] } }

theorem witness_LinkFlits :
    tLink.boot.st = .ready ∧
    (∃ a, (tLink.exported (fl 0 []).off.toNat 1 false).toOption = some a) ∧
    (∃ a, (tLink.exported (fl 0 [1, 2, 3, 4]).off.toNat 4 true).toOption = some a) ∧
    ((∃ a, (tLink.peerBarrier (fld (fl 0 []).h2 0 42)).toOption = some a) ∧ (fl 0 []).payload = [] ∧ (fl 0 [1]).payload ≠ []) ∧
    ((flitOp (fl 0 [1, 2, 3, 4])).map Prod.fst = some 4 ∧ (fl 0 [1, 2, 3, 4]).off.toNat % 4 = 0) ∧
    (∃ p, (tAsk (.read 0 0 4 5 .b32)).asked (fl 0 [1, 2, 3, 4]) = some p ∧ (fl 0 [1, 2, 3, 4]).status = 0 ∧ p.op.writes = false) ∧
    (∃ p, (tAsk (.atom 0 0 .add .i32 1 none)).asked (fl 0 [1, 2, 3, 4]) = some p ∧ p.op = .atom 0 0 .add .i32 1 none) ∧
    (∃ p, (tAsk (.write 0 [1])).asked (fl 0 []) = some p ∧ p.op = .write 0 [1]) ∧
    (∃ p, (tAsk (.write 0 [1])).asked { fl 0 [] with status := 0x83 } = some p ∧ p.op = .write 0 [1]) ∧
    (∃ p, (tAsk (.read 0 0 4 5 .b32)).asked { fl 0 [] with status := 0x83 } = some p ∧ p.op.writes = false) ∧
    (∀ p ∈ tLink.link.parts, ¬ (p.1 = (fl 0 []).grp.toNat * 16 + (fl 0 []).chunk.toNat ∧ p.2.1 = fld (fl 0 []).h2 0 6 ∧
      p.2.2.1 = (fl 0 []).off.toNat)) ∧
    State.reset.boot.st ≠ .ready ∧ t0.link.live.getLsbD 15 = true ∧ t0.link.live.getLsbD 16 = false :=
  ⟨rfl, ⟨(.dev 32, 0, 0x17), by decide +kernel⟩, ⟨(.dev 32, 0, 0x17), by decide +kernel⟩, ⟨⟨(.dev 32, 0x17), by decide +kernel⟩, rfl, by decide⟩,
   by decide +kernel, ⟨_, rfl, rfl, rfl⟩, ⟨_, rfl, rfl⟩, ⟨_, rfl, rfl⟩, ⟨_, rfl, rfl⟩, ⟨_, rfl, rfl⟩, by decide +kernel, by decide, by decide +kernel,
   by decide +kernel⟩

/-! ### Commands -/

def Got.isData (g : Got) : Bool :=
  match g with
  | .data _ => true
  | _ => false

theorem data_of {p : State × Got} (h : Got.isData p.2 = true) : ∃ t b, p = (t, .data b) := by
  obtain ⟨t, g⟩ := p
  cases g with
  | data b => exact ⟨t, b, rfl⟩
  | fault c => exact absurd h (by simp [Got.isData])
  | wait => exact absurd h (by simp [Got.isData])

/-- A command that waits at core 0, of the team of `t0`. -/
def ck (q : Nat) (ws : List DWord) : Cmd := ⟨q, 1, ws, 0, 0, 3, 2, 4, false, .waiting, ⟨0, 0, false⟩, [], [], [], []⟩
def ctxAll : Ctx := { bareCtx with c := [0x10000, 0, 0xFFFFFFFFFFFFFFFF, 0, 1, 0, 0, 0], groups := [⟨3, 1, 0, false, [0]⟩] }
/-- Core 0 has a command in queue `q`; page 0 of context 0 is mapped, with MSC, and its row 1 holds the key 5. -/
def te (q : Nat) (c : Cmd) : State := { t0 with
  cores := [{ Core.reset with queues := (List.replicate 6 []).set q [c] }, Core.reset], tabs := [bareCode 5],
  sch := { Sched.reset with ctxs := [ctxAll] },
  mem := { MemSys.reset with dram := (bareTables [] []).write 0x50000 [0x17, 0x88] |>.write 0xF010 [5] } }
/-- A reservation of the team: B in INT4 with 4 planes, K-blocks of 16. -/
def tres : Reservation := ⟨2, 3, 0, 2, 7, 0, 4, 0xFFFF, 0⟩
def withRes (s : State) : State := s.modCore 0 fun k => { k with res := [tres] }
def scr : DWord := 0x01FFFF0000000000

def cReserve : Cmd := ck 0 [0x11, 0x04070203]
def cRelease : Cmd := ck 0 [0x13, 3]
def cLoadb : Cmd := ck 0 [0x12, scr, 3, 0, 128]
/-- A drained card of one tile and one step: A in INT4 from the scratchpad. -/
def cGemm : Cmd := ck 0 [0x20010, scr, 0, 0x0000070400000003, 0, 0, 0, 0xFFFFFFFF]
def cRun : Cmd := { cGemm with phase := .running }
def onArray (s : State) : State := s.modCore 0 fun k => { k with array := some 1 }

def Tile.isRows (t : Tile) : Bool :=
  match t with
  | .rows _ _ => true
  | _ => false

def Tile.isFault (t : Tile) : Bool :=
  match t with
  | .fault _ _ => true
  | _ => false

theorem rows_of {p : State × Tile} (h : Tile.isRows p.2 = true) : ∃ t r bad, p = (t, .rows r bad) := by
  obtain ⟨t, g⟩ := p
  cases g with
  | rows b q => exact ⟨t, b, q, rfl⟩
  | fault c => exact absurd h (by simp [Tile.isRows])
  | wait => exact absurd h (by simp [Tile.isRows])

theorem fault_of {p : State × Tile} (h : Tile.isFault p.2 = true) : ∃ t x n, p = (t, .fault x n) := by
  obtain ⟨t, g⟩ := p
  cases g with
  | rows b q => exact absurd h (by simp [Tile.isFault])
  | fault x n => exact ⟨t, x, n, rfl⟩
  | wait => exact absurd h (by simp [Tile.isFault])

/-- The tile of `c` is computed and written, and the command is there still. -/
def stored (s : State) (c : Cmd) (core : Nat) : Bool :=
  match s.gemmTile (s.agentOf c core) c (s.cmdGrid c).f.w [(0, tres)] with
  | (s1, .rows r bad) => Got.isData (s1.putTile (s.agentOf c core) core c (s.cmdGrid c).f.w r bad).2 &&
      ((s1.putTile (s.agentOf c core) core c (s.cmdGrid c).f.w r bad).1.cmdAt core 0 1).isSome
  | _ => false

theorem witness_MatrixCommands :
    (let s := te 0 cReserve
     s.cmdAt 0 0 1 = some cReserve ∧ cReserve.code = 0x11 ∧ s.mxTurn 0 1 = true ∧
       cReserve.reserveOk = true ∧
       (∀ k ∈ cReserve.onCores 0, (s.core k).resOf (s.ownerOf cReserve.team) (cReserve.f 1 0 6) = none ∧ (s.core k).res.length < 64) ∧
       (List.range (129 - cReserve.f 1 8 8)).find? (fun a => (cReserve.onCores 0).all fun k => (s.core k).freeRun a (cReserve.f 1 8 8)) =
         some 0) ∧
    (let s := withRes (te 0 cRelease)
     s.cmdAt 0 0 1 = some cRelease ∧ cRelease.code = 0x13 ∧ s.mxTurn 0 1 = true ∧
       cRelease.f 1 6 58 = 0 ∧ cRelease.zeroFrom 2 = true ∧
       (∀ k ∈ cRelease.onCores 0, (s.core k).resOf (s.ownerOf cRelease.team) (cRelease.f 1 0 6) ≠ none)) ∧
    (let s := withRes (te 0 cLoadb)
     s.cmdAt 0 0 1 = some cLoadb ∧ cLoadb.code = 0x12 ∧ s.mxTurn 0 1 = true ∧
       (cLoadb.f 1 57 7 = 0 ∧ cLoadb.f 2 6 2 = 0 ∧ cLoadb.f 2 32 32 = 0 ∧ cLoadb.f 3 24 40 = 0 ∧ cLoadb.f 4 40 24 = 0 ∧
         cLoadb.zeroFrom 5 = true) ∧
       ((cLoadb.onCores 0).map fun k => (k, (s.core k).resOf (s.ownerOf cLoadb.team) (cLoadb.f 2 0 6))) =
         ([(0, tres)] : List (Nat × Reservation)).map (fun r => (r.1, some r.2)) ∧ sameFormat [(0, tres)] = true ∧
       ∃ t b, s.loadBlocks (s.agentOf cLoadb 0) cLoadb [(0, tres)] false (blockList (cLoadb.f 3 12 12) (cLoadb.f 3 0 12)) = (t, .data b)) ∧
    (let s := withRes (te 0 cGemm)
     s.cmdAt 0 0 1 = some cGemm ∧ (s.core 0).array = none ∧ (s.core 0).slaved = false ∧ (s.cardNext 0).map Cmd.id = some 1 ∧
       (cGemm.phase = .waiting → cGemm.gemmOk = true ∧
        s.tensorBad (s.cmdGrid cGemm).ctx (cGemm.f 7 0 16) = none ∧ s.tensorBad (s.cmdGrid cGemm).ctx (cGemm.f 7 16 16) = none) ∧
       (∀ k ∈ cGemm.onCores 0, (s.core k).cardRes (s.ownerOf cGemm.team) cGemm ≠ none)) ∧
    (let s := onArray (withRes (te 0 cRun))
     (s.core 0).array = some 1 ∧ s.cmdAt 0 0 1 = some cRun ∧ (cRun.pair = true → (s.core (0 + 1)).array = none) ∧
       cRun.rows = [] ∧ cRun.card.steps ≠ 1 ∧ cRun.card.tiles < cRun.tiles ∧ cRun.feed.isSome = false ∧
       (cRun.onCores 0).filterMap (fun k => ((s.core k).cardRes (s.ownerOf cRun.team) cRun).map fun r => (k, r)) = [(0, tres)] ∧
       (cRun.onCores 0).length = 1 ∧
       ∃ (s1 : State) (r : List (List Byte)) (bad : Bool) (s2 : State) (b : List PByte) (e : Cmd),
         s.gemmTile (s.agentOf cRun 0) cRun (s.cmdGrid cRun).f.w [(0, tres)] = (s1, .rows r bad) ∧
           s1.putTile (s.agentOf cRun 0) 0 cRun (s.cmdGrid cRun).f.w r bad = (s2, .data b) ∧ s2.cmdAt 0 0 1 = some e) := by
  refine ⟨by decide +kernel, by decide +kernel, ⟨by decide +kernel, by decide +kernel, by decide +kernel, by decide +kernel,
    by decide +kernel, by decide +kernel, data_of (by decide +kernel)⟩, by decide +kernel, by decide +kernel, by decide +kernel, by decide +kernel,
    by decide +kernel, by decide +kernel, by decide +kernel, by decide +kernel, by decide +kernel, by decide +kernel, ?_⟩
  have h : stored (onArray (withRes (te 0 cRun))) cRun 0 = true := by decide +kernel
  obtain ⟨s1, r, bad, h1⟩ := rows_of (p := (onArray (withRes (te 0 cRun))).gemmTile ((onArray (withRes (te 0 cRun))).agentOf cRun 0) cRun
    ((onArray (withRes (te 0 cRun))).cmdGrid cRun).f.w [(0, tres)]) (by decide +kernel)
  simp only [stored, h1, Bool.and_eq_true] at h
  obtain ⟨s2, b, h2⟩ := data_of h.1
  rw [h2] at h
  obtain ⟨e, he⟩ := Option.isSome_iff_exists.mp h.2
  exact ⟨s1, r, bad, s2, b, e, h1, h2, he⟩

/-- A card whose A lies in no table. -/
def cLost : Cmd := { cRun with w := [0x20010, 0x30000, 0, 0x0000070400000003, 0, 0, 0, 0xFFFFFFFF] }

/-- A tile that faults; one whose words have been written; words that the host has yet to perform, or that a peer has refused. -/
theorem witness_MatrixCommands_tiles :
    (let s := onArray (withRes (te 0 cLost))
     s.cmdAt 0 0 1 = some cLost ∧ cLost.card.steps ≠ 1 ∧ ∃ s1 x n,
       s.gemmTile (s.agentOf cLost 0) cLost (s.cmdGrid cLost).f.w [(0, tres)] = (s1, .fault x n)) ∧
    (let c : Cmd := { cRun with card := ⟨0, 1, false⟩ }
     let s := onArray (withRes (te 0 c))
     (s.core 0).array = some 1 ∧ s.cmdAt 0 0 1 = some c ∧ (c.pair = true → (s.core (0 + 1)).array = none) ∧ c.card.steps = 1 ∧
       s.engPending (engKey 0 0 1) = false ∧ s.engRefused (engKey 0 0 1) = none) ∧
    (t0.modMem fun m => { m with hostOps := [⟨7, .zeroRead, engKey 0 0 1, 0, 0, none, 0⟩] }).engPending (engKey 0 0 1) = true ∧
    (∃ st, (t0.modMem fun m => { m with hostOps := [⟨7, .zeroRead, engKey 0 0 1, 0, 0, some none, 0⟩] }).engRefused (engKey 0 0 1) = some st ∧
      (t0.modMem fun m => { m with hostOps := [⟨7, .zeroRead, engKey 0 0 1, 0, 0, some none, 0⟩] }).engPending (engKey 0 0 1) = false) :=
  ⟨⟨by decide +kernel, by decide +kernel, fault_of (by decide +kernel)⟩, by decide +kernel, by decide +kernel, Code.machineCheck.num,
   by decide +kernel, by decide +kernel⟩

def allData (gs : List (Nat × Got)) : Bool := gs.all fun g => Got.isData g.2

theorem all_data {gs : List (Nat × Got)} (h : allData gs = true) : ∀ g ∈ gs, ∃ b, g.2 = .data b := by
  intro g hg
  have := List.all_eq_true.mp h g hg
  obtain ⟨n, g⟩ := g
  cases g with
  | data b => exact ⟨b, rfl⟩
  | fault c => exact absurd this (by simp [Got.isData])
  | wait => exact absurd this (by simp [Got.isData])

def okAll {α : Type} (rs : List (Nat × Except Got α)) : Bool := rs.all fun r => r.2.toOption.isSome

theorem all_ok {α : Type} {rs : List (Nat × Except Got α)} (h : okAll rs = true) : ∀ r ∈ rs, ∃ l, r.2 = .ok l := by
  intro r hr
  have := List.all_eq_true.mp h r hr
  obtain ⟨n, g⟩ := r
  cases g with
  | ok b => exact ⟨b, rfl⟩
  | error c => exact absurd this (by simp [Except.toOption])

/-- 200 bytes from the scratchpad to the scratchpad, at other places in a word; and 40 bytes at the same. -/
def cCopy : Cmd := ck 1 [0x20, scr + 3, scr + 0x1000, 200]
def cOne : Cmd := ck 1 [0x20, scr, scr + 0x1000, 40]
/-- A transform of 4 INT8 elements of page 0. -/
def cXf (x n : Nat) : Cmd := ck 1 [0x20, 0x1000, 0x2000, BitVec.ofNat 64 (4 + x * 2 ^ 40 + 6 * 2 ^ 44 + 6 * 2 ^ 48 + n * 2 ^ 52), 0x3F800000, 0x3000, 16]

/-- The pieces of the next step of a copy that has copied none. -/
def nextPieces (s : State) (c : Cmd) : List (Nat × Nat) :=
  let all := copyPieces (wordAt c.w 1).toNat (wordAt c.w 2).toNat 0 (c.f 3 0 40 / 64 + 4) (c.f 3 0 40)
  (all.drop c.card.tiles).take (copyPart s.fresh (all.drop c.card.tiles).length (wordAt c.w 1).toNat (wordAt c.w 2).toNat)

/-- A transform whose source lies in no table. -/
def cXfLost : Cmd := ck 1 [0x20, 0x30000, 0x2000, BitVec.ofNat 64 (4 + 2 ^ 40 + 6 * 2 ^ 44 + 6 * 2 ^ 48), 0x3F800000, 0x3000, 16]

def xfFaults (r : Except Got XfLine) : Option Code :=
  match r with
  | .error (.fault c) => some c
  | _ => none

theorem xfFaults_of {p : State × Except Got XfLine} {c : Code} (h : xfFaults p.2 = some c) : ∃ t, p = (t, .error (.fault c)) := by
  obtain ⟨t, r⟩ := p
  cases r with
  | ok x => exact absurd h (by simp [xfFaults])
  | error e =>
    cases e with
    | data b => exact absurd h (by simp [xfFaults])
    | wait => exact absurd h (by simp [xfFaults])
    | fault d => exact ⟨t, by rw [Option.some.inj h]⟩

theorem ok_line {α : Type} {p : State × Except Got α} (h : p.2.toOption.isSome = true) : ∃ t a, p = (t, .ok a) := by
  obtain ⟨t, r⟩ := p
  cases r with
  | ok a => exact ⟨t, a, rfl⟩
  | error e => exact absurd h (by simp [Except.toOption])

theorem witness_CopyCommands :
    (∀ c ∈ [cCopy, cOne], (te 1 c).copyGoing 0 1 = some c ∧ c.copyNoneOk = true ∧
      ∀ g ∈ ((te 1 c).copyAll ((te 1 c).agentOf c 0) (wordAt c.w 1).toNat (wordAt c.w 2).toNat (nextPieces (te 1 c) c)).2,
        ∃ b, g.2 = .data b) ∧
    ((3 : Nat) % 4 ≠ 4 % 4 ∧ (7 % 4 = 3 % 4 ∧ (1, 20) ∈ copyPieces 7 3 1 9 20)) ∧
    (∀ x ∈ [(1, 0), (2, 0), (3, 0), (4, 2)], (te 1 (cXf x.1 x.2)).copyStart 0 1 (· == x.1) = some (cXf x.1 x.2) ∧ (cXf x.1 x.2).xfOk = true ∧
      (cXf x.1 x.2).xfAligned = true) ∧
    (∀ x ∈ [(1, 0), (2, 0), (3, 0), (4, 2)], ∀ r ∈ ((te 1 (cXf x.1 x.2)).xfAll 0 (cXf x.1 x.2)).2, ∃ l, r.2 = .ok l) ∧
    (∃ t x, (te 1 (cXf 1 0)).xfLine ((te 1 (cXf 1 0)).agentOf (cXf 1 0) 0) (cXf 1 0) 0 4 = (t, .ok x)) ∧
    (∃ t, (te 1 cXfLost).xfLine ((te 1 cXfLost).agentOf cXfLost 0) cXfLost 0 4 = (t, .error (.fault .notable))) := by
  have h : ∀ x ∈ [(1, 0), (2, 0), (3, 0), (4, 2)], okAll ((te 1 (cXf x.1 x.2)).xfAll 0 (cXf x.1 x.2)).2 = true := by decide +kernel
  have g : ∀ c ∈ [cCopy, cOne], allData ((te 1 c).copyAll ((te 1 c).agentOf c 0) (wordAt c.w 1).toNat (wordAt c.w 2).toNat
    (nextPieces (te 1 c) c)).2 = true := by decide +kernel
  have k : ∀ c ∈ [cCopy, cOne], (te 1 c).copyGoing 0 1 = some c ∧ c.copyNoneOk = true := by decide +kernel
  exact ⟨fun c hc => ⟨(k c hc).1, (k c hc).2, all_data (g c hc)⟩, by decide +kernel, by decide +kernel, fun x hx => all_ok (h x hx),
    ok_line (by decide +kernel), xfFaults_of (by decide +kernel)⟩

def grp1 : Group := ⟨3, 1, 0, false, [0]⟩
/-- A collective of one member in one chunk of 256 bytes, from the scratchpad to the scratchpad. -/
def cColl (op : Nat) : Cmd := ck 3 [0x40, scr, scr + 0x1000, BitVec.ofNat 64 (256 + op * 2 ^ 40 + 3 * 2 ^ 56)]
def cChunk (op : Nat) : Cmd := { cColl op with phase := .running, chunks := [0] }

theorem witness_CollectiveCommands :
    (∀ op ∈ [0, 1, 2], (te 3 (cColl op)).cmdAt 0 3 1 = some (cColl op) ∧ (cColl op).code = 0x40 ∧ (te 3 (cColl op)).mayStart 0 3 1 = true ∧
      (cColl op).cop = op ∧ (te 3 (cColl op)).groupOf ((te 3 (cColl op)).cmdGrid (cColl op)).ctx ((cColl op).f 3 56 8) = some grp1 ∧
      (cColl op).collOk = true) ∧
    (let s := te 3 (cChunk 2)
     let c := cChunk 2
     s.cmdAt 0 3 1 = some c ∧ c.phase = .running ∧ 0 ∈ c.chunks ∧ s.chunkWritten (chunkKey 0 1 0) = false ∧ s.partPoison grp1 0 = false ∧ s.groupOf (s.cmdGrid c).ctx (c.f 3 56 8) = some grp1 ∧
     (∀ d ∈ s.partsOf c grp1 0 [], d.length = c.chunk) ∧
     ∃ (s1 : State) (b : List PByte), s.engRead { s.agentOf c 0 with key := chunkKey 0 1 0 } (c.srcOf grp1.rank 0) c.chunk = (s1, .data b) ∧ anyPoison b = false ∧
       ∃ (s2 : State) (x : List PByte), ({ s1 with fresh := s1.fresh + 1 } : State).rangesReady { s.agentOf c 0 with key := chunkKey 0 1 0 }
         (chunkWrites c grp1 0 s1.fresh ((s.partsOf c grp1 0 []).set grp1.rank (rawBytes b))) = (s2, .data x)) := by
  refine ⟨by decide +kernel, by decide +kernel, by decide +kernel, by decide +kernel, by decide +kernel, by decide +kernel,
    by decide +kernel, by decide +kernel,
    ((te 3 (cChunk 2)).engRead { (te 3 (cChunk 2)).agentOf (cChunk 2) 0 with key := chunkKey 0 1 0 } ((cChunk 2).srcOf grp1.rank 0) (cChunk 2).chunk).1,
    List.replicate 256 (0, false), Prod.ext rfl (by decide +kernel), by decide +kernel, data_of (by decide +kernel)⟩

/-- The chunk is written, and the zero-length read behind its writes has been answered. -/
theorem witness_CollectiveCommands_written : (let s := (te 3 (cChunk 2)).modMem fun m => { m with
    hostOps := [⟨7, .zeroRead, chunkKey 0 1 0, 0, 0, some (some []), 0⟩] }
    s.cmdAt 0 3 1 = some (cChunk 2) ∧ s.chunkWritten (chunkKey 0 1 0) = true ∧ s.engPending (chunkKey 0 1 0) = false) := by decide +kernel

/-- BUILD of table 9: a sorted table of KI32 keys in 16-byte rows at 0xF000, two rows filled. -/
def cBuild : Cmd := ck 4 [0x50, 9, 0x10002, 0xF000, 256, 2]
def cLaunch : Cmd := ck 5 [0x60, 6]
def tLaunch : State := (te 5 cLaunch).modQueue 6 fun q => { q with bind := some (0, 1, 0, 1) }
/-- Queue 6 of the context has no room; or an earlier LAUNCH to it is still there. -/
def tCrowd : State := tLaunch.modQueue 6 fun q =>
  { q with pkts := List.replicate (1 + Config.launchMore) ⟨0, 0, 1, 0, [], false, none⟩ }
def cLaunch2 : Cmd := { cLaunch with seq := 2 }
def tAfter : State := tLaunch.modCore 0 fun k => { k with queues := k.queues.set 5 [{ cLaunch with phase := .running }, cLaunch2] }
def cAside : Cmd := ck 5 [0x61, 1, 0, 7]
def tAside : State := (te 5 cAside).modMem fun m => { m with dedicated := 1 }
/-- Table 2 is a paged table; one query row of one head of 16 elements, one position. -/
def tPaged (c : Cmd) : State :=
  { te 2 c with tabs := [bareCode 5, ⟨8, 0, 2, BitVec.ofNat 64 (4 + 5 * 2 ^ 4 + 8 * 2 ^ 16 + 2 ^ 32), 0xE000, 128, 0, true, [], [], []⟩] }
def cAttend : Cmd := ck 2 [0x30, 0x1000, 0x2000, 2 + 2 * 2 ^ 20 + 2 * 2 ^ 24, 0, 2 ^ 32]
def cAttRun : Cmd := { cAttend with phase := .running, resolved := [(0, 5, 0, 0)], card := ⟨128, 0, false⟩ }
def cMapinv : Cmd := ck 2 [0x31, 2, 0, 0, 1]
def cDone (st : Nat) : Cmd := { ck 0 [0x13, 3] with phase := .finished st 4 }

theorem witness_EngineCommands :
    (let s := te 4 cBuild
     let c := cBuild
     s.cmdAt 0 4 1 = some c ∧ c.code = 0x50 ∧ s.mayStart 0 4 1 = true ∧
      s.current (s.cmdGrid c).ctx (c.f 1 0 20) = none ∧ c.f 1 20 44 = 0 ∧ c.f 5 32 32 = 0 ∧ c.zeroFrom 6 = true ∧
      (fld (wordAt c.w 2) 0 4 = 2 ∨ fld (wordAt c.w 2) 0 4 = 3) ∧ fld (wordAt c.w 2) 32 32 = 0 ∧
      (wordAt c.w 2).getLsbD 11 = false ∧ descBad (wordAt c.w 2) (wordAt c.w 3) (wordAt c.w 4) 0 = false ∧
      c.f 5 0 32 ≤ fld (wordAt c.w 4) 0 40 / (16 * fld (wordAt c.w 2) 16 8) ∧
      s.buildFree (c.job (s.cmdGrid c).ctx) (c.f 5 0 32) = true ∧
      (s.buildIndex (c.job (s.cmdGrid c).ctx) (c.f 5 0 32)).2 = ⟨[(0, 0), (1, 5)], [], none⟩ ∧
      s.askBack (engKey 0 4 1) (s.cmdGrid c).ctx [] = none) ∧
    (let s := tLaunch
     let c := cLaunch
     s.cmdAt 0 5 1 = some c ∧ c.code = 0x60 ∧ s.mayStart 0 5 1 = true ∧
      (∀ d ∈ s.cmdsBefore 0 5 1, ¬ (d.code = 0x60 ∧ d.f 1 0 6 = c.f 1 0 6 ∧ d.phase.isFinished = false)) ∧
      c.f 1 6 58 = 0 ∧ c.zeroFrom 6 = true ∧ (s.queue (c.f 1 0 6)).bind = some (0, 1, 0, 1) ∧ 0 = (s.cmdGrid c).ctx) ∧
    (let s := tAside
     let c := cAside
     s.cmdAt 0 5 1 = some c ∧ c.code = 0x61 ∧ s.mayStart 0 5 1 = true ∧ c.channels ≠ [] ∧
      (1 ≤ c.f 3 0 32 ∧ c.f 3 0 32 ≤ 1000000 ∧ c.f 3 32 32 = 0 ∧ c.zeroFrom 4 = true) ∧
      (∀ h ∈ c.channels, s.mem.dedicated.getLsbD h = true ∧ ∀ e ∈ s.mem.aside, e.1 = h → e.2.1 = (s.cmdGrid c).ctx) ∧
      s.askBack (engKey 0 5 1) (s.cmdGrid c).ctx ((c.channels.filter fun h =>
        (s.mem.lastCtx.find? fun p => p.1 == h).any fun p => p.2 != (s.cmdGrid c).ctx).flatMap s.hostLinesOn) = none) ∧
    (let c : Cmd := { cAside with phase := .finished 0 0 }
     let s := te 5 c
     s.cmdAt 0 5 1 = some c ∧ c.phase = .finished 0 0 ∧ c.code = 0x61 ∧ s.engPending (engKey 0 5 1) = false ∧
      s.engRefused (engKey 0 5 1) = none) ∧
    (let s := t0.modMem fun m => { m with aside := [(5, 0, 0)] }
     s.mem.aside.find? (fun p => p.1 == 5) = some (5, 0, 0) ∧ s.gtime ≥ 0 ∧ s.asideHeld 5 = false) ∧
    (let s := tPaged cMapinv
     let c := cMapinv
     s.cmdAt 0 2 1 = some c ∧ c.code = 0x31 ∧ c.phase ≠ .running ∧ s.mayStart 0 2 1 = true ∧ c.mapinvOk = true ∧
      (s.current (s.cmdGrid c).ctx (c.f 1 0 20)).map Version.kind = some 4) ∧
    (let s := tPaged { cMapinv with phase := .running }
     let c : Cmd := { cMapinv with phase := .running }
     s.cmdAt 0 2 1 = some c ∧ c.code = 0x31 ∧ c.phase = .running ∧
      (∀ e ∈ c.resolved, ∀ d, s.cmdAt e.1 2 e.2.1 = some d → d.phase ≠ .running)) ∧
    (let s := te 0 (cDone 0x85)
     let c := cDone 0x85
     s.cmdAt 0 0 1 = some c ∧ c.phase = .finished 0x85 4 ∧ 0x85 ≠ 0 ∧ (∀ d ∈ s.cmdsBefore 0 0 1, d.team ≠ c.team) ∧
      s.engPending (engKey 0 0 1) = false) ∧
    (∀ e ∈ [cDone 0xF0], (te 0 e).cmdAt 0 0 1 = some e ∧ e.phase = .finished 0xF0 4 ∧ (te 0 e).aborting e = false) ∧
    (let s := te 0 (cDone 0)
     let c := cDone 0
     s.cmdAt 0 0 1 = some c ∧ c.phase = .finished 0 4 ∧ c.code ≠ 0x40 ∧ c.code ≠ 0x61 ∧ (∀ d ∈ s.cmdsBefore 0 0 1, d.team ≠ c.team) ∧
      s.engPending (engKey 0 0 1) = false ∧ s.engRefused (engKey 0 0 1) = none) := by
  refine ⟨by decide +kernel, by decide +kernel, by decide +kernel, by decide +kernel, by decide +kernel, by decide +kernel,
    ⟨by decide +kernel, by decide +kernel, rfl, fun e he => absurd he (by simp [cMapinv, ck])⟩, by decide +kernel, by decide +kernel, by decide +kernel⟩

/-- A LAUNCH that has begun to wait; one whose queue has no room; one behind an earlier LAUNCH to its queue. -/
theorem witness_EngineCommands_launches :
    (tLaunch.queue (cLaunch.f 1 0 6)).room = true ∧
    (let s := te 5 { cLaunch with phase := .running }
     s.cmdAt 0 5 1 = some { cLaunch with phase := .running } ∧ (({ cLaunch with phase := .running } : Cmd).phase = .running)) ∧
    (tCrowd.cmdAt 0 5 1 = some cLaunch ∧ tCrowd.mayStart 0 5 1 = true ∧ (tCrowd.queue 6).bind = some (0, 1, 0, 1) ∧
      (cLaunch.f 1 6 58 = 0 ∧ cLaunch.zeroFrom 6 = true) ∧ (tCrowd.queue 6).room = false) ∧
    (tAfter.cmdAt 0 5 2 = some cLaunch2 ∧ tAfter.mayStart 0 5 2 = true ∧
      ∃ d ∈ tAfter.cmdsBefore 0 5 2, d.code = 0x60 ∧ d.f 1 0 6 = cLaunch2.f 1 0 6 ∧ d.phase.isFinished = false) := by
  refine ⟨?_, by decide +kernel, ⟨by decide +kernel, by decide +kernel, by decide +kernel, by decide +kernel, ?_⟩, by decide +kernel⟩
  · simp [Queue.room, show (tLaunch.queue (cLaunch.f 1 0 6)).pkts = [] by decide +kernel]
  · have h : (tCrowd.queue 6).pkts = List.replicate (1 + Config.launchMore) ⟨0, 0, 1, 0, [], false, none⟩ := rfl
    simp [Queue.room, h, List.filter_replicate]

/-- The inputs of a running ATTEND are there, and its result may be written. -/
def attendReady (s : State) (c : Cmd) (core : Nat) : Bool :=
  let a := s.agentOf c core
  match s.maskBits a c with
  | (s1, .data bm) =>
    (match s1.msuRange a c.aQ (sizeOf' c.qf * c.hd * c.heads * c.rowsQ) with
    | (s2, .data bq) =>
      (match s2.pagesKV a c c.card.tiles with
      | (s3, .ok ps) =>
        (match s3.msuReady a c.aO c.resultBytes with
        | (s4, .data _) =>
          let ls := (s4.stateBytes c ps).filterMap fun va => s4.rowLine (core / 64) a.ctx va
          !anyPoison bm && !anyPoison bq && (s4.askBack a.key a.ctx ls).isNone && ls.all s4.homeFree
        | _ => false)
      | _ => false)
    | _ => false)
  | _ => false

theorem attend_of {s : State} {c : Cmd} {core : Nat} (h : attendReady s c core = true) : ∃ s1 s2 s3 s4 bm bq ps b,
    s.maskBits (s.agentOf c core) c = (s1, .data bm) ∧
      s1.msuRange (s.agentOf c core) c.aQ (sizeOf' c.qf * c.hd * c.heads * c.rowsQ) = (s2, .data bq) ∧
      s2.pagesKV (s.agentOf c core) c c.card.tiles = (s3, .ok ps) ∧
      s3.msuReady (s.agentOf c core) c.aO c.resultBytes = (s4, .data b) ∧ anyPoison bm = false ∧ anyPoison bq = false ∧
      s4.askBack (s.agentOf c core).key (s.agentOf c core).ctx
        ((s4.stateBytes c ps).filterMap fun va => s4.rowLine (core / 64) (s.agentOf c core).ctx va) = none ∧
      (∀ l ∈ (s4.stateBytes c ps).filterMap fun va => s4.rowLine (core / 64) (s.agentOf c core).ctx va, s4.homeFree l = true) := by
  simp only [attendReady] at h
  split at h
  · next s1 bm h1 =>
    split at h
    · next s2 bq h2 =>
      split at h
      · next s3 ps h3 =>
        split at h
        · next s4 b h4 =>
          simp only [Bool.and_eq_true, Bool.not_eq_true', Option.isNone_iff_eq_none, List.all_eq_true] at h
          exact ⟨s1, s2, s3, s4, bm, bq, ps, b, h1, h2, h3, h4, h.1.1.1, h.1.1.2, h.1.2, h.2⟩
        · exact absurd h (by simp)
      · exact absurd h (by simp)
    · exact absurd h (by simp)
  · exact absurd h (by simp)

theorem witness_EngineCommands_attention :
    (let s := tPaged cAttend
     let c := cAttend
     s.cmdAt 0 2 1 = some c ∧ c.code = 0x30 ∧ c.phase ≠ .running ∧ s.mayStart 0 2 1 = true ∧ s.maskBits (s.agentOf c 0) c = (s, .data []) ∧
       ∃ v, s.attendBad c (s.cmdGrid c).ctx (s.agentOf c 0).key = .ok v ∧
         s.rowBusy 0 (s.cmdGrid c).ctx (s.mapRows v (c.kvHeads.flatMap fun kh =>
           (c.neededPages (rawBytes [])).map fun pg => c.kvKey kh (64 * pg))) = false ∧
         ∀ e ∈ (s.resolveAll (0 / 64) (s.cmdGrid c).ctx v c
           (c.kvHeads.flatMap fun kh => (c.neededPages (rawBytes [])).map fun pg => (kh, pg))).2, e.2.1 ≠ 7) ∧
    ((tPaged cAttRun).cmdAt 0 2 1 = some cAttRun ∧ cAttRun.code = 0x30 ∧ cAttRun.phase = .running ∧
      attendReady (tPaged cAttRun) cAttRun 0 = true) :=
  ⟨⟨by decide +kernel, by decide +kernel, by decide +kernel, by decide +kernel, by decide +kernel,
    ⟨8, 0, 2, BitVec.ofNat 64 (4 + 5 * 2 ^ 4 + 8 * 2 ^ 16 + 2 ^ 32), 0xE000, 128, 0, true, [], [], []⟩, ok_of (by decide +kernel),
    by decide +kernel, by decide +kernel⟩, by decide +kernel⟩

/-! ### Queues, and what the host asks for -/

/-- Queue 0 is bound to context 0; it holds packet 0, with words `ws`. -/
def tq (started : Bool) (ws : List DWord) : State :=
  State.modQueue { te 0 cReserve with warps := [], teams := [], grids := [], cur := none } 0 fun q =>
    { q with bind := some (0, 1, 0, 1), pkts := [⟨0, 0, 1, 0, ws, started, none⟩], nextIdx := 1 }
def qp (started : Bool) (ws : List DWord) : QPkt := ⟨0, 0, 1, 0, ws, started, none⟩
/-- KERNEL with the code table 0, 8 vector registers, a drain limit of 1 us. -/
def kws : List DWord := [BitVec.ofNat 64 (1 + 8 * 2 ^ 18 + 2 ^ 34)]
/-- A grid of one team that has not been placed. -/
def tFresh : State := { tq true kws with grids := [{ tg with next := 0 }], cores := [Core.reset, Core.reset] }
/-- The grid's team has no thread left. -/
def tSpent (al : Nat) (ws : List Warp) : State :=
  { tFresh with grids := [{ tg with retired := 1 }], teams := [{ newTeam tg 2 0 0 with alive := al }], warps := ws }
def tSpentT : Team := { newTeam tg 2 0 0 with alive := 0 }

theorem witness_LaunchPackets :
    (tq false kws).pktNext 0 = some (qp false kws) ∧
    ((tq true kws).pktDue 0 0 1 = some (qp true kws) ∧ (qp true kws).kernelBad = false ∧ (qp true kws).kernel.noFit = false ∧
      (tq true kws).current ((tq true kws).queueCtx 0) (qp true kws).kernel.code ≠ none) ∧
    ((tq true [2, 5, 0]).pktDue 0 0 2 = some (qp true [2, 5, 0]) ∧ (qp true [2, 5, 0]).waitBad = false ∧
      (tq true [2, 5, 0]).ctx ((tq true [2, 5, 0]).queueCtx 0) = some ctxAll ∧
      (wordAt (qp true [2, 5, 0]).w 2).toNat ≤ (ctxAll.counter ((qp true [2, 5, 0]).f 1 0 8)).toNat) ∧
    ((tq true [3, 0x105, 9]).pktDue 0 0 3 = some (qp true [3, 0x105, 9]) ∧ (qp true [3, 0x105, 9]).signalBad = false) ∧
    (((tFresh.queueOrder 0).findSome? fun q => (tFresh.offerOf 0 q).map fun o => (q, o)) = some (0, ⟨1, [], [0]⟩, 0, 0)) ∧
    ((tSpent 0 []).teams.find? (fun t => t.grid == 1 && t.teamId == 0) = some tSpentT ∧ tSpentT.alive = 0 ∧
      (tSpent 0 []).teamIdle tSpentT = true) ∧
    ((tSpent 0 []).grid 1 = some { tg with retired := 1 } ∧ (tSpent 0 []).gridBusy 1 = false ∧ (∀ w ∈ (tSpent 0 []).warps, w.grid ≠ 1) ∧
      ({ tg with retired := 1 } : Grid).aborted = false ∧ ({ tg with retired := 1 } : Grid).f.griddim ≤ ({ tg with retired := 1 } : Grid).retired) := by
  decide +kernel

/-- A packet of the administrative interface. -/
def ap (ws : List DWord) (img : List DWord) : Packet := ⟨8, 4, 1, ws, img⟩
def tStop (d : Bool) (ws : List Warp) : State :=
  { te 0 cReserve with warps := ws, cores := [Core.reset, Core.reset], sch := { Sched.reset with
    ctxs := [ctxAll], stops := [⟨2, 0, 1, 0, d, 0, some (8, 4)⟩] } }

theorem witness_GrantsAndStops :
    (let p := ap [0x10, 1, 0, 5] []
     Admits (te 0 cReserve) p true ∧ pktClear p 16 [4, 5, 6, 7] = true ∧ (te 0 cReserve).ctx (pktCtx p) = some ctxAll ∧
       (te 0 cReserve).grantable ctxAll (pktPairs p) = true) ∧
    (tStop false []).sch.stops.find? (fun e => e.id == 2) = some ⟨2, 0, 1, 0, false, 0, some (8, 4)⟩ ∧
    (0 ≤ (tStop false []).gtime + (tStop false []).drainTime 0 1) ∧
    ((tStop true [{ tw with run := none }]).warpAt 0 0 = some { tw with run := none } ∧
      (tStop true [{ tw with run := none }]).savable { tw with run := none } = true) ∧
    ((tStop true []).sch.stops.find? (fun e => e.id == 2) = some ⟨2, 0, 1, 0, true, 0, some (8, 4)⟩ ∧
      (tStop true []).drained ⟨2, 0, 1, 0, true, 0, some (8, 4)⟩ = true) := by decide +kernel

/-- A fault of the warp waits for the host. -/
def tHf : State := { t0 with sch := { Sched.reset with hfaults := [⟨7, 0, 3, [2], .translation⟩] } }

theorem witness_FaultReplies :
    Admits tHf (ap [0x40, 7] []) true ∧ pktClear (ap [0x40, 7] []) 18 [2, 3, 4, 5, 6, 7] = true ∧
      tHf.waiting (ap [0x40, 7] []) = some (⟨7, 0, 3, [2], .translation⟩, tw) := by decide +kernel

theorem witness_HostSetup :
    (let p := ap [0, 0, 8] [0x10000]
     Admits t0 p true ∧ pktClear p 16 [3, 4, 5, 6, 7] = true ∧ pktF p 2 4 60 = 0 ∧ pktF p 2 0 4 ≤ 8 ∧ ctxBad (imgWord p) = false) ∧
    (let p := ap [0, 9] [BitVec.ofNat 64 (2 + 2 ^ 16 + 2 ^ 32), 0x8000, 256]
     let s := te 0 cReserve
     Admits s p false ∧ pktClear p 16 [3, 4, 5, 6, 7] = true ∧ pktF p 1 20 44 = 0 ∧ s.ctx (pktCtx p) = some ctxAll ∧
       descBad (imgWord p 0) (imgWord p 1) (imgWord p 2) (imgWord p 3) = false ∧
       (s.current ctxAll.id (pktF p 1 0 20) = none → fld (imgWord p 0) 32 32 ≠ 0)) ∧
    (let p := ap [0, 0, 1] []
     let s := te 0 cReserve
     s.slowOf p = none ∧ Admits s p false ∧ pktClear p 16 [3, 4, 5, 6, 7] = true ∧ s.ctx (pktCtx p) = some ctxAll) ∧
    (let p := ap [0, 15, 0x1000, 0x2000, 1] []
     Admits t0 p true ∧ pktClear p 16 [5, 6, 7] = true ∧ pktF p 1 4 60 = 0 ∧ pktF p 4 1 63 = 0) ∧
    (let p := ap [0, 3, 0] []
     Admits t0 p true ∧ pktClear p 16 [3, 4, 5, 6, 7] = true ∧ (∀ e ∈ t0.mem.aside, (pktPairs p).getLsbD e.1 = true)) ∧
    (let p := ap [0, 4] [0x103]
     let s := te 0 cReserve
     Admits s p false ∧ pktClear p 16 [3, 4, 5, 6, 7] = true ∧ pktF p 1 8 56 = 0 ∧ groupBad p = false ∧ s.ctx (pktCtx p) = some ctxAll) ∧
    (let p := ap [0, 0x203] []
     Admits t0 p true ∧ pktClear p 16 [2, 3, 4, 5, 6, 7] = true ∧ pktF p 1 6 2 = 0 ∧ pktF p 1 16 48 = 0) := by decide +kernel

/-- Control ring 0 and launch ring 1 of interface 0 are in place. -/
def tRings : State := { te 0 cReserve with host := { t0.host with
  ifaces := t0.host.ifaces.set 0 { Iface.reset with rings := (Iface.reset.rings.set 0 (some ⟨0x1000, 4, 0, 0⟩)).set 1 (some ⟨0x2000, 4, 0, 0⟩) } } }

theorem witness_HostQueues :
    (let p := ap [0, 0] []
     let s := tq true kws
     Admits s p false ∧ pktClear p 16 [2, 3, 4, 5, 6, 7] = true ∧ pktF p 1 6 58 = 0 ∧ s.queueMine p (pktF p 1 0 6) = true) ∧
    (let p := ap [0, 5, 1] []
     Admits t0 p true ∧ pasidOk p = true) ∧
    (let p := ap [0] []
     let s := te 0 cReserve
     s.slowOf p = none ∧ Admits s p true ∧ pktClear p 16 [1, 2, 3, 4, 5, 6, 7] = true ∧ s.ctx (pktCtx p) = some ctxAll) ∧
    (let p := ap [0, 0x305, 0x0307] []
     let s := { te 0 cReserve with sch := { Sched.reset with ctxs := [{ ctxAll with owner := 7 }] } }
     Admits s p true ∧ pktClear p 16 [3, 4, 5, 6, 7] = true ∧ pktF p 1 6 2 = 0 ∧ pktF p 1 10 54 = 0 ∧ pktF p 2 4 4 = 0 ∧
       pktF p 2 11 5 = 0 ∧ pktF p 2 17 47 = 0 ∧ pktF p 2 0 4 < 8 ∧ s.ctx (pktCtx p) = some { ctxAll with owner := 7 } ∧
       ({ ctxAll with owner := 7 } : Ctx).owner = pktF p 2 0 4 ∧ (s.queue (pktF p 1 0 6)).bind = none ∧ (s.queue (pktF p 1 0 6)).pkts = [] ∧
       s.ringTaken (pktF p 2 0 4) (pktF p 2 8 3) = false) := by decide +kernel

theorem witness_HostQueues_more :
    (let p := ap [0, 6, 0x10000] []
     let s := tLaunch
     Admits s p true ∧ pktClear p 16 [3, 4, 5, 6, 7] = true ∧ pktF p 1 6 2 = 0 ∧ pktF p 1 10 54 = 0 ∧ pktF p 2 4 4 = 0 ∧
       pktF p 2 11 5 = 0 ∧ pktF p 2 17 47 = 0 ∧ (s.queue (pktF p 1 0 6)).pkts = [] ∧ (s.queue (pktF p 1 0 6)).halted = false) ∧
    (∀ p ∈ ([0x008, 0x908, 0xA08, 0x000, 0x103, 0xA07] : List DWord).map (fun r => ap [0, r, 0x4000, 4] []),
     Admits t0 p true ∧ pktClear p 16 [4, 5, 6, 7] = true ∧ pktF p 1 4 4 = 0 ∧ pktF p 1 12 52 = 0 ∧ pktF p 3 5 59 = 0 ∧
       pktF p 1 0 4 ≤ 8 ∧ pktF p 1 8 4 ≤ 10 ∧ 4 ≤ pktF p 3 0 5 ∧ pktF p 3 0 5 ≤ 16 ∧
       (pktF p 1 0 4 = 8 → pktF p 1 8 4 = 0 ∨ pktF p 1 8 4 = 9 ∨ pktF p 1 8 4 = 10) ∧
       (pktWord p 2).toNat % (ringEntry (pktF p 1 8 4) * 2 ^ pktF p 3 0 5) = 0 ∧
       t0.host.ifaces[pktF p 1 0 4]? = some Iface.reset ∧ Iface.reset.ringBusy (pktF p 1 8 4) = false) ∧
    (({ Iface.reset with rings := Iface.reset.rings.set 1 (some ⟨0x2000, 4, 0, 1⟩) } : Iface).ringBusy 1 = true ∧
      ({ Iface.reset with rings := Iface.reset.rings.set 10 (some ⟨0x2000, 4, 0, 0⟩), events := 1 } : Iface).ringBusy 10 = true) ∧
    (let p := ap [0, 255, 9] []
     Admits (te 0 cReserve) p false ∧ pktClear p 16 [3, 4, 5, 6, 7] = true ∧ pktF p 1 9 55 = 0 ∧
       (te 0 cReserve).ctx (pktCtx p) = some ctxAll) ∧
    (tRings.fetchRing 0 0 1 (some 5) [ap [0] []]).isSome = true ∧
    (tRings.fetchRing 0 1 1 (some 5) [ap [0] []]).isSome = true := by decide +kernel

def unready (s : State) : State := { s with boot := Boot.reset }
/-- PASID 5 is granted to interface 7. -/
def grantedTo7 (s : State) : State := { s with host := { s.host with pasids := [(5, 7)] } }
/-- Interface 7 owns the context. -/
def owned7 : State := { te 0 cReserve with sch := { Sched.reset with ctxs := [{ ctxAll with owner := 7 }] } }

/-- Packets that are fetched while the module is not READY, and under a PASID that their interface may not use. -/
theorem witness_HostQueues_refused :
    (State.reset.boot.st ≠ .ready ∧ (unready tRings).boot.st ≠ .ready ∧
      ((unready tRings).fetchRing 0 1 1 (some 5) [ap [0] []]).isSome = true) ∧
    (let p : Packet := ⟨1, 0, 5, [0x27], []⟩
     let s := te 0 cReserve
     s.boot.st = .ready ∧ p.iface ≠ 8 ∧ s.granted p.pasid.toNat p.iface = false ∧ s.mayAsk p (adminType (pktType p)) = false) ∧
    (let p : Packet := ⟨8, 0, 5, [0x27], []⟩
     (te 0 cReserve).mayAsk p (adminType (pktType p)) = true ∧ p.iface = 8) ∧
    (let p : Packet := ⟨7, 0, 5, [0x27], []⟩
     let s := owned7
     p.iface ≠ 8 ∧ s.granted p.pasid.toNat p.iface = false ∧ s.mayAsk p (adminType (pktType p)) = true ∧
       (grantedTo7 s).granted p.pasid.toNat p.iface = true) := by decide +kernel

/-- A request of the administrative interface that takes time has been begun. -/
def tSlow (y : Nat) (m : Nat) : State := { te 0 cReserve with grids := [], host := { t0.host with slow := [(8, 4, y, 0, m)] } }

theorem witness_SlowRequests :
    (∃ y, (tSlow y 0).slowOf (ap [BitVec.ofNat 64 y] []) = some (8, 4, y, 0, 0) ∧ (tSlow y 0).xferBusy 0 = false) ∧
    (∃ y, (tSlow y 0).slowOf (ap [BitVec.ofNat 64 y] []) = some (8, 4, y, 0, 0) ∧ ((tSlow y 0).drainBins 0).ctxQuiet 0 = true) ∧
    (∃ y, (tSlow y 15).slowOf (ap [BitVec.ofNat 64 y] []) = some (8, 4, y, 0, 15) ∧ (tSlow y 15).clockDone 15 = true) ∧
    (let p := ap [0, 15, 10] []
     t0.slowOf p = none ∧ Admits t0 p true ∧ pktClear p 16 [3, 4, 5, 6, 7] = true ∧ pktF p 1 4 60 = 0 ∧
       pktF p 2 4 60 = 0 ∧ pktF p 1 0 4 ≠ 0 ∧ pktF p 2 0 4 ≤ 10) ∧
    (let s := t0.modDie 3 fun d => { d with target := 2 }
     s.gtime % 256 = 0 ∧ (s.die 3).setting ≠ (s.die 3).target) := by
  refine ⟨⟨7, ?_⟩, ⟨7, ?_⟩, ⟨7, ?_⟩, ?_, ?_⟩ <;> decide +kernel

/-- The warp is held by the debugger, and selected. -/
def tHeld (d : Bool) : State := { tDbg with warps := [{ tw with run := none, dbg := d }] }
def tHeldW (d : Bool) : Warp := { tw with run := none, dbg := d }
/-- Counters are to be latched at this GTIME. -/
def tLatch : State := { t0 with gtime := 65536, trace := { Trace.reset with flags := 3 } }
def tTrace : State := { te 0 cReserve with
  trace := { Trace.reset with dest := 4 }
  tabs := [⟨8, 0, 4, BitVec.ofNat 64 (1 + 2 ^ 16 + 2 ^ 32), 0, 4096, 0, true, [], [], []⟩] }

/-- The debugger has asked for a stop of the warp, whose instructions `p` are pending. -/
def tAskedW (p : List Pend) : Warp := { tw with run := none, dbgReq := some (4, 0, 0), pend := p }
def tAsked (p : List Pend) : State := { tDbg with warps := [tAskedW p] }

theorem witness_ClocksTraceAndDebug :
    tLatch.latchDue = true ∧
    (State.die (t0.modDie 1 fun d => { d with clk := 65536 }) 1).synced ≠ (State.die (t0.modDie 1 fun d => { d with clk := 65536 }) 1).clk / 65536 ∧
    ((1#64).getLsbD 0 = true ∧ tTrace.destOk (fld (1#64) 24 8) = true ∧ t0.destOk (fld (1#64) 24 8) = false) ∧
    ((1#64 <<< 63).getLsbD 63 = true ∧ (tHeld true).selected = some (tHeldW true) ∧ (tHeldW true).dbg = true) ∧
    ((0xB000000000000000#64).getLsbD 63 = true ∧ fld (0xB000000000000000#64) 60 2 = 3 ∧ (tHeld false).selected = some (tHeldW false) ∧
      (tHeldW false).dbg = false ∧ (tHeld false).debugged (tHeldW false) = true) ∧
    (State.warpAt { t0 with warps := [{ tw with run := none, dbgReq := some (4, 0, 0) }] } 0 0 = some { tw with run := none, dbgReq := some (4, 0, 0) } ∧
      ({ tw with run := none, dbgReq := some (4, 0, 0) } : Warp).quiet = true ∧
      State.debugged { t0 with warps := [{ tw with run := none, dbgReq := some (4, 0, 0) }] } { tw with run := none, dbgReq := some (4, 0, 0) } = false) ∧
    (∀ p ∈ [([] : List Pend), [⟨4, .barrier, [], [], [], [], none, false, 4, false, [], 0, []⟩]], (tAsked p).warpAt 0 0 = some (tAskedW p) ∧
      (tAsked p).debugged (tAskedW p) = true ∧ (tAskedW p).quiet = true ∧
      ∀ q ∈ (tAskedW p).pend, q.wb = true ∨ q.kind = .barrier ∨ q.kind = .held) := by decide +kernel

/-- Line 3 of device memory in the cellar and in the L1 of core 0. -/
def tErr : State := (t0.modMem fun m => { m with cellar := [⟨.dev 3, .dir, List.replicate 128 0, 0, 0, none, 0, 0, none, 0⟩] }).modCore 0 fun k =>
  { k with l1 := [⟨.dev 3, .dir, .shared, List.replicate 128 0, 0, 0, 0⟩] }

theorem witness_BringupAndErrors :
    (∀ n, (State.modBoot State.reset fun b => { b with stage := n }).boot.st = .booting ∧
      (State.modBoot State.reset fun b => { b with stage := n }).boot.stage = n) ∧
    (t0.boot.st ≠ .alarm ∧ t0.boot.ago = false ∧ ({ t0.boot with ago := true } : Boot).ago = true ∧ (1#64).getLsbD 0 = true) ∧
    t0.host.ifaces[8]? = some Iface.reset ∧
    ({ Boot.reset with rollback := 5 } : Boot).rollback.toNat > (⟨0, 0, 3, 0, [], 0⟩ : Firmware).svn.toNat ∧
    (Boot.reset.signed ⟨0, 4, 3, 0, [], 0⟩ = false ∧ (Config.ed25519Verify 0 (leBytes 64 (digestOf ⟨0, 0, 3, 0, [], 0⟩).toNat) 0 = true →
      Boot.reset.signed ⟨0, 0, 3, 0, [], 0⟩ = true)) ∧
    ({ t0.boot with st := .alarm } : Boot).st = .alarm ∧
    (t0.gtime % 256 = 0 ∧ (t0.die 3).stepped ≠ t0.gtime / 256 + 1 ∧ 3 < t0.dies.length) ∧
    (t0.link.live.getLsbD 15 = true ∧ t0.link.live.getLsbD 16 = false) ∧
    ((∃ c, (tErr.cell (.dev 3)) = some c) ∧ t0.cell (.dev 3) = none ∧ (∃ c, (tErr.l1 0 (.dev 3)) = some c) ∧ t0.l1 0 (.dev 3) = none) ∧
    (t0.warpAt 0 0 = some tw ∧ tw.readers.2 ≠ [] ∧ 3 ∈ tw.readers.2 ∧ 16 ∉ tw.readers.2) := by
  refine ⟨fun _ => ⟨rfl, rfl⟩, by decide +kernel, rfl, by decide +kernel, ⟨by decide +kernel, fun h => ?_⟩, rfl, by decide +kernel, by decide +kernel,
    ⟨⟨_, rfl⟩, rfl, ⟨_, rfl⟩, rfl⟩, by decide +kernel⟩
  simp only [Boot.signed]
  rw [h]
  decide

/-! ### Words and their execution -/

theorem witness_EncodeDecode : ∃ i w, i.wellFormed = true ∧ encode i = some w ∧ w = 0x10C00C0400600800D0440A00 :=
  ⟨.ffma ⟨⟨false, 3⟩, ⟨4, false, true, false, 1, 2, 0, 0⟩⟩ ⟨.rn, false, false, .v 4, .v 1 .last, .v 2 .plain, .v 3 .keep⟩, _,
    by decide +kernel, rfl, by decide +kernel⟩

/-- A module whose only warp is about to execute the word `u` at address 0. -/
def tWord (u : InstrWord) : State := ({ t0 with warps := [], teams := [], grids := [], tempo := 0 } : State).bare (leBytes 12 u.toNat)
/-- Its warp stands beyond the end of its code table. -/
def tBeyond : State := { tWord 0 with warps := (tWord 0).warps.map fun w => { w with run := w.run.map fun r => { r with pc := 0xFFFFFF } } }

/-- Its instruction cache holds another word than memory. -/
def tStale : State := (tWord 0).modCore 0 fun k => { k with icache := [(0, 0, List.replicate 12 1)] }

/-- The only warp of `s` is in a run, and its word can be fetched. -/
def fetches (s : State) (b : List Byte) : Bool :=
  let t := s.pass (min s.tempo 255)
  s.due.isNone && s.agenda.isEmpty && decide (s.gtime % 256 + min s.tempo 255 < 256) && (match t.inRun with
    | some (w, r) => t.canIssue w && t.slotFree w.core r.islot && (t.noteReady.fetch w r.pc).toOption == some b
    | none => false)

theorem witness_StepRunsWord :
    (fetches (tWord 0) (leBytes 12 0) = true ∧ (decode (bytesWord (leBytes 12 0))).toOption =
      some (.nop ⟨⟨false, 0⟩, ⟨0, false, false, false, 0, 0, 0, 0⟩⟩)) ∧
    (∃ w r, (tBeyond.pass 0).inRun = some (w, r) ∧ (tBeyond.pass 0).canIssue w = true ∧ (tBeyond.pass 0).slotFree w.core r.islot = true ∧
      ((tBeyond.pass 0).noteReady.fetch w r.pc).toOption = none) ∧
    (∃ w r a, (tWord 0).inRun = some (w, r) ∧ (tWord 0).codeAddr ((tWord 0).gridOf w.grid) r.pc = some a ∧
      ((tWord 0).fetchBytes (w.core / 64) ((tWord 0).gridOf w.grid).ctx a).toOption = some (leBytes 12 0) ∧
      (tWord 0).cached w.core ((tWord 0).gridOf w.grid).ctx a = none ∧
      tStale.cached w.core (tStale.gridOf w.grid).ctx a = some (List.replicate 12 1) ∧ w.core < (tWord 0).cores.length) ∧
    (∃ w r a, ({ tWord 0 with sch := Sched.reset } : State).inRun = some (w, r) ∧
      ({ tWord 0 with sch := Sched.reset } : State).codeAddr (({ tWord 0 with sch := Sched.reset } : State).gridOf w.grid) r.pc = some a ∧
      (({ tWord 0 with sch := Sched.reset } : State).fetchBytes (w.core / 64) 0 a).toOption = none) ∧
    (let s := { tWord 0 with agenda := [(3, Instr.correctableError)] }
     s.due = none ∧ s.agenda = [(3, .correctableError)] ∧ s.gtime % 256 + 3 < 256 ∧ Instr.correctableError.info = none) ∧
    State.due (t0.modDie 3 fun d => { d with target := 2 }) = some (.clockChange 3) :=
  ⟨by decide +kernel, ⟨_, _, rfl, by decide +kernel⟩, ⟨_, _, 0, rfl, by decide +kernel⟩, ⟨_, _, 0, rfl, by decide +kernel⟩,
   ⟨by decide +kernel, by decide +kernel, by decide +kernel, rfl⟩, by decide +kernel⟩

/-- A word that the decoder refuses. -/
theorem witness_StepRunsWord_refused : ∃ w r b, (tWord (0x3FF <<< 86)).inRun = some (w, r) ∧ (tWord (0x3FF <<< 86)).due = none ∧
    ((tWord (0x3FF <<< 86)).pass 0).fetch w r.pc = .ok b ∧ (decode (bytesWord b)).toOption = none :=
  ⟨_, _, leBytes 12 (0x3FF * 2 ^ 86), rfl, by decide +kernel, ok_of (by decide +kernel), by decide +kernel⟩

theorem witness_ZeroWordAndIlleg : ((0x2C5 <<< 86 : InstrWord) ||| 0x1C00000000000000F46000).extractLsb' 86 10 = 0x2C5 ∧
    t0.inRun = some (tw, tr) ∧ (t0.actives tw c0.g false tr.lanes).isEmpty = false := by decide +kernel

theorem witness_MustEndRun : endsRun (.bra c0 ⟨16⟩) = true ∧ t0.inRun = some (tw, tr) ∧ (actsOf (infoBra c0) t0 tw tr).isEmpty = false ∧
    (infoBra c0).declared (t0.gridOf tw.grid).f.vregs (t0.gridOf tw.grid).f.sregs = true ∧ (infoBra c0).aligned = true ∧
    (infoBra c0).ctl.sch.fin = false := by decide +kernel

/-- The guard P0, which no lane of `t0` has. -/
def cp0 : Ctl := { c0 with g := ⟨false, 0⟩ }

theorem witness_NoActiveLane : (Instr.iadd cp0 i2).info = some (infoInt2 cp0 i2 2 1) ∧ t0.inRun = some (tw, tr) ∧
    actsOf (infoInt2 cp0 i2 2 1) t0 tw tr = [] ∧ (infoInt2 cp0 i2 2 1).ctl.sch.fin = false ∧ tr.n < 23 ∧ tr.lanes ≠ [] ∧
    Stands t0 tw := ⟨rfl, by decide +kernel⟩

theorem witness_WrappingArithmetic : (i2.ty = .i32 ∨ i2.ty = .n32) ∧ i2.sat = false ∧ i2.dst = .v 5 ∧ (5#8) ≠ 255 ∧
    (∀ l, l < tw.lanes.length → (5#8).toNat < (tw.lane l).v.length) ∧ Ready (infoInt2 c0 i2 2 1) t0 tw tr ∧
    Ready (infoInt2 c0 i2 4 1) t0 tw tr :=
  ⟨.inl rfl, rfl, rfl, by decide, by decide +kernel, ready_of rfl (by decide +kernel), ready_of rfl (by decide +kernel)⟩

theorem witness_TrapDelivery :
    ((t0.gridOf (tst fun w => { w with lanes := w.lanes.modify 3 fun l => { l with inh := true } }).uid).f.hv = false ∨
      ∃ l ∈ [3], ({ tw with lanes := tw.lanes.modify 3 fun l => { l with inh := true } }.lane l).inh = true) ∧
    ((t0.gridOf tw.grid).f.hv = true ∧ (∀ l ∈ [3, 7], (tw.lane l).inh = false ∧ l < tw.lanes.length) ∧ t0.warpU tw.uid = some tw ∧
      ((t0.deliver tw [3, 7] none).warpU tw.uid).isSome = true) := ⟨.inr (by decide +kernel), by decide +kernel⟩

theorem witness_MemoryBytes : Mem.wf ([(3, 7)] : Mem) = true ∧ Mem.wf (Mem.write [(3, 7)] 3 [0, 5]) = true := by decide +kernel

def stO : StOp := ⟨.b32, .team, .rlx, 0, 0x100, .s 4 .plain, .v 3 .plain⟩

/-- Every lane stores to bytes 0x100 to 0x103 of the scratchpad. -/
theorem witness_ScratchStores : (MemoryForm tScr ∧ Stands tScr (tScr.warps.headD tw)) ∧ Meets (infoSt c0 stO) (fun x s => MayAccess x stO.ord ∧
    ∀ l ∈ x.thr, s.laneLoc x l (x.ea l stO.addr stO.off) stO.ty.bytes true = .scratch 0x100) :=
  ⟨by decide +kernel, meets_of tScr (by decide +kernel)⟩

/-- A run of lanes 0 and 1, which point at bytes 0 and 8 of the scratchpad. -/
def tApart : State := tst fun w => { w with
  run := some { tr with lanes := [0, 1] }
  lanes := (w.lanes.modify 0 fun l => { l with v := (l.v.set 8 0).set 9 0x01FFFF00 }).modify 1 fun l =>
    { l with v := (l.v.set 8 8).set 9 0x01FFFF00 } }
def atO : AtomO := ⟨.add, .n32, .team, .rel, .v 5, .v 8 .plain, .v 3 .plain⟩
def casO : CasOp := ⟨.n64, .team, .rlx, 12, .v 8 .plain, .v 10 .plain, .v 12 .plain, 2⟩

theorem witness_ScratchStores_apart : (MemoryForm tApart ∧ Stands tApart tw ∧ tApart.trace.flags = 0) ∧
    Meets (infoSt c0 ⟨.b32, .team, .rel, 0, 0, .v 8 .plain, .v 3 .plain⟩) (fun x s => MayAccess x .rel ∧ x.w.outstanding = [] ∧
      (∀ l ∈ x.thr, s.laneLoc x l (x.ea l (.v 8 .plain) 0) 4 true = .scratch (8 * l)) ∧ (8 * 0 + 4 ≤ 8 * 1)) ∧
    Meets (infoLd c0 ⟨.i8, .team, .acq, 0, 3, .v 5, .v 8 .plain⟩) (fun x s => MayAccess x .acq ∧
      (∀ l ∈ x.thr, s.laneLoc x l (x.ea l (.v 8 .plain) 3) 1 false = .scratch (8 * l + 3)) ∧ (s.team 2).map Team.poison = some []) ∧
    Meets (infoAtom c0 atO) (fun x s => MayAccess x .rel ∧ x.w.outstanding = [] ∧
      ∀ l ∈ x.thr, s.laneLoc x l (x.ea l (.v 8 .plain) 0) 4 true = .scratch (8 * l)) ∧
    Meets (infoCas c0 casO) (fun x s => MayAccess x .rlx ∧
      ∀ l ∈ x.thr, s.laneLoc x l (x.ea l (.v 8 .plain) 0) 8 true = .scratch (8 * l)) :=
  ⟨by decide +kernel, meets_of tApart (by decide +kernel), meets_of tApart (by decide +kernel), meets_of tApart (by decide +kernel),
   meets_of tApart (by decide +kernel)⟩

theorem witness_HomeWrites : MemoryForm t0 ∧ (List.replicate 128 (1 : Byte)).length = 128 ∧ (t0.homeData (.dev 5)).1.length = 128 ∧
    (LineId.dev 5).isHost = false := by decide +kernel

theorem witness_MemoryFormKept : MemoryForm t0 ∧ ∃ t, step { t0 with agenda := [(1, .correctableError)] } = .next t :=
  ⟨by decide +kernel, _, rfl⟩

theorem witness_AdminOnly : (te 0 cReserve).boot.st = .ready ∧ State.reset.boot.st ≠ .ready ∧ (⟨1, 0, 5, [], []⟩ : Packet).iface ≠ 8 ∧ (te 0 cReserve).slowOf ⟨1, 0, 5, [], []⟩ = none ∧
    (te 0 cReserve).ctx (pktCtx ⟨1, 0, 5, [], []⟩) = some ctxAll ∧ (⟨1, 0, 5, [], []⟩ : Packet).iface ≠ ctxAll.owner := by decide +kernel

/-! ### Single steps -/

/-- The warp of a result, in core 0, slot 0. -/
def after (o : Host.Outcome State Fault Refusal) : Option Warp :=
  match o with
  | .next t => t.warpAt 0 0
  | _ => none

def tVals : State := tst fun w => { w with lanes := w.lanes.map fun l => { l with v := (l.v.set 3 0xFFFFFFFF).set 4 2 } }

/-- R114: the sum of 0xFFFFFFFF and 2 is 1. -/
theorem test_iadd_wraps : (after (exec (.iadd c0 ⟨.n32, false, .v 5, .v 3 .plain, .v 4 .plain⟩) tVals)).map
    (fun w => (w.get 9 (.v 5)).toNat) = some 1 := by decide +kernel

/-- R284: lane 4 traps at word 5: its return PC is the next word, it is marked, and it stands at the handler, word 100. -/
theorem test_trap_enters_handler : (after (exec (.trap { ce with g := ⟨false, 0⟩ } ⟨7⟩)
    (tst fun w => { w with lanes := w.lanes.modify 4 fun l => { l with p := 1 } }))).map
    (fun w => ((w.lane 4).pc.toNat, (w.lane 4).ret.toNat, (w.lane 4).inh, (w.lane 5).pc.toNat, (w.lane 5).inh)) = some (100, 6, true, 6, false) := by
  decide +kernel

/-- R136: EXIT ends its active lane, and no other. -/
theorem test_exit : (after (exec (.exit { ce with g := ⟨false, 0⟩ }) (tst fun w => { w with
    lanes := w.lanes.modify 4 fun l => { l with p := 1 } }))).map (fun w => ((w.lane 4).st, (w.lane 5).st)) = some (.exited, .ready) := by
  decide +kernel

/-- R20: the next heartbeat tick is at a multiple of 256 ns. -/
theorem test_heartbeat : (match exec .heartbeatTick { t0 with gtime := 300 } with
    | .next t => t.gtime
    | _ => 0) = 512 := by decide +kernel

end Sys2Proof.Tests
end

