-- ==== Sys2Proof/Proofs/MustEndRun.lean ====
section
/-! Words that must end their run (R34), elsewhere in one: the scheduling field fails its check (R100), and a word whose scheduling
field fails faults as a whole, before its own effect. -/

namespace Sys2Proof.Machine

/-- R34: the description of every instruction that must end its run says so. -/
theorem info_mustEnd_of_endsRun {i : Instr} (h : endsRun i = true) : ∃ n, i.info = some n ∧ n.mustEnd = true := by
  cases i <;> cases h <;> exact ⟨_, rfl, rfl⟩

/-- ILLEG, the one word that `runWordThen` does not issue, is none of R34's instructions. -/
theorem exec_eq_runWordThen_of_endsRun {i : Instr} {n : WordInfo} (h : endsRun i = true) (hi : i.info = some n) :
    ∃ body more, ∀ s, exec i s = runWordThen n body more s := by
  obtain hword | ⟨c, raw, rfl⟩ := exec_word i n hi
  · exact hword
  · cases h

theorem schedOk_eq_false_of_mustEnd {n : WordInfo} (hm : n.mustEnd = true) (hf : n.ctl.sch.fin = false) (k : Nat) :
    schedOk n k = false := by
  simp [schedOk, hm, hf]

/-- R33, R100: a word with an active lane and legal registers, but an illegal scheduling field, raises ILLEGAL_SCHED in its active
threads and does nothing else. -/
theorem runWordThen_illegalSched {n : WordInfo} {s : State} {w : Warp} {r : Run} (hrun : s.inRun = some (w, r))
    (hact : (actsOf n s w r).isEmpty = false) (hdecl : n.declared (s.gridOf w.grid).f.vregs (s.gridOf w.grid).f.sregs = true)
    (hal : n.aligned = true) (hsched : schedOk n r.n = false) (body : Wx → State → Eff) (more : Eff → Wx → State → State) :
    runWordThen n body more s =
      .next (s.wholeFault w r ((actsOf n s w r).filter fun l => (w.lane l).kind.isThread) .illegalSched 0 false) := by
  rw [actsOf] at hact
  simp [runWordThen, State.issue, actsOf, hrun, hact, hdecl, hal, hsched]

end Sys2Proof.Machine

open Sys2Proof Sys2Proof.Machine

/-- Settles O50: each of R34's instructions is a word whose description asks for END, so without END its scheduling field is
illegal. -/
theorem mustEndRun : Obligations.MustEndRun := by
  unfold Obligations.MustEndRun
  intro i s w r hends hrun
  obtain ⟨n, hinfo, hmust⟩ := info_mustEnd_of_endsRun hends
  obtain ⟨body, more, hexec⟩ := exec_eq_runWordThen_of_endsRun hends hinfo
  refine ⟨n, hinfo, fun hact hdecl hal hfin => ?_⟩
  have hsched : schedOk n r.n = false := schedOk_eq_false_of_mustEnd hmust hfin r.n
  rw [hexec, runWordThen_illegalSched hrun hact hdecl hal hsched]

end

