-- ==== Sys2Proof/Proofs/ZeroWordAndIlleg.lean ====
section
/-! The all-zero word and ILLEG (R102): the rows of opcodes 0x000 and 0x2C5 and what they read, and the fault of a word that is
rejected (R100) with an active lane. -/

namespace Sys2Proof

theorem rowOf_nop : rowOf 0x000 = some (row0 0x000 .lane .nop) := rfl

theorem rowOf_illeg : rowOf 0x2C5 = some ⟨0x2C5, .lane, fun c f => some (.illeg c (illegOf f))⟩ := rfl

theorem wellFormed_nop (c : Ctl) : (Instr.nop c).wellFormed = true := rfl

theorem wellFormed_illeg (c : Ctl) (raw : BitVec 58) : (Instr.illeg c raw).wellFormed = true := rfl

/-- R88: opcode 0x000 with every operand field zero is NOP, under whatever guard and scheduling field it carries. -/
theorem decodeFields_nop {f : Fields} (hopc : f.opc = 0x000) (hzero : allZero f = true) : decodeFields f = .ok (.nop f.ctl) := by
  have hrow : rowOf f.opc.toNat = some (row0 0x000 .lane .nop) := by rw [hopc]; exact rowOf_nop
  have hparse : (row0 0x000 .lane .nop).parse f.ctl f = some (.nop f.ctl) := by simp [row0, hzero]
  exact decodeFields_of hrow hparse (wellFormed_nop f.ctl)

/-- R294: the row of ILLEG reads every value of every other field. -/
theorem decodeFields_illeg {f : Fields} (hopc : f.opc = 0x2C5) : decodeFields f = .ok (.illeg f.ctl (illegOf f)) := by
  have hrow : rowOf f.opc.toNat = some ⟨0x2C5, .lane, fun c f => some (.illeg c (illegOf f))⟩ := by rw [hopc]; exact rowOf_illeg
  exact decodeFields_of hrow rfl (wellFormed_illeg f.ctl (illegOf f))

end Sys2Proof

namespace Sys2Proof.Machine

/-- R100: a word that is rejected, with an active lane, raises the fault it is rejected for, in its active threads. -/
theorem runReject_active {c : Ctl} {uniform : Bool} {s : State} {w : Warp} {r : Run} (hrun : s.inRun = some (w, r))
    (hact : (s.actives w c.g uniform r.lanes).isEmpty = false) (code : Code) :
    runReject c uniform code s = .next ((s.drawn w (guardKeys c.g uniform)).wholeFault w r
      ((s.actives w c.g uniform r.lanes).filter fun l => (w.lane l).kind.isThread) code 0 false) := by
  simp [runReject, hrun, hact]

/-- R294: ILLEG is a lane-guarded word that is rejected with ILLEGAL_OPCODE. -/
theorem exec_illeg (c : Ctl) (raw : BitVec 58) (s : State) : exec (.illeg c raw) s = runReject c false .illegalOpcode s := rfl

end Sys2Proof.Machine

open Sys2Proof Sys2Proof.Machine

/-- Settles O49: the zero word has opcode 0x000 and no operand bit set; the row of ILLEG reads every word of its opcode, and ILLEG is
rejected with ILLEGAL_OPCODE. -/
theorem zeroWordAndIlleg : Obligations.ZeroWordAndIlleg := by
  unfold Obligations.ZeroWordAndIlleg
  refine ⟨⟨(fieldsOf 0).ctl, decodeFields_nop (by decide) (by decide)⟩, fun u hopc => ?_⟩
  refine ⟨(fieldsOf u).ctl, illegOf (fieldsOf u), decodeFields_illeg hopc, fun s w r hrun hact => ?_⟩
  rw [exec_illeg, runReject_active hrun hact]

end

