-- ==== Sys2Proof/Proofs/Traps.lean ====
section
/-! TRAP, BKPT, ERET and ILLEG (R289, R292 to R294): what each word's own effect is, by the cases of R292 and R293, carried over the
shared course of a ready word. -/

namespace Sys2Proof.Machine

/-- A word whose meaning comes to `eff` wherever it sees `pre` completes with that effect in every state in which it is ready. -/
theorem does_of_runWord {i : Instr} {n : WordInfo} {body eff : Wx → State → Eff} {pre : Wx → State → Prop}
    (hexec : ∀ s, exec i s = runWord n body s) (hbody : ∀ x s, pre x s → body x s = eff x s) : Does i n pre eff := by
  intro s w r hready hpre
  rw [hexec, runWord_ready hready, hbody _ _ hpre]
  rfl

/-! ### TRAP and BKPT -/

/-- R289: TRAP is a lane-guarded word that traps with its own code and number. -/
theorem exec_trap (c : Ctl) (o : Imm16Op) (s : State) :
    exec (.trap c o) s = runWord (infoLane c true) (trapBody .trap o.n.toNat) s := rfl

/-- R293, R395: what BKPT does where a debugger acts on the warp: it asks for a stop after the run, and its lanes go on. -/
def bkptStop (x : Wx) (s : State) : Eff :=
  .ends (s.modWarp x.core x.slot fun w =>
    { w.modLanes x.run.lanes (fun l => { l with pc := x.next }) with
      run := w.run.map fun r => { r with stopAfter := mergeStop r.stopAfter (3, 0, 0) } }) [] none

/-- R293: BKPT's own effect: a stop under a debugger, else a trap. -/
def bkptBody (o : Imm16Op) (x : Wx) (s : State) : Eff :=
  if s.debugged x.w then bkptStop x s else trapBody .bkpt o.n.toNat x s

theorem exec_bkpt (c : Ctl) (o : Imm16Op) (s : State) :
    exec (.bkpt c o) s = runWord (infoLane c true) (bkptBody o) s := rfl

theorem bkptBody_of_not_debugged {o : Imm16Op} {x : Wx} {s : State} (h : s.debugged x.w = false) :
    bkptBody o x s = trapBody .bkpt o.n.toNat x s := by
  simp [bkptBody, h]

theorem bkptBody_of_debugged {o : Imm16Op} {x : Wx} {s : State} (h : s.debugged x.w = true) :
    bkptBody o x s = bkptStop x s := by
  simp [bkptBody, h]

/-! ### ERET -/

/-- R264, R292: what ERET does where a lane of the group is in a handler: pins go back, and every lane of the group goes on. -/
def eretReturn (x : Wx) (s : State) : Eff :=
  .ends ((x.run.lanes.foldl (fun s l => s.undoPins (x.w.lane l).toUndo) s).modWarp x.core x.slot fun w =>
    w.modLanes x.run.lanes fun l => l.eret x.next) [] none

/-- R292: ERET's own effect: the return, or ILLEGAL_OPERAND where no lane of the group is in a handler. -/
def eretBody (x : Wx) (s : State) : Eff :=
  if x.run.lanes.all fun l => !(x.w.lane l).inh then .fault .illegalOperand 0 false else eretReturn x s

theorem exec_eret (c : Ctl) (s : State) : exec (.eret c) s = runWord (infoUni c true) eretBody s := rfl

theorem eretBody_of_inHandler {x : Wx} {s : State} (h : ∃ l ∈ x.run.lanes, (x.w.lane l).inh = true) :
    eretBody x s = eretReturn x s := by
  have hnot : (x.run.lanes.all fun l => !(x.w.lane l).inh) = false := by simpa using h
  simp [eretBody, hnot]

end Sys2Proof.Machine

open Sys2Proof Sys2Proof.Machine

/-- Settles O13: TRAP, BKPT and ERET are words whose own effect is known by the cases of R292 and R293; ILLEG is a rejected word. -/
theorem traps : Obligations.Traps := by
  unfold Obligations.Traps
  refine ⟨fun c o => ?trap, fun c o => ?bkptTrap, fun c o => ?bkptStop, fun c => ?eret, fun c raw s w r hrun hact => ?illeg⟩
  case trap => exact does_of_runWord (exec_trap c o) fun _ _ _ => rfl
  case bkptTrap => exact does_of_runWord (exec_bkpt c o) fun _ _ h => bkptBody_of_not_debugged h
  case bkptStop => exact does_of_runWord (exec_bkpt c o) fun _ _ h => bkptBody_of_debugged h
  case eret => exact does_of_runWord (exec_eret c) fun _ _ h => eretBody_of_inHandler h
  case illeg => rw [exec_illeg, runReject_active hrun hact]

end

