-- ==== Sys2Proof/Proofs/EncodeDecode.lean ====
section
/-! The encoder and the decoder of the 96-bit word (R80 to R95): a field that is cut out of the fields joined around it, each operand
structure read back from the fields that it writes, and the row of each opcode (R101). -/

namespace Sys2Proof

/-! ### Fields cut out of joined fields

The parts are kept out of the index of simp: the width of a joined field is a numeral where it is used, and a sum in the lemma. -/

@[simp] theorem extractLsb'_append_high {n m k : Nat} (x : BitVec n) (y : BitVec m) (i : Nat) (h : m ≤ i) :
    (no_index (x ++ y)).extractLsb' i k = x.extractLsb' (i - m) k := extract_hi x y i h

@[simp] theorem extractLsb'_append_low {n m k : Nat} (x : BitVec n) (y : BitVec m) (i : Nat) (h : i + k ≤ m) :
    (no_index (x ++ y)).extractLsb' i k = y.extractLsb' i k := extract_lo x y i h

@[simp] theorem getLsbD_append_high {n m : Nat} (x : BitVec n) (y : BitVec m) (i : Nat) (h : m ≤ i) :
    (no_index (x ++ y)).getLsbD i = x.getLsbD (i - m) := lsb_hi x y i h

@[simp] theorem getLsbD_append_low {n m : Nat} (x : BitVec n) (y : BitVec m) (i : Nat) (h : i < m) :
    (no_index (x ++ y)).getLsbD i = y.getLsbD i := lsb_lo x y i h

@[simp] theorem getLsbD_ofBool_zero (b : Bool) : (BitVec.ofBool b).getLsbD 0 = b := by cases b <;> rfl

/-- A field that reaches over the boundary of two parts is 0 exactly where its piece of each part is. -/
@[simp] theorem extractLsb'_append_across_beq_zero {n m k : Nat} (x : BitVec n) (y : BitVec m) (i : Nat) (h : i < m)
    (h' : m < i + k) : ((no_index (x ++ y)).extractLsb' i k == 0#k) =
      (x.extractLsb' 0 (k - (m - i)) == 0 && y.extractLsb' i (m - i) == 0) := by
  rw [Bool.eq_iff_iff, Bool.and_eq_true, beq_iff_eq, beq_iff_eq, beq_iff_eq]
  simp only [BitVec.eq_of_getLsbD_eq_iff, BitVec.getLsbD_extractLsb', BitVec.getLsbD_append, BitVec.ofNat_eq_ofNat,
    BitVec.getLsbD_zero]
  constructor
  · intro hz
    refine ⟨fun j hj => ?_, fun j hj => ?_⟩
    · have hbit := hz (m - i + j) (by omega)
      rw [if_neg (by omega), show i + (m - i + j) - m = 0 + j by omega] at hbit
      simpa [show m - i + j < k by omega, hj] using hbit
    · have hbit := hz j (by omega)
      rw [if_pos (by omega)] at hbit
      simpa [show j < k by omega, hj] using hbit
  · rintro ⟨hx, hy⟩ j hj
    split
    · simpa [hj, show j < m - i by omega] using hy j (by omega)
    · simpa [hj, show i + j - m < k - (m - i) by omega] using hx (i + j - m) (by omega)

@[simp] theorem encSrc_imm (x : BitVec 16) : encSrc (.imm x) = 0 := rfl
@[simp] theorem immOf_imm (x : BitVec 16) : immOf (.imm x) = x := rfl
@[simp] theorem isImm_imm (x : BitVec 16) : (Src.imm x).isImm = true := rfl

theorem immOf_of_register {a : Src} (h : a.isImm = false) : immOf a = 0 := by
  cases a with
  | imm x => cases h
  | v | s | lit => rfl

@[simp] theorem bitOpOf_enc (t : BitOp) : bitOpOf (encBitOp t) = t := by cases t <;> rfl
@[simp] theorem cmpOf_enc (t : Cmp) : cmpOf (encCmp t) = t := by cases t <;> rfl
@[simp] theorem shflOf_enc (t : ShflMode) : shflOf (encShfl t) = t := by cases t <;> rfl
@[simp] theorem qswapOf_enc (t : QswapMode) : qswapOf (encQswap t) = some t := by cases t <;> rfl
@[simp] theorem voteOf_enc (t : VoteOp) : voteOf (encVote t) = t := by cases t <;> rfl
@[simp] theorem redOpOf_enc (t : RedOp) : redOpOf (encRedOp t) = some t := by cases t <;> rfl
@[simp] theorem casTyOf_enc (t : CasTy) : casTyOf (encCasTy t) = some t := by cases t <;> rfl
@[simp] theorem frndOf_enc (t : FrndFmt) : frndOf (encFrnd t) = some t := by cases t <;> rfl

/-- R194: the order of CAS, put together again from its two parts. -/
@[simp] theorem orderOf_enc_split (t : Order) :
    orderOf ((encOrder t).extractLsb' 1 2 ++ (encOrder t).extractLsb' 0 1) = some t := by cases t <;> rfl

/-! ### A checked source is no immediate -/

@[simp] theorem vsl_eq_not_isImm (a : Src) : a.vsl = !a.isImm := rfl

@[simp] theorem isImm_of_isV {a : Src} (h : a.isV = true) : a.isImm = false := by
  cases a <;> simp_all [Src.isV, Src.isImm]
@[simp] theorem isImm_of_isS {a : Src} (h : a.isS = true) : a.isImm = false := by
  cases a <;> simp_all [Src.isS, Src.isImm]
@[simp] theorem isImm_of_vs {a : Src} (h : a.vs = true) : a.isImm = false := by
  cases a <;> simp_all [Src.isV, Src.isS, Src.isImm, Src.vs]
@[simp] theorem isImm_of_sl {a : Src} (h : a.sl = true) : a.isImm = false := by
  cases a <;> simp_all [Src.isS, Src.isLit, Src.isImm, Src.sl]

@[simp] theorem isImm_of_idOk {a : Src} (h : idOk a = true) : a.isImm = false :=
  isImm_of_sl (Bool.and_eq_true_iff.mp h).1
@[simp] theorem isImm_of_pconst {a : Src} (h : pconst a = true) : a.isImm = false :=
  isImm_of_sl (Bool.and_eq_true_iff.mp h).1
theorem isImm_of_keyOk {kf : KeyFmt} {a : Src} (h : keyOk kf a = true) : a.isImm = false := by
  unfold keyOk at h; split at h <;> simp_all
theorem isImm_of_casSrc {t : CasTy} {a : Src} (h : casSrc t a = true) : a.isImm = false := by
  cases t <;> simp_all [casSrc]

theorem exists_imm_of_isImm {a : Src} (h : a.isImm = true) : ∃ x, a = .imm x := by
  cases a with
  | imm x => exact ⟨x, rfl⟩
  | v | s | lit => cases h

theorem secondOf_encSecond {d : Dst} (h : d.isS = true ∨ d.isDisc = true) : secondOf (encSecond d) = some d := by
  cases d with
  | s n => simp
  | disc => simp
  | v | p | c => simp [Dst.isS, Dst.isDisc] at h

/-- R124: no V register, S register or literal has the class and index of a queue register. -/
theorem encSrc_not_queue {a : Src} (h : a.isImm = false) : (encSrc a).extractLsb' 6 6 ≠ 0x20#6 := by
  have hclass : (encSrc a).extractLsb' 10 2 ≠ 2#2 := by
    cases a with
    | imm x => cases h
    | v n u | s n u | lit n => simp (disch := decide) [encSrc]
  intro hq
  apply hclass
  have hsub : (encSrc a).extractLsb' 10 2 = ((encSrc a).extractLsb' 6 6).extractLsb' 4 2 := by
    ext i hi
    simp [← Nat.add_assoc, show 4 + i < 6 by omega]
  rw [hsub, hq]
  rfl

/-- R124: no destination register has the class and index of a queue register. -/
theorem encDst_not_queue (d : Dst) : (encDst d).extractLsb' 4 6 ≠ 0x20#6 := by
  cases d with
  | disc => decide
  | v n => revert n; decide
  | s n => revert n; decide
  | p n => revert n; decide
  | c n => revert n; decide

/-! ### Operand structures -/

variable (k : Nat) (c : Ctl)

theorem int1Of_encInt1 {tys sat} (o : Int1) (h : o.legal tys sat = true) : int1Of (encInt1 (base k c) o) = some o := by
  have ha : o.a.isImm = false := by simp_all [Int1.legal]
  simp (disch := decide) [int1Of, encInt1, base, md0, srcOf_enc _ ha, -BitVec.getLsbD_eq_getElem]

theorem int3Of_encInt3 {tys sat} (o : Int3) (h : o.legal tys sat = true) : int3Of (encInt3 (base k c) o) = some o := by
  obtain ⟨ha, hb, hc⟩ : o.a.isImm = false ∧ o.b.isImm = false ∧ o.c.isImm = false := by simp_all [Int3.legal]
  simp (disch := decide) [int3Of, encInt3, base, md0, srcOf_enc _ ha, srcOf_enc _ hb, srcScOf_enc _ hc,
    -BitVec.getLsbD_eq_getElem]

theorem leaOf_encLea (o : LeaOp) (h : o.legal = true) : leaOf (encLea (base k c) o) = some o := by
  obtain ⟨ha, hb⟩ : o.a.isImm = false ∧ o.b.isImm = false := by simp_all [LeaOp.legal]
  simp (disch := decide) [leaOf, encLea, base, md0, srcOf_enc _ ha, srcOf_enc _ hb, -BitVec.getLsbD_eq_getElem]

theorem moviOf_encMovi (o : MoviOp) : moviOf (encMovi (base k c) o) = some o := by
  simp (disch := decide) [moviOf, encMovi, base, md0, Fields.imm28, imm28_cat, -BitVec.getLsbD_eq_getElem]

theorem f2Of_encF2 {rs} (o : F2) (h : o.legal rs = true) : f2Of (encF2 (base k c) o) = some o := by
  obtain ⟨ha, hb⟩ : o.a.isImm = false ∧ o.b.isImm = false := by simp_all [F2.legal]
  simp (disch := decide) [f2Of, encF2, base, md1, srcOf_enc _ ha, srcOf_enc _ hb, -BitVec.getLsbD_eq_getElem]

theorem f3Of_encF3 {rs} (o : F3) (h : o.legal rs = true) : f3Of (encF3 (base k c) o) = some o := by
  obtain ⟨ha, hb, hc⟩ : o.a.isImm = false ∧ o.b.isImm = false ∧ o.c.isImm = false := by simp_all [F3.legal]
  simp (disch := decide) [f3Of, encF3, base, md1, srcOf_enc _ ha, srcOf_enc _ hb, srcScOf_enc _ hc,
    -BitVec.getLsbD_eq_getElem]

theorem h2Of_encH2 {rs} (o : H2) (h : o.legal rs = true) : h2Of (encH2 (base k c) o) = some o := by
  obtain ⟨ha, hb⟩ : o.a.isImm = false ∧ o.b.isImm = false := by simp_all [H2.legal]
  simp (disch := decide) [h2Of, encH2, base, md1, srcOf_enc _ ha, srcOf_enc _ hb, -BitVec.getLsbD_eq_getElem]

theorem h3Of_encH3 (o : H3) (h : o.legal = true) : h3Of (encH3 (base k c) o) = some o := by
  obtain ⟨ha, hb, hc⟩ : o.a.isImm = false ∧ o.b.isImm = false ∧ o.c.isImm = false := by simp_all [H3.legal]
  simp (disch := decide) [h3Of, encH3, base, md1, srcOf_enc _ ha, srcOf_enc _ hb, srcScOf_enc _ hc,
    -BitVec.getLsbD_eq_getElem]

theorem cvtOf_encCvt (o : CvtOp) (h : o.legal = true) : cvtOf (encCvt (base k c) o) = some o := by
  have ha : o.a.isImm = false := by simp_all [CvtOp.legal]
  simp (disch := decide) [cvtOf, encCvt, base, srcOf_enc _ ha, -BitVec.getLsbD_eq_getElem]

theorem frndOpOf_encFrndOp (o : FrndOp) (h : o.legal = true) : frndOpOf (encFrndOp (base k c) o) = some o := by
  have ha : o.a.isImm = false := by simp_all [FrndOp.legal]
  simp (disch := decide) [frndOpOf, encFrndOp, base, srcOf_enc _ ha, -BitVec.getLsbD_eq_getElem]

theorem sfuOf_encSfu (o : SfuOp) (h : o.legal = true) : sfuOf (encSfu (base k c) o) = some o := by
  have ha : o.a.isImm = false := by simp_all [SfuOp.legal]
  simp (disch := decide) [sfuOf, encSfu, base, srcOf_enc _ ha, -BitVec.getLsbD_eq_getElem]

theorem randOf_encRand (o : RandOp) (h : o.legal = true) : randOf (encRand (base k c) o) = some o := by
  obtain ⟨ha, hb⟩ : o.a.isImm = false ∧ o.b.isImm = false := by simp_all [RandOp.legal]
  simp (disch := decide) [randOf, encRand, base, srcOf_enc _ ha, srcOf_enc _ hb, -BitVec.getLsbD_eq_getElem]

theorem csampOf_encCsamp (o : CsampOp) (h : o.legal = true) : csampOf (encCsamp (base k c) o) = some o := by
  obtain ⟨ha, hb⟩ : o.a.isImm = false ∧ o.b.isImm = false := by simp_all [CsampOp.legal]
  simp (disch := decide) [csampOf, encCsamp, base, srcOf_enc _ ha, srcOf_enc _ hb, -BitVec.getLsbD_eq_getElem]

theorem shflOpOf_encShflOp (o : ShflOp) (h : o.legal = true) : shflOpOf (encShflOp (base k c) o) = some o := by
  obtain ⟨ha, hb⟩ : o.a.isImm = false ∧ o.b.isImm = false := by simp_all [ShflOp.legal]
  simp (disch := decide) [shflOpOf, encShflOp, base, srcOf_enc _ ha, srcOf_enc _ hb, -BitVec.getLsbD_eq_getElem]

theorem pswapOf_encPswap (o : PswapOp) (h : o.legal = true) : pswapOf (encPswap (base k c) o) = some o := by
  have ha : o.a.isImm = false := by simp_all [PswapOp.legal]
  simp (disch := decide) [pswapOf, encPswap, base, srcOf_enc _ ha, -BitVec.getLsbD_eq_getElem]

theorem qswapOpOf_encQswapOp (o : QswapOp) (h : o.legal = true) : qswapOpOf (encQswapOp (base k c) o) = some o := by
  have ha : o.a.isImm = false := by simp_all [QswapOp.legal]
  simp (disch := decide) [qswapOpOf, encQswapOp, base, srcOf_enc _ ha, -BitVec.getLsbD_eq_getElem]

theorem qbcastOf_encQbcast (o : QbcastOp) (h : o.legal = true) : qbcastOf (encQbcast (base k c) o) = some o := by
  obtain ⟨ha, hn⟩ : o.a.isImm = false ∧ o.n.isImm = false := by simp_all [QbcastOp.legal]
  simp (disch := decide) [qbcastOf, encQbcast, base, srcOf_enc _ ha, srcOf_enc _ hn, -BitVec.getLsbD_eq_getElem]

theorem voteOpOf_encVoteOp (o : VoteO) : voteOpOf (encVoteOp (base k c) o) = some o := by
  simp (disch := decide) [voteOpOf, encVoteOp, base, -BitVec.getLsbD_eq_getElem]

theorem matchOf_encMatch (o : MatchOp) (h : o.legal = true) : matchOf (encMatch (base k c) o) = some o := by
  have ha : o.a.isImm = false := by simp_all [MatchOp.legal]
  simp (disch := decide) [matchOf, encMatch, base, srcOf_enc _ ha, -BitVec.getLsbD_eq_getElem]

theorem rdxOf_encRdx (o : RdxOp) (h : o.legal = true) : rdxOf (encRdx (base k c) o) = some o := by
  have ha : o.a.isImm = false := by simp_all [RdxOp.legal]
  simp (disch := decide) [rdxOf, encRdx, base, srcOf_enc _ ha, -BitVec.getLsbD_eq_getElem]

theorem pcombOf_encPcomb (o : CombOp) : pcombOf (encPcomb (base k c) o) = some o := by
  simp (disch := decide) [pcombOf, encPcomb, base, -BitVec.getLsbD_eq_getElem]

theorem ccombOf_encCcomb (o : CombOp) : ccombOf (encCcomb (base k c) o) = some o := by
  simp (disch := decide) [ccombOf, encCcomb, base, -BitVec.getLsbD_eq_getElem]

theorem csetOf_encCset (o : BitSrcOp) (h : o.legal = true) : csetOf (encCset (base k c) o) = some o := by
  have ha : o.a.isImm = false := by simp_all [BitSrcOp.legal]
  simp (disch := decide) [csetOf, encCset, base, srcOf_enc _ ha, -BitVec.getLsbD_eq_getElem]

theorem s2pOf_encS2p (o : BitSrcOp) (h : o.legal = true) : s2pOf (encS2p (base k c) o) = some o := by
  have ha : o.a.isImm = false := by simp_all [BitSrcOp.legal]
  simp (disch := decide) [s2pOf, encS2p, base, srcOf_enc _ ha, -BitVec.getLsbD_eq_getElem]

theorem p2sOf_encP2s (o : P2sOp) : p2sOf (encP2s (base k c) o) = some o := by
  simp (disch := decide) [p2sOf, encP2s, base, -BitVec.getLsbD_eq_getElem]

theorem targetOf_encTarget (o : TargetOp) (h : o.legal = true) : targetOf (encTarget (base k c) o) = some o := by
  have ht : o.t.isImm = false := by simp_all [TargetOp.legal]
  simp (disch := decide) [targetOf, encTarget, base, srcOf_enc _ ht, -BitVec.getLsbD_eq_getElem]

theorem callOf_encCall (o : CallOp) : callOf (encCall (base k c) o) = some o := by
  simp (disch := decide) [callOf, encCall, base, encImm28, Fields.imm28, imm28_cat, -BitVec.getLsbD_eq_getElem]

theorem callxOf_encCallx (o : CallxOp) (h : o.legal = true) : callxOf (encCallx (base k c) o) = some o := by
  have ht : o.t.isImm = false := by simp_all [CallxOp.legal]
  simp (disch := decide) [callxOf, encCallx, base, srcOf_enc _ ht, -BitVec.getLsbD_eq_getElem]

theorem ldOf_encLd (o : LdOp) (h : o.legal = true) : ldOf (encLd (base k c) o) = some o := by
  have haddr : o.addr.isImm = false := by simp_all [LdOp.legal]
  simp (disch := decide) [ldOf, encLd, base, md6, srcOf_enc _ haddr, -BitVec.getLsbD_eq_getElem]

theorem prfOf_encPrf (o : PrfOp) (h : o.legal = true) : prfOf (encPrf (base k c) o) = some o := by
  have haddr : o.addr.isImm = false := by simp_all [PrfOp.legal]
  simp (disch := decide) [prfOf, encPrf, base, md6, srcOf_enc _ haddr, -BitVec.getLsbD_eq_getElem]

theorem maintOf_encMaint (o : MaintOp) (h : o.legal = true) : maintOf (encMaint (base k c) o) = some o := by
  obtain ⟨haddr, hlen⟩ : o.addr.isImm = false ∧ o.len.isImm = false := by simp_all [MaintOp.legal]
  simp (disch := decide) [maintOf, encMaint, base, srcOf_enc _ haddr, srcOf_enc _ hlen, -BitVec.getLsbD_eq_getElem]

theorem atomOf_encAtom (o : AtomO) (h : o.legal = true) : atomOf (encAtom (base k c) o) = some o := by
  obtain ⟨haddr, hb⟩ : o.addr.isImm = false ∧ o.b.isImm = false := by simp_all [AtomO.legal]
  simp (disch := decide) [atomOf, encAtom, base, md6, srcOf_enc _ haddr, srcOf_enc _ hb, -BitVec.getLsbD_eq_getElem]

theorem redOf_encRed (o : RedO) (h : o.legal = true) : redOf (encRed (base k c) o) = some o := by
  obtain ⟨haddr, hb⟩ : o.addr.isImm = false ∧ o.b.isImm = false := by simp_all [RedO.legal]
  simp (disch := decide) [redOf, encRed, base, md6, srcOf_enc _ haddr, srcOf_enc _ hb, -BitVec.getLsbD_eq_getElem]

theorem casOf_encCas (o : CasOp) (h : o.legal = true) : casOf (encCas (base k c) o) = some o := by
  obtain ⟨haddr, hcv, hnv⟩ : o.addr.isImm = false ∧ o.cv.isImm = false ∧ o.nv.isImm = false := by
    grind [CasOp.legal, isImm_of_casSrc, isImm_of_vs]
  simp (disch := decide) [casOf, encCas, base, srcOf_enc _ haddr, srcOf_enc _ hcv, srcOf_enc _ hnv,
    -BitVec.getLsbD_eq_getElem]

theorem fenceOf_encFence (o : FenceOp) : fenceOf (encFence (base k c) o) = some o := by
  simp (disch := decide) [fenceOf, encFence, base, -BitVec.getLsbD_eq_getElem]

theorem tkeyOf_encTKey (o : TKeyOp) (h : o.legal = true) : tkeyOf (encTKey (base k c) o) = some o := by
  obtain ⟨hkey, hid⟩ : o.key.isImm = false ∧ o.id.isImm = false := by grind [TKeyOp.legal, isImm_of_keyOk, isImm_of_idOk]
  simp (disch := decide) [tkeyOf, encTKey, base, md7, srcOf_enc _ hkey, srcOf_enc _ hid, -BitVec.getLsbD_eq_getElem]

theorem tseekOf_encTSeek (o : TSeekOp) (h : o.legal = true) : tseekOf (encTSeek (base k c) o) = some o := by
  obtain ⟨hkey, hid⟩ : o.key.isImm = false ∧ o.id.isImm = false := by grind [TSeekOp.legal, isImm_of_keyOk, isImm_of_idOk]
  simp (disch := decide) [tseekOf, encTSeek, base, md7, srcOf_enc _ hkey, srcOf_enc _ hid, -BitVec.getLsbD_eq_getElem]

theorem tstepOf_encTStep (o : TStepOp) : tstepOf (encTStep (base k c) o) = some o := by
  simp (disch := decide) [tstepOf, encTStep, base, -BitVec.getLsbD_eq_getElem]

theorem tcloseOf_encTClose (o : TCloseOp) : tcloseOf (encTClose (base k c) o) = some o := by
  simp (disch := decide) [tcloseOf, encTClose, base, -BitVec.getLsbD_eq_getElem]

theorem trekeyOf_encTRekey (o : TRekeyOp) (h : o.legal = true) : trekeyOf (encTRekey (base k c) o) = some o := by
  obtain ⟨hkey, hid, hnew⟩ : o.key.isImm = false ∧ o.id.isImm = false ∧ o.new.isImm = false := by
    grind [TRekeyOp.legal, isImm_of_keyOk, isImm_of_idOk]
  simp (disch := decide) [trekeyOf, encTRekey, base, md7, srcOf_enc _ hkey, srcOf_enc _ hid, srcScOf_enc _ hnew,
    -BitVec.getLsbD_eq_getElem]

theorem taddOf_encTAdd (o : TAddOp) (h : o.legal = true) : taddOf (encTAdd (base k c) o) = some o := by
  obtain ⟨haddr, hval⟩ : o.addr.isImm = false ∧ o.val.isImm = false := by simp_all [TAddOp.legal]
  simp (disch := decide) [taddOf, encTAdd, base, srcOf_enc _ haddr, srcOf_enc _ hval, -BitVec.getLsbD_eq_getElem]

theorem tidOf_encTId (o : TIdOp) (h : o.legal = true) : tidOf (encTId (base k c) o) = some o := by
  have hid : o.id.isImm = false := by simp_all [TIdOp.legal]
  simp (disch := decide) [tidOf, encTId, base, srcOf_enc _ hid, -BitVec.getLsbD_eq_getElem]

theorem tunpinOf_encTUnpin (o : TUnpinOp) (h : o.legal = true) : tunpinOf (encTUnpin (base k c) o) = some o := by
  obtain ⟨hver, hid⟩ : o.ver.isImm = false ∧ o.id.isImm = false := by simp_all [TUnpinOp.legal]
  simp (disch := decide) [tunpinOf, encTUnpin, base, srcOf_enc _ hver, srcOf_enc _ hid, -BitVec.getLsbD_eq_getElem]

theorem tswapOf_encTSwap (o : TSwapOp) (h : o.legal = true) : tswapOf (encTSwap (base k c) o) = some o := by
  obtain ⟨he, hid, hst⟩ : o.e.isImm = false ∧ o.id.isImm = false ∧ o.st.isImm = false := by simp_all [TSwapOp.legal]
  simp (disch := decide) [tswapOf, encTSwap, base, srcOf_enc _ he, srcOf_enc _ hid, srcScOf_enc _ hst,
    -BitVec.getLsbD_eq_getElem]

theorem trowOf_encTRow (o : TRowOp) (h : o.legal = true) : trowOf (encTRow (base k c) o) = some o := by
  obtain ⟨hn, hid⟩ : o.n.isImm = false ∧ o.id.isImm = false := by simp_all [TRowOp.legal]
  simp (disch := decide) [trowOf, encTRow, base, md7, srcOf_enc _ hn, srcOf_enc _ hid, -BitVec.getLsbD_eq_getElem]

theorem pushOf_encPush (o : PushOp) : pushOf (encPush (base k c) o) = some o := by
  simp (disch := decide) [pushOf, encPush, base, -BitVec.getLsbD_eq_getElem]

theorem maskOf_encMask (o : MaskOp) (h : o.m.isImm = false) : maskOf (encMask (base k c) o) = some o := by
  simp (disch := decide) [maskOf, encMask, base, srcOf_enc _ h, -BitVec.getLsbD_eq_getElem]

theorem ffrOf_encFfr (o : FfrOp) (h : o.legal = true) : ffrOf (encFfr (base k c) o) = some o := by
  have hm : o.m.isImm = false := by simp_all [FfrOp.legal]
  simp (disch := decide) [ffrOf, encFfr, base, srcOf_enc _ hm, -BitVec.getLsbD_eq_getElem]

theorem barxOf_encBarx (o : BarxOp) (h : o.legal = true) : barxOf (encBarx (base k c) o) = some o := by
  obtain ⟨ha, hn⟩ : o.a.isImm = false ∧ o.n.isImm = false := by simp_all [BarxOp.legal]
  simp (disch := decide) [barxOf, encBarx, base, srcOf_enc _ ha, srcOf_enc _ hn, -BitVec.getLsbD_eq_getElem]

theorem cbarmOf_encCbarm (o : CbarmOp) (h : o.legal = true) : cbarmOf (encCbarm (base k c) o) = some o := by
  have ht : o.t.isImm = false := by simp_all [CbarmOp.legal]
  simp (disch := decide) [cbarmOf, encCbarm, base, srcOf_enc _ ht, -BitVec.getLsbD_eq_getElem]

theorem cbwaitOf_encCbwait (o : CbwaitOp) (h : o.legal = true) : cbwaitOf (encCbwait (base k c) o) = some o := by
  have hn : o.n.isImm = false := by simp_all [CbwaitOp.legal]
  simp (disch := decide) [cbwaitOf, encCbwait, base, srcOf_enc _ hn, -BitVec.getLsbD_eq_getElem]

theorem regrpOf_encRegrp (o : RegrpOp) : regrpOf (encRegrp (base k c) o) = some o := by
  simp (disch := decide) [regrpOf, encRegrp, base, -BitVec.getLsbD_eq_getElem]

theorem regrpbOf_encRegrpb (o : RegrpbOp) : regrpbOf (encRegrpb (base k c) o) = some o := by
  simp (disch := decide) [regrpbOf, encRegrpb, base, -BitVec.getLsbD_eq_getElem]

theorem pxferOf_encPxfer (o : PxferOp) : pxferOf (encPxfer (base k c) o) = some o := by
  simp (disch := decide) [pxferOf, encPxfer, base, -BitVec.getLsbD_eq_getElem]

theorem press2Of_encPress2 {sg} (o : Press2) (h : o.legal sg = true) : press2Of (encPress2 (base k c) o) = some o := by
  have hb : o.b.isImm = false := by grind [Press2.legal, isImm_of_sl, isImm_of_isS]
  simp (disch := decide) [press2Of, encPress2, base, mdA, srcOf_enc _ hb, -BitVec.getLsbD_eq_getElem]

theorem press1Of_encPress1 (o : Press1) : press1Of (encPress1 (base k c) o) = some o := by
  simp (disch := decide) [press1Of, encPress1, base, -BitVec.getLsbD_eq_getElem]

theorem pcmpOf_encPcmp (o : PcmpOp) (h : o.legal = true) : pcmpOf (encPcmp (base k c) o) = some o := by
  have hb : o.b.isImm = false := by grind [PcmpOp.legal, isImm_of_sl, isImm_of_isS]
  simp (disch := decide) [pcmpOf, encPcmp, base, mdA, srcOf_enc _ hb, -BitVec.getLsbD_eq_getElem]

theorem pselOf_encPsel (o : PselOp) : pselOf (encPsel (base k c) o) = some o := by
  simp (disch := decide) [pselOf, encPsel, base, -BitVec.getLsbD_eq_getElem]

theorem psatOf_encPsat (o : PsatOp) (h : o.legal = true) : psatOf (encPsat (base k c) o) = some o := by
  obtain ⟨hlo, hhi⟩ : o.lo.isImm = false ∧ o.hi.isImm = false := by simp_all [PsatOp.legal]
  simp (disch := decide) [psatOf, encPsat, base, mdA, srcOf_enc _ hlo, srcScOf_enc _ hhi, -BitVec.getLsbD_eq_getElem]

theorem pshiftOf_encPshift {sg} (o : PshiftOp) (h : o.legal sg = true) : pshiftOf (encPshift (base k c) o) = some o := by
  have hn : o.n.isImm = false := by simp_all [PshiftOp.legal]
  simp (disch := decide) [pshiftOf, encPshift, base, mdA, srcOf_enc _ hn, -BitVec.getLsbD_eq_getElem]

theorem imm16Of_encImm16 (o : Imm16Op) : imm16Of (encImm16 (base k c) o) = some o := by
  simp (disch := decide) [imm16Of, encImm16, base, -BitVec.getLsbD_eq_getElem]

theorem movsOf_encMovs (o : MovsOp) : movsOf (encMovs (base k c) o) = some o := by
  simp (disch := decide) [movsOf, encMovs, base, -BitVec.getLsbD_eq_getElem]

theorem movwOf_encMovw (o : MovwOp) (h : o.legal = true) : movwOf (encMovw (base k c) o) = some o := by
  have ha : o.a.isImm = false := by simp_all [MovwOp.legal]
  simp (disch := decide) [movwOf, encMovw, base, srcOf_enc _ ha, -BitVec.getLsbD_eq_getElem]

theorem stopchkOf_encStopchk (o : StopchkOp) : stopchkOf (encStopchk (base k c) o) = some o := by
  simp (disch := decide) [stopchkOf, encStopchk, base, -BitVec.getLsbD_eq_getElem]

theorem markOf_encMark (o : MarkOp) (h : o.legal = true) : markOf (encMark (base k c) o) = some o := by
  have ha : o.a.isImm = false := by simp_all [MarkOp.legal]
  simp (disch := decide) [markOf, encMark, base, srcOf_enc _ ha, -BitVec.getLsbD_eq_getElem]

theorem int2Of_encInt2 {tys sat imm} (o : Int2) (h : o.legal tys sat imm = true) : int2Of (encInt2 (base k c) o) = some o := by
  have ha : o.a.isImm = false := by simp_all [Int2.legal]
  obtain ⟨ty, st, dst, a, b⟩ := o
  cases hb : b.isImm with
  | false =>
    simp (disch := decide) [int2Of, encInt2, base, md0, srcOf_enc _ ha, srcOf_enc _ hb, hb, immOf_of_register hb,
      -BitVec.getLsbD_eq_getElem]
  | true =>
    obtain ⟨x, rfl⟩ := exists_imm_of_isImm hb
    simp (disch := decide) [int2Of, encInt2, base, md0, srcOf_enc _ ha, -BitVec.getLsbD_eq_getElem]

theorem itestOf_encItest (o : ItestOp) (ha : o.a.isImm = false) : itestOf (encItest (base k c) o) = some o := by
  obtain ⟨ty, cmp, dst, a, b⟩ := o
  cases hb : b.isImm with
  | false =>
    simp (disch := decide) [itestOf, encItest, base, srcOf_enc _ ha, srcOf_enc _ hb, hb, immOf_of_register hb,
      -BitVec.getLsbD_eq_getElem]
  | true =>
    obtain ⟨x, rfl⟩ := exists_imm_of_isImm hb
    simp (disch := decide) [itestOf, encItest, base, srcOf_enc _ ha, -BitVec.getLsbD_eq_getElem]

theorem ftestOf_encFtest (o : FtestOp) (h : o.legal = true) : ftestOf (encFtest (base k c) o) = some o := by
  have ha : o.a.isImm = false := by simp_all [FtestOp.legal]
  simp [ftestOf, encFtest, itestOf_encItest k c ⟨.f32, o.cmp, o.dst, o.a, o.b⟩ ha]

/-- R82: the second predicate or condition of a word, read in the form that its destination names. -/
theorem bitOf_enc (d : Dst) (i : BitVec 3) :
    (if d.scalar then cOf (if d.scalar then encC i else encP i) else pOf (if d.scalar then encC i else encP i)) = some i := by
  cases d.scalar <;> simp

theorem selOf_encSel (o : SelOp) (h : o.legal = true) : selOf (encSel (base k c) o) = some o := by
  obtain ⟨ha, hb⟩ : o.a.isImm = false ∧ o.b.isImm = false := by simp_all [SelOp.legal]
  simp (disch := decide) [selOf, encSel, base, md0, srcOf_enc _ ha, srcOf_enc _ hb, bitOf_enc, -BitVec.getLsbD_eq_getElem]

theorem htest2Of_encHtest2 (o : Htest2Op) (h : o.legal = true) : htest2Of (encHtest2 (base k c) o) = some o := by
  obtain ⟨ha, hb⟩ : o.a.isImm = false ∧ o.b.isImm = false := by simp_all [Htest2Op.legal]
  obtain ⟨bf, cmp, dst, e, a, b⟩ := o
  cases bf <;>
    simp (disch := decide) [htest2Of, encHtest2, base, encTy, srcOf_enc _ ha, srcOf_enc _ hb, bitOf_enc,
      -BitVec.getLsbD_eq_getElem]

theorem scnOf_encScn (o : ScnOp) (h : o.legal = true) : scnOf (encScn (base k c) o) = some o := by
  have ha : o.a.isImm = false := by simp_all [ScnOp.legal]
  have hst : o.st.isS = true := by simp_all [ScnOp.legal]
  simp (disch := decide) [scnOf, encScn, base, srcOf_enc _ ha, secondOf_encSecond (Or.inl hst), -BitVec.getLsbD_eq_getElem]

theorem electOf_encElect (o : ElectOp) (h : o.legal = true) : electOf (encElect (base k c) o) = some o := by
  have hd : o.sd.isS = true ∨ o.sd.isDisc = true := by simp_all [ElectOp.legal]
  simp (disch := decide) [electOf, encElect, base, secondOf_encSecond hd]

theorem braOf_encImm28 (x : BitVec 28) : braOf (encImm28 (base k c) x) = some ⟨x⟩ := by
  simp [braOf, encImm28, base, Fields.imm28, imm28_cat]

theorem illegOf_encIlleg (x : BitVec 58) : illegOf (encIlleg (base k c) x) = x := by
  apply BitVec.eq_of_getLsbD_eq
  intro i hi
  simp only [illegOf, encIlleg, BitVec.getLsbD_append, BitVec.getLsbD_extractLsb']
  grind

theorem movOf_encMov (o : MovOp) (h : o.legal = true) : movOf c (encMov (base k c) o) = some (.mov c o) := by
  have ha : o.a.isImm = false := by simp_all [MovOp.legal]
  have hsa : (encSrc o.a).extractLsb' 6 6 ≠ 0x20#6 := encSrc_not_queue ha
  have hdst : (encDst o.dst).extractLsb' 4 6 ≠ 0x20#6 := encDst_not_queue o.dst 
  simp (disch := decide) [movOf, encMov, base, md0, srcOf_enc _ ha, hsa, hdst, -BitVec.getLsbD_eq_getElem]
theorem movOf_encQPop (o : QPopOp) : movOf c (encQPop (base k c) o) = some (.movQueuePop c o) := by
  simp (disch := decide) [movOf, encQPop, base, md0, -BitVec.getLsbD_eq_getElem]
theorem movOf_encQPush (o : QPushOp) (h : o.legal = true) : movOf c (encQPush (base k c) o) = some (.movQueuePush c o) := by
  have ha : o.a.isImm = false := by simp_all [QPushOp.legal]
  have hsa : (encSrc o.a).extractLsb' 6 6 ≠ 0x20#6 := encSrc_not_queue ha
  simp (disch := decide) [movOf, encQPush, base, md0, srcOf_enc _ ha, hsa, -BitVec.getLsbD_eq_getElem]

theorem bruOf_encBruLabel (o : BruLabelOp) : bruOf c (encBruLabel (base k c) o) = some (.bruLabel c o) := by
  simp [bruOf, encBruLabel, encImm28, base, Fields.imm28, imm28_cat]
theorem bruOf_encBruReg (o : BruRegOp) (h : o.legal = true) : bruOf c (encBruReg (base k c) o) = some (.bruRegister c o) := by
  have ht : o.t.isImm = false := by simp_all [BruRegOp.legal]
  simp [bruOf, encBruReg, base, srcOf_enc _ ht]

theorem napOf_encImm16 (o : Imm16Op) : napOf c (encImm16 (base k c) o) = some (.napImmediate c o) := by
  simp [napOf, encImm16, base]
theorem napOf_encMask (o : MaskOp) (h : o.m.isImm = false) :
    napOf c { encMask (base k c) o with md := 1 } = some (.napRegister c o) := by
  simp [napOf, encMask, base, srcOf_enc _ h]

theorem stOf_encSt (o : StOp) (h : o.legal = true) : stOf c (encSt (base k c) o) = some (.st c o) := by
  obtain ⟨haddr, hdata⟩ : o.addr.isImm = false ∧ o.data.isImm = false := by simp_all [StOp.legal]
  simp (disch := decide) [stOf, encSt, base, md6, srcOf_enc _ haddr, srcOf_enc _ hdata, -BitVec.getLsbD_eq_getElem]
theorem stOf_encStCb (o : StCbOp) (h : o.legal = true) : stOf c (encStCb (base k c) o) = some (.stCb c o) := by
  obtain ⟨haddr, hdata, hcb⟩ : o.addr.isImm = false ∧ o.data.isImm = false ∧ o.cb.isImm = false := by
    simp_all [StCbOp.legal]
  simp (disch := decide) [stOf, encStCb, base, md6, srcOf_enc _ haddr, srcOf_enc _ hdata, srcScOf_enc _ hcb,
    -BitVec.getLsbD_eq_getElem]

theorem leaseOf_encMask (o : MaskOp) (h : o.m.isImm = false) :
    leaseOf c (encMask (base k c) o) = some (.leaseRegister c o) := by
  simp [leaseOf, encMask, base, srcOf_enc _ h]
theorem leaseOf_encImm16 (o : Imm16Op) : leaseOf c { encImm16 (base k c) o with md := 1 } = some (.leaseImmediate c o) := by
  simp [leaseOf, encImm16, base]

theorem pmodeOf_encPmode (o : PmodeOp) (press : Bool) (h : o.legal = true) :
    pmodeOf c (encPmode (base k c) o press) = some (if press then .pmodePress c o else .pmodeCache c o) := by
  have hm : o.m.isImm = false := by simp_all [PmodeOp.legal]
  simp (disch := decide) [pmodeOf, encPmode, base, srcOf_enc _ hm, -BitVec.getLsbD_eq_getElem]

/-! ### Rows -/

theorem MaskOp.isImm_of_legalS {o : MaskOp} (h : o.legalS = true) : o.m.isImm = false := isImm_of_isS h
theorem MaskOp.isImm_of_legalSL {o : MaskOp} (h : o.legalSL = true) : o.m.isImm = false := by simp_all [MaskOp.legalSL]
theorem MaskOp.isImm_of_legalBar {o : MaskOp} (h : o.legalBar = true) : o.m.isImm = false := by simp_all [MaskOp.legalBar]
theorem MaskOp.isImm_of_legalSyncm {o : MaskOp} (h : o.legalSyncm = true) : o.m.isImm = false := by
  simp_all [MaskOp.legalSyncm]
theorem MaskOp.isImm_of_legalLease {o : MaskOp} (h : o.legalLease = true) : o.m.isImm = false := by
  simp_all [MaskOp.legalLease]
theorem MaskOp.isImm_of_legalAny {o : MaskOp} (h : o.legalAny = true) : o.m.isImm = false := by simp_all [MaskOp.legalAny]
theorem ItestOp.isImm_of_legal {o : ItestOp} (h : o.legal = true) : o.a.isImm = false := by simp_all [ItestOp.legal]

theorem allZero_base : allZero (base k c) = true := rfl

variable {k c}

/-- Fields whose opcode has a row that reads by `p` decode to the well-formed instruction that `p` reads. -/
theorem decodeFields_parse {f : Fields} {p : Ctl → Fields → Option Instr} {i : Instr} (hopc : f.opc = (base k c).opc)
    (hctl : f.ctl = (base k c).ctl) (hparse : p c f = some i) (hrow : (rowOf (BitVec.ofNat 10 k).toNat).map Row.parse = some p)
    (hwf : i.wellFormed = true) : decodeFields f = .ok i := by
  obtain ⟨r, hr, rfl⟩ := Option.map_eq_some_iff.mp hrow
  exact decodeFields_of (by rw [hopc]; exact hr) (by rw [hctl, ctl_base]; exact hparse) hwf

/-- Fields whose row reads the operand structure by `g`. -/
theorem decodeFields_row {α : Type} {f : Fields} {g : Fields → Option α} {mk : Ctl → α → Instr} {o : α}
    (hopc : f.opc = (base k c).opc) (hctl : f.ctl = (base k c).ctl) (hread : g f = some o)
    (hrow : (rowOf (BitVec.ofNat 10 k).toNat).map Row.parse = some fun c f => (g f).map (mk c))
    (hwf : (mk c o).wellFormed = true) : decodeFields f = .ok (mk c o) :=
  decodeFields_parse (p := fun c f => (g f).map (mk c)) hopc hctl (by simp [hread]) hrow hwf

/-- Fields whose row has no operands. -/
theorem decodeFields_row0 {f : Fields} {mk : Ctl → Instr} (hopc : f.opc = (base k c).opc) (hctl : f.ctl = (base k c).ctl)
    (hzero : allZero f = true)
    (hrow : (rowOf (BitVec.ofNat 10 k).toNat).map Row.parse = some fun c f => need (allZero f) (some (mk c)))
    (hwf : (mk c).wellFormed = true) : decodeFields f = .ok (mk c) :=
  decodeFields_parse (p := fun c f => need (allZero f) (some (mk c))) hopc hctl (by simp [hzero]) hrow hwf

/-- R101: the fields of every well-formed word are read by the row of its opcode, which gives the word back. -/
theorem decodeFields_encodeFields (i : Instr) (hwf : i.wellFormed = true) :
    (encodeFields i).elim True fun f => decodeFields f = .ok i := by
  have hok : i.operandsOk = true := (Bool.and_eq_true_iff.mp hwf).1
  cases i with
  | nop c | exit c | opfence c | unlease c | eret c =>
    exact decodeFields_row0 rfl rfl (allZero_base _ c) (by rfl) hwf
  | mov c o =>
    exact decodeFields_parse rfl rfl (movOf_encMov _ c o hok) (by rfl) hwf
  | movQueuePop c o =>
    exact decodeFields_parse rfl rfl (movOf_encQPop _ c o) (by rfl) hwf
  | movQueuePush c o =>
    exact decodeFields_parse rfl rfl (movOf_encQPush _ c o hok) (by rfl) hwf
  | movi c o =>
    exact decodeFields_row rfl rfl (moviOf_encMovi _ c o) (by rfl) hwf
  | iadd c o | isub c o | imul c o | imulh c o | imin c o | imax c o | iand c o | ior c o | ixor c o | shl c o
  | shr c o | sar c o | rol c o | bfe c o =>
    exact decodeFields_row rfl rfl (int2Of_encInt2 _ c o hok) (by rfl) hwf
  | imad c o | bfi c o =>
    exact decodeFields_row rfl rfl (int3Of_encInt3 _ c o hok) (by rfl) hwf
  | imadw c o =>
    exact decodeFields_row rfl rfl (int3Of_encInt3 (tys := fun t => t == .i32 || t == .n32) _ c o hok) (by rfl) hwf
  | bpick c o =>
    exact decodeFields_row rfl rfl (int3Of_encInt3 (tys := fun t => t == .b32) _ c o hok) (by rfl) hwf
  | inot c o | popc c o | clz c o | brev c o =>
    exact decodeFields_row rfl rfl (int1Of_encInt1 _ c o hok) (by rfl) hwf
  | iabs c o =>
    exact decodeFields_row rfl rfl (int1Of_encInt1 (tys := fun t => t == .i32 || t == .i64) _ c o hok) (by rfl) hwf
  | sel c o =>
    exact decodeFields_row rfl rfl (selOf_encSel _ c o hok) (by rfl) hwf
  | lea c o =>
    exact decodeFields_row rfl rfl (leaOf_encLea _ c o hok) (by rfl) hwf
  | fadd c o | fsub c o | fmul c o | fmin c o | fmax c o | fscale c o =>
    exact decodeFields_row rfl rfl (f2Of_encF2 _ c o hok) (by rfl) hwf
  | ffma c o | fclamp c o =>
    exact decodeFields_row rfl rfl (f3Of_encF3 _ c o hok) (by rfl) hwf
  | hadd2 c o | hsub2 c o | hmul2 c o | hmin2 c o | hmax2 c o =>
    exact decodeFields_row rfl rfl (h2Of_encH2 _ c o hok) (by rfl) hwf
  | hfma2 c o | hdot2 c o =>
    exact decodeFields_row rfl rfl (h3Of_encH3 _ c o hok) (by rfl) hwf
  | cvt c o =>
    exact decodeFields_row rfl rfl (cvtOf_encCvt _ c o hok) (by rfl) hwf
  | frnd c o =>
    exact decodeFields_row rfl rfl (frndOpOf_encFrndOp _ c o hok) (by rfl) hwf
  | rcp c o | rsq c o | sqrt c o | ex2 c o | lg2 c o | sin c o | cos c o | sincos c o | tanh c o | sigm c o =>
    exact decodeFields_row rfl rfl (sfuOf_encSfu _ c o hok) (by rfl) hwf
  | rand c o =>
    exact decodeFields_row rfl rfl (randOf_encRand _ c o hok) (by rfl) hwf
  | csamp c o =>
    exact decodeFields_row rfl rfl (csampOf_encCsamp _ c o hok) (by rfl) hwf
  | shfl c o =>
    exact decodeFields_row rfl rfl (shflOpOf_encShflOp _ c o hok) (by rfl) hwf
  | pswap c o =>
    exact decodeFields_row rfl rfl (pswapOf_encPswap _ c o hok) (by rfl) hwf
  | qswap c o =>
    exact decodeFields_row rfl rfl (qswapOpOf_encQswapOp _ c o hok) (by rfl) hwf
  | qbcast c o =>
    exact decodeFields_row rfl rfl (qbcastOf_encQbcast _ c o hok) (by rfl) hwf
  | vote c o =>
    exact decodeFields_row rfl rfl (voteOpOf_encVoteOp _ c o) (by rfl) hwf
  | matchLanes c o =>
    exact decodeFields_row rfl rfl (matchOf_encMatch _ c o hok) (by rfl) hwf
  | rdx c o =>
    exact decodeFields_row rfl rfl (rdxOf_encRdx _ c o hok) (by rfl) hwf
  | scn c o =>
    exact decodeFields_row rfl rfl (scnOf_encScn _ c o hok) (by rfl) hwf
  | elect c o =>
    exact decodeFields_row rfl rfl (electOf_encElect _ c o hok) (by rfl) hwf
  | itest c o =>
    exact decodeFields_row rfl rfl (itestOf_encItest _ c o (ItestOp.isImm_of_legal hok)) (by rfl) hwf
  | ftest c o =>
    exact decodeFields_row rfl rfl (ftestOf_encFtest _ c o hok) (by rfl) hwf
  | htest2 c o =>
    exact decodeFields_row rfl rfl (htest2Of_encHtest2 _ c o hok) (by rfl) hwf
  | pcomb c o =>
    exact decodeFields_row rfl rfl (pcombOf_encPcomb _ c o) (by rfl) hwf
  | cset c o =>
    exact decodeFields_row rfl rfl (csetOf_encCset _ c o hok) (by rfl) hwf
  | ccomb c o =>
    exact decodeFields_row rfl rfl (ccombOf_encCcomb _ c o) (by rfl) hwf
  | p2s c o =>
    exact decodeFields_row rfl rfl (p2sOf_encP2s _ c o) (by rfl) hwf
  | s2p c o =>
    exact decodeFields_row rfl rfl (s2pOf_encS2p _ c o hok) (by rfl) hwf
  | bra c o =>
    exact decodeFields_row rfl rfl (braOf_encImm28 _ c o.imm) (by rfl) hwf
  | bruLabel c o =>
    exact decodeFields_parse rfl rfl (bruOf_encBruLabel _ c o) (by rfl) hwf
  | bruRegister c o =>
    exact decodeFields_parse rfl rfl (bruOf_encBruReg _ c o hok) (by rfl) hwf
  | brx c o | ret c o =>
    exact decodeFields_row rfl rfl (targetOf_encTarget _ c o hok) (by rfl) hwf
  | call c o =>
    exact decodeFields_row rfl rfl (callOf_encCall _ c o) (by rfl) hwf
  | callx c o =>
    exact decodeFields_row rfl rfl (callxOf_encCallx _ c o hok) (by rfl) hwf
  | napImmediate c o =>
    exact decodeFields_parse rfl rfl (napOf_encImm16 _ c o) (by rfl) hwf
  | napRegister c o =>
    exact decodeFields_parse rfl rfl (napOf_encMask _ c o (MaskOp.isImm_of_legalS hok)) (by rfl) hwf
  | ld c o =>
    exact decodeFields_row rfl rfl (ldOf_encLd _ c o hok) (by rfl) hwf
  | st c o =>
    exact decodeFields_parse rfl rfl (stOf_encSt _ c o hok) (by rfl) hwf
  | stCb c o =>
    exact decodeFields_parse rfl rfl (stOf_encStCb _ c o hok) (by rfl) hwf
  | prf c o =>
    exact decodeFields_row rfl rfl (prfOf_encPrf _ c o hok) (by rfl) hwf
  | clean c o | inval c o | clinv c o | drop c o =>
    exact decodeFields_row rfl rfl (maintOf_encMaint _ c o hok) (by rfl) hwf
  | atom c o =>
    exact decodeFields_row rfl rfl (atomOf_encAtom _ c o hok) (by rfl) hwf
  | red c o =>
    exact decodeFields_row rfl rfl (redOf_encRed _ c o hok) (by rfl) hwf
  | cas c o =>
    exact decodeFields_row rfl rfl (casOf_encCas _ c o hok) (by rfl) hwf
  | fence c o =>
    exact decodeFields_row rfl rfl (fenceOf_encFence _ c o) (by rfl) hwf
  | tlook c o | tins c o | tdel c o =>
    exact decodeFields_row rfl rfl (tkeyOf_encTKey _ c o hok) (by rfl) hwf
  | tseek c o =>
    exact decodeFields_row rfl rfl (tseekOf_encTSeek _ c o hok) (by rfl) hwf
  | tnext c o | tprev c o =>
    exact decodeFields_row rfl rfl (tstepOf_encTStep _ c o) (by rfl) hwf
  | tclose c o =>
    exact decodeFields_row rfl rfl (tcloseOf_encTClose _ c o) (by rfl) hwf
  | trekey c o =>
    exact decodeFields_row rfl rfl (trekeyOf_encTRekey _ c o hok) (by rfl) hwf
  | tadd c o =>
    exact decodeFields_row rfl rfl (taddOf_encTAdd _ c o hok) (by rfl) hwf
  | tpin c o | tstat c o | tcount c o =>
    exact decodeFields_row rfl rfl (tidOf_encTId _ c o hok) (by rfl) hwf
  | tunpin c o =>
    exact decodeFields_row rfl rfl (tunpinOf_encTUnpin _ c o hok) (by rfl) hwf
  | tswap c o =>
    exact decodeFields_row rfl rfl (tswapOf_encTSwap _ c o hok) (by rfl) hwf
  | trow c o =>
    exact decodeFields_row rfl rfl (trowOf_encTRow _ c o hok) (by rfl) hwf
  | push c o =>
    exact decodeFields_row rfl rfl (pushOf_encPush _ c o) (by rfl) hwf
  | waitany c o =>
    exact decodeFields_row rfl rfl (maskOf_encMask _ c o (MaskOp.isImm_of_legalAny hok)) (by rfl) hwf
  | waitall c o | tagclr c o | tagset c o | psync c o =>
    exact decodeFields_row rfl rfl (maskOf_encMask _ c o (MaskOp.isImm_of_legalSL hok)) (by rfl) hwf
  | bar c o =>
    exact decodeFields_row rfl rfl (maskOf_encMask _ c o (MaskOp.isImm_of_legalBar hok)) (by rfl) hwf
  | syncm c o =>
    exact decodeFields_row rfl rfl (maskOf_encMask _ c o (MaskOp.isImm_of_legalSyncm hok)) (by rfl) hwf
  | ffr c o =>
    exact decodeFields_row rfl rfl (ffrOf_encFfr _ c o hok) (by rfl) hwf
  | leaseRegister c o =>
    exact decodeFields_parse rfl rfl (leaseOf_encMask _ c o (MaskOp.isImm_of_legalLease hok)) (by rfl) hwf
  | leaseImmediate c o =>
    exact decodeFields_parse rfl rfl (leaseOf_encImm16 _ c o) (by rfl) hwf
  | barx c o =>
    exact decodeFields_row rfl rfl (barxOf_encBarx _ c o hok) (by rfl) hwf
  | cbarm c o =>
    exact decodeFields_row rfl rfl (cbarmOf_encCbarm _ c o hok) (by rfl) hwf
  | cbwait c o =>
    exact decodeFields_row rfl rfl (cbwaitOf_encCbwait _ c o hok) (by rfl) hwf
  | regrp c o =>
    exact decodeFields_row rfl rfl (regrpOf_encRegrp _ c o) (by rfl) hwf
  | regrpb c o =>
    exact decodeFields_row rfl rfl (regrpbOf_encRegrpb _ c o) (by rfl) hwf
  | pmodePress c o =>
    exact decodeFields_parse rfl rfl (pmodeOf_encPmode _ c o true hok) (by rfl) hwf
  | pmodeCache c o =>
    exact decodeFields_parse rfl rfl (pmodeOf_encPmode _ c o false hok) (by rfl) hwf
  | pxin c o | pxout c o =>
    exact decodeFields_row rfl rfl (pxferOf_encPxfer _ c o) (by rfl) hwf
  | padd c o | psub c o | pmul c o | pand c o | por c o | pxor c o =>
    exact decodeFields_row rfl rfl (press2Of_encPress2 _ c o hok) (by rfl) hwf
  | pnot c o | pcnt c o =>
    exact decodeFields_row rfl rfl (press1Of_encPress1 _ c o) (by rfl) hwf
  | pcmp c o =>
    exact decodeFields_row rfl rfl (pcmpOf_encPcmp _ c o hok) (by rfl) hwf
  | psel c o =>
    exact decodeFields_row rfl rfl (pselOf_encPsel _ c o) (by rfl) hwf
  | psat c o =>
    exact decodeFields_row rfl rfl (psatOf_encPsat _ c o hok) (by rfl) hwf
  | pshl c o | pshr c o =>
    exact decodeFields_row rfl rfl (pshiftOf_encPshift _ c o hok) (by rfl) hwf
  | trap c o | bkpt c o =>
    exact decodeFields_row rfl rfl (imm16Of_encImm16 _ c o) (by rfl) hwf
  | movs c o =>
    exact decodeFields_row rfl rfl (movsOf_encMovs _ c o) (by rfl) hwf
  | movw c o =>
    exact decodeFields_row rfl rfl (movwOf_encMovw _ c o hok) (by rfl) hwf
  | illeg c x =>
    exact decodeFields_parse (p := fun c f => some (.illeg c (illegOf f))) rfl rfl (by rw [illegOf_encIlleg]) (by rfl) hwf
  | stopchk c o =>
    exact decodeFields_row rfl rfl (stopchkOf_encStopchk _ c o) (by rfl) hwf
  | mark c o =>
    exact decodeFields_row rfl rfl (markOf_encMark _ c o hok) (by rfl) hwf
  | _ => trivial

end Sys2Proof

open Sys2Proof Sys2Proof.Machine

/-- Settles O46: each operand structure is read back from the fields that it writes, each word's opcode has the row that reads its
structure, and a word keeps its fields. -/
theorem encodeDecode : Obligations.EncodeDecode := by
  unfold Obligations.EncodeDecode
  intro i w hwf hw
  have hfields := decodeFields_encodeFields i hwf
  cases hf : encodeFields i with
  | none => simp [encode, hf] at hw
  | some f =>
    rw [hf] at hfields
    exact decode_of hf hw hfields

end

