-- ==== Sys2Proof/Proofs/RegisterWords.lean ====
section
/-! PROVED FACTS. Words that only write registers (O1 to O8): each is `aluWord` of its description and of the results that its statement
names, and `aluWord_ready` says what such a word does. -/

namespace Sys2Proof.Machine

/-- An instruction that is `aluWord` of `n` and `f` computes `f`. -/
theorem computes_of_aluWord {i : Instr} {n : WordInfo} {f : Wx → List RegWrite} (hexec : ∀ s, exec i s = aluWord n f s) :
    Computes i n f := by
  intro s w r hready
  rw [hexec]
  exact aluWord_ready hready f

end Sys2Proof.Machine

open Sys2Proof Sys2Proof.Machine

/-- Settles O1: each word is `aluWord` of the wrapped or clamped exact result. -/
theorem integerArithmetic : Obligations.IntegerArithmetic := by
  refine ⟨fun c o => ?iadd, fun c o => ?isub, fun c o => ?imul, fun c o => ?imulh, fun c o => ?imad, fun c o => ?imadw,
    fun c o => ?imin, fun c o => ?imax, fun c o => ?iabs⟩
  all_goals exact computes_of_aluWord fun _ => rfl

/-- Settles O2: each word is `aluWord` of the bits that its named function computes. -/
theorem integerBits : Obligations.IntegerBits := by
  refine ⟨fun c o => ?iand, fun c o => ?ior, fun c o => ?ixor, fun c o => ?inot, fun c o => ?shl, fun c o => ?shr,
    fun c o => ?sar, fun c o => ?rol, fun c o => ?bfe, fun c o => ?bfi, fun c o => ?popc, fun c o => ?clz, fun c o => ?brev,
    fun c o => ?bpick⟩
  all_goals exact computes_of_aluWord fun _ => rfl

/-- Settles O3: each word is `aluWord` of what it copies or chooses; NOP's list of writes is empty. -/
theorem movesAndSelects : Obligations.MovesAndSelects := by
  refine ⟨fun c => ?nop, fun c o => ?mov, fun c o => ?movi, fun c o => ?sel, fun c o => ?lea⟩
  all_goals exact computes_of_aluWord fun _ => rfl

/-- Settles O4: each word is `aluWord` of the exact result rounded once, or of the bits it selects. -/
theorem floatArithmetic : Obligations.FloatArithmetic := by
  refine ⟨fun c o => ?fadd, fun c o => ?fsub, fun c o => ?fmul, fun c o => ?ffma, fun c o => ?fmin, fun c o => ?fmax,
    fun c o => ?fclamp, fun c o => ?fscale⟩
  all_goals exact computes_of_aluWord fun _ => rfl

/-- Settles O5: each word is `aluWord` of its two elements, or of HDOT2's one sum. -/
theorem packedArithmetic : Obligations.PackedArithmetic := by
  refine ⟨fun c o => ?hadd2, fun c o => ?hsub2, fun c o => ?hmul2, fun c o => ?hfma2, fun c o => ?hmin2, fun c o => ?hmax2,
    fun c o => ?hdot2⟩
  all_goals exact computes_of_aluWord fun _ => rfl

/-- Settles O6: each word is `aluWord` of its conversion, its function's bits or its random number. -/
theorem conversionsAndFunctions : Obligations.ConversionsAndFunctions := by
  refine ⟨fun c o => ?cvt, fun c o => ?frnd, fun c o => ?rcp, fun c o => ?rsq, fun c o => ?sqrt, fun c o => ?ex2,
    fun c o => ?lg2, fun c o => ?sin, fun c o => ?cos, fun c o => ?tanh, fun c o => ?sigm, fun c o => ?sincos,
    fun c o => ?rand⟩
  all_goals exact computes_of_aluWord fun _ => rfl

/-- Settles O7: each word is `aluWord` of what its source lanes give, or of the vote, match or election. -/
theorem crossLaneExchange : Obligations.CrossLaneExchange := by
  refine ⟨fun c o => ?shfl, fun c o => ?pswap, fun c o => ?qswap, fun c o => ?qbcast, fun c o => ?vote,
    fun c o => ?matchLanes, fun c o => ?elect⟩
  all_goals exact computes_of_aluWord fun _ => rfl

/-- Settles O8: each word is `aluWord` of the truth values it writes. -/
theorem comparesAndPredicates : Obligations.ComparesAndPredicates := by
  refine ⟨fun c o => ?itest, fun c o => ?ftest, fun c o => ?htest2, fun c o => ?pcomb, fun c o => ?ccomb, fun c o => ?cset,
    fun c o => ?p2s, fun c o => ?s2p⟩
  all_goals exact computes_of_aluWord fun _ => rfl

end

