-- ==== Sys2Proof/Proofs/WarpWords.lean ====
section
/-! PROVED FACTS. Words whose effect goes little beyond their warp (O9, O10, O12, O14, O18, O22 to O24): what each word's own effect comes to
in the cases that its statement names, carried over the shared course of a ready word by `Does.of`. -/

namespace Sys2Proof.Machine

/-! ### Reductions -/

theorem perForm_resultOf_lane (x : Wx) (d : Dst) (t : Ty) (r : DWord) :
    (perForm x d fun l => resultOf d t (if d.scalar then 0 else l) r) =
      if d.scalar then resultOf d t 0 r else x.act.flatMap fun l => resultOf d t l r := by
  unfold perForm
  cases d.scalar <;> rfl

/-! ### BRU -/

/-- R132: BRU where every lane of the group agrees with its lowest one, or no checker looks. -/
theorem bruTo_of_agree {c : Ctl} {px : BitVec 3} {target : Nat → Word} {x : Wx} {s : State}
    (h : x.g.f.checker = true → ∀ l ∈ x.run.lanes,
      (x.w.lane l).getP px.toNat = (x.w.lane (x.run.lanes.headD 0)).getP px.toNat ∧
        ((x.w.lane (x.run.lanes.headD 0)).getP px.toNat = true → target l = target (x.run.lanes.headD 0))) :
    bruTo c px target x s = .ends (s.transfer x c.sch.yld fun _ =>
      if (x.w.lane (x.run.lanes.headD 0)).getP px.toNat = true then some (target (x.run.lanes.headD 0)) else none) [] none := by
  unfold bruTo
  refine if_neg ?_
  simp only [Bool.and_eq_true, Bool.or_eq_true, List.any_eq_true, bne_iff_ne]
  rintro ⟨hchk, ⟨l, hl, hp⟩ | ⟨htake, l, hl, ht⟩⟩
  · exact hp (h hchk l hl).1
  · exact ht ((h hchk l hl).2 htake)

/-- R132: under the checker, BRU where a lane differs from the lowest in the predicate, or in a target that is taken. -/
theorem bruTo_of_differ {c : Ctl} {px : BitVec 3} {target : Nat → Word} {x : Wx} {s : State} (hchk : x.g.f.checker = true)
    (h : (∃ l ∈ x.run.lanes, (x.w.lane l).getP px.toNat ≠ (x.w.lane (x.run.lanes.headD 0)).getP px.toNat) ∨
      ((x.w.lane (x.run.lanes.headD 0)).getP px.toNat = true ∧
        ∃ l ∈ x.run.lanes, target l ≠ target (x.run.lanes.headD 0))) :
    bruTo c px target x s = .fault .uniform 0 false := by
  unfold bruTo
  refine if_pos ?_
  simpa only [Bool.and_eq_true, Bool.or_eq_true, List.any_eq_true, bne_iff_ne, hchk, true_and] using h

/-! ### Queue registers -/

/-- R91, R92: a record that is there is popped. -/
theorem popRecord_cons {s : State} {w : Warp} {n : Nat} {r : DWord} {rest : List DWord} (h : w.e.getD n [] = r :: rest) :
    s.popRecord w n = .ok (some (r, (s.modWarpU w.uid fun v => { v with e := v.e.set n rest }).deliverHeld w.uid n)) := by
  simp only [State.popRecord, h]

/-- R92: an empty E7 reads 0. -/
theorem popRecord_e7_nil {s : State} {w : Warp} (h : w.e.getD 7 [] = []) : s.popRecord w 7 = .ok (some (0, s)) := by
  simp only [State.popRecord, h, if_true]

theorem popBody_of_record {i : Instr} {o : QPopOp} {x : Wx} {s t : State} {r : DWord} (hn : o.e.toNat < 8)
    (h : s.popRecord x.w o.e.toNat = .ok (some (r, t))) :
    popBody i o x s = .done t (resultOf o.dst .b64 0 r) (some (pendOf .queue [] none)) [] := by
  simp only [popBody, hn, h, if_true]

theorem movsQueueBody_of_record {i : Instr} {o : MovsOp} {x : Wx} {s t : State} {r : DWord}
    (h : s.popRecord x.w o.r.toNat = .ok (some (r, t))) :
    movsQueueBody i o x s = .done (x.thr.foldl (fun s l => s.rval x.w l x.run.pc r.toNat 0) t)
      (resultOf o.dst .b64 0 r) (some (pendOf .queue [] none)) [] := by
  simp only [movsQueueBody, h]

/-! ### FENCE -/

/-- R206: a fence whose wait is over acquires and completes. -/
theorem fenceBody_of_over {i : Instr} {o : FenceOp} {x : Wx} {s : State}
    (h : x.run.fenced = true ∨ (o.ord ≠ .sc ∧ x.w.fenceDone o.sc o.ord = true)) :
    fenceBody i o x s = .done (s.fenceAcquire x.core o.sc o.ord) [] (some (pendOver .maint)) [] := by
  unfold fenceBody
  refine if_pos ?_
  simpa only [Bool.or_eq_true, Bool.and_eq_true, bne_iff_ne] using h

/-- R206: a fence whose wait is not over holds its run. -/
theorem fenceBody_of_waits {i : Instr} {o : FenceOp} {x : Wx} {s : State}
    (h : x.run.fenced = false ∧ (o.ord = .sc ∨ x.w.fenceDone o.sc o.ord = false)) :
    fenceBody i o x s = .hold (s.holdHere x i 0) := by
  obtain ⟨hfenced, hwait⟩ := h
  unfold fenceBody
  refine if_neg ?_
  rw [hfenced, Bool.false_or, Bool.and_eq_true, bne_iff_ne]
  rintro ⟨hord, hdone⟩
  cases hwait with
  | inl hsc => exact hord hsc
  | inr hopen => rw [hopen] at hdone; cases hdone

theorem fenceAcquire_eq (s : State) (core : Nat) (sc : Scope) (o : Order) :
    s.fenceAcquire core sc o = if o = .rel then s else s.acquireNow core sc := by
  simp only [State.fenceAcquire, beq_iff_eq]

/-! ### REGRP -/

/-- R299: no `.TEAM` regroup of a mixed warp. -/
theorem not_mixedTeam {core mixed : Bool} (h : core = true ∨ mixed = false) : (!core && mixed) = false := by
  obtain rfl | rfl := h
  · rfl
  · exact Bool.and_false _

end Sys2Proof.Machine

open Sys2Proof Sys2Proof.Machine


/-- Settles O9: RDX and CSAMP split by whether a lane contributes, SCN has one course. -/
theorem reductions : Obligations.Reductions := by
  unfold Obligations.Reductions
  refine ⟨fun c o r => ?rdx, fun c o => ?rdxEmpty, fun c o => ?scn, fun c o n => ?csamp, fun c o => ?csampEmpty⟩
  case rdx => exact .of (fun _ => rfl) fun x s h => by simp only [h, perForm_resultOf_lane]
  case rdxEmpty => exact .of (fun _ => rfl) fun x s h => by simp only [h]
  case scn => exact .of (fun _ => rfl) fun _ _ _ => rfl
  case csamp => exact .of (fun _ => rfl) fun x s h => by simp only [h]; rfl
  case csampEmpty => exact .of (fun _ => rfl) fun x s h => by simp only [h]; rfl

/-- Settles O10: every transfer but BRU has one course; BRU follows its lowest lane where the checker finds no difference. -/
theorem controlTransfers : Obligations.ControlTransfers := by
  unfold Obligations.ControlTransfers
  refine ⟨fun c o => ?bra, fun c o => ?brx, fun c o => ?bruLabel, fun c o => ?bruRegister, fun c o => ?call, fun c o => ?callx,
    fun c o => ?ret⟩
  case bruLabel => exact .of (fun _ => rfl) fun x s h => bruTo_of_agree fun hchk l hl => ⟨h hchk l hl, fun _ => rfl⟩
  case bruRegister => exact .of (fun _ => rfl) fun x s h => bruTo_of_agree h
  all_goals exact .of (fun _ => rfl) fun _ _ _ => rfl

/-- Settles O12: each of the three words has one course. -/
theorem exitAndNap : Obligations.ExitAndNap := by
  unfold Obligations.ExitAndNap
  refine ⟨fun c => ?exit, fun c o => ?napImmediate, fun c o => ?napRegister⟩
  all_goals exact .of (fun _ => rfl) fun _ _ _ => rfl

/-- Settles O14: MOVS splits by whether its register is a queue; the other words have one course. -/
theorem systemWords : Obligations.SystemWords := by
  unfold Obligations.SystemWords
  refine ⟨fun c o => ?movs, fun c o v rest => ?movsQueue, fun c o => ?movw, fun c o => ?stopchk, fun c o => ?mark⟩
  case movs => exact .of (fun _ => rfl) fun x s h => by rw [if_neg (by omega)]; rfl
  case movsQueue =>
    exact .of (fun _ => rfl) fun x s ⟨hn, hq⟩ => by rw [if_pos hn, movsQueueBody_of_record (popRecord_cons hq)]
  all_goals exact .of (fun _ => rfl) fun _ _ _ => rfl

/-- Settles O22: a record is popped by `popRecord`, an entry or a push needs the room that its hypothesis gives. -/
theorem queueRegisters : Obligations.QueueRegisters := by
  unfold Obligations.QueueRegisters
  refine ⟨fun c o v rest => ?record, fun c o => ?e7, fun c o => ?entry, fun c o => ?push, fun x a j hj => ?part⟩
  case record => exact .of (fun _ => rfl) fun x s ⟨hn, hq⟩ => popBody_of_record hn (popRecord_cons hq)
  case e7 =>
    refine .of (fun _ => rfl) fun x s ⟨hn, hq⟩ => popBody_of_record (by omega) ?_
    rw [hn, popRecord_e7_nil hq]
  case entry =>
    refine .of (fun _ => rfl) fun x s ⟨hn, hlen⟩ => ?_
    have hfew : ¬ (x.w.e.getD o.e.toNat []).length < entryWords x.w := by simpa [entryWords] using hlen
    simp only [popBody, if_neg (show ¬ o.e.toNat < 8 by omega), hfew, if_false]
    rfl
  case push =>
    refine .of (fun _ => rfl) fun x s hlen => ?_
    have hroom : ¬ (x.w.e.getD o.e.toNat []).length ≥ 4 * entryWords x.w := by simpa [entryWords] using hlen
    simp only [qpushBody, hroom, if_false]
  case part => simp [Wx.entry, entryWords, hj]

/-- Settles O18: the wait of a fence is over, or it is not; OPFENCE's is. -/
theorem fences : Obligations.Fences := by
  unfold Obligations.Fences
  refine ⟨fun c o => ?ended, fun c o => ?waits, fun c => ?opfence⟩
  case ended => exact .of (fun _ => rfl) fun x s h => by rw [fenceBody_of_over h, fenceAcquire_eq]
  case waits => exact .of (fun _ => rfl) fun x s h => fenceBody_of_waits h
  case opfence => exact .of (fun _ => rfl) fun x s h => if_pos h

/-- Settles O24: the checks of R299 and R300, in their order. -/
theorem regroupArrivals : Obligations.RegroupArrivals := by
  unfold Obligations.RegroupArrivals
  refine ⟨fun c o => ?arrives, fun c o hteam => ?mixed, fun c o => ?illegal, fun c o => ?back⟩
  case arrives =>
    refine .of (fun _ => rfl) fun x s ⟨hmixed, hkey, hagrees⟩ => ?_
    simp only [not_mixedTeam hmixed, hkey, hagrees, if_false, bne_self_eq_false, Bool.not_true, Bool.false_eq_true]
  case mixed =>
    refine .of (fun _ => rfl) fun x s hmixed => ?_
    simp only [hteam, hmixed, Bool.not_false, Bool.and_self, if_true]
  case illegal =>
    refine .of (fun _ => rfl) fun x s ⟨hmixed, hbad⟩ => ?_
    simp only [not_mixedTeam hmixed, Bool.false_eq_true, if_false]
    by_cases hkey : x.w.key = BitVec.allOnes 64
    · have hagrees := hbad.resolve_left fun hne => hne hkey
      simp only [hagrees, Bool.not_false, if_true, ite_self]
    · exact if_pos (bne_iff_ne.mpr hkey)
  case back =>
    refine .of (fun _ => rfl) fun x s ⟨hkey, hagrees⟩ => ?_
    simp only [hagrees, beq_iff_eq, hkey, if_false, Bool.not_true, Bool.false_eq_true]

end

