-- ==== Sys2Proof/Proofs/PressWords.lean ====
section
/-! PROVED FACTS. The words of press mode (O25 to O27): the vectors of an operation and its second source, the switch of bins, and the
checks of a transfer's range. -/

namespace Sys2Proof.Machine

theorem Wx.vectors_of_descs (x : Wx) (rs : List (BitVec 8)) {f : Nat → List PVec → Eff} {b : Nat} {vs : List PVec}
    (h : descsOf (rs.map fun r => x.w.getS r.toNat) = some (b, vs)) : x.vectors rs f = f b vs := by
  simp only [Wx.vectors, h]

/-- R342: a second source that is no S register, or one under `.K`, is a constant. -/
theorem press2_of_const {i : Instr} {k : POpKind} {sg : Bool} {o : Press2} {x : Wx} {s : State} {b : Nat} {d a : PVec}
    (hconst : o.b.isS = false ∨ o.k = true) (hdescs : descsOf [x.w.getS o.d.toNat, x.w.getS o.a.toNat] = some (b, [d, a]))
    (hopen : BinOpen x s b) :
    press2 i k sg o x s = s.acceptPress x b ⟨x.w.uid, x.w.team, x.g.ctx, 0, k, sg, d, a, .const (x.const o.b sg)⟩ := by
  obtain ⟨sgn, kconst, rd, ra, src⟩ := o
  cases src with
  | s n u =>
    have hk : kconst = true := hconst.resolve_left Bool.noConfusion
    subst hk
    exact (x.vectors_of_descs [rd, ra] hdescs).trans hopen.offer
  | v n u => exact (x.vectors_of_descs [rd, ra] hdescs).trans hopen.offer
  | lit v => exact (x.vectors_of_descs [rd, ra] hdescs).trans hopen.offer
  | imm v => exact (x.vectors_of_descs [rd, ra] hdescs).trans hopen.offer

/-- R342: a second source that is an S register is a vector. -/
theorem press2_of_vector {i : Instr} {k : POpKind} {sg : Bool} {o : Press2} {x : Wx} {s : State} {b : Nat} {d a e : PVec}
    {n : BitVec 8} {u : Use} (hb : o.b = .s n u) (hk : o.k = false)
    (hdescs : descsOf [x.w.getS o.d.toNat, x.w.getS o.a.toNat, x.w.getS n.toNat] = some (b, [d, a, e])) (hopen : BinOpen x s b) :
    press2 i k sg o x s = s.acceptPress x b ⟨x.w.uid, x.w.team, x.g.ctx, 0, k, sg, d, a, .vec e⟩ := by
  obtain ⟨sgn, kconst, rd, ra, src⟩ := o
  obtain rfl : src = .s n u := hb
  obtain rfl : kconst = false := hk
  exact (x.vectors_of_descs [rd, ra, n] hdescs).trans hopen.offer

/-! ### PMODE -/

/-- R340: the bin may not take the switch. -/
def State.refusesSwitch (s : State) (ctx : Nat) (press : Bool) (b : Nat) : Bool :=
  if press then (s.bin b).st != .cache else (s.bin b).st != .press || (s.bin b).owner != ctx

theorem refusesSwitch_eq_false {s : State} {ctx : Nat} {press : Bool} {b : Nat}
    (h : if press = true then (s.bin b).st = .cache else (s.bin b).st = .press ∧ (s.bin b).owner = ctx) :
    s.refusesSwitch ctx press b = false := by
  cases press with
  | true => exact bne_eq_false_iff_eq.mpr h
  | false =>
    obtain ⟨hst, howner⟩ := h
    simp only [State.refusesSwitch, hst, howner, bne_self_eq_false, Bool.or_self, Bool.false_eq_true, if_false]

/-- R312, R340: a PMODE takes the core's next command number. -/
def State.takeSeq (s : State) (x : Wx) : State :=
  (s.modCore x.core fun k => { k with nextSeq := bumpSeq (s.core x.core).nextSeq }).modWarp x.core x.slot fun w =>
    { w with cmdseq := BitVec.ofNat 32 (s.core x.core).nextSeq }

/-- The completion of a PMODE that takes no switch. -/
def pmodeReport (o : PmodeOp) (x : Wx) (s : State) (status data : Nat) : Eff :=
  .done ((s.takeSeq x).report ⟨6, x.core, x.core, x.w.uid, x.w.team, o.t.toNat, (s.core x.core).nextSeq, x.run.pc⟩ status data)
    [] (some (pendOver .press)) []

/-- The effect of a PMODE whose bins all take the switch. -/
def pmodeSwitch (press : Bool) (o : PmodeOp) (x : Wx) (s : State) (bs : List Nat) : Eff :=
  let t := bs.foldl (fun s b => s.switchBin x.g.ctx press b) (s.takeSeq x)
  .done { t with pmodes := t.pmodes ++ [⟨x.core, x.w.uid, x.w.team, (s.core x.core).nextSeq, o.t.toNat, x.run.pc, press, bs⟩] } []
    (some (pendOver .press)) []

/-- R340, R348: a PMODE with a legal mask and tag goes by the first of its bins that may not switch. -/
theorem pmodeBody_legal {press : Bool} {o : PmodeOp} {x : Wx} {s : State} (hmask : (x.w.src 0 o.m .b64).toNat < 2 ^ 24)
    (htag : o.t.toNat < x.g.f.tags) :
    pmodeBody press o x s =
      match (binsOf (x.w.src 0 o.m .b64).toNat).find? (s.refusesSwitch x.g.ctx press) with
      | some b => pmodeReport o x s 0x40 b
      | none =>
        if (binsOf (x.w.src 0 o.m .b64).toNat).isEmpty then pmodeReport o x s 0 0
        else pmodeSwitch press o x s (binsOf (x.w.src 0 o.m .b64).toNat) := by
  refine (if_neg ?_).trans rfl
  omega

/-! ### PXIN and PXOUT -/

/-- The pieces of a range lie in it. -/
theorem linePieces_within {fuel va n : Nat} {p : Nat × Nat} (h : p ∈ linePieces va fuel n) : va ≤ p.1 ∧ p.1 + p.2 ≤ va + n := by
  induction fuel generalizing va n with
  | zero => cases h
  | succ fuel ih =>
    unfold linePieces at h
    split at h
    · cases h
    · rcases List.mem_cons.mp h with rfl | hrest
      · exact ⟨Nat.le_refl _, Nat.add_le_add_left (Nat.min_le_left ..) _⟩
      · have := ih hrest
        have : min n (128 - va % 128) ≤ n := Nat.min_le_left ..
        omega

theorem pieces_within {va n : Nat} {p : Nat × Nat} (h : p ∈ pieces va n) : va ≤ p.1 ∧ p.1 + p.2 ≤ va + n :=
  linePieces_within h

/-- R167: every address in the storage of a table that is found lies in the storage of some table. -/
theorem storageAt_isSome {s : State} {ctx a va : Nat} {t : Version} (h : s.storageAt ctx a = some t) (hlo : t.base ≤ va)
    (hhi : va < t.base + t.len) : (s.storageAt ctx va).isSome = true := by
  have hmem := List.mem_of_find?_eq_some h
  have hat := List.find?_some h
  simp only [Bool.and_eq_true, decide_eq_true_eq] at hat
  obtain ⟨⟨hctx, hkind⟩, -⟩ := hat
  refine List.find?_isSome.mpr ⟨t, hmem, ?_⟩
  simp only [hctx, hkind, Bool.and_self, Bool.true_and, decide_eq_true_eq]
  exact ⟨hlo, hhi⟩

/-- R182: an address that is placed in a line of device memory lies in a region, and not in the module's own window. -/
theorem noRegion_of_devLine {s : State} {die ctx va : Nat} {wr : Bool} {l k : Nat} {a : BitVec 16} {nc : Bool}
    (h : s.engPlace die ctx va wr = .line (.dev l) k a nc) : s.noRegion va = false := by
  unfold State.noRegion
  split <;> rename_i hregion <;> simp only [State.engPlace, State.place, hregion] at h
  · cases h
  · split at h <;> cases h
  · rfl

theorem pieceFault_none {s : State} {x : Wx} {va n l k : Nat} {wr nc : Bool} {a : BitVec 16}
    (hplace : s.engPlace (x.core / 64) x.g.ctx va wr = .line (.dev l) k a nc)
    (hstored : ∀ i < n, (s.storageAt x.g.ctx (va + i)).isSome = true) : s.pieceFault x va n = none := by
  unfold State.pieceFault
  split <;> rename_i hregion
  · simp only [Option.map_eq_none_iff, List.find?_eq_none, List.mem_range]
    intro i hi
    exact Option.isNone_eq_false_iff.mpr (hstored i hi) ▸ Bool.false_ne_true
  · simp only [State.engPlace, State.place, hregion] at hplace; cases hplace
  · simp only [State.engPlace, State.place, hregion] at hplace; cases hplace
  · rfl

/-- R346: the pieces of a range, each with its place. -/
def State.rangeLocs (s : State) (x : Wx) (out : Bool) (a n : Nat) : List (Nat × Nat × Loc) :=
  (pieces a n).map fun (va, k) => (va, k, s.engPlace (x.core / 64) x.g.ctx va out)

/-- Every piece of the range lies in a line of device memory. -/
def DevRange (s : State) (x : Wx) (out : Bool) (a n : Nat) : Prop :=
  ∀ p ∈ pieces a n, ∃ l k at_ nc, s.engPlace (x.core / 64) x.g.ctx p.1 out = .line (.dev l) k at_ nc

theorem DevRange.line {s : State} {x : Wx} {out : Bool} {a n : Nat} (h : DevRange s x out a n) {p : Nat × Nat × Loc}
    (hp : p ∈ s.rangeLocs x out a n) :
    (p.1, p.2.1) ∈ pieces a n ∧ p.2.2 = s.engPlace (x.core / 64) x.g.ctx p.1 out ∧
      ∃ l k at_ nc, p.2.2 = .line (.dev l) k at_ nc := by
  obtain ⟨q, hq, rfl⟩ := List.mem_map.mp hp
  exact ⟨hq, rfl, h q hq⟩

theorem DevRange.ask {s : State} {x : Wx} {out : Bool} {a n : Nat} (h : DevRange s x out a n) :
    s.ask x ((s.rangeLocs x out a n).map fun p => p.2.2) = none := by
  refine State.ask_none fun p hp => ?_
  obtain ⟨-, -, l, k, at_, nc, hloc⟩ := h.line hp
  rw [hloc]
  rfl

/-- R182, R346: a range within the storage of one table, all of it in lines of device memory, has no fault. -/
theorem DevRange.rangeFault {s : State} {x : Wx} {out : Bool} {a n : Nat} {t : Version} (h : DevRange s x out a n)
    (htable : s.storageAt x.g.ctx a = some t) (hlen : a + n ≤ t.base + t.len) :
    s.rangeFault x (s.rangeLocs x out a n) = none := by
  have hbase : t.base ≤ a := by
    have hat := List.find?_some htable
    simp only [Bool.and_eq_true, decide_eq_true_eq] at hat
    obtain ⟨-, hlo, -⟩ := hat
    exact hlo
  have hregion : (s.rangeLocs x out a n).find? (fun p => s.noRegion p.1) = none := by
    refine List.find?_eq_none.mpr fun p hp => ?_
    obtain ⟨-, hplace, l, k, at_, nc, hloc⟩ := h.line hp
    rw [noRegion_of_devLine (hplace.symm.trans hloc)]
    exact Bool.false_ne_true
  have hpiece : (s.rangeLocs x out a n).findSome? (fun p => s.pieceFault x p.1 p.2.1) = none := by
    refine List.findSome?_eq_none_iff.mpr fun p hp => ?_
    obtain ⟨hin, hplace, l, k, at_, nc, hloc⟩ := h.line hp
    obtain ⟨hlo, hhi⟩ := pieces_within hin
    exact pieceFault_none (hplace.symm.trans hloc) fun i hi => storageAt_isSome htable (by omega) (by omega)
  have hcode : ∀ c, (s.rangeLocs x out a n).find? (fun p => p.2.2 == .fault c) = none := by
    refine fun c => List.find?_eq_none.mpr fun p hp => ?_
    obtain ⟨-, -, l, k, at_, nc, hloc⟩ := h.line hp
    rw [hloc]
    exact Bool.false_ne_true
  simp only [State.rangeFault, hregion, hpiece, hcode, Option.map_none]
  rfl

theorem devLines_rangeLocs (s : State) (x : Wx) (out : Bool) (a n : Nat) :
    devLines (s.rangeLocs x out a n) = (pieces a n).filterMap fun p => match s.engPlace (x.core / 64) x.g.ctx p.1 out with
      | .line (.dev l) _ at_ _ => some (l, at_)
      | _ => none := by
  unfold devLines State.rangeLocs
  rw [List.filterMap_map]
  rfl

/-- R346: PXIN or PXOUT of a range that passes every check, on a bin that is open. -/
theorem pxferBody_accepts {i : Instr} {out : Bool} {o : PxferOp} {x : Wx} {s : State} {b : Nat} {v : PVec} {t : Version}
    (hdescs : descsOf [x.w.getS o.d.toNat] = some (b, [v]))
    (hcount : ¬ ((x.w.getS o.n.toNat).toNat = 0 ∨ (x.w.getS o.n.toNat).toNat > 262144))
    (halign : (x.w.getS o.a.toNat).toNat % elemSize v.w = 0)
    (htable : s.storageAt x.g.ctx (x.w.getS o.a.toNat).toNat = some t) (hkind : t.kind = 1)
    (hlen : (x.w.getS o.a.toNat).toNat + elemSize v.w * (x.w.getS o.n.toNat).toNat ≤ t.base + t.len) (hopen : BinOpen x s b)
    (hrange : DevRange s x out (x.w.getS o.a.toNat).toNat (elemSize v.w * (x.w.getS o.n.toNat).toNat)) :
    pxferBody i out o x s =
      let a := (x.w.getS o.a.toNat).toNat
      let n := (x.w.getS o.n.toNat).toNat
      let lines := devLines (s.rangeLocs x out a (elemSize v.w * n))
      s.acceptPress x b ⟨x.w.uid, x.w.team, x.g.ctx, 0, if out then .xout n (a % 128) lines else .xin n (a % 128) lines,
        false, v, v, .const 0⟩ := by
  refine (x.vectors_of_descs [o.d] hdescs).trans ((if_neg hcount).trans ((if_neg (not_not_intro halign)).trans ?_))
  have hask := hrange.ask
  have hfault := hrange.rangeFault htable hlen
  simp only [State.rangeLocs] at hask hfault
  simp only [List.headD_cons, hask, hfault, htable, hkind, ne_eq, not_true_eq_false, if_false]
  exact (if_neg (Nat.not_lt.mpr hlen)).trans hopen.offer

end Sys2Proof.Machine

open Sys2Proof Sys2Proof.Machine

/-- Settles O25: a PMODE goes by the first of its bins that may not switch, if any. -/
theorem pressModes : Obligations.PressModes := by
  unfold Obligations.PressModes
  intro c o i press hi
  have hexec : ∀ s, exec i s = runWord (infoPmode c o) (pmodeBody press o) s := by
    obtain ⟨rfl, rfl⟩ | ⟨rfl, rfl⟩ := hi
    all_goals exact fun _ => rfl
  refine ⟨?switch, fun b => ?refused, ?none⟩
  case switch =>
    refine .of hexec fun x s ⟨hmask, htag, hne, hmay⟩ => ?_
    have hfree : (binsOf (x.w.src 0 o.m .b64).toNat).find? (s.refusesSwitch x.g.ctx press) = none := by
      rw [List.find?_eq_none]
      exact fun b hb => Bool.not_eq_true _ ▸ refusesSwitch_eq_false (hmay b hb)
    have hsome : (binsOf (x.w.src 0 o.m .b64).toNat).isEmpty = false := List.isEmpty_eq_false_iff.mpr hne
    rw [pmodeBody_legal hmask htag, hfree, hsome]
    rfl
  case refused =>
    refine .of hexec fun x s ⟨hmask, htag, hfirst⟩ => ?_
    have hfirst : (binsOf (x.w.src 0 o.m .b64).toNat).find? (s.refusesSwitch x.g.ctx press) = some b := hfirst
    rw [pmodeBody_legal hmask htag, hfirst]
    rfl
  case none =>
    refine .of hexec fun x s ⟨hmask, htag, hnone⟩ => ?_
    rw [pmodeBody_legal hmask htag, hnone]
    rfl

/-- Settles O26: the descriptors name vectors of one bin, and an open bin accepts what is offered to it. -/
theorem pressOperations : Obligations.PressOperations := by
  unfold Obligations.PressOperations
  refine ⟨fun c o i k sg hi => ?two, fun c o b d a hconst => ?cmpConst, fun c o b d a e n u hb hk => ?cmpVector,
    fun c o b d a => ?not, fun c o b d a e m hm => ?sel, fun c o b d a => ?sat, fun c o b a => ?cnt, fun c o b d a => ?shl,
    fun c o b d a => ?shr⟩
  case two =>
    have hexec : ∀ s, exec i s = runWord (infoPress2 c o) (press2 i k sg o) s := by
      obtain ⟨rfl, rfl, rfl⟩ | ⟨rfl, rfl, rfl⟩ | ⟨rfl, rfl, rfl⟩ | ⟨rfl, rfl, rfl⟩ | ⟨rfl, rfl, rfl⟩ | ⟨rfl, rfl, rfl⟩ := hi
      all_goals exact fun _ => rfl
    exact ⟨fun b d a hconst => .of hexec fun x s ⟨hdescs, hopen⟩ => press2_of_const hconst hdescs hopen,
      fun b d a e n u hb hk => .of hexec fun x s ⟨hdescs, hopen⟩ => press2_of_vector hb hk hdescs hopen⟩
  case cmpConst => exact .of (fun _ => rfl) fun x s ⟨hdescs, hopen⟩ => press2_of_const hconst hdescs hopen
  case cmpVector => exact .of (fun _ => rfl) fun x s ⟨hdescs, hopen⟩ => press2_of_vector hb hk hdescs hopen
  case sel =>
    refine .of (fun _ => rfl) fun x s ⟨hdescs, hopen⟩ => (x.vectors_of_descs [o.d, o.a, o.b, o.m] hdescs).trans ?_
    exact (if_neg (not_not_intro hm)).trans hopen.offer
  case cnt => exact .of (fun _ => rfl) fun x s ⟨hdescs, hopen⟩ => (x.vectors_of_descs [o.a] hdescs).trans hopen.offer
  all_goals exact .of (fun _ => rfl) fun x s ⟨hdescs, hopen⟩ => (x.vectors_of_descs [o.d, o.a] hdescs).trans hopen.offer

/-- Settles O27: a range that passes every check is offered to its bin; PSYNC goes by whether an operation of the warp is left. -/
theorem pressTransfers : Obligations.PressTransfers := by
  unfold Obligations.PressTransfers
  refine ⟨fun c o i out b v t hi => ?xfer, fun c o => ?sync, fun c o => ?syncHolds⟩
  case xfer =>
    have hexec : ∀ s, exec i s = runWord (infoPxfer c o) (pxferBody i out o) s := by
      obtain ⟨rfl, rfl⟩ | ⟨rfl, rfl⟩ := hi
      all_goals exact fun _ => rfl
    refine .of hexec fun x s ⟨hdescs, hpos, hmax, halign, htable, hlen, hkind, hopen, hrange⟩ => ?_
    rw [pxferBody_accepts hdescs (by omega) halign htable hkind hlen hopen hrange]
    simp only [devLines_rangeLocs] <;> rfl
  case sync =>
    refine .of (fun _ => rfl) fun x s ⟨hmask, hidle⟩ => ?_
    simp only [psyncBody, hidle, if_neg (Nat.not_le.mpr hmask), Bool.false_eq_true, if_false]
  case syncHolds =>
    refine .of (fun _ => rfl) fun x s ⟨hmask, hbusy⟩ => ?_
    simp only [psyncBody, hbusy, if_neg (Nat.not_le.mpr hmask), if_true]

end

