-- ==== Sys2Proof/Proofs/CommandWords.lean ====
section
/-! PROVED FACTS. PUSH, the tag words and leases (O21), with what a write-back leaves of a warp and which tag is the lowest. -/

namespace Sys2Proof.Machine

/-! ### Write-back -/

@[simp] theorem Warp.writes_pend (ws : List RegWrite) (w : Warp) : (w.writes ws).pend = w.pend := by
  induction ws generalizing w with
  | nil => rfl
  | cons r ws ih => exact (ih (w.write r)).trans (by simp [Warp.write])

/-- A write-back leaves the warp in its slot. -/
theorem Warp.writeBack_place (w : Warp) (id : Nat) : (w.writeBack id).core = w.core ∧ (w.writeBack id).slot = w.slot := by
  unfold Warp.writeBack
  split
  · exact ⟨rfl, rfl⟩
  · rename_i p _
    obtain ⟨-, hcore, hslot, -⟩ := (Warp.regsOnly_writes p.writes (w.forget p.writes)).same.name
    exact ⟨hcore, hslot⟩

theorem Warp.endHeld_place (w : Warp) : w.endHeld.core = w.core ∧ w.endHeld.slot = w.slot := by
  unfold Warp.endHeld
  generalize (w.pend.filter fun p => p.kind == .held && !p.wb).map Pend.id = ids
  induction ids generalizing w with
  | nil => exact ⟨rfl, rfl⟩
  | cons id ids ih =>
    obtain ⟨hcore, hslot⟩ := w.writeBack_place id
    obtain ⟨icore, islot⟩ := ih (w.writeBack id)
    exact ⟨icore.trans hcore, islot.trans hslot⟩

/-- What later pending instructions `q` keep of `p`; those of `ids` have been written back. -/
def WrittenBack (ids : List Nat) (p q : Pend) : Prop :=
  q.id = p.id ∧ q.kind = p.kind ∧ (p.wb = true → q.wb = true) ∧ (p.id ∈ ids → q.wb = true)

theorem Warp.mem_pend_forget {w : Warp} {ws : List RegWrite} {q : Pend} (h : q ∈ (w.forget ws).pend) :
    ∃ p ∈ w.pend, q.id = p.id ∧ q.kind = p.kind ∧ q.wb = p.wb := by
  obtain ⟨p, hp, rfl⟩ := List.mem_map.mp h
  refine ⟨p, hp, ?_⟩
  split <;> exact ⟨rfl, rfl, rfl⟩

theorem Warp.mem_pend_writeBack {w : Warp} {id : Nat} {q : Pend} (h : q ∈ (w.writeBack id).pend) :
    ∃ p ∈ w.pend, WrittenBack [id] p q := by
  unfold Warp.writeBack at h
  split at h
  · rename_i hnone
    refine ⟨q, h, rfl, rfl, fun hwb => hwb, fun hid => ?_⟩
    have := List.find?_eq_none.mp hnone q h
    simpa [List.mem_singleton.mp hid] using this
  · have h := (List.mem_filter.mp h).1
    obtain ⟨r, hr, rfl⟩ := List.mem_map.mp h
    rw [Warp.result, Warp.writes_pend] at hr
    obtain ⟨p, hp, hid, hkind, hwb⟩ := Warp.mem_pend_forget hr
    refine ⟨p, hp, ?_⟩
    split
    · exact ⟨hid, hkind, fun _ => rfl, fun _ => rfl⟩
    · rename_i hne
      exact ⟨hid, hkind, fun h => hwb.trans h, fun h => absurd (hid.trans (List.mem_singleton.mp h)) hne⟩

theorem Warp.mem_pend_foldl_writeBack {ids : List Nat} {w : Warp} {q : Pend} (h : q ∈ (ids.foldl Warp.writeBack w).pend) :
    ∃ p ∈ w.pend, WrittenBack ids p q := by
  induction ids generalizing w with
  | nil => exact ⟨q, h, rfl, rfl, fun h => h, fun h => absurd h List.not_mem_nil⟩
  | cons id ids ih =>
    obtain ⟨r, hr, hid, hkind, hwb, hin⟩ := ih h
    obtain ⟨p, hp, hid', hkind', hwb', hin'⟩ := Warp.mem_pend_writeBack hr
    refine ⟨p, hp, hid.trans hid', hkind.trans hkind', fun h => hwb (hwb' h), fun h => ?_⟩
    rcases List.mem_cons.mp h with rfl | h
    · exact hwb (hin' (List.mem_singleton.mpr rfl))
    · exact hin (hid' ▸ h)

/-- R96: after the end of a wait no wait of the warp is pending. -/
theorem Warp.wb_of_held_endHeld {w : Warp} {q : Pend} (h : q ∈ w.endHeld.pend) (hheld : q.kind = .held) : q.wb = true := by
  obtain ⟨p, hp, -, hkind, hwb, hin⟩ := Warp.mem_pend_foldl_writeBack h
  cases hpwb : p.wb with
  | true => exact hwb hpwb
  | false =>
    refine hin (List.mem_map_of_mem (List.mem_filter.mpr ⟨hp, ?_⟩))
    rw [← hkind, hheld, hpwb]
    rfl

/-! ### Tags -/

theorem eq_nil_of_leastBy_none {α : Type} {f : α → Nat} {l : List α} (h : leastBy f l = none) : l = [] := by
  cases l with
  | nil => rfl
  | cons a r =>
    unfold leastBy at h
    split at h
    · cases h
    · split at h <;> cases h

/-- The least of a list is in it, and none is less. -/
theorem leastBy_spec {α : Type} {f : α → Nat} {l : List α} {a : α} (h : leastBy f l = some a) : a ∈ l ∧ ∀ b ∈ l, f a ≤ f b := by
  induction l generalizing a with
  | nil => cases h
  | cons c r ih =>
    unfold leastBy at h
    split at h
    · rename_i hnone
      obtain rfl := Option.some.inj h
      simp [eq_nil_of_leastBy_none hnone]
    · rename_i b hb
      obtain ⟨hmem, hle⟩ := ih hb
      split at h <;> rename_i hlt <;> obtain rfl := Option.some.inj h
      · refine ⟨List.mem_cons_of_mem _ hmem, fun d hd => ?_⟩
        rcases List.mem_cons.mp hd with rfl | hd
        · exact Nat.le_of_lt hlt
        · exact hle d hd
      · refine ⟨List.mem_cons_self, fun d hd => ?_⟩
        rcases List.mem_cons.mp hd with rfl | hd
        · exact Nat.le_refl _
        · exact Nat.le_trans (Nat.le_of_not_lt hlt) (hle d hd)

theorem Warp.faultedTag_spec {w : Warp} {m : DWord} {f : EngFault} (h : w.faultedTag m = some f) :
    f ∈ w.efaults ∧ m.getLsbD f.tag = true ∧ ∀ g ∈ w.efaults, m.getLsbD g.tag = true → f.tag ≤ g.tag := by
  obtain ⟨hmem, hle⟩ := leastBy_spec h
  obtain ⟨hin, hbit⟩ := List.mem_filter.mp hmem
  exact ⟨hin, hbit, fun g hg hgbit => hle g (List.mem_filter.mpr ⟨hg, hgbit⟩)⟩

theorem lowTag_zero : lowTag 0 = 64 := rfl

theorem lowTag_of_lowest {t : DWord} {n : Nat} (hn : n < 64) (hbit : t.getLsbD n = true) (hlow : ∀ k < n, t.getLsbD k = false) :
    lowTag t = n := by
  have hfind : (List.range 64).find? (fun n => t.getLsbD n) = some n := by
    rw [List.find?_range_eq_some]
    exact ⟨hbit, List.mem_range.mpr hn, fun k hk => by simp [hlow k hk]⟩
  rw [lowTag, hfind]
  rfl

/-- R285: a wait that observes a faulted tag: the fault is reported no more, and the lanes trap. -/
def Warp.reported (w : Warp) (f : EngFault) : Warp :=
  { w.endHeld with efaults := w.efaults.filter (fun g => g != f), hold := none }

theorem raiseEngine_eq {s : State} {core slot : Nat} {lanes : List Nat} {pc : Word} {f : EngFault} {w : Warp}
    (h : s.warpAt core slot = some w) :
    s.raiseEngine core slot lanes pc f =
      (s.modWarp core slot fun w => w.reported f).deliver (w.reported f) lanes (some pc) := by
  have hstays : Stays fun w : Warp => w.reported f := fun w => w.endHeld_place
  have hat := State.warpAt_modWarp_self s core slot _ hstays
  rw [h] at hat
  unfold State.raiseEngine
  simp only [Warp.reported] at hat
  simp only [hat]
  rfl

/-! ### What the words come to -/

theorem maskBad_eq_false {tags : Nat} {m : DWord} (h : m.toNat < 2 ^ tags) : maskBad tags m = false :=
  decide_eq_false (Nat.not_le.mpr h)

/-- R307: a warp with nothing outstanding is not kept waiting. -/
theorem Settled.waits {x : Wx} (h : Settled x) : (x.w.acquiring || !x.w.outstanding.isEmpty) = false := by
  obtain ⟨hacq, hout⟩ := h
  rw [hacq, hout]
  rfl

theorem noTag_eq_false {all : Bool} {m : DWord} (h : all = true ∨ m ≠ 0) : (!all && m == 0) = false := by
  obtain rfl | hne := h
  · rfl
  · rw [beq_eq_false_iff_ne.mpr hne, Bool.and_false]

section
variable {i : Instr} {all : Bool} {o : MaskOp} {x : Wx} {s : State} (hmixed : x.w.mixed = false)
  (hmask : (x.w.src 0 o.m .b64).toNat < 2 ^ x.g.f.tags) (hany : all = true ∨ x.w.src 0 o.m .b64 ≠ 0)
include hmixed hmask hany

/-- R211, R316: a wait whose tags are set, none of a faulted command, completes as an acquire. -/
theorem waitBody_of_over (hover : waitOver all (s.tagmap x.w) (x.w.src 0 o.m .b64) = true)
    (hfault : x.w.faultedTag (s.tagmap x.w &&& x.w.src 0 o.m .b64) = none) :
    waitBody i all o x s = .done ((s.rvalLanes x (s.tagmap x.w).toNat).dropSelf x.core) [] none [] := by
  simp only [waitBody, hmixed, maskBad_eq_false hmask, noTag_eq_false hany, hover, hfault, Bool.or_self, Bool.false_eq_true, if_false,
    if_true]

/-- R285, R316: a wait that observes the tag of a faulted command raises its fault. -/
theorem waitBody_of_fault {f : EngFault} (hover : waitOver all (s.tagmap x.w) (x.w.src 0 o.m .b64) = true)
    (hfault : x.w.faultedTag (s.tagmap x.w &&& x.w.src 0 o.m .b64) = some f) :
    waitBody i all o x s = .ends ((s.stand x).raiseEngine x.core x.slot x.run.lanes x.run.pc f) [] none := by
  simp only [waitBody, hmixed, maskBad_eq_false hmask, noTag_eq_false hany, hover, hfault, Bool.or_self, Bool.false_eq_true, if_false,
    if_true]

/-- R316: a wait whose tags are not set holds its warp at the word. -/
theorem waitBody_of_open (hopen : waitOver all (s.tagmap x.w) (x.w.src 0 o.m .b64) = false) :
    waitBody i all o x s = .ends ((s.stand x).modWarp x.core x.slot fun w => { w with
      hold := some ⟨i, x.run.lanes, x.run.pc, s.gtime, s.clkOf x.core, (x.w.src 0 o.m .b64).toNat, w.cmdsDone, false, none⟩ })
      [] (some (pendOf .held [] none)) := by
  simp only [waitBody, hmixed, maskBad_eq_false hmask, noTag_eq_false hany, hopen, Bool.or_self, Bool.false_eq_true, if_false]

end

theorem exec_wait {c : Ctl} {o : MaskOp} {i : Instr} {all : Bool}
    (h : (i = Instr.waitany c o ∧ all = false) ∨ (i = .waitall c o ∧ all = true)) (s : State) :
    exec i s = runWord (infoMask c o true) (waitBody i all o) s := by
  obtain ⟨rfl, rfl⟩ | ⟨rfl, rfl⟩ := h
  all_goals rfl

/-- R329: a lease that is asked for: the requests are made, and an idle array grants its first. -/
theorem leaseFor_asked {n : Nat} {x : Wx} {s : State} (hmixed : x.w.mixed = false) (hn : n ≠ 0)
    (hlead : ¬ (x.g.f.cohort2 = true ∧ x.core % 2 = 1)) (hfree : (s.core x.core).leasing x.w.team = false) :
    leaseFor n x s = .done (((leaseCores x.g x.core).foldl (fun s c => s.modCore c fun k => { k with
      leaseReq := k.leaseReq ++ [(x.w.team, s.ownerOf x.w.team, min n 16777215)] }) s).grantIdle x.core) [] none [] := by
  have hrefused : ¬ (((x.g.f.cohort2 && x.core % 2 == 1) || (s.core x.core).leasing x.w.team) = true) := by
    simpa [hfree] using hlead
  simp only [leaseFor, hmixed, hn, hrefused, Bool.false_eq_true, if_false]

/-- R329: the team holds or awaits a lease, or its core does not lead. -/
theorem leaseFor_refused {n : Nat} {x : Wx} {s : State} (hmixed : x.w.mixed = false) (hn : n ≠ 0)
    (h : (x.g.f.cohort2 = true ∧ x.core % 2 = 1) ∨ (∃ l, (s.core x.core).lease = some l ∧ l.team = x.w.team) ∨
      ∃ q ∈ (s.core x.core).leaseReq, q.1 = x.w.team) :
    leaseFor n x s = .fault .lease 0 false := by
  have hrefused : ((x.g.f.cohort2 && x.core % 2 == 1) || (s.core x.core).leasing x.w.team) = true := by
    rw [Bool.or_eq_true]
    obtain ⟨hcohort, hodd⟩ | ⟨l, hlease, hteam⟩ | hreq := h
    · exact .inl (by simp [hcohort, hodd])
    · exact .inr (by simp [Core.leasing, hlease, hteam])
    · exact .inr (Bool.or_eq_true_iff.mpr (.inr (by simpa only [List.any_eq_true, beq_iff_eq] using hreq)))
  simp only [leaseFor, hmixed, hn, hrefused, Bool.false_eq_true, if_false, if_true]

end Sys2Proof.Machine

open Sys2Proof Sys2Proof.Machine

/-- Settles O21: each word goes by the checks of R310 and R316 in their order; the fault of a tag is `raiseEngine`. -/
theorem commandWords : Obligations.CommandWords := by
  unfold Obligations.CommandWords
  refine ⟨fun c o => ?push, fun c o => ?pushFull, fun c o i all hi => ?waitOver, fun c o i all hi => ?waitHolds,
    fun c o i all f hi => ?waitFault, fun c o n f => ?ffrFault, fun s core slot lanes pc f w hw => ?raise,
    fun w m f hf => Warp.faultedTag_spec hf, fun c o => ?ffrNone, fun c o n => ?ffr, fun c o => ?tagclr, fun c o => ?tagset,
    fun c o => ?leaseRegister, fun c o => ?leaseImmediate, fun c o => ?leaseRegisterRefused, fun c o => ?leaseImmediateRefused,
    fun c => ?unlease⟩
  case push =>
    refine .of (fun _ => rfl) fun x s ⟨hmixed, hsettled, hroom, hlegal⟩ => ?_
    simp only [pushBody, hmixed, hlegal, hroom, Settled.waits hsettled, Bool.false_eq_true, if_false]
  case pushFull =>
    refine .of (fun _ => rfl) fun x s ⟨hmixed, hfull, hlegal⟩ => ?_
    simp only [pushBody, hmixed, hlegal, hfull, Bool.false_eq_true, if_false, if_true]
    rfl
  case waitOver =>
    exact .of (exec_wait hi) fun x s ⟨hmixed, hmask, hover, hany, hfault⟩ => waitBody_of_over hmixed hmask hany hover hfault
  case waitHolds => exact .of (exec_wait hi) fun x s ⟨hmixed, hmask, hopen, hany⟩ => waitBody_of_open hmixed hmask hany hopen
  case waitFault =>
    exact .of (exec_wait hi) fun x s ⟨hmixed, hmask, hover, hany, hfault⟩ => waitBody_of_fault hmixed hmask hany hover hfault
  case ffrFault =>
    refine .of (fun _ => rfl) fun x s ⟨hmixed, hmask, hn, hbit, hlow, hfault⟩ => ?_
    simp only [hmixed, maskBad_eq_false hmask, lowTag_of_lowest hn hbit hlow, hfault, Bool.false_eq_true, if_false, Nat.ne_of_lt hn]
  case ffr =>
    refine .of (fun _ => rfl) fun x s ⟨hmixed, hmask, hn, hbit, hlow, hfault⟩ => ?_
    simp only [hmixed, maskBad_eq_false hmask, lowTag_of_lowest hn hbit hlow, hfault, Bool.false_eq_true, if_false, Nat.ne_of_lt hn]
  case ffrNone =>
    refine .of (fun _ => rfl) fun x s ⟨hmixed, hmask, hzero⟩ => ?_
    simp only [hmixed, maskBad_eq_false hmask, hzero, lowTag_zero, Bool.false_eq_true, if_false, if_true]
    rfl
  case raise => exact raiseEngine_eq hw
  case tagclr =>
    refine .of (fun _ => rfl) fun x s ⟨hmixed, hmask⟩ => ?_
    simp only [hmixed, maskBad_eq_false hmask, Bool.false_eq_true, if_false]
  case tagset =>
    refine .of (fun _ => rfl) fun x s ⟨hmixed, hmask, hsettled⟩ => ?_
    simp only [hmixed, maskBad_eq_false hmask, Settled.waits hsettled, Bool.false_eq_true, if_false]
    rfl
  case leaseRegister =>
    refine .of (fun _ => rfl) fun x s ⟨hmixed, hn, hlead, hfree⟩ => ?_
    exact leaseFor_asked hmixed (fun h => hn (BitVec.eq_of_toNat_eq h)) hlead hfree
  case leaseImmediate =>
    refine .of (fun _ => rfl) fun x s ⟨hmixed, hn, hlead, hfree⟩ => ?_
    rw [leaseFor_asked hmixed (fun h => hn (BitVec.eq_of_toNat_eq h)) hlead hfree,
      Nat.min_eq_left (show o.n.toNat ≤ 16777215 by omega)]
  case leaseRegisterRefused =>
    exact .of (fun _ => rfl) fun x s ⟨hmixed, hn, h⟩ => leaseFor_refused hmixed (fun h => hn (BitVec.eq_of_toNat_eq h)) h
  case leaseImmediateRefused =>
    exact .of (fun _ => rfl) fun x s ⟨hmixed, hn, h⟩ => leaseFor_refused hmixed (fun h => hn (BitVec.eq_of_toNat_eq h)) h
  case unlease => exact .of (fun _ => rfl) fun x s hmixed => by rw [if_neg (by simp [hmixed])]; rfl

end

