-- ==== Sys2Proof/Proofs/HeldWaits.lean ====
section
/-! PROVED FACTS. The ends of holds (O28): each step finds the hold of its kind and what the hold waits for. -/

namespace Sys2Proof.Machine

/-- R386, R91: the course of a nap that is over. -/
theorem napOver_of {s : State} {w : Warp} {h : Hold}
    (hover : (h.n ≠ 0 ∧ s.clkOf w.core ≥ h.k0 + h.n) ∨ (h.n = 0 ∧ h.ready = true) ∨ w.cmdsDone > h.seen) :
    s.napOver w h = true := by
  unfold State.napOver
  rw [Bool.or_eq_true, decide_eq_true_eq]
  obtain ⟨hn, hclk⟩ | ⟨hn, hready⟩ | hdone := hover
  · exact .inl (by rw [if_neg hn]; exact decide_eq_true hclk)
  · exact .inl (by rw [if_pos hn]; exact hready)
  · exact .inr hdone

theorem fenceOver_of_fence {s : State} {core slot : Nat} {h : Hold} {c : Ctl} {o : FenceOp} (hi : h.i = .fence c o) :
    s.fenceOver core slot h = (s.unhold core slot true).redo core slot (infoFence c) (fenceBody (.fence c o) o) := by
  simp only [State.fenceOver, hi]

theorem fenceOver_of_access {s : State} {core slot : Nat} {h : Hold} {sc : Scope} {o : Order} (hfence : h.fence = some (sc, o))
    (hi : ∀ c o, h.i ≠ .fence c o) : s.fenceOver core slot h = (s.unhold core slot true).fenceAcquire core sc o := by
  unfold State.fenceOver
  dsimp only
  split
  · rename_i c o h; exact absurd h (hi c o)
  · rw [hfence]

end Sys2Proof.Machine

open Sys2Proof Sys2Proof.Machine

/-- Settles O28: each step finds its hold, and the wait of the hold is over. -/
theorem heldWaitsEnd : Obligations.HeldWaitsEnd := by
  unfold Obligations.HeldWaitsEnd
  intro s core slot w h hw hh
  refine ⟨fun hnap hover => ?nap, fun sc o hfence hord hdone => ?fence, fun sc hfence hready => ?fenceSc,
    fun c o hi => fenceOver_of_fence hi, fun sc o hfence hi => ?access, fun c hi hdone => ?opfence,
    fun c o hi hroom => ?push, fun all hwait hover hfault => ?tags, fun all f hwait hover hfault => ?tagsFault,
    fun c o u n g hi hlook hle => ?cbSatisfied, fun c o u n g hi hlook hlt htime => ?cbTimeout,
    fun c o u n g hi hlook => ?cbPoison, fun c o hi => ?pop, fun c o hi => ?qpush, fun c o hi => ?movs,
    fun c o hi hidle => ?psync, fun w h now => ?goOn, fun n o hinfo hop hopen => ?press⟩
  case nap =>
    show execNapEnd core slot s = _
    simp only [execNapEnd, hw, hh, hnap, napOver_of hover, Bool.and_self, if_true]
  case fence =>
    show execFenceCompletion core slot s = _
    simp only [execFenceCompletion, hw, hh, hfence, bne_iff_ne.mpr hord, hdone, Bool.and_self, if_true]
  case fenceSc =>
    show execFenceScCompletion core slot s = _
    simp only [execFenceScCompletion, hw, hh, hfence, hready, beq_self_eq_true, Bool.and_self, if_true]
  case access =>
    rw [fenceOver_of_access hfence hi, fenceAcquire_eq]
  case opfence =>
    show execOpfenceCompletion core slot s = _
    simp only [execOpfenceCompletion, hw, hh, hi, hdone, if_true]
  case push =>
    show execPushPlaceFreed core slot s = _
    simp only [execPushPlaceFreed, hw, hh, hi, hroom, Bool.false_eq_true, if_false]
  case tags =>
    show execTagWaitWakeup core slot s = _
    simp only [execTagWaitWakeup, hw, hh, hwait, hover, hfault, if_true]
  case tagsFault =>
    show execTagWaitWakeup core slot s = _
    simp only [execTagWaitWakeup, hw, hh, hwait, hover, hfault, if_true]
  case cbSatisfied =>
    show execCbwaitSatisfied core slot s = _
    simp only [execCbwaitSatisfied, hw, hh, hi, hlook, Bool.false_eq_true, if_false, ge_iff_le, hle, if_true]
  case cbTimeout =>
    show execCbwaitTimeout core slot s = _
    simp only [execCbwaitTimeout, hw, hh, hi, hlook, Bool.not_false, hlt, htime, and_self, if_true]
  case cbPoison =>
    show execCbwaitSatisfied core slot s = _
    simp only [execCbwaitSatisfied, hw, hh, hi, hlook, if_true]
  case pop =>
    show execQueueAccessUnblock core slot s = _
    simp only [execQueueAccessUnblock, hw, hh, hi]
  case qpush =>
    show execQueueAccessUnblock core slot s = _
    simp only [execQueueAccessUnblock, hw, hh, hi]
  case movs =>
    show execQueueAccessUnblock core slot s = _
    simp only [execQueueAccessUnblock, hw, hh, hi]
  case psync =>
    show execPsyncCompletion core slot s = _
    simp only [execPsyncCompletion, hw, hh, hi, hidle, Bool.false_eq_true, if_false]
  case goOn => exact ⟨rfl, fun p hp hkind => Warp.wb_of_held_endHeld hp hkind⟩
  case press =>
    show execPressAcceptance core slot s = _
    simp only [execPressAcceptance, hw, hh, hinfo, hop, hopen, if_true]

end

