-- ==== Sys2Proof/Proofs/RunsAndRelocation.lean ====
section
/-! PROVED FACTS. Issue slots, write-back and regroup domains (O29, O30). -/

namespace Sys2Proof.Machine

theorem firstBreak_passNaps (s : State) (core : Nat) (w : Warp) (pc : Word) (lanes : List Nat) :
    (s.passNaps core).firstBreak w pc lanes = s.firstBreak w pc lanes := rfl

/-! ### Issue slots -/

/-- R95, R274: when a slot of a warp of the given width is free again. -/
def freeAgain (s : State) (w : Warp) : Nat := s.clkOf w.core + if w.w = 64 then 2 else 1

theorem slots_occupy {s : State} {w : Warp} {r : Run} (hcore : w.core < s.slots.length) (hrun : w.run = some r) :
    (s.occupy w).slots.getD w.core (0, 0) =
      if r.islot = 0 then (freeAgain s w, (s.slots.getD w.core (0, 0)).2) else ((s.slots.getD w.core (0, 0)).1, freeAgain s w) := by
  simp [State.occupy, freeAgain, hrun, List.getD_eq_getElem?_getD, hcore]

theorem slotFree_occupy_same {s : State} {w : Warp} {r : Run} (hcore : w.core < s.slots.length) (hrun : w.run = some r)
    {u : State} (hu : u.slots = (s.occupy w).slots) :
    u.slotFree w.core r.islot = decide (freeAgain s w ≤ u.clkOf w.core) := by
  unfold State.slotFree
  rw [hu, slots_occupy hcore hrun]
  by_cases h0 : r.islot = 0
  · simp only [h0, if_true]
  · simp only [h0, if_false]

theorem slotFree_occupy_other {s : State} {w : Warp} {r : Run} (hcore : w.core < s.slots.length) (hrun : w.run = some r)
    (hslot : r.islot < 2) : (s.occupy w).slotFree w.core (1 - r.islot) = s.slotFree w.core (1 - r.islot) := by
  unfold State.slotFree
  rw [slots_occupy hcore hrun]
  obtain h0 | h1 : r.islot = 0 ∨ r.islot = 1 := by omega
  · simp only [h0]; rfl
  · simp only [h1]; rfl

theorem serves {s : State} {core islot : Nat} (hslot : islot < 2) (hfree : s.slotFree core islot = true) :
    (decide (islot ≥ 2) || !s.slotFree core islot) = false := by
  simp [hfree, hslot]

theorem release_eq (s : State) (ps : List (Nat × Nat)) :
    s.release ps = if ps = [] then s else (ps.foldl (fun s q => s.unpin q.1 q.2) s).freeVersions := by
  simp only [State.release, List.isEmpty_iff]

/-! ### Domains -/

/-- R299: a domain that waits for none that is open. -/
def State.domainClear (s : State) (dom : Nat) : Prop :=
  ∀ d, s.sch.doms.find? (fun d => d.id == dom) = some d → ∀ i ∈ d.waits, ∀ e ∈ s.sch.doms, e.id ≠ i

theorem domainClear_iff (s : State) (dom : Nat) :
    ((s.sch.doms.find? fun d => d.id == dom).any fun d => d.waits.any fun i => s.sch.doms.any fun e => e.id == i) = false ↔
      s.domainClear dom := by
  unfold State.domainClear
  cases s.sch.doms.find? fun d => d.id == dom <;> simp

/-- R299: what a domain is ready for, each part by name. -/
theorem domReady_eq (s : State) (dom : Nat) : s.domReady dom =
    (!(s.domWarps dom).isEmpty &&
      !((s.sch.doms.find? fun d => d.id == dom).any fun d => d.waits.any fun i => s.sch.doms.any fun e => e.id == i) &&
      !(s.teams.any fun t => t.warps.any fun w => w.dom == some dom) &&
      (s.domWarps dom).all fun w => w.arr.any Arrival.counted) := by
  refine congrArg (_ && ·) (congrArg (List.all (s.domWarps dom)) (funext fun w => ?_))
  cases w.arr <;> rfl

theorem domReady_iff (s : State) (dom : Nat) : s.domReady dom = true ↔
    (∃ w ∈ s.warps, w.dom = some dom) ∧ s.domainClear dom ∧
      (∀ w ∈ s.warps, w.dom = some dom → ∃ a, w.arr = some a ∧ a.counted = true) ∧
      ∀ t ∈ s.teams, ∀ w ∈ t.warps, w.dom ≠ some dom := by
  have hsome : (!(s.domWarps dom).isEmpty) = true ↔ ∃ w ∈ s.warps, w.dom = some dom := by
    simp [State.domWarps]
  have hsaved : (!s.teams.any fun t => t.warps.any fun w => w.dom == some dom) = true ↔
      ∀ t ∈ s.teams, ∀ w ∈ t.warps, w.dom ≠ some dom := by
    simp
  have hcounted : ((s.domWarps dom).all fun w => w.arr.any Arrival.counted) = true ↔
      ∀ w ∈ s.warps, w.dom = some dom → ∃ a, w.arr = some a ∧ a.counted = true := by
    simp only [State.domWarps, List.all_eq_true, List.mem_filter, beq_iff_eq, Option.any_eq_true, and_imp]
  simp only [domReady_eq, Bool.and_eq_true, hsome, hsaved, hcounted, Bool.not_eq_true', domainClear_iff, and_assoc]
  exact and_congr_right fun _ => and_congr_right fun _ => and_comm

end Sys2Proof.Machine

open Sys2Proof Sys2Proof.Machine

/-- Settles O29: RUN_ISSUE goes by whether the slot is free and a run stands on it; `occupy` moves the free time of one slot. -/
theorem runsAndWriteBack : Obligations.RunsAndWriteBack := by
  unfold Obligations.RunsAndWriteBack
  refine ⟨fun s core islot hbusy => ?busy, fun s core islot w hslot hfree hon => ?goesOn,
    fun s core islot w pc lanes hslot hfree hon hchosen heligible hbreak => ?starts,
    fun s w r islot hcore hrun hr hslot => ?occupied, fun s core slot id w p hw hp => ?writeBack⟩
  case busy =>
    show execRunIssue core islot s = _
    simp only [execRunIssue, hbusy, Bool.not_false, Bool.or_true, if_true]
  case goesOn =>
    show execRunIssue core islot s = _
    simp only [execRunIssue, serves hslot hfree, Bool.false_eq_true, if_false, hon]
  case starts =>
    show execRunIssue core islot s = _
    simp only [execRunIssue, serves hslot hfree, Bool.false_eq_true, if_false, hon, hchosen, heligible, firstBreak_passNaps, hbreak]
    rfl
  case occupied =>
    subst hr
    refine ⟨⟨?_, slotFree_occupy_other hcore hrun hslot⟩, fun u hslots hclk => ?_⟩
    · rw [slotFree_occupy_same hcore hrun rfl, decide_eq_false_iff_not]
      show ¬ freeAgain s w ≤ s.clkOf w.core
      unfold freeAgain
      split <;> omega
    · rw [slotFree_occupy_same hcore hrun hslots, hclk, decide_eq_decide]
      unfold freeAgain
      split <;> rename_i h64 <;> simp [h64]
  case writeBack =>
    show execWriteBack core slot id s = _
    simp only [execWriteBack, hw, hp, release_eq]

/-- Settles O30: the steps find their warp or domain ready; `domReady_iff` says when a domain is. -/
theorem relocation : Obligations.Relocation := by
  unfold Obligations.Relocation
  refine ⟨fun s core slot w hw hready => ?arrival, fun s dom d hd hready => ⟨?packs, fun slot reg => ?fails⟩, domReady_iff⟩
  case arrival =>
    show execRegrpArrival core slot s = _
    simp only [execRegrpArrival, hw, hready, Bool.not_true, Bool.false_eq_true, if_false]
  case packs =>
    show execRelocationCompletion dom none s = _
    simp only [execRelocationCompletion, hd, hready, Bool.not_true, Bool.false_eq_true, if_false]
  case fails =>
    show execRelocationCompletion dom (some (slot, reg)) s = _
    simp only [execRelocationCompletion, hd, hready, Bool.not_true, Bool.false_eq_true, if_false]

end

