-- ==== Sys2Proof/Proofs/BarriersAndFaults.lean ====
section
/-! PROVED FACTS. Barriers and SYNCM (O23), and the faults of a word as a whole (O11). -/

namespace Sys2Proof.Machine

/-! ### SYNCM -/

/-- R162: the first mask of the phase that an arrival joins or opens. -/
def phaseFirst (o : MaskOp) (x : Wx) : DWord :=
  match x.w.sync with
  | some p => p.first
  | none => ((x.thr.map fun l => (l, syncMask x.w l o.m)).head?.map Prod.snd).getD 0

/-- R162: the phase before the arrival. -/
def phaseBefore (o : MaskOp) (x : Wx) : SyncPhase := x.w.sync.getD ⟨phaseFirst o x, 0, []⟩

/-- R162: a mask of the arrival differs from the first of its phase. -/
def masksDiffer (o : MaskOp) (x : Wx) : Bool :=
  (x.thr.map fun l => (l, syncMask x.w l o.m)).any fun p => p.2 != phaseFirst o x

/-- R162: the phase after the arrival. -/
def phaseAfter (o : MaskOp) (x : Wx) : SyncPhase :=
  ⟨(phaseBefore o x).first, (x.thr.map fun l => (l, syncMask x.w l o.m)).foldl (fun m p => m ||| p.2) (phaseBefore o x).mask,
    (phaseBefore o x).arrived ++ x.thr⟩

/-- R162: the active lanes arrive, and the phase is `p`; `differs`: a mask differed. -/
def syncmArrives (x : Wx) (s : State) (differs : Bool) (p : SyncPhase) : Eff :=
  .ends (s.modWarp x.core x.slot fun w =>
    let w1 := (w.modLanes x.run.lanes fun l => { l with pc := x.next }).modLanes x.thr fun l => { l with st := .syncm }
    let w2 := if differs then w1.setMaskmis else w1
    ({ w2 with sync := some p }).checkSync) [] none

/-- R162: SYNCM's own effect. -/
def syncmBody (o : MaskOp) (x : Wx) (s : State) : Eff :=
  if masksDiffer o x && x.g.f.checker then .fault .maskmis 0 false else syncmArrives x s (masksDiffer o x) (phaseAfter o x)

theorem exec_syncm (c : Ctl) (o : MaskOp) (s : State) : exec (.syncm c o) s = runWord (infoSyncm c o) (syncmBody o) s := rfl

theorem phaseFirst_eq (o : MaskOp) {x : Wx} (h : x.thr ≠ []) :
    phaseFirst o x = (x.w.sync.getD ⟨syncMask x.w (x.thr.headD 0) o.m, 0, []⟩).first := by
  obtain ⟨l, ls, hthr⟩ := List.exists_cons_of_ne_nil h
  unfold phaseFirst
  split <;> rename_i hsync <;> rw [hsync]
  · rfl
  · rw [hthr]
    rfl

theorem phaseBefore_eq (o : MaskOp) {x : Wx} (h : x.thr ≠ []) :
    phaseBefore o x = x.w.sync.getD ⟨syncMask x.w (x.thr.headD 0) o.m, 0, []⟩ := by
  unfold phaseBefore
  rw [phaseFirst_eq o h]
  cases x.w.sync <;> rfl

theorem masksDiffer_iff (o : MaskOp) (x : Wx) : masksDiffer o x = true ↔ ∃ l ∈ x.thr, syncMask x.w l o.m ≠ phaseFirst o x := by
  simp [masksDiffer]

theorem phaseAfter_eq (o : MaskOp) (x : Wx) : phaseAfter o x =
    ⟨(phaseBefore o x).first, x.thr.foldl (fun a l => a ||| syncMask x.w l o.m) (phaseBefore o x).mask,
      (phaseBefore o x).arrived ++ x.thr⟩ := by
  rw [phaseAfter, List.foldl_map]

/-- R162: under the checker, an arrival with a mask that differs. -/
theorem syncmBody_of_differ {o : MaskOp} {x : Wx} {s : State} (hchk : x.g.f.checker = true)
    (h : ∃ l ∈ x.thr, syncMask x.w l o.m ≠ phaseFirst o x) : syncmBody o x s = .fault .maskmis 0 false :=
  if_pos (by rw [(masksDiffer_iff o x).mpr h, hchk]; rfl)

theorem syncmBody_of_arrives {o : MaskOp} {x : Wx} {s : State}
    (h : x.g.f.checker = true → ∀ l ∈ x.thr, syncMask x.w l o.m = phaseFirst o x) :
    syncmBody o x s = syncmArrives x s (masksDiffer o x) (phaseAfter o x) := by
  refine if_neg ?_
  rw [Bool.and_eq_true, masksDiffer_iff]
  rintro ⟨⟨l, hl, hne⟩, hchk⟩
  exact hne (h hchk l hl)

/-! ### BAR and BARX -/

/-- R159, R160: an arrival of a warp that is not MIXED, at a barrier that there is, with nothing outstanding. -/
theorem barBody_arrives {n : Nat} {bx : Option (RedOp × Ty)} {sd : Option Nat} {payload : Wx → Nat → DWord} {p : Option Pend}
    {x : Wx} {s : State} (hmixed : x.w.mixed = false) (hn : n ≤ 15) (hsettled : Settled x) :
    barBody n bx sd payload p x s = .ends (s.arrive x n bx sd (payload x)) [] p := by
  simp only [barBody, hmixed, if_neg (Nat.not_lt.mpr hn), Settled.waits hsettled, Bool.false_eq_true, if_false]

/-! ### A word whose effect is followed by more -/

/-- A word does `eff` where its body does, and nothing follows that effect. -/
theorem Does.of_then {i : Instr} {n : WordInfo} {body : Wx → State → Eff} {more : Eff → Wx → State → State}
    {pre : Wx → State → Prop} {eff : Wx → State → Eff} (hexec : ∀ s, exec i s = runWordThen n body more s)
    (hbody : ∀ x s, pre x s → body x s = eff x s) (hmore : ∀ x s t, more (eff x s) x t = t) : Does i n pre eff := by
  intro s w r hready hpre
  rw [hexec, runWordThen_ready hready, hbody _ _ hpre, hmore]
  rfl

/-! ### Accesses that are misaligned in every lane -/

theorem perform_nil (s : State) (x : Wx) (o : Mode) : s.perform x o [] = ⟨s.count x.core 6 0, [], [], []⟩ := rfl

/-- R176, R182: the page of an access that gets as far as a walk. -/
def pageUsed (a : Nat × Nat × Loc) : Option Nat :=
  match regionOf a.2.1 with
  | .dev | .host => if a.2.2.walked then some (a.2.1 / 65536) else none
  | _ => none

/-- R176, R392: a page that is used enters the L1 TLB where it was not there. -/
def State.usePage (x : Wx) (s : State) (p : Nat) : State :=
  if s.tlbMiss x.core x.g.ctx p then
    (match s.tlb x.core x.g.ctx p with
    | some e => (s.count x.core 7 1).fillL1Tlb x.core e
    | none => s)
  else s

theorem translated_eq (s : State) (x : Wx) (as : List (Nat × Nat × Loc)) :
    s.translated x as = (((as.filterMap pageUsed).eraseDups).foldl (State.usePage x) s).dropFailed x (badsOf as) := rfl

theorem pageUsed_misaligned (l va : Nat) : pageUsed (l, va, .fault .align) = none := by
  unfold pageUsed
  split <;> rfl

section
variable {s : State} {x : Wx} {ea : Nat → Nat} {n : Nat} {wr : Bool} (h : ∀ l ∈ x.thr, ea l % n ≠ 0)
include h

theorem places_of_misaligned : s.places x ea n wr = x.thr.map fun l => (l, ea l, .fault .align) := by
  refine List.map_congr_left fun l hl => ?_
  rw [State.laneLoc, if_pos (h l hl)]

theorem ask_of_misaligned : s.ask x ((s.places x ea n wr).map fun a => a.2.2) = none := by
  rw [places_of_misaligned h, List.map_map]
  refine if_neg ?_
  simp

theorem badsOf_of_misaligned : badsOf (s.places x ea n wr) = x.thr.map fun l => ⟨l, .align, ea l⟩ := by
  rw [places_of_misaligned h, badsOf, List.filterMap_map]
  exact List.filterMap_eq_map ▸ rfl

theorem okOf_of_misaligned : okOf (s.places x ea n wr) = [] := by
  rw [places_of_misaligned h]
  simp [okOf]

theorem translated_of_misaligned : s.translated x (s.places x ea n wr) = s := by
  have hpages : (s.places x ea n wr).filterMap pageUsed = [] := by
    rw [places_of_misaligned h, List.filterMap_map, List.filterMap_eq_nil_iff]
    exact fun l _ => pageUsed_misaligned l (ea l)
  rw [translated_eq, hpages, badsOf_of_misaligned h]
  exact if_neg (by simp)

end

theorem watched_nil (s : State) (x : Wx) (rd wr : Bool) (n : Nat) : s.watched x rd wr [] n = s := ite_self s

/-- A relaxed load or store of which nothing was made. -/
theorem finish_nothing (s : State) (x : Wx) {k : PendKind} (sc : Scope) (bad : List Bad) (hrmw : (k == .rmw) = false) :
    Made.finish ⟨s, [], [], []⟩ x k sc .rlx [] bad = .done s [] (some (pendOf k [] none)) bad := by
  simp only [Made.finish, hrmw, Order.acquires, resBads, List.filter_nil, List.map_nil, List.append_nil, Bool.false_and,
    Bool.false_eq_true, if_false, Option.isSome_none, Bool.and_false, ite_self]
  rfl

theorem ldBody_of_misaligned {i : Instr} {o : LdOp} {x : Wx} {s : State} (hord : o.ord = .rlx) (hacq : x.w.acquiring = false)
    (h : ∀ l ∈ x.thr, x.ea l o.addr o.off % o.ty.bytes ≠ 0) :
    ldBody i o x s = .done (s.count x.core 6 0) [] (some (pendOf .load [] none))
      (x.thr.map fun l => ⟨l, .align, x.ea l o.addr o.off⟩) := by
  have hgate : MayAccess x .rlx := ⟨hacq, Order.noConfusion⟩
  simp only [ldBody, State.gate_none hgate, ask_of_misaligned h, badsOf_of_misaligned h, okOf_of_misaligned h,
    translated_of_misaligned h, watched_nil, hord]
  exact finish_nothing _ x _ _ rfl

theorem stBody_of_misaligned {i : Instr} {o : StOp} {x : Wx} {s : State} (hord : o.ord = .rlx) (hacq : x.w.acquiring = false)
    (h : ∀ l ∈ x.thr, x.ea l o.addr o.off % o.ty.bytes ≠ 0) :
    stBody i o x s = .done (s.count x.core 6 0) [] (some (pendOf .store [] none))
      (x.thr.map fun l => ⟨l, .align, x.ea l o.addr o.off⟩) := by
  have hgate : MayAccess x .rlx := ⟨hacq, Order.noConfusion⟩
  simp only [stBody, State.gate_none hgate, ask_of_misaligned h, badsOf_of_misaligned h, okOf_of_misaligned h,
    translated_of_misaligned h, watched_nil, hord]
  exact finish_nothing _ x _ _ rfl

/-- An access whose body comes to ALIGN in every lane raises it in each and makes no access. -/
theorem allAlign_of_body {i : Instr} {n : WordInfo} {k : PendKind} {ea : Wx → Nat → Nat × Nat} {body : Wx → State → Eff}
    (hexec : ∀ s, exec i s = runWord n body s)
    (hbody : ∀ x s, x.w.acquiring = false → (∀ l ∈ x.thr, (ea x l).1 % (ea x l).2 ≠ 0) →
      body x s = .done (s.count x.core 6 0) [] (some (pendOf k [] none)) (x.thr.map fun l => ⟨l, .align, (ea x l).1⟩)) :
    AllAlign i n k ea := by
  intro s w r hready hacq hmis
  obtain ⟨hsame, -⟩ := startOf_spec hready
  refine ⟨(startOf n s w r).count w.core 6 0, ?_, hsame.mem, hsame.teams, hsame.link⟩
  rw [hexec, runWord_ready hready, hbody _ _ hacq hmis]
  rfl

/-! ### Command words of a MIXED warp -/

/-- R303: a barrier arrival of a MIXED warp. -/
theorem barBody_of_mixed {n : Nat} {bx : Option (RedOp × Ty)} {sd : Option Nat} {payload : Wx → Nat → DWord} {p : Option Pend}
    {x : Wx} {s : State} (hmixed : x.w.mixed = true) : barBody n bx sd payload p x s = .fault .mixedBarrier 0 false :=
  if_pos hmixed

end Sys2Proof.Machine

open Sys2Proof Sys2Proof.Machine

/-- Settles O23: BAR and BARX arrive and their phases are looked at; SYNCM joins the phase that `phaseBefore_eq` names. -/
theorem barriers : Obligations.Barriers := by
  unfold Obligations.Barriers
  refine ⟨fun c o s w r hready hmixed hn hsettled => ?bar, fun c o s w r hready hmixed hn hsettled => ?barx,
    fun c o p => ?syncm⟩
  case bar =>
    show runWordThen _ _ _ s = _
    rw [runWordThen_ready hready, barBody_arrives hmixed hn hsettled]
    rfl
  case barx =>
    show runWordThen _ _ _ s = _
    rw [runWordThen_ready hready, barBody_arrives hmixed hn hsettled]
    rfl
  case syncm =>
    refine .of (exec_syncm c o) fun x s ⟨hthr, hp, hsame⟩ => ?_
    have hfirst := phaseFirst_eq o hthr
    have hbefore := phaseBefore_eq o hthr
    rw [← hp] at hfirst hbefore
    rw [syncmBody_of_arrives (hfirst ▸ hsame), phaseAfter_eq, hbefore]
    unfold syncmArrives
    simp only [masksDiffer_iff, hfirst]
    rfl

/-- Settles O11: each fault comes first among the checks of its word; an access that is misaligned in every lane makes nothing. -/
theorem wordFaults : Obligations.WordFaults := by
  unfold Obligations.WordFaults
  refine ⟨fun c o s w r hready hchk hdiffer => ?bruRegister, fun c o => ?bruLabel, fun c o => ?syncm, fun i n hi => ?mixed,
    fun c => ?eret, fun c o hord => ?ld, fun c o hord => ?st⟩
  case bruRegister =>
    show runWord _ _ s = _
    rw [runWord_ready hready, bruTo_of_differ hchk hdiffer]
    rfl
  case bruLabel => exact .of (fun _ => rfl) fun x s ⟨hchk, hdiffer⟩ => bruTo_of_differ hchk (.inl hdiffer)
  case syncm =>
    refine .of (exec_syncm c o) fun x s ⟨hchk, l, hl, hne⟩ => syncmBody_of_differ hchk ⟨l, hl, fun h => hne (h.trans ?_)⟩
    rw [phaseFirst_eq o (List.ne_nil_of_mem hl)]
    cases x.w.sync <;> rfl
  case mixed =>
    obtain ⟨c, o, rfl, rfl⟩ | ⟨c, o, rfl, rfl⟩ | ⟨c, o, rfl, rfl⟩ | ⟨c, o, rfl | rfl, rfl⟩ | ⟨c, o, rfl, rfl⟩ |
      ⟨c, o, rfl | rfl | rfl, rfl⟩ | ⟨c, o, rfl, rfl⟩ | ⟨c, rfl, rfl⟩ := hi
    case inl => exact .of_then (fun _ => rfl) (fun x s hmixed => barBody_of_mixed hmixed) fun _ _ _ => rfl
    case inr.inl => exact .of_then (fun _ => rfl) (fun x s hmixed => barBody_of_mixed hmixed) fun _ _ _ => rfl
    all_goals exact .of (fun _ => rfl) fun x s hmixed => if_pos hmixed
  case eret =>
    refine .of (exec_eret c) fun x s h => if_pos ?_
    simpa using h
  case ld => exact allAlign_of_body (fun _ => rfl) fun x s hacq hmis => ldBody_of_misaligned hord hacq hmis
  case st => exact allAlign_of_body (fun _ => rfl) fun x s hacq hmis => stBody_of_misaligned hord hacq hmis

end

