-- ==== Sys2Proof/Proofs/MemoryAccesses.lean ====
section
/-! PROVED FACTS. Accesses whose lanes all pass their checks, and what an operation does to a line (O15). -/

namespace Sys2Proof.Machine

/-! ### Accesses that may be made -/

theorem places_lanes (s : State) (x : Wx) (ea : Nat → Nat) (n : Nat) (wr : Bool) :
    (s.places x ea n wr).map (fun a => a.1) = x.thr :=
  (List.map_map ..).trans (List.map_id' x.thr)

/-- R197, R203: an access of which no part is early. -/
theorem early_eq_false {x : Wx} {s : State} {o : Order} {ea : Nat → Nat} {n : Nat} (h : NotEarly x s o ea n)
    (mk : Nat → Nat → LineOp) (late : Nat → Nat → List LateSrc) :
    x.early o (partsOf x.w (s.places x ea n true) mk late) = false := by
  cases hrel : Order.releases o with
  | false => simp [Wx.early, hrel]
  | true =>
    by_cases hout : x.w.outstanding = []
    · simp [Wx.early, hout]
    · have hfar := h hrel hout
      have hwin : (partsOf x.w (s.places x ea n true) mk late).any Part.inWindow = false := by
        refine List.any_eq_false.mpr fun p hp => ?_
        obtain ⟨a, ha, hpart⟩ := List.mem_filterMap.mp hp
        obtain ⟨l, hl, rfl⟩ := List.mem_map.mp ha
        obtain ⟨⟨t, off⟩, htgt, rfl⟩ := Option.map_eq_some_iff.mp hpart
        have hne := hfar l hl
        cases hloc : s.laneLoc x l (ea l) n true <;> simp only [hloc, tgtOf] at htgt hne <;> cases htgt
        case line => exact Bool.false_ne_true
        case peer => exact Bool.false_ne_true
        case scratch => exact absurd rfl (hne _).1
        case opbuf => exact absurd rfl (hne _).2
      rw [Wx.early, hwin, Bool.and_false]

/-- R191: where every AtomicOp that is needed can be carried, no place is refused. -/
theorem places_carried {s : State} {x : Wx} {ea : Nat → Nat} {op : AtomOp} {t : Ty} {sc : Scope}
    (h : ∀ l ∈ x.thr, viaAtomicOp sc (s.laneLoc x l (ea l) t.bytes true) = true → carried op t = true) :
    ((s.places x ea t.bytes true).map fun (l, va, loc) =>
      (l, va, if viaAtomicOp sc loc && !carried op t then Loc.fault .sysatomUnsup else loc)) = s.places x ea t.bytes true := by
  unfold State.places
  rw [List.map_map]
  refine List.map_congr_left fun l hl => ?_
  have hok : (viaAtomicOp sc (s.laneLoc x l (ea l) t.bytes true) && !carried op t) = false := by
    cases hvia : viaAtomicOp sc (s.laneLoc x l (ea l) t.bytes true) with
    | false => rfl
    | true => simp [h l hl hvia]
  simp only [Function.comp_apply, hok, Bool.false_eq_true, if_false]

/-- R188 to R191: an atomic whose lanes all pass. -/
theorem atomBody_of_found {i : Instr} {op : AtomOp} {t : Ty} {sc : Scope} {ord : Order} {reg : Option Nat} {addr b : Src} {x : Wx}
    {s : State} (hmay : MayAccess x ord) (hfound : AllFound x s (fun l => x.ea l addr 0) t.bytes true)
    (hearly : NotEarly x s ord (fun l => x.ea l addr 0) t.bytes)
    (hcarried : ∀ l ∈ x.thr, viaAtomicOp sc (s.laneLoc x l (x.ea l addr 0) t.bytes true) = true → carried op t = true) :
    atomBody i op t sc ord reg addr b x s =
      let as := s.places x (fun l => x.ea l addr 0) t.bytes true
      (((s.translated x as).watched x false true as t.bytes).perform x
        ⟨fun _ _ => .atHome, fun _ _ _ _ => false, 0, sc == .sys, x.deps ord⟩
        (partsOf x.w as (fun l off => .atom l off op t (x.w.src l b t) reg) fun l _ => lateOf b l 0 t.bytes)).finish x .rmw
          (x.scope (fun l => x.ea l addr 0) sc) ord [] [] := by
  simp only [atomBody, State.gate_none hmay, places_carried hcarried, State.ask_none hfound.places, badsOf_none hfound.places,
    okOf_all hfound.places, early_eq_false hearly, Bool.false_eq_true, if_false]

/-! ### Operations on a line -/

theorem regWrites_eq_received (lane reg : Nat) (sx : Bool) (b : List Byte) (cas bad : Bool) :
    LaneRes.regWrites ⟨lane, some reg, sx, b, cas, bad⟩ = received lane reg sx b := rfl

end Sys2Proof.Machine

open Sys2Proof Sys2Proof.Machine

/-- Settles O15: the checks of an access pass where every lane's place is found; the operations go by the poison they touch. -/
theorem memoryAccesses : Obligations.MemoryAccesses := by
  unfold Obligations.MemoryAccesses
  refine ⟨fun c o => ?ld, fun c o => ?st, fun c o => ?atom, fun c o => ?red, fun c o => ?cas,
    fun lane off n reg ty d p hclean => ?runRead, fun lane off op ty b reg d p hclean => ?runAtom,
    fun lane off n c new reg d p hclean => ?runCas, fun op d p hpoison hop => ?runPoison, regWrites_eq_received⟩
  case ld =>
    refine .of (fun _ => rfl) fun x s ⟨hmay, hfound⟩ => ?_
    simp only [ldBody, State.gate_none hmay, State.ask_none hfound.places, badsOf_none hfound.places, okOf_all hfound.places]
  case st =>
    refine .of (fun _ => rfl) fun x s ⟨hmay, hfound, hearly⟩ => ?_
    simp only [stBody, State.gate_none hmay, State.ask_none hfound.places, badsOf_none hfound.places, okOf_all hfound.places,
      early_eq_false hearly, Bool.false_eq_true, if_false]
  case atom =>
    exact .of (fun _ => rfl) fun x s ⟨hmay, hfound, hearly, hcarried⟩ => atomBody_of_found hmay hfound hearly hcarried
  case red =>
    exact .of (fun _ => rfl) fun x s ⟨hmay, hfound, hearly, hcarried⟩ => atomBody_of_found hmay hfound hearly hcarried
  case cas =>
    refine .of (fun _ => rfl) fun x s ⟨hmay, hfound, hearly⟩ => ?_
    simp only [casBody, State.gate_none hmay, State.ask_none hfound.places, badsOf_none hfound.places, okOf_all hfound.places,
      early_eq_false hearly, places_lanes, Bool.false_eq_true, if_false]
  case runRead => exact if_neg (not_not_intro hclean)
  case runAtom => exact if_neg (not_not_intro hclean)
  case runCas => exact if_neg (not_not_intro hclean)
  case runPoison =>
    obtain ⟨lane, off, n, reg, ty, rfl⟩ | ⟨lane, off, o, ty, b, reg, rfl⟩ | ⟨lane, off, n, c, new, reg, rfl⟩ := hop
    · have hrun : LineOp.run (.read lane off n reg ty) d p = (d, p, [⟨lane, none, false, [], false, true⟩]) := if_pos hpoison
      rw [hrun]
      exact ⟨rfl, _, rfl, rfl, rfl⟩
    · have hrun : LineOp.run (.atom lane off o ty b reg) d p = (d, p, [⟨lane, none, false, [], false, true⟩]) := if_pos hpoison
      rw [hrun]
      exact ⟨rfl, _, rfl, rfl, rfl⟩
    · have hrun : LineOp.run (.cas lane off n c new reg) d p = (d, p, [⟨lane, none, false, [], true, true⟩]) := if_pos hpoison
      rw [hrun]
      exact ⟨rfl, _, rfl, rfl, rfl⟩

end

