-- ==== Sys2Proof/Proofs/CountBarriers.lean ====
section
/-! PROVED FACTS. Counting stores, the arming of a count barrier and the waits for it (O16). -/

namespace Sys2Proof.Machine

/-! ### What accesses leave of the links -/

theorem link_fillL1Tlb (s : State) (core : Nat) (e : TlbE) : (s.fillL1Tlb core e).link = s.link := rfl

theorem link_usePage (x : Wx) (s : State) (p : Nat) : (State.usePage x s p).link = s.link := by
  unfold State.usePage
  split
  · split <;> rfl
  · rfl

theorem link_dropFailed (s : State) (x : Wx) (bad : List Bad) : (s.dropFailed x bad).link = s.link := by
  unfold State.dropFailed
  split <;> rfl

theorem link_foldl {α : Type} {f : State → α → State} (h : ∀ s a, (f s a).link = s.link) (l : List α) (s : State) :
    (l.foldl f s).link = s.link :=
  List.foldlRecOn l f (motive := fun t => t.link = s.link) rfl fun t ht a _ => (h t a).trans ht

theorem link_translated (s : State) (x : Wx) (as : List (Nat × Nat × Loc)) : (s.translated x as).link = s.link := by
  rw [translated_eq, link_dropFailed, link_foldl (link_usePage x)]

theorem link_watched (s : State) (x : Wx) (rd wr : Bool) (as : List (Nat × Nat × Loc)) (n : Nat) :
    (s.watched x rd wr as n).link = s.link := by
  unfold State.watched
  split
  · split <;> rfl
  · rfl

theorem link_scratchOps (s : State) (team base : Nat) (ops : List LineOp) : (s.scratchOps team base ops).1.link = s.link := by
  unfold State.scratchOps
  split <;> rfl

theorem link_addReqs (s : State) (x : Wx) (is : List Item) (kind : Item → ReqKind) (rc : Nat) (sys : Bool) (deps : List Nat) :
    (s.addReqs x is kind rc sys deps).1.link = s.link := by
  unfold State.addReqs
  refine List.foldlRecOn (linesOf is) _ (motive := fun p : State × List Nat => p.1.link = s.link) rfl fun p hp l _ => ?_
  dsimp only
  split <;> exact hp

/-- Nothing has failed so far, and the links are those of `s`. -/
structure MadeOn (s : State) (m : Made) : Prop where
  link : m.s.link = s.link
  bad : m.bad = []

theorem MadeOn.windows {s : State} {m : Made} (h : MadeOn s m) (x : Wx) (ps : List Part) : MadeOn s (m.windows x ps) := by
  refine List.foldlRecOn _ _ (motive := MadeOn s) h fun m hm t _ => ?_
  dsimp only
  split
  · exact ⟨(link_scratchOps ..).trans hm.link, hm.bad⟩
  · exact ⟨hm.link, hm.bad⟩
  · exact hm

theorem MadeOn.lines {s : State} {m : Made} (h : MadeOn s m) (x : Wx) (o : Mode) (ps : List Part) : MadeOn s (m.lines x o ps) := by
  unfold Made.lines
  dsimp only
  generalize hfold : List.foldl _ m _ = m'
  have hm' : MadeOn s m' := by
    subst hfold
    refine List.foldlRecOn _ _ (motive := MadeOn s) h fun m hm l _ => ?_
    split
    · exact hm
    · exact ⟨hm.link, hm.bad⟩
  exact ⟨(link_addReqs ..).trans hm'.link, hm'.bad⟩

/-- R380: a live port serves every line. -/
theorem portOf_isSome {s : State} (h : s.link.live ≠ 0) (line : Nat) : ∃ port, s.portOf line = some port := by
  have hport : ∃ i, i ∈ (List.range 16).filter fun i => s.link.live.getLsbD i := by
    obtain ⟨i, hi, hbit⟩ : ∃ i, i < 16 ∧ s.link.live.getLsbD i = true := by
      by_contra hnone
      refine h (BitVec.eq_of_getLsbD_eq fun i hi => ?_)
      have hoff : s.link.live.getLsbD i = false := by simpa [hi] using fun h => hnone ⟨i, hi, h⟩
      simpa using hoff
    exact ⟨i, List.mem_filter.mpr ⟨List.mem_range.mpr hi, hbit⟩⟩
  unfold State.portOf
  generalize (List.range 16).filter (fun i => s.link.live.getLsbD i) = ports at hport ⊢
  obtain ⟨i, hi⟩ := hport
  have hlen := List.length_pos_of_mem hi
  refine ⟨ports[line % ports.length]'(Nat.mod_lt _ hlen), ?_⟩
  simp [List.ne_nil_of_mem hi, Nat.mod_lt _ hlen]

theorem live_sendReady (s : State) : s.sendReady.link.live = s.link.live :=
  List.foldlRecOn _ _ (motive := fun t : State => t.link.live = s.link.live) rfl fun _ ht _ _ => ht

theorem addPeer_spec {s : State} (h : s.link.live ≠ 0) (x : Wx) (m off lane : Nat) (op : LineOp) (deps : List Nat) (edit : Flit → Flit) :
    (∃ id, (s.addPeer x m off lane op deps edit).2 = some id) ∧ (s.addPeer x m off lane op deps edit).1.link.live = s.link.live := by
  obtain ⟨port, hport⟩ := portOf_isSome h (off / 128)
  unfold State.addPeer
  rw [hport]
  exact ⟨⟨_, rfl⟩, live_sendReady _⟩

/-- R380: where a port is live, every access to a peer is made. -/
theorem bad_peers {m : Made} (h : m.s.link.live ≠ 0) (x : Wx) (deps : List Nat) (edit : Flit → Flit) (ps : List Part) :
    (m.peers x deps edit ps).bad = m.bad ∧ (m.peers x deps edit ps).s.link.live = m.s.link.live := by
  refine List.foldlRecOn ps _ (motive := fun n : Made => n.bad = m.bad ∧ n.s.link.live = m.s.link.live) ⟨rfl, rfl⟩ fun n hn p _ => ?_
  obtain ⟨hbad, hlive⟩ := hn
  dsimp only
  split
  · rename_i md off _
    obtain ⟨⟨id, hid⟩, hkeep⟩ := addPeer_spec (hlive ▸ h) x md off p.lane p.op (deps ++ n.s.peerDeps x (n.s.portOf (off / 128))) edit
    rw [hid]
    exact ⟨hbad, hkeep.trans hlive⟩
  · exact ⟨hbad, hlive⟩

/-- Where a port is live, no access of an instruction fails as it is made. -/
theorem bad_perform {s : State} (h : s.link.live ≠ 0) (x : Wx) (o : Mode) (ps : List Part) :
    (s.perform x o ps).bad = [] ∧ (s.perform x o ps).s.link.live = s.link.live := by
  have hmade : MadeOn s (((Made.mk s [] [] []).windows x ps).lines x o ps) :=
    ((⟨rfl, rfl⟩ : MadeOn s ⟨s, [], [], []⟩).windows x ps).lines x o ps
  obtain ⟨hbad, hlive⟩ := bad_peers (hmade.link ▸ h) x o.deps id ps
  exact ⟨hbad.trans hmade.bad, hlive.trans (congrArg LinkSys.live hmade.link)⟩

/-! ### Counting stores -/

/-- R185: the mode of the stores of a counting store. -/
def cbMode (x : Wx) : Mode := ⟨storeKind 0, storeHit 0 (!(x.deps .rel).isEmpty), 0, false, x.deps .rel⟩

theorem link_beforeMaking (s : State) (x : Wx) (as : List (Nat × Nat × Loc)) (n : Nat) :
    ((s.translated x as).watched x false true as n).link = s.link :=
  (link_watched ..).trans (link_translated ..)

/-- R185: with a barrier of the module, the count of every lane is asked for after the stores. -/
theorem stCbMake_line {s : State} {x : Wx} (hlive : s.link.live ≠ 0) {lanes : List Nat} (hlanes : lanes ≠ []) (l : LineId) (off : Nat)
    (a : BitVec 16) (nc : Bool) (ps : List Part) :
    s.stCbMake x (.line l off a nc) ps lanes =
      let m := s.perform x (cbMode x) ps
      let q := m.s.addReqs x [⟨l, a, nc, .cbInc off lanes, [], lanes⟩] (fun _ => .atHome) 0 false (x.deps .rel ++ m.ids)
      { m with s := q.1, ids := m.ids ++ q.2 } := by
  obtain ⟨hbad, -⟩ := bad_perform hlive x (cbMode x) ps
  have hall : (lanes.filter fun l => !(s.perform x (cbMode x) ps).bad.any fun b => b.lane == l) = lanes := by simp [hbad]
  unfold cbMode at hall ⊢
  simp only [State.stCbMake, hall, List.isEmpty_iff, hlanes, if_false]

/-- R383: with a barrier of a peer, the stores made there count there; the others are counted by the peer. -/
theorem stCbMake_peer {s : State} (hlive : s.link.live ≠ 0) (x : Wx) (md off : Nat) (ps : List Part) (lanes : List Nat) :
    s.stCbMake x (.peer md off) ps lanes =
      let there := ps.filter fun p => !p.atPeer md
      let m := (s.perform x (cbMode x) there).peers x (x.deps .rel) (countingFlit off) (ps.filter fun p => p.atPeer md)
      m.peers x (x.deps .rel ++ m.ids) id (there.map fun p => ⟨.peer md off, .cbInc (off % 128) [p.lane], p.lane, []⟩) := by
  obtain ⟨hbad, hkeep⟩ := bad_perform hlive x (cbMode x) (ps.filter fun p => !p.atPeer md)
  obtain ⟨hsame, -⟩ := bad_peers (hkeep ▸ hlive) x (x.deps .rel) (countingFlit off) (ps.filter fun p => p.atPeer md)
  rw [hbad] at hsame
  unfold cbMode at hsame ⊢
  simp only [State.stCbMake, List.partition_eq_filter_filter, Function.comp_def, hsame, List.any_nil, Bool.not_false, List.filter_true]

/-- R185, R380: a peer that has not answered is asked once; a live port takes the question. -/
theorem cbAnswer_of_unanswered {s : State} {x : Wx} {cb : Nat}
    (hnone : x.w.walked.find? (fun n => n.1 / 2 ^ 8 == cbNote cb 0 / 2 ^ 8) = none) (hlive : s.link.live ≠ 0) (md off : Nat) :
    s.cbAnswer x cb md off = .error (if s.link.out.any fun p => p.warp == x.w.uid && p.op == .cbInc 0 [] then s
      else (s.addPeer x md off x.low (.cbInc 0 []) [] id).1) := by
  obtain ⟨⟨id', hid⟩, -⟩ := addPeer_spec hlive x md off x.low (.cbInc 0 []) [] id
  unfold State.cbAnswer
  rw [hnone]
  dsimp only
  split
  · rfl
  · revert hid
    generalize s.addPeer x md off x.low (.cbInc 0 []) [] id = q
    obtain ⟨t, n⟩ := q
    rintro rfl
    rfl

theorem ask_line (s : State) (x : Wx) (l : LineId) (off : Nat) (a : BitVec 16) (nc : Bool) : s.ask x [.line l off a nc] = none := rfl

theorem ask_peer (s : State) (x : Wx) (md off : Nat) : s.ask x [.peer md off] = none := rfl

/-- R185: a counting store all of whose places are found, to a barrier of the module. -/
theorem stCbBody_line {o : StCbOp} {x : Wx} {s : State} {l : LineId} {off : Nat} {a : BitVec 16} {nc : Bool}
    (hacq : x.w.acquiring = false) (hthr : x.thr ≠ []) (hcb : s.cbPlace x (x.w.src 0 o.cb .b64).toNat = .line l off a nc)
    (hfound : AllFound x s (fun l => x.ea l o.addr 0) o.ty.bytes true)
    (hearly : NotEarly x s .rel (fun l => x.ea l o.addr 0) o.ty.bytes) (hlive : s.link.live ≠ 0) :
    stCbBody o x s =
      let as := s.places x (fun l => x.ea l o.addr 0) o.ty.bytes true
      let m := ((s.translated x as).watched x false true as o.ty.bytes).perform x (cbMode x)
        (partsOf x.w as (fun l off => .write off (x.bytes l o.data o.ty)) fun l off => lateOf o.data l off o.ty.bytes)
      let q := m.s.addReqs x [⟨l, a, nc, .cbInc off x.thr, [], x.thr⟩] (fun _ => .atHome) 0 false (x.deps .rel ++ m.ids)
      ({ m with s := q.1, ids := m.ids ++ q.2 } : Made).finish x .store (x.scope (fun l => x.ea l o.addr 0) o.sc) .rel [] [] := by
  simp only [stCbBody, hacq, hcb, ask_line, State.ask_none hfound.places, badsOf_none hfound.places, okOf_all hfound.places,
    early_eq_false hearly, places_lanes, Bool.false_eq_true, if_false]
  rw [stCbMake_line ((link_beforeMaking ..).symm ▸ hlive) hthr]

/-- R383: one to a barrier of a peer that has passed the peer's checks. -/
theorem stCbBody_peer {o : StCbOp} {x : Wx} {s : State} {md off : Nat}
    (hacq : x.w.acquiring = false) (hcb : s.cbPlace x (x.w.src 0 o.cb .b64).toNat = .peer md off)
    (hfound : AllFound x s (fun l => x.ea l o.addr 0) o.ty.bytes true)
    (hearly : NotEarly x s .rel (fun l => x.ea l o.addr 0) o.ty.bytes)
    (hanswer : s.cbAnswer x (x.w.src 0 o.cb .b64).toNat md off = .ok 0) (hlive : s.link.live ≠ 0) :
    stCbBody o x s =
      let as := s.places x (fun l => x.ea l o.addr 0) o.ty.bytes true
      let ps := partsOf x.w as (fun l off => .write off (x.bytes l o.data o.ty)) fun l off => lateOf o.data l off o.ty.bytes
      let there := ps.filter fun p => !p.atPeer md
      let m := (((s.translated x as).watched x false true as o.ty.bytes).perform x (cbMode x) there).peers x (x.deps .rel)
        (countingFlit off) (ps.filter fun p => p.atPeer md)
      (m.peers x (x.deps .rel ++ m.ids) id (there.map fun p => ⟨.peer md off, .cbInc (off % 128) [p.lane], p.lane, []⟩)).finish x .store
        (x.scope (fun l => x.ea l o.addr 0) o.sc) .rel [] [] := by
  simp only [stCbBody, hacq, hcb, hanswer, ask_peer, State.ask_none hfound.places, badsOf_none hfound.places, okOf_all hfound.places,
    early_eq_false hearly, Bool.false_eq_true, if_false]
  rw [stCbMake_peer ((link_beforeMaking ..).symm ▸ hlive)]

/-! ### Waits for a count -/

/-- R386: a CBWAIT whose barrier can be read. -/
theorem cbwaitBody_of_read {i : Instr} {o : CbwaitOp} {x : Wx} {s u : State} {l : LineId} {off : Nat} {a : BitVec 16} {nc : Bool}
    {n g : Nat} {bad : Bool} (hacq : x.w.acquiring = false)
    (hobj : s.cbObject x.w (x.w.getS o.a.toNat).toNat false = .line l off a nc) (hbusy : s.lineBusy x.core l = false)
    (hfree : s.homeFree l = true) (hread : s.cbRead l off a x.g.ctx = (u, n, g, bad)) :
    cbwaitBody i o x s =
      if bad then .done u [] (some (pendOver .load)) (x.thr.map fun l => ⟨l, .machineCheck, (x.w.getS o.a.toNat).toNat⟩)
      else if g ≤ n then .done ((u.rvalCb x.w x.thr x.run.pc 1).dropSelf x.core) [⟨.c o.cd.toNat, 0, 1⟩] (some (pendOver .load)) []
      else if (x.w.src 0 o.n .n64).toNat = 0 then
        .done (u.rvalCb x.w x.thr x.run.pc 0) [⟨.c o.cd.toNat, 0, 0⟩] (some (pendOver .load)) []
      else .ends ((u.stand x).modWarp x.core x.slot fun w => { w with
        hold := some ⟨i, x.run.lanes, x.run.pc, u.gtime, u.clkOf x.core,
          min (x.w.src 0 o.n .n64).toNat (2 ^ 40), (x.w.getS o.a.toNat).toNat, false, none⟩ }) [] (some (pendOf .held [] none)) := by
  have hzero : (min (x.w.src 0 o.n .n64).toNat (2 ^ 40) = 0) = ((x.w.src 0 o.n .n64).toNat = 0) := by
    rw [eq_iff_iff]
    omega
  simp only [cbwaitBody, hacq, hobj, ask_line, hbusy, hfree, hread, hzero, Bool.false_eq_true, if_false, Bool.not_true, Bool.or_self, ge_iff_le]

end Sys2Proof.Machine

open Sys2Proof Sys2Proof.Machine

/-- Settles O16: with a live port nothing fails as the stores are made, so every lane counts; CBWAIT goes by the read of its barrier. -/
theorem countBarriers : Obligations.CountBarriers := by
  unfold Obligations.CountBarriers
  refine ⟨fun c o l off a nc => ?line, fun c o md off => ?peer, fun c o md off t => ?asked, fun c o md off n k => ?refused,
    fun s x cb md off hnone hlive => ?answer, fun c o l off a nc => ?cbarm, fun c o l off a nc u n g bad => ?cbwait⟩
  case line =>
    exact .of (fun _ => rfl) fun x s ⟨hacq, hthr, hcb, hfound, hearly, hlive⟩ => stCbBody_line hacq hthr hcb hfound hearly hlive
  case peer =>
    exact .of (fun _ => rfl) fun x s ⟨hacq, hcb, hfound, hearly, hanswer, hlive⟩ => stCbBody_peer hacq hcb hfound hearly hanswer hlive
  case asked =>
    refine .of (fun _ => rfl) fun x s ⟨hacq, hcb, hfound, hanswer⟩ => ?_
    simp only [stCbBody, hacq, hcb, hanswer, ask_peer, State.ask_none hfound.places, Bool.false_eq_true, if_false]
  case refused =>
    refine .of (fun _ => rfl) fun x s ⟨hacq, hcb, hfound, hanswer, hn, hcode⟩ => ?_
    obtain ⟨m, rfl⟩ := Nat.exists_eq_succ_of_ne_zero hn
    simp only [stCbBody, hacq, hcb, hanswer, hcode, ask_peer, State.ask_none hfound.places, Option.getD_some, Bool.false_eq_true,
      if_false]
  case answer => exact ⟨_, cbAnswer_of_unanswered hnone hlive md off, fun h => if_pos h, fun h => if_neg (by simp [h])⟩
  case cbarm =>
    refine .of (fun _ => rfl) fun x s ⟨hacq, hobj⟩ => ?_
    simp only [cbarmBody, hacq, hobj, ask_line, Bool.false_eq_true, if_false]
  case cbwait =>
    exact .of (fun _ => rfl) fun x s ⟨hacq, hobj, hbusy, hfree, hread⟩ => cbwaitBody_of_read hacq hobj hbusy hfree hread

end

