-- ==== Sys2Proof/Proofs/CacheMaintenance.lean ====
section
/-! PROVED FACTS. Prefetches and cache maintenance (O17). -/

namespace Sys2Proof.Machine

/-! ### Prefetches -/

/-- R186: which lines a prefetch brings near. -/
theorem prfNear_eq (sc : Scope) (a : BitVec 16) :
    prfNear sc a = decide ((sc = .warp ∨ sc = .team) ∧ attrLvl a = 0 ∧ attrCls a ≠ .unc) := by
  rw [Bool.eq_iff_iff]
  simp [prfNear, and_assoc]

/-- R186: the lines a prefetch asks for. -/
theorem prfItems_eq (s : State) (x : Wx) (sc : Scope) (as : List (Nat × Nat × Loc)) :
    s.prfItems x sc as = as.filterMap fun p => match p.2.2 with
      | .line l _ a nc =>
        if nc = true ∨ attrLvl a = 2 ∨ (prfNear sc a = true ∧ (s.l1 x.core l).isSome = true) then none
        else some ⟨l, a, nc, .read p.1 0 0 255 .n8, [], [p.1]⟩
      | _ => none := by
  refine List.filterMap_congr fun p _ => ?_
  obtain ⟨l, va, loc⟩ := p
  cases loc <;> simp only [Bool.and_eq_true]

/-! ### Ranges of maintenance -/

/-- R187: a line of a range that does not fault is entered with its place and address. -/
theorem maintLine_of_noFault {s : State} {x : Wx} {va stop : Nat} {wr : Bool}
    (h : ∀ c, (s.maintLine x va stop wr).1 ≠ .fault c) : s.maintLine x va stop wr = (s.engPlace (x.core / 64) x.g.ctx va wr, va) := by
  revert h
  unfold State.maintLine
  dsimp only
  split
  · exact fun h => absurd rfl (h _)
  · split
    · exact fun h => absurd rfl (h _)
    · rename_i heq
      exact fun _ => by rw [heq]
    · exact fun h => absurd rfl (h _)
  · exact fun _ => rfl

/-- The lines that hold a byte of [va, stop). -/
def linesFrom (va stop : Nat) : Nat := if stop ≤ va then 0 else (stop - 1) / 128 - va / 128 + 1

/-- The address at which the `j`th line of a range that begins at `va` is entered. -/
def lineEntry (va j : Nat) : Nat := if j = 0 then va else 128 * (va / 128 + j)

theorem lineEntry_succ (va j : Nat) : lineEntry va (j + 1) = lineEntry (va / 128 * 128 + 128) j := by
  simp only [lineEntry, Nat.succ_ne_zero, if_false]
  split <;> omega

theorem linesFrom_succ {va stop : Nat} (h : va < stop) : linesFrom va stop = linesFrom (va / 128 * 128 + 128) stop + 1 := by
  unfold linesFrom
  split <;> split <;> omega

/-- R187: a range none of whose lines faults has an entry for each line that holds a byte of it. -/
theorem maintRange_of_noFault {s : State} {x : Wx} {wr : Bool} {stop : Nat} :
    ∀ {fuel va : Nat}, linesFrom va stop ≤ fuel → (∀ e ∈ s.maintRange x wr stop fuel va, ∀ c, e.1 ≠ .fault c) →
      s.maintRange x wr stop fuel va =
        (List.range (linesFrom va stop)).map fun j => (s.engPlace (x.core / 64) x.g.ctx (lineEntry va j) wr, lineEntry va j)
  | 0, va, hfuel, _ => by
    rw [Nat.le_zero.mp hfuel]
    rfl
  | fuel + 1, va, hfuel, hno => by
    unfold State.maintRange at hno ⊢
    by_cases hstop : va ≥ stop
    · have hlines : linesFrom va stop = 0 := if_pos hstop
      rw [if_pos hstop, hlines]
      rfl
    · rw [if_neg hstop] at hno ⊢
      dsimp only at hno ⊢
      have hmore := linesFrom_succ (Nat.lt_of_not_le hstop)
      split at hno
      · rename_i c hfault
        exact absurd hfault (hno _ (List.mem_singleton_self _) c)
      · rename_i hfine
        have hline := maintLine_of_noFault (hno _ List.mem_cons_self)
        have hrest := maintRange_of_noFault (by omega) fun e he => hno e (List.mem_cons_of_mem _ he)
        rw [hrest, hline, hmore, List.range_succ_eq_map, List.map_cons, List.map_map]
        simp only [Function.comp_def, lineEntry_succ]
        rfl

/-- R187: a maintenance word whose ranges lack no translation. -/
theorem maintBody_of_translated {kind : Bool → Bool → ReqKind} {wr : Bool} {o : MaintOp} {x : Wx} {s : State}
    (hacq : x.w.acquiring = false) (hask : s.ask x (x.thr.flatMap fun l => (Machine.maintOf s x o wr l).map Prod.fst) = none) :
    maintBody kind wr o x s =
      let bad := x.thr.flatMap fun l => (Machine.maintOf s x o wr l).filterMap fun r => match r.1 with
        | .fault c => some (Bad.mk l c r.2)
        | _ => none
      let its := (x.thr.filter fun l => !bad.any fun b => b.lane == l).flatMap fun l =>
        (Machine.maintOf s x o wr l).filterMap fun r => match r.1 with
        | .line n _ a nc => if attrLvl a = 2 then none else some (Item.mk n a nc (.read l 0 0 255 .n8) [] [l])
        | _ => none
      let q := (s.dropFailed x bad).addReqs x its (fun _ => kind (o.sc == .dev || o.sc == .sys) (o.sc == .sys)) 0 false []
      .done q.1 [] (some (pendOf .maint q.2 none)) bad := by
  simp only [maintBody, hacq, Bool.false_eq_true, if_false, List.flatMap_map, List.filter_map, Function.comp_def, hask] <;> rfl

end Sys2Proof.Machine

open Sys2Proof Sys2Proof.Machine

/-- Settles O17: the words go by their lanes' places; a range is followed line by line. -/
theorem cacheMaintenance : Obligations.CacheMaintenance := by
  unfold Obligations.CacheMaintenance
  refine ⟨fun c o => ?prf, fun c o t => ?prfHeld, fun c o i kind wr hi => ?maint, fun s x o wr l => ?range⟩
  case prf =>
    refine .of (fun _ => rfl) fun x s hask => ?_
    simp only [prfBody, hask, prfItems_eq, prfNear_eq] <;> rfl
  case prfHeld =>
    refine .of (fun _ => rfl) fun x s hask => ?_
    simp only [prfBody, hask]
  case maint =>
    obtain ⟨rfl, rfl, rfl⟩ | ⟨rfl, rfl, rfl⟩ | ⟨rfl, rfl, rfl⟩ | ⟨rfl, rfl, rfl⟩ := hi <;>
      exact .of (fun _ => rfl) fun x s ⟨hacq, hask⟩ => maintBody_of_translated hacq hask
  case range =>
    intro r va n hno
    have hlines : linesFrom va (va + n) = if n = 0 then 0 else (va + n - 1) / 128 - va / 128 + 1 := by
      unfold linesFrom
      split <;> split <;> omega
    have hfuel : linesFrom va (va + n) ≤ n / 128 + 2 := by
      rw [hlines]
      split <;> omega
    rw [← hlines]
    exact maintRange_of_noFault hfuel hno

end

