-- ==== Sys2Proof/Proofs/Tables.lean ====
section
/-! PROVED FACTS. Lookups, cursors, mutations, pins and versions of tables (O19, O20). -/

namespace Sys2Proof.Machine

/-! ### What a table instruction waits for -/

theorem lookup_of_ready {x : Wx} (h : x.w.acquiring = false) (s : State) (f : State → Eff) : lookup x s f = f (s.dropSelf x.core) := by
  simp only [lookup, h, Bool.false_eq_true, if_false]

theorem mutation_of_settled {x : Wx} (h : Settled x) (s : State) (f : State → Eff) : mutation x s f = f (s.dropSelf x.core) := by
  simp only [mutation, h.waits, Bool.false_eq_true, if_false]

/-- R224, R229: a mutation whose lines the host has given back, and whose homes are free, takes effect. -/
theorem mutated_of_free {s : State} {x : Wx} {d : Dst} {ver n : Nat} {t : State × List (Nat × Out)}
    (hback : s.askBack (rowKey x.w.uid) x.g.ctx (s.rowLines (x.core / 64) x.g.ctx n t.2) = none)
    (hfree : ∀ l ∈ s.rowLines (x.core / 64) x.g.ctx n t.2, s.homeFree l = true) : s.mutated x d ver n t = t.1.quads x d [ver] t.2 := by
  have hall : (s.rowLines (x.core / 64) x.g.ctx n t.2).all s.homeFree = true := List.all_eq_true.mpr hfree
  simp only [State.mutated, hback, hall, if_true]

/-- R251: a deletion writes no row. -/
theorem rowLines_zero (s : State) (die ctx : Nat) (os : List (Nat × Out)) : s.rowLines die ctx 0 os = [] := by
  refine List.flatMap_eq_nil_iff.mpr fun e _ => ?_
  obtain ⟨l, o⟩ := e
  cases o with
  | quad q => exact ite_self _
  | bad b => rfl

/-- R251: no line is asked of the host for a mutation that writes none. -/
theorem mutated_zero (s : State) (x : Wx) (d : Dst) (ver : Nat) (t : State × List (Nat × Out)) :
    s.mutated x d ver 0 t = t.1.quads x d [ver] t.2 := by
  refine mutated_of_free ?_ ?_ <;> rw [rowLines_zero]
  · rfl
  · exact fun l h => absurd h (List.not_mem_nil)

/-- R248: no lane's cursor slot is taken. -/
theorem any_cursor_isSome {x : Wx} {k : Nat} (h : ∀ l ∈ x.thr, (x.w.lane l).cursor k = none) :
    (x.thr.any fun l => ((x.w.lane l).cursor k).isSome) = false :=
  List.any_eq_false.mpr fun l hl => by simp [h l hl]

/-- R248: every lane's cursor slot is taken. -/
theorem any_cursor_isNone {x : Wx} {k : Nat} (h : ∀ l ∈ x.thr, (x.w.lane l).cursor k ≠ none) :
    (x.thr.any fun l => ((x.w.lane l).cursor k).isNone) = false :=
  List.any_eq_false.mpr fun l hl => by simp [h l hl]

/-- R247: a step of cursors that are all there. -/
theorem stepBody_of_cursors {o : TStepOp} {asc : Bool} {x : Wx} (hacq : x.w.acquiring = false)
    (hcur : ∀ l ∈ x.thr, (x.w.lane l).cursor o.k.toNat ≠ none) (s : State) :
    stepBody o asc x s =
      let r := x.each (s.dropSelf x.core) fun s l => s.tstep x o.k.toNat asc l
      (r.1.count x.core 0x0A x.thr.length).quads x o.dst
        ((x.thr.filterMap fun l => ((x.w.lane l).cursor o.k.toNat).map Cursor.ver).eraseDups) r.2 := by
  unfold stepBody
  rw [lookup_of_ready hacq, any_cursor_isNone hcur]
  rfl

end Sys2Proof.Machine

open Sys2Proof Sys2Proof.Machine

/-- Settles O19: a lookup that waits for no acquire acts on the table that it names. -/
theorem tableLookups : Obligations.TableLookups := by
  unfold Obligations.TableLookups
  refine ⟨fun c o v => ?tlook, fun c o v => ?trow, fun c o v => ?tseek, fun c o => ?tnext, fun c o => ?tprev, fun c o => ?tclose,
    fun c o v => ?tstat, fun c o v => ?tcount⟩
  case tlook =>
    refine .of (fun _ => rfl) fun x s ⟨hacq, htable, hfree⟩ => ?_
    rw [lookup_of_ready hacq, htable.withTable, hfree]
    rfl
  case trow =>
    refine .of (fun _ => rfl) fun x s ⟨hacq, htable⟩ => ?_
    rw [lookup_of_ready hacq, htable.withTable] <;> rfl
  case tseek =>
    refine .of (fun _ => rfl) fun x s ⟨hacq, htable, hcur, hpins⟩ => ?_
    rw [lookup_of_ready hacq, htable.withTable, any_cursor_isSome hcur]
    exact (if_neg Bool.false_ne_true).trans ((if_neg (Nat.not_le.mpr hpins)).trans rfl)
  case tnext => exact .of (fun _ => rfl) fun x s ⟨hacq, hcur⟩ => stepBody_of_cursors hacq hcur s
  case tprev => exact .of (fun _ => rfl) fun x s ⟨hacq, hcur⟩ => stepBody_of_cursors hacq hcur s
  case tclose => exact .of (fun _ => rfl) fun x s _ => rfl
  case tstat =>
    refine .of (fun _ => rfl) fun x s ⟨hacq, htable⟩ => ?_
    rw [lookup_of_ready hacq, htable.withTable]
  case tcount =>
    refine .of (fun _ => rfl) fun x s ⟨hacq, htable, hfree⟩ => ?_
    rw [lookup_of_ready hacq, htable.withTable, hfree]
    rfl

/-- Settles O20: a mutation of a settled warp acts on the table that it names, once its lines are free. -/
theorem tableMutations : Obligations.TableMutations := by
  unfold Obligations.TableMutations
  refine ⟨fun c o v => ?tins, fun c o v => ?tdel, fun c o v => ?trekey, fun c o => ?tadd, fun c o v => ?tpin, fun c o v t => ?tunpin,
    fun c o v t => ?tswap⟩
  case tins =>
    refine .of (fun _ => rfl) fun x s ⟨hsettled, htable, hback, hfree⟩ => ?_
    rw [mutation_of_settled hsettled, htable.withTable, mutated_of_free hback hfree]
  case tdel =>
    refine .of (fun _ => rfl) fun x s ⟨hsettled, htable⟩ => ?_
    rw [mutation_of_settled hsettled, htable.withTable, mutated_zero]
  case trekey =>
    refine .of (fun _ => rfl) fun x s ⟨hsettled, htable, hback, hfree⟩ => ?_
    rw [mutation_of_settled hsettled, htable.withTable, mutated_of_free hback hfree]
  case tadd =>
    refine .of (fun _ => rfl) fun x s ⟨hacq, hfound⟩ => ?_
    have hplaces : ∀ a ∈ x.thr.map fun l => (l, x.ea l o.addr o.off, s.taddLoc x (x.ea l o.addr o.off) (if o.q then 8 else 4)),
        a.2.2.found = true := by simpa using hfound
    simp only [taddBody, hacq, State.ask_none hplaces, badsOf_none hplaces, okOf_all hplaces, Bool.false_eq_true, if_false]
  case tpin =>
    refine .of (fun _ => rfl) fun x s ⟨htable, hpins⟩ => ?_
    rw [htable.withTable, if_neg (Nat.not_le.mpr hpins)]
  case tunpin =>
    refine .of (fun _ => rfl) fun x s ⟨htable, hall⟩ => ?_
    rw [htable.withTable, hall]
  case tswap =>
    refine .of (fun _ => rfl) fun x s ⟨hsettled, htable, hstage, hkind, hfmt, hpins, hid⟩ => ?_
    rw [mutation_of_settled hsettled, htable.withTable, hstage]
    simp [hkind, hfmt, hpins, hid]

end

