-- ==== Sys2Proof/Proofs/MemoryBytes.lean ====
section
/-! PROVED FACTS. Memory as bytes and lines, and the registers that are constants (O52, O55, O57). -/

namespace Sys2Proof.Machine

/-! ### Reading memory -/

/-- Two memories in canonical form that read alike are one list of cells. -/
theorem Mem.ext_of_wfFrom {lo : Nat} : ∀ {m n : Mem}, m.wfFrom lo = true → n.wfFrom lo = true → (∀ a, m.get a = n.get a) → m = n := by
  intro m
  induction m generalizing lo with
  | nil =>
    rintro (_ | ⟨⟨k, b⟩, r⟩) _ hn hget
    · rfl
    · simp only [Mem.wfFrom, Bool.and_eq_true, bne_iff_ne] at hn
      obtain ⟨⟨-, hb⟩, -⟩ := hn
      have hk := hget k
      simp only [Mem.get, if_true] at hk
      exact absurd hk.symm hb
  | cons c r ih =>
    obtain ⟨k, b⟩ := c
    rintro (_ | ⟨⟨j, e⟩, q⟩) hm hn hget
    · simp only [Mem.wfFrom, Bool.and_eq_true, bne_iff_ne] at hm
      obtain ⟨⟨-, hb⟩, -⟩ := hm
      have hk := hget k
      simp only [Mem.get, if_true] at hk
      exact absurd hk hb
    · simp only [Mem.wfFrom, Bool.and_eq_true, bne_iff_ne, decide_eq_true_eq] at hm hn
      obtain ⟨⟨-, hb⟩, hr⟩ := hm
      obtain ⟨⟨-, he⟩, hq⟩ := hn
      have hkj : k = j := by
        have hk := hget k
        have hj := hget j
        simp only [Mem.get, if_true] at hk hj
        by_contra hne
        rw [if_neg (Ne.symm hne)] at hk
        rw [if_neg hne] at hj
        obtain hlt | hgt := Nat.lt_or_gt_of_ne hne
        · rw [if_pos hlt] at hk
          exact hb hk
        · rw [if_pos hgt] at hj
          exact he hj.symm
      subst hkj
      have hbe : b = e := by simpa only [Mem.get, if_true] using hget k
      subst hbe
      refine congrArg _ (ih hr hq fun a => ?_)
      by_cases ha : a < k + 1
      · rw [Mem.get_below hr ha, Mem.get_below hq ha]
      · have hrest := hget a
        simpa only [Mem.get, if_neg (show ¬ k = a by omega), if_neg (show ¬ a < k by omega)] using hrest

theorem Mem.read_congr {m n : Mem} {a : Nat} : ∀ {k b : Nat}, a ≤ b → (∀ i, a ≤ i → i < b + k → m.get i = n.get i) → m.read b k = n.read b k
  | 0, _, _, _ => rfl
  | k + 1, b, hab, h => by
    rw [Mem.read, Mem.read, h b hab (by omega), Mem.read_congr (b := b + 1) (by omega) fun i hi hlt => h i hi (by omega)]

/-! ### Sectors of a line -/

theorem slice_getD {d : List Byte} {off n i : Nat} (h : i < n) : (slice d off n).getD i 0 = d.getD (off + i) 0 := by
  simp only [slice, List.getD_eq_getElem?_getD, List.getElem?_take, h, if_true, List.getElem?_drop]

theorem slice_length {d : List Byte} {off n : Nat} (h : off + n ≤ d.length) : (slice d off n).length = n := by
  simp only [slice, List.length_take, List.length_drop]
  omega

/-- Blocks of 32 bytes in a row. -/
theorem getD_flatMap_blocks {f : Nat → List Byte} :
    ∀ {n : Nat}, (∀ i, i < n → (f i).length = 32) →
      ((List.range n).flatMap f).length = 32 * n ∧
        ∀ b, b < 32 * n → ((List.range n).flatMap f).getD b 0 = (f (b / 32)).getD (b % 32) 0
  | 0, _ => ⟨rfl, fun b h => absurd h (by omega)⟩
  | n + 1, hf => by
    obtain ⟨hlen, hget⟩ := getD_flatMap_blocks (n := n) fun i hi => hf i (by omega)
    rw [List.range_succ, List.flatMap_append, List.flatMap_singleton, List.length_append, hlen, hf n (by omega)]
    refine ⟨by omega, fun b hb => ?_⟩
    by_cases hlt : b < 32 * n
    · rw [List.getD_append _ _ _ _ (by omega), hget b hlt]
    · rw [List.getD_append_right _ _ _ _ (by omega), hlen, show b / 32 = n by omega, show b - 32 * n = b % 32 by omega]

/-- A byte of merged sectors is the new one where its sector is written. -/
theorem mergeSectors_getD {old new : List Byte} (hold : old.length = 128) (hnew : new.length = 128) (m : BitVec 4) {b : Nat}
    (hb : b < 128) : (mergeSectors old new m).getD b 0 = if m.getLsbD (b / 32) then new.getD b 0 else old.getD b 0 := by
  have hlen : ∀ i, i < 4 → (slice (if m.getLsbD i then new else old) (32 * i) 32).length = 32 := fun i hi =>
    slice_length (by split <;> omega)
  obtain ⟨-, hget⟩ := getD_flatMap_blocks hlen
  rw [mergeSectors, hget b (by omega), slice_getD (by omega), show 32 * (b / 32) + b % 32 = b by omega]
  split <;> rfl

theorem dramPoison_getLsbD (m : MemSys) (n : Nat) {i : Nat} (hi : i < 4) : (dramPoison m n).getLsbD i = m.poison.contains (4 * n + i) := by
  have hbits : ∀ b : Fin 4 → Bool, ∀ i : Fin 4,
      (BitVec.ofNat 4 (((List.finRange 4).map fun i => if b i then 2 ^ i.val else 0).sum)).getLsbD i = b i := by decide
  exact hbits (fun i => m.poison.contains (4 * n + i)) ⟨i, hi⟩

/-- What the first `k` sectors of a line written to DRAM come to: the bytes and the poison of those that the mask names. -/
structure SectorsPut (m t : MemSys) (n k : Nat) (mask : BitVec 4) (d : List Byte) (p : BitVec 4) : Prop where
  wf : t.dram.wf = true
  cellar : t.cellar = m.cellar
  bridge : t.bridge = m.bridge
  get : ∀ a, t.dram.get a =
    if 128 * n ≤ a ∧ a < 128 * n + 32 * k ∧ mask.getLsbD ((a - 128 * n) / 32) = true then d.getD (a - 128 * n) 0 else m.dram.get a
  poison : ∀ j, t.poison.contains j =
    if 4 * n ≤ j ∧ j < 4 * n + k ∧ mask.getLsbD (j - 4 * n) = true then p.getLsbD (j - 4 * n) else m.poison.contains j

/-- Writing the sectors one after another. -/
def putSectors (m : MemSys) (n k : Nat) (mask : BitVec 4) (d : List Byte) (p : BitVec 4) : MemSys :=
  (List.range k).foldl (fun m i => if mask.getLsbD i then dramSector m n i d (p.getLsbD i) else m) m

theorem dramSector_poison (m : MemSys) (n i : Nat) (d : List Byte) (p : Bool) (j : Nat) :
    (dramSector m n i d p).poison.contains j = if j = 4 * n + i then p else m.poison.contains j := by
  unfold dramSector
  cases p <;> by_cases hj : j = 4 * n + i <;> by_cases hm : 4 * n + i ∈ m.poison <;> simp [hj, hm]

theorem dramSector_get {m : MemSys} (h : m.dram.wf = true) {d : List Byte} (hd : d.length = 128) (n : Nat) {i : Nat} (hi : i < 4)
    (p : Bool) (a : Nat) : (dramSector m n i d p).dram.get a =
      if 128 * n + 32 * i ≤ a ∧ a < 128 * n + 32 * i + 32 then d.getD (a - 128 * n) 0 else m.dram.get a := by
  rw [dramSector, Mem.get_write h, slice_length (by omega)]
  split
  · rw [slice_getD (by omega), show 32 * i + (a - (128 * n + 32 * i)) = a - 128 * n by omega]
  · rfl

theorem putSectors_spec {m : MemSys} (h : m.dram.wf = true) {d : List Byte} (hd : d.length = 128) (n : Nat) (mask : BitVec 4)
    (p : BitVec 4) : ∀ {k : Nat}, k ≤ 4 → SectorsPut m (putSectors m n k mask d p) n k mask d p
  | 0, _ => ⟨h, rfl, rfl, fun a => (if_neg (by omega)).symm, fun j => (if_neg (by omega)).symm⟩
  | k + 1, hk => by
    have ih := putSectors_spec h hd n mask p (k := k) (by omega)
    have hstep : putSectors m n (k + 1) mask d p =
        if mask.getLsbD k then dramSector (putSectors m n k mask d p) n k d (p.getLsbD k) else putSectors m n k mask d p := by
      rw [putSectors, List.range_succ, List.foldl_append]
      rfl
    rw [hstep]
    cases hbit : mask.getLsbD k with
    | false =>
      refine ⟨ih.wf, ih.cellar, ih.bridge, fun a => (ih.get a).trans ?_, fun j => (ih.poison j).trans ?_⟩
      · refine if_congr ⟨fun ⟨h1, h2, h3⟩ => ⟨h1, by omega, h3⟩, fun ⟨h1, h2, h3⟩ => ⟨h1, ?_, h3⟩⟩ rfl rfl
        by_contra hlt
        rw [show (a - 128 * n) / 32 = k by omega, hbit] at h3
        exact Bool.false_ne_true h3
      · refine if_congr ⟨fun ⟨h1, h2, h3⟩ => ⟨h1, by omega, h3⟩, fun ⟨h1, h2, h3⟩ => ⟨h1, ?_, h3⟩⟩ rfl rfl
        by_contra hlt
        rw [show j - 4 * n = k by omega, hbit] at h3
        exact Bool.false_ne_true h3
    | true =>
      refine ⟨Mem.wf_write ih.wf _ _, ih.cellar, ih.bridge, fun a => (dramSector_get ih.wf hd n (by omega) _ a).trans ?_,
        fun j => (dramSector_poison _ n k d _ j).trans ?_⟩
      · by_cases ha : 128 * n + 32 * k ≤ a ∧ a < 128 * n + 32 * k + 32
        · rw [if_pos ha, if_pos ⟨by omega, by omega, by rw [show (a - 128 * n) / 32 = k by omega, hbit]⟩]
        · rw [if_neg ha, ih.get a]
          exact if_congr ⟨fun ⟨h1, h2, h3⟩ => ⟨h1, by omega, h3⟩, fun ⟨h1, h2, h3⟩ => ⟨h1, by omega, h3⟩⟩ rfl rfl
      · by_cases hj : j = 4 * n + k
        · rw [if_pos hj, if_pos ⟨by omega, by omega, by rw [show j - 4 * n = k by omega, hbit]⟩, show j - 4 * n = k by omega]
        · rw [if_neg hj, ih.poison j]
          exact if_congr ⟨fun ⟨h1, h2, h3⟩ => ⟨h1, by omega, h3⟩, fun ⟨h1, h2, h3⟩ => ⟨h1, by omega, h3⟩⟩ rfl rfl

/-! ### The line as its home holds it -/

theorem cell_modCell (s : State) (l m : LineId) {f : CellLine → CellLine} (hf : ∀ x, (f x).line = x.line) :
    (s.modCell l f).cell m = if m = l then (s.cell l).map f else s.cell m := by
  have hfind : ∀ c : List CellLine, (c.map fun x => if x.line == l then f x else x).find? (fun x => x.line == m) =
      if m = l then (c.find? fun x => x.line == l).map f else c.find? fun x => x.line == m := by
    intro c
    induction c with
    | nil => exact (ite_self _).symm
    | cons x c ih =>
      have hline : (if x.line == l then f x else x).line = x.line := by
        split
        · exact hf x
        · rfl
      rw [List.map_cons, List.find?_cons, hline, ih, List.find?_cons, List.find?_cons]
      by_cases hm : m = l
      · subst hm
        cases hx : x.line == m <;> simp
      · cases hx : x.line == m
        · simp only [if_neg hm]
        · have hne : (x.line == l) = false := by
            rw [eq_of_beq hx]
            exact beq_eq_false_iff_ne.mpr hm
          simp only [if_neg hm, hne, Bool.false_eq_true, if_false]
  exact hfind s.mem.cellar

theorem below_dev_congr {s t : State} {n : Nat} (hget : ∀ a, 128 * n ≤ a → a < 128 * n + 128 → t.mem.dram.get a = s.mem.dram.get a)
    (hpoison : ∀ i, i < 4 → t.mem.poison.contains (4 * n + i) = s.mem.poison.contains (4 * n + i)) :
    t.below (.dev n) = s.below (.dev n) := by
  refine Prod.ext (Mem.read_congr (Nat.le_refl _) hget) (BitVec.eq_of_getLsbD_eq fun i hi => ?_)
  exact (dramPoison_getLsbD t.mem n hi).trans ((hpoison i hi).trans (dramPoison_getLsbD s.mem n hi).symm)

/-- R178: sectors written to a line of DRAM that the cellar does not hold. -/
theorem homeData_putBelow_dev {s : State} (h : s.mem.dram.wf = true) {d : List Byte} (hd : d.length = 128) (n : Nat) (mask p : BitVec 4)
    (hcell : s.cell (.dev n) = none) :
    (∀ m, m ≠ .dev n → (s.putBelow (.dev n) mask d p).homeData m = s.homeData m) ∧
    (∀ b, b < 128 → ((s.putBelow (.dev n) mask d p).homeData (.dev n)).1.getD b 0 =
      if mask.getLsbD (b / 32) then d.getD b 0 else (s.homeData (.dev n)).1.getD b 0) ∧
    ∀ i, i < 4 → ((s.putBelow (.dev n) mask d p).homeData (.dev n)).2.getLsbD i =
      if mask.getLsbD i then p.getLsbD i else (s.homeData (.dev n)).2.getLsbD i := by
  have hput : SectorsPut s.mem (s.putBelow (.dev n) mask d p).mem n 4 mask d p := putSectors_spec h hd n mask p (Nat.le_refl 4)
  generalize s.putBelow (.dev n) mask d p = t at hput ⊢
  have hcells : ∀ m, t.cell m = s.cell m := fun m => congrArg (fun c : List CellLine => c.find? fun x : CellLine => x.line == m) hput.cellar
  have hhere : s.homeData (.dev n) = s.below (.dev n) := by rw [State.homeData, hcell]
  have hthere : t.homeData (.dev n) = t.below (.dev n) := by rw [State.homeData, hcells, hcell]
  refine ⟨fun m hm => ?_, fun b hb => ?_, fun i hi => ?_⟩
  · have hbelow : t.below m = s.below m := by
      cases m with
      | host k => simp only [State.below, hput.bridge]
      | dev k =>
        have hk : k ≠ n := fun e => hm (congrArg LineId.dev e)
        refine below_dev_congr (fun a h1 h2 => ?_) fun i hi => ?_
        · exact (hput.get a).trans (if_neg fun ⟨h3, h4, _⟩ => hk (by omega))
        · exact (hput.poison _).trans (if_neg fun ⟨h3, h4, _⟩ => hk (by omega))
    rw [State.homeData, State.homeData, hcells m, hbelow]
  · rw [hthere, hhere]
    refine (Mem.read_get _ _ _ _ hb).trans ((hput.get _).trans ?_)
    rw [show 128 * n + b - 128 * n = b by omega]
    refine Eq.trans (if_congr ⟨fun ⟨_, _, h3⟩ => h3, fun h3 => ⟨by omega, by omega, h3⟩⟩ rfl rfl) ?_
    exact congrArg _ (Mem.read_get _ _ _ _ hb).symm
  · rw [hthere, hhere]
    refine (dramPoison_getLsbD _ n hi).trans ((hput.poison _).trans ?_)
    rw [show 4 * n + i - 4 * n = i by omega]
    refine Eq.trans (if_congr ⟨fun ⟨_, _, h3⟩ => h3, fun h3 => ⟨by omega, by omega, h3⟩⟩ rfl rfl) ?_
    exact congrArg _ (dramPoison_getLsbD _ n hi).symm

/-- What a write at the home makes of the cellar's copy. -/
def patchCell (stamp : Nat) (mask : BitVec 4) (d : List Byte) (p : BitVec 4) (x : CellLine) : CellLine :=
  { x with
    data := mergeSectors x.data d mask
    dirty := x.dirty ||| mask
    poison := (x.poison &&& ~~~mask) ||| (p &&& mask)
    used := stamp
    rc := none }

theorem homePatch_of_cell {s : State} {l : LineId} {mask : BitVec 4} (hmask : mask ≠ 0) {c : CellLine} (hcell : s.cell l = some c)
    (d : List Byte) (p : BitVec 4) : s.homePatch l mask d p = (s.modCell l (patchCell s.mem.stamp mask d p)).nextUse := by
  rw [State.homePatch, if_neg hmask, hcell]
  rfl

theorem homePatch_of_no_cell {s : State} {l : LineId} {mask : BitVec 4} (hmask : mask ≠ 0) (hcell : s.cell l = none)
    (d : List Byte) (p : BitVec 4) : s.homePatch l mask d p = s.putBelow l mask d p := by
  rw [State.homePatch, if_neg hmask, hcell]
  rfl

/-- R217: sectors written into the copy of the cellar. -/
theorem homeData_patch_cell {s : State} {l : LineId} {c : CellLine} (hcell : s.cell l = some c) (hc : c.data.length = 128)
    {d : List Byte} (hd : d.length = 128) (mask p : BitVec 4) :
    (∀ m, m ≠ l → ((s.modCell l (patchCell s.mem.stamp mask d p)).nextUse).homeData m = s.homeData m) ∧
    (∀ b, b < 128 → (((s.modCell l (patchCell s.mem.stamp mask d p)).nextUse).homeData l).1.getD b 0 =
      if mask.getLsbD (b / 32) then d.getD b 0 else (s.homeData l).1.getD b 0) ∧
    ∀ i, i < 4 → (((s.modCell l (patchCell s.mem.stamp mask d p)).nextUse).homeData l).2.getLsbD i =
      if mask.getLsbD i then p.getLsbD i else (s.homeData l).2.getLsbD i := by
  have hcells : ∀ m, ((s.modCell l (patchCell s.mem.stamp mask d p)).nextUse).cell m =
      if m = l then (s.cell l).map (patchCell s.mem.stamp mask d p) else s.cell m := fun m => cell_modCell s l m fun _ => rfl
  have hbelow : ∀ m, ((s.modCell l (patchCell s.mem.stamp mask d p)).nextUse).below m = s.below m := fun m => by cases m <;> rfl
  have hthere : ((s.modCell l (patchCell s.mem.stamp mask d p)).nextUse).homeData l =
      ((patchCell s.mem.stamp mask d p c).data, (patchCell s.mem.stamp mask d p c).poison) := by
    rw [State.homeData, hcells, if_pos rfl, hcell]
    rfl
  have hhere : s.homeData l = (c.data, c.poison) := by rw [State.homeData, hcell]
  refine ⟨fun m hm => ?_, fun b hb => ?_, fun i hi => ?_⟩
  · rw [State.homeData, State.homeData, hcells m, if_neg hm, hbelow]
  · rw [hthere, hhere]
    exact mergeSectors_getD hc hd mask hb
  · rw [hthere, hhere]
    simp only [patchCell, BitVec.getLsbD_or, BitVec.getLsbD_and, BitVec.getLsbD_not, hi, decide_true, Bool.true_and]
    cases mask.getLsbD i <;> simp

/-! ### Registers that are constants -/

theorem setBit7_self (p : BitVec 7) (b : Bool) : setBit7 p 7 b = p := if_pos rfl

theorem Warp.modLane_id {w : Warp} {i : Nat} {f : Lane → Lane} (h : ∀ l, f l = l) : w.modLane i f = w := by
  have hid : f = id := funext h
  rw [hid, Warp.modLane, List.modify_id]

theorem Warp.put_vz (w : Warp) (l : Nat) (x : DWord) : w.put l (.v 255) x = w := Warp.modLane_id fun _ => rfl

theorem Warp.put_pt (w : Warp) (l : Nat) (x : DWord) : w.put l (.p 7) x = w := Warp.modLane_id fun q => by
  rw [Lane.setP, setBit7_self]

theorem Warp.put_ct (w : Warp) (l : Nat) (x : DWord) : w.put l (.c 7) x = w := by
  rw [Warp.put, setBit7_self]

end Sys2Proof.Machine

open Sys2Proof Sys2Proof.Machine

/-- Settles O55: by the laws of writes, and by induction on the cells of the two memories. -/
theorem memoryBytes : Obligations.MemoryBytes := by
  unfold Obligations.MemoryBytes
  exact ⟨fun m a d b hm => ⟨Mem.wf_write hm a d, Mem.get_write hm a d b⟩, fun m n hm hn hget => Mem.ext_of_wfFrom hm hn hget⟩

/-- Settles O57: a write goes into the cellar's copy where there is one, else to DRAM. -/
theorem homeWrites : Obligations.HomeWrites := by
  unfold Obligations.HomeWrites
  intro s l mask d p hform hd hlen hwhere
  by_cases hmask : mask = 0
  · have hnothing : s.homePatch l mask d p = s := if_pos hmask
    rw [hnothing]
    subst hmask
    exact ⟨fun _ _ => rfl, fun b _ => by simp, fun i _ => by simp⟩
  · cases hcell : s.cell l with
    | some c =>
      have hc : c.data.length = 128 := by simpa only [State.homeData, hcell] using hlen
      rw [homePatch_of_cell hmask hcell]
      exact homeData_patch_cell hcell hc hd mask p
    | none =>
      rw [homePatch_of_no_cell hmask hcell]
      obtain hsome | hdev := hwhere
      · rw [hcell] at hsome
        cases hsome
      · cases l with
        | host n => cases hdev
        | dev n => exact homeData_putBelow_dev hform.1 hd n mask p hcell

/-- Settles O52: a write to a constant register leaves the warp as it was. -/
theorem constantRegisters : Obligations.ConstantRegisters := by
  unfold Obligations.ConstantRegisters
  refine ⟨fun w l => ⟨rfl, rfl, rfl⟩, fun w l x m k => ?vz, fun w l x m k => ?pt, fun w l x m k => ?ct⟩
  case vz => rw [Warp.put_vz]
  case pt => rw [Warp.put_pt]
  case ct => rw [Warp.put_ct]

end

