-- ==== Sys2Proof/Proofs/DecodingResetAndPrivilege.lean ====
section
/-! PROVED FACTS. Words written out, the state after reset, and requests that are not admitted (O47, O59, O60). -/

namespace Sys2Proof.Machine

/-! ### Requests that are not admitted -/

theorem request_of_noPriv {s : State} {p : Packet} {admin : Bool} (hready : s.boot.st = .ready) (hmay : s.mayAsk p admin = false)
    (ok : Bool) (f : State) : s.request p admin ok f = s.answer p nopriv 0 := by
  simp [State.request, hready, hmay]

theorem request_of_notReady {s : State} (hready : s.boot.st ≠ .ready) (p : Packet) (admin ok : Bool) (f : State) :
    s.request p admin ok f = s.answer p refused 0 :=
  if_pos (bne_iff_ne.mpr hready)

theorem mayAsk_admin {s : State} {p : Packet} (h : p.iface ≠ 8) : s.mayAsk p true = false := by
  simp [State.mayAsk, h]

theorem mayAsk_of_not_owner {s : State} {p : Packet} {c : Ctx} (h : p.iface ≠ 8) (hctx : s.ctx (pktCtx p) = some c)
    (howner : p.iface ≠ c.owner) : s.mayAsk p false = false := by
  simp [State.mayAsk, h, hctx, Ne.symm howner]

/-- `i` is the request of packet `p`, which comes to `f` once it is admitted. -/
def AsksFor (s : State) (p : Packet) (admin : Bool) (i : Instr) : Prop := ∃ ok f, exec i s = .next (s.request p admin ok f)

theorem AsksFor.noPriv {s : State} {p : Packet} {admin : Bool} {i : Instr} (h : AsksFor s p admin i) (hready : s.boot.st = .ready)
    (hmay : s.mayAsk p admin = false) : exec i s = .next (s.answer p nopriv 0) := by
  obtain ⟨ok, f, hexec⟩ := h
  rw [hexec, request_of_noPriv hready hmay]

theorem AsksFor.notReady {s : State} {p : Packet} {admin : Bool} {i : Instr} (h : AsksFor s p admin i) (hready : s.boot.st ≠ .ready) :
    exec i s = .next (s.answer p refused 0) := by
  obtain ⟨ok, f, hexec⟩ := h
  rw [hexec, request_of_notReady hready]

theorem asksFor_admin (s : State) (p : Packet) : ∀ i ∈ [Instr.grant p, .stop p, .faultreplyRetry p, .faultreplyDeliver p,
    .faultreplyAbort p, .faultreplyRefused p, .ctxdesc p, .ncrange p, .dedicate p, .domain p, .pasidGrant p, .pasidRevoke p,
    .qbindBind p, .qbindUnbind p, .ringcfg p], AsksFor s p true i := by
  simp only [List.forall_mem_cons, List.not_mem_nil, false_implies, implies_true, and_true]
  exact ⟨⟨_, _, rfl⟩, ⟨_, _, rfl⟩, ⟨_, _, rfl⟩, ⟨_, _, rfl⟩, ⟨_, _, rfl⟩, ⟨_, _, rfl⟩, ⟨_, _, rfl⟩, ⟨_, _, rfl⟩, ⟨_, _, rfl⟩,
    ⟨_, _, rfl⟩, ⟨_, _, rfl⟩, ⟨_, _, rfl⟩, ⟨_, _, rfl⟩, ⟨_, _, rfl⟩, ⟨_, _, rfl⟩⟩

theorem asksFor_owner (s : State) (p : Packet) :
    ∀ i ∈ [Instr.tabledesc p, .group p, .evctrSet p, .evctrAdd p], AsksFor s p false i := by
  simp only [List.forall_mem_cons, List.not_mem_nil, false_implies, implies_true, and_true]
  exact ⟨⟨_, _, rfl⟩, ⟨_, _, rfl⟩, ⟨_, _, rfl⟩, ⟨_, _, rfl⟩⟩

theorem asksFor_qrestart (s : State) (p : Packet) : AsksFor s p false (.qrestart p) := ⟨_, _, rfl⟩

theorem asksFor_tlbinv {s : State} {p : Packet} (h : s.slowOf p = none) : AsksFor s p false (.tlbinv p) := by
  have hexec : exec (.tlbinv p) s = execTlbinv p s := rfl
  rw [execTlbinv, h] at hexec
  exact ⟨_, _, hexec⟩

theorem asksFor_destroy {s : State} {p : Packet} (h : s.slowOf p = none) : AsksFor s p true (.destroy p) := by
  have hexec : exec (.destroy p) s = execDestroy p s := rfl
  rw [execDestroy, h] at hexec
  exact ⟨_, _, hexec⟩

theorem asksFor_clock {s : State} {p : Packet} (h : s.slowOf p = none) : AsksFor s p true (.clock p) := by
  have hexec : exec (.clock p) s = execClock p s := rfl
  rw [execClock, h] at hexec
  exact ⟨_, _, hexec⟩

theorem asksFor_slow {s : State} {p : Packet} (h : s.slowOf p = none) : ∀ i ∈ [Instr.destroy p, .clock p], AsksFor s p true i := by
  simp only [List.forall_mem_cons, List.not_mem_nil, false_implies, implies_true, and_true]
  exact ⟨asksFor_destroy h, asksFor_clock h⟩

end Sys2Proof.Machine

open Sys2Proof Sys2Proof.Machine

/-- Settles O47: each word is taken apart by computation. -/
theorem decodeWords : Obligations.DecodeWords := by
  unfold Obligations.DecodeWords
  decide +kernel

/-- Settles O59: by computation on the state that reset leaves. -/
theorem resetHolds : Obligations.ResetHolds := by
  unfold Obligations.ResetHolds
  refine ⟨rfl, fun d hd => ?dies, fun k hk => ?cores, ?boot, rfl, rfl, rfl, fun t ht => absurd ht List.not_mem_nil, fun k hk => ?bufs⟩
  case dies => interval_cases d <;> rfl
  case boot => exact fun h => nomatch h
  case cores => rw [List.eq_of_mem_replicate hk]; rfl
  case bufs => rw [List.eq_of_mem_replicate hk]; rfl

/-- Settles O60: each of the requests is one that `State.request` admits or not. -/
theorem adminOnly : Obligations.AdminOnly := by
  unfold Obligations.AdminOnly
  refine ⟨fun s p i hready hadmin hi => ?admin, fun s p i hready hadmin hslow hi => ?slow,
    fun s p c i hready hctx hadmin howner hi => ?owner, fun s p i hready hslow => ?notReady, fun s off v => rfl⟩
  case admin => exact (asksFor_admin s p i hi).noPriv hready (mayAsk_admin hadmin)
  case slow => exact (asksFor_slow hslow i hi).noPriv hready (mayAsk_admin hadmin)
  case owner => exact (asksFor_owner s p i hi).noPriv hready (mayAsk_of_not_owner hadmin hctx howner)
  case notReady =>
    have hadmin := fun i hi => (asksFor_admin s p i hi).notReady hready
    have howner := fun i hi => (asksFor_owner s p i hi).notReady hready
    have hlater := fun i hi => (asksFor_slow hslow i hi).notReady hready
    have hrestart := (asksFor_qrestart s p).notReady hready
    have htlb := (asksFor_tlbinv hslow).notReady hready
    revert i
    simp only [List.forall_mem_cons, List.not_mem_nil, false_implies, implies_true, and_true] at hadmin howner hlater ⊢
    simp only [hadmin, howner, hlater, hrestart, htlb, and_self]

end

