-- ==== Sys2Proof/Proofs/StepRunsWord.lean ====
section
/-! PROVED FACTS. What a step executes, and the instruction cache (O48). -/

namespace Sys2Proof.Machine

/-! ### Steps of the module's own -/

theorem step_own {s : State} (hdue : s.due = none) (hagenda : s.agenda = []) (htick : s.gtime % 256 + min s.tempo 255 < 256) :
    step s = runOwn (s.pass (min s.tempo 255)) := by
  simp only [step, hdue, hagenda, if_neg (Nat.not_le.mpr htick), ge_iff_le]

theorem step_named {s : State} {dt : Nat} {i : Instr} {l : List (Nat × Instr)} (hdue : s.due = none) (hagenda : s.agenda = (dt, i) :: l)
    (htick : s.gtime % 256 + dt < 256) (hi : i.info = none) : step s = exec i ((({ s with agenda := l } : State).pass dt).stir i) := by
  simp only [step, hdue, hagenda, if_neg (Nat.not_le.mpr htick), ge_iff_le, runNamed, hi, Option.isSome_none, Bool.false_eq_true, if_false]

theorem step_due {s : State} {i : Instr} (hdue : s.due = some i) : step s = exec i (s.stir i) := by
  simp only [step, hdue]

/-- R33, R95: the run in execution goes on where its word can issue. -/
theorem runOwn_goes {t : State} {w : Warp} {r : Run} (hrun : t.inRun = some (w, r)) (hissue : t.canIssue w = true)
    (hslot : t.slotFree w.core r.islot = true) : runOwn t = runFetched w r t.noteReady := by
  have hgoing : t.going = some (w, r) := by simp [State.going, hrun, hissue, hslot]
  rw [runOwn, hgoing]

/-! ### Fetches through the instruction cache -/

theorem fetch_error {t : State} {w : Warp} {pc : Word} {a : Nat} {c : Code} (ha : t.codeAddr (t.gridOf w.grid) pc = some a)
    (hbytes : t.fetchBytes (w.core / 64) (t.gridOf w.grid).ctx a = .error c) : t.fetch w pc = .error c := by
  simp only [State.fetch, ha, hbytes]

theorem fetch_ok {t : State} {w : Warp} {pc : Word} {a : Nat} {b : List Byte} (ha : t.codeAddr (t.gridOf w.grid) pc = some a)
    (hbytes : t.fetchBytes (w.core / 64) (t.gridOf w.grid).ctx a = .ok b) :
    t.fetch w pc = .ok (t.throughCache w.core (t.gridOf w.grid).ctx a b) := by
  simp only [State.fetch, ha, hbytes]

/-- R13: a cache that holds nothing else gives what memory holds. -/
theorem throughCache_same {t : State} {core ctx va : Nat} {b : List Byte}
    (h : t.cached core ctx va = none ∨ t.cached core ctx va = some b) : t.throughCache core ctx va b = b := by
  unfold State.throughCache
  obtain h | h := h <;> rw [h]
  exact if_pos rfl

theorem throughCache_or {t : State} {core ctx va : Nat} {c : List Byte} (h : t.cached core ctx va = some c) (b : List Byte) :
    t.throughCache core ctx va b = b ∨ t.throughCache core ctx va b = c := by
  unfold State.throughCache
  rw [h]
  dsimp only
  split
  · exact .inl rfl
  · split
    · exact .inr rfl
    · exact .inl rfl

/-- The entries of an instruction cache after a fetch. -/
def icacheWith (ic : List (Nat × Nat × List Byte)) (ctx va : Nat) (b : List Byte) : List (Nat × Nat × List Byte) :=
  let keep := ic.filter fun e => !(e.1 == ctx && e.2.1 == va)
  (if keep.length < 10922 then keep else keep.drop 1) ++ [(ctx, va, b)]

theorem find_icacheWith (ic : List (Nat × Nat × List Byte)) (ctx va : Nat) (b : List Byte) :
    (icacheWith ic ctx va b).find? (fun e => e.1 == ctx && e.2.1 == va) = some (ctx, va, b) := by
  have hgone : ∀ e ∈ (ic.filter fun e => !(e.1 == ctx && e.2.1 == va)), ¬ (e.1 == ctx && e.2.1 == va) = true := fun e he =>
    Bool.not_eq_true _ ▸ (Bool.not_eq_true' _).mp (List.mem_filter.mp he).2
  have hnone : (if (ic.filter fun e => !(e.1 == ctx && e.2.1 == va)).length < 10922 then
      ic.filter fun e => !(e.1 == ctx && e.2.1 == va)
    else (ic.filter fun e => !(e.1 == ctx && e.2.1 == va)).drop 1).find? (fun e => e.1 == ctx && e.2.1 == va) = none := by
    split
    · exact List.find?_eq_none.mpr hgone
    · exact List.find?_eq_none.mpr fun e he => hgone e (List.mem_of_mem_drop he)
  rw [icacheWith, List.find?_append, hnone, Option.none_or]
  exact List.find?_cons_of_pos (by simp)

theorem core_modCore_self {s : State} {c : Nat} (h : c < s.cores.length) (f : Core → Core) : (s.modCore c f).core c = f (s.core c) := by
  simp only [State.core, State.modCore, List.getD_eq_getElem?_getD, List.getElem?_modify_eq, List.getElem?_eq_getElem h]
  rfl

/-- R13: a word that has been fetched is in the instruction cache. -/
theorem cached_cacheWord {s : State} {core : Nat} (h : core < s.cores.length) (ctx va : Nat) (b : List Byte) :
    (s.cacheWord core ctx va b).cached core ctx va = some b := by
  unfold State.cacheWord
  split
  · assumption
  · have hcore : (s.modCore core fun k => { k with icache := icacheWith k.icache ctx va b }).core core =
        { s.core core with icache := icacheWith (s.core core).icache ctx va b } := core_modCore_self h _
    show ((((s.modCore core fun k => { k with icache := icacheWith k.icache ctx va b }).core core).icache.find? _).map _) = some b
    rw [hcore]
    exact congrArg (Option.map _) (find_icacheWith ..)

theorem fetched_eq {t : State} {w : Warp} {pc : Word} {a : Nat} (ha : t.codeAddr (t.gridOf w.grid) pc = some a) (b : List Byte) :
    t.fetched w pc b = t.cacheWord w.core (t.gridOf w.grid).ctx a b := by
  simp only [State.fetched, ha]

theorem cacheWord_warps_mem (s : State) (core ctx va : Nat) (b : List Byte) :
    (s.cacheWord core ctx va b).warps = s.warps ∧ (s.cacheWord core ctx va b).mem = s.mem := by
  unfold State.cacheWord
  split
  · exact ⟨rfl, rfl⟩
  · exact ⟨rfl, rfl⟩

end Sys2Proof.Machine

open Sys2Proof Sys2Proof.Machine

/-- Settles O48: by what `step` takes next, and by the cases of the instruction cache. -/
theorem stepRunsWord : Obligations.StepRunsWord := by
  unfold Obligations.StepRunsWord
  refine ⟨fun s t w r hdue hagenda htick ht hrun hissue hslot => ?own, fun t w pc a ha => ?fetch,
    fun s dt i l hdue hagenda htick hi => step_named hdue hagenda htick hi, fun s i hdue => step_due hdue⟩
  case own =>
    subst ht
    have hstep := (step_own hdue hagenda htick).trans (runOwn_goes hrun hissue hslot)
    refine ⟨fun b i hfetch hdec => ?_, fun b j hfetch hdec => ?_, fun c hfetch => ?_⟩
    · simp only [hstep, runFetched, hfetch, hdec]
    · simp only [hstep, runFetched, hfetch, hdec] <;> rfl
    · simp only [hstep, runFetched, hfetch]
  case fetch =>
    refine ⟨fun c hbytes => fetch_error ha hbytes, fun b hbytes => ⟨fun hsame => ?_, fun c hcached => ?_, ?_⟩⟩
    · rw [fetch_ok ha hbytes, throughCache_same hsame]
    · rw [fetch_ok ha hbytes]
      exact (throughCache_or hcached b).imp (congrArg _) (congrArg _)
    · rw [fetched_eq ha]
      obtain ⟨hwarps, hmem⟩ := cacheWord_warps_mem t w.core (t.gridOf w.grid).ctx a b
      exact ⟨hwarps, hmem, fun hcore => cached_cacheWord hcore _ _ _⟩

end

