-- ==== Sys2Proof/Proofs/NoActiveLane.lean ====
section
/-! PROVED FACTS. Words without an active lane (O51). -/

namespace Sys2Proof.Machine

/-! ### A word without an active lane -/

/-- What a word without an active lane makes of its warp before the run goes on: time for its latches, and its STALL. -/
def Warp.skipped (s : State) (c : Sys2Proof.Sched) (w : Warp) : Warp := s.stallUntil c (w.tick (stallOf c))

theorem Warp.skipped_same (s : State) (c : Sys2Proof.Sched) (w : Warp) : SameWarp w (w.skipped s c) := by
  refine ⟨⟨rfl, rfl, rfl, rfl, rfl, rfl, rfl⟩, rfl, rfl, rfl, rfl, rfl, rfl, rfl, rfl, rfl, rfl, fun l => ?_⟩
  exact ⟨rfl, rfl, rfl, rfl, rfl, rfl, rfl, rfl, rfl, rfl, rfl⟩

theorem Warp.skipped_get (s : State) (c : Sys2Proof.Sched) (w : Warp) (l : Nat) (k : RegKey) : (w.skipped s c).get l k = w.get l k :=
  Warp.get_congr rfl rfl rfl l k

theorem drawn_sameModule (s : State) (w : Warp) (keys : List RegKey) : SameModule s (s.drawn w keys) := by
  unfold State.drawn
  split <;> exact ⟨rfl, rfl, rfl, rfl, rfl, rfl, rfl, rfl, rfl, rfl, rfl, rfl, rfl, rfl, rfl⟩

theorem drawn_warps (s : State) (w : Warp) (keys : List RegKey) : (s.drawn w keys).warps = s.warps := by
  unfold State.drawn
  split <;> rfl

/-- R33: before its 24th word a run without END goes on. -/
theorem advance_goes {s : State} {c k : Nat} {w : Warp} {r : Run} (h : s.warpAt c k = some w) (hr : w.run = some r) (hn : r.n < 23)
    (hlanes : r.lanes ≠ []) (v : Warp) (hv : (s.advance c k false).warpAt c k = some v) :
    v.run = some { r with pc := r.pc + 1, n := r.n + 1, fenced := false } := by
  have hlast : (r.n + 1 == 24) = false := beq_eq_false_iff_ne.mpr (by omega)
  have hst : Stays fun w : Warp => { w with run := some { r with pc := r.pc + 1, n := r.n + 1, fenced := false } } := fun x => ⟨rfl, rfl⟩
  have hadv : s.advance c k false =
      s.modWarp c k fun w => { w with run := some { r with pc := r.pc + 1, n := r.n + 1, fenced := false } } := by
    simp only [State.advance, h, hr, hlast, List.isEmpty_iff, hlanes, Bool.or_self, Bool.false_eq_true, if_false]
  rw [hadv, State.warpAt_modWarp_self _ _ _ _ hst, h] at hv
  obtain rfl := Option.some.inj hv
  rfl

/-- R42: a word without an active lane: its warp's registers, tokens, results on their way and hold stay, and so does the rest. -/
theorem skipWord_spec {s : State} {w : Warp} {r : Run} (hw : s.warpAt w.core w.slot = some w) (hr : w.run = some r)
    (c : Sys2Proof.Sched) :
    (∀ v, (s.skipWord w c).warpAt w.core w.slot = some v →
      SameWarp w v ∧ v.tok = w.tok ∧ v.pend = w.pend ∧ v.hold = w.hold ∧ (∀ l k, v.get l k = w.get l k) ∧
      (c.fin = false → r.n < 23 → r.lanes ≠ [] →
        ∃ q, v.run = some q ∧ q.n = r.n + 1 ∧ q.pc = r.pc + 1 ∧ q.lanes = r.lanes)) ∧
    (∀ i k, ¬(i = w.core ∧ k = w.slot) → (s.skipWord w c).warpAt i k = s.warpAt i k) ∧
    (Stands s w → (∃ v, (s.skipWord w c).warpAt w.core w.slot = some v) ∧ SameModule s (s.skipWord w c)) := by
  let s1 : State := (s.count w.core 2 1).occupy w
  let s2 : State := s1.modWarp w.core w.slot (Warp.skipped s1 c)
  have hstays : Stays (Warp.skipped s1 c) := fun _ => ⟨rfl, rfl⟩
  have hat : s2.warpAt w.core w.slot = some (w.skipped s1 c) := by
    rw [State.warpAt_modWarp_self _ _ _ _ hstays, show s1.warpAt w.core w.slot = some w from hw]
    rfl
  have hrun : (w.skipped s1 c).run = some r := hr
  have hskip : s.skipWord w c = s2.advance w.core w.slot c.fin := rfl
  have hsame := Warp.skipped_same s1 c w
  have hmodule : SameModule s s2 :=
    ((State.sameModule_count s _ _ _).trans (State.sameModule_occupy _ w)).trans (State.sameModule_modWarp s1 _ _ _)
  obtain ⟨hself, hothers, hrest⟩ := State.advance_spec c.fin hat hrun
  rw [hskip]
  refine ⟨fun v hv => ?_, fun i k hik => ?_, fun hstands => ?_⟩
  · obtain ⟨hregs, hsv, -⟩ := hself v hv
    obtain ⟨htok, hpend, hhold⟩ := State.advance_kept c.fin hat hrun v hv
    refine ⟨hsame.trans hsv, htok, hpend, hhold, fun l k => (hregs l k).trans (Warp.skipped_get s1 c w l k), fun hfin hn hlanes => ?_⟩
    rw [hfin] at hv
    exact ⟨_, advance_goes hat hrun hn hlanes v hv, rfl, rfl, rfl⟩
  · rw [hothers i k hik, State.warpAt_modWarp_ne _ _ _ _ _ _ hstays hik]
    rfl
  · have hstands' : Stands s2 (w.skipped s1 c) := by
      obtain ⟨hab, l, hl, hst⟩ := hstands
      exact ⟨hab, l, hsame.threads ▸ hl, hst⟩
    obtain ⟨hthere, hkept⟩ := hrest hstands'
    exact ⟨hthere, hmodule.trans hkept⟩

/-- R42: whatever word the run comes to, it does no more than that without an active lane. -/
theorem exec_of_no_active {i : Instr} {n : WordInfo} {s : State} {w : Warp} {r : Run} (hi : i.info = some n)
    (hrun : s.inRun = some (w, r)) (hact : actsOf n s w r = []) :
    exec i s = .next ((s.drawn w (guardKeys n.ctl.g n.uniform)).skipWord w n.ctl.sch) := by
  obtain ⟨body, more, hexec⟩ | ⟨c, raw, rfl⟩ := exec_word i n hi
  · rw [actsOf] at hact
    rw [hexec]
    simp only [runWordThen, hrun, hact, List.isEmpty_nil, if_true]
  · obtain rfl : infoLane c false = n := Option.some.inj hi
    have hlane : s.actives w c.g false r.lanes = [] := hact
    show runReject c false .illegalOpcode s = _
    simp only [runReject, hrun, hlane, List.isEmpty_nil, if_true]
    rfl

end Sys2Proof.Machine

open Sys2Proof Sys2Proof.Machine

/-- Settles O51: every word without an active lane is skipped, and a skipped word counts in its run and does no more. -/
theorem noActiveLane : Obligations.NoActiveLane := by
  unfold Obligations.NoActiveLane
  intro i n s w r hi hrun hact
  obtain ⟨-, hw, hr⟩ := State.inRun_spec hrun
  have hmodule := drawn_sameModule s w (guardKeys n.ctl.g n.uniform)
  have hwarps : ∀ c k, (s.drawn w (guardKeys n.ctl.g n.uniform)).warpAt c k = s.warpAt c k :=
    State.warpAt_of_warps (drawn_warps ..)
  obtain ⟨hself, hothers, hrest⟩ := skipWord_spec ((hwarps _ _).trans hw) hr n.ctl.sch
  refine ⟨_, exec_of_no_active hi hrun hact, hself, fun c k hck => (hothers c k hck).trans (hwarps c k), fun ⟨hab, hlane⟩ => ?_⟩
  have hgrid : (s.drawn w (guardKeys n.ctl.g n.uniform)).gridOf w.grid = s.gridOf w.grid := by
    rw [State.gridOf, State.gridOf, State.grid, State.grid, hmodule.grids]
  obtain ⟨hthere, hkept⟩ := hrest ⟨hgrid ▸ hab, hlane⟩
  exact ⟨hthere, hmodule.trans hkept⟩

end

