-- ==== Sys2Proof/Proofs/WrappingArithmetic.lean ====
section
/-! PROVED FACTS. What a V register reads after results are written, and 32-bit integers (O53). -/

namespace Sys2Proof.Machine

/-! ### The size of register files -/

/-- The two warps have as many lanes, each with as many V registers. -/
structure SameSize (w v : Warp) : Prop where
  lanes : v.lanes.length = w.lanes.length
  files : ∀ j, (v.lane j).v.length = (w.lane j).v.length

theorem SameSize.refl (w : Warp) : SameSize w w := ⟨rfl, fun _ => rfl⟩

theorem SameSize.trans {u w v : Warp} (h : SameSize u w) (g : SameSize w v) : SameSize u v :=
  ⟨g.lanes.trans h.lanes, fun j => (g.files j).trans (h.files j)⟩

theorem sameSize_foldl {α : Type} {f : Warp → α → Warp} (hf : ∀ w a, SameSize w (f w a)) (l : List α) (w : Warp) :
    SameSize w (l.foldl f w) :=
  List.foldlRecOn l f (motive := SameSize w) (SameSize.refl w) fun v hv a _ => hv.trans (hf v a)

theorem Warp.sameSize_modLane (w : Warp) (i : Nat) {f : Lane → Lane} (hf : ∀ l, (f l).v.length = l.v.length) :
    SameSize w (w.modLane i f) := by
  refine ⟨List.length_modify .., fun j => ?_⟩
  rw [Warp.lane_modLane]
  split
  · exact hf _
  · rfl

theorem Warp.sameSize_put (w : Warp) (l : Nat) (k : RegKey) (x : DWord) : SameSize w (w.put l k x) := by
  cases k with
  | v n =>
    refine w.sameSize_modLane l fun q => ?_
    unfold Lane.setV
    split
    · rfl
    · exact List.length_set
  | s n => exact ⟨rfl, fun _ => rfl⟩
  | p i => exact w.sameSize_modLane l fun q => rfl
  | c i => exact ⟨rfl, fun _ => rfl⟩

theorem Warp.sameSize_useUp (w : Warp) (l : Nat) (k : RegKey) (p : DWord) : SameSize w (w.useUp l k p) :=
  ⟨(w.sameSize_put l k _).lanes, (w.sameSize_put l k _).files⟩

theorem Warp.sameSize_lastUses (w : Warp) (i : WordInfo) (act : List Nat) : SameSize w (w.lastUses i act) := by
  refine sameSize_foldl (fun w r => sameSize_foldl (fun w k => ?_) _ w) _ w
  split
  · exact sameSize_foldl (fun w l => w.sameSize_useUp l k _) _ w
  · exact w.sameSize_useUp 0 k _

theorem Warp.sameSize_view (w : Warp) (fresh : Nat) (keys : List RegKey) : SameSize w (w.view fresh keys) := by
  have hfixed : SameSize w (w.racyFixed fresh keys) := sameSize_foldl (fun w f => w.sameSize_put ..) _ w
  have hpending : ∀ w : Warp, SameSize w (w.racyPending fresh keys) := fun w => by
    refine sameSize_foldl (fun w r => ?_) _ w
    split
    · exact w.sameSize_put ..
    · exact SameSize.refl w
  exact hfixed.trans ((hpending _).trans (sameSize_foldl (fun w h => w.sameSize_put ..) _ _))

/-- R29: active lanes are lanes of the warp. -/
theorem lt_of_mem_actsOf {i : WordInfo} {s : State} {w : Warp} {r : Run} {l : Nat} (h : l ∈ actsOf i s w r) : l < w.lanes.length := by
  have hlt := List.mem_range.mp (List.mem_of_mem_filter h)
  rwa [(w.sameSize_view _ _).lanes] at hlt

/-! ### A V register after writes -/

theorem Warp.get_put_v (w : Warp) {n : Nat} (hn : n ≠ 255) {l : Nat} (hl : l < w.lanes.length) (hsize : n < (w.lane l).v.length)
    (x : DWord) (j : Nat) : (w.put l (.v n) x).get j (.v n) = if j = l then (x.truncate 32 : Word).zeroExtend 64 else w.get j (.v n) := by
  show (((w.modLane l fun q => q.setV n (x.truncate 32)).lane j).getV n).zeroExtend 64 = _
  rw [Warp.lane_modLane]
  by_cases hj : j = l
  · subst hj
    have hset : ((w.lane j).setV n (x.truncate 32)).getV n = x.truncate 32 := by
      simp [Lane.setV, Lane.getV, hn, hsize, List.getD_eq_getElem?_getD]
    rw [if_pos ⟨hl, rfl⟩, if_pos rfl, hset]
  · rw [if_neg fun h => hj h.2.symm, if_neg hj]
    rfl

theorem Warp.get_write_v (w : Warp) {n : Nat} (hn : n ≠ 255) {l : Nat} (hl : l < w.lanes.length) (hsize : n < (w.lane l).v.length)
    (x : DWord) (j : Nat) :
    (w.write ⟨.v n, l, x⟩).get j (.v n) = if j = l then (x.truncate 32 : Word).zeroExtend 64 else w.get j (.v n) :=
  (Warp.get_congr rfl rfl rfl j _).trans (w.get_put_v hn hl hsize x j)

/-- Results written to one V register, a lane each, are what it reads in those lanes. -/
theorem Warp.get_writes_v {n : Nat} (hn : n ≠ 255) (f : Nat → DWord) : ∀ {ls : List Nat} {w : Warp},
    (∀ l ∈ ls, l < w.lanes.length ∧ n < (w.lane l).v.length) → ∀ j,
    (w.writes (ls.map fun l => ⟨.v n, l, f l⟩)).get j (.v n) =
      if j ∈ ls then ((f j).truncate 32 : Word).zeroExtend 64 else w.get j (.v n)
  | [], _, _, _ => (if_neg List.not_mem_nil).symm
  | l :: ls, w, h, j => by
    obtain ⟨hl, hsize⟩ := h l List.mem_cons_self
    have hkept : SameSize w (w.write ⟨.v n, l, f l⟩) := ⟨(w.sameSize_put ..).lanes, (w.sameSize_put ..).files⟩
    have hrest := Warp.get_writes_v hn f (ls := ls) (w := w.write ⟨.v n, l, f l⟩) (fun q hq => by
      rw [hkept.lanes, hkept.files]
      exact h q (List.mem_cons_of_mem _ hq)) j
    refine hrest.trans ?_
    rw [w.get_write_v hn hl hsize]
    by_cases hj : j ∈ ls
    · rw [if_pos hj, if_pos (List.mem_cons_of_mem _ hj)]
    · by_cases hjl : j = l
      · rw [if_neg hj, if_pos hjl, if_pos (hjl ▸ List.mem_cons_self), hjl]
      · rw [if_neg hj, if_neg hjl, if_neg (by simp [hj, hjl])]

/-! ### Integers of 32 bits -/

/-- The value of a 32-bit operand, wrapped, is the operand. -/
theorem ofInt_tyVal {t : Ty} (ht : t = .i32 ∨ t = .n32) (x : DWord) : BitVec.ofInt 32 (tyVal t x) = x.truncate 32 := by
  apply BitVec.eq_of_toNat_eq
  rw [BitVec.toNat_ofInt, BitVec.truncate_eq_setWidth, BitVec.toNat_setWidth]
  obtain rfl | rfl := ht
  · show (sgn 32 x.toNat % ((2 ^ 32 : Nat) : Int)).toNat = _
    unfold sgn
    split <;> omega
  · show (((x.toNat : Nat) : Int) % ((2 ^ 32 : Nat) : Int)).toNat = _
    omega

/-- R114: a wrapped 32-bit result, as the register takes it. -/
theorem truncate_tyRes {t : Ty} (ht : t = .i32 ∨ t = .n32) (x : Int) : (tyRes t false x).truncate 32 = BitVec.ofInt 32 x := by
  have hbits : t.bits = 32 := by obtain rfl | rfl := ht <;> rfl
  apply BitVec.eq_of_toNat_eq
  rw [BitVec.toNat_ofInt, BitVec.truncate_eq_setWidth, BitVec.toNat_setWidth]
  simp only [tyRes, hbits, Bool.false_eq_true, if_false, wrapN, BitVec.toNat_ofNat]
  omega

/-- R86, R114: a 32-bit result for V register `d`, its lanes being lanes of the warp that have the register. -/
theorem regs_of_int2 {i : WordInfo} {o : Int2} {f : Int → Int → Int} {g : Word → Word → Word} {s t : State} {w : Warp} {r : Run}
    {d : BitVec 8} (hfg : ∀ a b, BitVec.ofInt 32 (f a b) = g (BitVec.ofInt 32 a) (BitVec.ofInt 32 b)) (hty : o.ty = .i32 ∨ o.ty = .n32)
    (hsat : o.sat = false) (hdst : o.dst = .v d) (hd : d ≠ 255) (hsize : ∀ l, l < w.lanes.length → d.toNat < (w.lane l).v.length)
    (hw : Writes i s w r (int2 (seenBy i s w r) o f) t) (v : Warp) (hv : t.warpAt w.core w.slot = some v) (l : Nat)
    (hl : l ∈ actsOf i s w r) : v.get l (.v d.toNat) =
      (g (((seenBy i s w r).w.src l o.a o.ty).truncate 32) (((seenBy i s w r).w.src l o.b o.ty).truncate 32) : Word).zeroExtend 64 := by
  have hn : d.toNat ≠ 255 := fun h => hd (BitVec.eq_of_toNat_eq h)
  have h64 : o.ty.is64 = false := by obtain h | h := hty <;> rw [h] <;> rfl
  let val := fun l => (tyRes o.ty false (f (tyVal o.ty ((seenBy i s w r).w.src l o.a o.ty))
    (tyVal o.ty ((seenBy i s w r).w.src l o.b o.ty))))
  have hres : int2 (seenBy i s w r) o f = (actsOf i s w r).map fun l => ⟨.v d.toNat, l, ((val l).truncate 32).zeroExtend 64⟩ := by
    rw [List.map_eq_flatMap]
    simp only [int2, perForm, hdst, Dst.scalar, resultOf, h64, hsat, Bool.false_eq_true, if_false]
    rfl
  have hafter := w.sameSize_lastUses i (actsOf i s w r)
  rw [hw.regs v hv, hres, Warp.after, Warp.get_writes_v hn _ (fun q hq => ?lanes), if_pos hl]
  case lanes =>
    rw [hafter.lanes, hafter.files]
    exact ⟨lt_of_mem_actsOf hq, hsize q (lt_of_mem_actsOf hq)⟩
  have hval : (val l).truncate 32 = g (((seenBy i s w r).w.src l o.a o.ty).truncate 32) (((seenBy i s w r).w.src l o.b o.ty).truncate 32) := by
    rw [truncate_tyRes hty, hfg, ofInt_tyVal hty, ofInt_tyVal hty]
  have hcut : ∀ x : Word, ((x.zeroExtend 64).truncate 32 : Word) = x := fun x => by simp
  rw [hcut, hval]

theorem ofInt_sub (x y : Int) : BitVec.ofInt 32 (x - y) = BitVec.ofInt 32 x - BitVec.ofInt 32 y := by
  rw [Int.sub_eq_add_neg, BitVec.ofInt_add, BitVec.ofInt_neg, BitVec.sub_eq_add_neg]

end Sys2Proof.Machine

open Sys2Proof Sys2Proof.Machine

/-- Settles O53: the words are IADD, ISUB and IMUL of O1, whose results wrap; wrapping commutes with the operations. -/
theorem wrappingArithmetic : Obligations.WrappingArithmetic := by
  unfold Obligations.WrappingArithmetic
  intro c o d s w r hty hsat hdst hd hsize
  have hwords : o.ty.words = 1 := by obtain h | h := hty <;> rw [h] <;> rfl
  have hinfo : ∀ n, infoInt2 c o n o.ty.words = infoInt2 c o n 1 := fun n => by rw [hwords]
  refine ⟨fun hready => ?iadd, fun hready => ?isub, fun hready => ?imul⟩
  case iadd =>
    obtain ⟨t, ht, hw⟩ := aluWord_ready hready fun x => int2 x o fun a b => a + b
    have hexec : exec (.iadd c o) s = aluWord (infoInt2 c o 2 o.ty.words) (fun x => int2 x o fun a b => a + b) s := rfl
    rw [hinfo, ht] at hexec
    exact ⟨t, hexec, regs_of_int2 BitVec.ofInt_add hty hsat hdst hd hsize hw⟩
  case isub =>
    obtain ⟨t, ht, hw⟩ := aluWord_ready hready fun x => int2 x o fun a b => a - b
    have hexec : exec (.isub c o) s = aluWord (infoInt2 c o 2 o.ty.words) (fun x => int2 x o fun a b => a - b) s := rfl
    rw [hinfo, ht] at hexec
    exact ⟨t, hexec, regs_of_int2 ofInt_sub hty hsat hdst hd hsize hw⟩
  case imul =>
    obtain ⟨t, ht, hw⟩ := aluWord_ready hready fun x => int2 x o fun a b => a * b
    have hexec : exec (.imul c o) s = aluWord (infoInt2 c o 4 o.ty.words) (fun x => int2 x o fun a b => a * b) s := rfl
    rw [hinfo, ht] at hexec
    exact ⟨t, hexec, regs_of_int2 BitVec.ofInt_mul hty hsat hdst hd hsize hw⟩

end

