-- ==== Sys2Proof/Proofs/TrapDelivery.lean ====
section
/-! PROVED FACTS. Lanes taken from barriers, and the delivery of a trap (O54). -/

namespace Sys2Proof.Machine

/-! ### Write-backs of nothing -/

theorem Warp.writeBack_uid (w : Warp) (id : Nat) : (w.writeBack id).uid = w.uid := by
  unfold Warp.writeBack
  split
  · rfl
  · rename_i p _
    obtain ⟨huid, -⟩ := (Warp.regsOnly_writes p.writes (w.forget p.writes)).same.name
    exact huid

theorem Warp.foldl_writeBack_uid (ids : List Nat) (w : Warp) : (ids.foldl Warp.writeBack w).uid = w.uid :=
  List.foldlRecOn ids _ (motive := fun v : Warp => v.uid = w.uid) rfl fun v hv id _ => (v.writeBack_uid id).trans hv

/-- The lanes are those of `w`, and the pending instructions of `ids` have nothing to write. -/
structure Quiet (ids : List Nat) (w v : Warp) : Prop where
  lanes : v.lanes = w.lanes
  writes : ∀ q ∈ v.pend, q.id ∈ ids → q.writes = []

theorem Warp.forget_writes {w : Warp} {ws : List RegWrite} {q : Pend} (h : q ∈ (w.forget ws).pend) :
    ∃ p ∈ w.pend, q.id = p.id ∧ q.writes = p.writes := by
  obtain ⟨p, hp, rfl⟩ := List.mem_map.mp h
  refine ⟨p, hp, ?_⟩
  split <;> exact ⟨rfl, rfl⟩

/-- Writing back an instruction that has nothing to write leaves the lanes. -/
theorem Quiet.writeBack {ids : List Nat} {w v : Warp} (h : Quiet ids w v) {id : Nat} (hid : id ∈ ids) :
    Quiet ids w (v.writeBack id) := by
  unfold Warp.writeBack
  split
  · exact h
  · rename_i p hp
    have hpid : p.id = id := by
      have hsome := List.find?_some hp
      simp only [Bool.and_eq_true, beq_iff_eq] at hsome
      exact hsome.1
    have hnone : p.writes = [] := h.writes p (List.mem_of_find?_eq_some hp) (hpid ▸ hid)
    rw [hnone]
    refine ⟨h.lanes, fun q hq hqid => ?_⟩
    obtain ⟨r, hr, rfl⟩ := List.mem_map.mp (List.mem_of_mem_filter hq)
    obtain ⟨e, he, hid', hwrites⟩ := Warp.forget_writes hr
    revert hqid
    split
    · exact fun _ => rfl
    · intro hqid
      exact hwrites.trans (h.writes e he (hid' ▸ hqid))

theorem Quiet.foldl_writeBack {ids : List Nat} {w v : Warp} (h : Quiet ids w v) : Quiet ids w (ids.foldl Warp.writeBack v) :=
  List.foldlRecOn ids _ (motive := Quiet ids w) h fun _ hv _ hid => hv.writeBack hid

/-! ### Lanes that a fault takes -/

theorem warpU_modWarpU (s : State) (u : Nat) {f : Warp → Warp} (hf : ∀ x, (f x).uid = x.uid) :
    (s.modWarpU u f).warpU u = (s.warpU u).map f := by
  have hfind : ∀ l : List Warp, (l.map fun x => if x.uid == u then f x else x).find? (fun x => x.uid == u) =
      (l.find? fun x => x.uid == u).map f := by
    intro l
    induction l with
    | nil => rfl
    | cons x l ih =>
      rw [List.map_cons, List.find?_cons, List.find?_cons, ih]
      cases hx : x.uid == u
      · rw [if_neg Bool.false_ne_true, hx]
      · rw [if_pos rfl, hf, hx]
        rfl
  exact hfind s.warps

/-- What leaving barriers makes of a warp: the arrivals `gone` are over, with nothing to write. -/
def Warp.withdrawn (gone lanes : List Nat) (w : Warp) : Warp :=
  gone.foldl Warp.writeBack { w with
    pend := w.pend.map fun (p : Pend) => if gone.contains p.id then { p with writes := [] } else p
    sync := w.sync.map fun (p : SyncPhase) => { p with arrived := p.arrived.filter fun i => !lanes.contains i } }

theorem Warp.withdrawn_uid (gone lanes : List Nat) (w : Warp) : (w.withdrawn gone lanes).uid = w.uid :=
  Warp.foldl_writeBack_uid gone _

theorem Warp.withdrawn_lanes (gone lanes : List Nat) (w : Warp) : (w.withdrawn gone lanes).lanes = w.lanes := by
  refine (Quiet.foldl_writeBack ⟨rfl, fun q hq => ?_⟩).lanes
  obtain ⟨p, hp, rfl⟩ := List.mem_map.mp hq
  split
  · exact fun _ => rfl
  · rename_i hnot
    exact fun hid => absurd (List.contains_iff_mem.mpr hid) hnot

theorem withdraw_eq (s : State) (w : Warp) (lanes : List Nat) :
    ∃ (gone : List Nat) (t : State), s.withdraw w lanes = t.modWarpU w.uid (Warp.withdrawn gone lanes) ∧ t.warps = s.warps :=
  ⟨_, _, rfl, rfl⟩

/-- R160, R164: lanes taken from a barrier leave every lane of the warp as it was. -/
theorem warpU_withdraw {s : State} {w : Warp} (hw : s.warpU w.uid = some w) (lanes : List Nat) :
    ∃ v, (s.withdraw w lanes).warpU w.uid = some v ∧ v.lanes = w.lanes := by
  obtain ⟨gone, t, heq, hwarps⟩ := withdraw_eq s w lanes
  have ht : t.warpU w.uid = some w := by rw [State.warpU, hwarps]; exact hw
  rw [heq, warpU_modWarpU t w.uid (Warp.withdrawn_uid gone lanes), ht]
  exact ⟨_, rfl, w.withdrawn_lanes gone lanes⟩

theorem deliver_of_abort {s : State} {w : Warp} {lanes : List Nat}
    (h : (s.gridOf w.grid).f.hv = false ∨ ∃ l ∈ lanes, (w.lane l).inh = true) (ret : Option Word) :
    s.deliver w lanes ret = s.abortGrid w.grid := by
  have hcond : (!(s.gridOf w.grid).f.hv || lanes.any fun i => (w.lane i).inh) = true := by
    obtain h | h := h
    · rw [h]; rfl
    · rw [List.any_eq_true.mpr h, Bool.or_true]
  exact if_pos hcond

/-- R284: the lanes of the warp after the delivery of a trap. -/
theorem lane_deliver {s : State} {w v : Warp} {lanes : List Nat} (hhv : (s.gridOf w.grid).f.hv = true)
    (hinh : ∀ l ∈ lanes, (w.lane l).inh = false) (hw : s.warpU w.uid = some w) (ret : Option Word)
    (hv : (s.deliver w lanes ret).warpU w.uid = some v) (l : Nat) :
    v.lane l = if l < w.lanes.length ∧ lanes.contains l = true then (w.lane l).trapTo ret (s.gridOf w.grid).f.hpc else w.lane l := by
  have hcond : (!(s.gridOf w.grid).f.hv || lanes.any fun i => (w.lane i).inh) = false := by
    rw [hhv, List.any_eq_false.mpr fun l hl => by simp [hinh l hl]]
    rfl
  obtain ⟨u, hu, hlanes⟩ := warpU_withdraw hw lanes
  have hdel : s.deliver w lanes ret =
      (s.withdraw w lanes).modWarpU w.uid fun v => v.modLanes lanes fun l => l.trapTo ret (s.gridOf w.grid).f.hpc :=
    if_neg (by rw [hcond]; exact Bool.false_ne_true)
  have hat := warpU_modWarpU (s.withdraw w lanes) w.uid
    (f := fun v => v.modLanes lanes fun l => l.trapTo ret (s.gridOf w.grid).f.hpc) fun _ => rfl
  rw [hdel, hat, hu] at hv
  obtain rfl := Option.some.inj hv
  have hlane : u.lane l = w.lane l := by rw [Warp.lane, Warp.lane, hlanes]
  rw [Warp.lane_modLanes, hlanes, hlane]

end Sys2Proof.Machine

open Sys2Proof Sys2Proof.Machine

/-- Settles O54: a delivery aborts the grid, or takes the trapping lanes to the handler once they count at no barrier. -/
theorem trapDelivery : Obligations.TrapDelivery := by
  unfold Obligations.TrapDelivery
  refine ⟨fun s w lanes ret h => deliver_of_abort h ret, fun s w v lanes ret hhv hlanes hw hv => ⟨fun l hl => ?_, fun l hl => ?_⟩⟩
  · obtain ⟨-, hlt⟩ := hlanes l hl
    rw [lane_deliver hhv (fun l hl => (hlanes l hl).1) hw ret hv, if_pos ⟨hlt, List.contains_iff_mem.mpr hl⟩]
    exact ⟨rfl, rfl, rfl, rfl, rfl, rfl⟩
  · rw [lane_deliver hhv (fun l hl => (hlanes l hl).1) hw ret hv, if_neg fun h => hl (List.contains_iff_mem.mp h.2)]

end

