-- ==== Sys2Proof/Proofs/HomeAndHostSteps.lean ====
section
/-! PROVED FACTS. Walks, requests at the home, the bridge's halves and the host's answers (O32). -/

namespace Sys2Proof.Machine

/-! ### Sources that a request reads late (R97) -/

/-- A write one of whose sources has yet to be read: where the source has been overwritten meanwhile, old or new is free. -/
theorem readLate_write {s : State} {r : HomeReq} {w : Warp} {p : Pend} {e : LateSrc} {off : Nat} {d : List Byte}
    (hw : s.warpU r.warp = some w) (hp : w.pend.find? (fun p => p.id == r.pend) = some p) (hlate : r.late = [e])
    (hops : r.ops = [.write off d]) (hlo : off ≤ e.pos) (hhi : e.pos + e.n ≤ off + d.length) :
    (s.readLate r).ops = [.write off
      (if (p.torn.any fun x => samePlace x.1 x.2 e.key e.lane) && Config.freeBool (placeNum s.fresh e.lane e.key e.half)
       then patch d (e.pos - off) (slice (leBytes 8 (w.get e.lane e.key).toNat) (4 * e.half) e.n) else d)] := by
  have hsrcs : s.lateSrcs r = ([e].filter fun e => (p.torn.any fun d => samePlace d.1 d.2 e.key e.lane) &&
      Config.freeBool (placeNum s.fresh e.lane e.key e.half)).map fun e => (e, e.bytes (w.get e.lane e.key)) := by
    simp only [State.lateSrcs, hw, Option.bind_some, hp, Option.map_some, hlate]
  unfold State.readLate
  rw [hsrcs, hops, List.filter_cons]
  split
  · exact congrArg (fun o => [o]) (if_pos ⟨hlo, hhi⟩)
  · rfl

/-! ### Halves at the bridge -/

theorem loseHalf_none {s : State} {line : Nat} {half : Bool} (h : ∀ b, s.bridgeOf line = some b → b.half half = .invalid) (st : HalfSt) :
    s.loseHalf line half st = s := by
  unfold State.loseHalf
  split
  · rfl
  · rename_i b hb
    rw [h b hb]
    rfl

theorem loseHalf_held {s : State} {line : Nat} {half : Bool} {b : BridgeLine} (hb : s.bridgeOf line = some b)
    (hheld : b.half half ≠ .invalid) (st : HalfSt) :
    s.loseHalf line half st =
      ((s.gatherHost line).sendHalf (((s.gatherHost line).bridgeOf line).getD b) half).modMem fun m => { m with
        bridge := (m.bridge.map fun (x : BridgeLine) =>
          if x.line == line then (if half then { x with h1 := st, dirty := x.dirty &&& 0x3#4 }
            else { x with h0 := st, dirty := x.dirty &&& 0xC#4 }) else x).filter fun x => !(x.h0 == .invalid && x.h1 == .invalid) } := by
  have hne : (b.half half == .invalid) = false := beq_eq_false_iff_ne.mpr hheld
  simp only [State.loseHalf, hb, hne, Bool.false_eq_true, if_false]

/-- R227: nothing leaves the bridge, or a half of another line of which no request waits for the host. -/
theorem bridgeEvict_spec (s : State) (n : Nat) :
    (s.mem.bridge.filter fun b => b.line != n && !s.mem.queue.any fun r => r.line == .host b.line && r.wait.isSome) ≠ [] →
    s.bridgeEvict n = { s with fresh := s.fresh + 1 } ∨
      ∃ b ∈ s.mem.bridge.filter fun b => b.line != n && !s.mem.queue.any fun r => r.line == .host b.line && r.wait.isSome, ∃ h,
        s.bridgeEvict n = ({ s with fresh := s.fresh + 1 } : State).loseHalf b.line h .invalid := by
  unfold State.bridgeEvict
  generalize (s.mem.bridge.filter fun b => b.line != n && !s.mem.queue.any fun r => r.line == .host b.line && r.wait.isSome) = idle
  intro hidle
  dsimp only
  rw [if_neg (by simpa using hidle)]
  split
  · rename_i b hb
    exact .inr ⟨b, List.mem_of_getElem? hb, _, rfl⟩
  · exact .inl rfl

/-! ### Operations of the host -/

theorem hostDone_other {s : State} {id : Nat} {o : HostOp} (ho : s.mem.hostOps.find? (fun o => o.id == id && o.done.isNone) = some o)
    (hkind : ∀ n h w, o.kind ≠ .cxlRead n h w) (res : Option (List Byte)) (p : BitVec 4) :
    s.hostDone id res p = (s.modMem fun m => { m with hostOps := m.hostOps.map fun x =>
      if x.id == id then { x with done := some res, poison := p } else x }).settleHost o.req := by
  unfold State.hostDone
  rw [ho]
  dsimp only
  split
  · rename_i n h w hk
    exact absurd hk (hkind n h w)
  · rfl

theorem opsMask_write_taint (off : Nat) (b : List Byte) (q : BitVec 4) : opsMask [.write off b, .taint q] = touched off b.length :=
  BitVec.zero_or

end Sys2Proof.Machine

open Sys2Proof Sys2Proof.Machine

/-- Settles O32: each step's cases, in the order in which its definition takes them. -/
theorem homeAndHostSteps : Obligations.HomeAndHostSteps := by
  unfold Obligations.HomeAndHostSteps
  refine ⟨fun s die ctx page k e hk hwalk => ?walk, fun s die ctx page k hk hwalk => ?walkFails, fun s slice hnext => ?idle,
    fun s slice r hnext hlate => ?serves, fun s slice r hnext hlate => ?servesLate,
    fun s r w p e off d hw hp hlate hops hlo hhi => readLate_write hw hp hlate hops hlo hhi, fun s r l hback => ?back,
    fun s r n hline hback => ?dev, fun s r n hback hline hvia => ?viaHost, fun s l hother => if_pos hother,
    fun s r n h hback hline hvia hneed => ?asksHost, fun s r n t hback hline hvia hhave ht => ?host, fun s slice hfull => ?ageing,
    fun s line => rfl, fun s die pasid page res hany => ?ats, fun s pasid page pages hbusy => ?atsInv,
    fun s line half inval hnone => ?snoopNone, fun s line half inval b hb hheld => ?snoop, fun s pa bytes hopen => ?store,
    fun s r off b q hkind hops => ?memWrite, fun s pa line bytes hopen => ?shut, fun s line hopen => ?read, fun s r hkind => ?memRead,
    fun s line dirty hmine => ?backReply, fun s id o data ho hkind => ?readDone, fun s id o n h own data ho hkind => ?cxlDone,
    fun s n => ?evict, fun s line half inval => rfl, fun s id o old ho hkind => ?atomicDone⟩
  case walk =>
    have hwalk' : (s.modMem fun m => { m with walks := m.walks.filter fun w => w != k }).walk ctx (page * 65536) = some e := hwalk
    show execTlbWalkCompletion die ctx page s = _
    simp only [execTlbWalkCompletion, hk, hwalk']
    rfl
  case walkFails =>
    have hwalk' : (s.modMem fun m => { m with walks := m.walks.filter fun w => w != k }).walk ctx (page * 65536) = none := hwalk
    show execTlbWalkCompletion die ctx page s = _
    simp only [execTlbWalkCompletion, hk, hwalk']
    rfl
  case idle =>
    show execHomeRequest slice s = _
    simp only [execHomeRequest, hnext]
  case serves =>
    show execHomeRequest slice s = _
    simp only [execHomeRequest, hnext, State.serveNext, hlate, List.isEmpty_nil, if_true]
  case servesLate =>
    show execHomeRequest slice s = _
    simp only [execHomeRequest, hnext, State.serveNext, List.isEmpty_iff, hlate, if_false]
  case back => simp only [State.serveReq, hback]
  case dev => simp only [State.serveReq, hback, hline]
  case viaHost => simp only [State.serveReq, hback, hline, hvia, if_true]
  case asksHost => simp only [State.serveReq, hback, hline, hvia, Bool.false_eq_true, if_false, hline ▸ hneed]
  case host =>
    have hnone : [false, true].find? (fun h => decide (s.halfLevel n h < r.need (s.cellable r.line r.attr) h)) = none :=
      List.find?_eq_none.mpr fun h _ => by simpa using hhave h
    subst ht
    simp only [State.serveReq, hback, hline, hvia, Bool.false_eq_true, if_false, hline ▸ hnone]
  case ageing =>
    show execFrequencyAgeing slice s = _
    exact if_neg (Nat.not_lt.mpr hfull)
  case ats =>
    show execAtsTranslationCompletion die pasid page res s = _
    simp only [execAtsTranslationCompletion, hany, Bool.not_true, Bool.false_eq_true, if_false]
  case atsInv =>
    show execAtsInvalidateRequest pasid page pages s = _
    exact if_neg fun h => Bool.false_ne_true (hbusy.symm.trans h)
  case snoopNone =>
    show Host.Outcome.next _ = _
    rw [loseHalf_none hnone]
  case snoop =>
    show Host.Outcome.next _ = _
    rw [loseHalf_held hb hheld]
    rfl
  case store =>
    show execHostStoreCxlMem pa bytes s = _
    simp only [execHostStoreCxlMem, hopen, Bool.not_true, Bool.false_eq_true, if_false]
  case memWrite =>
    intro put s1 home below
    have hmask : opsMask r.ops = touched off b.length := by rw [hops]; exact opsMask_write_taint off b q
    rw [← hmask]
    simp only [State.serve, hkind]
    rfl
  case shut =>
    refine ⟨?_, ?_⟩
    · show execHostStoreCxlMem pa bytes s = _
      simp only [execHostStoreCxlMem, hopen, Bool.not_false, if_true]
    · show execHostReadCxlMem line s = _
      simp only [execHostReadCxlMem, hopen, Bool.not_false, if_true]
  case read =>
    show execHostReadCxlMem line s = _
    simp only [execHostReadCxlMem, hopen, Bool.not_true, Bool.false_eq_true, if_false]
  case memRead =>
    intro h
    simp only [State.serve, hkind]
    cases hdir : s.dirOf r.line with
    | none => simp only [h, hdir, Option.elim_none]
    | some e => simp only [h, hdir, Option.elim_some]
  case backReply =>
    show execBackInvalidateReply line dirty s = _
    simp only [execBackInvalidateReply, List.isEmpty_iff, hmine, if_false] <;> rfl
  case readDone => exact congrArg Host.Outcome.next (hostDone_other ho hkind _ _)
  case cxlDone =>
    show Host.Outcome.next _ = _
    simp only [State.hostDone, ho, hkind, Option.getD_some]
  case evict =>
    intro idle
    refine ⟨fun hidle => ?_, bridgeEvict_spec s n⟩
    exact if_pos (List.isEmpty_iff.mpr hidle)
  case atomicDone => exact congrArg Host.Outcome.next (hostDone_other ho hkind _ _)

end

