-- ==== Sys2Proof/Proofs/LinkFlits.lean ====
section
/-! PROVED FACTS. Flits from peers and their answers (O33). -/

namespace Sys2Proof.Machine

/-! ### Flits in and out of service -/

theorem linked_of_ready {s : State} (h : s.boot.st = .ready) : s.linked = true := beq_iff_eq.mpr h

theorem linked_of_not_ready {s : State} (h : s.boot.st ≠ .ready) : s.linked = false := beq_eq_false_iff_ne.mpr h

/-- R379: a peer's operation on an address that passes its checks enters the pool. -/
theorem servePeer_of_exported {s : State} {f : Flit} {n : Nat} {write : Bool} {l : LineId} {o : Nat} {a : BitVec 16}
    (h : s.exported f.off.toNat n write = .ok (l, o, a)) (ops : Nat → List LineOp) :
    s.servePeer f n write ops = (s.peerReq l a (ops o) []).1.owe (s.peerReq l a (ops o) []).2 f := by
  simp only [State.servePeer, h]

/-- R379: an answer without fault completes the access. -/
theorem answered_done {s : State} {f : Flit} {p : PeerReq} {ok : LineOp → Bool} (hp : s.asked f = some p) (hstatus : f.status = 0)
    (hok : ok p.op = true) (rs : LineOp → List LaneRes) : s.answered_ f ok rs = s.peerDone p f.payload f.poison (rs p.op) := by
  simp only [State.answered_, hp, hok, hstatus, Bool.not_true, Bool.false_eq_true, if_false, ne_eq, not_true]

/-- R379: a fault of the peer is that of the access. -/
theorem answered_fails {s : State} {f : Flit} {p : PeerReq} {ok : LineOp → Bool} (hp : s.asked f = some p) (hstatus : f.status ≠ 0)
    (hok : ok p.op = true) (rs : LineOp → List LaneRes) :
    s.answered_ f ok rs = s.peerFails p ((codeOf f.status.toNat).getD .machineCheck) := by
  simp only [State.answered_, hp, hok, Bool.not_true, Bool.false_eq_true, if_false, ne_eq, hstatus, not_false_eq_true, if_true]

end Sys2Proof.Machine

open Sys2Proof Sys2Proof.Machine

/-- Settles O33: each flit's cases, in the order in which its definition takes them. -/
theorem linkFlits : Obligations.LinkFlits := by
  unfold Obligations.LinkFlits
  refine ⟨fun s f l o a hready hexp => ?rdreq, fun s f l o a hready hexp => ?wr, fun s f l a m o b hready hbar hdata hexp => ?wrcb,
    fun s f l a hready hbar hdata => ?question, fun s f n op l o a hready hop halign hexp => ?atom, fun s f p hp hstatus hop => ?rdrsp,
    fun s f p hp hstatus hop => ?atomrsp, fun s f p hp hstatus hop => ?wrack, fun s f p hp hstatus => ⟨fun hop => ?rdrspFails, ?wrackFails⟩,
    fun s f hready hnew => ?rwrite, fun s f => ⟨rfl, rfl⟩, fun s f hready => ?unknown, fun s f hready => ?closed, fun s p hlive => ?port,
    fun s p hdead => ?portDead⟩
  case rdreq =>
    show execRdreq f s = _
    rw [execRdreq, linked_of_ready hready, servePeer_of_exported hexp]
    rfl
  case wr =>
    intro ops
    show execWr f s = _
    rw [execWr, linked_of_ready hready, servePeer_of_exported hexp]
    rfl
  case wrcb =>
    intro ops
    show execWrcb f s = _
    simp only [execWrcb, linked_of_ready hready, hbar, hexp, List.isEmpty_iff, hdata, Bool.not_true, Bool.false_eq_true, if_false]
    rfl
  case question =>
    show execWrcb f s = _
    simp only [execWrcb, linked_of_ready hready, hbar, hdata, List.isEmpty_nil, Bool.not_true, Bool.false_eq_true, if_false, if_true]
  case atom =>
    show execAtomFlit f s = _
    simp only [execAtomFlit, linked_of_ready hready, hop, halign, servePeer_of_exported hexp, Bool.not_true, Bool.false_eq_true, if_false,
      ne_eq, not_true]
  case rdrsp => exact congrArg Host.Outcome.next (answered_done hp hstatus (by rw [hop]; rfl) _)
  case atomrsp =>
    show execAtomrsp f s = _
    obtain ⟨lane, off, op, t, b, reg, hop⟩ | ⟨lane, off, size, c, n, reg, hop⟩ := hop
    · rw [execAtomrsp, answered_done hp hstatus (by rw [hop]), hop]
    · rw [execAtomrsp, answered_done hp hstatus (by rw [hop]), hop]
  case wrack =>
    show execWrack f s = _
    obtain ⟨off, b, hop⟩ | ⟨off, ls, hop⟩ := hop
    · rw [execWrack, answered_done hp hstatus (by rw [hop])]
    · rw [execWrack, answered_done hp hstatus (by rw [hop])]
  case rdrspFails => exact congrArg Host.Outcome.next (answered_fails hp hstatus (by rw [hop]; rfl) _)
  case wrackFails =>
    rintro ⟨off, b, hop⟩
    show execWrack f s = _
    rw [execWrack, answered_fails hp hstatus (by rw [hop])]
  case rwrite =>
    show execRwrite f s = _
    have hany : (s.link.parts.any fun p => p.1 == f.grp.toNat * 16 + f.chunk.toNat && p.2.1 == fld f.h2 0 6 && p.2.2.1 == f.off.toNat) =
        false := List.any_eq_false.mpr fun p hp => by simpa [and_assoc] using hnew p hp
    simp only [execRwrite, linked_of_ready hready, hany, Bool.not_true, Bool.or_self, Bool.false_eq_true, if_false]
  case unknown =>
    show execUnknownFlit f s = _
    rw [execUnknownFlit, linked_of_ready hready]
    rfl
  case closed =>
    have hclosed := linked_of_not_ready hready
    have hrdreq : execRdreq f s = .next s := by rw [execRdreq, hclosed]; rfl
    have hwr : execWr f s = .next s := by rw [execWr, hclosed]; rfl
    have hwrcb : execWrcb f s = .next s := by rw [execWrcb, hclosed]; rfl
    have hatom : execAtomFlit f s = .next s := by rw [execAtomFlit, hclosed]; rfl
    have hrwrite : execRwrite f s = .next s := by simp only [execRwrite, hclosed, Bool.not_false, Bool.true_or, if_true]
    have hunknown : execUnknownFlit f s = .next s := by rw [execUnknownFlit, hclosed]; rfl
    exact ⟨hrdreq, hwr, hwrcb, hatom, hrwrite, hunknown⟩
  case port =>
    show execPortFailure p s = _
    rw [execPortFailure, State.failPort, hlive]
    rfl
  case portDead =>
    show execPortFailure p s = _
    rw [execPortFailure, State.failPort, hdead]
    rfl

end

