-- ==== Sys2Proof/Proofs/MatrixCommands.lean ====
section
/-! PROVED FACTS. The commands of the matrix queue (26_engines.md: The matrix arrays). -/

namespace Sys2Proof.Machine

/-! ### Commands of the matrix queue -/

/-- R320, R322: a list of reservations that are all there is the list of those found. -/
theorem filterMap_found (rs : List (Nat × Reservation)) :
    (rs.map fun r => (r.1, some r.2)).filterMap (fun (k, r) => r.map fun q => (k, q)) = rs := by
  rw [List.filterMap_map]
  exact List.filterMap_some

theorem execReserve_of_room {s : State} {core seq : Nat} {c : Cmd} {a : Nat} (hcmd : s.cmdAt core 0 seq = some c) (hcode : c.code = 0x11)
    (hturn : s.mxTurn core seq = true) (hok : c.reserveOk = true)
    (hfree : ∀ k ∈ c.onCores core, (s.core k).resOf (s.ownerOf c.team) (c.f 1 0 6) = none ∧ (s.core k).res.length < 64)
    (hrun : (List.range (129 - c.f 1 8 8)).find? (fun a => (c.onCores core).all fun k => (s.core k).freeRun a (c.f 1 8 8)) = some a) :
    execReserve core seq s = .next (((c.onCores core).foldl (fun t k => t.modCore k fun q => { q with
      res := q.res ++ [⟨s.ownerOf c.team, c.f 1 0 6, a, c.f 1 8 8, c.f 1 16 4, c.f 1 20 2, c.f 1 24 5, c.f 1 32 16, c.f 2 0 32⟩] })
      s).finishCmd core 0 seq 0 a) := by
  have hnone : (c.onCores core).any (fun k => ((s.core k).resOf (s.ownerOf c.team) (c.f 1 0 6)).isSome) = false :=
    List.any_eq_false.mpr fun k hk => by simp [(hfree k hk).1]
  have hroom : ((c.onCores core).any fun k => decide ((s.core k).res.length ≥ 64)) = false :=
    List.any_eq_false.mpr fun k hk => by simpa using (hfree k hk).2
  simp only [execReserve, hcmd, hcode, hturn, hok, hnone, hroom, hrun, ne_eq, not_true, Bool.not_true, Bool.false_eq_true, or_self,
    Bool.or_self, if_false]

theorem execRelease_of_held {s : State} {core seq : Nat} {c : Cmd} (hcmd : s.cmdAt core 0 seq = some c) (hcode : c.code = 0x13)
    (hturn : s.mxTurn core seq = true) (hf : c.f 1 6 58 = 0) (hzero : c.zeroFrom 2 = true)
    (hheld : ∀ k ∈ c.onCores core, (s.core k).resOf (s.ownerOf c.team) (c.f 1 0 6) ≠ none) :
    execRelease core seq s = .next (((c.onCores core).foldl (fun t k => t.modCore k fun q => { q with
      res := q.res.filter fun r => !(r.owner == s.ownerOf c.team && r.id == c.f 1 0 6) }) s).finishCmd core 0 seq 0 0) := by
  have hall : (c.onCores core).any (fun k => ((s.core k).resOf (s.ownerOf c.team) (c.f 1 0 6)).isNone) = false :=
    List.any_eq_false.mpr fun k hk => by simpa using hheld k hk
  simp only [execRelease, hcmd, hcode, hturn, hf, hzero, hall, ne_eq, not_true, Bool.not_true, Bool.false_eq_true, or_self, bne_self_eq_false,
    Bool.or_self, if_false]

theorem execLoadb_of_found {s t : State} {core seq : Nat} {c : Cmd} {rs : List (Nat × Reservation)} {b : List PByte}
    (hcmd : s.cmdAt core 0 seq = some c) (hcode : c.code = 0x12) (hturn : s.mxTurn core seq = true)
    (hzero : c.f 1 57 7 = 0 ∧ c.f 2 6 2 = 0 ∧ c.f 2 32 32 = 0 ∧ c.f 3 24 40 = 0 ∧ c.f 4 40 24 = 0 ∧ c.zeroFrom 5 = true)
    (hrs : ((c.onCores core).map fun k => (k, (s.core k).resOf (s.ownerOf c.team) (c.f 2 0 6))) = rs.map fun r => (r.1, some r.2))
    (hformat : sameFormat rs = true)
    (hload : s.loadBlocks (s.agentOf c core) c rs false (blockList (c.f 3 12 12) (c.f 3 0 12)) = (t, .data b)) :
    execLoadb core seq s = .next (if anyPoison b then t.failCmd core 0 seq .machineCheck else t.finishCmd core 0 seq 0 0) := by
  obtain ⟨h1, h2, h3, h4, h5, h6⟩ := hzero
  have hfound := filterMap_found rs
  simp only [execLoadb, hcmd, hcode, hturn, hrs, hfound, List.length_map, h1, h2, h3, h4, h5, h6, hformat, hload, ne_eq, not_true,
    Bool.not_true, Bool.false_eq_true, or_self, beq_self_eq_true, Bool.and_self, if_false]

/-! ### Cards on an array -/

/-- R322: who owns what a team holds depends on no core. -/
theorem ownerOf_foldl_modCore (s : State) (ks : List Nat) (f : Core → Core) (team : Nat) :
    (ks.foldl (fun t k => t.modCore k f) s).ownerOf team = s.ownerOf team :=
  List.foldlRecOn (motive := fun t : State => t.ownerOf team = s.ownerOf team) ks _ rfl fun _ h _ _ => h

theorem cmdAt_id {s : State} {core q seq : Nat} {c : Cmd} (h : s.cmdAt core q seq = some c) : c.id = seq := by
  simpa using List.find?_some h

/-- R325, R327: a card that may be on the array goes there. -/
theorem execGemm_of_able {s : State} {core seq : Nat} {c : Cmd} (hcmd : s.cmdAt core 0 seq = some c)
    (harray : (s.core core).array = none) (hslaved : (s.core core).slaved = false) (hnext : (s.cardNext core).map Cmd.id = some seq)
    (hfresh : c.phase = .waiting → c.gemmOk = true ∧ s.tensorBad (s.cmdGrid c).ctx (c.f 7 0 16) = none ∧
      s.tensorBad (s.cmdGrid c).ctx (c.f 7 16 16) = none)
    (hres : ∀ k ∈ c.onCores core, (s.core k).cardRes (s.ownerOf c.team) c ≠ none) :
    execGemm core seq s = .next
      (let s0 := (c.onCores core).foldl (fun t k => t.modCore k fun q => { q with
         scales := if c.phase == .waiting then [] else q.scales }) s
       let s1 := (leaseOf core (s.ownerOf c.team)).foldl (fun t k => t.modCore k fun q => { q with
         lease := q.lease.map fun l => if l.owner == s.ownerOf c.team then { l with idle := none } else l })
         (s0.modCore core fun q => { q with array := some seq })
       let s2 := if c.pair then s1.modCore (core + 1) fun q => { q with slaved := true } else s1
       s2.modCmd core 0 seq fun c => { c with phase := .running }) := by
  have hbusy : ((s.core core).array.isSome || (s.core core).slaved || (s.cardNext core).map Cmd.id != some seq) = false := by
    simp [harray, hslaved, hnext]
  have hall : (c.onCores core).any (fun q => ((s.core q).cardRes (s.ownerOf c.team) c).isNone) = false :=
    List.any_eq_false.mpr fun k hk => by simpa using hres k hk
  have hword : ¬ (c.phase = .waiting ∧ (!c.gemmOk) = true) := fun ⟨hwait, hbad⟩ => by simp [(hfresh hwait).1] at hbad
  have htensor : (if c.phase = .waiting then s.tensorBad (s.agentOf c core).ctx (c.f 7 0 16) <|>
      s.tensorBad (s.agentOf c core).ctx (c.f 7 16 16) else none) = none := by
    split
    · rename_i hwait
      obtain ⟨-, h0, h1⟩ := hfresh hwait
      exact (congrArg₂ (fun a b => a <|> b) h0 h1)
    · rfl
  have howner : ∀ f g, (((c.onCores core).foldl (fun t k => t.modCore k f) s).modCore core g).ownerOf c.team = s.ownerOf c.team :=
    fun f _ => ownerOf_foldl_modCore s (c.onCores core) f c.team
  unfold execGemm
  simp only [hcmd, hbusy, hall, hword, htensor, Bool.false_eq_true, if_false, howner]

theorem stays_iff (s : State) (core : Nat) (c : Cmd) :
    s.stays core c = true ↔ s.stopping core (s.cmdGrid c).ctx = false ∧ (s.core core).slaved = false ∧
      ∀ k ∈ c.onCores core, (∀ l, (s.core k).lease = some l → l.owner = s.ownerOf c.team) ∧
        ((s.core k).lease = none → (s.core k).leaseReq = []) := by
  rw [State.stays, Bool.and_eq_true, Bool.and_eq_true, Bool.not_eq_true', Bool.not_eq_true', List.all_eq_true, and_assoc]
  refine and_congr_right fun _ => and_congr_right fun _ => forall₂_congr fun k _ => ?_
  cases hlease : (s.core k).lease with
  | none => simp
  | some l => simp

theorem execTileBoundary_of_card {s : State} {core seq : Nat} {c : Cmd} (harray : (s.core core).array = some seq)
    (hcmd : s.cmdAt core 0 seq = some c) (hpair : c.pair = true → (s.core (core + 1)).array = none) :
    execTileBoundary core s = .next (s.runTile core c) := by
  have hfollower : (c.pair && (s.core (core + 1)).array.isSome) = false := by
    cases hc : c.pair with
    | false => rfl
    | true => rw [hpair hc]; rfl
  simp only [execTileBoundary, harray, hcmd, hfollower, Bool.false_eq_true, if_false]

/-- The words that the next tile of a card needs from its feed register. -/
def tileNeed (s : State) (c : Cmd) (cs : List (Nat × Reservation)) : Nat :=
  if c.feed.isSome then c.feedNeed (s.cmdGrid c).f.w (16 * 2 ^ (cs.head?.map fun p => p.2.bl).getD 0) else 0

/-- The reservations of a card on its cores. -/
def cardResOf (s : State) (core : Nat) (c : Cmd) : List (Nat × Reservation) :=
  (c.onCores core).filterMap fun k => ((s.core k).cardRes (s.ownerOf c.team) c).map fun r => (k, r)

/-- R326: a tile that has its words goes by what its computation comes to. -/
theorem runTile_of_words {s s0 : State} {core : Nat} {c d : Cmd} {cs : List (Nat × Reservation)} (hrows : c.rows = [])
    (hsteps : c.card.steps ≠ 1) (htiles : c.card.tiles < c.tiles) (hcs : cs = cardResOf s core c)
    (hs0 : s0 = if c.feed.isSome then s.takeFeed core c.id (tileNeed s c cs) else s) (hlen : cs.length = (c.onCores core).length)
    (hd : s0.cmdAt core 0 c.id = some d) (hfed : tileNeed s c cs ≤ d.fed.length) :
    s.runTile core c =
      match s0.gemmTile (s.agentOf c core) d (s.cmdGrid c).f.w cs with
      | (s, .wait) => s
      | (s, .fault x n) => s.endTile core d x.num n
      | (s1, .rows r bad) =>
        match s1.putTile (s.agentOf c core) core d (s.cmdGrid c).f.w r bad with
        | (s, .wait) => s
        | (s, .fault x) => s.endTile core d x.num d.kb
        | (s, .data _) =>
          match s.cmdAt core 0 d.id with
          | some e => s.tileWritten core e
          | none => s := by
  subst hcs hs0
  unfold tileNeed cardResOf at *
  simp only [State.runTile, hsteps, hrows, hlen, hd, List.isEmpty_nil, Nat.not_le.mpr htiles, ge_iff_le, decide_false, Bool.and_false,
    Bool.not_true, Bool.false_eq_true, if_false, ne_eq, not_true, Nat.not_lt.mpr hfed] <;> rfl

/-- Settles O34: each command of the matrix queue that is legal comes to its end, a card goes to its array, and a tile that has its words ends
as its computation does. -/
theorem matrixCommands : Obligations.MatrixCommands := by
  unfold Obligations.MatrixCommands
  refine ⟨fun s core seq c a h0 h1 h2 h3 h4 h5 => execReserve_of_room h0 h1 h2 h3 h4 h5,
    fun s core seq c h0 h1 h2 h3 h4 h5 => execRelease_of_held h0 h1 h2 h3 h4 h5,
    fun s core seq c rs t b h0 h1 h2 h3 h4 h5 h6 => execLoadb_of_found h0 h1 h2 h3 h4 h5 h6,
    fun s core seq c h0 h1 h2 h3 h4 h5 => execGemm_of_able h0 h1 h2 h3 h4 h5,
    fun s core seq c d s0 cs harray hcmd hpair hrows hsteps htiles hwords => ?tile,
    fun s core seq c harray hcmd hpair hsteps => ?rest, fun s core c => ⟨?pending, ?written, ?refused⟩, stays_iff⟩
  case tile =>
    obtain ⟨hcs, hs0, hlen, hd, hfed⟩ := hwords
    obtain rfl := cmdAt_id hcmd
    have hid := cmdAt_id hd
    have hrun := (execTileBoundary_of_card harray hcmd hpair).trans
      (congrArg Host.Outcome.next (runTile_of_words hrows hsteps htiles hcs hs0 hlen hd hfed))
    refine ⟨fun s1 r bad s2 b e htile hput he => hrun.trans ?_, fun s1 x n htile => hrun.trans ?_⟩
    · simp only [htile, hput, hid, he]
    · simp only [htile, State.endTile]
  case rest =>
    exact (execTileBoundary_of_card harray hcmd hpair).trans (by rw [State.runTile, if_pos hsteps])
  case pending => exact fun hpending => by rw [State.tileWritten, if_pos hpending]
  case written => exact fun hpending hrefused => by simp only [State.tileWritten, hpending, hrefused, Bool.false_eq_true, if_false]
  case refused =>
    exact fun st hpending hrefused => by simp only [State.tileWritten, State.endTile, hpending, hrefused, Bool.false_eq_true, if_false]

end Sys2Proof.Machine

end

