-- ==== Sys2Proof/Proofs/CopyCommands.lean ====
section
/-! PROVED FACTS. The commands of the copy queue (26_engines.md: Copy commands; 30_memory_side.md: The memory-side units). -/

namespace Sys2Proof.Machine

/-! ### The pieces of a plain copy -/

/-- R212: no piece cuts a word of four bytes but at the ends of the range, where source and destination stand alike in their words. -/
theorem copyPieces_words {src dst : Nat} (hsame : src % 4 = dst % 4) :
    ∀ (fuel off n : Nat) (p : Nat × Nat), p ∈ copyPieces src dst off fuel n →
      (p.1 = off ∨ (src + p.1) % 4 = 0) ∧ (p.1 + p.2 = off + n ∨ (src + p.1 + p.2) % 4 = 0) := by
  intro fuel
  induction fuel with
  | zero => intro off n p hp; cases hp
  | succ fuel ih =>
    intro off n p hp
    rw [copyPieces] at hp
    split at hp
    · cases hp
    · next hn =>
      rcases List.mem_cons.mp hp with rfl | hrest
      · exact ⟨.inl rfl, by simp only; omega⟩
      · obtain ⟨hstart, hend⟩ := ih _ _ p hrest
        have hne : n - min n (min (128 - (src + off) % 128) (128 - (dst + off) % 128)) ≠ 0 := by
          intro h0
          rw [h0] at hrest
          cases fuel <;> cases hrest
        omega

/-- R212: a step of a copy takes at least one of the pieces that are left, and all of them where no word can be copied whole. -/
theorem copyPart_spec (n k src dst : Nat) (hk : 1 ≤ k) :
    1 ≤ copyPart n k src dst ∧ copyPart n k src dst ≤ k ∧ (src % 4 ≠ dst % 4 → copyPart n k src dst = k) := by
  rw [copyPart]
  split
  · exact ⟨hk, le_rfl, fun _ => rfl⟩
  · next h =>
    have hlt := Nat.mod_lt (Config.freeNat (n * 2 ^ 44)) (show k > 0 by omega)
    exact ⟨by omega, by omega, fun hd => absurd (.inr hd) h⟩

theorem execCopyNone_of_data {s t : State} {core seq : Nat} {c : Cmd} {gs : List (Nat × Got)} {k : Nat} (hgoing : s.copyGoing core seq = some c)
    (hok : c.copyNoneOk = true)
    (hk : k = copyPart s.fresh ((copyPieces (wordAt c.w 1).toNat (wordAt c.w 2).toNat 0 (c.f 3 0 40 / 64 + 4) (c.f 3 0 40)).drop c.card.tiles).length
      (wordAt c.w 1).toNat (wordAt c.w 2).toNat)
    (hall : s.copyAll (s.agentOf c core) (wordAt c.w 1).toNat (wordAt c.w 2).toNat
      (((copyPieces (wordAt c.w 1).toNat (wordAt c.w 2).toNat 0 (c.f 3 0 40 / 64 + 4) (c.f 3 0 40)).drop c.card.tiles).take k) = (t, gs))
    (hdata : ∀ g ∈ gs, ∃ b, g.2 = .data b) :
    execCopyNone core seq s = .next
      (({ gs.foldl (fun u g => u.copyPut (s.agentOf c core) (wordAt c.w 2).toNat g) t with
        fresh := (gs.foldl (fun u g => u.copyPut (s.agentOf c core) (wordAt c.w 2).toNat g) t).fresh + 1 } : State).copyOn core seq
          (c.card.tiles + k) (copyPieces (wordAt c.w 1).toNat (wordAt c.w 2).toNat 0 (c.f 3 0 40 / 64 + 4) (c.f 3 0 40)).length) := by
  subst hk
  have hwait : gs.any (fun g => g.2.isWait) = false := List.any_eq_false.mpr fun g hg => by
    obtain ⟨b, hb⟩ := hdata g hg
    rw [hb]; exact Bool.false_ne_true
  have hcode : gs.any (fun g => g.2.code.isSome) = false := List.any_eq_false.mpr fun g hg => by
    obtain ⟨b, hb⟩ := hdata g hg
    rw [hb]; exact Bool.false_ne_true
  simp only [execCopyNone, hgoing, hok, hall, hwait, hcode, Bool.not_true, Bool.false_eq_true, if_false]

/-! ### Transforms -/

/-- R333, R350: a transform that has worked through its lines reports. -/
def State.transformEnd (core seq : Nat) (u : State) : Option Code → State
  | some x => u.failCmd core 1 seq x
  | none => u.finishCmd core 1 seq 0 0

theorem transform_of_ran {s t u : State} {core seq : Nat} {c : Cmd} {rs : List (ℕ × Except Got XfLine)} {e : Option Code}
    (hok : c.xfOk = true) (haligned : c.xfAligned = true)
    (hall : s.xfAll core c = (t, rs)) (hwaits : (rs.any fun r => xfWaits r.2) = false)
    (hrun : State.xfRun (s.agentOf c core) c t.fresh (c.f 3 0 40 / sizeOf' c.sfmt + 1) { t with fresh := t.fresh + 1 }
      (t.xfWork (s.agentOf c core) c) = (u, e)) :
    s.transform core seq c = State.transformEnd core seq
      (u.msuInval (s.agentOf c core) (wordAt c.w 2).toNat (c.f 3 0 40 / sizeOf' c.sfmt * sizeOf' c.dfmt)) e := by
  simp only [State.transform, hok, haligned, hall, hwaits, hrun, Bool.not_true, Bool.false_eq_true, if_false]
  cases e <;> rfl

/-- Where every line left is of one channel, the first is the next. -/
theorem xfRun_head (s : State) (a : Agent) (c : Cmd) (fresh n ch first k : Nat) (rest : List (Nat × Nat × Nat)) (hrest : ∀ l ∈ rest, l.1 = ch) :
    State.xfRun a c fresh (n + 1) s ((ch, first, k) :: rest) = match s.xfLine a c first k with
      | (s, .error (.fault x)) => (s, some x)
      | (s, .error _) => (s, some .translation)
      | (s, .ok x) => State.xfRun a c fresh n (s.msuWrite x.line x.off x.bytes) (rest.filter fun l => l.2.1 != first) := by
  have hchans : (((ch, first, k) :: rest).map Prod.fst).eraseDups = [ch] := by
    have hnone : (rest.map Prod.fst).filter (fun b => !b == ch) = [] := List.filter_eq_nil_iff.mpr fun b hb => by
      obtain ⟨l, hl, rfl⟩ := List.mem_map.mp hb
      simp [hrest l hl]
    rw [List.map_cons, List.eraseDups_cons, hnone, List.eraseDups_nil]
  simp only [State.xfRun, hchans, List.length_singleton, le_refl, if_true, List.headD_cons, List.find?_cons, beq_self_eq_true, List.filter_cons,
    bne_self_eq_false, Bool.false_eq_true, if_false] <;> rfl

/-- Settles O35: a step of a plain copy writes the pieces it read, and a transform works through the lines of its destination. -/
theorem copyCommands : Obligations.CopyCommands := by
  unfold Obligations.CopyCommands
  refine ⟨fun s core seq c t gs hgoing hok => ?plain, copyPart_spec, fun src dst off fuel n p hsame hp => copyPieces_words hsame fuel off n p hp,
    fun s core seq c t u rs e x i hi hstart hok haligned hall hwaits => ?transform, fun s t a c fresh n ch first k rest x hrest hline => ?written,
    fun s t a c fresh n ch first k rest f hrest hline => ?faulted⟩
  case plain =>
    intro a all left k hall hdata
    exact execCopyNone_of_data hgoing hok rfl hall hdata
  case transform =>
    intro a n hrun
    have hstarted : exec i s = .next (s.transform core seq c) := by
      rcases hi with ⟨rfl, rfl⟩ | ⟨rfl, rfl⟩ | ⟨rfl, rfl⟩ | ⟨rfl, rfl⟩
      · show execCopyScale core seq s = _
        rw [execCopyScale, hstart]
      · show execCopyAdd core seq s = _
        rw [execCopyAdd, hstart]
      · show execCopyCast core seq s = _
        rw [execCopyCast, hstart]
      · show execCopyReduce core seq s = _
        rw [execCopyReduce, hstart]
    rw [hstarted, transform_of_ran hok haligned hall hwaits hrun]
    cases e <;> rfl
  case written => rw [xfRun_head s a c fresh n ch first k rest hrest, hline]
  case faulted => rw [xfRun_head s a c fresh n ch first k rest hrest, hline]

end Sys2Proof.Machine

end

