-- ==== Sys2Proof/Proofs/CollectiveCommands.lean ====
section
/-! PROVED FACTS. The commands of the collective queue (26_engines.md: Collective commands; 32_links.md: Collectives). -/

namespace Sys2Proof.Machine

/-! ### Collectives -/

theorem startColl_of_sent {s t : State} {core seq op : Nat} {c : Cmd} {g : Group} (hcmd : s.cmdAt core 3 seq = some c) (hcode : c.code = 0x40)
    (hmay : s.mayStart core 3 seq = true) (hop : c.cop = op) (hgroup : s.groupOf (s.cmdGrid c).ctx (c.f 3 56 8) = some g)
    (hok : c.collOk = true) (hsend : (if c.viaSwitch g then s.sendChunks (s.agentOf c core) c g else (s, false)) = (t, false)) :
    s.startColl core seq op = t.modCmd core 3 seq fun d => { d with phase := .running, chunks := List.range c.nch } := by
  have hdue : (!(c.code == 0x40 && s.mayStart core 3 seq && (c.cop == op || (op == 0 && decide (c.cop > 2))))) = false := by
    simp [hcode, hmay, hop]
  simp only [State.startColl, hcmd, hdue, hgroup, hok, hsend, Bool.not_true, Bool.false_eq_true, if_false]

/-- A chunk of a running collective. -/
theorem execChunkCompletion_of_open {s : State} {core seq chunk : Nat} {c : Cmd} {g : Group} (peers : List (List Byte))
    (hcmd : s.cmdAt core 3 seq = some c) (hphase : c.phase = .running) (hchunk : chunk ∈ c.chunks)
    (hgroup : s.groupOf (s.cmdGrid c).ctx (c.f 3 56 8) = some g) :
    execChunkCompletion core seq chunk peers s = .next
      (if s.chunkWritten (chunkKey core seq chunk) then
        if s.engPending (chunkKey core seq chunk) then s
        else s.closeChunk core seq c g chunk ((s.engRefused (chunkKey core seq chunk)).getD 0)
      else if s.partPoison g chunk then s.closeChunk core seq c g chunk Code.machineCheck.num
      else if (s.partsOf c g chunk peers).any fun d => d.length != c.chunk then
        if c.card.bad then s.closeChunk core seq c g chunk Code.machineCheck.num else s
      else s.runChunk core seq c g chunk (s.partsOf c g chunk peers)) := by
  have hgone : (c.phase != .running || !c.chunks.contains chunk) = false := by simp [hphase, hchunk]
  simp only [execChunkCompletion, hcmd, hgone, hgroup, Bool.false_eq_true, if_false, apply_ite Host.Outcome.next]

theorem runChunk_of_read {s s1 s2 : State} {core seq chunk : Nat} {c : Cmd} {g : Group} {ds : List (List Byte)} {b x : List PByte}
    (hread : s.engRead { s.agentOf c core with key := chunkKey core seq chunk } (c.srcOf g.rank chunk) c.chunk = (s1, .data b))
    (hpoison : anyPoison b = false)
    (hready : ({ s1 with fresh := s1.fresh + 1 } : State).rangesReady { s.agentOf c core with key := chunkKey core seq chunk }
      (chunkWrites c g chunk s1.fresh (ds.set g.rank (rawBytes b))) = (s2, .data x)) :
    s.runChunk core seq c g chunk ds =
      (let u := (chunkWrites c g chunk s1.fresh (ds.set g.rank (rawBytes b))).foldl
         (fun t w => t.engWrite { s.agentOf c core with key := chunkKey core seq chunk } w.1 (clean w.2)) s2
       if u.chunkWritten (chunkKey core seq chunk) then u else u.closeChunk core seq c g chunk 0) := by
  simp only [State.runChunk, hread, hpoison, hready, State.writeRanges, Bool.false_eq_true, if_false] <;> rfl

/-- Settles O36: a collective starts its chunks, and a chunk whose contributions are all here is combined, written and reported. -/
theorem collectiveCommands : Obligations.CollectiveCommands := by
  unfold Obligations.CollectiveCommands
  refine ⟨fun s core seq c g t op i hi hcmd hcode hmay hop hgroup hok hsend => ?start,
    fun s core seq chunk peers c g s1 s2 b x hcmd hphase hchunk hgroup hnew hpoison hparts => ?combine,
    fun s core seq chunk peers c g hcmd hphase hchunk hgroup hwritten hpending => ?close⟩
  case start =>
    have hstarted : exec i s = .next (s.startColl core seq op) := by
      rcases hi with ⟨rfl, rfl⟩ | ⟨rfl, rfl⟩ | ⟨rfl, rfl⟩ <;> rfl
    rw [hstarted, startColl_of_sent hcmd hcode hmay hop hgroup hok hsend]
  case combine =>
    intro a hread hclean ws hready
    have hwhole : (s.partsOf c g chunk peers).any (fun d => d.length != c.chunk) = false :=
      List.any_eq_false.mpr fun d hd => by simp [hparts d hd]
    refine (execChunkCompletion_of_open peers hcmd hphase hchunk hgroup).trans (congrArg Host.Outcome.next ?_)
    rw [hnew, hpoison, hwhole]
    exact runChunk_of_read hread hclean hready
  case close =>
    refine (execChunkCompletion_of_open peers hcmd hphase hchunk hgroup).trans ?_
    rw [hwritten, hpending]
    rfl

end Sys2Proof.Machine

end

