-- ==== Sys2Proof/Proofs/EngineCommands.lean ====
section
/-! PROVED FACTS. The commands of the other engines, and their completion (26_engines.md; 30_memory_side.md). -/

namespace Sys2Proof.Machine

/-! ### BUILD and LAUNCH -/

theorem execBuild_of_built {s t : State} {core seq : Nat} {c : Cmd} {b : Built} (hcmd : s.cmdAt core 4 seq = some c) (hcode : c.code = 0x50)
    (hmay : s.mayStart core 4 seq = true) (hnew : s.current (s.cmdGrid c).ctx (c.f 1 0 20) = none)
    (hwords : c.f 1 20 44 = 0 ∧ c.f 5 32 32 = 0 ∧ c.zeroFrom 6 = true)
    (hkind : fld (wordAt c.w 2) 0 4 = 2 ∨ fld (wordAt c.w 2) 0 4 = 3)
    (hdesc : fld (wordAt c.w 2) 32 32 = 0 ∧ (wordAt c.w 2).getLsbD 11 = false ∧ descBad (wordAt c.w 2) (wordAt c.w 3) (wordAt c.w 4) 0 = false)
    (hrows : c.f 5 0 32 ≤ fld (wordAt c.w 4) 0 40 / (16 * fld (wordAt c.w 2) 16 8))
    (hfree : s.buildFree (c.job (s.cmdGrid c).ctx) (c.f 5 0 32) = true)
    (hbuild : s.buildIndex (c.job (s.cmdGrid c).ctx) (c.f 5 0 32) = (t, b)) (hbad : b.bad = none)
    (hback : s.askBack (engKey core 4 seq) (s.cmdGrid c).ctx (b.zeros.map Prod.fst) = none) :
    execBuild core seq s = .next (({ t.canonRows b.zeros with
      uid := (t.canonRows b.zeros).uid + 1,
      tabs := (t.canonRows b.zeros).tabs ++ [Version.mk t.uid (s.cmdGrid c).ctx (c.f 1 0 20) (withVersion (wordAt c.w 2) 1) (wordAt c.w 3)
        (wordAt c.w 4) 0 true b.index [] []] } : State).finishCmd core 4 seq 0 0) := by
  obtain ⟨hw1, hw5, hw6⟩ := hwords
  obtain ⟨hd1, hd2, hd3⟩ := hdesc
  have hdue : (!(c.code == 0x50 && s.mayStart core 4 seq)) = false := by simp [hcode, hmay]
  have hlegal : (c.f 1 20 44 != 0 || c.f 5 32 32 != 0 || !c.zeroFrom 6 || !(fld (wordAt c.w 2) 0 4 == 2 || fld (wordAt c.w 2) 0 4 == 3) ||
      fld (wordAt c.w 2) 32 32 != 0 || (wordAt c.w 2).getLsbD 11 || descBad (wordAt c.w 2) (wordAt c.w 3) (wordAt c.w 4) 0 ||
      decide (c.f 5 0 32 > fld (wordAt c.w 4) 0 40 / (16 * fld (wordAt c.w 2) 16 8))) = false := by
    rw [hw1, hw5, hw6, hd1, hd2, hd3, decide_eq_false (Nat.not_lt.mpr hrows)]
    rcases hkind with hk | hk <;> rw [hk] <;> rfl
  simp only [execBuild, hcmd, hdue, hnew, hlegal, hfree, hbuild, hback, hbad, Option.isSome_none, Bool.not_true, Bool.false_eq_true, if_false]

/-- A LAUNCH of the team whose turn it is, or which waits. -/
theorem execLaunch_due {s : State} {core seq : Nat} {c : Cmd} (hcode : c.code = 0x60)
    (hdue : c.phase = .running ∨ s.mayStart core 5 seq = true) :
    (!(c.code == 0x60 && (c.phase == .running || s.mayStart core 5 seq))) = false := by
  rcases hdue with h | h <;> simp [hcode, h]

theorem execLaunch_of_behind {s : State} {core seq : Nat} {c : Cmd} (hcmd : s.cmdAt core 5 seq = some c) (hcode : c.code = 0x60)
    (hdue : c.phase = .running ∨ s.mayStart core 5 seq = true)
    (hbehind : ∃ d ∈ s.cmdsBefore core 5 seq, d.code = 0x60 ∧ d.f 1 0 6 = c.f 1 0 6 ∧ d.phase.isFinished = false) :
    execLaunch core seq s = .next (s.modCmd core 5 seq fun d => { d with phase := .running }) := by
  have hany : ((s.cmdsBefore core 5 seq).any fun d => d.code == 0x60 && d.f 1 0 6 == c.f 1 0 6 && !d.phase.isFinished) = true := by
    obtain ⟨d, hd, h1, h2, h3⟩ := hbehind
    exact List.any_eq_true.mpr ⟨d, hd, by simp [h1, h2, h3]⟩
  simp only [execLaunch, hcmd, execLaunch_due hcode hdue, hany, Bool.false_eq_true, if_false, if_true, State.launchWaits]

/-- A LAUNCH before which none of its queue waits goes by what its queue is. -/
theorem execLaunch_of_first {s : State} {core seq : Nat} {c : Cmd} {b : Nat × Nat × Nat} (hcmd : s.cmdAt core 5 seq = some c)
    (hcode : c.code = 0x60) (hdue : c.phase = .running ∨ s.mayStart core 5 seq = true)
    (hfirst : ∀ d ∈ s.cmdsBefore core 5 seq, ¬ (d.code = 0x60 ∧ d.f 1 0 6 = c.f 1 0 6 ∧ d.phase.isFinished = false))
    (hzero : c.f 1 6 58 = 0 ∧ c.zeroFrom 6 = true) (hbind : (s.queue (c.f 1 0 6)).bind = some ((s.cmdGrid c).ctx, b)) :
    execLaunch core seq s = .next (if (s.queue (c.f 1 0 6)).room = true then
        (s.modQueue (c.f 1 0 6) fun k =>
          k.enter 15 0 seq (((List.range 4).map fun i => wordAt c.w (2 + i)) ++ List.replicate 4 0)).finishCmd core 5 seq 0 0
      else s.modCmd core 5 seq fun d => { d with phase := .running }) := by
  obtain ⟨h1, h6⟩ := hzero
  have hany : ((s.cmdsBefore core 5 seq).any fun d => d.code == 0x60 && d.f 1 0 6 == c.f 1 0 6 && !d.phase.isFinished) = false :=
    List.any_eq_false.mpr fun d hd => by simpa using hfirst d hd
  simp only [execLaunch, hcmd, execLaunch_due hcode hdue, hany, h1, h6, hbind, bne_self_eq_false, Bool.not_true, Bool.or_self, Bool.false_eq_true,
    if_false, State.launchWaits]
  cases (s.queue (c.f 1 0 6)).room <;> rfl

/-! ### SETASIDE -/

/-- R353: the channels to zero are those whose last user was another context. -/
theorem toZero_eq (s : State) (ctx : Nat) (c : Cmd) :
    s.toZero ctx c = c.channels.filter fun h => (s.mem.lastCtx.find? fun p => p.1 == h).any fun p => p.2 != ctx :=
  List.filter_congr fun h _ => by cases s.mem.lastCtx.find? fun p => p.1 == h <;> rfl

theorem execSetaside_of_free {s : State} {core seq : Nat} {c : Cmd} (hcmd : s.cmdAt core 5 seq = some c) (hcode : c.code = 0x61)
    (hmay : s.mayStart core 5 seq = true) (hsome : c.channels ≠ [])
    (hdur : 1 ≤ c.f 3 0 32 ∧ c.f 3 0 32 ≤ 1000000 ∧ c.f 3 32 32 = 0 ∧ c.zeroFrom 4 = true)
    (hchans : ∀ h ∈ c.channels, s.mem.dedicated.getLsbD h = true ∧ ∀ e ∈ s.mem.aside, e.1 = h → e.2.1 = (s.cmdGrid c).ctx)
    (hback : s.askBack (engKey core 5 seq) (s.cmdGrid c).ctx ((s.toZero (s.cmdGrid c).ctx c).flatMap s.hostLinesOn) = none) :
    execSetaside core seq s = .next ((((s.toZero (s.cmdGrid c).ctx c).foldl State.zeroChannel s).modMem fun m => { m with
      aside := m.aside ++ (c.channels.filter fun h => !m.aside.any fun p => p.1 == h).map fun h => (h, (s.cmdGrid c).ctx, 0),
      lastCtx := (m.lastCtx.filter fun p => !c.channels.contains p.1) ++ c.channels.map fun h => (h, (s.cmdGrid c).ctx) }).finishCmd
        core 5 seq 0 0) := by
  obtain ⟨hlow, hhigh, h3, h4⟩ := hdur
  have hdue : (!(c.code == 0x61 && s.mayStart core 5 seq)) = false := by simp [hcode, hmay]
  have hlegal : (c.channels.isEmpty || c.f 3 0 32 == 0 || decide (c.f 3 0 32 > 1000000) || c.f 3 32 32 != 0 || !c.zeroFrom 4) = false := by
    simp [hsome, h3, h4, hhigh, Nat.one_le_iff_ne_zero.mp hlow]
  have hdedicated : (c.channels.any fun h => !s.mem.dedicated.getLsbD h) = false :=
    List.any_eq_false.mpr fun h hh => by simp [(hchans h hh).1]
  have hmine : (c.channels.find? fun h => s.mem.aside.any fun p => p.1 == h && p.2.1 != (s.cmdGrid c).ctx) = none :=
    List.find?_eq_none.mpr fun h hh => by
      simpa using fun x t hd => (hchans h hh).2 (h, x, t) hd rfl
  simp only [execSetaside, hcmd, hdue, hlegal, hdedicated, hmine, hback, Bool.false_eq_true, if_false]

theorem execSetasideExpiry_of_over {s : State} {ch h ctx t : Nat} (hfind : s.mem.aside.find? (fun p => p.1 == ch) = some (h, ctx, t))
    (hover : s.gtime ≥ t) (hheld : s.asideHeld ch = false) :
    execSetasideExpiry ch s = .next
      (let cs := s.asideCmds ctx ch
       let s1 := (cs.filter fun p => !s.begun p.1 p.2).foldl (fun s p => s.failCmd p.1 p.2.q p.2.id .permission) s
       (s1.dropTlb fun e => e.ctx == ctx && e.onCh ch).modMem fun m => { m with
         aside := m.aside.filter (fun p => p.1 != ch)
         lame := m.lame ++ (cs.filter fun p => s.begun p.1 p.2).map fun p => (ch, ctx, engKey p.1 p.2.q p.2.id) }) := by
  simp only [execSetasideExpiry, hfind, Nat.not_lt.mpr hover, hheld, Bool.false_eq_true, or_self, if_false]

theorem mem_asideCmds_iff (s : State) (ctx ch k : Nat) (c : Cmd) :
    (k, c) ∈ s.asideCmds ctx ch ↔ k < s.cores.length ∧ c ∈ (s.core k).queues.getD 1 [] ++ (s.core k).queues.getD 2 [] ∧
      (s.cmdGrid c).ctx = ctx ∧ c.phase.isFinished = false ∧ s.onAside c k ch = true := by
  simp only [State.asideCmds, List.mem_flatMap, List.mem_range, List.mem_map, List.mem_filter, Prod.mk.injEq, Bool.and_eq_true, beq_iff_eq,
    Bool.not_eq_true']
  constructor
  · rintro ⟨_, hk, d, ⟨hmem, ⟨hctx, hopen⟩, hon⟩, rfl, rfl⟩
    exact ⟨hk, hmem, hctx, hopen, hon⟩
  · rintro ⟨hk, hmem, hctx, hopen, hon⟩
    exact ⟨k, hk, c, ⟨hmem, ⟨hctx, hopen⟩, hon⟩, rfl, rfl⟩

/-! ### ATTEND and MAPINV -/

theorem attendStart_of_resolved {s s1 s2 : State} {core seq : Nat} {c : Cmd} {v : Version} {b : List PByte} {l : List (Nat × Nat × Nat × Nat)}
    (hok : s.attendBad c (s.cmdGrid c).ctx (s.agentOf c core).key = .ok v) (hmask : s.maskBits (s.agentOf c core) c = (s1, .data b))
    (hclean : anyPoison b = false) (hfree : s1.rowBusy core (s.cmdGrid c).ctx (s1.mapRows v (c.kvHeads.flatMap fun kh =>
      (c.neededPages (rawBytes b)).map fun pg => c.kvKey kh (64 * pg))) = false)
    (hres : s1.resolveAll (core / 64) (s.cmdGrid c).ctx v c
      (c.kvHeads.flatMap fun kh => (c.neededPages (rawBytes b)).map fun pg => (kh, pg)) = (s2, l)) (hall : ∀ e ∈ l, e.2.1 ≠ 7) :
    s.attendStart core seq c = s2.modCmd core 2 seq fun d => { d with
      phase := .running, resolved := l, card := ⟨v.rowBytes, if v.d0.getLsbD 11 then 1 else 0, false⟩ } := by
  have hctx : (s.agentOf c core).ctx = (s.cmdGrid c).ctx := rfl
  have hseven : (l.any fun e => e.2.1 == 7) = false := List.any_eq_false.mpr fun e he => by simpa using hall e he
  simp only [State.attendStart, hctx, hok, hmask, hclean, hfree, hres, hseven, Bool.false_eq_true, if_false]

theorem attendRun_of_ready {s s1 s2 s3 s4 : State} {core seq : Nat} {c : Cmd} {bm bq b : List PByte} {ps : List PageKV}
    (hmask : s.maskBits (s.agentOf c core) c = (s1, .data bm))
    (hq : s1.msuRange (s.agentOf c core) c.aQ (sizeOf' c.qf * c.hd * c.heads * c.rowsQ) = (s2, .data bq))
    (hpages : s2.pagesKV (s.agentOf c core) c c.card.tiles = (s3, .ok ps))
    (hready : s3.msuReady (s.agentOf c core) c.aO c.resultBytes = (s4, .data b)) (hm : anyPoison bm = false) (hbq : anyPoison bq = false)
    (hback : s4.askBack (s.agentOf c core).key (s.agentOf c core).ctx
      ((s4.stateBytes c ps).filterMap fun va => s4.rowLine (core / 64) (s.agentOf c core).ctx va) = none)
    (hfree : ∀ l ∈ (s4.stateBytes c ps).filterMap fun va => s4.rowLine (core / 64) (s.agentOf c core).ctx va, s4.homeFree l = true) :
    s.attendRun core seq c = s4.attendStore core seq c (rawBytes bm) (rawBytes bq) ps := by
  have hall := List.all_eq_true.mpr hfree
  simp only [State.attendRun, hmask, hq, hpages, hready, hm, hbq, hback, hall, Bool.or_self, Bool.not_true, Bool.false_eq_true, if_false]

theorem execMapinv_of_start {s : State} {core seq : Nat} {c : Cmd} {v : Version} (hcmd : s.cmdAt core 2 seq = some c) (hcode : c.code = 0x31)
    (hphase : c.phase ≠ .running) (hmay : s.mayStart core 2 seq = true) (hok : c.mapinvOk = true)
    (htable : s.current (s.cmdGrid c).ctx (c.f 1 0 20) = some v) (hkind : v.kind = 4) :
    execMapinv core seq s = .next
      (let late := (List.range s.cores.length).flatMap fun k =>
         (((s.core k).queues.getD 2 []).filter fun d => s.holdsDropped c (s.cmdGrid c).ctx d).map fun d => (k, d.id, 0, 0)
       let cut := fun (l : List MapE) => l.filter fun e => !c.drops (s.cmdGrid c).ctx e.key
       let group := fun (p : List MapE × Nat) => if (c.f 4 0 16).testBit p.2 then cut p.1 else p.1
       (s.modMem fun m => { m with mapCache := m.mapCache.zipIdx.map group }).modCmd core 2 seq fun d =>
         { d with phase := .running, resolved := late }) := by
  have hmap : (Option.all (fun v : Version => v.kind != 4) (some v)) = false := by simp [hkind]
  simp only [execMapinv, hcmd, hcode, hphase, hmay, hok, htable, hmap, ne_eq, not_true, Bool.not_true, Bool.false_eq_true, if_false]

theorem execMapinv_of_running {s : State} {core seq : Nat} {c : Cmd} (hcmd : s.cmdAt core 2 seq = some c) (hcode : c.code = 0x31)
    (hphase : c.phase = .running) (hdone : ∀ e ∈ c.resolved, ∀ d, s.cmdAt e.1 2 e.2.1 = some d → d.phase ≠ .running) :
    execMapinv core seq s = .next (s.finishCmd core 2 seq 0 0) := by
  have hnone : (c.resolved.any fun e => (s.cmdAt e.1 2 e.2.1).any fun d => d.phase == .running) = false :=
    List.any_eq_false.mpr fun e he => by simpa [Option.any_eq_false] using hdone e he
  simp only [execMapinv, hcmd, hcode, hphase, hnone, ne_eq, not_true, Bool.false_eq_true, if_false, if_true]

/-! ### The completion of commands -/

/-- A finished command that nothing keeps reports the status it ended with, or that of an access refused. -/
theorem execCommandCompletion_of_finished {s : State} {core q seq : Nat} {c : Cmd} {st detail : Nat} (hcmd : s.cmdAt core q seq = some c)
    (hphase : c.phase = .finished st detail) (hturn : q = 0 → ∀ d ∈ s.cmdsBefore core q seq, d.team ≠ c.team)
    (hpending : s.engPending (engKey core q seq) = false) (habort : st = 0xF0 → s.aborting c = false) :
    execCommandCompletion core q seq s =
      (let x := if st = 0 then (s.engRefused (engKey core q seq)).getD 0 else st
       let t := (if c.code = 0x61 ∧ x = 0 then s.startAside c else s).dropCmd core q seq
       if c.code = 0x40 ∧ x = 0 then .next t else .next (t.report (c.who core) x detail)) := by
  have hearly : (q == 0 && (s.cmdsBefore core q seq).any fun d => d.team == c.team) = false := by
    rcases Nat.eq_zero_or_pos q with hq | hq
    · have hnone := List.any_eq_false.mpr fun (d : Cmd) hd => show ¬ (d.team == c.team) = true by simpa using hturn hq d hd
      rw [hnone, Bool.and_false]
    · simp [Nat.pos_iff_ne_zero.mp hq]
  have hheld : (st == 0xF0 && s.aborting c) = false := by
    by_cases h : st = 0xF0
    · rw [habort h, Bool.and_false]
    · simp [h]
  simp only [execCommandCompletion, hcmd, hphase, hearly, hpending, hheld, Bool.or_self, Bool.false_eq_true, if_false]

/-- Settles O37: each command of the other engines that is legal, and whose turn it is, comes to the state given. -/
theorem engineCommands : Obligations.EngineCommands := by
  unfold Obligations.EngineCommands
  refine ⟨?build, fun s core seq c hcmd hcode hdue hwait => ?waits,
    fun s core seq c ctx b hcmd hcode hdue hfirst h1 h6 hbind hctx hroom => ?enters, ?setaside, ?setasideDone, ?expiry,
    mem_asideCmds_iff, fun s core seq c v s1 s2 b l hcmd hcode hphase hmay hok hmask hclean hfree hres hall => ?attend,
    fun s core seq c s1 s2 s3 s4 bm bq ps b hcmd hcode hphase hmask hq hpages hready hm hbq hback hfree => ?attends,
    fun s core seq c v hcmd hcode hphase hmay hok htable hkind => execMapinv_of_start hcmd hcode hphase hmay hok htable hkind,
    fun s core seq c hcmd hcode hphase hdone => execMapinv_of_running hcmd hcode hphase hdone,
    fun s core q seq c st detail hcmd hphase hst hturn hpending habort => ?failed,
    fun s core q seq c detail hcmd hphase h40 h61 hturn hpending hrefused => ?done⟩
  case build =>
    exact fun s core seq c t b hcmd hcode hmay hnew hw1 hw5 hw6 hkind hd1 hd2 hd3 hrows hfree hbuild hbad hback =>
      execBuild_of_built hcmd hcode hmay hnew ⟨hw1, hw5, hw6⟩ hkind ⟨hd1, hd2, hd3⟩ hrows hfree hbuild hbad hback
  case waits =>
    by_cases hbehind : ∃ d ∈ s.cmdsBefore core 5 seq, d.code = 0x60 ∧ d.f 1 0 6 = c.f 1 0 6 ∧ d.phase.isFinished = false
    · exact execLaunch_of_behind hcmd hcode hdue hbehind
    · obtain ⟨h1, h6, ⟨b, hbind⟩, hroom⟩ := hwait.resolve_left hbehind
      refine (execLaunch_of_first hcmd hcode hdue (fun d hd h => hbehind ⟨d, hd, h⟩) ⟨h1, h6⟩ hbind).trans ?_
      rw [hroom]
      rfl
  case enters =>
    subst hctx
    exact (execLaunch_of_first hcmd hcode hdue hfirst ⟨h1, h6⟩ hbind).trans (by rw [if_pos hroom])
  case setaside =>
    intro s core seq c hcmd hcode hmay hsome hdur hchans zero hback
    rw [show zero = s.toZero (s.cmdGrid c).ctx c from (toZero_eq s _ c).symm] at hback ⊢
    exact execSetaside_of_free hcmd hcode hmay hsome hdur hchans hback
  case setasideDone =>
    intro s core seq c detail hcmd hphase hcode hpending hrefused
    refine (execCommandCompletion_of_finished hcmd hphase (fun h => absurd h (by decide)) hpending fun h => absurd h (by decide)).trans ?_
    simp only [hcode, hrefused, if_true] <;> rfl
  case expiry => exact fun s ch h ctx t hfind hover hheld => execSetasideExpiry_of_over hfind hover hheld
  case attend =>
    show execAttend core seq s = _
    rw [← attendStart_of_resolved hok hmask hclean hfree hres hall]
    simp only [execAttend, hcmd, hcode, hphase, hmay, ne_eq, not_true, if_false, if_true]
  case attends =>
    show execAttend core seq s = _
    rw [← attendRun_of_ready hmask hq hpages hready hm hbq hback hfree]
    simp only [execAttend, hcmd, hcode, hphase, ne_eq, not_true, if_false, if_true]
  case failed =>
    refine (execCommandCompletion_of_finished hcmd hphase hturn hpending habort).trans ?_
    simp only [hst, and_false, if_false]
  case done =>
    refine (execCommandCompletion_of_finished hcmd hphase hturn hpending fun h => absurd h (by decide)).trans ?_
    simp only [h40, h61, hrefused, if_true, false_and, if_false] <;> rfl

end Sys2Proof.Machine

end

