-- ==== Sys2Proof/Proofs/LaunchPackets.lean ====
section
/-! PROVED FACTS. Launch packets, the placement and retirement of teams, the end of a grid (22_scheduling.md; 03_execution.md: Retirement). -/

namespace Sys2Proof.Machine

/-! ### Packets -/

theorem execTeamPlacement_of_offer {s : State} {die q : Nat} {o : Cand × Nat × Nat}
    (hoffer : ((s.queueOrder die).findSome? fun q => (s.offerOf die q).map fun o => (q, o)) = some (q, o)) :
    execTeamPlacement die s = .next
      (let g := s.gridOf o.1.grid
       let s1 := ({ s with sch := { s.sch with turn := s.sch.turn.set die q } } : State).placeSaved g o.2.1 o.2.2 o.1.saved
       let s2 := o.1.fresh.foldl (fun s i => s.placeFresh g (if g.f.cohort2 && i % 2 == 1 then o.2.2 else o.2.1) i) s1
       s2.modGrid g.uid fun g => { g with next := g.next + o.1.fresh.length }) := by
  simp only [execTeamPlacement, hoffer]

/-- R44: a team retires once its lanes have exited, or its grid was aborted, and nothing of it is under way. -/
theorem execTeamRetirement_of_idle {s : State} {grid team : Nat} {t : Team}
    (hfind : s.teams.find? (fun t => t.grid == grid && t.teamId == team) = some t) (hover : t.alive = 0 ∨ (s.gridOf grid).aborted = true)
    (hidle : s.teamIdle t = true) :
    execTeamRetirement grid team s = .next ((s.freeTeam t).modGrid grid fun g => { g with retired := g.retired + 1 }) := by
  have hgo : ((t.alive == 0 || (s.gridOf grid).aborted) && s.teamIdle t) = true := by
    rcases hover with h | h <;> simp [h, hidle]
  simp only [execTeamRetirement, hfind, hgo, if_true]

theorem execGridEnd_of_done {s : State} {grid : Nat} {g : Grid} (hgrid : s.grid grid = some g) (hbusy : s.gridBusy grid = false)
    (hwarps : ∀ w ∈ s.warps, w.grid ≠ grid)
    (hdone : if g.aborted then (∀ t ∈ s.teams, t.grid ≠ grid) else g.f.griddim ≤ g.retired) :
    execGridEnd grid s = .next
      (({ (s.unpinGrid grid).freeVersions with grids := (s.unpinGrid grid).freeVersions.grids.filter fun x => x.uid != grid } : State).completePkt
        g.queue g.pkt g.status) := by
  have hover : (if g.aborted then !s.teams.any fun t => t.grid == grid else decide (g.retired ≥ g.f.griddim)) = true := by
    cases h : g.aborted with
    | true =>
      rw [h, if_pos rfl] at hdone
      have hnone := List.any_eq_false.mpr fun (t : Team) ht => show ¬ (t.grid == grid) = true by simpa using hdone t ht
      rw [if_pos rfl, hnone, Bool.not_false]
    | false =>
      rw [h, if_neg Bool.false_ne_true] at hdone
      simpa using hdone
  have hnowarp := List.any_eq_false.mpr fun (w : Warp) hw => show ¬ (w.grid == grid) = true by simpa using hwarps w hw
  simp only [execGridEnd, hgrid, hover, hbusy, hnowarp, Bool.not_true, Bool.or_self, Bool.false_eq_true, if_false]

/-- R269: a legal KERNEL makes a grid; what else changes is whether a capture is still armed. -/
theorem execKernel_of_legal {s : State} {q n : Nat} {p : QPkt} (hdue : s.pktDue q n 1 = some p) (hbad : p.kernelBad = false)
    (hfit : p.kernel.noFit = false) (hcode : s.current (s.queueCtx q) p.kernel.code ≠ none) :
    ∃ tr, execKernel q n s = .next { s with
      trace := tr, uid := s.uid + 1, grids := s.grids ++ [⟨s.uid, s.queueCtx q, q, n, p.kernel, 0, 0, false, false,
        s.trace.armed && s.trace.rq == q && s.trace.ctx == s.queueCtx q⟩] } := by
  have hcur : (s.current (s.queueCtx q) p.kernel.code).isNone = false := by simpa using Option.isSome_iff_ne_none.mpr hcode
  simp only [execKernel, hdue, hbad, hfit, hcur, Bool.false_eq_true, if_false]
  cases s.trace.armed && s.trace.rq == q && s.trace.ctx == s.queueCtx q with
  | true => exact ⟨_, rfl⟩
  | false => exact ⟨_, rfl⟩

/-- Settles O38: packets start and act in their turn, teams are placed and retire, and a grid whose teams have retired ends. -/
theorem launchPackets : Obligations.LaunchPackets := by
  unfold Obligations.LaunchPackets
  refine ⟨fun s q p hnext => ?start, fun s q n p hdue hbad hfit hcode => ?kernel, fun s q n p c hdue hbad hctx hreached => ?wait,
    fun s q n p hdue hbad => ?signal, fun s die q o hoffer => execTeamPlacement_of_offer hoffer,
    fun s grid team t hfind hover hidle => execTeamRetirement_of_idle hfind hover hidle,
    fun s grid g hgrid hbusy hwarps hdone => execGridEnd_of_done hgrid hbusy hwarps hdone⟩
  case start =>
    show execPacketStart q s = _
    simp only [execPacketStart, hnext, apply_ite Host.Outcome.next]
  case kernel =>
    obtain ⟨tr, hexec⟩ := execKernel_of_legal hdue hbad hfit hcode
    exact ⟨_, hexec, rfl, rfl, rfl, rfl, rfl, rfl, rfl⟩
  case wait =>
    show execWait q n s = _
    simp only [execWait, hdue, hbad, hctx, hreached, Bool.false_eq_true, if_false, if_true]
  case signal =>
    show execSignal q n s = _
    simp only [execSignal, hdue, hbad, Bool.false_eq_true, if_false]

end Sys2Proof.Machine

end

