-- ==== Sys2Proof/Proofs/GrantsFaultsAndSetup.lean ====
section
/-! PROVED FACTS. Core pairs, the answers to faults, and what a TLBINV forgets (22_scheduling.md: Pre-emption, Faults and traps; O39 to O41). -/

namespace Sys2Proof.Machine

/-! ### Requests that are admitted -/

theorem request_of_admits {s : State} {p : Packet} {admin ok : Bool} (h : Admits s p admin) (hok : ok = true) (f : State) :
    s.request p admin ok f = f := by
  obtain ⟨hready, hmay⟩ := h
  simp [State.request, hready, hmay, hok]

/-! ### The grant of core pairs and their return -/

/-- Settles O39: core pairs are granted, a stop is recorded, delivered and drained, and a warp that may be saved leaves its core. -/
theorem grantsAndStops : Obligations.GrantsAndStops := by
  unfold Obligations.GrantsAndStops
  refine ⟨fun s p c hadmits hclear hctx hgrant => ?grant, fun s p c hadmits hclear hctx => ?stop,
    fun s n e hfind hnew hdue => ?delivery, fun s core slot w hwarp hsavable => ?save, fun s n e hfind hold hdrained => ?drain⟩
  case grant =>
    show execGrant p s = _
    simp only [execGrant, request_of_admits hadmits hclear, hctx, hgrant, if_true]
  case stop =>
    show execStop p s = _
    simp only [execStop, request_of_admits hadmits hclear, hctx]
  case delivery =>
    show execStopDelivery n s = _
    have hnow : (e.delivered || decide (s.gtime + s.drainTime e.ctx e.pairs < e.deadline)) = false := by simp [hnew, hdue]
    simp only [execStopDelivery, hfind, hnow, Bool.false_eq_true, if_false]
  case save =>
    show ∃ t, execWarpSave core slot s = .next t ∧ _
    simp only [execWarpSave, hwarp, hsavable, Bool.not_true, Bool.false_eq_true, if_false]
    exact ⟨_, rfl, rfl, rfl, rfl, rfl, rfl, rfl⟩
  case drain =>
    show execDrainEnd n s = _
    simp only [execDrainEnd, hfind, hold, hdrained, Bool.not_true, Bool.or_self, Bool.false_eq_true, if_false]
    cases e.reply <;> rfl

/-! ### The answers to a fault -/

theorem faultReply_of_waiting {s : State} {p : Packet} {h : HFault} {w : Warp} (hadmits : Admits s p true)
    (hclear : pktClear p 18 [2, 3, 4, 5, 6, 7] = true) (hwaiting : s.waiting p = some (h, w)) (f : HFault → Warp → State → State) :
    s.faultReply p f = ((f h w s).answered h.id).answer p 0 0 := by
  simp only [State.faultReply, request_of_admits hadmits hclear, hwaiting]

/-- Settles O40: the answer that the host gives to a fault is done to its lanes, and its request completes. -/
theorem faultReplies : Obligations.FaultReplies := by
  unfold Obligations.FaultReplies
  refine ⟨fun s p h w hadmits hclear hwaiting => congrArg Host.Outcome.next (faultReply_of_waiting hadmits hclear hwaiting _),
    fun s p h w hadmits hclear hwaiting => congrArg Host.Outcome.next (faultReply_of_waiting hadmits hclear hwaiting _),
    fun s p h w hadmits hclear hwaiting => congrArg Host.Outcome.next (faultReply_of_waiting hadmits hclear hwaiting _),
    fun s p ⟨hready, hmay⟩ => congrArg Host.Outcome.next ?_⟩
  simp [State.request, hready, hmay]

/-! ### TLBINV forgets walks too -/

/-- R177: a TLBINV admitted where no transfer of its context is under way also makes the context's warps forget failed walks of the range. -/
theorem execTlbinv_of_quiet {s : State} {p : Packet} {c : Ctx} (hslow : s.slowOf p = none) (hadmits : Admits s p false)
    (hclear : pktClear p 16 [3, 4, 5, 6, 7] = true) (hctx : s.ctx (pktCtx p) = some c)
    (hquiet : ((s.dropTlb fun e => TlbE.inRange e c.id (pktWord p 1).toNat (pktWord p 2).toNat).dropWalked c.id
      (pktWord p 1).toNat (pktWord p 2).toNat).xferBusy c.id = false) :
    execTlbinv p s = .next (((s.dropTlb fun e => TlbE.inRange e c.id (pktWord p 1).toNat (pktWord p 2).toNat).dropWalked c.id
      (pktWord p 1).toNat (pktWord p 2).toNat).answer p 0 0) := by
  simp only [execTlbinv, hslow, State.ctxRequest, request_of_admits hadmits hclear, hctx, hquiet, Bool.false_eq_true, if_false]

/-- A warp of context 0 that has been told of a failed walk of page 0. -/
def walkedWarp : Warp := { newWarp Grid.void 1 1 0 0 0 0 with walked := [(0, false)] }

/-- A module that is READY, with context 0 and that warp. -/
def walkedState : State := { State.reset with
  boot := { Boot.reset with st := .ready }, warps := [walkedWarp], sch := { Sched.reset with ctxs := [⟨0, [], 8, [], [], 0⟩] } }

/-- A TLBINV of the admin interface for all of context 0. -/
def tlbinvAll : Packet := ⟨8, 0, 0, [0x22], []⟩

/-- Refutes O41: TLBINV also makes the context's warps forget the failed walks they have been told of (R177, `State.dropWalked`), which the
statement's next state leaves as they were; a warp that has been told of one shows the difference. -/
theorem not_hostSetup : ¬ Obligations.HostSetup := by
  unfold Obligations.HostSetup
  rintro ⟨-, -, htlbinv, -⟩
  have hadmits : Admits walkedState tlbinvAll false := ⟨rfl, rfl⟩
  have hstated := htlbinv walkedState tlbinvAll _ rfl hadmits rfl rfl
  have hdone := execTlbinv_of_quiet (s := walkedState) (p := tlbinvAll) rfl hadmits rfl rfl rfl
  have hsame := Host.Outcome.next.inj (hdone.symm.trans hstated)
  have hwalked := congrArg (fun t : State => t.warps.map Warp.walked) hsame
  exact absurd hwalked (by decide)

end Sys2Proof.Machine

end

