-- ==== Sys2Proof/Proofs/SlowRequestsAndDebug.lean ====
section
/-! PROVED FACTS. Requests that take time, the heartbeat, the trace unit and the debugger (32_links.md: The host function; 34_trace.md). -/

namespace Sys2Proof.Machine

/-! ### Requests that take time -/

/-- R371: what CLOCK does to one die: where the mask names it, the setting is selected. -/
def State.selectClock (mask v : Nat) (s : State) (d : Nat) : State :=
  if mask / 2 ^ d % 2 = 1 then s.modDie d fun x => { x with selected := v } else s

/-- A change of one die's state, seen at any die. -/
theorem die_modDie (s : State) (d e : Nat) (f : Die → Die) :
    (s.modDie d f).die e = if d = e ∧ e < s.dies.length then f (s.die e) else s.die e := by
  simp only [State.die, State.modDie, List.getD_eq_getElem?_getD, List.getElem?_modify]
  by_cases hlen : e < s.dies.length
  · rw [List.getElem?_eq_getElem hlen]
    by_cases h : d = e <;> simp [h, hlen]
  · simp [hlen]

theorem selectClock_die (mask v : Nat) (s : State) (d e : Nat) :
    (s.selectClock mask v d).die e =
      if (d = e ∧ e < s.dies.length) ∧ mask.testBit d = true then { s.die e with selected := v } else s.die e := by
  rw [State.selectClock, Nat.testBit_eq_decide_div_mod_eq]
  by_cases h : mask / 2 ^ d % 2 = 1
  · simp [h, die_modDie]
  · simp [h]

theorem selectClock_frame (mask v : Nat) (s : State) (d : Nat) :
    (s.selectClock mask v d).dies.length = s.dies.length ∧ (s.selectClock mask v d).mem = s.mem ∧
      (s.selectClock mask v d).warps = s.warps ∧ (s.selectClock mask v d).grids = s.grids := by
  rw [State.selectClock]
  split
  · exact ⟨List.length_modify .., rfl, rfl, rfl⟩
  · exact ⟨rfl, rfl, rfl, rfl⟩

/-- R371: after CLOCK each die of the list that the mask names has the setting selected; nothing else of any die has changed. -/
theorem selectClock_foldl (mask v : Nat) (ds : List Nat) (s : State) :
    (∀ e, (ds.foldl (State.selectClock mask v) s).die e =
      if e ∈ ds ∧ e < s.dies.length ∧ mask.testBit e = true then { s.die e with selected := v } else s.die e) ∧
    (ds.foldl (State.selectClock mask v) s).mem = s.mem ∧ (ds.foldl (State.selectClock mask v) s).warps = s.warps ∧
    (ds.foldl (State.selectClock mask v) s).grids = s.grids := by
  induction ds generalizing s with
  | nil => exact ⟨fun e => by simp, rfl, rfl, rfl⟩
  | cons d ds ih =>
    obtain ⟨hlen, hmem, hwarps, hgrids⟩ := selectClock_frame mask v s d
    obtain ⟨hdie, hmem', hwarps', hgrids'⟩ := ih (s.selectClock mask v d)
    refine ⟨fun e => ?_, hmem'.trans hmem, hwarps'.trans hwarps, hgrids'.trans hgrids⟩
    rw [List.foldl_cons, hdie e, hlen, selectClock_die]
    by_cases hde : d = e
    · subst hde
      by_cases hin : d < s.dies.length ∧ mask.testBit d = true <;> simp [hin]
    · simp [hde, Ne.symm hde]

theorem execClock_of_admits {s : State} {p : Packet} (hslow : s.slowOf p = none) (hadmits : Admits s p true)
    (hclear : pktClear p 16 [3, 4, 5, 6, 7] = true) (h1 : pktF p 1 4 60 = 0) (h2 : pktF p 2 4 60 = 0) (hmask : pktF p 1 0 4 ≠ 0)
    (hv : pktF p 2 0 4 ≤ 10) :
    execClock p s = .next (((List.range 4).foldl (State.selectClock (pktF p 1 0 4) (pktF p 2 0 4)) s).addSlow p (pktF p 1 0 4)) := by
  have hok : (pktClear p 16 [3, 4, 5, 6, 7] && pktF p 1 4 60 == 0 && pktF p 2 4 60 == 0 && pktF p 1 0 4 != 0 &&
      decide (pktF p 2 0 4 ≤ 10)) = true := by simp [hclear, h1, h2, hmask, hv]
  simp only [execClock, hslow, request_of_admits hadmits hok] <;> rfl

/-- Settles O43: a slow request completes once nothing keeps it, CLOCK selects its setting, and a clock change takes effect at a tick. -/
theorem slowRequests : Obligations.SlowRequests := by
  unfold Obligations.SlowRequests
  refine ⟨fun s p i n y ctx m hslow hfree => ?tlbinv, fun s p i n y ctx m hslow hquiet => ?destroy, fun s p i n y ctx m hslow hdone => ?clock,
    fun s p hslow hadmits hclear h1 h2 hmask hv => ?select, fun s die htick hne => ?change⟩
  case tlbinv =>
    show execTlbinv p s = _
    simp only [execTlbinv, hslow, hfree, Bool.false_eq_true, if_false]
  case destroy =>
    show execDestroy p s = _
    simp only [execDestroy, hslow, hquiet, if_true]
  case clock =>
    show execClock p s = _
    simp only [execClock, hslow, hdone, if_true]
  case select =>
    obtain ⟨hdie, hmem, hwarps, hgrids⟩ := selectClock_foldl (pktF p 1 0 4) (pktF p 2 0 4) (List.range 4) s
    refine ⟨_, execClock_of_admits hslow hadmits hclear h1 h2 hmask hv, fun d hd hlen => ?_, fun d => ?_, hmem, hwarps, hgrids⟩
    · simp only [hdie d, List.mem_range, hd, hlen, true_and]
      split <;> rfl
    · rw [hdie d]
      split <;> exact ⟨rfl, rfl⟩
  case change =>
    show execClockChange die s = _
    simp only [execClockChange, htick, hne, ne_eq, not_true, or_self, if_false]

/-! ### The heartbeat, the trace unit and the debugger -/

theorem destOk_iff (s : State) (ctx : Nat) :
    s.destOk ctx = true ↔ ∃ v, s.current ctx s.trace.dest = some v ∧ v.kind = 1 ∧ v.len % 128 = 0 ∧ 4096 ≤ v.len := by
  rw [State.destOk]
  cases s.current ctx s.trace.dest with
  | none => simp
  | some v => simp [and_assoc]

theorem writeControl_of_legal {s : State} {v : DWord} (h : v.getLsbD 0 = true → s.destOk (fld v 24 8) = true) :
    s.writeControl v = { s with
      grids := if v.getLsbD 4 && s.trace.flags.getLsbD 4 then s.grids else s.grids.map fun g => { g with capture := false }
      trace := { s.trace with
        ctx := fld v 24 8
        k := if 8 ≤ fld v 16 5 ∧ fld v 16 5 ≤ 20 then fld v 16 5 else s.trace.k
        flags := v.truncate 6
        armed := v.getLsbD 4 && (s.trace.armed || !s.trace.flags.getLsbD 4) } } := by
  have hok : (v.getLsbD 0 && !s.destOk (fld v 24 8)) = false := by
    cases hon : v.getLsbD 0 with
    | false => rfl
    | true => rw [h hon]; rfl
  simp only [State.writeControl, hok, Bool.false_eq_true, if_false]

theorem execDebugStop_of_quiet {s : State} {core slot c n : Nat} {w : Warp} {d : DWord} (hwarp : s.warpAt core slot = some w)
    (hreq : w.dbgReq = some (c, n, d)) (hdebugged : s.debugged w = true) (hc : c ≠ 0) (hrun : w.run = none) (hquiet : w.quiet = true)
    (hpend : ∀ p ∈ w.pend, p.wb = true ∨ p.kind = .barrier ∨ p.kind = .held) :
    execDebugStop core slot s = .next
      ((s.modWarp core slot fun v => { v with dbg := true, dbgReq := if s.standsBefore w c d then some (0, n, 0) else none }).traceCore
        0 core (s.ctxOf w) 9 (w.standPc.toNat + c * 2 ^ 32) d.toNat 0) := by
  have hall : (w.pend.all fun p => p.wb || p.idle) = true := List.all_eq_true.mpr fun p hp => by
    simpa [Pend.idle] using hpend p hp
  have hgo : (decide (c = 0) || w.run.isSome || !w.quiet || !w.pend.all (fun p => p.wb || p.idle)) = false := by
    simp [hc, hrun, hquiet, hall]
  simp only [execDebugStop, hwarp, hreq, hdebugged, hgo, Bool.not_true, Bool.false_eq_true, if_false] <;> rfl

/-- Settles O44: the heartbeat, the trace unit and the debugger do what their registers ask. -/
theorem clocksTraceAndDebug : Obligations.ClocksTraceAndDebug := by
  unfold Obligations.ClocksTraceAndDebug
  refine ⟨fun s => rfl, fun s hdue => ?latch, fun s die hsync => ?sync, fun s v hok => congrArg Host.Outcome.next (writeControl_of_legal hok),
    fun s v hon hbad => ?control, fun s v => ⟨rfl, rfl, rfl, rfl⟩, destOk_iff, fun s v w hgo hsel hdbg => ?dacc,
    fun s v w hgo hclass hsel hdbg hdebugged => ?request, fun s v w hgo hsel hdbg => ?resume, fun s core slot w c n d hwarp hreq hoff => ?forget,
    fun s core slot w c n d hwarp hreq hdebugged hc hrun hquiet hpend =>
      execDebugStop_of_quiet hwarp hreq hdebugged hc hrun hquiet hpend⟩
  case latch =>
    show execCountersLatch s = _
    simp only [execCountersLatch, hdue, Bool.not_true, Bool.false_eq_true, if_false]
  case sync =>
    show execSync die s = _
    simp only [execSync, hsync, if_false, apply_ite Host.Outcome.next]
  case control => exact congrArg Host.Outcome.next (if_pos (by simp [hon, hbad]))
  case dacc =>
    refine congrArg Host.Outcome.next ?_
    have hsel' : ({ s with trace := { s.trace with dacc := v &&& ~~~(1#64 <<< 63) } } : State).selected = some w := hsel
    simp only [State.writeDacc, hgo, hsel', hdbg, Bool.not_true, Bool.false_eq_true, if_false, if_true]
  case request =>
    refine congrArg Host.Outcome.next ?_
    have hsel' : ({ s with trace := { s.trace with dacc := v &&& ~~~(1#64 <<< 63) } } : State).selected = some w := hsel
    have hdebugged' : ({ s with trace := { s.trace with dacc := v &&& ~~~(1#64 <<< 63) } } : State).debugged w = true := hdebugged
    simp only [State.writeDacc, hgo, hclass, hsel', hdbg, hdebugged', decide_true, Bool.and_self, Bool.not_true, Bool.false_eq_true, if_false,
      if_true]
  case resume =>
    refine congrArg Host.Outcome.next ?_
    simp only [State.writeResume, hgo, hsel, hdbg, Bool.not_true, Bool.false_eq_true, if_false, if_true]
  case forget =>
    show execDebugStop core slot s = _
    simp only [execDebugStop, hwarp, hreq, hoff, Bool.not_false, if_true]

end Sys2Proof.Machine

end

