-- ==== Sys2Proof/Proofs/HostQueues.lean ====
section
/-! PROVED FACTS. Requests about queues, rings and PASIDs, and doorbells (32_links.md: The host function; 22_scheduling.md: Launch queues and packets). -/

namespace Sys2Proof.Machine

/-! ### Requests about queues, rings and PASIDs -/

theorem ctxRequest_of_admits {s : State} {p : Packet} {admin ok : Bool} {c : Ctx} (h : Admits s p admin) (hok : ok = true)
    (hctx : s.ctx (pktCtx p) = some c) (f : Ctx → State) : s.ctxRequest p admin ok f = f c := by
  rw [State.ctxRequest, request_of_admits h hok, hctx]

theorem execPasidRevoke_of_admits {s : State} {p : Packet} (hadmits : Admits s p true) (hok : pasidOk p = true) :
    execPasidRevoke p s = .next
      (let e := (pktF p 1 0 20, pktF p 2 0 3)
       let left := s.host.pasids.filter fun x => x != e
       ({ s with host := { s.host with
         pasids := left,
         revoked := if e ∈ s.host.pasids ∧ ∀ x ∈ left, x.1 ≠ e.1 then s.host.revoked.filter (fun x => x != e.1) ++ [e.1]
           else s.host.revoked } } : State).answer p 0 0) := by
  simp only [execPasidRevoke, request_of_admits hadmits hok, Bool.and_eq_true, List.contains_iff_mem, Bool.not_eq_true', List.any_eq_false,
    beq_iff_eq, ne_eq]

theorem execQbindBind_of_free {s : State} {p : Packet} {c : Ctx} (hadmits : Admits s p true) (hclear : pktClear p 16 [3, 4, 5, 6, 7] = true)
    (hfields : pktF p 1 6 2 = 0 ∧ pktF p 1 10 54 = 0 ∧ pktF p 2 4 4 = 0 ∧ pktF p 2 11 5 = 0 ∧ pktF p 2 17 47 = 0) (hiface : pktF p 2 0 4 < 8)
    (hctx : s.ctx (pktCtx p) = some c) (howner : c.owner = pktF p 2 0 4) (hbind : (s.queue (pktF p 1 0 6)).bind = none)
    (hpkts : (s.queue (pktF p 1 0 6)).pkts = []) (hring : s.ringTaken (pktF p 2 0 4) (pktF p 2 8 3) = false) :
    execQbindBind p s = .next ((s.modQueue (pktF p 1 0 6) fun k => { k with
      bind := some (c.id, pktF p 1 8 2, pktF p 2 0 4, pktF p 2 8 3) }).answer p 0 0) := by
  obtain ⟨h1, h2, h3, h4, h5⟩ := hfields
  have hok : (pktClear p 16 [3, 4, 5, 6, 7] && pktF p 1 6 2 == 0 && pktF p 1 10 54 == 0 && pktF p 2 4 4 == 0 && pktF p 2 11 5 == 0 &&
      pktF p 2 17 47 == 0 && decide (pktF p 2 0 4 < 8)) = true := by simp [hclear, h1, h2, h3, h4, h5, hiface]
  have hfree : (c.owner != pktF p 2 0 4 || (s.queue (pktF p 1 0 6)).bind.isSome || !(s.queue (pktF p 1 0 6)).pkts.isEmpty ||
      s.ringTaken (pktF p 2 0 4) (pktF p 2 8 3)) = false := by simp [howner, hbind, hpkts, hring]
  simp only [execQbindBind, ctxRequest_of_admits hadmits hok hctx, hfree, Bool.false_eq_true, if_false]

theorem execQbindUnbind_of_idle {s : State} {p : Packet} (hadmits : Admits s p true) (hclear : pktClear p 16 [3, 4, 5, 6, 7] = true)
    (hfields : pktF p 1 6 2 = 0 ∧ pktF p 1 10 54 = 0 ∧ pktF p 2 4 4 = 0 ∧ pktF p 2 11 5 = 0 ∧ pktF p 2 17 47 = 0)
    (hpkts : (s.queue (pktF p 1 0 6)).pkts = []) (hhalted : (s.queue (pktF p 1 0 6)).halted = false) :
    execQbindUnbind p s = .next ((s.modQueue (pktF p 1 0 6) fun k => { k with bind := none }).answer p 0 0) := by
  obtain ⟨h1, h2, h3, h4, h5⟩ := hfields
  have hok : (pktClear p 16 [3, 4, 5, 6, 7] && pktF p 1 6 2 == 0 && pktF p 1 10 54 == 0 && pktF p 2 4 4 == 0 && pktF p 2 11 5 == 0 &&
      pktF p 2 17 47 == 0) = true := by simp [hclear, h1, h2, h3, h4, h5]
  have hfree : (!(s.queue (pktF p 1 0 6)).pkts.isEmpty || (s.queue (pktF p 1 0 6)).halted) = false := by simp [hpkts, hhalted]
  simp only [execQbindUnbind, request_of_admits hadmits hok, hfree, Bool.false_eq_true, if_false]

/-- R372: the checks that RINGCFG makes of its words. -/
def ringWordsOk (p : Packet) : Bool :=
  pktClear p 16 [4, 5, 6, 7] && pktF p 1 4 4 == 0 && pktF p 1 12 52 == 0 && pktF p 3 5 59 == 0 &&
    decide (pktF p 1 0 4 ≤ 8 ∧ pktF p 1 8 4 ≤ 10 ∧ 4 ≤ pktF p 3 0 5 ∧ pktF p 3 0 5 ≤ 16) &&
    (pktF p 1 0 4 != 8 || pktF p 1 8 4 == 0 || pktF p 1 8 4 == 9 || pktF p 1 8 4 == 10) &&
    (pktWord p 2).toNat % (ringEntry (pktF p 1 8 4) * 2 ^ pktF p 3 0 5) == 0

theorem execRingcfg_of_admits {s : State} {p : Packet} {f : Iface} (hadmits : Admits s p true) (hok : ringWordsOk p = true)
    (hiface : s.host.ifaces[pktF p 1 0 4]? = some f) :
    execRingcfg p s = .next (if f.ringBusy (pktF p 1 8 4) = true then s.answer p refused 0 else
      (let set := { f with rings := f.rings.set (pktF p 1 8 4) (some ⟨(pktWord p 2).toNat, pktF p 3 0 5, 0, 0⟩) }
       let g := if pktF p 1 8 4 = 0 then { set with chead := 0 } else if pktF p 1 8 4 = 10 then { set with events := 0, ehead := 0 } else set
       let t := ({ s with host := { s.host with ifaces := s.host.ifaces.set (pktF p 1 0 4) g } } : State)
       (if pktF p 1 8 4 = 10 then t.flushEvents (pktF p 1 0 4) else t).answer p 0 0)) := by
  rw [ringWordsOk] at hok
  simp only [execRingcfg, request_of_admits hadmits hok, hiface]

theorem evctr_of_admits {s : State} {p : Packet} {c : Ctx} (hadmits : Admits s p false) (hclear : pktClear p 16 [3, 4, 5, 6, 7] = true)
    (hzero : pktF p 1 9 55 = 0) (hctx : s.ctx (pktCtx p) = some c) (op : Nat) :
    s.evctr p op = (s.bumpCounter c.id (pktF p 1 0 8) op (pktWord p 2)).answer p 0 0 := by
  have hok : (pktClear p 16 [3, 4, 5, 6, 7] && pktF p 1 9 55 == 0) = true := by simp [hclear, hzero]
  rw [State.evctr, ctxRequest_of_admits hadmits hok hctx]

/-! ### Doorbells -/

theorem fetchRing_boot {s t : State} {iface r : Nat} {tail : DWord} {pasid : Option (BitVec 20)} {ps qs : List Packet}
    (h : s.fetchRing iface r tail pasid ps = some (t, qs)) : t.boot = s.boot := by
  revert h
  unfold State.fetchRing
  split
  · next f _ _ =>
    split
    · exact fun h => absurd h (by simp)
    · next g _ =>
      split
      · exact fun h => absurd h (by simp)
      · intro h
        obtain ⟨rfl, -⟩ := Prod.mk.inj (Option.some.inj h)
        rfl
  · exact fun h => absurd h (by simp)

theorem takeControl_of_notReady {s : State} (h : s.boot.st ≠ .ready) (p : Packet) : s.takeControl p = (s.answer p refused 0, []) :=
  if_pos (bne_iff_ne.mpr h)

theorem takeLaunch_of_notReady {s : State} (h : s.boot.st ≠ .ready) (ring : Nat) (p : Packet) :
    s.takeLaunch ring p = s.complete p.iface p.index (pktType p) refused 0 :=
  if_pos (bne_iff_ne.mpr h)

/-- R400: while the module is not READY, every control packet of a ring completes as refused, and none is carried out. -/
theorem takeControl_foldl_of_notReady (qs : List Packet) (is : List Instr) (t : State) (h : t.boot.st ≠ .ready) :
    qs.foldl (fun a p => ((a.1.takeControl p).1, a.2 ++ (a.1.takeControl p).2)) (t, is) = (qs.foldl (fun u p => u.answer p refused 0) t, is) := by
  induction qs generalizing t with
  | nil => rfl
  | cons p qs ih =>
    rw [List.foldl_cons, takeControl_of_notReady h, List.append_nil]
    exact ih (t.answer p refused 0) h

theorem takeLaunch_foldl_of_notReady (ring : Nat) (qs : List Packet) (t : State) (h : t.boot.st ≠ .ready) :
    qs.foldl (fun s p => s.takeLaunch ring p) t = qs.foldl (fun u p => u.complete p.iface p.index (pktType p) refused 0) t := by
  induction qs generalizing t with
  | nil => rfl
  | cons p qs ih =>
    rw [List.foldl_cons, takeLaunch_of_notReady h]
    exact ih (t.complete p.iface p.index (pktType p) refused 0) h

theorem execCdb_of_fetched {s t : State} {iface : Nat} {tail : DWord} {pasid : Option (BitVec 20)} {ps qs : List Packet}
    (h : s.fetchRing iface 0 tail pasid ps = some (t, qs)) :
    execCdb iface tail pasid ps s = .next
      (let r := qs.foldl (fun a p => ((a.1.takeControl p).1, a.2 ++ (a.1.takeControl p).2)) (t, ([] : List Instr))
       { r.1 with agenda := r.2.map (fun i => (0, i)) ++ r.1.agenda }) := by
  simp only [execCdb, h]

theorem execLdb_of_fetched {s t : State} {iface ring : Nat} {tail : DWord} {pasid : Option (BitVec 20)} {ps qs : List Packet}
    (hring : ring < 8) (h : s.fetchRing iface (ring + 1) tail pasid ps = some (t, qs)) :
    execLdb iface ring tail pasid ps s = .next (qs.foldl (fun s p => s.takeLaunch ring p) t) := by
  simp only [execLdb, h, Nat.not_le.mpr hring, if_false]

/-- Settles O42: legal requests of the host about queues, rings and PASIDs act and complete, and a doorbell takes the packets of its ring. -/
theorem hostQueues : Obligations.HostQueues := by
  unfold Obligations.HostQueues
  refine ⟨fun s p hadmits hclear hzero hmine => ?restart, fun s p hadmits hok => ?grant,
    fun s p hadmits hok => execPasidRevoke_of_admits hadmits hok, fun s p c hslow hadmits hclear hctx => ?destroy,
    fun s p c hadmits hclear h1 h2 h3 h4 h5 hiface hctx howner hbind hpkts hring =>
      execQbindBind_of_free hadmits hclear ⟨h1, h2, h3, h4, h5⟩ hiface hctx howner hbind hpkts hring,
    fun s p hadmits hclear h1 h2 h3 h4 h5 hpkts hhalted => execQbindUnbind_of_idle hadmits hclear ⟨h1, h2, h3, h4, h5⟩ hpkts hhalted,
    fun s p f hadmits hclear h1 h2 h3 hi hr hlow hhigh hadmin halign hiface => ?ring, fun s i f hiface => ?flush,
    fun s p c i op hi hadmits hclear hzero hctx => ?counter, fun s p => ?unknown, fun s t iface tail pasid ps qs hfetch => ?control,
    fun s t iface ring tail pasid ps qs hring hfetch => execLdb_of_fetched hring hfetch,
    fun s t iface tail pasid ps qs hfetch hst => ?controlRefused, fun s t iface ring tail pasid ps qs hring hfetch hst => ?launchRefused,
    fun s p hready hiface hgranted => ⟨fun hmay => ?revokedControl, fun ring => ?revokedLaunch⟩,
    fun s p hready => ⟨fun hgo => ?taken, fun ring hgranted => ?entered⟩⟩
  case restart =>
    show execQrestart p s = _
    have hok : (pktClear p 16 [2, 3, 4, 5, 6, 7] && pktF p 1 6 58 == 0) = true := by simp [hclear, hzero]
    simp only [execQrestart, request_of_admits hadmits hok, hmine, if_true]
  case grant => exact congrArg Host.Outcome.next (request_of_admits hadmits hok _)
  case destroy =>
    show execDestroy p s = _
    simp only [execDestroy, hslow, ctxRequest_of_admits hadmits hclear hctx]
  case ring =>
    have hok : ringWordsOk p = true := by
      have hports : (pktF p 1 0 4 != 8 || pktF p 1 8 4 == 0 || pktF p 1 8 4 == 9 || pktF p 1 8 4 == 10) = true := by
        by_cases h8 : pktF p 1 0 4 = 8
        · rcases hadmin h8 with h | h | h <;> simp [h]
        · simp [h8]
      simp [ringWordsOk, hclear, h1, h2, h3, hi, hr, hlow, hhigh, hports, halign]
    have hexec := execRingcfg_of_admits hadmits hok hiface
    exact ⟨fun hbusy => hexec.trans (by rw [if_pos hbusy]), fun hbusy => hexec.trans (by rw [hbusy, if_neg Bool.false_ne_true])⟩
  case flush => simp only [State.flushEvents, hiface]
  case counter =>
    rcases hi with ⟨rfl, rfl⟩ | ⟨rfl, rfl⟩
    · exact congrArg Host.Outcome.next (evctr_of_admits hadmits hclear hzero hctx 0)
    · exact congrArg Host.Outcome.next (evctr_of_admits hadmits hclear hzero hctx 1)
  case unknown =>
    show execUnknownControlPacket p s = _
    simp only [execUnknownControlPacket, beq_iff_eq]
  case control => exact ⟨_, _, execCdb_of_fetched hfetch, rfl⟩
  case controlRefused =>
    have ht : t.boot.st ≠ .ready := by rwa [fetchRing_boot hfetch]
    refine (execCdb_of_fetched hfetch).trans ?_
    rw [takeControl_foldl_of_notReady qs [] t ht]
    rfl
  case launchRefused =>
    have ht : t.boot.st ≠ .ready := by rwa [fetchRing_boot hfetch]
    exact (execLdb_of_fetched hring hfetch).trans (congrArg Host.Outcome.next (takeLaunch_foldl_of_notReady ring qs t ht))
  case revokedControl => simp [State.takeControl, hready, hmay, hiface, hgranted]
  case revokedLaunch => simp [State.takeLaunch, hready, hgranted]
  case taken => rcases hgo with h | h | h <;> simp [State.takeControl, hready, h]
  case entered => simp only [State.takeLaunch, hready, hgranted, bne_self_eq_false, Bool.not_true, Bool.false_eq_true, if_false] <;> rfl

end Sys2Proof.Machine

end

