-- ==== Sys2Proof/Proofs/BringupAndErrors.lean ====
section
/-! PROVED FACTS. Reset, bring-up, attestation, the pages' registers, the alarm, heat and errors (36_bringup.md; 34_trace.md: The trace page). -/

namespace Sys2Proof.Machine

/-! ### The memory system and the trace unit leave clocks, warps and bins alone -/

/-- `t` has the clocks, the warps and the bins of `s`. -/
structure SameUnits (s t : State) : Prop where
  dies : t.dies = s.dies
  warps : t.warps = s.warps
  bins : t.bins = s.bins

namespace SameUnits
variable {s t : State}

theorem refl (s : State) : SameUnits s s := ⟨rfl, rfl, rfl⟩
theorem modMem (h : SameUnits s t) (f : MemSys → MemSys) : SameUnits s (t.modMem f) := ⟨h.dies, h.warps, h.bins⟩
theorem modCore (h : SameUnits s t) (n : Nat) (f : Core → Core) : SameUnits s (t.modCore n f) := ⟨h.dies, h.warps, h.bins⟩
theorem trace (h : SameUnits s t) (tr : Trace) : SameUnits s { t with trace := tr } := ⟨h.dies, h.warps, h.bins⟩

theorem foldl {α : Type} (h : SameUnits s t) (l : List α) (f : State → α → State) (hf : ∀ u a, SameUnits s u → SameUnits s (f u a)) :
    SameUnits s (l.foldl f t) :=
  List.foldlRecOn l f h fun u hu a _ => hf u a hu

theorem ite {c : Prop} [Decidable c] {a b : State} (ha : SameUnits s a) (hb : SameUnits s b) : SameUnits s (if c then a else b) := by
  split
  · exact ha
  · exact hb

theorem putBelow (h : SameUnits s t) (l : LineId) (mask : BitVec 4) (d : List Byte) (p : BitVec 4) : SameUnits s (t.putBelow l mask d p) := by
  cases l with
  | dev n => exact ⟨h.dies, h.warps, h.bins⟩
  | host n => exact ⟨h.dies, h.warps, h.bins⟩

theorem homePatch (h : SameUnits s t) (l : LineId) (mask : BitVec 4) (d : List Byte) (p : BitVec 4) : SameUnits s (t.homePatch l mask d p) := by
  unfold State.homePatch State.nextUse State.modCell
  grind [← modMem, ← putBelow]

theorem evictCell (h : SameUnits s t) (l : LineId) : SameUnits s (t.evictCell l) := by
  unfold State.evictCell State.cleanCell State.dropCell State.modCell
  grind [← modMem, ← putBelow]

theorem recall' (h : SameUnits s t) (l : LineId) (but : Option Nat) (keep : Bool) : SameUnits s (t.recall l but keep) := by
  unfold State.recall State.modDir State.writeBack State.modL1 State.dropL1
  grind [← modMem, ← modCore, ← homePatch, ← foldl]

theorem agentWrite (h : SameUnits s t) (l : LineId) (attr : BitVec 16) (off : Nat) (b : List Byte) :
    SameUnits s (t.agentWrite l attr off b) := by
  unfold State.agentWrite State.changeClass State.modDir
  grind [← modMem, ← recall', ← evictCell, ← homePatch]

theorem traceWrite (h : SameUnits s t) (va fuel : Nat) (b : List Byte) : SameUnits s (t.traceWrite va fuel b).1 := by
  induction fuel generalizing t va b with
  | zero => exact h
  | succ fuel ih =>
    unfold State.traceWrite State.addReq
    grind [← modMem, ← agentWrite]

theorem traceWrite_eq (h : SameUnits s t) {u : State} {va fuel : Nat} {b : List Byte} {ids : List Nat}
    (he : t.traceWrite va fuel b = (u, ids)) : SameUnits s u := by
  have hu := h.traceWrite va fuel b
  rwa [he] at hu

theorem traceRaw (h : SameUnits s t) (len : Nat) (ws : List Nat) : SameUnits s (t.traceRaw len ws) := by
  unfold State.traceRaw
  split
  · exact h
  · refine .ite (h.trace _) ?_
    split
    next u ids hfirst =>
    split
    next v more hsecond =>
    extract_lets w
    generalize settleTrace v.trace.widx _ = settled
    obtain ⟨x, l⟩ := settled
    exact ((h.traceWrite_eq hfirst).traceWrite_eq hsecond).trace _

theorem traceSync (h : SameUnits s t) (d : Nat) (chg : Bool) : SameUnits s (t.traceSync d chg) := by
  unfold State.traceSync
  exact h.traceRaw ..

theorem resync (h : SameUnits s t) : SameUnits s t.resync := by
  unfold State.resync
  grind [← traceSync, ← trace, ← foldl]

/-- R18, R390: a change of a die's clock changes that die, and what the trace unit writes. -/
theorem setClock (s : State) (d v : Nat) : SameUnits (s.modDie d fun x => x.change v) (s.setClock d v) := by
  exact .ite ((refl _).resync.traceSync d true) (refl _)

end SameUnits

/-! ### Heat -/

/-- R408: a die whose ceiling moves has the lower of its setting selected and the ceiling in force; no other die changes. -/
theorem setHeat_spec (s : State) (die h : Nat) (hlen : die < s.dies.length) :
    ((s.setHeat die h).die die).heat = h ∧ ((s.setHeat die h).die die).setting = min (s.die die).selected h ∧
      ((s.setHeat die h).die die).stepped = (s.die die).stepped ∧ (∀ d, d ≠ die → (s.setHeat die h).die d = s.die d) ∧
      (s.setHeat die h).warps = s.warps := by
  have hdie : ∀ d, (s.modDie die fun x => { x with heat := h }).die d = if die = d ∧ d < s.dies.length then { s.die d with heat := h } else s.die d :=
    fun d => die_modDie s die d _
  have hself := (hdie die).trans (if_pos ⟨rfl, hlen⟩)
  have hother : ∀ d, d ≠ die → (s.modDie die fun x => { x with heat := h }).die d = s.die d :=
    fun d hd => (hdie d).trans (if_neg fun hc => hd hc.1.symm)
  unfold State.setHeat
  extract_lets t x v
  split
  · next hsame =>
    have hx : x = { s.die die with heat := h } := hself
    refine ⟨?_, ?_, ?_, hother, rfl⟩
    · rw [show t.die die = x from rfl, hx]
    · rw [show t.die die = x from rfl, ← hsame]
      simp only [v, hx]
    · rw [show t.die die = x from rfl, hx]
  · have hframe := SameUnits.setClock t die v
    have hclock : ∀ d, (t.setClock die v).die d = if die = d ∧ d < s.dies.length then (t.die d).change v else t.die d := fun d => by
      have hlength : t.dies.length = s.dies.length := List.length_modify ..
      have hsame : (t.setClock die v).die d = (t.modDie die fun x => x.change v).die d :=
        congrArg (fun l : List Die => l.getD d _) hframe.dies
      rw [hsame, die_modDie, hlength]
    have hx : t.die die = { s.die die with heat := h } := hself
    refine ⟨?_, ?_, ?_, fun d hd => ?_, hframe.warps⟩
    · rw [hclock, if_pos ⟨rfl, hlen⟩, hx, Die.change]
    · rw [hclock, if_pos ⟨rfl, hlen⟩, Die.change]
      simp only [v, x, hx]
    · rw [hclock, if_pos ⟨rfl, hlen⟩, hx, Die.change]
    · rw [hclock, if_neg fun hc => hd hc.1.symm]
      exact hother d hd

theorem heatStep_of_due {s : State} {die : Nat} (htick : s.gtime % 256 = 0) (hnew : (s.die die).stepped ≠ s.gtime / 256 + 1)
    (hlen : die < s.dies.length) (h : Nat) :
    ((s.heatStep die h).die die).heat = h ∧ ((s.heatStep die h).die die).setting = min (s.die die).selected h ∧
      ((s.heatStep die h).die die).stepped = s.gtime / 256 + 1 ∧ (∀ d, d ≠ die → (s.heatStep die h).die d = s.die d) ∧
      (s.heatStep die h).warps = s.warps := by
  have hdie := fun d => die_modDie s die d fun d => { d with stepped := s.gtime / 256 + 1 }
  have hdue : ¬ (s.gtime % 256 ≠ 0 ∨ (s.die die).stepped = s.gtime / 256 + 1) := fun hc => hc.elim (fun hc => hc htick) hnew
  obtain ⟨hheat, hsetting, hstepped, hother, hwarps⟩ :=
    setHeat_spec (s.modDie die fun d => { d with stepped := s.gtime / 256 + 1 }) die h (by rwa [State.modDie, List.length_modify])
  rw [State.heatStep, if_neg hdue]
  refine ⟨hheat, ?_, ?_, fun d hd => (hother d hd).trans ?_, hwarps⟩
  · rw [hsetting, hdie die, if_pos ⟨rfl, hlen⟩]
  · rw [hstepped, hdie die, if_pos ⟨rfl, hlen⟩]
  · rw [hdie d, if_neg fun hc => hd hc.1.symm]

theorem heatStep_of_not_due {s : State} {die : Nat} (h : s.gtime % 256 ≠ 0 ∨ (s.die die).stepped = s.gtime / 256 + 1) (v : Nat) :
    s.heatStep die v = s := if_pos h

/-! ### Errors -/

theorem mem_addPoison_iff (l : List Nat) (x y : Nat) : y ∈ addPoison l x ↔ y ∈ l ∨ y = x := by
  rw [addPoison]
  split
  · next h =>
    have hx : x ∈ l := List.contains_iff_mem.mp h
    exact ⟨.inl, fun hy => hy.elim id fun hy => hy ▸ hx⟩
  · simp

theorem mem_peerAfter_iff (s : State) (rs : List HomeReq) (r : HomeReq) :
    r ∈ s.peerAfter rs ↔ r ∈ s.mem.queue ∧ r.warp = 0 ∧ (∃ q ∈ rs, q.warp = 0 ∧ q.id ∈ r.deps) ∧ ∀ q ∈ rs, q.id ≠ r.id := by
  simp only [State.peerAfter, List.mem_filter, Bool.and_eq_true, beq_iff_eq, List.any_eq_true, Bool.not_eq_true', List.any_eq_false, and_assoc]
  refine and_congr_right fun _ => and_congr_right fun _ => and_congr_left fun _ => ?_
  exact ⟨fun ⟨d, hd, q, hq, hw, he⟩ => ⟨q, hq, hw, he ▸ hd⟩, fun ⟨q, hq, hw, hd⟩ => ⟨q.id, hd, q, hq, hw, rfl⟩⟩

/-- R404: the sectors of the line of a sector in error are poisoned, and no other. -/
theorem mem_errDram_iff (l : List Nat) (x y : Nat) :
    y ∈ ([0, 1, 2, 3] : List Nat).foldl (fun l i => addPoison l (4 * (x / 4) + i)) l ↔ y ∈ l ∨ y / 4 = x / 4 := by
  have hline : y / 4 = x / 4 ↔ y = 4 * (x / 4) + 0 ∨ y = 4 * (x / 4) + 1 ∨ y = 4 * (x / 4) + 2 ∨ y = 4 * (x / 4) + 3 := by omega
  simp only [List.foldl_cons, List.foldl_nil, mem_addPoison_iff, hline, or_assoc]

/-- R404, R406: where lanes read the register, they receive MACHINE_CHECK and a record is made. -/
theorem errReg_of_read {s : State} {w : Warp} {lanes : List Nat} (h : lanes ≠ []) (reg lane : Nat) :
    s.errReg w lanes reg lane = ((s.machineRecord (s.ctxOf w) 5 (reg + lane * 256) (w.core + w.slot * 256)).raiseLanes w.uid w.readers.1
      (lanes.map fun i => ⟨i, .machineCheck, 0⟩)).endIfEmpty w.core w.slot :=
  if_neg fun hempty => h (List.isEmpty_iff.mp hempty)

/-! ### The pages' registers -/

theorem writeTrace_breakpoint (s : State) (v : DWord) {j : Nat} (hj : j < 8) :
    s.writeTrace (0x080 + 16 * j) v = { s with trace := { s.trace with
      bps := s.trace.bps.modify j fun b => { b with seq := fld v 32 32, pc := fld v 0 32 } } } ∧
    s.writeTrace (0x088 + 16 * j) v = { s with trace := { s.trace with
      bps := s.trace.bps.modify j fun b => { b with code := fld v 10 20, mode := fld v 8 2, core := fld v 0 8 } } } := by
  interval_cases j <;> exact ⟨rfl, rfl⟩

theorem writeTrace_watchpoint (s : State) (v : DWord) {j : Nat} (hj : j < 4) :
    s.writeTrace (0x120 + 16 * j) v = s.modCore (s.trace.dsel / 256 % 256) (fun k => { k with
      watch := k.watch.modify j fun p => { p with base := fld v 0 57 } }) ∧
    s.writeTrace (0x128 + 16 * j) v = s.modCore (s.trace.dsel / 256 % 256) (fun k => { k with
      watch := k.watch.modify j fun p => { p with kind := fld v 8 2, len := fld v 0 4 } }) := by
  interval_cases j <;> exact ⟨rfl, rfl⟩

theorem writeStatus_nonce (s : State) (v : DWord) {j : Nat} (hj : j < 4) :
    s.writeStatus (0x040 + 8 * j) v =
      if s.boot.ago then s else { s with boot := { s.boot with nonce := patch s.boot.nonce (8 * j) (leBytes 8 v.toNat) } } := by
  have hoff : 0x040 ≤ 0x040 + 8 * j ∧ 0x040 + 8 * j < 0x060 ∧ (0x040 + 8 * j) % 8 = 0 := by omega
  rw [State.writeStatus, if_pos hoff, Nat.add_sub_cancel_left]
  rfl

theorem modBoot_eq {s : State} {f : Boot → Boot} {b : Boot} (h : f s.boot = b) : s.modBoot f = { s with boot := b } := by
  rw [State.modBoot, h]

theorem writeAgo_of_alarm {s : State} (h : s.boot.st = .alarm) (v : DWord) : s.writeAgo v = s := modBoot_eq (if_pos h)

theorem writeAgo_of_busy {s : State} (halarm : s.boot.st ≠ .alarm) (hago : s.boot.ago = true) (v : DWord) :
    s.writeAgo v = { s with boot := { s.boot with ago := false, report := s.boot.makeReport } } :=
  modBoot_eq ((if_neg halarm).trans (if_pos hago))

/-- R402: AGO asked for while no report is made. -/
theorem writeAgo_of_asked {s : State} (halarm : s.boot.st ≠ .alarm) (hago : s.boot.ago = false) {v : DWord} (hv : v.getLsbD 0 = true) :
    s.writeAgo v = { s with boot := { s.boot with ago := true } } :=
  modBoot_eq ((if_neg halarm).trans ((if_neg (hago ▸ Bool.false_ne_true)).trans (if_pos hv)))

theorem writeAgo_of_low {s : State} (hago : s.boot.ago = false) {v : DWord} (hv : v.getLsbD 0 = false) : s.writeAgo v = s := by
  refine modBoot_eq (b := s.boot) ?_
  simp only [hago, hv, Bool.false_eq_true, if_false, ite_self]

/-! ### The stages of bring-up -/

theorem signed_iff (b : Boot) (f : Firmware) : b.signed f = true ↔ f.slot < 4 ∧ b.revoked.getLsbD f.slot = false ∧
    Config.ed25519Verify f.slot (leBytes 64 (digestOf f).toNat) f.signature = true := by
  simp only [Boot.signed, Bool.and_eq_true, decide_eq_true_eq, Bool.not_eq_true', and_assoc]

theorem stage_of_verify {s : State} (hst : s.boot.st = .booting) (hstage : s.boot.stage = 4) (r : StageResult) (fw : Option Firmware) :
    execSelfTestStageCompletion r fw s = .next (s.modBoot fun b => b.verify fw) := by
  simp only [execSelfTestStageCompletion, hst, hstage, ne_eq, not_true, if_false]

theorem stage_of_zeroing {s : State} (hst : s.boot.st = .booting) (hstage : s.boot.stage = 5) (r : StageResult) (fw : Option Firmware) :
    execSelfTestStageCompletion r fw s = .next (s.zeroAll.modBoot fun b => { b with st := .ready }) := by
  simp only [execSelfTestStageCompletion, hst, hstage, ne_eq, not_true, if_false]

/-- R399: ports that do not come up are left out, and the module goes on. -/
theorem stage_of_down {s : State} (hst : s.boot.st = .booting) (hstage : s.boot.stage = 3) (ps : BitVec 16) (fw : Option Firmware) :
    execSelfTestStageCompletion (.down ps) fw s = .next { s.modBoot fun b => { b with stage := 4, down := ps } with
      link := { s.link with live := s.link.live &&& ~~~ps } } := by
  simp only [execSelfTestStageCompletion, hst, hstage, ne_eq, not_true, if_false, if_true]
  rfl

theorem stage_of_test {s : State} (hst : s.boot.st = .booting) (hstage : s.boot.stage < 4) (fw : Option Firmware) :
    execSelfTestStageCompletion .passed fw s = .next (s.modBoot fun b => { b with stage := s.boot.stage + 1 }) ∧
    ∀ u, execSelfTestStageCompletion (.failed u) fw s = .next (s.modBoot fun b => b.fails s.boot.stage u) := by
  have h4 : s.boot.stage ≠ 4 := by omega
  have h5 : s.boot.stage ≠ 5 := by omega
  refine ⟨?_, fun u => ?_⟩
  · simp only [execSelfTestStageCompletion, hst, ne_eq, not_true, if_false]
  · simp only [execSelfTestStageCompletion, hst, ne_eq, not_true, if_false]

/-- R401: how the verification of an image that is there ends. -/
theorem verify_image (b : Boot) (f : Firmware) :
    (b.signed f = false → b.verify (some f) = b.fails 4 0) ∧
    (b.signed f = true → f.svn.toNat < b.rollback.toNat → b.verify (some f) = b.fails 5 0) ∧
    (b.signed f = true → b.rollback.toNat ≤ f.svn.toNat → b.verify (some f) = { b with
      stage := 5, fwsvn := f.svn, digest := digestOf f,
      rollback := if b.erased = false ∧ b.rollback.toNat < f.minsvn.toNat then f.minsvn else b.rollback }) := by
  refine ⟨fun h => ?_, fun h hold => ?_, fun h hnew => ?_⟩
  · simp only [Boot.verify, h, Bool.not_false, if_true]
  · simp only [Boot.verify, h, hold, Bool.not_true, Bool.false_eq_true, if_false, if_true]
  · simp only [Boot.verify, h, Nat.not_lt.mpr hnew, Bool.not_true, Bool.false_eq_true, if_false, Boot.accept, Bool.and_eq_true,
      Bool.not_eq_true', decide_eq_true_eq]

end Sys2Proof.Machine

open Sys2Proof Sys2Proof.Machine

/-- Settles O45: what reset, the stages of bring-up, attestation, the pages, the alarm, heat and each kind of error leave. -/
theorem bringupAndErrors : Obligations.BringupAndErrors := by
  unfold Obligations.BringupAndErrors
  refine ⟨fun s admin v => ⟨fun halarm => ?agoAlarm, fun halarm hago => ?agoEnds, fun halarm hago hadmin hv => ?agoAsked, fun hago hlow => ?agoLow⟩,
    fun s i off v admin => ⟨fun hoff => congrArg Host.Outcome.next (if_pos hoff), fun f hf => ?notify⟩, fun s off v => ⟨rfl, rfl⟩,
    fun s v => ⟨rfl, rfl, rfl, rfl, rfl⟩, fun s i v hi => ?evsel, fun s j v hj => ?breakpoint, fun s j v hj => ?watchpoint,
    fun s j v hj => congrArg Host.Outcome.next (writeStatus_nonce s v hj), fun s v halarm => ?agoRegister,
    fun s off => ⟨rfl, rfl, rfl, rfl, rfl, fun i f hf => ?pages⟩, fun s => rfl,
    fun s r hst hstage => ⟨(stage_of_verify hst hstage r none).trans rfl, fun f => ?image⟩, signed_iff, fun s r fw hst hstage => ?zeroed,
    fun s fw hst hstage => stage_of_test hst hstage fw, fun s fw ps hst hstage => ?down, fun s r fw hst => if_pos hst, fun s => rfl,
    fun s => ?halted, fun s die htick hnew hlen => ?heat, fun s die h => ?cold, fun s => rfl, fun s ctx what a b => ?record,
    fun s x => ⟨_, mem_errDram_iff s.mem.poison x, rfl⟩, fun s p => ⟨fun hdead => ?linkDead, fun hlive => rfl⟩, fun s l x c hc => ?cellar,
    fun s l x hc => ?noCell, fun s k l x c hc => ?l1, fun s k l x hc => ?noL1, fun s core slot x w hw => ?scratch, fun s core x => rfl,
    mem_addPoison_iff, fun s l => ?tags, fun s rs => rfl, mem_peerAfter_iff, fun s core slot lane reg w hw => ?vreg,
    fun s core slot reg w hw hread => ?sreg, fun s core ctx page => ?tlb, fun s => rfl⟩
  case agoAlarm =>
    show execAgo admin v s = _
    rw [execAgo, writeAgo_of_alarm halarm, ite_self]
  case agoEnds =>
    show execAgo admin v s = _
    rw [execAgo, writeAgo_of_busy halarm hago, hago, Bool.or_true, if_pos rfl]
    rfl
  case agoAsked =>
    show execAgo admin v s = _
    rw [execAgo, writeAgo_of_asked halarm hago hv, hadmin, Bool.true_or, if_pos rfl]
  case agoLow =>
    show execAgo admin v s = _
    rcases hlow with rfl | hv
    · rw [execAgo, hago, Bool.or_false, if_neg Bool.false_ne_true]
    · rw [execAgo, writeAgo_of_low hago hv, ite_self]
  case notify =>
    have hset : (s.host.ifaces.set i { f with ehead := v.toNat })[i]? = some { f with ehead := v.toNat } :=
      List.getElem?_set_self (List.getElem?_eq_some_iff.mp hf).1
    refine congrArg Host.Outcome.next ((if_neg (not_not.mpr rfl)).trans ?_)
    simp only [hf, State.flushEvents, hset, List.set_set]
  case evsel => interval_cases i <;> rfl
  case breakpoint =>
    obtain ⟨hlow, hhigh⟩ := writeTrace_breakpoint s v hj
    exact ⟨congrArg Host.Outcome.next hlow, congrArg Host.Outcome.next hhigh⟩
  case watchpoint =>
    obtain ⟨hlow, hhigh⟩ := writeTrace_watchpoint s v hj
    exact ⟨congrArg Host.Outcome.next hlow, congrArg Host.Outcome.next hhigh⟩
  case agoRegister =>
    have hoff : ¬ (0x040 ≤ 0x060 ∧ 0x060 < 0x060 ∧ 0x060 % 8 = 0) := by decide
    refine congrArg Host.Outcome.next ((if_neg hoff).trans ?_)
    cases hago : s.boot.ago with
    | true => simp
    | false =>
      cases hv : v.getLsbD 0 with
      | true => simpa using writeAgo_of_asked halarm hago hv
      | false => simpa using writeAgo_of_low hago hv
  case pages => simp [State.readNotify, hf]
  case image =>
    obtain ⟨hunsigned, hold, hnew⟩ := verify_image s.boot f
    have hstep := stage_of_verify hst hstage r (some f)
    exact ⟨fun h => hstep.trans (congrArg Host.Outcome.next (modBoot_eq (hunsigned h))),
      fun h hlt => hstep.trans (congrArg Host.Outcome.next (modBoot_eq (hold h hlt))),
      fun h hle => hstep.trans (congrArg Host.Outcome.next (modBoot_eq (hnew h hle)))⟩
  case zeroed =>
    exact (stage_of_zeroing hst hstage r fw).trans rfl
  case down =>
    exact (stage_of_down hst hstage ps fw).trans rfl
  case halted =>
    refine ⟨rfl, rfl, rfl, rfl, rfl, rfl, rfl, rfl, fun f hf => ?_, ?_, rfl, rfl, rfl, fun k hk q hq => ?_, fun q hq => ?_, fun b hb => ?_, rfl⟩
    · obtain ⟨g, -, rfl⟩ := List.mem_map.mp hf
      rfl
    · exact (List.map_map ..).trans (List.map_congr_left fun b _ => rfl)
    · obtain ⟨g, -, rfl⟩ := List.mem_map.mp hk
      exact List.eq_of_mem_replicate hq
    · obtain ⟨g, -, rfl⟩ := List.mem_map.mp hq
      rfl
    · obtain ⟨g, -, rfl⟩ := List.mem_map.mp hb
      rfl
  case heat =>
    obtain ⟨hheat, hsetting, hstepped, hother, hwarps⟩ := heatStep_of_due htick hnew hlen (min (s.die die).heat (s.die die).setting - 1)
    obtain ⟨hheat', hsetting', hstepped', hother', hwarps'⟩ := heatStep_of_due htick hnew hlen (min 10 ((s.die die).heat + 1))
    exact ⟨_, _, rfl, rfl, hheat, hsetting, hheat', hsetting', hstepped, hstepped', fun d hd => ⟨hother d hd, hother' d hd⟩, hwarps, hwarps'⟩
  case cold =>
    exact ⟨congrArg Host.Outcome.next (heatStep_of_not_due h _), congrArg Host.Outcome.next (heatStep_of_not_due h _)⟩
  case record => simp only [State.machineRecord, beq_iff_eq]
  case linkDead => exact congrArg Host.Outcome.next (if_pos (by rw [hdead]; rfl))
  case cellar =>
    refine congrArg Host.Outcome.next ?_
    simp only [State.errCellar, hc, LineId.addr]
  case noCell =>
    refine congrArg Host.Outcome.next ?_
    simp only [State.errCellar, hc]
  case l1 =>
    refine congrArg Host.Outcome.next ?_
    simp only [State.errL1, hc, LineId.addr]
  case noL1 =>
    refine congrArg Host.Outcome.next ?_
    simp only [State.errL1, hc]
  case scratch =>
    refine congrArg Host.Outcome.next ?_
    simp only [State.errScratch, hw]
  case tags => exact congrArg Host.Outcome.next rfl
  case vreg =>
    refine congrArg Host.Outcome.next ?_
    simp only [State.errVreg, hw]
    split
    · next hin =>
      have hsome : (w.readers.2.filter fun i => i == lane) ≠ [] :=
        List.ne_nil_of_mem (List.mem_filter.mpr ⟨hin, beq_self_eq_true lane⟩)
      rw [errReg_of_read hsome]
    · next hout =>
      have hnone : (w.readers.2.filter fun i => i == lane) = [] :=
        List.filter_eq_nil_iff.mpr fun i hi he => hout (eq_of_beq he ▸ hi)
      rw [hnone]
      rfl
  case sreg =>
    refine congrArg Host.Outcome.next ?_
    simp only [State.errSreg, hw]
    rw [errReg_of_read hread]
    rfl
  case tlb => exact congrArg Host.Outcome.next rfl

end

