-- ==== Sys2Proof/Proofs/PressCompletions.lean ====
section
/-! PROVED FACTS. Rows and vectors of a bin, lines of DRAM read and written by agents, and the completion of press operations (28_press.md). -/

namespace Sys2Proof.Machine

/-! ### Rows of a bin -/

theorem rowAt_append_of_ne {n m : Nat} (hne : n ≠ m) (x : BitVec 262144) (a b : List (Nat × BitVec 262144)) :
    rowAt (a ++ (n, x) :: b) m = rowAt (a ++ b) m := by
  induction a with
  | nil => exact if_neg hne
  | cons p a ih => simp only [List.cons_append, rowAt, ih]

theorem rowAt_append_self {n : Nat} {a : List (Nat × BitVec 262144)} (ha : ∀ p ∈ a, p.1 ≠ n) (x : BitVec 262144)
    (b : List (Nat × BitVec 262144)) : rowAt (a ++ (n, x) :: b) n = x := by
  induction a with
  | nil => exact if_pos rfl
  | cons p a ih =>
    rw [List.cons_append, rowAt, if_neg (ha p (List.mem_cons_self ..))]
    exact ih fun q hq => ha q (List.mem_cons_of_mem _ hq)

theorem rowAt_filter_ne (rows : List (Nat × BitVec 262144)) (n m : Nat) :
    rowAt (rows.filter fun p => p.1 != n) m = if m = n then 0 else rowAt rows m := by
  induction rows with
  | nil => exact (ite_self _).symm
  | cons p rows ih =>
    by_cases hp : p.1 = n
    · rw [List.filter_cons_of_neg (by simpa using hp), ih, rowAt]
      by_cases hm : m = n
      · rw [if_pos hm, if_pos hm]
      · rw [if_neg hm, if_neg hm, if_neg (hp ▸ Ne.symm hm)]
    · rw [List.filter_cons_of_pos (by simpa using hp), rowAt, rowAt, ih]
      by_cases hpm : p.1 = m
      · rw [if_pos hpm, if_pos hpm, if_neg (hpm ▸ hp)]
      · rw [if_neg hpm, if_neg hpm]

/-- R341: a row that is set is read back, and every other row stays. -/
theorem rowAt_setRow (rows : List (Nat × BitVec 262144)) (n m : Nat) (x : BitVec 262144) :
    rowAt (setRow rows n x) m = if m = n then x else rowAt rows m := by
  have hfilter := rowAt_filter_ne rows n m
  rw [setRow]
  split
  · next hx => rw [hfilter, hx]
  · by_cases hm : m = n
    · subst hm
      rw [if_pos rfl]
      refine rowAt_append_self (fun p hp => ?_) x _
      simpa using (List.mem_filter.mp (List.takeWhile_subset _ hp)).2
    · rw [rowAt_append_of_ne (Ne.symm hm), List.takeWhile_append_dropWhile, hfilter, if_neg hm, if_neg hm]

/-! ### Elements of a vector -/

theorem bitsNat_testBit (f : Nat → Bool) (n l : Nat) : (bitsNat f n).testBit l = (decide (l < n) && f l) := by
  have hlt : ∀ n, bitsNat f n < 2 ^ n := by
    intro n
    induction n with
    | zero => exact Nat.one_pos
    | succ n ih =>
      rw [bitsNat, Nat.pow_succ]
      split <;> omega
  induction n with
  | zero => exact Nat.zero_testBit l
  | succ n ih =>
    rw [bitsNat]
    cases hf : f n with
    | false =>
      rw [if_neg Bool.false_ne_true, Nat.add_zero, ih]
      by_cases hl : l = n
      · subst hl; simp [hf]
      · rw [decide_eq_decide.mpr (show l < n ↔ l < n + 1 by omega)]
    | true =>
      rw [if_pos rfl, Nat.add_comm]
      by_cases hl : l = n
      · subst hl
        rw [Nat.testBit_two_pow_add_eq, Nat.testBit_lt_two_pow (hlt l), hf]
        simp
      · by_cases hln : l < n
        · rw [Nat.testBit_two_pow_add_gt hln, ih, decide_eq_true hln, decide_eq_true (by omega)]
        · have hbig : 2 ^ n + bitsNat f n < 2 ^ l := by
            calc 2 ^ n + bitsNat f n < 2 ^ (n + 1) := by have := hlt n; rw [Nat.pow_succ]; omega
              _ ≤ 2 ^ l := Nat.pow_le_pow_right (by decide) (by omega)
          rw [Nat.testBit_lt_two_pow hbig, decide_eq_false (by omega), Bool.false_and]

/-- A number below `2 ^ w` is the sum of its bits. -/
theorem sum_testBit (x w : Nat) : ((List.range w).map fun i => if x.testBit i then 2 ^ i else 0).sum = x % 2 ^ w := by
  induction w with
  | zero => simp [Nat.mod_one]
  | succ w ih =>
    rw [List.range_succ, List.map_append, List.sum_append, ih, Nat.mod_pow_succ, List.map_singleton, List.sum_singleton,
      Nat.testBit_eq_decide_div_mod_eq]
    rcases Nat.mod_two_eq_zero_or_one (x / 2 ^ w) with h | h <;> simp [h]

/-- The rows of a vector once its first `k` bits have been set. -/
theorem rowAt_setBits (rows : List (Nat × BitVec 262144)) (r : Nat) (g : Nat → BitVec 262144) (k m : Nat) :
    rowAt ((List.range k).foldl (fun rows i => setRow rows (r + i) (g i)) rows) m = if r ≤ m ∧ m < r + k then g (m - r) else rowAt rows m := by
  induction k with
  | zero => exact (if_neg (by omega)).symm
  | succ k ih =>
    rw [List.range_succ, List.foldl_append, List.foldl_cons, List.foldl_nil, rowAt_setRow, ih]
    by_cases hm : m = r + k
    · rw [if_pos hm, if_pos (by omega), show m - r = k by omega]
    · rw [if_neg hm]
      exact if_congr (by omega) rfl rfl

/-- R341: a vector that is set has the low bits of the values given as its elements; the rows beside it stay. -/
theorem setVec_spec (rows : List (Nat × BitVec 262144)) (d : PVec) (f : Nat → Nat) :
    (∀ l < 262144, elemBits (setVec rows d f) d l = f l % 2 ^ d.w) ∧
    ∀ n, n < d.row ∨ d.row + d.w ≤ n → rowAt (setVec rows d f) n = rowAt rows n := by
  refine ⟨fun l hl => ?_, fun n hn => ?_⟩
  · rw [elemBits, ← sum_testBit]
    congr 1
    refine List.map_congr_left fun i hi => ?_
    have hi := List.mem_range.mp hi
    have hbit : (rowAt (setVec rows d f) (d.row + i)).getLsbD l = (f l).testBit i := by
      rw [setVec, rowAt_setBits, if_pos ⟨by omega, by omega⟩, Nat.add_sub_cancel_left, BitVec.getLsbD_ofNat, bitsNat_testBit,
        decide_eq_true hl, Bool.true_and, Bool.true_and]
    rw [hbit]
  · rw [setVec, rowAt_setBits, if_neg (by omega)]

theorem wrapN_lt (n : Nat) (x : Int) : wrapN n x < 2 ^ n := by
  have h := Int.emod_lt_of_pos x (show (0 : Int) < (2 ^ n : Nat) by positivity)
  rw [wrapN]
  omega

/-! ### Lines of DRAM that nobody else holds -/

theorem recall_of_untracked {s : State} {l : LineId} (h : s.dirOf l = none) (but : Option Nat) (keep : Bool) : s.recall l but keep = s := by
  simp only [State.recall, h]

theorem changeClass_of_untracked {s : State} {l : LineId} (hdir : s.dirOf l = none) (hcell : s.cell l = none) (cls : Cls) :
    s.changeClass l cls = s := by
  simp [State.changeClass, State.otherClass, hdir, hcell]

/-- R215: a line that no directory entry and no cellar line names is read from DRAM. -/
theorem agentRead_of_untracked {s : State} {n : Nat} (hdir : s.dirOf (.dev n) = none) (hcell : s.cell (.dev n) = none) (a : BitVec 16)
    (ctx : Nat) : (s.agentRead (.dev n) a ctx).2 = (s.mem.dram.read (128 * n) 128, dramPoison s.mem n) := by
  have hcell' : (s.modMem fun m => { m with stamp := m.stamp + 1 }).cell (.dev n) = none := hcell
  simp only [State.agentRead, changeClass_of_untracked hdir hcell, recall_of_untracked hdir, State.homeRead, hcell']
  split_ifs <;> rfl

theorem touched_getLsbD (off n : Nat) {i : Nat} (hi : i < 4) :
    (touched off n).getLsbD i = decide (32 * i < off + n ∧ off < 32 * (i + 1)) := by
  have hbits : ∀ b : Fin 4 → Bool, ∀ i : Fin 4,
      (BitVec.ofNat 4 (((List.finRange 4).map fun i => if b i then 2 ^ i.val else 0).sum)).getLsbD i = b i := by decide
  have h := hbits (fun i => decide (32 * i.val < off + n ∧ off < 32 * (i.val + 1))) ⟨i, hi⟩
  simpa [touched, List.finRange, List.range, List.range.loop] using h

/-- R215: bytes written to a line that no directory entry and no cellar line names go to DRAM, and no other byte changes. -/
theorem agentWrite_of_untracked {s : State} {n : Nat} (hdir : s.dirOf (.dev n) = none) (hcell : s.cell (.dev n) = none)
    (hwf : s.mem.dram.wf = true) {off : Nat} {d : List Byte} (hd : d ≠ []) (hoff : off + d.length ≤ 128) (a : BitVec 16) (k : Nat) :
    (s.agentWrite (.dev n) a off d).mem.dram.get k =
      if 128 * n + off ≤ k ∧ k < 128 * n + off + d.length then d.getD (k - (128 * n + off)) 0 else s.mem.dram.get k := by
  have hpos : 0 < d.length := List.length_pos_iff.mpr hd
  have hmask : touched off d.length ≠ 0 := fun h0 => by
    have hbit := touched_getLsbD off d.length (i := off / 32) (by omega)
    rw [h0, decide_eq_true (by omega)] at hbit
    simp at hbit
  have hlen : (s.mem.dram.read (128 * n) 128).length = 128 := Mem.read_length ..
  have hfit : off + d.length ≤ (s.mem.dram.read (128 * n) 128).length := by omega
  have hpatch : (patch (s.mem.dram.read (128 * n) 128) off d).length = 128 := (patch_length _ _ _ hfit).trans hlen
  have hwrite : s.agentWrite (.dev n) a off d = s.putBelow (.dev n) (touched off d.length) (patch (s.mem.dram.read (128 * n) 128) off d)
      (dramPoison s.mem n &&& ~~~covered off d.length) := by
    simp only [State.agentWrite, changeClass_of_untracked hdir hcell, recall_of_untracked hdir, State.homeData, hcell, State.below,
      LineOp.run, homePatch_of_no_cell hmask hcell]
  have hspec := putSectors_spec hwf hpatch n (touched off d.length) (dramPoison s.mem n &&& ~~~covered off d.length) (k := 4) le_rfl
  rw [hwrite]
  refine (hspec.get k).trans ?_
  by_cases hline : 128 * n ≤ k ∧ k < 128 * n + 32 * 4
  · obtain ⟨hlow, hhigh⟩ := hline
    have hold : (s.mem.dram.read (128 * n) 128).getD (k - 128 * n) 0 = s.mem.dram.get k := by
      rw [Mem.read_get _ _ _ _ (by omega), show 128 * n + (k - 128 * n) = k by omega]
    rw [patch_get _ _ _ _ hfit, hold, touched_getLsbD _ _ (show (k - 128 * n) / 32 < 4 by omega)]
    simp only [decide_eq_true_eq]
    by_cases hin : 128 * n + off ≤ k ∧ k < 128 * n + off + d.length
    · rw [if_pos ⟨hlow, hhigh, by omega⟩, if_pos (by omega), if_pos hin, show k - 128 * n - off = k - (128 * n + off) by omega]
    · rw [if_neg hin, if_neg (show ¬ (off ≤ k - 128 * n ∧ k - 128 * n < off + d.length) by omega), ite_self]
  · rw [if_neg (fun h => hline ⟨h.1, h.2.1⟩), if_neg (by omega)]

/-! ### Lines read and written leave the bins alone -/

namespace SameUnits
variable {s t : State}

theorem homeRead (h : SameUnits s t) (l : LineId) (attr : BitVec 16) (ctx rc : Nat) : SameUnits s (t.homeRead l attr ctx rc).1 := by
  unfold State.homeRead State.makeRoom State.modCell State.dropCell
  grind [← modMem, ← evictCell]

theorem agentRead (h : SameUnits s t) (l : LineId) (attr : BitVec 16) (ctx : Nat) : SameUnits s (t.agentRead l attr ctx).1 := by
  unfold State.agentRead State.changeClass State.modDir
  grind [← modMem, ← recall', ← evictCell, ← homeRead]

theorem readLines (h : SameUnits s t) (ctx : Nat) (lines : List (Nat × BitVec 16)) : SameUnits s (t.readLines ctx lines).1 :=
  List.foldlRecOn (motive := fun p : State × List (List Byte × BitVec 4) => SameUnits s p.1) lines _ h fun _ hp _ _ => hp.agentRead ..

theorem writeLines (h : SameUnits s t) (off : Nat) (b : List Byte) (lines : List (Nat × BitVec 16)) :
    SameUnits s (t.writeLines off b lines) := by
  induction lines generalizing t off b with
  | nil => exact h
  | cons p lines ih =>
    unfold State.writeLines
    exact .ite h (ih (h.agentWrite ..) _ _)

end SameUnits

/-! ### The oldest operation of a bin -/

theorem bin_modBin (s : State) (b k : Nat) (f : Bin → Bin) :
    (s.modBin b f).bin k = if b = k ∧ k < s.bins.length then f (s.bin k) else s.bin k := by
  simp only [State.bin, State.modBin, List.getD_eq_getElem?_getD, List.getElem?_modify]
  by_cases hlen : k < s.bins.length
  · rw [List.getElem?_eq_getElem hlen]
    by_cases h : b = k <;> simp [h, hlen]
  · simp [hlen]

theorem bin_modBin_of_ne {s : State} {b k : Nat} (h : k ≠ b) (f : Bin → Bin) : (s.modBin b f).bin k = s.bin k := by
  rw [bin_modBin, if_neg fun hc => h hc.1.symm]

/-- A bin that has an operation is there. -/
theorem lt_of_ops {s : State} {b : Nat} {o : POp} {r : List POp} (h : (s.bin b).ops = o :: r) : b < s.bins.length := by
  by_contra hlen
  rw [State.bin, List.getD_eq_default _ _ (Nat.not_lt.mp hlen)] at h
  exact absurd h (by simp)

theorem bin_modBin_self {s : State} {b : Nat} (h : b < s.bins.length) (f : Bin → Bin) : (s.modBin b f).bin b = f (s.bin b) := by
  rw [bin_modBin, if_pos ⟨rfl, h⟩]

theorem execPressOperationCompletion_of_free {s : State} {b : Nat} {o : POp} {r : List POp} (hops : (s.bin b).ops = o :: r)
    (hback : s.askBack (binKey b) o.ctx o.writes = none) (hfree : ∀ l ∈ o.lines, s.homeFree l = true) :
    execPressOperationCompletion b s =
      .next (((s.pressPerform b o).1.modBin b fun q => { q with ops := r }).pressDone o (s.pressPerform b o).2) := by
  have hall : (!o.lines.all s.homeFree) = false := by rw [List.all_eq_true.mpr hfree]; rfl
  simp only [execPressOperationCompletion, hops, hback, hall, Bool.false_eq_true, if_false]

/-- R344: the operations that compute rows from rows. -/
def POpKind.computes : POpKind → Bool
  | .cnt _ | .xin .. | .xout .. => false
  | _ => true

theorem pressPerform_of_computes {o : POp} (h : o.kind.computes = true) (s : State) (b : Nat) :
    s.pressPerform b o =
      (s.modBin b fun q => { q with rows := setVec q.rows o.d fun l => wrapN o.d.w (pressElem (s.bin b).rows o l) }, none) := by
  obtain ⟨warp, team, ctx, pend, kind, sg, d, a, src⟩ := o
  cases kind with
  | cnt | xin | xout => exact absurd h Bool.false_ne_true
  | _ => rfl

theorem lines_of_computes {o : POp} (h : o.kind.computes = true) : o.lines = [] ∧ o.writes = [] := by
  obtain ⟨warp, team, ctx, pend, kind, sg, d, a, src⟩ := o
  cases kind with
  | cnt | xin | xout => exact absurd h Bool.false_ne_true
  | _ => exact ⟨rfl, rfl⟩

/-- R344: an operation that computes writes each element of its destination, and nothing else of the bin, of another bin or of memory. -/
theorem press_computes {s : State} {b : Nat} {o : POp} {r : List POp} (hops : (s.bin b).ops = o :: r) (hkind : o.kind.computes = true)
    {f : Int → Int → Nat → Int}
    (hf : ∀ l, pressElem (s.bin b).rows o l = f (elem (s.bin b).rows o.sgn o.a l) (srcB (s.bin b).rows o.sgn o.b l) l) :
    ∃ t, execPressOperationCompletion b s = .next t ∧ t.mem = s.mem ∧ (t.bin b).ops = r ∧
      (∀ l < 262144, elemBits (t.bin b).rows o.d l =
        wrapN o.d.w (f (elem (s.bin b).rows o.sgn o.a l) (srcB (s.bin b).rows o.sgn o.b l) l)) ∧
      (∀ n, n < o.d.row ∨ o.d.row + o.d.w ≤ n → rowAt (t.bin b).rows n = rowAt (s.bin b).rows n) ∧
      ∀ k, k ≠ b → t.bin k = s.bin k := by
  obtain ⟨hlines, hwrites⟩ := lines_of_computes hkind
  have hlen := lt_of_ops hops
  have hexec := execPressOperationCompletion_of_free hops (by rw [hwrites]; rfl) (by rw [hlines]; exact fun l hl => absurd hl List.not_mem_nil)
  rw [pressPerform_of_computes hkind] at hexec
  obtain ⟨helems, hrows⟩ := setVec_spec (s.bin b).rows o.d fun l => wrapN o.d.w (pressElem (s.bin b).rows o l)
  have hlen' : b < (s.modBin b fun q => { q with
      rows := setVec q.rows o.d fun l => wrapN o.d.w (pressElem (s.bin b).rows o l) }).bins.length := by
    rwa [State.modBin, List.length_modify]
  have hbin := (bin_modBin_self hlen' fun q => { q with ops := r }).trans
    (congrArg (fun q : Bin => { q with ops := r }) (bin_modBin_self hlen _))
  refine ⟨_, hexec, rfl, ?_, fun l hl => ?_, fun n hn => ?_, fun k hk => ?_⟩
  · exact congrArg Bin.ops hbin
  · refine (congrArg (fun q : Bin => elemBits q.rows o.d l) hbin).trans ((helems l hl).trans ?_)
    rw [Nat.mod_eq_of_lt (wrapN_lt ..), hf]
  · exact (congrArg (fun q : Bin => rowAt q.rows n) hbin).trans (hrows n hn)
  · exact (bin_modBin_of_ne hk _).trans (bin_modBin_of_ne hk _)

/-- R346: PXIN, whose lines' homes are free. -/
theorem press_xin {s : State} {b n off : Nat} {o : POp} {r : List POp} {lines : List (Nat × BitVec 16)} (hops : (s.bin b).ops = o :: r)
    (hkind : o.kind = .xin n off lines) (hfree : ∀ l ∈ o.lines, s.homeFree l = true) :
    ∃ t, execPressOperationCompletion b s = .next t ∧ t.mem = (s.readLines o.ctx lines).1.mem ∧
      (t.bin b).rows = setVec (s.bin b).rows o.d
        (xinElem (s.readLines o.ctx lines).1.fresh n off (elemSize o.d.w) o.d.w (s.readLines o.ctx lines).2) := by
  have hwrites : o.writes = [] := by rw [POp.writes, hkind]
  have hexec := execPressOperationCompletion_of_free hops (by rw [hwrites]; rfl) hfree
  have hbins := ((SameUnits.refl s).readLines o.ctx lines).bins
  have hlen : b < (s.readLines o.ctx lines).1.bins.length := hbins ▸ lt_of_ops hops
  have hperform : s.pressPerform b o = ({ (s.readLines o.ctx lines).1.modBin b (fun q => { q with
      rows := setVec q.rows o.d (xinElem (s.readLines o.ctx lines).1.fresh n off (elemSize o.d.w) o.d.w (s.readLines o.ctx lines).2) }) with
      fresh := (s.readLines o.ctx lines).1.fresh + n }, none) := by
    rw [State.pressPerform, hkind]
  rw [hperform] at hexec
  refine ⟨_, hexec, rfl, ?_⟩
  have hself := bin_modBin_self hlen fun q => { q with
    rows := setVec q.rows o.d (xinElem (s.readLines o.ctx lines).1.fresh n off (elemSize o.d.w) o.d.w (s.readLines o.ctx lines).2) }
  have hsame : (s.readLines o.ctx lines).1.bin b = s.bin b := congrArg (fun l : List Bin => l.getD b _) hbins
  rw [hsame] at hself
  refine (congrArg Bin.rows (bin_modBin_self (s := { (s.readLines o.ctx lines).1.modBin b _ with fresh := _ }) ?_ _)).trans
    (congrArg Bin.rows hself)
  rwa [State.modBin, List.length_modify]

/-- R346: PXOUT, whose lines' homes are free and which no copy of the host's keeps. -/
theorem press_xout {s : State} {b n off : Nat} {o : POp} {r : List POp} {lines : List (Nat × BitVec 16)} (hops : (s.bin b).ops = o :: r)
    (hkind : o.kind = .xout n off lines) (hback : s.askBack (binKey b) o.ctx o.writes = none)
    (hfree : ∀ l ∈ o.lines, s.homeFree l = true) :
    ∃ t, execPressOperationCompletion b s = .next t ∧ (t.bin b).rows = (s.bin b).rows ∧
      t.mem = (s.writeLines off ((List.range n).flatMap fun l =>
        leBytes (elemSize o.d.w) (elemBits (s.bin b).rows o.d l)) lines).mem := by
  have hexec := execPressOperationCompletion_of_free hops hback hfree
  have hperform : s.pressPerform b o = (s.writeLines off (xoutBytes (s.bin b).rows n (elemSize o.d.w) o.d) lines, none) := by
    rw [State.pressPerform, hkind]
  rw [hperform] at hexec
  have hbins := ((SameUnits.refl s).writeLines off (xoutBytes (s.bin b).rows n (elemSize o.d.w) o.d) lines).bins
  refine ⟨_, hexec, ?_, rfl⟩
  refine (congrArg Bin.rows (bin_modBin_self (hbins ▸ lt_of_ops hops) _)).trans ?_
  exact congrArg (fun l : List Bin => (l.getD b _).rows) hbins

/-- R347: what a press operation that has completed leaves with its resident warp. -/
def pressGiven (o : POp) (ws : List RegWrite) (p : Pend) : Pend :=
  if p.reqs.contains o.pend then { p with reqs := [], writes := p.writes ++ ws } else p

/-- R347: the result of PCNT reaches the instruction of a resident warp that waits for it. -/
theorem pressDone_warpU {s : State} {o : POp} {k : Nat} {n : DWord} {w : Warp} {p : Pend} (hkind : o.kind = .cnt k)
    (hwarp : s.warpU o.warp = some w) (hpend : w.pend.find? (fun p => p.reqs.contains o.pend) = some p) :
    (s.pressDone o (some n)).warpU o.warp = some { w with pend := w.pend.map (pressGiven o [⟨.s k, 0, n⟩]) } := by
  have hlate : (s.warpU o.warp).isNone = false := by rw [hwarp]; rfl
  unfold State.pressDone
  simp only [hkind, hlate, Bool.false_eq_true, if_false]
  rw [warpU_modWarpU s o.warp (fun v => ?uid), hwarp]
  case uid => split <;> rfl
  simp only [Option.map_some, hpend]
  rfl

/-- R344: PCNT gives its warp the count. -/
theorem press_cnt {s : State} {b k : Nat} {o : POp} {r : List POp} {w : Warp} {p : Pend} (hops : (s.bin b).ops = o :: r)
    (hkind : o.kind = .cnt k) (hwarp : s.warpU o.warp = some w) (hpend : w.pend.find? (fun p => p.reqs.contains o.pend) = some p) :
    ∃ t v q, execPressOperationCompletion b s = .next t ∧ t.mem = s.mem ∧ (t.bin b).rows = (s.bin b).rows ∧
      t.warpU o.warp = some v ∧ q ∈ v.pend ∧ q.id = p.id ∧ q.reqs = [] ∧
      ⟨.s k, 0, BitVec.ofNat 64 ((List.range 262144).filter fun l => elem (s.bin b).rows o.sgn o.a l != 0).length⟩ ∈ q.writes := by
  have hwrites : o.writes = [] := by rw [POp.writes, hkind]
  have hlines : o.lines = [] := by rw [POp.lines, hkind]; exact hwrites
  have hexec := execPressOperationCompletion_of_free hops (by rw [hwrites]; rfl) (by rw [hlines]; exact fun l hl => absurd hl List.not_mem_nil)
  have hperform : s.pressPerform b o =
      (s, some (BitVec.ofNat 64 ((List.range 262144).filter fun l => elem (s.bin b).rows o.sgn o.a l != 0).length)) := by
    rw [State.pressPerform, hkind]
  rw [hperform] at hexec
  have hrows : ((s.modBin b fun q => { q with ops := r }).bin b).rows = (s.bin b).rows := by
    rw [bin_modBin_self (lt_of_ops hops)]
  have hwaits : p.reqs.contains o.pend = true := by
    have hp := List.find?_some hpend
    exact hp
  refine ⟨_, _, _, hexec, rfl, hrows, pressDone_warpU hkind hwarp hpend, List.mem_map_of_mem (List.mem_of_find?_eq_some hpend), ?_⟩
  rw [pressGiven, if_pos hwaits]
  exact ⟨rfl, rfl, List.mem_append_right _ (List.mem_singleton_self _)⟩

end Sys2Proof.Machine

open Sys2Proof Sys2Proof.Machine

/-- Settles O31: a bin enters and leaves press mode with no row set, and performs its oldest operation as its kind says. -/
theorem pressCompletions : Obligations.PressCompletions := by
  unfold Obligations.PressCompletions
  refine ⟨fun s b hst halarm => ?entry, fun s b hst hops halarm => ?drain, fun s b halarm => ⟨?entryAlarm, ?drainAlarm⟩,
    fun s b o r hops hback ⟨l, hl, hbusy⟩ => ?waits, fun s b o r hops hback hfree => execPressOperationCompletion_of_free hops hback hfree,
    fun s b o r t hops hback => ?back, fun s b o r f hops hop => ?computes,
    fun s b o r k w p hops hkind hwarp hpend => press_cnt hops hkind hwarp hpend, fun s b o r n off lines hops hkind hfree => ?xin,
    fun s b o r n off lines hops hkind hback hfree => press_xout hops hkind hback hfree,
    fun s n a ctx hdir hcell => agentRead_of_untracked hdir hcell a ctx,
    fun s n a off d hdir hcell hwf hd hoff k => agentWrite_of_untracked hdir hcell hwf hd hoff a k⟩
  case entry => exact if_neg (by simp [hst, halarm])
  case drain => exact if_neg (by simp [hst, hops, halarm])
  case entryAlarm => exact if_pos (by simp [halarm])
  case drainAlarm => exact if_pos (by simp [halarm])
  case waits =>
    have hany : (!o.lines.all s.homeFree) = true := by
      rw [Bool.not_eq_true', List.all_eq_false]
      exact ⟨l, hl, by simp [hbusy]⟩
    show execPressOperationCompletion b s = _
    simp only [execPressOperationCompletion, hops, hback, hany, if_true]
  case back =>
    show execPressOperationCompletion b s = _
    simp only [execPressOperationCompletion, hops, hback]
  case computes =>
    have htable : o.kind.computes = true ∧ ∀ l,
        pressElem (s.bin b).rows o l = f (elem (s.bin b).rows o.sgn o.a l) (srcB (s.bin b).rows o.sgn o.b l) l := by
      rcases hop with ⟨hk, rfl⟩ | ⟨hk, rfl⟩ | ⟨hk, rfl⟩ | ⟨hk, rfl⟩ | ⟨hk, rfl⟩ | ⟨hk, rfl⟩ | ⟨hk, rfl⟩ | ⟨c, hk, rfl⟩ | ⟨m, hk, rfl⟩ |
        ⟨lo, hi, hk, rfl⟩ | ⟨n, hk, rfl⟩ | ⟨n, hk, rfl⟩
      all_goals exact ⟨by rw [hk]; rfl, fun l => by simp [pressElem, hk, bitInt]⟩
    obtain ⟨hkind, hvalue⟩ := htable
    exact press_computes hops hkind hvalue
  case xin =>
    obtain ⟨t, hexec, hmem, hrows⟩ := press_xin hops hkind hfree
    obtain ⟨helems, hother⟩ := setVec_spec (s.bin b).rows o.d
      (xinElem (s.readLines o.ctx lines).1.fresh n off (elemSize o.d.w) o.d.w (s.readLines o.ctx lines).2)
    rw [← hrows] at helems hother
    refine ⟨t, hexec, hmem, fun l hl hn => (helems l hl).trans ?_, fun l hn hl hclean => (helems l hl).trans ?_, hother⟩
    · rw [xinElem, if_pos hn, Nat.zero_mod]
    · rw [xinElem, if_neg (Nat.not_le.mpr hn), hclean, if_neg Bool.false_ne_true, Nat.mod_mod]

end

