-- ==== Sys2Proof/Proofs/ScratchBlocks.lean ====
section
/-! PROVED FACTS. What the accesses of lanes to the blocks of scratchpads leave there and return (O56). -/

namespace Sys2Proof.Machine

/-! ### Blocks of 128 bytes -/

/-- Lists of bytes that read alike are equal. -/
theorem bytes_ext {a b : List Byte} {n : Nat} (ha : a.length = n) (hb : b.length = n) (h : ∀ i < n, a.getD i 0 = b.getD i 0) : a = b := by
  refine List.ext_getElem (ha.trans hb.symm) fun i hi hj => ?_
  have hget := h i (ha ▸ hi)
  rwa [List.getD_eq_getElem?_getD, List.getD_eq_getElem?_getD, List.getElem?_eq_getElem hi, List.getElem?_eq_getElem hj] at hget

theorem slice_congr {d e : List Byte} {off n : Nat} (hd : off + n ≤ d.length) (he : off + n ≤ e.length)
    (h : ∀ b, off ≤ b → b < off + n → e.getD b 0 = d.getD b 0) : slice e off n = slice d off n := by
  refine bytes_ext (slice_length he) (slice_length hd) fun i hi => ?_
  rw [slice_getD hi, slice_getD hi]
  exact h _ (by omega) (by omega)

theorem slice_patch {d x : List Byte} {off : Nat} (h : off + x.length ≤ d.length) : slice (patch d off x) off x.length = x := by
  have hlen : off + x.length ≤ (patch d off x).length := (patch_length d x off h).symm ▸ h
  refine bytes_ext (slice_length hlen) rfl fun i hi => ?_
  rw [slice_getD hi, patch_get d x off _ h, if_pos (by omega), Nat.add_sub_cancel_left]

theorem patch_slice {d : List Byte} {off n : Nat} (h : off + n ≤ d.length) : patch d off (slice d off n) = d := by
  have hlen := slice_length h
  have hin : off + (slice d off n).length ≤ d.length := hlen.symm ▸ h
  refine bytes_ext (patch_length _ _ _ hin) rfl fun b _ => ?_
  rw [patch_get _ _ _ _ hin, hlen]
  split
  · rw [slice_getD (by omega)]
    congr 1
    omega
  · rfl

theorem slice_read (m : Mem) {base off n k : Nat} (h : off + n ≤ k) : slice (m.read base k) off n = m.read (base + off) n := by
  refine bytes_ext (slice_length (by rwa [Mem.read_length])) (Mem.read_length ..) fun i hi => ?_
  rw [slice_getD hi, Mem.read_get _ _ _ _ (by omega), Mem.read_get _ _ _ _ hi, Nat.add_assoc]

/-! ### Operations that replace the bytes of one lane -/

/-- The operation on `n` bytes of a line without poison replaces them by `f` of them, and gives a lane `g` of them. -/
structure Swaps (n : Nat) (op : Nat → LineOp) (f : List Byte → List Byte) (g : List Byte → LaneRes) : Prop where
  run : ∀ off d p, off + n ≤ d.length → p &&& touched off n = 0 →
    (op off).run d p = (patch d off (f (slice d off n)), p, [g (slice d off n)])
  length : ∀ b, b.length = n → (f b).length = n
  clean : ∀ b, (g b).bad = false
  reads : ∀ off, (op off).isWrite = false

theorem swaps_read (lane n reg : Nat) (t : Ty) :
    Swaps n (fun off => .read lane off n reg t) id fun b => ⟨lane, some reg, t.signed, b, false, false⟩ where
  run off d p hoff hp := by
    rw [LineOp.run, if_neg (not_not_intro hp), id_eq, patch_slice hoff]
  length _ hb := hb
  clean _ := rfl
  reads _ := rfl

theorem leBytes_length (n x : Nat) : (leBytes n x).length = n := by
  induction n generalizing x with
  | zero => rfl
  | succ n ih => rw [leBytes, List.length_cons, ih]

theorem swaps_atom (lane : Nat) (o : AtomOp) (t : Ty) (b : DWord) (reg : Option Nat) :
    Swaps t.bytes (fun off => .atom lane off o t b reg) (fun c => leBytes t.bytes (atomNew o t (leNat c) (b.toNat % 2 ^ t.bits)))
      fun c => ⟨lane, reg, false, c, false, false⟩ where
  run off d p _ hp := by rw [LineOp.run, if_neg (not_not_intro hp)]
  length _ _ := leBytes_length ..
  clean _ := rfl
  reads _ := rfl

theorem swaps_cas (lane n reg : Nat) (old new : List Byte) (hnew : new.length = n) :
    Swaps n (fun off => .cas lane off n old new reg) (fun c => if c = old then new else c)
      fun c => ⟨lane, some reg, false, c, true, false⟩ where
  run off d p hoff hp := by
    rw [LineOp.run, if_neg (not_not_intro hp)]
    by_cases h : slice d off n = old
    · simp only [h, if_true]
    · simp only [h, if_false, patch_slice hoff]
  length c hc := by
    split
    · exact hnew
    · exact hc
  clean _ := rfl
  reads _ := rfl

theorem runOps_foldl (ops : List LineOp) (d : List Byte) (p : BitVec 4) (rs : List LaneRes) :
    ops.foldl (fun (d, p, rs) op => let (d', p', r) := op.run d p; (d', p', rs ++ r)) (d, p, rs) =
      ((runOps ops d p).1, (runOps ops d p).2.1, rs ++ (runOps ops d p).2.2) := by
  induction ops generalizing d p rs with
  | nil => simp [runOps]
  | cons o r ih =>
    simp only [List.foldl_cons, runOps]
    rw [ih, ih _ _ ([] ++ _)]
    simp

theorem runOps_cons (o : LineOp) (ops : List LineOp) (d : List Byte) (p : BitVec 4) :
    runOps (o :: ops) d p =
      ((runOps ops (o.run d p).1 (o.run d p).2.1).1, (runOps ops (o.run d p).1 (o.run d p).2.1).2.1,
        (o.run d p).2.2 ++ (runOps ops (o.run d p).1 (o.run d p).2.1).2.2) := by
  rw [runOps, List.foldl_cons]
  exact runOps_foldl ops _ _ _

/-- R184: only stores are merged. -/
theorem opsOn_of_reads {ops : List LineOp} (h : ∀ o ∈ ops, o.isWrite = false) : opsOn ops = ops := by
  unfold opsOn
  rw [List.filter_eq_self.mpr fun o ho => ?keep, List.filterMap_eq_nil_iff.mpr fun o ho => ?none]
  case keep =>
    have := h o ho
    cases o <;> simp_all [LineOp.isWrite]
  case none =>
    have := h o ho
    cases o <;> simp_all [LineOp.isWrite]
  have hmerge : mergeStores [] = [] := by decide +kernel
  exact (congrArg (ops ++ ·) hmerge).trans (List.append_nil ops)


/-! ### The lanes' operations on one block -/

section
variable {n : Nat} {op : Nat → Nat → LineOp} {f : Nat → List Byte → List Byte} {g : Nat → List Byte → LaneRes} (off : Nat → Nat)

/-- What the operations of lanes `ls` on a block leave of it, and what they give. -/
structure Swapped (n : Nat) (f : Nat → List Byte → List Byte) (g : Nat → List Byte → LaneRes) (off : Nat → Nat) (ls : List Nat)
    (d e : List Byte) (rs : List LaneRes) : Prop where
  length : e.length = 128
  clean : ∀ r ∈ rs, r.bad = false
  outside : ∀ b, (∀ l ∈ ls, f l = id ∨ ¬ (off l ≤ b ∧ b < off l + n)) → e.getD b 0 = d.getD b 0
  inside : ∀ l ∈ ls, (∀ k ∈ ls, k ≠ l → f k = id ∨ off k + n ≤ off l ∨ off l + n ≤ off k) →
    slice e (off l) n = f l (slice d (off l) n) ∧ g l (slice d (off l) n) ∈ rs

/-- R184, R189, R190: operations of different lanes on a block whose sectors they touch are without poison. -/
theorem runOps_swaps {ls : List Nat} (hop : ∀ l ∈ ls, Swaps n (op l) (f l) (g l)) (hn : ls.Nodup)
    (hin : ∀ l ∈ ls, off l + n ≤ 128) {p : BitVec 4} (hp : ∀ l ∈ ls, p &&& touched (off l) n = 0) {d : List Byte} (hd : d.length = 128) :
    (runOps (ls.map fun l => op l (off l)) d p).2.1 = p ∧
      Swapped n f g off ls d (runOps (ls.map fun l => op l (off l)) d p).1 (runOps (ls.map fun l => op l (off l)) d p).2.2 := by
  induction ls generalizing d with
  | nil => exact ⟨rfl, hd, List.forall_mem_nil _, fun _ _ => rfl, List.forall_mem_nil _⟩
  | cons l ls ih =>
    obtain ⟨hl, hls⟩ := List.forall_mem_cons.mp hop
    obtain ⟨hnl, hnls⟩ := List.nodup_cons.mp hn
    obtain ⟨hil, hils⟩ := List.forall_mem_cons.mp hin
    obtain ⟨hpl, hpls⟩ := List.forall_mem_cons.mp hp
    have hlen : (f l (slice d (off l) n)).length = n := hl.length _ (slice_length (hd ▸ hil))
    have hfit : off l + (f l (slice d (off l) n)).length ≤ d.length := by rw [hlen, hd]; exact hil
    have hfirst : ∀ b, f l = id ∨ ¬ (off l ≤ b ∧ b < off l + n) →
        (patch d (off l) (f l (slice d (off l) n))).getD b 0 = d.getD b 0 := by
      rintro b (hid | hb)
      · rw [hid, id, patch_slice (hd ▸ hil)]
      · rw [patch_get d _ _ b hfit, hlen, if_neg hb]
    have hpatch : (patch d (off l) (f l (slice d (off l) n))).length = 128 := (patch_length _ _ _ hfit).trans hd
    obtain ⟨hpoison, hrest⟩ := ih hls hnls hils hpls hpatch
    rw [List.map_cons, runOps_cons, hl.run _ _ _ (hd ▸ hil) hpl]
    refine ⟨hpoison, hrest.length, ?clean, fun b hb => ?outside, List.forall_mem_cons.mpr ⟨fun hsep => ?head, fun k hk hsep => ?tail⟩⟩
    case clean =>
      intro r hr
      obtain hr | hr := List.mem_cons.mp hr
      · exact hr ▸ hl.clean _
      · exact hrest.clean r hr
    case outside =>
      obtain ⟨hbl, hbls⟩ := List.forall_mem_cons.mp hb
      rw [hrest.outside b hbls, hfirst b hbl]
    case head =>
      have hsep' := (List.forall_mem_cons.mp hsep).2
      refine ⟨?_, List.mem_cons_self⟩
      calc slice _ (off l) n
          = slice (patch d (off l) (f l (slice d (off l) n))) (off l) n := by
            refine slice_congr (hpatch ▸ hil) (hrest.length ▸ hil) fun b hlo hhi => hrest.outside b fun k hk => ?_
            exact (hsep' k hk fun h => hnl (h ▸ hk)).imp_right fun hap => by omega
        _ = f l (slice d (off l) n) := by
            have := slice_patch hfit
            rwa [hlen] at this
    case tail =>
      obtain ⟨hsepl, hsepls⟩ := List.forall_mem_cons.mp hsep
      have happart := hsepl fun h => hnl (h ▸ hk)
      have hsame : slice (patch d (off l) (f l (slice d (off l) n))) (off k) n = slice d (off k) n := by
        refine slice_congr (hd ▸ hils k hk) (hpatch ▸ hils k hk) fun b hlo hhi => ?_
        exact hfirst b (happart.imp_right fun hap => by omega)
      obtain ⟨hbytes, hgiven⟩ := hrest.inside k hk hsepls
      exact ⟨hbytes.trans (congrArg (f k) hsame), List.mem_cons_of_mem _ (hsame ▸ hgiven)⟩

end

/-! ### Poison -/

theorem blockPoison_getLsbD (ps : List Nat) (base : Nat) {i : Nat} (hi : i < 4) :
    (blockPoison ps base).getLsbD i = ps.contains (base / 32 + i) := by
  have hbits : ∀ b : Fin 4 → Bool, ∀ i : Fin 4,
      (BitVec.ofNat 4 (((List.finRange 4).map fun i => if b i then 2 ^ i.val else 0).sum)).getLsbD i = b i := by decide
  have h := hbits (fun i => ps.contains (base / 32 + i.val)) ⟨i, hi⟩
  simpa [blockPoison, List.finRange, List.range, List.range.loop] using h

/-- R405: an access within a sector that is not poisoned meets no poison. -/
theorem blockPoison_clean {ps : List Nat} {a n : Nat} (hn : a % 32 + n ≤ 32) (h : a / 32 ∉ ps) :
    blockPoison ps (a / 128 * 128) &&& touched (a % 128) n = 0 := by
  refine BitVec.eq_of_getLsbD_eq fun i hi => ?_
  change _ = (0#4).getLsbD i
  rw [BitVec.getLsbD_and, blockPoison_getLsbD _ _ hi, touched_getLsbD _ _ hi, BitVec.getLsbD_zero, Bool.and_eq_false_iff]
  by_cases hsector : a / 128 * 128 / 32 + i = a / 32
  · exact .inl (by simpa [hsector] using h)
  · exact .inr (decide_eq_false (by omega))

/-- R405: the poison of other blocks stays. -/
theorem mem_setBlockPoison {ps : List Nat} {base i : Nat} (p : BitVec 4) (h : ¬ (base / 32 ≤ i ∧ i < base / 32 + 4)) :
    i ∈ setBlockPoison ps base p ↔ i ∈ ps := by
  simp only [setBlockPoison, List.mem_append, List.mem_filter, List.mem_map, List.mem_range, Bool.not_eq_true', decide_eq_false_iff_not]
  constructor
  · rintro (⟨hi, -⟩ | ⟨j, ⟨hj, -⟩, rfl⟩)
    · exact hi
    · omega
  · exact fun hi => .inl ⟨hi, h⟩


/-! ### What accesses to scratchpads leave alone -/

/-- All but the teams and the cores' event counters is the same. -/
structure SameOutside (s t : State) : Prop where
  rest : { t with teams := s.teams, cores := s.cores } = s
  cores : SameCores s t

theorem SameOutside.refl (s : State) : SameOutside s s := ⟨rfl, rfl⟩

theorem SameOutside.trans {s t u : State} (h : SameOutside s t) (k : SameOutside t u) : SameOutside s u where
  rest := (congrArg (fun v : State => { v with teams := s.teams, cores := s.cores }) k.rest).trans h.rest
  cores := k.cores.trans h.cores

theorem SameOutside.count (s : State) (c k n : Nat) : SameOutside s (s.count c k n) := ⟨rfl, (State.sameModule_count s c k n).cores⟩

theorem SameOutside.scratchOps (s : State) (u base : Nat) (ops : List LineOp) : SameOutside s (s.scratchOps u base ops).1 := by
  unfold State.scratchOps
  split
  · exact .refl s
  · exact ⟨rfl, rfl⟩

theorem SameOutside.mem {s t : State} (h : SameOutside s t) : t.mem = s.mem := by rw [← h.rest]
theorem SameOutside.grids {s t : State} (h : SameOutside s t) : t.grids = s.grids := by rw [← h.rest]
theorem SameOutside.warps {s t : State} (h : SameOutside s t) : t.warps = s.warps := by rw [← h.rest]
theorem SameOutside.trace {s t : State} (h : SameOutside s t) : t.trace = s.trace := by rw [← h.rest]

/-! ### The accesses of an instruction to scratchpads -/

/-- The accesses of lanes `ls` to scratchpads: lane `l` to byte `a l` of that of team `tm l`. -/
def scratchParts (ls : List Nat) (tm a : Nat → Nat) (op : Nat → Nat → LineOp) (late : Nat → Nat → List LateSrc) : List Part :=
  ls.map fun l => ⟨.scratch (tm l) (a l / 128 * 128), op l (a l % 128), l, late l (a l % 128)⟩

/-- The accesses to one target (R168). -/
def windowStep (x : Wx) (ps : List Part) (m : Made) (t : Tgt) : Made :=
  let ops := opsOn ((ps.filter fun p => p.tgt == t).map Part.op)
  match t with
  | .scratch team base =>
    let (s, rs) := m.s.scratchOps team base ops
    { m with s := s.count x.core 8 (ps.filter fun p => p.tgt == t).length, rs := m.rs ++ rs }
  | .opbuf base =>
    let (s, rs) := m.s.opbufOps x.core base ops
    { m with s := s, rs := m.rs ++ rs }
  | _ => m

theorem windows_eq (m : Made) (x : Wx) (ps : List Part) :
    m.windows x ps = ((ps.map Part.tgt).eraseDups).foldl (windowStep x ps) m := rfl

section
variable {ls : List Nat} {tm a : Nat → Nat} {n : Nat} {op : Nat → Nat → LineOp} {f : Nat → List Byte → List Byte}
  {g : Nat → List Byte → LaneRes} {late : Nat → Nat → List LateSrc}

/-- What accesses of the lanes to the targets `ts` leave of team `v`, which was `q`. -/
structure Served (ls : List Nat) (tm a : Nat → Nat) (n : Nat) (f : Nat → List Byte → List Byte) (g : Nat → List Byte → LaneRes)
    (ts : List Tgt) (v : Nat) (q p : Team) (rs : List LaneRes) : Prop where
  form : p.scratch.wf = true
  poison : ∀ i, Tgt.scratch v (i / 4 * 128) ∉ ts → (i ∈ p.poison ↔ i ∈ q.poison)
  outside : ∀ b, (∀ l ∈ ls, tm l = v → Tgt.scratch v (a l / 128 * 128) ∈ ts → f l = id ∨ ¬ (a l ≤ b ∧ b < a l + n)) →
    p.scratch.get b = q.scratch.get b
  inside : ∀ l ∈ ls, tm l = v → Tgt.scratch v (a l / 128 * 128) ∈ ts →
    (∀ k ∈ ls, k ≠ l → tm k = v → f k = id ∨ a k + n ≤ a l ∨ a l + n ≤ a k) →
    p.scratch.read (a l) n = f l (q.scratch.read (a l) n) ∧ g l (q.scratch.read (a l) n) ∈ rs

theorem Served.refl {q : Team} (v : Nat) (h : q.scratch.wf = true) (rs : List LaneRes) : Served ls tm a n f g [] v q q rs where
  form := h
  poison _ _ := Iff.rfl
  outside _ _ := rfl
  inside _ _ _ hmem := absurd hmem List.not_mem_nil

/-- Accesses to different targets, one after the other. -/
theorem Served.cons {t : Tgt} {ts : List Tgt} {v : Nat} {q p o : Team} {rs rs' : List LaneRes} (ht : t ∉ ts)
    (h : Served ls tm a n f g [t] v q p rs) (k : Served ls tm a n f g ts v p o rs') :
    Served ls tm a n f g (t :: ts) v q o (rs ++ rs') where
  form := k.form
  poison i hi := by
    rw [List.mem_cons, not_or] at hi
    obtain ⟨hne, hts⟩ := hi
    exact (k.poison i hts).trans (h.poison i (by rwa [List.mem_singleton]))
  outside b hb := by
    refine (k.outside b fun l hl hv hmem => hb l hl hv (List.mem_cons_of_mem _ hmem)).trans (h.outside b fun l hl hv hmem => ?_)
    exact hb l hl hv (List.mem_cons.mpr (.inl (List.mem_singleton.mp hmem)))
  inside l hl hv hmem hsep := by
    obtain heq | hts := List.mem_cons.mp hmem
    · obtain ⟨hbytes, hgiven⟩ := h.inside l hl hv (List.mem_singleton.mpr heq) hsep
      refine ⟨(Mem.read_congr (Nat.le_refl _) fun b hlo hhi => k.outside b fun j hj hjv hjt => ?_).trans hbytes,
        List.mem_append_left _ hgiven⟩
      by_cases hjl : j = l
      · exact absurd (heq ▸ hjl ▸ hjt) ht
      · exact (hsep j hj hjl hjv).imp_right fun hap => by omega
    · have hsame : p.scratch.read (a l) n = q.scratch.read (a l) n := by
        refine Mem.read_congr (Nat.le_refl _) fun b hlo hhi => h.outside b fun j hj hjv hjt => ?_
        by_cases hjl : j = l
        · exact absurd (List.mem_singleton.mp hjt ▸ hjl ▸ hts) ht
        · exact (hsep j hj hjl hjv).imp_right fun hap => by omega
      obtain ⟨hbytes, hgiven⟩ := k.inside l hl hv hts hsep
      exact ⟨hbytes.trans (congrArg (f l) hsame), List.mem_append_right _ (hsame ▸ hgiven)⟩

/-- The lanes that access a block of a team's scratchpad. -/
def lanesOn (ls : List Nat) (tm a : Nat → Nat) (u base : Nat) : List Nat := ls.filter fun l => decide (tm l = u ∧ a l / 128 * 128 = base)

theorem mem_lanesOn {u base l : Nat} : l ∈ lanesOn ls tm a u base ↔ l ∈ ls ∧ tm l = u ∧ a l / 128 * 128 = base := by
  simp [lanesOn]

theorem scratchParts_on (u base : Nat) :
    ((scratchParts ls tm a op late).filter fun p => p.tgt == .scratch u base).map Part.op =
      (lanesOn ls tm a u base).map fun l => op l (a l % 128) := by
  rw [scratchParts, List.filter_map, List.map_map]
  refine congrArg (List.map _) (List.filter_congr fun l _ => ?_)
  rw [Bool.eq_iff_iff, Function.comp, beq_iff_eq, Tgt.scratch.injEq, decide_eq_true_eq]

/-- What holds of lanes that access scratchpads, each within a sector. -/
structure InSectors (ls : List Nat) (a : Nat → Nat) (n : Nat) (op : Nat → Nat → LineOp) (f : Nat → List Byte → List Byte)
    (g : Nat → List Byte → LaneRes) : Prop where
  nodup : ls.Nodup
  swaps : ∀ l ∈ ls, Swaps n (op l) (f l) (g l)
  sector : ∀ l ∈ ls, a l % 32 + n ≤ 32

/-- R168: the operations on one block of a team's scratchpad whose sectors are without poison. -/
theorem scratchOps_served (h : InSectors ls a n op f g) {s : State} {u base : Nat} (hbase : base % 128 = 0) {q : Team} (hq : s.team u =
    some q)
    (hform : ∀ v q, s.team v = some q → q.scratch.wf = true) (hclean : ∀ l ∈ lanesOn ls tm a u base, a l / 32 ∉ q.poison) :
    let r := s.scratchOps u base ((lanesOn ls tm a u base).map fun l => op l (a l % 128))
    (∀ x ∈ r.2, x.bad = false) ∧
      ∀ v q, s.team v = some q → ∃ p, r.1.team v = some p ∧ Served ls tm a n f g [.scratch u base] v q p r.2 := by
  have hblock : ∀ l ∈ lanesOn ls tm a u base, a l / 128 * 128 = base := fun l hl => (mem_lanesOn.mp hl).2.2
  have hsector : ∀ l ∈ lanesOn ls tm a u base, a l % 32 + n ≤ 32 := fun l hl => h.sector l (mem_lanesOn.mp hl).1
  obtain ⟨-, hswap⟩ := runOps_swaps (fun l => a l % 128) (fun l hl => h.swaps l (mem_lanesOn.mp hl).1) (h.nodup.filter _)
    (fun l hl => by have := hsector l hl; omega)
    (fun l hl => (hblock l hl) ▸ blockPoison_clean (hsector l hl) (hclean l hl)) (Mem.read_length q.scratch base 128)
  unfold State.scratchOps blockOps
  simp only [hq]
  generalize runOps ((lanesOn ls tm a u base).map fun l => op l (a l % 128)) (q.scratch.read base 128) (blockPoison q.poison base) = run
    at hswap
  obtain ⟨d, z, rs⟩ := run
  refine ⟨hswap.clean, fun v o ho => ?_⟩
  have hteam := team_modTeam s u v (fun t => { t with scratch := q.scratch.write base d, poison := setBlockPoison q.poison base z })
    fun _ => rfl
  by_cases hvu : v = u
  · subst hvu
    obtain rfl := Option.some.inj (hq.symm.trans ho)
    rw [if_pos rfl, hq] at hteam
    have hget : ∀ b, (q.scratch.write base d).get b = if base ≤ b ∧ b < base + 128 then d.getD (b - base) 0 else q.scratch.get b :=
      fun b => by rw [Mem.get_write (hform v q hq), hswap.length]
    refine ⟨_, hteam, Mem.wf_write (hform v q hq) _ _, fun i hi => ?poison, fun b hb => ?outside, fun l hl hlv hmem hsep => ?inside⟩
    case poison =>
      refine mem_setBlockPoison z fun hin => hi (List.mem_singleton.mpr ?_)
      rw [show i / 4 * 128 = base by omega]
    case outside =>
      refine (hget b).trans ?_
      split
      · rw [hswap.outside (b - base) fun l hl => ?_, Mem.read_get _ _ _ _ (by omega), show base + (b - base) = b by omega]
        obtain ⟨hl, hlv, hlb⟩ := mem_lanesOn.mp hl
        exact (hb l hl hlv (by rw [hlb]; exact List.mem_singleton_self _)).imp_right fun hnot => by omega
      · rfl
    case inside =>
      have hlb : a l / 128 * 128 = base := by injection List.mem_singleton.mp hmem
      have hfit : a l % 128 + n ≤ 128 := by have := h.sector l hl; omega
      obtain ⟨hbytes, hgiven⟩ := hswap.inside l (mem_lanesOn.mpr ⟨hl, hlv, hlb⟩) fun k hk hne => by
        obtain ⟨hk, hkv, hkb⟩ := mem_lanesOn.mp hk
        exact (hsep k hk hne hkv).imp_right fun hap => by omega
      have hold : slice (q.scratch.read base 128) (a l % 128) n = q.scratch.read (a l) n := by
        rw [slice_read _ hfit, show base + a l % 128 = a l by omega]
      have hnew : (q.scratch.write base d).read (a l) n = slice d (a l % 128) n := by
        refine bytes_ext (Mem.read_length ..) (slice_length (hswap.length.symm ▸ hfit)) fun i hi => ?_
        rw [Mem.read_get _ _ _ _ hi, hget, if_pos (by omega), slice_getD hi]
        congr 1
        omega
      rw [hold] at hbytes hgiven
      exact ⟨hnew.trans hbytes, hgiven⟩
  · rw [if_neg hvu, ho] at hteam
    have hother : ∀ c, Tgt.scratch v c ∉ [Tgt.scratch u base] := fun c hc => by
      injection List.mem_singleton.mp hc with hu
      exact hvu hu
    exact ⟨o, hteam, hform v o ho, fun _ _ => Iff.rfl, fun _ _ => rfl, fun l _ _ hmem => absurd hmem (hother _)⟩

/-- R168: accesses to the blocks `ts` of scratchpads, where the sectors of their lanes are without poison. -/
theorem windows_served (h : InSectors ls a n op f g) (x : Wx) :
    ∀ (ts : List Tgt) (m : Made), ts.Nodup → (∀ t ∈ ts, ∃ u base, t = .scratch u base ∧ base % 128 = 0 ∧ (m.s.team u).isSome = true) →
    (∀ v q, m.s.team v = some q → q.scratch.wf = true) →
    (∀ l ∈ ls, Tgt.scratch (tm l) (a l / 128 * 128) ∈ ts → ∀ q, m.s.team (tm l) = some q → a l / 32 ∉ q.poison) →
    let r := ts.foldl (windowStep x (scratchParts ls tm a op late)) m
    SameOutside m.s r.s ∧ r.ids = m.ids ∧ r.bad = m.bad ∧ ∃ rs, r.rs = m.rs ++ rs ∧ (∀ x ∈ rs, x.bad = false) ∧
      ∀ v q, m.s.team v = some q → ∃ p, r.s.team v = some p ∧ Served ls tm a n f g ts v q p rs
  | [], m, _, _, hform, _ =>
    ⟨.refl m.s, rfl, rfl, [], (List.append_nil _).symm, List.forall_mem_nil _, fun v q hq => ⟨q, hq, .refl v (hform v q hq) []⟩⟩
  | t :: ts, m, hnodup, hall, hform, hclean => by
    obtain ⟨ht, hn⟩ := List.nodup_cons.mp hnodup
    obtain ⟨⟨u, base, rfl, hbase, hu⟩, hts⟩ := List.forall_mem_cons.mp hall
    obtain ⟨q0, hq0⟩ := Option.isSome_iff_exists.mp hu
    have hreads : ∀ o ∈ (lanesOn ls tm a u base).map (fun l => op l (a l % 128)), o.isWrite = false := by
      intro o ho
      obtain ⟨l, hl, rfl⟩ := List.mem_map.mp ho
      exact (h.swaps l (mem_lanesOn.mp hl).1).reads _
    have hops : opsOn (((scratchParts ls tm a op late).filter fun p => p.tgt == .scratch u base).map Part.op) =
        (lanesOn ls tm a u base).map fun l => op l (a l % 128) := by rw [scratchParts_on, opsOn_of_reads hreads]
    obtain ⟨hgood, hserved⟩ := scratchOps_served (tm := tm) h hbase hq0 hform fun l hl => by
      obtain ⟨hl, hlu, hlb⟩ := mem_lanesOn.mp hl
      exact hclean l hl (by rw [hlu, hlb]; exact List.mem_cons_self) q0 (by rw [hlu]; exact hq0)
    have hout := SameOutside.scratchOps m.s u base ((lanesOn ls tm a u base).map fun l => op l (a l % 128))
    have hnone := fun v => scratchOps_none (s := m.s) (u := u) (base := base) (v := v)
      (ops := (lanesOn ls tm a u base).map fun l => op l (a l % 128))
    have hstep : windowStep x (scratchParts ls tm a op late) m (.scratch u base) =
        { m with
          s := (m.s.scratchOps u base ((lanesOn ls tm a u base).map fun l => op l (a l % 128))).1.count x.core 8
            ((scratchParts ls tm a op late).filter fun p => p.tgt == .scratch u base).length
          rs := m.rs ++ (m.s.scratchOps u base ((lanesOn ls tm a u base).map fun l => op l (a l % 128))).2 } := by
      rw [← hops]; rfl
    rw [List.foldl_cons, hstep]
    generalize m.s.scratchOps u base ((lanesOn ls tm a u base).map fun l => op l (a l % 128)) = made at hgood hserved hout hnone
    obtain ⟨s, rs⟩ := made
    have hback : ∀ v p, s.team v = some p → ∃ q, m.s.team v = some q ∧ Served ls tm a n f g [.scratch u base] v q p rs := by
      intro v p hp
      cases hq : m.s.team v with
      | none => exact absurd ((hnone v hq).symm.trans hp) (by simp)
      | some q =>
        obtain ⟨p', hp', hsv⟩ := hserved v q hq
        obtain rfl := Option.some.inj (hp'.symm.trans hp)
        exact ⟨q, rfl, hsv⟩
    obtain ⟨hrest, hids, hbad, rs', hrs, hgood', hserved'⟩ := windows_served h x ts
      { m with s := s.count x.core 8 ((scratchParts ls tm a op late).filter fun p => p.tgt == .scratch u base).length, rs := m.rs ++ rs }
      hn (fun t ht => by
        obtain ⟨v, c, hv, hc, hsome⟩ := hts t ht
        obtain ⟨q, hq⟩ := Option.isSome_iff_exists.mp hsome
        obtain ⟨p, hp, -⟩ := hserved v q hq
        exact ⟨v, c, hv, hc, Option.isSome_iff_exists.mpr ⟨p, hp⟩⟩)
      (fun v p hp => (hback v p hp).choose_spec.2.form)
      (fun l hl hmem p hp => by
        obtain ⟨q, hq, hsv⟩ := hback _ p hp
        rw [hsv.poison _ fun hin => ht (by
          rw [← List.mem_singleton.mp hin, show a l / 32 / 4 * 128 = a l / 128 * 128 by omega]; exact hmem)]
        exact hclean l hl (List.mem_cons_of_mem _ hmem) q hq)
    refine ⟨(hout.trans (.count ..)).trans hrest, hids, hbad, rs ++ rs', by rw [hrs, List.append_assoc], ?_, fun v q hq => ?_⟩
    · exact List.forall_mem_append.mpr ⟨hgood, hgood'⟩
    · obtain ⟨p, hp, hsv⟩ := hserved v q hq
      obtain ⟨o, ho, hsv'⟩ := hserved' v p hp
      exact ⟨o, ho, hsv.cons ht hsv'⟩

end

end Sys2Proof.Machine

end

