-- ==== Sys2Proof/Proofs/ScratchAccesses.lean ====
section
/-! PROVED FACTS. Words whose accesses all go to scratchpads, from the places of their lanes to the end of the word (O56). -/

namespace Sys2Proof.Machine

/-! ### Where an access to a scratchpad lies -/

theorem regionOf_of_place {s : State} {die ctx va off : Nat} {wr : Bool} {e : Option TlbE} (h : s.place die ctx va wr e = .scratch off) :
    regionOf va = .scratch off := by
  unfold State.place at h
  cases hregion : regionOf va <;> simp only [hregion] at h
  case dev =>
    split at h
    · cases h
    · split at h
      · cases h
      · split at h <;> cases h
  case host =>
    split at h
    · cases h
    · split at h
      · cases h
      · split at h
        · split at h <;> cases h
        · next hline =>
          unfold State.stage2 at h
          split at h
          · cases h
          · simp only at h
            split at h
            · cases h
            · split at h
              · cases h
              · split at h <;> cases h
  case peer => split at h <;> cases h
  case scratch => rw [Loc.scratch.inj h]
  case opbuf => cases h
  case none => cases h

theorem regionOf_of_locate {s : State} {w : Warp} {va off : Nat} {wr : Bool} (h : s.locate w va wr = .scratch off) :
    regionOf va = .scratch off := by
  unfold State.locate at h
  extract_lets die ctx page mapped at h
  split at h
  · exact regionOf_of_place h
  · split at h
    · exact regionOf_of_place h
    · split at h
      · split at h <;> cases h
      · exact regionOf_of_place h

/-- R168, R182: an access to the scratchpad is aligned, and its address gives the byte. -/
theorem scratch_of_laneLoc {s : State} {x : Wx} {l va n off : Nat} {wr : Bool} (h : s.laneLoc x l va n wr = .scratch off) :
    va % n = 0 ∧ regionOf va = .scratch off := by
  unfold State.laneLoc at h
  split at h
  · cases h
  · next hal =>
    refine ⟨not_not.mp hal, ?_⟩
    split at h
    · next hloc =>
      split at h
      · exact (Loc.scratch.inj h) ▸ regionOf_of_locate hloc
      · cases h
    · split at h <;> cases h
    · exact regionOf_of_locate h

theorem regionOf_scratch {va off : Nat} (h : regionOf va = .scratch off) : 0x01FFFF0000000000 + off = va := by
  unfold regionOf at h
  split at h
  · cases h
  · split at h
    · cases h
    · split at h
      · cases h
      · split at h
        · next hin =>
          have := Region.scratch.inj h
          omega
        · split at h <;> cases h

/-- R181: an access of `n` bytes, a power of two up to 32, stays within a sector. -/
theorem within_sector {va off n : Nat} (hregion : regionOf va = .scratch off) (hal : va % n = 0) (hn : n ∣ 32) : off % 32 + n ≤ 32 := by
  have hva := regionOf_scratch hregion
  have hoff : n ∣ off := (Nat.dvd_add_right (hn.trans ⟨0x01FFFF0000000000 / 32, by decide⟩)).mp (hva ▸ Nat.dvd_of_mod_eq_zero hal)
  have hrem : n ∣ off % 32 := (Nat.dvd_mod_iff hn).mpr hoff
  have hgap : n ∣ 32 - off % 32 := Nat.dvd_sub hn hrem
  have := Nat.le_of_dvd (by omega) hgap
  omega

theorem Ty.bytes_dvd (t : Ty) : t.bytes ∣ 32 := by cases t <;> decide

theorem CasTy.size_dvd (t : CasTy) : CasTy.size t ∣ 32 := by cases t <;> decide

/-- The byte of the scratchpad that a place names. -/
def Loc.byte : Loc → Nat
  | .scratch off => off
  | _ => 0

section
variable {s : State} {x : Wx} {ea : Nat → Nat} {n : Nat} {wr : Bool} (h : ∀ l ∈ x.thr, ∃ a, s.laneLoc x l (ea l) n wr = .scratch a)
include h

theorem laneLoc_byte {l : Nat} (hl : l ∈ x.thr) : s.laneLoc x l (ea l) n wr = .scratch (s.laneLoc x l (ea l) n wr).byte := by
  obtain ⟨a, ha⟩ := h l hl
  rw [ha]; rfl

theorem allFound_of_scratch : AllFound x s ea n wr := fun l hl => by rw [laneLoc_byte h hl]; rfl

theorem near_of_scratch : x.near ea = true := by
  refine List.all_eq_true.mpr fun l hl => ?_
  rw [inScratch, (scratch_of_laneLoc (laneLoc_byte h hl)).2]

theorem partsOf_of_scratch (mk : Nat → Nat → LineOp) (late : Nat → Nat → List LateSrc) :
    partsOf x.w (s.places x ea n wr) mk late =
      scratchParts x.thr (fun l => (x.w.lane l).team) (fun l => (s.laneLoc x l (ea l) n wr).byte) mk late := by
  rw [partsOf, State.places, List.filterMap_map, scratchParts, ← List.filterMap_eq_map]
  refine List.filterMap_congr fun l hl => ?_
  rw [Function.comp]
  simp only
  rw [laneLoc_byte h hl]
  rfl

/-- R176: an access to the scratchpad uses no page. -/
theorem translated_of_scratch : s.translated x (s.places x ea n wr) = s := by
  refine State.translated_hit (allFound_of_scratch h).places fun p hp hregion => ?_
  obtain ⟨l, hl, rfl⟩ := List.mem_map.mp hp
  rw [(scratch_of_laneLoc (laneLoc_byte h hl)).2] at hregion
  obtain hregion | hregion := hregion <;> cases hregion

theorem sectors_of_scratch {op : Nat → Nat → LineOp} {f : Nat → List Byte → List Byte} {g : Nat → List Byte → LaneRes} (hn : n ∣ 32)
    (hthr : x.thr.Nodup) (hop : ∀ l ∈ x.thr, Swaps n (op l) (f l) (g l)) :
    InSectors x.thr (fun l => (s.laneLoc x l (ea l) n wr).byte) n op f g where
  nodup := hthr
  swaps := hop
  sector l hl := by
    obtain ⟨hal, hregion⟩ := scratch_of_laneLoc (laneLoc_byte h hl)
    exact within_sector hregion hal hn

end

/-! ### An instruction whose accesses all go to scratchpads -/

/-- R168: all the accesses go to scratchpads. -/
def OnScratch (ps : List Part) : Prop := ∀ p ∈ ps, ∃ u base, p.tgt = .scratch u base ∧ base % 128 = 0

theorem onScratch_parts (ls : List Nat) (tm a : Nat → Nat) (op : Nat → Nat → LineOp) (late : Nat → Nat → List LateSrc) :
    OnScratch (scratchParts ls tm a op late) := by
  intro p hp
  obtain ⟨l, -, rfl⟩ := List.mem_map.mp hp
  exact ⟨_, _, rfl, by simp⟩

theorem lines_of_scratch (m : Made) (x : Wx) (o : Mode) {ps : List Part} (hp : OnScratch ps) :
    m.lines x o ps = { m with s := m.s.count x.core 6 0, ids := m.ids ++ [] } := by
  have hitems : ∀ f : Part → Option Item, (∀ p ∈ ps, f p = none) → ps.filterMap f = [] := fun f h => List.filterMap_eq_nil_iff.mpr h
  unfold Made.lines
  rw [hitems _ fun p hm => by obtain ⟨u, base, htgt, -⟩ := hp p hm; simp only [htgt]]
  rfl

theorem peers_of_scratch (m : Made) (x : Wx) (deps : List Nat) (edit : Flit → Flit) {ps : List Part} (hp : OnScratch ps) :
    m.peers x deps edit ps = m := by
  unfold Made.peers
  induction ps with
  | nil => rfl
  | cons p r ih =>
    obtain ⟨u, base, htgt, -⟩ := hp p List.mem_cons_self
    simp only [List.foldl_cons, htgt]
    exact ih fun q hq => hp q (List.mem_cons_of_mem _ hq)

theorem perform_of_scratch (s : State) (x : Wx) (o : Mode) {ps : List Part} (hp : OnScratch ps) :
    s.perform x o ps =
      let m := (Made.mk s [] [] []).windows x ps
      { m with s := m.s.count x.core 6 0, ids := m.ids ++ [] } := by
  rw [State.perform, lines_of_scratch _ _ _ hp, peers_of_scratch _ _ _ _ hp]

theorem SameOutside.windows (x : Wx) (ps : List Part) {ts : List Tgt} (hts : ∀ t ∈ ts, ∃ u base, t = Tgt.scratch u base) (m : Made) :
    SameOutside m.s (ts.foldl (windowStep x ps) m).s := by
  induction ts generalizing m with
  | nil => exact .refl m.s
  | cons t ts ih =>
    obtain ⟨⟨u, base, rfl⟩, hrest⟩ := List.forall_mem_cons.mp hts
    have hstep : SameOutside m.s (windowStep x ps m (.scratch u base)).s := (SameOutside.scratchOps ..).trans (.count ..)
    exact hstep.trans (ih hrest _)

theorem targets_of_scratch {ps : List Part} (hp : OnScratch ps) :
    ∀ t ∈ (ps.map Part.tgt).eraseDups, ∃ u base, t = Tgt.scratch u base ∧ base % 128 = 0 := by
  intro t ht
  obtain ⟨p, hm, rfl⟩ := List.mem_map.mp (List.mem_eraseDups.mp ht)
  exact hp p hm

theorem SameOutside.perform (s : State) (x : Wx) (o : Mode) {ps : List Part} (hp : OnScratch ps) : SameOutside s (s.perform x o ps).s := by
  rw [perform_of_scratch s x o hp]
  refine .trans ?_ (.count ..)
  rw [windows_eq]
  exact .windows x ps (fun t ht => by obtain ⟨u, base, rfl, -⟩ := targets_of_scratch hp t ht; exact ⟨u, base, rfl⟩) (Made.mk s [] [] [])

section
variable {ls : List Nat} {tm a : Nat → Nat} {n : Nat} {op : Nat → Nat → LineOp} {f : Nat → List Byte → List Byte}
  {g : Nat → List Byte → LaneRes} (late : Nat → Nat → List LateSrc)

/-- What exchanges of lanes with scratchpads leave of team `v`, which was `q`. -/
structure Exchanged (ls : List Nat) (tm a : Nat → Nat) (n : Nat) (f : Nat → List Byte → List Byte) (g : Nat → List Byte → LaneRes)
    (v : Nat) (q p : Team) (rs : List LaneRes) : Prop where
  form : p.scratch.wf = true
  outside : ∀ b, (∀ l ∈ ls, tm l = v → f l = id ∨ ¬ (a l ≤ b ∧ b < a l + n)) → p.scratch.get b = q.scratch.get b
  inside : ∀ l ∈ ls, tm l = v → (∀ k ∈ ls, k ≠ l → tm k = v → f k = id ∨ a k + n ≤ a l ∨ a l + n ≤ a k) →
    p.scratch.read (a l) n = f l (q.scratch.read (a l) n) ∧ g l (q.scratch.read (a l) n) ∈ rs

/-- R168, R183, R189, R190: an instruction that exchanges bytes of scratchpads which are without poison. -/
theorem perform_served (h : InSectors ls a n op f g) (s : State) (x : Wx) (o : Mode) (hform : ∀ v q, s.team v = some q → q.scratch.wf =
    true)
    (hclean : ∀ l ∈ ls, ∃ q, s.team (tm l) = some q ∧ a l / 32 ∉ q.poison) :
    let m := s.perform x o (scratchParts ls tm a op late)
    m.ids = [] ∧ m.bad = [] ∧ (∀ r ∈ m.rs, r.bad = false) ∧
      ∀ v q, s.team v = some q → ∃ p, m.s.team v = some p ∧ Exchanged ls tm a n f g v q p m.rs := by
  have hon := onScratch_parts ls tm a op late
  rw [perform_of_scratch s x o hon, windows_eq]
  have hmem : ∀ l ∈ ls, Tgt.scratch (tm l) (a l / 128 * 128) ∈ ((scratchParts ls tm a op late).map Part.tgt).eraseDups := by
    intro l hl
    rw [List.mem_eraseDups, scratchParts, List.map_map]
    exact List.mem_map.mpr ⟨l, hl, rfl⟩
  obtain ⟨-, hids, hbad, rs, hrs, hgood, hserved⟩ := windows_served (late := late) h x
    ((scratchParts ls tm a op late).map Part.tgt).eraseDups (Made.mk s [] [] []) (eraseDups_nodup _)
    (fun t ht => by
      obtain ⟨p, hp, rfl⟩ := List.mem_map.mp (List.mem_eraseDups.mp ht)
      obtain ⟨l, hl, rfl⟩ := List.mem_map.mp hp
      obtain ⟨q, hq, -⟩ := hclean l hl
      exact ⟨_, _, rfl, by simp, Option.isSome_iff_exists.mpr ⟨q, hq⟩⟩)
    hform
    (fun l hl _ q hq => by
      obtain ⟨q', hq', hpoison⟩ := hclean l hl
      obtain rfl := Option.some.inj (hq'.symm.trans hq)
      exact hpoison)
  rw [List.nil_append] at hrs
  refine ⟨(List.append_nil _).trans hids, hbad, hrs ▸ hgood, fun v q hq => ?_⟩
  obtain ⟨p, hp, hsv⟩ := hserved v q hq
  refine ⟨p, hp, hsv.form, fun b hb => hsv.outside b fun l hl hv _ => hb l hl hv, fun l hl hv hsep => ?_⟩
  exact hrs ▸ hsv.inside l hl hv (hv ▸ hmem l hl) hsep

end


/-! ### The end of a word that leaves a pending access -/

/-- Memory, teams and cores are the same. -/
structure SameStore (s t : State) : Prop where
  mem : t.mem = s.mem
  teams : t.teams = s.teams
  cores : t.cores = s.cores

theorem SameStore.trans {s t u : State} (h : SameStore s t) (k : SameStore t u) : SameStore s u :=
  ⟨k.mem.trans h.mem, k.teams.trans h.teams, k.cores.trans h.cores⟩

theorem SameStore.finishRun (s : State) (c k : Nat) : SameStore s (s.finishRun c k) := by
  unfold State.finishRun
  split
  · exact ⟨rfl, rfl, rfl⟩
  · extract_lets s'
    split
    · exact ⟨rfl, rfl, rfl⟩
    · extract_lets u w' v
      refine SameStore.trans (s := s) (t := v) ⟨rfl, rfl, rfl⟩ ?_
      split
      · exact ⟨State.discardWarp_mem .., State.discardWarp_teams .., State.discardWarp_cores ..⟩
      · split
        · exact ⟨State.dropWarp_mem .., State.dropWarp_teams .., State.dropWarp_cores ..⟩
        · exact ⟨rfl, rfl, rfl⟩

theorem SameStore.advance (s : State) (c k : Nat) (fin : Bool) : SameStore s (s.advance c k fin) := by
  unfold State.advance
  split
  · exact .finishRun ..
  · split
    · exact ⟨rfl, rfl, rfl⟩
    · split
      · exact .finishRun ..
      · split
        · exact SameStore.trans (t := s.modWarp c k _) ⟨rfl, rfl, rfl⟩ (.finishRun ..)
        · exact ⟨rfl, rfl, rfl⟩

/-- The warp is the same but for what it waits for and when its events finish. -/
structure SameCourse (w v : Warp) : Prop where
  place : v.core = w.core ∧ v.slot = w.slot
  grid : v.grid = w.grid
  lanes : v.lanes = w.lanes
  run : ∃ g, v.run = w.run.map g

theorem SameCourse.trans {u v w : Warp} (h : SameCourse u v) (k : SameCourse v w) : SameCourse u w where
  place := ⟨k.place.1.trans h.place.1, k.place.2.trans h.place.2⟩
  grid := k.grid.trans h.grid
  lanes := k.lanes.trans h.lanes
  run := by
    obtain ⟨f, hf⟩ := h.run
    obtain ⟨g, hg⟩ := k.run
    exact ⟨g ∘ f, by rw [hg, hf, Option.map_map]⟩

theorem SameCourse.of_eq {w v : Warp} (hplace : v.core = w.core ∧ v.slot = w.slot) (hgrid : v.grid = w.grid) (hlanes : v.lanes = w.lanes)
    (hrun : v.run = w.run) : SameCourse w v := ⟨hplace, hgrid, hlanes, id, hrun.trans (Option.map_id ▸ rfl)⟩

theorem SameCourse.enterTok (w : Warp) (k : BitVec 3) (id : Nat) (fin : Bool) :
    SameCourse w (w.enterTok k id fin) ∧ (w.enterTok k id fin).pend = w.pend := by
  unfold Warp.enterTok
  split
  · exact ⟨.of_eq ⟨rfl, rfl⟩ rfl rfl rfl, rfl⟩
  · exact ⟨.of_eq ⟨rfl, rfl⟩ rfl rfl rfl, rfl⟩

theorem SameCourse.enterToks (w : Warp) (k j : BitVec 3) (id : Nat) (a b : Bool) :
    SameCourse w ((w.enterTok k id a).enterTok j id b) ∧ ((w.enterTok k id a).enterTok j id b).pend = w.pend := by
  obtain ⟨hk, hkp⟩ := SameCourse.enterTok w k id a
  obtain ⟨hj, hjp⟩ := SameCourse.enterTok (w.enterTok k id a) j id b
  exact ⟨hk.trans hj, hjp.trans hkp⟩

/-- R96: what a memory instruction leaves of its warp: its access is pending under the warp's next event. -/
theorem Warp.leave_pending (w : Warp) {n : WordInfo} (hlat : n.lat = 0) (x : Wx) (ws : List RegWrite) {p : Pend} (hwb : p.wb = false) :
    SameCourse (w.lastUses n x.act) (w.leave n x ws (some p) []) ∧
      ∃ q ∈ (w.leave n x ws (some p) []).pend, q.id = w.nextEv ∧ q.wb = false ∧ q.writes = ws ++ p.writes := by
  unfold Warp.leave
  extract_lets c id lanes w1 held w2 w3 w4
  have h2 : SameCourse w1 w2 := ⟨⟨rfl, rfl⟩, rfl, rfl, _, rfl⟩
  have h3 : w3 = w2.tick (stallOf c) := by simp only [w3, Warp.results, hlat, hwb, if_true, Bool.false_eq_true, if_false]
  have h3' : SameCourse w2 w3 := h3 ▸ .of_eq ⟨rfl, rfl⟩ rfl rfl rfl
  have h4 : ∃ v : Warp, SameCourse w3 v ∧ (∃ q ∈ v.pend, q.id = id ∧ q.wb = false ∧ q.writes = ws ++ p.writes) ∧
      SameCourse v w4 ∧ w4.pend = v.pend := by
    refine ⟨_, ?_, ?_, SameCourse.enterToks _ c.setw c.setr id p.wb _⟩
    · exact .of_eq ⟨rfl, rfl⟩ rfl rfl rfl
    · refine ⟨_, List.mem_append_right _ List.mem_cons_self, rfl, hwb, ?_⟩
      exact congrArg (· ++ p.writes) (if_pos ⟨hlat, by rw [hwb]; rfl⟩)
  obtain ⟨v, hv, ⟨q, hq, hid, hqwb, hwrites⟩, hv4, hpend⟩ := h4
  refine ⟨((h2.trans h3').trans (hv.trans hv4)).trans (.of_eq ⟨rfl, rfl⟩ rfl rfl rfl), q, ?_, hid, hqwb, hwrites⟩
  exact List.mem_filter.mpr ⟨hpend ▸ hq, by rw [hqwb]; rfl⟩


theorem SameCores.of_eq {s t : State} (h : t.cores = s.cores) : SameCores s t := congrArg _ h

/-- What the end of a word leaves of memory, teams and cores. -/
theorem close_stores (s u : State) (n : WordInfo) (x : Wx) (w : Warp) (ws : List RegWrite) (p : Option Pend) :
    (s.close n x w (.done u ws p [])).mem = u.mem ∧ (s.close n x w (.done u ws p [])).teams = u.teams ∧
      SameCores u (s.close n x w (.done u ws p [])) := by
  simp only [State.close, List.isEmpty_nil, if_true]
  obtain ⟨hmem, hteams, hcores⟩ := SameStore.advance
    ((((u.count x.core 2 1).count x.core 3 x.act.length).occupy w).modWarp x.core x.slot fun w =>
      { u.stallUntil n.ctl.sch (w.leave n x ws p []) with hold := none }) x.core x.slot n.ctl.sch.fin
  refine ⟨hmem, hteams, (SameCores.of_eq hcores).trans ?_⟩
  exact (State.sameModule_count _ x.core 3 _).cores.trans (State.sameModule_count u x.core 2 1).cores

/-- R96: a memory instruction of a warp that stays leaves its access pending. -/
theorem close_pending {u : State} {n : WordInfo} {x : Wx} {w : Warp} {r : Run} (hlat : n.lat = 0) (hx : x.core = w.core ∧ x.slot = w.slot)
    (hw : u.warpAt w.core w.slot = some { w with run := some r }) (hstands : Stands u w) (ws : List RegWrite) {p : Pend} (hwb : p.wb =
        false)
    (s0 : State) :
    ∃ v, (s0.close n x w (.done u ws (some p) [])).warpAt w.core w.slot = some v ∧
      ∃ q ∈ v.pend, q.id = w.nextEv ∧ q.wb = false ∧ q.writes = ws ++ p.writes := by
  obtain ⟨hxc, hxs⟩ := hx
  simp only [State.close, List.isEmpty_nil, if_true, hxc, hxs]
  generalize hg : (fun v : Warp => { u.stallUntil n.ctl.sch (v.leave n x ws (some p) []) with hold := none }) = g
  generalize hm : (((u.count w.core 2 1).count w.core 3 x.act.length).occupy w).modWarp w.core w.slot g = m
  have hleft : ∀ v : Warp, SameCourse (v.lastUses n x.act) (g v) ∧
      ∃ q ∈ (g v).pend, q.id = v.nextEv ∧ q.wb = false ∧ q.writes = ws ++ p.writes := by
    intro v
    obtain ⟨hcourse, hpend⟩ := Warp.leave_pending v hlat x ws hwb
    subst hg
    exact ⟨hcourse.trans (.of_eq ⟨rfl, rfl⟩ rfl rfl rfl), hpend⟩
  have hregs := fun v : Warp => Warp.regsOnly_lastUses v n x.act
  have hstays : Stays g := fun v => by
    obtain ⟨-, hcore, hslot, -⟩ := (hregs v).same.name
    exact ⟨(hleft v).1.place.1.trans hcore, (hleft v).1.place.2.trans hslot⟩
  have hat : m.warpAt w.core w.slot = some (g { w with run := some r }) := by
    rw [← hm, State.warpAt_modWarp_self _ _ _ _ hstays]
    exact congrArg (Option.map g) hw
  obtain ⟨hcourse, q, hq, hqid, hqwb, hqw⟩ := hleft { w with run := some r }
  obtain ⟨f, hf⟩ := hcourse.run
  have hrun : (g { w with run := some r }).run = some (f r) := by rw [hf, Warp.run_lastUses]; rfl
  have hname := (hregs { w with run := some r }).same.name
  have hstands' : Stands m (g { w with run := some r }) := by
    obtain ⟨halive, l, hl, hst⟩ := hstands
    have hlane : ∀ j, (g { w with run := some r }).lane j = (({ w with run := some r } : Warp).lastUses n x.act).lane j := fun j => by
      rw [Warp.lane, Warp.lane, hcourse.lanes]
    refine ⟨?_, l, ?_, ?_⟩
    · rw [hcourse.grid, hname.2.2.2.1, ← hm]
      exact halive
    · have hthreads := (hregs { w with run := some r }).same.threads
      have hsame : (g { w with run := some r }).threads = (({ w with run := some r } : Warp).lastUses n x.act).threads := by
        simp only [Warp.threads, hcourse.lanes, hlane]
      rw [hsame, hthreads]
      exact hl
    · rw [hlane]
      obtain ⟨_, _, hj⟩ := (hregs { w with run := some r }).lane l
      rw [hj]
      exact hst
  obtain ⟨-, -, hstay⟩ := State.advance_spec n.ctl.sch.fin hat hrun
  obtain ⟨⟨v, hv⟩, -⟩ := hstay hstands'
  obtain ⟨-, hpend, -⟩ := State.advance_kept n.ctl.sch.fin hat hrun v hv
  exact ⟨v, hv, q, hpend ▸ hq, hqid, hqwb, hqw⟩

/-! ### The state in which a word makes its accesses -/

/-- The state differs from the one before the word in no more than the stop that the run's end brings, free choices and counters. -/
structure Begun (s : State) (w : Warp) (r : Run) (u : State) : Prop where
  mem : u.mem = s.mem
  cores : SameCores s u
  teams : u.teams = s.teams
  grids : u.grids = s.grids
  trace : u.trace = s.trace
  warp : ∃ q, u.warpAt w.core w.slot = some { w with run := some { r with stopAfter := q } }

theorem begun_startOf {n : WordInfo} {s : State} {w : Warp} {r : Run} (h : Ready n s w r) : Begun s w r (startOf n s w r) := by
  obtain ⟨hsame, hgrids, hwarp, -⟩ := startOf_spec h
  exact ⟨hsame.mem, hsame.cores, hsame.teams, hgrids, hsame.trace, hwarp⟩

/-- R397: a watchpoint leaves a stop for the end of the run. -/
theorem Begun.watched {s u : State} {w : Warp} {r : Run} (h : Begun s w r u) {x : Wx} (hx : x.core = w.core ∧ x.slot = w.slot)
    (rd wr : Bool) (as : List (Nat × Nat × Loc)) (n : Nat) : Begun s w r (u.watched x rd wr as n) := by
  unfold State.watched
  split
  · split
    · next lane va _ _ =>
      obtain ⟨q, hq⟩ := h.warp
      refine ⟨h.mem, h.cores, h.teams, h.grids, h.trace, mergeStop q (2, lane, BitVec.ofNat 64 va), ?_⟩
      rw [hx.1, hx.2, State.warpAt_modWarp_self, hq]
      · rfl
      · exact fun _ => ⟨rfl, rfl⟩
    · exact h
  · exact h

theorem team_of_teams {s t : State} (h : t.teams = s.teams) (u : Nat) : t.team u = s.team u := by rw [State.team, State.team, h]

theorem thr_nodup (n : WordInfo) (s : State) (w : Warp) (r : Run) : (seenBy n s w r).thr.Nodup :=
  (List.nodup_range.filter _).filter _

/-! ### The end of an access to scratchpads -/

theorem narrow_near (sc : Scope) : (Scope.narrow sc == .warp || Scope.narrow sc == .team) = true := by cases sc <;> rfl

theorem rvals_of_noTrace {s : State} (h : s.trace.flags = 0) (w : Warp) (pc : Word) (rs : List LaneRes) : s.rvals w pc rs = s := by
  have hcaptured : ∀ u, s.captured u = false := fun u => by
    unfold State.captured
    split
    · rfl
    · simp [h]
  refine List.foldl_fixed' (fun res => ?_) rs
  simp only [State.rval, hcaptured, Bool.and_false, Bool.false_eq_true, if_false, ite_self]

/-- R195, R222: an access to scratchpads has no requests, and acquires nothing beyond them. -/
theorem finish_of_scratch {m : Made} {x : Wx} {ea : Nat → Nat} (hnear : x.near ea = true) (k : PendKind) (sc : Scope) (o : Order)
    (ws : List RegWrite) (hids : m.ids = []) (hbad : m.bad = []) (hgood : ∀ r ∈ m.rs, r.bad = false)
    (htrace : k = .rmw → m.s.trace.flags = 0) :
    m.finish x k (x.scope ea sc) o ws [] = .done m.s (resWrites x.w m.rs ++ ws) (some (pendOf k [] none)) [] := by
  have hnow : m.s.acquireNow x.core (Scope.narrow sc) = m.s := if_pos (narrow_near sc)
  have hbads : resBads m.rs = [] := by
    rw [resBads, List.filter_eq_nil_iff.mpr fun r hr => by rw [hgood r hr]; exact Bool.false_ne_true]
    rfl
  have hrvals : (if k == .rmw then m.s.rvals x.w x.run.pc m.rs else m.s) = m.s := by
    split
    · next hk => exact rvals_of_noTrace (htrace (beq_iff_eq.mp hk)) ..
    · rfl
  simp only [Made.finish, Wx.scope, hnear, if_true, hids, List.isEmpty_nil, Bool.true_and, hbads, hbad, List.append_nil, hnow, ite_self,
      hrvals]


section
variable {n : WordInfo} {s : State} {w : Warp} {r : Run} {ea : Nat → Nat} {size : Nat} {wr : Bool}

/-- The scratchpad byte that each lane of the word accesses. -/
def byteOf (n : WordInfo) (s : State) (w : Warp) (r : Run) (ea : Nat → Nat) (size : Nat) (wr : Bool) (l : Nat) : Nat :=
  ((startOf n s w r).laneLoc (seenBy n s w r) l (ea l) size wr).byte

/-- The team whose scratchpad each lane of the word accesses. -/
def teamOf (n : WordInfo) (s : State) (w : Warp) (r : Run) (l : Nat) : Nat := ((seenBy n s w r).w.lane l).team

theorem resWrites_of_mem {w : Warp} {rs : List LaneRes} {res : LaneRes} (hres : res ∈ rs) {reg : Nat} (hreg : res.reg = some reg) :
    ∀ e ∈ received res.lane reg res.sx res.bytes, e ∈ resWrites w rs := by
  intro e he
  have hgiven : e ∈ LaneRes.regWrites res := by
    unfold LaneRes.regWrites
    rw [hreg]
    exact he
  refine List.mem_flatMap.mpr ⟨e, List.mem_flatMap.mpr ⟨res, hres, hgiven⟩, ?_⟩
  split
  · exact List.mem_cons_self
  · exact List.mem_singleton_self e

/-- R168, R183, R189, R190: a word that exchanges bytes with scratchpads that are without poison: what it leaves there, and what it will
give its lanes. -/
theorem exchange_word (hready : Ready n s w r) (hform : MemoryForm s) (hstands : Stands s w) (hlat : n.lat = 0) (hsize : size ∣ 32)
    (hclean : ∀ l ∈ (seenBy n s w r).thr,
      CleanScratch s (seenBy n s w r) l ((startOf n s w r).laneLoc (seenBy n s w r) l (ea l) size wr))
    {op : Nat → Nat → LineOp} {f : Nat → List Byte → List Byte} {g : Nat → List Byte → LaneRes} (hop : ∀ l, Swaps size (op l) (f l) (g l))
    (late : Nat → Nat → List LateSrc) (mode : Mode) (rd wr' : Bool) {k : PendKind} (htrace : k = .rmw → s.trace.flags = 0) (sc : Scope)
    (o : Order) (ws : Made → List RegWrite) :
    let x := seenBy n s w r
    let as := (startOf n s w r).places x ea size wr
    let m := (((startOf n s w r).translated x as).watched x rd wr' as size).perform x mode (partsOf x.w as op late)
    let t := afterWord n s w r (m.finish x k (x.scope ea sc) o (ws m) [])
    t.mem = s.mem ∧ SameCores s t ∧ ∃ v, t.warpAt w.core w.slot = some v ∧ ∃ rs,
      (∀ res ∈ rs, ∀ reg, res.reg = some reg → WillGive v w.nextEv res.lane reg res.sx res.bytes) ∧
      ∀ u q, s.team u = some q → ∃ p, t.team u = some p ∧
        Exchanged x.thr (teamOf n s w r) (byteOf n s w r ea size wr) size f g u q p rs := by
  intro x as m t
  have hloc : ∀ l ∈ x.thr, ∃ a, (startOf n s w r).laneLoc x l (ea l) size wr = .scratch a := fun l hl => by
    obtain ⟨a, -, ha, -⟩ := hclean l hl
    exact ⟨a, ha⟩
  have hbegun := (begun_startOf hready).watched (x := x) ⟨rfl, rfl⟩ rd wr' as size
  have hm : m = ((startOf n s w r).watched x rd wr' as size).perform x mode
      (scratchParts x.thr (teamOf n s w r) (byteOf n s w r ea size wr) op late) := by
    show State.perform (State.watched (State.translated _ x as) x rd wr' as size) x mode (partsOf x.w as op late) = _
    rw [translated_of_scratch hloc, partsOf_of_scratch hloc]
    rfl
  generalize (startOf n s w r).watched x rd wr' as size = u at hbegun hm
  have hteam := team_of_teams hbegun.teams
  obtain ⟨hids, hbad, hgood, hserved⟩ := perform_served late (sectors_of_scratch hloc hsize (thr_nodup n s w r) fun l _ => hop l) u x mode
    (fun v q hq => by
      rw [hteam] at hq
      exact (hform.2.1 q (List.mem_of_find?_eq_some hq)).1)
    (fun l hl => by
      obtain ⟨a, q, ha, hq, hpoison⟩ := hclean l hl
      refine ⟨q, (hteam _).trans hq, ?_⟩
      have hbyte : ((startOf n s w r).laneLoc x l (ea l) size wr).byte = a := congrArg Loc.byte ha
      rw [hbyte]
      exact hpoison)
  have hout : SameOutside u m.s := hm ▸ SameOutside.perform u x mode (onScratch_parts _ _ _ _ _)
  have hfinish : m.finish x k (x.scope ea sc) o (ws m) [] = .done m.s (resWrites x.w m.rs ++ ws m) (some (pendOf k [] none)) [] := by
    refine finish_of_scratch (near_of_scratch hloc) k sc o (ws m) (hm ▸ hids) (hm ▸ hbad) (hm ▸ hgood) fun hk => ?_
    rw [hout.trace, hbegun.trace]
    exact htrace hk
  obtain ⟨q, hq⟩ := hbegun.warp
  have hstands' : Stands m.s w := by
    refine ⟨?_, hstands.2⟩
    rw [State.gridOf, State.grid, hout.grids, hbegun.grids]
    exact hstands.1
  obtain ⟨v, hv, e, he, hid, hwb, hwrites⟩ := close_pending hlat (x := x) ⟨rfl, rfl⟩
      ((State.warpAt_of_warps hout.warps ..).trans hq) hstands'
    (resWrites x.w m.rs ++ ws m) (p := pendOf k [] none) rfl (startOf n s w r)
  obtain ⟨hmem, hteams, hcores⟩ := close_stores (startOf n s w r) m.s n x w (resWrites x.w m.rs ++ ws m) (some (pendOf k [] none))
  have ht : t = (startOf n s w r).close n x w (.done m.s (resWrites x.w m.rs ++ ws m) (some (pendOf k [] none)) []) :=
    congrArg ((startOf n s w r).close n x w) hfinish
  rw [ht]
  refine ⟨(hmem.trans hout.mem).trans hbegun.mem, (hcores.trans hout.cores).trans hbegun.cores, v, hv, m.rs, fun res hres reg hreg => ?_,
    fun v q hvq => ?_⟩
  · refine ⟨e, he, hid, hwb, fun i hi => ?_⟩
    rw [hwrites]
    exact List.mem_append_left _ (List.mem_append_left _ (resWrites_of_mem hres hreg i hi))
  · obtain ⟨p, hp, hex⟩ := hserved v q ((hteam v).trans hvq)
    exact ⟨p, (team_of_teams hteams v).trans (hm ▸ hp), hm ▸ hex⟩

/-- R183: what a load of a clean scratchpad leaves and returns. -/
theorem Exchanged.unchanged {ls : List Nat} {tm a : Nat → Nat} {g : Nat → List Byte → LaneRes} {v : Nat} {q p : Team} {rs : List LaneRes}
    (h : Exchanged ls tm a size (fun _ => id) g v q p rs) (hform : q.scratch.wf = true) :
    p.scratch = q.scratch ∧ ∀ l ∈ ls, tm l = v → g l (q.scratch.read (a l) size) ∈ rs :=
  ⟨Mem.ext_of_wfFrom h.form hform fun b => h.outside b fun _ _ _ => .inl rfl,
    fun l hl hv => (h.inside l hl hv fun _ _ _ _ => .inl rfl).2⟩

/-- Bytes to which no lane stores stay as they were. -/
theorem Exchanged.kept {f : Nat → List Byte → List Byte} {g : Nat → List Byte → LaneRes} {v : Nat} {q p : Team} {rs : List LaneRes}
    (h : Exchanged (seenBy n s w r).thr (teamOf n s w r) (byteOf n s w r ea size true) size f g v q p rs)
    (hloc : ∀ l ∈ (seenBy n s w r).thr, ∃ a, (startOf n s w r).laneLoc (seenBy n s w r) l (ea l) size true = .scratch a) {b : Nat}
    (hb : ¬ StoresTo (seenBy n s w r) (startOf n s w r) ea size v b) : p.scratch.get b = q.scratch.get b :=
  h.outside b fun l hl hv => .inr fun ⟨hlo, hhi⟩ => hb ⟨l, hl, _, hv, laneLoc_byte hloc hl, hlo, hhi⟩

/-- What a lane whose bytes no other accesses leaves, and what it is given. -/
theorem Exchanged.alone {f : Nat → List Byte → List Byte} {g : Nat → List Byte → LaneRes} {v : Nat} {q p : Team} {rs : List LaneRes}
    (h : Exchanged (seenBy n s w r).thr (teamOf n s w r) (byteOf n s w r ea size true) size f g v q p rs)
    (hloc : ∀ l ∈ (seenBy n s w r).thr, ∃ a, (startOf n s w r).laneLoc (seenBy n s w r) l (ea l) size true = .scratch a) {l a : Nat}
    (hl : l ∈ (seenBy n s w r).thr) (hv : ((seenBy n s w r).w.lane l).team = v)
    (ha : (startOf n s w r).laneLoc (seenBy n s w r) l (ea l) size true = .scratch a)
    (halone : Alone (seenBy n s w r) (startOf n s w r) ea size l a) :
    p.scratch.read a size = f l (q.scratch.read a size) ∧ g l (q.scratch.read a size) ∈ rs := by
  have hbyte : byteOf n s w r ea size true l = a := congrArg Loc.byte ha
  have hin := h.inside l hl hv fun k hk hne hkv => .inr (by
    rw [hbyte]
    exact halone k hk _ hne (hkv.trans hv.symm) (laneLoc_byte hloc hk))
  rwa [hbyte] at hin

end

theorem casBytes_length (x : Wx) (l : Nat) (a : Src) (t : CasTy) : (x.casBytes l a t).length = CasTy.size t := by
  cases t
  case n32 => exact leBytes_length ..
  case n64 => exact leBytes_length ..
  case b64pair => cases a <;> exact leBytes_length ..

/-! ### Stores -/

/-- A byte holds what some store that covers it wrote, where one does. -/
theorem storedAt_spec (ws : List (Nat × List Byte)) (b : Nat) :
    (storedAt ws b = none ∧ ∀ e ∈ ws, ¬ (e.1 ≤ b ∧ b < e.1 + e.2.length)) ∨
      ∃ e ∈ ws, (e.1 ≤ b ∧ b < e.1 + e.2.length) ∧ storedAt ws b = some (e.2.getD (b - e.1) 0) := by
  induction ws using List.reverseRecOn with
  | nil => exact .inl ⟨rfl, List.forall_mem_nil _⟩
  | append_singleton ws e ih =>
    have hlast : storedAt (ws ++ [e]) b = if e.1 ≤ b ∧ b < e.1 + e.2.length then some (e.2.getD (b - e.1) 0) else storedAt ws b := by
      rw [storedAt, List.foldl_append]
      rfl
    by_cases he : e.1 ≤ b ∧ b < e.1 + e.2.length
    · exact .inr ⟨e, List.mem_append_right _ List.mem_cons_self, he, hlast.trans (if_pos he)⟩
    · rw [hlast, if_neg he]
      obtain ⟨hnone, hws⟩ | ⟨d, hd, hin, hsome⟩ := ih
      · exact .inl ⟨hnone, List.forall_mem_append.mpr ⟨hws, List.forall_mem_singleton.mpr he⟩⟩
      · exact .inr ⟨d, List.mem_append_left _ hd, hin, hsome⟩

section
variable {ls : List Nat} {tm a : Nat → Nat} {d : Nat → List Byte} {late : Nat → Nat → List LateSrc}

theorem scratchParts_stores : ScratchParts (scratchParts ls tm a (fun l off => .write off (d l)) late) := by
  intro p hp
  obtain ⟨l, -, rfl⟩ := List.mem_map.mp hp
  exact ⟨_, _, _, _, rfl, rfl, by simp⟩

theorem storesTo_parts (u base : Nat) :
    storesTo (scratchParts ls tm a (fun l off => .write off (d l)) late) u base =
      (lanesOn ls tm a u base).map fun l => (a l % 128, d l) := by
  have hon : ((scratchParts ls tm a (fun l off => .write off (d l)) late).filter fun p => p.tgt == .scratch u base) =
      (lanesOn ls tm a u base).map fun l => ⟨.scratch (tm l) (a l / 128 * 128), .write (a l % 128) (d l), l, late l (a l % 128)⟩ := by
    rw [scratchParts, List.filter_map]
    refine congrArg (List.map _) (List.filter_congr fun l _ => ?_)
    rw [Bool.eq_iff_iff, Function.comp, beq_iff_eq, Tgt.scratch.injEq, decide_eq_true_eq]
  rw [storesTo, hon, List.filterMap_map, ← List.filterMap_eq_map]
  rfl

end

/-- R184: a byte of a scratchpad keeps its value, or holds what a lane that stores to it stored. -/
theorem storedAt_lanes {ls : List Nat} {tm a : Nat → Nat} {d : Nat → List Byte} {n : Nat} (hd : ∀ l, (d l).length = n)
    (hfit : ∀ l ∈ ls, a l % 128 + n ≤ 128) (u b : Nat) :
    (storedAt ((lanesOn ls tm a u (b / 128 * 128)).map fun l => (a l % 128, d l)) (b % 128) = none ∧
        ∀ l ∈ ls, tm l = u → ¬ (a l ≤ b ∧ b < a l + n)) ∨
      ∃ l ∈ ls, tm l = u ∧ (a l ≤ b ∧ b < a l + n) ∧
        storedAt ((lanesOn ls tm a u (b / 128 * 128)).map fun l => (a l % 128, d l)) (b % 128) = some ((d l).getD (b - a l) 0) := by
  obtain ⟨hnone, hout⟩ | ⟨e, he, hin, hsome⟩ := storedAt_spec ((lanesOn ls tm a u (b / 128 * 128)).map fun l => (a l % 128, d l)) (b % 128)
  · refine .inl ⟨hnone, fun l hl hu hin => ?_⟩
    have := hfit l hl
    refine hout (a l % 128, d l) (List.mem_map_of_mem (mem_lanesOn.mpr ⟨hl, hu, by omega⟩)) ?_
    simp only [hd]
    omega
  · obtain ⟨l, hl, rfl⟩ := List.mem_map.mp he
    obtain ⟨hl, hu, hblock⟩ := mem_lanesOn.mp hl
    simp only [hd] at hin hsome
    refine .inr ⟨l, hl, hu, by omega, ?_⟩
    rw [hsome, show b % 128 - a l % 128 = b - a l by omega]

section
variable {n : WordInfo} {s : State} {w : Warp} {r : Run} {ea : Nat → Nat} {size : Nat}

/-- R168, R184: a word whose lanes all store to scratchpads. -/
theorem store_word (hready : Ready n s w r) (hform : MemoryForm s) (hsize : size ∣ 32)
    (hloc : ∀ l ∈ (seenBy n s w r).thr, ∃ a, (startOf n s w r).laneLoc (seenBy n s w r) l (ea l) size true = .scratch a)
    {d : Nat → List Byte} (hd : ∀ l, (d l).length = size) (late : Nat → Nat → List LateSrc) (mode : Mode) (rd wr : Bool) (sc : Scope)
    (o : Order) :
    let x := seenBy n s w r
    let as := (startOf n s w r).places x ea size true
    let m := (((startOf n s w r).translated x as).watched x rd wr as size).perform x mode (partsOf x.w as (fun l off => .write off
        (d l)) late)
    let t := afterWord n s w r (m.finish x .store (x.scope ea sc) o [] [])
    t.mem = s.mem ∧ SameCores s t ∧ ∀ u q, s.team u = some q → ∃ p, t.team u = some p ∧
      (∀ b, ¬ StoresTo x (startOf n s w r) ea size u b → p.scratch.get b = q.scratch.get b) ∧
      ∀ l ∈ x.thr, ∀ a, (x.w.lane l).team = u → (startOf n s w r).laneLoc x l (ea l) size true = .scratch a →
        Alone x (startOf n s w r) ea size l a → p.scratch.read a size = d l := by
  intro x as m t
  have hbegun := (begun_startOf hready).watched (x := x) ⟨rfl, rfl⟩ rd wr as size
  have hm : m = ((startOf n s w r).watched x rd wr as size).perform x mode
      (scratchParts x.thr (teamOf n s w r) (byteOf n s w r ea size true) (fun l off => .write off (d l)) late) := by
    show State.perform (State.watched (State.translated _ x as) x rd wr as size) x mode (partsOf x.w as _ late) = _
    rw [translated_of_scratch hloc, partsOf_of_scratch hloc]
    rfl
  generalize (startOf n s w r).watched x rd wr as size = u at hbegun hm
  have hteam := team_of_teams hbegun.teams
  obtain ⟨hrs, hids, hbad, -, hstored⟩ := perform_scratch u x mode _
    (scratchParts_stores (ls := x.thr) (tm := teamOf n s w r) (a := byteOf n s w r ea size true) (d := d) (late := late))
    fun v q hq => by
      rw [hteam] at hq
      exact (hform.2.1 q (List.mem_of_find?_eq_some hq)).1
  have hout : SameOutside u m.s := hm ▸ SameOutside.perform u x mode (onScratch_parts _ _ _ _ _)
  have hnone : m.rs = [] := hm ▸ hrs
  have hfinish : m.finish x .store (x.scope ea sc) o [] [] = .done m.s (resWrites x.w m.rs ++ []) (some (pendOf .store [] none)) [] :=
    finish_of_scratch (near_of_scratch hloc) .store sc o [] (hm ▸ hids) (hm ▸ hbad) (hnone ▸ List.forall_mem_nil _) nofun
  obtain ⟨hmem, hteams, hcores⟩ := close_stores (startOf n s w r) m.s n x w (resWrites x.w m.rs ++ []) (some (pendOf .store [] none))
  have ht : t = (startOf n s w r).close n x w (.done m.s (resWrites x.w m.rs ++ []) (some (pendOf .store [] none)) []) :=
    congrArg ((startOf n s w r).close n x w) hfinish
  rw [ht]
  refine ⟨(hmem.trans hout.mem).trans hbegun.mem, (hcores.trans hout.cores).trans hbegun.cores, fun v q hvq => ?_⟩
  obtain ⟨p, hp, hget⟩ := hstored v q ((hteam v).trans hvq)
  have hfit : ∀ l ∈ x.thr, byteOf n s w r ea size true l % 128 + size ≤ 128 := fun l hl => by
    obtain ⟨hal, hregion⟩ := scratch_of_laneLoc (laneLoc_byte hloc hl)
    have := within_sector hregion hal hsize
    rw [byteOf]
    omega
  have hbyte := fun b => storedAt_lanes (tm := teamOf n s w r) hd hfit v b
  simp only [storesTo_parts] at hget
  refine ⟨p, (team_of_teams hteams v).trans (hm ▸ hp), fun b hb => ?kept, fun l hl a hv ha halone => ?stored⟩
  case kept =>
    obtain ⟨hnone, -⟩ | ⟨l, hl, hv, ⟨hlo, hhi⟩, -⟩ := hbyte b
    · rw [hget, hnone, Option.getD_none]
    · exact absurd ⟨l, hl, _, hv, laneLoc_byte hloc hl, hlo, hhi⟩ hb
  case stored =>
    have hal : byteOf n s w r ea size true l = a := congrArg Loc.byte ha
    refine bytes_ext (Mem.read_length ..) (hd l) fun i hi => ?_
    rw [Mem.read_get _ _ _ _ hi, hget]
    obtain ⟨-, hout⟩ | ⟨k, hk, hkv, hin, hsome⟩ := hbyte (a + i)
    · exact absurd (by omega) (hout l hl hv)
    · by_cases hkl : k = l
      · rw [hsome, Option.getD_some, hkl, hal, Nat.add_sub_cancel_left]
      · have hap := halone k hk _ hkl (hkv.trans hv.symm) (laneLoc_byte hloc hk)
        have hk' : byteOf n s w r ea size true k = ((startOf n s w r).laneLoc (seenBy n s w r) k (ea k) size true).byte := rfl
        omega

end

end Sys2Proof.Machine

open Sys2Proof Sys2Proof.Machine

/-- Settles O56: stores leave in each byte what the last lane stored there; loads, atomics and compare-and-swaps exchange the bytes of
each lane one after the other, and what a lane is given waits for its write-back. -/
theorem scratchStores : Obligations.ScratchStores := by
  unfold Obligations.ScratchStores
  obtain ⟨hld, hst, hatom, -, hcas, -⟩ := memoryAccesses
  refine ⟨fun c o s w r hready hmay hform halive hwait => ?st, fun c o s w r hready hmay hform hstands => ?ld,
    fun c o s w r hready hmay hform hstands hwait htrace => ?atom, fun c o s w r hready hmay hform hstands hwait htrace => ?cas⟩
  case st =>
    intro x s0 ea hloc
    obtain ⟨hmem, hcores, hteams⟩ := store_word hready hform (Ty.bytes_dvd o.ty) hloc (fun l => leBytes_length ..)
        (fun l off => lateOf o.data l off o.ty.bytes)
      ⟨storeKind o.rc.toNat, storeHit o.rc.toNat (!(x.deps o.ord).isEmpty), o.rc.toNat, false, x.deps o.ord⟩ false true o.sc o.ord
    have hdone := hst c o s w r hready ⟨hmay, allFound_of_scratch hloc, fun hrel hne => absurd (hwait hrel) hne⟩
    refine ⟨_, hdone, hmem, hcores, fun u q hq => ?_⟩
    obtain ⟨p, hp, hkept, hstored⟩ := hteams u q hq
    exact ⟨p, hp, hkept, hstored⟩
  case ld =>
    intro x place hclean
    have hloc : ∀ l ∈ x.thr, ∃ a, (startOf (infoLd c o) s w r).laneLoc x l (x.ea l o.addr o.off) o.ty.bytes false = .scratch a :=
      fun l hl => let ⟨a, _, ha, _⟩ := hclean l hl; ⟨a, ha⟩
    obtain ⟨hmem, hcores, v, hv, rs, hgives, hteams⟩ := exchange_word (ea := fun l => x.ea l o.addr o.off) hready hform hstands rfl
        (Ty.bytes_dvd o.ty) hclean
      (fun l => swaps_read l o.ty.bytes (dstV o.dst) o.ty) (fun _ _ => []) ⟨loadKind, loadHit, o.rc.toNat, false, []⟩ true false (k :=
          .load) (by simp) o.sc o.ord fun _ => []
    refine ⟨_, v, w.nextEv, hld c o s w r hready ⟨hmay, allFound_of_scratch hloc⟩, hv, hmem, hcores, fun u q hq => ?_,
        fun l hl a q ha hq => ?_⟩
    · obtain ⟨p, hp, hex⟩ := hteams u q hq
      exact ⟨p, hp, (hex.unchanged (hform.2.1 q (List.mem_of_find?_eq_some hq)).1).1⟩
    · obtain ⟨p, hp, hex⟩ := hteams _ q hq
      have hgiven := (hex.unchanged (hform.2.1 q (List.mem_of_find?_eq_some hq)).1).2 l hl rfl
      have hbyte : byteOf (infoLd c o) s w r (fun l => x.ea l o.addr o.off) o.ty.bytes false l = a := congrArg Loc.byte ha
      rw [hbyte] at hgiven
      exact hgives _ hgiven _ rfl
  case atom =>
    intro x s0 ea hclean
    have hloc : ∀ l ∈ x.thr, ∃ a, s0.laneLoc x l (ea l) o.ty.bytes true = .scratch a := fun l hl =>
      let ⟨a, _, ha, _⟩ := hclean l hl; ⟨a, ha⟩
    obtain ⟨hmem, hcores, v, hv, rs, hgives, hteams⟩ := exchange_word (ea := ea) hready hform hstands rfl (Ty.bytes_dvd o.ty) hclean
      (fun l => swaps_atom l o.op o.ty (x.w.src l o.b o.ty) (some (dstV o.dst))) (fun l _ => lateOf o.b l 0 o.ty.bytes)
      ⟨fun _ _ => .atHome, fun _ _ _ _ => false, 0, o.sc == .sys, x.deps o.ord⟩ false true (k := .rmw) (fun _ => htrace) o.sc o.ord
          fun _ => []
    have hdone := hatom c o s w r hready ⟨hmay, allFound_of_scratch hloc, fun hrel hne => absurd (hwait hrel) hne, fun l hl hvia => by
      rw [laneLoc_byte hloc hl] at hvia
      cases hvia⟩
    refine ⟨_, v, w.nextEv, hdone, hv, hmem, hcores, fun u q hq => ?_⟩
    obtain ⟨p, hp, hex⟩ := hteams u q hq
    refine ⟨p, hp, fun b hb => hex.kept hloc hb, fun l hl a hu ha halone => ?_⟩
    obtain ⟨hbytes, hgiven⟩ := hex.alone hloc hl hu ha halone
    exact ⟨hgives _ hgiven _ rfl, hbytes⟩
  case cas =>
    intro x s0 ea n hclean
    have hloc : ∀ l ∈ x.thr, ∃ a, s0.laneLoc x l (ea l) n true = .scratch a := fun l hl =>
      let ⟨a, _, ha, _⟩ := hclean l hl; ⟨a, ha⟩
    obtain ⟨hmem, hcores, v, hv, rs, hgives, hteams⟩ := exchange_word (ea := ea) hready hform hstands rfl (CasTy.size_dvd o.ct) hclean
      (fun l => swaps_cas l n o.dst.toNat (x.casBytes l o.cv o.ct) (x.casBytes l o.nv o.ct) (casBytes_length x l o.nv o.ct))
      (fun l _ => lateOf o.cv l 0 n ++ lateOf o.nv l n n)
      ⟨fun _ _ => .atHome, fun _ _ _ _ => false, 0, o.sc == .sys, x.deps o.ord⟩ false true (k := .rmw) (fun _ => htrace) o.sc o.ord
      fun m => x.w.withHelpers (casOk o (x.thr.filter fun l => !((resBads m.rs).map Bad.lane).contains l))
    have hdone := hcas c o s w r hready ⟨hmay, allFound_of_scratch hloc, fun hrel hne => absurd (hwait hrel) hne⟩
    refine ⟨_, v, w.nextEv, hdone, hv, hmem, hcores, fun u q hq => ?_⟩
    obtain ⟨p, hp, hex⟩ := hteams u q hq
    refine ⟨p, hp, fun b hb => hex.kept hloc hb, fun l hl a hu ha halone => ?_⟩
    obtain ⟨hbytes, hgiven⟩ := hex.alone hloc hl hu ha halone
    exact ⟨hgives _ hgiven _ rfl, hbytes⟩

end

