-- ==== Sys2Proof/Proofs/FormedStates.lean ====
section
/-! PROVED FACTS. Memory in canonical form, as one fact about a state that every function of the model keeps (O58).
One rule for each function that yields a state, in the order of the model's files: every branch of the function is a chain of others,
    whose rules `grind` is given.
Here: the state, the memory system, the trace, warps and words. -/

namespace Sys2Proof.Machine

/-- Memory, scratchpads and operand buffers in canonical form. -/
structure Kept (m : Mem) (ts : List Team) (ks : List Core) : Prop where
  dram : m.wf = true
  teams : ∀ t ∈ ts, t.scratch.wf = true ∧ t.resMem.wf = true
  cores : ∀ k ∈ ks, k.opbuf.wf = true

theorem Kept.mapTeams {m : Mem} {ts : List Team} {ks : List Core} (h : Kept m ts ks) (f : Team → Team)
    (hf : ∀ t, (f t).scratch = t.scratch ∧ (f t).resMem = t.resMem) : Kept m (ts.map f) ks where
  dram := h.dram
  teams t ht := by
    obtain ⟨u, hu, rfl⟩ := List.mem_map.mp ht
    obtain ⟨hs, hr⟩ := hf u
    rw [hs, hr]
    exact h.teams u hu
  cores := h.cores

theorem Kept.mapCores {m : Mem} {ts : List Team} {ks : List Core} (h : Kept m ts ks) (f : Core → Core)
    (hf : ∀ k, (f k).opbuf = k.opbuf) : Kept m ts (ks.map f) where
  dram := h.dram
  teams := h.teams
  cores k hk := by
    obtain ⟨c, hc, rfl⟩ := List.mem_map.mp hk
    exact (congrArg Mem.wf (hf c)).trans (h.cores c hc)

/-- `MemoryForm`, as one fact about the three parts of a state that hold memory. -/
def State.Formed (s : State) : Prop := Kept s.mem.dram s.teams s.cores

theorem State.formed_iff (s : State) : s.Formed ↔ MemoryForm s :=
  ⟨fun h => ⟨h.dram, h.teams, h.cores⟩, fun ⟨hdram, hteams, hcores⟩ => ⟨hdram, hteams, hcores⟩⟩

theorem State.Formed.dram {s : State} (h : s.Formed) : s.mem.dram.wf = true := Kept.dram h

theorem State.Formed.kept {s : State} (h : s.Formed) : Kept s.mem.dram s.teams s.cores := h

/-- A next state, where there is one, is formed. -/
def NextFormed (o : Host.Outcome State Fault Refusal) : Prop := ∀ t, o = .next t → t.Formed

/-- The state that the effect of a word leaves is formed. -/
def Eff.Formed : Eff → Prop
  | .done s _ _ _ | .ends s _ _ | .hold s => s.Formed
  | .fault .. => True

theorem next_formed (t : State) : NextFormed (.next t) = t.Formed := by simp [NextFormed]

theorem dram_tryEnter (m : MemSys) (id : Nat) : (m.tryEnter id).dram = m.dram := by
  unfold MemSys.tryEnter
  grind

theorem dram_takeIn (m : MemSys) : m.takeIn.dram = m.dram := by
  unfold MemSys.takeIn
  exact List.foldlRecOn (motive := fun q : MemSys => q.dram = m.dram) _ _ rfl fun q hq _ _ => (dram_tryEnter ..).trans hq

namespace State.Formed

theorem foldl {α : Type _} {s : State} (h : s.Formed) (l : List α) (f : State → α → State)
    (hf : ∀ t a, t.Formed → (f t a).Formed) : (l.foldl f s).Formed :=
  List.foldlRecOn l f h fun t ht a _ => hf t a ht

theorem foldl_fst {α β : Type _} {f : State × β → α → State × β} {p : State × β} (h : p.1.Formed) (l : List α)
    (hf : ∀ q a, q.1.Formed → (f q a).1.Formed) : (l.foldl f p).1.Formed :=
  List.foldlRecOn (motive := fun q => q.1.Formed) l f h fun q hq a _ => hf q a hq

theorem foldl_made {α : Type _} {f : Made → α → Made} {m : Made} (h : m.s.Formed) (l : List α)
    (hf : ∀ q a, q.s.Formed → (f q a).s.Formed) : (l.foldl f m).s.Formed :=
  List.foldlRecOn (motive := fun q => q.s.Formed) l f h fun q hq a _ => hf q a hq

theorem ite {c : Prop} [Decidable c] {a b : State} (ha : a.Formed) (hb : b.Formed) : (if c then a else b).Formed := by
  split
  · exact ha
  · exact hb

theorem fst_eq {β : Type _} {p : State × β} {t : State} {b : β} (he : p = (t, b)) (h : p.1.Formed) : t.Formed := by
  rwa [he] at h

theorem core_opbuf {s : State} (h : s.Formed) (c : Nat) : (s.core c).opbuf.wf = true := by
  rw [State.core, List.getD_eq_getElem?_getD]
  cases hc : s.cores[c]? with
  | none => rfl
  | some k => exact h.cores k (List.mem_of_getElem? hc)

/-! ### The memory system -/

theorem modCore {s : State} (h : s.Formed) (c : Nat) (f : Core → Core) (hf : ∀ k, k.opbuf.wf = true → (f k).opbuf.wf = true) :
    (s.modCore c f).Formed where
  dram := h.dram
  teams := h.teams
  cores := by
    intro k hk
    obtain ⟨i, hi, rfl⟩ := List.getElem_of_mem hk
    simp only [State.modCore, List.getElem_modify]
    split
    · exact hf _ (h.cores _ (List.getElem_mem _))
    · exact h.cores _ (List.getElem_mem _)

theorem modMem {s : State} (h : s.Formed) (f : MemSys → MemSys) (hf : (f s.mem).dram = s.mem.dram ∨ (f s.mem).dram.wf = true) :
    (s.modMem f).Formed where
  dram := by
    obtain hsame | hwf := hf
    · exact (congrArg Mem.wf hsame).trans h.dram
    · exact hwf
  teams := h.teams
  cores := h.cores

theorem modCtx {s : State} (h : s.Formed) (c : Nat) (f : Ctx → Ctx) : (s.modCtx c f).Formed := by
  unfold State.modCtx
  grind [State.Formed, ← kept]

theorem send {s : State} (h : s.Formed) (m : Msg) : (s.send m).Formed := by
  unfold State.send
  grind [State.Formed, ← kept]

theorem putBelow {s : State} (h : s.Formed) (l : LineId) (mask : BitVec 4) (d : List Byte) (p : BitVec 4) :
    (s.putBelow l mask d p).Formed := by
  cases l with
  | dev n =>
    refine h.modMem _ (.inr (List.foldlRecOn (motive := fun m => m.dram.wf = true) _ _ h.dram fun (m : MemSys) hm i _ => ?_))
    split
    · exact Mem.wf_write hm _ _
    · exact hm
  | host n => exact h.modMem _ (.inl rfl)

theorem modCell {s : State} (h : s.Formed) (l : LineId) (f : CellLine → CellLine) : (s.modCell l f).Formed := by
  unfold State.modCell
  grind [State.Formed, ← kept, ← modMem]

theorem dropCell {s : State} (h : s.Formed) (l : LineId) : (s.dropCell l).Formed := by
  unfold State.dropCell
  grind [State.Formed, ← kept, ← modMem]

theorem cleanCell {s : State} (h : s.Formed) (l : LineId) : (s.cleanCell l).Formed := by
  unfold State.cleanCell
  grind [State.Formed, ← kept, ← modCell, ← putBelow]

theorem evictCell {s : State} (h : s.Formed) (l : LineId) : (s.evictCell l).Formed := by
  unfold State.evictCell
  grind [← dropCell, ← cleanCell]

theorem nextUse {s : State} (h : s.Formed) : s.nextUse.Formed := by
  unfold State.nextUse
  grind [State.Formed, ← kept, ← modMem]

theorem homePatch {s : State} (h : s.Formed) (l : LineId) (mask : BitVec 4) (d : List Byte) (p : BitVec 4) :
    (s.homePatch l mask d p).Formed := by
  unfold State.homePatch
  grind [State.Formed, ← kept, ← nextUse, ← modCell, ← putBelow]

theorem makeRoom {s : State} (h : s.Formed) (l : LineId) (ctx : Nat) : (s.makeRoom l ctx).Formed := by
  unfold State.makeRoom
  grind [← evictCell]

theorem homeRead {s : State} (h : s.Formed) (l : LineId) (attr : BitVec 16) (ctx rc : Nat) : (s.homeRead l attr ctx rc).1.Formed := by
  unfold State.homeRead
  grind [State.Formed, ← kept, ← modMem, ← modCell, ← dropCell, ← makeRoom]

theorem modL1 {s : State} (h : s.Formed) (c : Nat) (l : LineId) (f : L1Line → L1Line) : (s.modL1 c l f).Formed := by
  unfold State.modL1
  grind [State.Formed, ← kept, ← modCore]

theorem dropL1 {s : State} (h : s.Formed) (c : Nat) (l : LineId) : (s.dropL1 c l).Formed := by
  unfold State.dropL1
  grind [State.Formed, ← kept, ← modCore]

theorem modDir {s : State} (h : s.Formed) (l : LineId) (f : DirE → DirE) : (s.modDir l f).Formed := by
  unfold State.modDir
  grind [State.Formed, ← kept, ← modMem]

theorem writeBack {s : State} (h : s.Formed) (x : L1Line) : (s.writeBack x).Formed := by
  unfold State.writeBack
  grind [← homePatch]

theorem recall' {s : State} (h : s.Formed) (l : LineId) (but : Option Nat) (keep : Bool) : (s.recall l but keep).Formed := by
  unfold State.recall
  grind [State.Formed, ← kept, ← foldl, ← writeBack, ← modL1, ← dropL1, ← modDir]

theorem evictDir {s : State} (h : s.Formed) (l : LineId) : (s.evictDir l).Formed := by
  unfold State.evictDir
  grind [State.Formed, ← kept, ← recall', ← modMem]

theorem needDir {s : State} (h : s.Formed) (l : LineId) (cls : Cls) : (s.needDir l cls).Formed := by
  unfold State.needDir
  grind [State.Formed, ← kept, ← modDir, ← evictDir, ← modMem]

theorem evictL1 {s : State} (h : s.Formed) (c : Nat) (x : L1Line) : (s.evictL1 c x).Formed := by
  unfold State.evictL1
  grind [State.Formed, ← kept, ← dropL1, ← writeBack, ← modDir]

theorem fillL1 {s : State} (h : s.Formed) (c : Nat) (x : L1Line) : (s.fillL1 c x).Formed := by
  unfold State.fillL1
  grind [State.Formed, ← kept, ← evictL1, ← modCore, ← dropL1]

theorem dropSelf {s : State} (h : s.Formed) (c : Nat) : (s.dropSelf c).Formed := by
  unfold State.dropSelf
  grind [State.Formed, ← kept, ← modCore]

theorem changeClass {s : State} (h : s.Formed) (l : LineId) (cls : Cls) : (s.changeClass l cls).Formed := by
  unfold State.changeClass
  grind [State.Formed, ← kept, ← modDir, ← evictCell, ← recall']

theorem dropOther {s : State} (h : s.Formed) (c : Nat) (l : LineId) (cls : Cls) : (s.dropOther c l cls).Formed := by
  unfold State.dropOther
  grind [← evictL1]

theorem dropOwn {s : State} (h : s.Formed) (c : Nat) (l : LineId) : (s.dropOwn c l).Formed := by
  unfold State.dropOwn
  grind [← dropL1]

theorem serveFill {s : State} (h : s.Formed) (r : HomeReq) (own : Bool) : (s.serveFill r own).1.Formed := by
  have hready := (((h.changeClass r.line (attrCls r.attr)).dropOther r.core r.line (attrCls r.attr)).needDir r.line
    (attrCls r.attr)).recall' r.line (some r.core) (!own)
  unfold State.serveFill
  extract_lets l s1 s2
  change s2.Formed at hready
  clear_value s2
  split
  · grind [← nextUse, ← homePatch, ← modL1, ← modDir]
  · have hread := hready.homeRead l r.attr r.ctx r.rc
    generalize s2.homeRead l r.attr r.ctx r.rc = read at hread
    grind [← nextUse, ← homePatch, ← fillL1, ← modDir]

theorem serveHome {s : State} (h : s.Formed) (r : HomeReq) : (s.serveHome r).1.Formed := by
  have hclass := h.changeClass r.line (attrCls r.attr)
  unfold State.serveHome
  extract_lets l s1 s2 s3 s4 m
  change s1.Formed at hclass
  clear_value s1
  have hdropped : s4.Formed := by grind [← recall', ← dropL1, ← dropOwn]
  clear_value s4
  split
  · grind [← recall', ← homeRead]
  · grind [← homePatch, ← putBelow, ← modL1, ← cleanCell, ← modCell]

theorem sendHalf {s : State} (h : s.Formed) (b : BridgeLine) (h0 : Bool) : (s.sendHalf b h0).Formed := by
  unfold State.sendHalf
  grind [← send]

theorem cleanBridge {s : State} (h : s.Formed) (n : Nat) : (s.cleanBridge n).Formed := by
  unfold State.cleanBridge
  grind [State.Formed, ← kept, ← modMem, ← sendHalf]

theorem gatherHost {s : State} (h : s.Formed) (n : Nat) : (s.gatherHost n).Formed := by
  unfold State.gatherHost
  grind [← evictCell, ← recall']

theorem dropBridge {s : State} (h : s.Formed) (n : Nat) : (s.dropBridge n).Formed := by
  unfold State.dropBridge
  grind [State.Formed, ← kept, ← modMem]

theorem giveUpBridge {s : State} (h : s.Formed) (c : Nat) (l : LineId) : (s.giveUpBridge c l).Formed := by
  unfold State.giveUpBridge
  grind [State.Formed, ← kept, ← modMem, ← dropBridge]

theorem serveMaint {s : State} (h : s.Formed) (r : HomeReq) : (s.serveMaint r).Formed := by
  unfold State.serveMaint
  grind [State.Formed, ← kept, ← modL1, ← writeBack, ← cleanCell, ← cleanBridge, ← evictL1, ← evictCell, ← giveUpBridge, ← dropCell]

theorem serve {s : State} (h : s.Formed) (r : HomeReq) : (s.serve r).1.Formed := by
  unfold State.serve
  grind [State.Formed, ← kept, ← serveFill, ← serveHome, ← homeRead, ← recall', ← needDir, ← send, ← modDir, ← modCell, ← putBelow,
    ← changeClass, ← serveMaint]

theorem fillL1Tlb {s : State} (h : s.Formed) (core : Nat) (e : TlbE) : (s.fillL1Tlb core e).Formed := by
  unfold State.fillL1Tlb
  grind [State.Formed, ← kept, ← modCore]

theorem fillTlb {s : State} (h : s.Formed) (core : Nat) (e : TlbE) : (s.fillTlb core e).Formed := by
  unfold State.fillTlb
  grind [State.Formed, ← kept, ← modMem, ← fillL1Tlb]

theorem addReq {s : State} (h : s.Formed) (r : HomeReq) : (s.addReq r).1.Formed := by
  refine h.modMem _ (.inl ?_)
  simp only
  split
  · exact dram_tryEnter ..
  · rfl

theorem agentRead {s : State} (h : s.Formed) (l : LineId) (attr : BitVec 16) (ctx : Nat) : (s.agentRead l attr ctx).1.Formed := by
  unfold State.agentRead
  grind [← recall', ← changeClass, ← homeRead]

theorem agentWrite {s : State} (h : s.Formed) (l : LineId) (attr : BitVec 16) (off : Nat) (b : List Byte) :
    (s.agentWrite l attr off b).Formed := by
  unfold State.agentWrite
  grind [← recall', ← changeClass, ← homePatch]

/-! ### Requests, records and the trace -/

theorem traceDone {s : State} (h : s.Formed) (id : Nat) : (s.traceDone id).Formed := by
  unfold State.traceDone
  grind [State.Formed, ← kept]

theorem traceWrite {s : State} (h : s.Formed) (va n : Nat) (b : List Byte) : (s.traceWrite va n b).1.Formed := by
  induction n generalizing s va b with
  | zero => exact h
  | succ n ih =>
    unfold State.traceWrite
    grind [← agentWrite, ← addReq]

theorem traceRaw {s : State} (h : s.Formed) (len : Nat) (ws : List Nat) : (s.traceRaw len ws).Formed := by
  unfold State.traceRaw
  split
  · exact h
  · refine .ite h ?_
    split
    next u ids hfirst =>
    split
    next v more hsecond =>
    have hu : u.Formed := fst_eq hfirst (h.traceWrite ..)
    have hv : v.Formed := fst_eq hsecond (hu.traceWrite ..)
    extract_lets w
    generalize settleTrace v.trace.widx _ = settled
    obtain ⟨x, l⟩ := settled
    exact hv

theorem traceSync {s : State} (h : s.Formed) (d : Nat) (chg : Bool) : (s.traceSync d chg).Formed := by
  unfold State.traceSync
  grind [← traceRaw]

theorem resync {s : State} (h : s.Formed) : s.resync.Formed := by
  unfold State.resync
  grind [State.Formed, ← kept, ← foldl, ← traceSync]

theorem traceRec {s : State} (h : s.Formed) (len : Nat) (ws : List Nat) : (s.traceRec len ws).Formed := by
  unfold State.traceRec
  grind [← traceRaw, ← resync]

theorem traceCore {s : State} (h : s.Formed) (bit core ctx kind w1 w2 w3 : Nat) : (s.traceCore bit core ctx kind w1 w2 w3).Formed := by
  unfold State.traceCore
  grind [← traceRec]

theorem count {s : State} (h : s.Formed) (core code n : Nat) : (s.count core code n).Formed := by
  unfold State.count
  grind [State.Formed, ← kept, ← modCore]

theorem msix {s : State} (h : s.Formed) (i v : Nat) : (s.msix i v).Formed := by
  unfold State.msix
  grind [← send]

theorem event {s : State} (h : s.Formed) (i : Nat) (e : List DWord) : (s.event i e).Formed := by
  unfold State.event
  grind [State.Formed, ← kept, ← msix, ← send]

theorem ctxEvent {s : State} (h : s.Formed) (ctx : Nat) (e : List DWord) : (s.ctxEvent ctx e).Formed := by
  unfold State.ctxEvent
  grind [← event]

theorem machineRecord {s : State} (h : s.Formed) (ctx structure_ e1 e2 : Nat) : (s.machineRecord ctx structure_ e1 e2).Formed := by
  unfold State.machineRecord
  grind [← event]

theorem complete {s : State} (h : s.Formed) (iface seq type status data : Nat) : (s.complete iface seq type status data).Formed := by
  unfold State.complete
  grind [← send]

/-! ### Warps, grids, faults and traps -/

theorem putWarp {s : State} (h : s.Formed) (w : Warp) : (s.putWarp w).Formed := by
  unfold State.putWarp
  grind [State.Formed, ← kept]

theorem modWarp {s : State} (h : s.Formed) (core slot : Nat) (f : Warp → Warp) : (s.modWarp core slot f).Formed := by
  unfold State.modWarp
  grind [State.Formed, ← kept]

theorem modWarpU {s : State} (h : s.Formed) (uid : Nat) (f : Warp → Warp) : (s.modWarpU uid f).Formed := by
  unfold State.modWarpU
  grind [State.Formed, ← kept, ← Kept.mapTeams]

theorem modGrid {s : State} (h : s.Formed) (uid : Nat) (f : Grid → Grid) : (s.modGrid uid f).Formed := by
  unfold State.modGrid
  grind [State.Formed, ← kept]

theorem modTeam {s : State} (h : s.Formed) (u : Nat) (f : Team → Team)
    (hf : ∀ t, t.scratch.wf = true ∧ t.resMem.wf = true → (f t).scratch.wf = true ∧ (f t).resMem.wf = true) : (s.modTeam u f).Formed where
  dram := h.dram
  teams := by
    intro t ht
    obtain ⟨v, hv, rfl⟩ := List.mem_map.mp ht
    split
    · exact hf v (h.teams v hv)
    · exact h.teams v hv
  cores := h.cores

theorem unpin {s : State} (h : s.Formed) (ver pin : Nat) : (s.unpin ver pin).Formed := by
  unfold State.unpin
  grind [State.Formed, ← kept]

theorem addPin {s : State} (h : s.Formed) (ver pin : Nat) (g : Option Nat) : (s.addPin ver pin g).Formed := by
  unfold State.addPin
  grind [State.Formed, ← kept]

theorem freeVersions {s : State} (h : s.Formed) : s.freeVersions.Formed := by
  unfold State.freeVersions
  grind [State.Formed, ← kept, ← foldl, ← ctxEvent]

theorem release {s : State} (h : s.Formed) (ps : List (Nat × Nat)) : (s.release ps).Formed := by
  unfold State.release
  grind [← foldl, ← freeVersions, ← unpin]

theorem closeCursors {s : State} (h : s.Formed) (l : Lane) : (s.closeCursors l).Formed := by
  unfold State.closeCursors
  grind [← foldl, ← freeVersions, ← unpin]

theorem undoPins {s : State} (h : s.Formed) (log : List PinOp) : (s.undoPins log).Formed := by
  unfold State.undoPins
  grind [← foldl, ← freeVersions, ← unpin, ← addPin]

theorem restart {s : State} (h : s.Formed) (uid : Nat) (lanes : List Nat) : (s.restart uid lanes).Formed := by
  unfold State.restart
  grind [State.Formed, ← kept, ← foldl, ← undoPins, ← count, ← modWarpU]

theorem dropWarp {s : State} (h : s.Formed) (w : Warp) : (s.dropWarp w).Formed := by
  unfold State.dropWarp
  grind [State.Formed, ← kept, ← modGrid, ← release, ← freeVersions]

theorem discardWarp {s : State} (h : s.Formed) (w : Warp) : (s.discardWarp w).Formed := by
  unfold State.discardWarp
  grind [← foldl, ← dropWarp, ← closeCursors]

theorem abortGrid {s : State} (h : s.Formed) (g : Nat) : (s.abortGrid g).Formed := by
  unfold State.abortGrid
  split
  · exact h
  · refine .ite h ?_
    extract_lets s1 s2 s3 mine s4 s5
    have h3 : s3.Formed := ((h.modGrid ..).ctxEvent ..).foldl _ _ fun t w ht => ht.discardWarp w
    have h4 : s4.Formed := h3.foldl _ _ fun t u ht => ht.foldl _ _ fun t w ht => ht.foldl _ _ fun t l ht => ht.closeCursors l
    have h5 : s5.Formed := h4.foldl _ _ fun t c ht => ht.modCore _ _ fun _ hk => hk
    exact h5.mapTeams _ fun t => by split <;> exact ⟨rfl, rfl⟩

theorem recordFault {s : State} (h : s.Formed) (w : Warp) (lanes : List Nat) (r : DWord) : (s.recordFault w lanes r).Formed := by
  unfold State.recordFault
  grind [← modWarpU, ← traceCore]

theorem withdraw {s : State} (h : s.Formed) (w : Warp) (lanes : List Nat) : (s.withdraw w lanes).Formed := by
  unfold State.withdraw
  grind [State.Formed, ← kept, ← foldl, ← Kept.mapTeams, ← modWarpU]

theorem deliver {s : State} (h : s.Formed) (w : Warp) (lanes : List Nat) (ret : Option Word) : (s.deliver w lanes ret).Formed := by
  unfold State.deliver
  grind [← abortGrid, ← modWarpU, ← withdraw]

theorem trap {s : State} (h : s.Formed) (uid : Nat) (lanes : List Nat) (ret : Option Word) (r : DWord) :
    (s.trap uid lanes ret r).Formed := by
  unfold State.trap
  grind [← deliver, ← recordFault]

theorem hostFault {s : State} (h : s.Formed) (uid : Nat) (lanes : List Nat) (c : Code) (addr : Nat) (r : DWord) :
    (s.hostFault uid lanes c addr r).Formed := by
  unfold State.hostFault
  grind [State.Formed, ← kept, ← withdraw, ← recordFault, ← ctxEvent, ← modWarpU]

theorem raiseLanes {s : State} (h : s.Formed) (uid : Nat) (pc : Word) (bad : List Bad) : (s.raiseLanes uid pc bad).Formed := by
  unfold State.raiseLanes
  grind [State.Formed, ← kept, ← foldl, ← modWarpU, ← trap, ← hostFault]

theorem finishRun {s : State} (h : s.Formed) (core slot : Nat) : (s.finishRun core slot).Formed := by
  unfold State.finishRun
  grind [State.Formed, ← kept, ← putWarp, ← discardWarp, ← dropWarp]

theorem block {s : State} (h : s.Formed) (core slot : Nat) : (s.block core slot).Formed := by
  unfold State.block
  grind [State.Formed, ← kept, ← modWarp]

theorem wake {s : State} (h : s.Formed) : s.wake.Formed := by
  unfold State.wake
  grind [State.Formed, ← kept]

/-! ### Words -/

theorem drawn {s : State} (h : s.Formed) (w : Warp) (keys : List RegKey) : (s.drawn w keys).Formed := by
  unfold State.drawn
  grind [State.Formed, ← kept]

theorem wholeFault {s : State} (h : s.Formed) (w : Warp) (r : Run) (lanes : List Nat) (c : Code) (addr : Nat) (host : Bool) :
    (s.wholeFault w r lanes c addr host).Formed := by
  unfold State.wholeFault
  grind [State.Formed, ← kept, ← modWarp, ← hostFault, ← trap, ← finishRun]

theorem advance {s : State} (h : s.Formed) (core slot : Nat) (fin : Bool) : (s.advance core slot fin).Formed := by
  unfold State.advance
  grind [State.Formed, ← kept, ← finishRun, ← modWarp]

theorem midBreak {s : State} (h : s.Formed) (w : Warp) (g : Grid) (r : Run) : (s.midBreak w g r).Formed := by
  unfold State.midBreak
  grind [State.Formed, ← kept, ← modWarp]

theorem occupy {s : State} (h : s.Formed) (w : Warp) : (s.occupy w).Formed := by
  unfold State.occupy
  grind [State.Formed, ← kept]

theorem skipWord {s : State} (h : s.Formed) (w : Warp) (c : Sys2Proof.Sched) : (s.skipWord w c).Formed := by
  unfold State.skipWord
  grind [← advance, ← modWarp, ← occupy, ← count]

theorem close {s : State} (h : s.Formed) (i : WordInfo) (x : Wx) (w : Warp) {e : Eff} (he : e.Formed) : (s.close i x w e).Formed := by
  cases e with
  | done t ws p bad =>
    have ht := (((show t.Formed from he).count x.core 2 1).count x.core 3 x.act.length).occupy w
    simp only [State.close]
    grind [← modWarp, ← raiseLanes, ← advance]
  | ends t ws p => exact ((((((show t.Formed from he).count x.core 2 1).count x.core 3 x.act.length).occupy w).modWarp ..).finishRun ..)
  | fault c a host => exact h.wholeFault ..
  | hold t => exact (show t.Formed from he).block ..

theorem issue {s : State} (h : s.Formed) (i : WordInfo) (body : Wx → State → Eff) (hbody : ∀ a b, b.Formed → (body a b).Formed)
    (more : Eff → Wx → State → State) (hmore : ∀ a b c, a.Formed → c.Formed → (more a b c).Formed) (w : Warp) (r : Run) (act : List Nat) :
    (s.issue i body more w r act).Formed := by
  unfold State.issue
  grind [← wholeFault, ← block, ← midBreak, ← drawn, ← close]

theorem runWordThen_formed (i : WordInfo) (body : Wx → State → Eff) (hbody : ∀ a b, b.Formed → (body a b).Formed)
    (more : Eff → Wx → State → State) (hmore : ∀ a b c, a.Formed → c.Formed → (more a b c).Formed) {s : State} (h : s.Formed) :
    NextFormed (runWordThen i body more s) := by
  unfold runWordThen
  grind [= next_formed, NextFormed, ← skipWord, ← drawn, ← issue]

theorem runWord_formed (i : WordInfo) (body : Wx → State → Eff) (hbody : ∀ a b, b.Formed → (body a b).Formed) {s : State} (h : s.Formed) :
    NextFormed (runWord i body s) := by
  unfold runWord
  grind [= next_formed, NextFormed, ← runWordThen_formed]

theorem runReject_formed (c : Ctl) (uniform : Bool) (code : Code) {s : State} (h : s.Formed) :
    NextFormed (runReject c uniform code s) := by
  unfold runReject
  grind [= next_formed, NextFormed, ← drawn, ← skipWord, ← wholeFault]

theorem aluWord_formed (i : WordInfo) (f : Wx → List RegWrite) {s : State} (h : s.Formed) : NextFormed (aluWord i f s) :=
  runWord_formed i (fun x s => .done s (f x) none []) (fun _ _ ht => ht) h

theorem cacheWord {s : State} (h : s.Formed) (core ctx va : Nat) (b : List Byte) : (s.cacheWord core ctx va b).Formed := by
  unfold State.cacheWord
  grind [State.Formed, ← kept, ← modCore]

theorem fetched {s : State} (h : s.Formed) (w : Warp) (pc : Word) (b : List Byte) : (s.fetched w pc b).Formed := by
  unfold State.fetched
  grind [← cacheWord]

theorem runFetchFault_formed (c : Code) {s : State} (h : s.Formed) : NextFormed (runFetchFault c s) := by
  unfold runFetchFault
  grind [= next_formed, NextFormed, ← wholeFault]

end State.Formed

end Sys2Proof.Machine

end

