-- ==== Sys2Proof/Proofs/FormedWords.lean ====
section
/-! PROVED FACTS. Memory stays in canonical form (O58): the words that compute, the barriers, control transfers and memory instructions. -/

namespace Sys2Proof.Machine

namespace State.Formed

/-! ### Floats -/

theorem execCsamp_formed (c : Ctl) (o : CsampOp) {s : State} (h : s.Formed) : NextFormed (execCsamp c o s) := by
  refine runWord_formed _ _ (fun x t ht => ?_) h
  grind [Eff.Formed, ← modWarp]

/-! ### Lanes -/

theorem execRdx_formed (c : Ctl) (o : RdxOp) {s : State} (h : s.Formed) : NextFormed (execRdx c o s) := by
  refine runWord_formed _ _ (fun x t ht => ?_) h
  grind [Eff.Formed, ← modWarp]

theorem execScn_formed (c : Ctl) (o : ScnOp) {s : State} (h : s.Formed) : NextFormed (execScn c o s) := by
  refine runWord_formed _ _ (fun x t ht => ?_) h
  grind [Eff.Formed, ← modWarp]

/-! ### Barriers -/

theorem releaseBar {s : State} (h : s.Formed) (team : Nat) (threads : List Nat) : (s.releaseBar team threads).Formed := by
  unfold State.releaseBar
  grind [State.Formed, ← kept]

theorem writeBarx {s : State} (h : s.Formed) (dim : Nat) (as : List BarArrival) : (s.writeBarx dim as).Formed := by
  unfold State.writeBarx
  grind [← foldl, ← modWarpU]

theorem checkBar {s : State} (h : s.Formed) (team n : Nat) : (s.checkBar team n).Formed := by
  unfold State.checkBar
  grind [State.Formed, ← kept, ← writeBarx, ← releaseBar, ← modTeam]

theorem checkBars {s : State} (h : s.Formed) (team : Nat) : (s.checkBars team).Formed := by
  unfold State.checkBars
  grind [← foldl, ← checkBar]

theorem arrive {s : State} (h : s.Formed) (x : Wx) (n : Nat) (bx : Option (RedOp × Ty)) (sd : Option Nat) (payload : Nat → DWord) :
    (s.arrive x n bx sd payload).Formed := by
  unfold State.arrive
  grind [State.Formed, ← kept, ← modWarp, ← modTeam]

theorem barBody_formed (n : Nat) (bx : Option (RedOp × Ty)) (sd : Option Nat) (payload : Wx → Nat → DWord) (p : Option Pend) (x : Wx)
    {s : State} (h : s.Formed) : (barBody n bx sd payload p x s).Formed := by
  unfold barBody
  grind [Eff.Formed, ← arrive]

theorem barMore_formed (e : Eff) (x : Wx) {s : State} (h : s.Formed) : (barMore e x s).Formed := by
  unfold barMore
  grind [← checkBars]

theorem execBar_formed (c : Ctl) (o : MaskOp) {s : State} (h : s.Formed) : NextFormed (execBar c o s) :=
  runWordThen_formed _ _ (fun x _ ht => barBody_formed _ _ _ _ _ x ht) _ (fun e x _ _ ht => barMore_formed e x ht) h

theorem execBarx_formed (c : Ctl) (o : BarxOp) {s : State} (h : s.Formed) : NextFormed (execBarx c o s) :=
  runWordThen_formed _ _ (fun x _ ht => barBody_formed _ _ _ _ _ x ht) _ (fun e x _ _ ht => barMore_formed e x ht) h

theorem execSyncm_formed (c : Ctl) (o : MaskOp) {s : State} (h : s.Formed) : NextFormed (execSyncm c o s) := by
  refine runWord_formed _ _ (fun x t ht => ?_) h
  grind [Eff.Formed, State.Formed, ← kept, ← foldl, ← modWarp]

theorem fixDomain {s : State} (h : s.Formed) (core slot : Nat) : (s.fixDomain core slot).Formed := by
  unfold State.fixDomain
  grind [State.Formed, ← kept, ← Kept.mapTeams]

theorem exitLanes {s : State} (h : s.Formed) (w : Warp) (lanes : List Nat) : (s.exitLanes w lanes).Formed := by
  unfold State.exitLanes
  grind [State.Formed, ← kept, ← foldl, ← closeCursors, ← modWarp, ← fixDomain, ← modTeam, ← checkBars, ← freeVersions]

/-! ### Control transfers -/

theorem transfer {s : State} (h : s.Formed) (x : Wx) (yld : Bool) (target : Nat → Option Word) : (s.transfer x yld target).Formed := by
  unfold State.transfer
  grind [← modWarp, ← count]

theorem execBra_formed (c : Ctl) (o : BraOp) {s : State} (h : s.Formed) : NextFormed (execBra c o s) := by
  refine runWord_formed _ _ (fun x t ht => ?_) h
  grind [Eff.Formed, ← transfer]

theorem bruTo_formed (c : Ctl) (px : BitVec 3) (target : Nat → Word) (x : Wx) {s : State} (h : s.Formed) :
    (bruTo c px target x s).Formed := by
  unfold bruTo
  grind [Eff.Formed, ← transfer]

theorem execBruLabel_formed (c : Ctl) (o : BruLabelOp) {s : State} (h : s.Formed) : NextFormed (execBruLabel c o s) := by
  refine runWord_formed _ _ (fun x t ht => ?_) h
  grind [Eff.Formed, ← bruTo_formed]

theorem execBruRegister_formed (c : Ctl) (o : BruRegOp) {s : State} (h : s.Formed) : NextFormed (execBruRegister c o s) := by
  refine runWord_formed _ _ (fun x t ht => ?_) h
  grind [Eff.Formed, ← bruTo_formed]

theorem execBrx_formed (c : Ctl) (o : TargetOp) {s : State} (h : s.Formed) : NextFormed (execBrx c o s) := by
  refine runWord_formed _ _ (fun x t ht => ?_) h
  grind [Eff.Formed, ← transfer]

theorem execCall_formed (c : Ctl) (o : CallOp) {s : State} (h : s.Formed) : NextFormed (execCall c o s) := by
  refine runWord_formed _ _ (fun x t ht => ?_) h
  grind [Eff.Formed, ← transfer]

theorem execCallx_formed (c : Ctl) (o : CallxOp) {s : State} (h : s.Formed) : NextFormed (execCallx c o s) := by
  refine runWord_formed _ _ (fun x t ht => ?_) h
  grind [Eff.Formed, ← transfer]

theorem execRet_formed (c : Ctl) (o : TargetOp) {s : State} (h : s.Formed) : NextFormed (execRet c o s) := by
  refine runWord_formed _ _ (fun x t ht => ?_) h
  grind [Eff.Formed, ← traceCore, ← transfer]

theorem execExit_formed (c : Ctl) {s : State} (h : s.Formed) : NextFormed (execExit c s) := by
  refine runWord_formed _ _ (fun x t ht => ?_) h
  grind [Eff.Formed, State.Formed, ← kept, ← modWarp, ← exitLanes]

theorem napFor_formed (n : Nat) (i : Instr) (x : Wx) {s : State} (h : s.Formed) : (napFor n i x s).Formed := by
  unfold napFor
  grind [Eff.Formed, State.Formed, ← kept, ← modWarp]

theorem execNapImmediate_formed (c : Ctl) (o : Imm16Op) {s : State} (h : s.Formed) : NextFormed (execNapImmediate c o s) := by
  unfold execNapImmediate
  grind [= next_formed, NextFormed, ← runWord_formed, ← napFor_formed]

theorem execNapRegister_formed (c : Ctl) (o : MaskOp) {s : State} (h : s.Formed) : NextFormed (execNapRegister c o s) := by
  refine runWord_formed _ _ (fun x t ht => ?_) h
  grind [Eff.Formed, ← napFor_formed]

theorem passNaps {s : State} (h : s.Formed) (core : Nat) : (s.passNaps core).Formed := by
  unfold State.passNaps
  grind [State.Formed, ← kept]

theorem execNapEnd_formed (core slot : Nat) {s : State} (h : s.Formed) : NextFormed (execNapEnd core slot s) := by
  unfold execNapEnd
  grind [= next_formed, NextFormed, State.Formed, ← kept, ← modWarp]

/-! ### Accesses -/

theorem scratchOps {s : State} (h : s.Formed) (team base : Nat) (ops : List LineOp) : (s.scratchOps team base ops).1.Formed := by
  unfold State.scratchOps
  split
  · exact h
  · next t ht => exact h.modTeam _ _ fun u hu => ⟨Mem.wf_write (h.teams t (List.mem_of_find?_eq_some ht)).1 _ _, hu.2⟩

theorem opbufOps {s : State} (h : s.Formed) (core base : Nat) (ops : List LineOp) : (s.opbufOps core base ops).1.Formed :=
  h.modCore _ _ fun _ _ => Mem.wf_write (h.core_opbuf core) _ _

theorem joinWalk {s : State} (h : s.Formed) (x : Wx) (page : Nat) : (s.joinWalk x page).Formed := by
  unfold State.joinWalk
  grind [State.Formed, ← kept, ← modMem, ← count]

theorem ask {s : State} (h : s.Formed) (x : Wx) (locs : List Loc) {t} (ht : s.ask x locs = some t) : t.Formed := by
  unfold State.ask at ht
  grind [State.Formed, ← kept, ← foldl, ← joinWalk, ← send, ← modMem]

theorem dropFailed {s : State} (h : s.Formed) (x : Wx) (bad : List Bad) : (s.dropFailed x bad).Formed := by
  unfold State.dropFailed
  grind [State.Formed, ← kept, ← modMem]

theorem translated {s : State} (h : s.Formed) (x : Wx) (as : List (Nat × Nat × Loc)) : (s.translated x as).Formed := by
  unfold State.translated
  grind [← foldl, ← fillL1Tlb, ← count, ← dropFailed]

theorem watched {s : State} (h : s.Formed) (x : Wx) (rd wr : Bool) (as : List (Nat × Nat × Loc)) (n : Nat) :
    (s.watched x rd wr as n).Formed := by
  unfold State.watched
  grind [State.Formed, ← kept, ← modWarp]

theorem rval {s : State} (h : s.Formed) (w : Warp) (lane : Nat) (pc : Word) (w2 w3 : Nat) : (s.rval w lane pc w2 w3).Formed := by
  unfold State.rval
  grind [← traceRec]

theorem addReqs {s : State} (h : s.Formed) (x : Wx) (is : List Item) (kind : Item → ReqKind) (rc : Nat) (sys : Bool) (deps : List Nat) :
    (s.addReqs x is kind rc sys deps).1.Formed := by
  unfold State.addReqs
  grind [← foldl, ← foldl_fst, ← addReq]

theorem sendFlit {s : State} (h : s.Formed) (f : Flit) : (s.sendFlit f).Formed := by
  unfold State.sendFlit
  grind [← send]

theorem sendReady {s : State} (h : s.Formed) : s.sendReady.Formed := by
  unfold State.sendReady
  grind [State.Formed, ← kept, ← foldl, ← sendFlit]

theorem addPeer {s : State} (h : s.Formed) (x : Wx) (m off lane : Nat) (op : LineOp) (deps : List Nat) (edit : Flit → Flit) :
    (s.addPeer x m off lane op deps edit).1.Formed := by
  unfold State.addPeer
  grind [State.Formed, ← kept, ← modMem, ← sendReady]

theorem rvals {s : State} (h : s.Formed) (w : Warp) (pc : Word) (rs : List LaneRes) : (s.rvals w pc rs).Formed := by
  unfold State.rvals
  grind [← foldl, ← rval]

theorem finishReq {s : State} (h : s.Formed) (core uid pend req : Nat) (rs : List LaneRes) :
    (s.finishReq core uid pend req rs).Formed := by
  unfold State.finishReq
  extract_lets s1 link s2 s3
  have h1 : s1.Formed := h.modMem _ (.inl (dram_takeIn _))
  have h3 : s3.Formed := (show s2.Formed from h1).sendReady
  clear_value s3
  grind [← rvals, ← dropSelf, ← modWarpU, ← raiseLanes]

theorem askPeer {s : State} (h : s.Formed) (key core ctx m off : Nat) (op : LineOp) (k : HostOpKind) (q : BitVec 4)
    {t} (ht : s.askPeer key core ctx m off op k q = some t) : t.Formed := by
  unfold State.askPeer at ht
  grind [State.Formed, ← kept, ← modMem, ← sendFlit]

theorem holdHere {s : State} (h : s.Formed) (x : Wx) (i : Instr) (n : Nat) : (s.holdHere x i n).Formed := by
  unfold State.holdHere
  grind [State.Formed, ← kept, ← modWarp]

/-! ### Memory instructions -/

theorem windows {m : Made} (h : m.s.Formed) (x : Wx) (ps : List Part) : (m.windows x ps).s.Formed := by
  unfold Made.windows
  grind [State.Formed, ← kept, ← foldl, ← foldl_made, ← scratchOps, ← count, ← opbufOps]

theorem lines {m : Made} (h : m.s.Formed) (x : Wx) (o : Mode) (ps : List Part) : (m.lines x o ps).s.Formed := by
  unfold Made.lines
  grind [State.Formed, ← kept, ← foldl, ← foldl_made, ← modL1, ← count, ← modMem, ← addReqs]

theorem peers {m : Made} (h : m.s.Formed) (x : Wx) (deps : List Nat) (edit : Flit → Flit) (ps : List Part) :
    (m.peers x deps edit ps).s.Formed := by
  unfold Made.peers
  grind [State.Formed, ← kept, ← foldl, ← foldl_made, ← addPeer]

theorem perform {s : State} (h : s.Formed) (x : Wx) (o : Mode) (ps : List Part) : (s.perform x o ps).s.Formed := by
  unfold State.perform
  grind [← peers, ← lines, ← windows]

theorem gate {s : State} (h : s.Formed) (x : Wx) (i : Instr) (o : Order) (near : Bool) {e} (he : s.gate x i o near = some e) :
    e.Formed := by
  unfold State.gate at he
  grind [Eff.Formed, ← holdHere]

theorem acquireNow {s : State} (h : s.Formed) (core : Nat) (sc : Scope) : (s.acquireNow core sc).Formed := by
  unfold State.acquireNow
  grind [← dropSelf]

theorem finish {m : Made} (h : m.s.Formed) (x : Wx) (k : PendKind) (sc : Scope) (o : Order) (ws : List RegWrite) (bad : List Bad) :
    (m.finish x k sc o ws bad).Formed := by
  unfold Made.finish
  grind [Eff.Formed, ← acquireNow, ← rvals]

theorem ldBody_formed (i : Instr) (o : LdOp) (x : Wx) {s : State} (h : s.Formed) : (ldBody i o x s).Formed := by
  unfold ldBody
  grind [Eff.Formed, → gate, → ask, ← watched, ← translated, ← perform, ← finish]

theorem execLd_formed (c : Ctl) (o : LdOp) {s : State} (h : s.Formed) : NextFormed (execLd c o s) := by
  unfold execLd
  grind [= next_formed, NextFormed, ← runWord_formed, ← ldBody_formed]

theorem stBody_formed (i : Instr) (o : StOp) (x : Wx) {s : State} (h : s.Formed) : (stBody i o x s).Formed := by
  unfold stBody
  grind [Eff.Formed, → gate, → ask, ← watched, ← translated, ← perform, ← finish]

theorem execSt_formed (c : Ctl) (o : StOp) {s : State} (h : s.Formed) : NextFormed (execSt c o s) := by
  unfold execSt
  grind [= next_formed, NextFormed, ← runWord_formed, ← stBody_formed]

theorem cbAnswer {s : State} (h : s.Formed) (x : Wx) (cb md off : Nat) {t : State} (ht : s.cbAnswer x cb md off = .error t) : t.Formed := by
  unfold State.cbAnswer at ht
  grind [← addPeer]

theorem stCbMake {s : State} (h : s.Formed) (x : Wx) (cb : Loc) (ps : List Part) (lanes : List Nat) :
    (s.stCbMake x cb ps lanes).s.Formed := by
  unfold State.stCbMake
  grind [State.Formed, ← kept, ← perform, ← addReqs, ← peers]

theorem stCbBody_formed (o : StCbOp) (x : Wx) {s : State} (h : s.Formed) : (stCbBody o x s).Formed := by
  unfold stCbBody
  grind [Eff.Formed, → ask, → cbAnswer, ← watched, ← translated, ← finish, ← stCbMake]

theorem execStCb_formed (c : Ctl) (o : StCbOp) {s : State} (h : s.Formed) : NextFormed (execStCb c o s) := by
  unfold execStCb
  grind [= next_formed, NextFormed, ← runWord_formed, ← stCbBody_formed]

theorem prfBody_formed (o : PrfOp) (x : Wx) {s : State} (h : s.Formed) : (prfBody o x s).Formed := by
  unfold prfBody
  grind [Eff.Formed, → ask, ← addReqs, ← translated]

theorem execPrf_formed (c : Ctl) (o : PrfOp) {s : State} (h : s.Formed) : NextFormed (execPrf c o s) := by
  unfold execPrf
  grind [= next_formed, NextFormed, ← runWord_formed, ← prfBody_formed]

theorem maintBody_formed (kind : Bool → Bool → ReqKind) (write : Bool) (o : MaintOp) (x : Wx) {s : State} (h : s.Formed) :
    (maintBody kind write o x s).Formed := by
  unfold maintBody
  grind [Eff.Formed, → ask, ← dropFailed, ← addReqs]

theorem execClean_formed (c : Ctl) (o : MaintOp) {s : State} (h : s.Formed) : NextFormed (execClean c o s) := by
  unfold execClean
  grind [= next_formed, NextFormed, ← runWord_formed, ← maintBody_formed]

theorem execInval_formed (c : Ctl) (o : MaintOp) {s : State} (h : s.Formed) : NextFormed (execInval c o s) := by
  unfold execInval
  grind [= next_formed, NextFormed, ← runWord_formed, ← maintBody_formed]

theorem execClinv_formed (c : Ctl) (o : MaintOp) {s : State} (h : s.Formed) : NextFormed (execClinv c o s) := by
  unfold execClinv
  grind [= next_formed, NextFormed, ← runWord_formed, ← maintBody_formed]

theorem execDrop_formed (c : Ctl) (o : MaintOp) {s : State} (h : s.Formed) : NextFormed (execDrop c o s) := by
  unfold execDrop
  grind [= next_formed, NextFormed, ← runWord_formed, ← maintBody_formed]

theorem atomBody_formed (i : Instr) (op : AtomOp) (t0 : Ty) (sc : Scope) (ord : Order) (reg : Option Nat) (addr b : Src) (x : Wx)
    {s : State} (h : s.Formed) : (atomBody i op t0 sc ord reg addr b x s).Formed := by
  unfold atomBody
  grind [Eff.Formed, → gate, → ask, ← watched, ← translated, ← perform, ← finish]

theorem execAtom_formed (c : Ctl) (o : AtomO) {s : State} (h : s.Formed) : NextFormed (execAtom c o s) := by
  unfold execAtom
  grind [= next_formed, NextFormed, ← runWord_formed, ← atomBody_formed]

theorem execRed_formed (c : Ctl) (o : RedO) {s : State} (h : s.Formed) : NextFormed (execRed c o s) := by
  unfold execRed
  grind [= next_formed, NextFormed, ← runWord_formed, ← atomBody_formed]

theorem casBody_formed (i : Instr) (o : CasOp) (x : Wx) {s : State} (h : s.Formed) : (casBody i o x s).Formed := by
  unfold casBody
  grind [Eff.Formed, → gate, → ask, ← watched, ← translated, ← perform, ← finish]

theorem execCas_formed (c : Ctl) (o : CasOp) {s : State} (h : s.Formed) : NextFormed (execCas c o s) := by
  unfold execCas
  grind [= next_formed, NextFormed, ← runWord_formed, ← casBody_formed]

end State.Formed

end Sys2Proof.Machine

end

