-- ==== Sys2Proof/Proofs/FormedHome.lean ====
section
/-! PROVED FACTS. Memory stays in canonical form (O58): the home slices, the host, fences and tables. -/

namespace Sys2Proof.Machine

namespace State.Formed

/-! ### The home slices and the host -/

theorem hostOp {s : State} (h : s.Formed) (req lane ctx : Nat) (k : HostOpKind) (msg : Nat → Msg) :
    (s.hostOp req lane ctx k msg).Formed := by
  unfold State.hostOp
  grind [State.Formed, ← kept, ← send, ← modMem]

theorem setWait {s : State} (h : s.Formed) (req : Nat) (w : Option Nat) : (s.setWait req w).Formed := by
  unfold State.setWait
  grind [State.Formed, ← kept, ← modMem]

theorem ncClass {s : State} (h : s.Formed) (l : LineId) : (s.ncClass l).Formed := by
  unfold State.ncClass
  grind [← dropBridge, ← cleanBridge, ← changeClass]

theorem startNc {s : State} (h : s.Formed) (r : HomeReq) : (s.startNc r).Formed := by
  unfold State.startNc
  grind [← foldl, ← hostOp, ← send, ← setWait]

theorem askBack {s : State} (h : s.Formed) (key ctx : Nat) (ls : List LineId) {t} (ht : s.askBack key ctx ls = some t) : t.Formed := by
  unfold State.askBack at ht
  grind [← foldl, ← hostOp]

theorem answerPeer {s : State} (h : s.Formed) (r : HomeReq) (rs : List LaneRes) : (s.answerPeer r rs).Formed := by
  unfold State.answerPeer
  grind [State.Formed, ← kept, ← sendFlit]

theorem retireReq {s : State} (h : s.Formed) (r : HomeReq) (rs : List LaneRes) : (s.retireReq r rs).Formed := by
  unfold State.retireReq
  grind [State.Formed, ← kept, ← traceDone, ← answerPeer, ← finishReq, ← modMem]

theorem serveReq {s : State} (h : s.Formed) (r : HomeReq) : (s.serveReq r).Formed := by
  unfold State.serveReq
  grind [State.Formed, ← kept, ← setWait, ← hostOp, ← startNc, ← dropOwn, ← ncClass, ← evictCell, ← recall', ← serve, ← modMem,
    ← retireReq]

theorem serveNext {s : State} (h : s.Formed) (r : HomeReq) : (s.serveNext r).Formed := by
  unfold State.serveNext
  grind [State.Formed, ← kept, ← serveReq]

theorem execHomeRequest_formed (slice : Nat) {s : State} (h : s.Formed) : NextFormed (execHomeRequest slice s) := by
  unfold execHomeRequest
  grind [= next_formed, NextFormed, ← serveNext]

theorem execFrequencyAgeing_formed (slice : Nat) {s : State} (h : s.Formed) : NextFormed (execFrequencyAgeing slice s) := by
  unfold execFrequencyAgeing
  grind [= next_formed, NextFormed, State.Formed, ← kept, ← modMem]

theorem execPatrolScrub_formed (line : Nat) {s : State} (h : s.Formed) : NextFormed (execPatrolScrub line s) := by
  unfold execPatrolScrub
  grind [= next_formed, NextFormed]

theorem fillHalf {s : State} (h : s.Formed) (n : Nat) (h0 own : Bool) (data : List Byte) (p : BitVec 4) :
    (s.fillHalf n h0 own data p).Formed := by
  unfold State.fillHalf
  grind [State.Formed, ← kept, ← modMem]

theorem refuseLanes {s : State} (h : s.Formed) (r : HomeReq) (lanes : List Nat) : (s.refuseLanes r lanes).Formed := by
  unfold State.refuseLanes
  grind [State.Formed, ← kept, ← modWarpU, ← raiseLanes]

theorem settleHost {s : State} (h : s.Formed) (req : Nat) : (s.settleHost req).Formed := by
  unfold State.settleHost
  grind [State.Formed, ← kept, ← modMem, ← retireReq, ← refuseLanes]

theorem loseHalf {s : State} (h : s.Formed) (line : Nat) (half : Bool) (st : HalfSt) : (s.loseHalf line half st).Formed := by
  unfold State.loseHalf
  grind [State.Formed, ← kept, ← gatherHost, ← sendHalf, ← modMem]

theorem bridgeEvict {s : State} (h : s.Formed) (n : Nat) : (s.bridgeEvict n).Formed := by
  unfold State.bridgeEvict
  grind [State.Formed, ← kept, ← loseHalf]

theorem hostDone {s : State} (h : s.Formed) (id : Nat) (res : Option (List Byte)) (p : BitVec 4) : (s.hostDone id res p).Formed := by
  unfold State.hostDone
  grind [State.Formed, ← kept, ← fillHalf, ← bridgeEvict, ← setWait, ← modMem, ← settleHost]

theorem execHostReadCompletion_formed (id : Nat) (data : CxlData) {s : State} (h : s.Formed) :
    NextFormed (execHostReadCompletion id data s) := by
  unfold execHostReadCompletion
  grind [= next_formed, NextFormed, ← hostDone]

theorem execAtomicopCompletion_formed (id : Nat) (old : Option CxlData) {s : State} (h : s.Formed) :
    NextFormed (execAtomicopCompletion id old s) := by
  unfold execAtomicopCompletion
  grind [= next_formed, NextFormed, ← hostDone]

theorem execHostSnoop_formed (line : Nat) (half inval : Bool) {s : State} (h : s.Formed) :
    NextFormed (execHostSnoop line half inval s) := by
  unfold execHostSnoop
  grind [= next_formed, NextFormed, ← send, ← loseHalf]

theorem execHostStoreCxlMem_formed (pa : Nat) (bytes : CxlData) {s : State} (h : s.Formed) :
    NextFormed (execHostStoreCxlMem pa bytes s) := by
  unfold execHostStoreCxlMem
  grind [= next_formed, NextFormed, ← addReq]

theorem execHostReadCxlMem_formed (line : Nat) {s : State} (h : s.Formed) : NextFormed (execHostReadCxlMem line s) := by
  unfold execHostReadCxlMem
  grind [= next_formed, NextFormed, ← addReq]

theorem execBackInvalidateReply_formed (line : Nat) (dirty : Option CxlData) {s : State} (h : s.Formed) :
    NextFormed (execBackInvalidateReply line dirty s) := by
  unfold execBackInvalidateReply
  grind [= next_formed, NextFormed, State.Formed, ← kept, ← foldl, ← putBelow, ← dropCell, ← modDir, ← modMem, ← setWait]

theorem execWriteBack_formed (core slot id : Nat) {s : State} (h : s.Formed) : NextFormed (execWriteBack core slot id s) := by
  unfold execWriteBack
  grind [= next_formed, NextFormed, ← release, ← modWarp]

theorem execTlbWalkCompletion_formed (die ctx page : Nat) {s : State} (h : s.Formed) :
    NextFormed (execTlbWalkCompletion die ctx page s) := by
  unfold execTlbWalkCompletion
  grind [= next_formed, NextFormed, State.Formed, ← kept, ← foldl, ← modMem, ← fillTlb]

theorem execAtsTranslationCompletion_formed (die pasid page : Nat) (res : Option Nat) {s : State} (h : s.Formed) :
    NextFormed (execAtsTranslationCompletion die pasid page res s) := by
  unfold execAtsTranslationCompletion
  grind [= next_formed, NextFormed, State.Formed, ← kept, ← modMem]

theorem execAtsInvalidateRequest_formed (pasid page pages : Nat) {s : State} (h : s.Formed) :
    NextFormed (execAtsInvalidateRequest pasid page pages s) := by
  unfold execAtsInvalidateRequest
  grind [= next_formed, NextFormed, State.Formed, ← kept, ← modMem, ← send]

/-! ### Fences -/

theorem fenceAcquire {s : State} (h : s.Formed) (core : Nat) (sc : Scope) (o : Order) : (s.fenceAcquire core sc o).Formed := by
  unfold State.fenceAcquire
  grind [← acquireNow]

theorem fenceBody_formed (i : Instr) (o : FenceOp) (x : Wx) {s : State} (h : s.Formed) : (fenceBody i o x s).Formed := by
  unfold fenceBody
  grind [Eff.Formed, ← fenceAcquire, ← holdHere]

theorem execFence_formed (c : Ctl) (o : FenceOp) {s : State} (h : s.Formed) : NextFormed (execFence c o s) := by
  unfold execFence
  grind [= next_formed, NextFormed, ← runWord_formed, ← fenceBody_formed]

theorem redo {s : State} (h : s.Formed) (core slot : Nat) (i : WordInfo)
    (body : Wx → State → Eff) (hbody : ∀ a b, b.Formed → (body a b).Formed) : (s.redo core slot i body).Formed := by
  unfold State.redo
  split
  · exact h
  · split
    · exact h
    · exact h.issue i body hbody _ (fun _ _ _ _ ht => ht) ..

theorem unhold {s : State} (h : s.Formed) (core slot : Nat) (fenced : Bool) : (s.unhold core slot fenced).Formed := by
  unfold State.unhold
  grind [State.Formed, ← kept, ← modWarp]

theorem fenceOver {s : State} (h : s.Formed) (core slot : Nat) (h0 : Hold) : (s.fenceOver core slot h0).Formed := by
  unfold State.fenceOver
  grind [← unhold, ← redo, ← fenceBody_formed, ← fenceAcquire]

theorem execFenceCompletion_formed (core slot : Nat) {s : State} (h : s.Formed) : NextFormed (execFenceCompletion core slot s) := by
  unfold execFenceCompletion
  grind [= next_formed, NextFormed, ← fenceOver]

theorem execFenceScCompletion_formed (core slot : Nat) {s : State} (h : s.Formed) : NextFormed (execFenceScCompletion core slot s) := by
  unfold execFenceScCompletion
  grind [= next_formed, NextFormed, ← fenceOver]

theorem opfenceBody_formed (i : Instr) (x : Wx) {s : State} (h : s.Formed) : (opfenceBody i x s).Formed := by
  unfold opfenceBody
  grind [Eff.Formed, ← modWarp, ← holdHere]

theorem execOpfence_formed (c : Ctl) {s : State} (h : s.Formed) : NextFormed (execOpfence c s) := by
  unfold execOpfence
  grind [= next_formed, NextFormed, ← runWord_formed, ← opfenceBody_formed]

theorem execOpfenceCompletion_formed (core slot : Nat) {s : State} (h : s.Formed) : NextFormed (execOpfenceCompletion core slot s) := by
  unfold execOpfenceCompletion
  grind [= next_formed, NextFormed, ← redo, ← unhold, ← opfenceBody_formed]

/-! ### Tables -/

theorem modVersion {s : State} (h : s.Formed) (uid : Nat) (f : Version → Version) : (s.modVersion uid f).Formed := by
  unfold State.modVersion
  grind [State.Formed, ← kept]

theorem rowWrite {s : State} (h : s.Formed) (die ctx va n : Nat) (b : List Byte) : (s.rowWrite die ctx va n b).Formed := by
  induction n generalizing s va b with
  | zero => exact h
  | succ n ih =>
    unfold State.rowWrite
    grind [← agentWrite]

theorem rowRead {s : State} (h : s.Formed) (die ctx va n : Nat) : (s.rowRead die ctx va n).1.Formed := by
  unfold State.rowRead
  grind [← agentRead]

theorem quads {s : State} (h : s.Formed) (x : Wx) (d : Dst) (vs : List Nat) (os : List (Nat × Out)) : (s.quads x d vs os).Formed := by
  unfold State.quads
  grind [Eff.Formed, State.Formed, ← kept, ← foldl, ← foldl_made, ← rval, ← addPin, ← count]

theorem each (x : Wx) {s : State} (h : s.Formed) (f : State → Nat → State × Out) (hf : ∀ a b, a.Formed → (f a b).1.Formed) :
    (Wx.each x s f).1.Formed := by
  unfold Wx.each
  grind [← foldl, ← foldl_fst]

theorem lookup_formed (x : Wx) {s : State} (h : s.Formed) (f : State → Eff) (hf : ∀ a, a.Formed → (f a).Formed) :
    (lookup x s f).Formed := by
  unfold lookup
  grind [Eff.Formed, ← dropSelf]

theorem mutation_formed (x : Wx) {s : State} (h : s.Formed) (f : State → Eff) (hf : ∀ a, a.Formed → (f a).Formed) :
    (mutation x s f).Formed := by
  unfold mutation
  grind [Eff.Formed, ← dropSelf]

theorem withTable (s : State) (x : Wx) (id : Src) (kinds : List Nat) (kf : Option KeyFmt)
    (f : Version → Eff) (hf : ∀ a, (f a).Formed) : (s.withTable x id kinds kf f).Formed := by
  unfold State.withTable
  grind [Eff.Formed]

theorem mapRow {s : State} (h : s.Formed) (die : Nat) (v : Version) (key : Nat) : (s.mapRow die v key).1.Formed := by
  unfold State.mapRow
  grind [← rowRead]

theorem tlook {s : State} (h : s.Formed) (die lane : Nat) (v : Version) (f : KeyFmt) (k : Nat) : (s.tlook die lane v f k).1.Formed := by
  unfold State.tlook
  grind [← mapRow]

theorem execTlook_formed (c : Ctl) (o : TKeyOp) {s : State} (h : s.Formed) : NextFormed (execTlook c o s) := by
  refine runWord_formed _ _ (fun x t ht => ?_) h
  grind [Eff.Formed, ← lookup_formed, ← withTable, ← each, ← tlook, ← quads]

theorem execTrow_formed (c : Ctl) (o : TRowOp) {s : State} (h : s.Formed) : NextFormed (execTrow c o s) := by
  refine runWord_formed _ _ (fun x t ht => ?_) h
  grind [Eff.Formed, ← lookup_formed, ← withTable, ← quads]

theorem modLaneOf {s : State} (h : s.Formed) (x : Wx) (l : Nat) (f : Lane → Lane) : (s.modLaneOf x l f).Formed := by
  unfold State.modLaneOf
  grind [← modWarp]

theorem takePin {s : State} (h : s.Formed) (x : Wx) (l ver : Nat) (g : Option Nat) : (s.takePin x l ver g).1.Formed := by
  unfold State.takePin
  grind [State.Formed, ← kept, ← addPin, ← modLaneOf]

theorem tseek {s : State} (h : s.Formed) (x : Wx) (o : TSeekOp) (v : Version) (l : Nat) : (s.tseek x o v l).1.Formed := by
  unfold State.tseek
  grind [← takePin, ← modLaneOf]

theorem execTseek_formed (c : Ctl) (o : TSeekOp) {s : State} (h : s.Formed) : NextFormed (execTseek c o s) := by
  refine runWord_formed _ _ (fun x t ht => ?_) h
  grind [Eff.Formed, ← lookup_formed, ← withTable, ← each, ← tseek, ← quads, ← count]

theorem tstep {s : State} (h : s.Formed) (x : Wx) (k : Nat) (asc : Bool) (l : Nat) : (s.tstep x k asc l).1.Formed := by
  unfold State.tstep
  grind [← modLaneOf]

theorem stepBody_formed (o : TStepOp) (asc : Bool) (x : Wx) {s : State} (h : s.Formed) : (stepBody o asc x s).Formed := by
  unfold stepBody
  grind [Eff.Formed, ← lookup_formed, ← each, ← tstep, ← quads, ← count]

theorem execTnext_formed (c : Ctl) (o : TStepOp) {s : State} (h : s.Formed) : NextFormed (execTnext c o s) := by
  unfold execTnext
  grind [= next_formed, NextFormed, ← runWord_formed, ← stepBody_formed]

theorem execTprev_formed (c : Ctl) (o : TStepOp) {s : State} (h : s.Formed) : NextFormed (execTprev c o s) := by
  unfold execTprev
  grind [= next_formed, NextFormed, ← runWord_formed, ← stepBody_formed]

theorem tclose {s : State} (h : s.Formed) (x : Wx) (k l : Nat) : (s.tclose x k l).Formed := by
  unfold State.tclose
  grind [State.Formed, ← kept, ← unpin, ← modLaneOf]

theorem execTclose_formed (c : Ctl) (o : TCloseOp) {s : State} (h : s.Formed) : NextFormed (execTclose c o s) := by
  refine runWord_formed _ _ (fun x t ht => ?_) h
  grind [Eff.Formed, ← foldl, ← freeVersions, ← tclose, ← count]

theorem mutated {s : State} (h : s.Formed) (x : Wx) (d : Dst) (ver n : Nat) {t : State × List (Nat × Out)} (ht : t.1.Formed) :
    (s.mutated x d ver n t).Formed := by
  unfold State.mutated
  grind [Eff.Formed, → askBack, ← quads]

theorem tins {s : State} (h : s.Formed) (x : Wx) (uid : Nat) (f : KeyFmt) (l k : Nat) : (s.tins x uid f l k).1.Formed := by
  unfold State.tins
  grind [State.Formed, ← kept, ← rowWrite, ← modVersion]

theorem execTins_formed (c : Ctl) (o : TKeyOp) {s : State} (h : s.Formed) : NextFormed (execTins c o s) := by
  refine runWord_formed _ _ (fun x t ht => ?_) h
  grind [Eff.Formed, ← mutation_formed, ← withTable, ← mutated, ← each, ← tins]

theorem tdel {s : State} (h : s.Formed) (uid : Nat) (f : KeyFmt) (k : Nat) : (s.tdel uid f k).1.Formed := by
  unfold State.tdel
  grind [State.Formed, ← kept, ← modVersion]

theorem execTdel_formed (c : Ctl) (o : TKeyOp) {s : State} (h : s.Formed) : NextFormed (execTdel c o s) := by
  refine runWord_formed _ _ (fun x t ht => ?_) h
  grind [Eff.Formed, ← mutation_formed, ← withTable, ← mutated, ← each, ← tdel]

theorem trekey {s : State} (h : s.Formed) (x : Wx) (uid : Nat) (f : KeyFmt) (l k n : Nat) : (s.trekey x uid f l k n).1.Formed := by
  unfold State.trekey
  grind [State.Formed, ← kept, ← rowWrite, ← modVersion]

theorem execTrekey_formed (c : Ctl) (o : TRekeyOp) {s : State} (h : s.Formed) : NextFormed (execTrekey c o s) := by
  refine runWord_formed _ _ (fun x t ht => ?_) h
  grind [Eff.Formed, ← mutation_formed, ← withTable, ← mutated, ← each, ← trekey]

theorem taddBody_formed (o : TAddOp) (x : Wx) {s : State} (h : s.Formed) : (taddBody o x s).Formed := by
  unfold taddBody
  grind [Eff.Formed, → ask, ← watched, ← count, ← perform, ← finish]

theorem execTadd_formed (c : Ctl) (o : TAddOp) {s : State} (h : s.Formed) : NextFormed (execTadd c o s) := by
  unfold execTadd
  grind [= next_formed, NextFormed, ← runWord_formed, ← taddBody_formed]

theorem execTpin_formed (c : Ctl) (o : TIdOp) {s : State} (h : s.Formed) : NextFormed (execTpin c o s) := by
  refine runWord_formed _ _ (fun x t ht => ?_) h
  grind [Eff.Formed, ← withTable, ← each, ← takePin, ← quads]

theorem tunpinAll {s : State} (h : s.Formed) (x : Wx) (id : Nat) (ver : Src) {t : State} (ht : s.tunpinAll x id ver = some t) :
    t.Formed := by
  refine List.foldlRecOn (motive := fun o : Option State => ∀ u, o = some u → u.Formed) x.thr _ ?_ ?_ t ht
  · rintro u ⟨⟩
    exact h
  · intro o ho l _ u hu
    obtain ⟨v, hv, hpin⟩ := Option.bind_eq_some_iff.mp hu
    obtain ⟨q, _, rfl⟩ := Option.map_eq_some_iff.mp hpin
    exact ((ho v hv).modLaneOf ..).unpin ..

theorem execTunpin_formed (c : Ctl) (o : TUnpinOp) {s : State} (h : s.Formed) : NextFormed (execTunpin c o s) := by
  refine runWord_formed _ _ (fun x t ht => ?_) h
  grind [Eff.Formed, ← withTable, → tunpinAll, ← quads, ← freeVersions]

theorem install {s : State} (h : s.Formed) (old new : Version) (n : Nat) : (s.install old new n).Formed := by
  unfold State.install
  grind [State.Formed, ← kept]

theorem tswap {s : State} (h : s.Formed) (x : Wx) (id sid e : Nat) : (s.tswap x id sid e).1.Formed := by
  unfold State.tswap
  grind [← install]

theorem execTswap_formed (c : Ctl) (o : TSwapOp) {s : State} (h : s.Formed) : NextFormed (execTswap c o s) := by
  refine runWord_formed _ _ (fun x t ht => ?_) h
  grind [Eff.Formed, ← mutation_formed, ← withTable, ← each, ← tswap, ← quads, ← freeVersions]

theorem execTstat_formed (c : Ctl) (o : TIdOp) {s : State} (h : s.Formed) : NextFormed (execTstat c o s) := by
  refine runWord_formed _ _ (fun x t ht => ?_) h
  grind [Eff.Formed, ← lookup_formed, ← withTable, ← quads]

theorem tcount {s : State} (h : s.Formed) (die : Nat) (v : Version) : (s.tcount die v).1.Formed := by
  unfold State.tcount
  grind [← foldl, ← foldl_fst, ← rowRead]

theorem execTcount_formed (c : Ctl) (o : TIdOp) {s : State} (h : s.Formed) : NextFormed (execTcount c o s) := by
  refine runWord_formed _ _ (fun x t ht => ?_) h
  grind [Eff.Formed, ← lookup_formed, ← withTable, ← tcount, ← quads]

end State.Formed

end Sys2Proof.Machine

end

