-- ==== Sys2Proof/Proofs/FormedCommands.lean ====
section
/-! PROVED FACTS. Memory stays in canonical form (O58): commands, queue registers, count barriers, regroups, press mode, system words. -/

namespace Sys2Proof.Machine

namespace State.Formed

/-! ### Commands and leases -/

theorem openGates {s : State} (h : s.Formed) (team : Nat) : (s.openGates team).Formed := by
  unfold State.openGates
  split
  · exact h
  · extract_lets look s1
    have h1 : s1.Formed := Kept.mapCores h _ fun _ => rfl
    exact h1.modTeam _ _ fun _ ht => ht

theorem setTags {s : State} (h : s.Formed) (team : Nat) (m : DWord) : (s.setTags team m).Formed := by
  unfold State.setTags
  grind [State.Formed, ← kept, ← openGates, ← modTeam]

theorem accept {s : State} (h : s.Formed) (x : Wx) (q : Nat) (w : List DWord) : (s.accept x q w).Formed := by
  unfold State.accept
  grind [State.Formed, ← kept, ← modCore, ← modWarp, ← count, ← openGates, ← traceCore]

theorem pushBody_formed (i : Instr) (o : PushOp) (x : Wx) {s : State} (h : s.Formed) : (pushBody i o x s).Formed := by
  unfold pushBody
  grind [Eff.Formed, ← holdHere, ← count, ← accept]

theorem execPush_formed (c : Ctl) (o : PushOp) {s : State} (h : s.Formed) : NextFormed (execPush c o s) := by
  unfold execPush
  grind [= next_formed, NextFormed, ← runWord_formed, ← pushBody_formed]

theorem execPushPlaceFreed_formed (core slot : Nat) {s : State} (h : s.Formed) : NextFormed (execPushPlaceFreed core slot s) := by
  unfold execPushPlaceFreed
  grind [= next_formed, NextFormed, ← redo, ← unhold, ← pushBody_formed]

theorem raiseEngine {s : State} (h : s.Formed) (core slot : Nat) (lanes : List Nat) (pc : Word) (f : EngFault) :
    (s.raiseEngine core slot lanes pc f).Formed := by
  unfold State.raiseEngine
  grind [State.Formed, ← kept, ← modWarp, ← deliver]

theorem stand {s : State} (h : s.Formed) (x : Wx) : (s.stand x).Formed := by
  unfold State.stand
  grind [State.Formed, ← kept, ← modWarp]

theorem rvalLanes {s : State} (h : s.Formed) (x : Wx) (v : Nat) : (s.rvalLanes x v).Formed := by
  unfold State.rvalLanes
  grind [← foldl, ← rval]

theorem waitBody_formed (i : Instr) (all : Bool) (o : MaskOp) (x : Wx) {s : State} (h : s.Formed) : (waitBody i all o x s).Formed := by
  unfold waitBody
  grind [Eff.Formed, State.Formed, ← kept, ← raiseEngine, ← stand, ← dropSelf, ← rvalLanes, ← modWarp]

theorem execWaitany_formed (c : Ctl) (o : MaskOp) {s : State} (h : s.Formed) : NextFormed (execWaitany c o s) := by
  unfold execWaitany
  grind [= next_formed, NextFormed, ← runWord_formed, ← waitBody_formed]

theorem execWaitall_formed (c : Ctl) (o : MaskOp) {s : State} (h : s.Formed) : NextFormed (execWaitall c o s) := by
  unfold execWaitall
  grind [= next_formed, NextFormed, ← runWord_formed, ← waitBody_formed]

theorem execTagWaitWakeup_formed (core slot : Nat) {s : State} (h : s.Formed) : NextFormed (execTagWaitWakeup core slot s) := by
  unfold execTagWaitWakeup
  split
  · exact (next_formed s).mpr h
  · split
    · exact (next_formed s).mpr h
    · split
      · exact (next_formed s).mpr h
      · extract_lets m t r
        have hr : r.Formed := h.foldl _ _ fun _ l ht => ht.rval ..
        clear_value r
        grind [= next_formed, ← raiseEngine, ← modWarp, ← dropSelf]

theorem execFfr_formed (c : Ctl) (o : FfrOp) {s : State} (h : s.Formed) : NextFormed (execFfr c o s) := by
  refine runWord_formed _ _ (fun x t ht => ?_) h
  grind [Eff.Formed, ← rvalLanes, ← raiseEngine, ← stand, ← dropSelf]

theorem execTagclr_formed (c : Ctl) (o : MaskOp) {s : State} (h : s.Formed) : NextFormed (execTagclr c o s) := by
  refine runWord_formed _ _ (fun x t ht => ?_) h
  grind [Eff.Formed, State.Formed, ← kept, ← modTeam]

theorem execTagset_formed (c : Ctl) (o : MaskOp) {s : State} (h : s.Formed) : NextFormed (execTagset c o s) := by
  refine runWord_formed _ _ (fun x t ht => ?_) h
  grind [Eff.Formed, ← setTags]

theorem grant {s : State} (h : s.Formed) (core : Nat) (ok : Core → Bool) : (s.grant core ok).Formed := by
  unfold State.grant
  grind [State.Formed, ← kept, ← foldl, ← modCore]

theorem grantIdle {s : State} (h : s.Formed) (core : Nat) : (s.grantIdle core).Formed := by
  unfold State.grantIdle
  grind [← grant]

theorem leaseFor_formed (n : Nat) (x : Wx) {s : State} (h : s.Formed) : (leaseFor n x s).Formed := by
  unfold leaseFor
  grind [Eff.Formed, State.Formed, ← kept, ← foldl, ← foldl_made, ← modCore, ← grantIdle]

theorem execLeaseRegister_formed (c : Ctl) (o : MaskOp) {s : State} (h : s.Formed) : NextFormed (execLeaseRegister c o s) := by
  refine runWord_formed _ _ (fun x t ht => ?_) h
  grind [Eff.Formed, ← leaseFor_formed]

theorem execLeaseImmediate_formed (c : Ctl) (o : Imm16Op) {s : State} (h : s.Formed) : NextFormed (execLeaseImmediate c o s) := by
  unfold execLeaseImmediate
  grind [= next_formed, NextFormed, ← runWord_formed, ← leaseFor_formed]

theorem endLeases {s : State} (h : s.Formed) (cores : List Nat) (p : Nat → Nat → Bool) : (s.endLeases cores p).Formed := by
  have hended := h.foldl cores (fun t c => t.modCore c fun k => k.endLeases p) fun _ c ht => ht.modCore c _ fun _ hk => hk
  exact hended.foldl _ _ fun _ c ht => ht.grantIdle c

theorem execUnlease_formed (c : Ctl) {s : State} (h : s.Formed) : NextFormed (execUnlease c s) := by
  refine runWord_formed _ _ (fun x t ht => ?_) h
  grind [Eff.Formed, ← endLeases]

/-! ### Queue registers -/

theorem deliverHeld {s : State} (h : s.Formed) (uid n : Nat) : (s.deliverHeld uid n).Formed := by
  unfold State.deliverHeld
  grind [State.Formed, ← kept, ← modWarpU, ← modCore]

theorem popRecord {s : State} (h : s.Formed) (w : Warp) (n : Nat) {r : DWord} {t : State}
    (ht : s.popRecord w n = .ok (some (r, t))) : t.Formed := by
  unfold State.popRecord at ht
  grind [← deliverHeld, ← modWarpU]

theorem takeFeed {s : State} (h : s.Formed) (core seq need : Nat) : (s.takeFeed core seq need).Formed := by
  unfold State.takeFeed
  grind [State.Formed, ← kept, ← modWarpU, ← modCore]

theorem putDrain {s : State} (h : s.Formed) (core seq : Nat) : (s.putDrain core seq).Formed := by
  unfold State.putDrain
  grind [State.Formed, ← kept, ← modWarpU, ← modCore]

theorem popBody_formed (i : Instr) (o : QPopOp) (x : Wx) {s : State} (h : s.Formed) : (popBody i o x s).Formed := by
  unfold popBody
  extract_lets n k q s1 s2 word
  split
  · split
    · trivial
    · exact h.holdHere ..
    · next hpop => exact h.popRecord _ _ hpop
  · have h2 : s2.Formed := (h.modWarp ..).foldl _ _ fun _ c ht => ht.putDrain ..
    clear_value s2
    grind [Eff.Formed, ← holdHere]

theorem execMovQueuePop_formed (c : Ctl) (o : QPopOp) {s : State} (h : s.Formed) : NextFormed (execMovQueuePop c o s) := by
  unfold execMovQueuePop
  grind [= next_formed, NextFormed, ← runWord_formed, ← popBody_formed]

theorem qpushBody_formed (i : Instr) (o : QPushOp) (x : Wx) {s : State} (h : s.Formed) : (qpushBody i o x s).Formed := by
  unfold qpushBody
  grind [Eff.Formed, State.Formed, ← kept, ← holdHere, ← modWarp]

theorem execMovQueuePush_formed (c : Ctl) (o : QPushOp) {s : State} (h : s.Formed) : NextFormed (execMovQueuePush c o s) := by
  unfold execMovQueuePush
  grind [= next_formed, NextFormed, ← runWord_formed, ← qpushBody_formed]

theorem movsQueueBody_formed (i : Instr) (o : MovsOp) (x : Wx) {s : State} (h : s.Formed) : (movsQueueBody i o x s).Formed := by
  unfold movsQueueBody
  split
  · trivial
  · exact h.holdHere ..
  · next hpop => exact (h.popRecord _ _ hpop).foldl _ _ fun _ l ht => ht.rval ..

theorem execQueueAccessUnblock_formed (core slot : Nat) {s : State} (h : s.Formed) : NextFormed (execQueueAccessUnblock core slot s) := by
  unfold execQueueAccessUnblock
  grind [= next_formed, NextFormed, ← redo, ← unhold, ← popBody_formed, ← qpushBody_formed, ← movsQueueBody_formed]

/-! ### Count barriers -/

theorem cbarmBody_formed (o : CbarmOp) (x : Wx) {s : State} (h : s.Formed) : (cbarmBody o x s).Formed := by
  unfold cbarmBody
  grind [Eff.Formed, → ask, ← addReqs]

theorem execCbarm_formed (c : Ctl) (o : CbarmOp) {s : State} (h : s.Formed) : NextFormed (execCbarm c o s) := by
  unfold execCbarm
  grind [= next_formed, NextFormed, ← runWord_formed, ← cbarmBody_formed]

theorem cbRead {s : State} (h : s.Formed) (l : LineId) (off : Nat) (attr : BitVec 16) (ctx : Nat) :
    (s.cbRead l off attr ctx).1.Formed := by
  unfold State.cbRead
  grind [← agentRead]

theorem rvalCb {s : State} (h : s.Formed) (w : Warp) (lanes : List Nat) (pc : Word) (v : Nat) : (s.rvalCb w lanes pc v).Formed := by
  unfold State.rvalCb
  grind [← foldl, ← rval]

theorem cbwaitBody_formed (i : Instr) (o : CbwaitOp) (x : Wx) {s : State} (h : s.Formed) : (cbwaitBody i o x s).Formed := by
  unfold cbwaitBody
  grind [Eff.Formed, State.Formed, ← kept, → ask, ← cbRead, ← dropSelf, ← rvalCb, ← modWarp, ← stand]

theorem execCbwait_formed (c : Ctl) (o : CbwaitOp) {s : State} (h : s.Formed) : NextFormed (execCbwait c o s) := by
  unfold execCbwait
  grind [= next_formed, NextFormed, ← runWord_formed, ← cbwaitBody_formed]

theorem cbLook {s : State} (h : s.Formed) (w : Warp) (h0 : Hold) {p} (hp : s.cbLook w h0 = some p) : p.1.Formed := by
  unfold State.cbLook at hp
  grind [← cbRead]

theorem cbPoison {s : State} (h : s.Formed) (w : Warp) (h0 : Hold) : (s.cbPoison w h0).Formed := by
  unfold State.cbPoison
  grind [State.Formed, ← kept, ← raiseLanes, ← modWarp]

theorem execCbwaitSatisfied_formed (core slot : Nat) {s : State} (h : s.Formed) : NextFormed (execCbwaitSatisfied core slot s) := by
  unfold execCbwaitSatisfied
  split
  · exact (next_formed s).mpr h
  · split
    · exact (next_formed s).mpr h
    · split
      · split
        · next hlook =>
          have ht := h.cbLook _ _ hlook
          grind [= next_formed, ← cbPoison, ← modWarp, ← dropSelf, ← rvalCb]
        · exact (next_formed s).mpr h
      · exact (next_formed s).mpr h

theorem execCbwaitTimeout_formed (core slot : Nat) {s : State} (h : s.Formed) : NextFormed (execCbwaitTimeout core slot s) := by
  unfold execCbwaitTimeout
  split
  · exact (next_formed s).mpr h
  · split
    · exact (next_formed s).mpr h
    · split
      · split
        · next hlook =>
          have ht := h.cbLook _ _ hlook
          grind [= next_formed, ← cbPoison, ← modWarp, ← dropSelf, ← rvalCb]
        · exact (next_formed s).mpr h
      · exact (next_formed s).mpr h

/-! ### Regroups -/

theorem regArrive {s : State} (h : s.Formed) (x : Wx) (a : Arrival) (key : Nat → Nat) : (s.regArrive x a key).Formed := by
  unfold State.regArrive
  grind [State.Formed, ← kept, ← modWarp, ← fixDomain]

theorem execRegrp_formed (c : Ctl) (o : RegrpOp) {s : State} (h : s.Formed) : NextFormed (execRegrp c o s) := by
  refine runWord_formed _ _ (fun x t ht => ?_) h
  grind [Eff.Formed, ← regArrive]

theorem execRegrpb_formed (c : Ctl) (o : RegrpbOp) {s : State} (h : s.Formed) : NextFormed (execRegrpb c o s) := by
  refine runWord_formed _ _ (fun x t ht => ?_) h
  grind [Eff.Formed, ← regArrive]

theorem execRegrpArrival_formed (core slot : Nat) {s : State} (h : s.Formed) : NextFormed (execRegrpArrival core slot s) := by
  unfold execRegrpArrival
  grind [= next_formed, NextFormed, State.Formed, ← kept, ← modWarp, ← fixDomain]

theorem replaceWarps {s : State} (h : s.Formed) (olds : List (Warp × Nat)) (news : List Warp) (srcs : List Nat) :
    (s.replaceWarps olds news srcs).Formed :=
  Kept.mapCores h _ fun _ => rfl

theorem relocate {s : State} (h : s.Formed) (d : Domain) : (s.relocate d).Formed := by
  unfold State.relocate
  extract_lets ws slots void
  split
  · exact h
  · extract_lets a packs srcs news olds s1 sch s2
    have h1 : s1.Formed := replaceWarps (s := { s with uid := _ }) h ..
    exact ((show s2.Formed from h1).dropSelf _).count ..

theorem endDomain {s : State} (h : s.Formed) (d : Domain) (ws : List Warp) : (s.endDomain d ws).Formed := by
  unfold State.endDomain
  grind [State.Formed, ← kept]

theorem restorePacking {s : State} (h : s.Formed) (d : Domain) : (s.restorePacking d).Formed := by
  unfold State.restorePacking
  extract_lets ws
  split
  · exact h
  · extract_lets a dim packs lists srcs news olds s1
    have h1 : s1.Formed := replaceWarps (s := { s with uid := _ }) h ..
    exact ((h1.endDomain ..).dropSelf _).count ..

theorem relocFails {s : State} (h : s.Formed) (d : Domain) (slot reg : Nat) : (s.relocFails d slot reg).Formed := by
  unfold State.relocFails
  grind [State.Formed, ← kept, ← foldl, ← endDomain, ← machineRecord, ← modWarp, ← trap]

theorem execRelocationCompletion_formed (dom : Nat) (err : Option (Nat × Nat)) {s : State} (h : s.Formed) :
    NextFormed (execRelocationCompletion dom err s) := by
  unfold execRelocationCompletion
  grind [= next_formed, NextFormed, ← relocFails, ← restorePacking, ← relocate]

/-! ### Completions -/

theorem pushRecord {s : State} (h : s.Formed) (k : Who) (r : DWord) : (s.pushRecord k r).Formed := by
  unfold State.pushRecord
  grind [State.Formed, ← kept, ← modWarpU, ← modCore]

theorem breakOnCommand {s : State} (h : s.Formed) (k : Who) : (s.breakOnCommand k).Formed := by
  unfold State.breakOnCommand
  grind [← modWarpU]

theorem engineFault {s : State} (h : s.Formed) (k : Who) (c : Code) : (s.engineFault k c).Formed := by
  unfold State.engineFault
  grind [State.Formed, ← kept, ← modWarpU, ← recordFault, ← modGrid]

theorem report {s : State} (h : s.Formed) (k : Who) (status detail : Nat) : (s.report k status detail).Formed := by
  unfold State.report
  extract_lets ctx dead r s1 s2 s3 s4 s5 s6
  have h1 : s1.Formed := h.setTags ..
  have h2 : s2.Formed := .ite h1 (h1.pushRecord ..)
  have h3 : s3.Formed := h2.modWarpU ..
  have h4 : s4.Formed := h3.traceCore ..
  have h5 : s5.Formed := .ite (h4.traceRec ..) h4
  have h6 : s6.Formed := h5.breakOnCommand ..
  clear_value s6
  grind [← engineFault]

/-! ### Press mode -/

theorem modBin {s : State} (h : s.Formed) (b : Nat) (f : Bin → Bin) : (s.modBin b f).Formed := by
  unfold State.modBin
  grind [State.Formed, ← kept]

theorem readLines {s : State} (h : s.Formed) (ctx : Nat) (lines : List (Nat × BitVec 16)) : (s.readLines ctx lines).1.Formed := by
  unfold State.readLines
  grind [← foldl, ← foldl_fst, ← agentRead]

theorem writeLines {s : State} (h : s.Formed) (off : Nat) (b : List Byte) (z0 : List (Nat × BitVec 16)) :
    (s.writeLines off b z0).Formed := by
  induction z0 generalizing s off b with
  | nil => exact h
  | cons p r ih =>
    unfold State.writeLines
    grind [← agentWrite]

theorem pressPerform {s : State} (h : s.Formed) (b : Nat) (o : POp) : (s.pressPerform b o).1.Formed := by
  unfold State.pressPerform
  grind [State.Formed, ← kept, ← readLines, ← modBin, ← writeLines]

theorem acceptPress {s : State} (h : s.Formed) (x : Wx) (b : Nat) (o : POp) : (s.acceptPress x b o).Formed := by
  unfold State.acceptPress
  grind [Eff.Formed, State.Formed, ← kept, ← modMem, ← count, ← modBin]

theorem offerOp {s : State} (h : s.Formed) (x : Wx) (i : Instr) (b : Nat) (o : POp) : (s.offerOp x i b o).Formed := by
  unfold State.offerOp
  grind [Eff.Formed, State.Formed, ← kept, ← modWarp, ← holdHere, ← acceptPress]

theorem offer {s : State} (h : s.Formed) (x : Wx) (i : Instr) (b : Nat) (k : POpKind) (sg : Bool) (d a : PVec) (src : PSrc) :
    (s.offer x i b k sg d a src).Formed := by
  unfold State.offer
  grind [Eff.Formed, ← offerOp]

theorem vectors (x : Wx) (rs : List (BitVec 8)) (f : Nat → List PVec → Eff) (hf : ∀ a b, (f a b).Formed) : (Wx.vectors x rs f).Formed := by
  unfold Wx.vectors
  grind [Eff.Formed]

theorem press2_formed (i : Instr) (k : POpKind) (sg : Bool) (o : Press2) (x : Wx) {s : State} (h : s.Formed) :
    (press2 i k sg o x s).Formed := by
  unfold press2
  grind [Eff.Formed, ← vectors, ← offer]

theorem execPadd_formed (c : Ctl) (o : Press2) {s : State} (h : s.Formed) : NextFormed (execPadd c o s) := by
  unfold execPadd
  grind [= next_formed, NextFormed, ← runWord_formed, ← press2_formed]

theorem execPsub_formed (c : Ctl) (o : Press2) {s : State} (h : s.Formed) : NextFormed (execPsub c o s) := by
  unfold execPsub
  grind [= next_formed, NextFormed, ← runWord_formed, ← press2_formed]

theorem execPmul_formed (c : Ctl) (o : Press2) {s : State} (h : s.Formed) : NextFormed (execPmul c o s) := by
  unfold execPmul
  grind [= next_formed, NextFormed, ← runWord_formed, ← press2_formed]

theorem execPand_formed (c : Ctl) (o : Press2) {s : State} (h : s.Formed) : NextFormed (execPand c o s) := by
  unfold execPand
  grind [= next_formed, NextFormed, ← runWord_formed, ← press2_formed]

theorem execPor_formed (c : Ctl) (o : Press2) {s : State} (h : s.Formed) : NextFormed (execPor c o s) := by
  unfold execPor
  grind [= next_formed, NextFormed, ← runWord_formed, ← press2_formed]

theorem execPxor_formed (c : Ctl) (o : Press2) {s : State} (h : s.Formed) : NextFormed (execPxor c o s) := by
  unfold execPxor
  grind [= next_formed, NextFormed, ← runWord_formed, ← press2_formed]

theorem pnotBody_formed (i : Instr) (o : Press1) (x : Wx) {s : State} (h : s.Formed) : (pnotBody i o x s).Formed := by
  unfold pnotBody
  grind [Eff.Formed, ← vectors, ← offer]

theorem execPnot_formed (c : Ctl) (o : Press1) {s : State} (h : s.Formed) : NextFormed (execPnot c o s) := by
  unfold execPnot
  grind [= next_formed, NextFormed, ← runWord_formed, ← pnotBody_formed]

theorem pcmpBody_formed (i : Instr) (o : PcmpOp) (x : Wx) {s : State} (h : s.Formed) : (pcmpBody i o x s).Formed := by
  unfold pcmpBody
  grind [Eff.Formed, ← press2_formed]

theorem execPcmp_formed (c : Ctl) (o : PcmpOp) {s : State} (h : s.Formed) : NextFormed (execPcmp c o s) := by
  unfold execPcmp
  grind [= next_formed, NextFormed, ← runWord_formed, ← pcmpBody_formed]

theorem pselBody_formed (i : Instr) (o : PselOp) (x : Wx) {s : State} (h : s.Formed) : (pselBody i o x s).Formed := by
  unfold pselBody
  grind [Eff.Formed, ← vectors, ← offer]

theorem execPsel_formed (c : Ctl) (o : PselOp) {s : State} (h : s.Formed) : NextFormed (execPsel c o s) := by
  unfold execPsel
  grind [= next_formed, NextFormed, ← runWord_formed, ← pselBody_formed]

theorem psatBody_formed (i : Instr) (o : PsatOp) (x : Wx) {s : State} (h : s.Formed) : (psatBody i o x s).Formed := by
  unfold psatBody
  grind [Eff.Formed, ← vectors, ← offer]

theorem execPsat_formed (c : Ctl) (o : PsatOp) {s : State} (h : s.Formed) : NextFormed (execPsat c o s) := by
  unfold execPsat
  grind [= next_formed, NextFormed, ← runWord_formed, ← psatBody_formed]

theorem pcntBody_formed (i : Instr) (o : Press1) (x : Wx) {s : State} (h : s.Formed) : (pcntBody i o x s).Formed := by
  unfold pcntBody
  grind [Eff.Formed, ← vectors, ← offer]

theorem execPcnt_formed (c : Ctl) (o : Press1) {s : State} (h : s.Formed) : NextFormed (execPcnt c o s) := by
  unfold execPcnt
  grind [= next_formed, NextFormed, ← runWord_formed, ← pcntBody_formed]

theorem pshiftBody_formed (i : Instr) (left sg : Bool) (o : PshiftOp) (x : Wx) {s : State} (h : s.Formed) :
    (pshiftBody i left sg o x s).Formed := by
  unfold pshiftBody
  grind [Eff.Formed, ← vectors, ← offer]

theorem execPshl_formed (c : Ctl) (o : PshiftOp) {s : State} (h : s.Formed) : NextFormed (execPshl c o s) := by
  unfold execPshl
  grind [= next_formed, NextFormed, ← runWord_formed, ← pshiftBody_formed]

theorem execPshr_formed (c : Ctl) (o : PshiftOp) {s : State} (h : s.Formed) : NextFormed (execPshr c o s) := by
  unfold execPshr
  grind [= next_formed, NextFormed, ← runWord_formed, ← pshiftBody_formed]

theorem pxferBody_formed (i : Instr) (out : Bool) (o : PxferOp) (x : Wx) {s : State} (h : s.Formed) : (pxferBody i out o x s).Formed := by
  unfold pxferBody
  grind [Eff.Formed, ← vectors, → ask, ← offer]

theorem execPxin_formed (c : Ctl) (o : PxferOp) {s : State} (h : s.Formed) : NextFormed (execPxin c o s) := by
  unfold execPxin
  grind [= next_formed, NextFormed, ← runWord_formed, ← pxferBody_formed]

theorem execPxout_formed (c : Ctl) (o : PxferOp) {s : State} (h : s.Formed) : NextFormed (execPxout c o s) := by
  unfold execPxout
  grind [= next_formed, NextFormed, ← runWord_formed, ← pxferBody_formed]

theorem execPressAcceptance_formed (core slot : Nat) {s : State} (h : s.Formed) : NextFormed (execPressAcceptance core slot s) := by
  unfold execPressAcceptance
  grind [= next_formed, NextFormed, ← redo, ← unhold, ← offerOp]

theorem pressDone {s : State} (h : s.Formed) (o : POp) (v : Option DWord) : (s.pressDone o v).Formed := by
  unfold State.pressDone
  grind [State.Formed, ← kept, ← modWarpU]

theorem execPressOperationCompletion_formed (bin : Nat) {s : State} (h : s.Formed) : NextFormed (execPressOperationCompletion bin s) := by
  unfold execPressOperationCompletion
  grind [= next_formed, NextFormed, State.Formed, ← kept, → askBack, ← pressPerform, ← pressDone, ← modBin]

theorem emptyBin {s : State} (h : s.Formed) (b : Nat) : (s.emptyBin b).Formed := by
  unfold State.emptyBin
  grind [← foldl, ← evictCell]

theorem switchBin {s : State} (h : s.Formed) (ctx : Nat) (press : Bool) (b : Nat) : (s.switchBin ctx press b).Formed := by
  unfold State.switchBin
  grind [State.Formed, ← kept, ← modBin, ← emptyBin]

theorem pmodeBody_formed (press : Bool) (o : PmodeOp) (x : Wx) {s : State} (h : s.Formed) : (pmodeBody press o x s).Formed := by
  unfold pmodeBody
  grind [Eff.Formed, State.Formed, ← kept, ← foldl, ← foldl_made, ← modCore, ← modWarp, ← report, ← switchBin]

theorem execPmodePress_formed (c : Ctl) (o : PmodeOp) {s : State} (h : s.Formed) : NextFormed (execPmodePress c o s) := by
  unfold execPmodePress
  grind [= next_formed, NextFormed, ← runWord_formed, ← pmodeBody_formed]

theorem execPmodeCache_formed (c : Ctl) (o : PmodeOp) {s : State} (h : s.Formed) : NextFormed (execPmodeCache c o s) := by
  unfold execPmodeCache
  grind [= next_formed, NextFormed, ← runWord_formed, ← pmodeBody_formed]

theorem binReached {s : State} (h : s.Formed) (b : Nat) : (s.binReached b).Formed := by
  unfold State.binReached
  grind [State.Formed, ← kept, ← foldl, ← report]

theorem execPressEntryCompletion_formed (bin : Nat) {s : State} (h : s.Formed) : NextFormed (execPressEntryCompletion bin s) := by
  unfold execPressEntryCompletion
  grind [= next_formed, NextFormed, State.Formed, ← kept, ← binReached, ← modBin]

theorem execPressDrainCompletion_formed (bin : Nat) {s : State} (h : s.Formed) : NextFormed (execPressDrainCompletion bin s) := by
  unfold execPressDrainCompletion
  grind [= next_formed, NextFormed, State.Formed, ← kept, ← binReached, ← modBin]

theorem psyncBody_formed (i : Instr) (o : MaskOp) (x : Wx) {s : State} (h : s.Formed) : (psyncBody i o x s).Formed := by
  unfold psyncBody
  grind [Eff.Formed, State.Formed, ← kept, ← modWarp, ← stand, ← dropSelf]

theorem execPsync_formed (c : Ctl) (o : MaskOp) {s : State} (h : s.Formed) : NextFormed (execPsync c o s) := by
  unfold execPsync
  grind [= next_formed, NextFormed, ← runWord_formed, ← psyncBody_formed]

theorem execPsyncCompletion_formed (core slot : Nat) {s : State} (h : s.Formed) : NextFormed (execPsyncCompletion core slot s) := by
  unfold execPsyncCompletion
  grind [= next_formed, NextFormed, ← modWarp, ← dropSelf]

/-! ### System instructions -/

theorem trapBody_formed (c : Code) (n : Nat) (x : Wx) {s : State} (h : s.Formed) : (trapBody c n x s).Formed := by
  unfold trapBody
  grind [Eff.Formed, State.Formed, ← kept, ← modWarp, ← trap]

theorem execTrap_formed (c : Ctl) (o : Imm16Op) {s : State} (h : s.Formed) : NextFormed (execTrap c o s) := by
  unfold execTrap
  grind [= next_formed, NextFormed, ← runWord_formed, ← trapBody_formed]

theorem execBkpt_formed (c : Ctl) (o : Imm16Op) {s : State} (h : s.Formed) : NextFormed (execBkpt c o s) := by
  refine runWord_formed _ _ (fun x t ht => ?_) h
  grind [Eff.Formed, State.Formed, ← kept, ← modWarp, ← trapBody_formed]

theorem execEret_formed (c : Ctl) {s : State} (h : s.Formed) : NextFormed (execEret c s) := by
  refine runWord_formed _ _ (fun x t ht => ?_) h
  grind [Eff.Formed, ← foldl, ← undoPins, ← modWarp]

theorem execIlleg_formed (c : Ctl) (raw : BitVec 58) {s : State} (h : s.Formed) : NextFormed (execIlleg c raw s) := by
  unfold execIlleg
  grind [= next_formed, NextFormed, ← runReject_formed]

theorem movsSpecial_formed (o : MovsOp) (x : Wx) {s : State} (h : s.Formed) : (movsSpecial o x s).Formed := by
  unfold movsSpecial
  grind [Eff.Formed, ← foldl, ← foldl_made, ← rval, ← dropSelf]

theorem execMovs_formed (c : Ctl) (o : MovsOp) {s : State} (h : s.Formed) : NextFormed (execMovs c o s) := by
  refine runWord_formed _ _ (fun x t ht => ?_) h
  grind [Eff.Formed, ← movsQueueBody_formed, ← movsSpecial_formed]

theorem execMovw_formed (c : Ctl) (o : MovwOp) {s : State} (h : s.Formed) : NextFormed (execMovw c o s) := by
  refine runWord_formed _ _ (fun x t ht => ?_) h
  grind [Eff.Formed, State.Formed, ← kept, ← modWarp]

theorem execStopchk_formed (c : Ctl) (o : StopchkOp) {s : State} (h : s.Formed) : NextFormed (execStopchk c o s) := by
  refine runWord_formed _ _ (fun x t ht => ?_) h
  grind [Eff.Formed]

theorem execMark_formed (c : Ctl) (o : MarkOp) {s : State} (h : s.Formed) : NextFormed (execMark c o s) := by
  refine runWord_formed _ _ (fun x t ht => ?_) h
  grind [Eff.Formed, ← traceCore]

end State.Formed

end Sys2Proof.Machine

end

