-- ==== Sys2Proof/Proofs/FormedEngines.lean ====
section
/-! PROVED FACTS. Memory stays in canonical form (O58): engines, the matrix arrays, copies, collectives and builds. -/

namespace Sys2Proof.Machine

namespace State.Formed

/-! ### Engines -/

theorem modCmd {s : State} (h : s.Formed) (core q seq : Nat) (f : Cmd → Cmd) : (s.modCmd core q seq f).Formed := by
  unfold State.modCmd
  grind [State.Formed, ← kept, ← modCore]

theorem finishCmd {s : State} (h : s.Formed) (core q seq status detail : Nat) : (s.finishCmd core q seq status detail).Formed := by
  unfold State.finishCmd
  grind [State.Formed, ← kept, ← modCmd]

theorem failCmd {s : State} (h : s.Formed) (core q seq : Nat) (c : Code) : (s.failCmd core q seq c).Formed := by
  unfold State.failCmd
  grind [← finishCmd]

theorem engAsk {s : State} (h : s.Formed) (a : Agent) (k : HostOpKind) (msg : Nat → Msg) : (s.engAsk a k msg).Formed := by
  unfold State.engAsk
  grind [← hostOp]

theorem engAts {s : State} (h : s.Formed) (die pasid page : Nat) : (s.engAts die pasid page).Formed := by
  unfold State.engAts
  grind [State.Formed, ← kept, ← send, ← modMem]

theorem engHalves {s : State} (h : s.Formed) (a : Agent) (n off len level : Nat) (both : Bool)
    {t} (ht : s.engHalves a n off len level both = some t) : t.Formed := by
  unfold State.engHalves at ht
  grind [← foldl, ← engAsk]

theorem engPeer {s : State} (h : s.Formed) (a : Agent) (m off : Nat) (op : LineOp) (k : HostOpKind) (q : BitVec 4)
    {t} (ht : s.engPeer a m off op k q = some t) : t.Formed := by
  unfold State.engPeer at ht
  grind [→ askPeer]

theorem engRead1 {s : State} (h : s.Formed) (a : Agent) (va n : Nat) : (s.engRead1 a va n).1.Formed := by
  unfold State.engRead1
  grind [State.Formed, ← kept, ← agentRead, ← engAsk, ← ncClass, → engHalves, → engPeer, ← modMem, ← engAts]

theorem engNeed {s : State} (h : s.Formed) (a : Agent) (va n : Nat) : (s.engNeed a va n).1.Formed := by
  unfold State.engNeed
  grind [← foldl, ← foldl_fst, ← engRead1]

theorem engRead {s : State} (h : s.Formed) (a : Agent) (va n : Nat) : (s.engRead a va n).1.Formed := by
  unfold State.engRead
  grind [← foldl, ← foldl_fst, ← engNeed, ← engRead1]

theorem engReady1 {s : State} (h : s.Formed) (a : Agent) (va n : Nat) : (s.engReady1 a va n).1.Formed := by
  unfold State.engReady1
  grind [→ askBack, → engHalves, ← engAts]

theorem engReady {s : State} (h : s.Formed) (a : Agent) (va n : Nat) : (s.engReady a va n).1.Formed := by
  unfold State.engReady
  grind [← foldl, ← foldl_fst, ← engReady1]

theorem engWrite1 {s : State} (h : s.Formed) (a : Agent) (va : Nat) (b : List PByte) : (s.engWrite1 a va b).Formed := by
  unfold State.engWrite1
  extract_lets raw
  split
  · split
    · exact ((h.ncClass ..).send ..).hostOp ..
    · exact ((h.changeClass ..).recall' ..).homePatch ..
  · next m off _ =>
    cases ht : s.engPeer a m off (.write 0 raw) .zeroRead (poisonAfter 0 (off % 128) b) with
    | none => exact h
    | some t => exact h.engPeer _ _ _ _ _ _ ht
  · exact h.modTeam _ _ fun u hu => ⟨Mem.wf_write hu.1 _ _, hu.2⟩
  · exact h.modCore _ _ fun k hk => Mem.wf_write hk _ _
  · exact h

theorem engWrite {s : State} (h : s.Formed) (a : Agent) (va : Nat) (b : List PByte) : (s.engWrite a va b).Formed := by
  unfold State.engWrite
  grind [← foldl, ← engWrite1]

theorem dropCmd {s : State} (h : s.Formed) (core q seq : Nat) : (s.dropCmd core q seq).Formed := by
  unfold State.dropCmd
  grind [State.Formed, ← kept, ← modMem, ← modCore]

theorem startAside {s : State} (h : s.Formed) (c : Cmd) : (s.startAside c).Formed := by
  unfold State.startAside
  grind [State.Formed, ← kept, ← modMem]

theorem execCommandCompletion_formed (core q seq : Nat) {s : State} (h : s.Formed) : NextFormed (execCommandCompletion core q seq s) := by
  unfold execCommandCompletion
  grind [= next_formed, NextFormed, ← startAside, ← dropCmd, ← report]

/-! ### The matrix arrays -/

theorem execReserve_formed (core seq : Nat) {s : State} (h : s.Formed) : NextFormed (execReserve core seq s) := by
  unfold execReserve
  grind [= next_formed, NextFormed, State.Formed, ← kept, ← foldl, ← failCmd, ← finishCmd, ← modCore]

theorem execRelease_formed (core seq : Nat) {s : State} (h : s.Formed) : NextFormed (execRelease core seq s) := by
  unfold execRelease
  grind [= next_formed, NextFormed, State.Formed, ← kept, ← foldl, ← failCmd, ← modCore, ← finishCmd]

theorem readRows {s : State} (h : s.Formed) (a : Agent) (base stride n rows : Nat) : (s.readRows a base stride n rows).1.Formed := by
  unfold State.readRows
  grind [← foldl, ← foldl_fst, ← engRead]

theorem putOpbuf {s : State} (h : s.Formed) (core off : Nat) (b : List Byte) : (s.putOpbuf core off b).Formed :=
  h.modCore _ _ fun _ hk => Mem.wf_write hk _ _

theorem loadBlocks {s : State} (h : s.Formed) (a : Agent) (c : Cmd) (cs : List (Nat × Reservation)) (p : Bool) (z0 : List (Nat × Nat)) :
    (s.loadBlocks a c cs p z0).1.Formed := by
  induction z0 generalizing s p with
  | nil => exact h
  | cons x rest ih =>
    unfold State.loadBlocks
    split
    · exact h
    · extract_lets l w nw pb off n
      have hrows := h.readRows a (c.f 1 0 57 + x.2 * l * c.f 4 0 40 + x.1 * n) (c.f 4 0 40) n l
      split
      · exact h
      · split
        · next he => exact fst_eq he hrows
        · next he => exact fst_eq he hrows
        · next he =>
          extract_lets rows f s1
          have h1 : s1.Formed := (fst_eq he hrows).foldl _ _ fun _ _ ht => ht.putOpbuf ..
          exact ih (s := { s1 with fresh := f + 1 }) h1 _

theorem execLoadb_formed (core seq : Nat) {s : State} (h : s.Formed) : NextFormed (execLoadb core seq s) := by
  unfold execLoadb
  grind [= next_formed, NextFormed, State.Formed, ← kept, ← failCmd, ← loadBlocks, ← modCmd, ← finishCmd]

theorem scaleRead {s : State} (h : s.Formed) (a : Agent) (va : Nat) : (s.scaleRead a va).1.Formed := by
  unfold State.scaleRead
  grind [State.Formed, ← kept, ← engRead, ← modCore]

theorem scaleAt {s : State} (h : s.Formed) (a : Agent) (id i : Nat) : (s.scaleAt a id i).1.Formed := by
  unfold State.scaleAt
  grind [← scaleRead]

theorem scales {s : State} (h : s.Formed) (a : Agent) (id i n : Nat) : (s.scales a id i n).1.Formed := by
  unfold State.scales
  grind [← foldl, ← foldl_fst, ← scaleAt]

theorem gemmSteps {s : State} (h : s.Formed) (a : Agent) (c : Cmd) (w : Nat) (cs : List (Nat × Reservation)) (idx z0 : List Nat)
    (z1 : List (List Word) × Bool) : (s.gemmSteps a c w cs idx z0 z1).1.Formed := by
  induction z0 generalizing s z1 with
  | nil => exact h
  | cons i rest ih =>
    unfold State.gemmSteps
    grind [← foldl_fst, ← engRead, ← scales]

theorem gemmTile {s : State} (h : s.Formed) (a : Agent) (c : Cmd) (w : Nat) (cs : List (Nat × Reservation)) :
    (s.gemmTile a c w cs).1.Formed := by
  unfold State.gemmTile
  grind [← engRead, ← gemmSteps]

theorem leaveArray {s : State} (h : s.Formed) (core : Nat) (pair : Bool) : (s.leaveArray core pair).Formed := by
  unfold State.leaveArray
  grind [State.Formed, ← kept, ← modCore, ← grantIdle]

theorem dropLease {s : State} (h : s.Formed) (cores : List Nat) : (s.dropLease cores).Formed := by
  unfold State.dropLease
  grind [State.Formed, ← kept, ← foldl, ← grantIdle, ← modCore]

theorem execGemm_formed (core seq : Nat) {s : State} (h : s.Formed) : NextFormed (execGemm core seq s) := by
  unfold execGemm
  split
  · exact (next_formed s).mpr h
  · extract_lets k owner a fail fresh s1 s2 s3 s4
    have h1 : s1.Formed := h.foldl _ _ fun _ k ht => ht.modCore _ _ fun _ hk => hk
    have h2 : s2.Formed := h1.modCore _ _ fun _ hk => hk
    have h3 : s3.Formed := h2.foldl _ _ fun _ k ht => ht.modCore _ _ fun _ hk => hk
    have h4 : s4.Formed := .ite (h3.modCore _ _ fun _ hk => hk) h3
    clear_value s4
    grind [= next_formed, ← failCmd, ← modCmd]

theorem unslave {s : State} (h : s.Formed) (core : Nat) : (s.unslave core).Formed := by
  unfold State.unslave
  grind [State.Formed, ← kept, ← grantIdle, ← modCore]

theorem grantBoundary {s : State} (h : s.Formed) (cores : List Nat) : (s.grantBoundary cores).Formed := by
  unfold State.grantBoundary
  grind [← foldl, ← unslave, ← grant]

theorem countSteps {s : State} (h : s.Formed) (core : Nat) (c : Cmd) (n : Nat) : (s.countSteps core c n).Formed := by
  refine h.foldl _ _ fun t k ht => ht.modCore k _ fun q hq => ?_
  unfold Core.countSteps
  grind

theorem forgetOps {s : State} (h : s.Formed) (key : Nat) : (s.forgetOps key).Formed := by
  unfold State.forgetOps
  grind [State.Formed, ← kept, ← modMem]

theorem putTile {s : State} (h : s.Formed) (a : Agent) (core : Nat) (c : Cmd) (w : Nat) (rows : List (List Byte)) (bad : Bool) :
    (s.putTile a core c w rows bad).1.Formed := by
  unfold State.putTile
  grind [State.Formed, ← kept, ← modCmd, ← engReady, ← engWrite, ← forgetOps]

theorem cardDone {s : State} (h : s.Formed) (core : Nat) (c : Cmd) : (s.cardDone core c).Formed := by
  unfold State.cardDone
  grind [← leaveArray, ← finishCmd]

theorem cardCancelled {s : State} (h : s.Formed) (core : Nat) (c : Cmd) : (s.cardCancelled core c).Formed := by
  unfold State.cardCancelled
  grind [← leaveArray, ← finishCmd]

theorem boundary {s : State} (h : s.Formed) (core : Nat) (c : Cmd) : (s.boundary core c).Formed := by
  unfold State.boundary
  grind [← grantBoundary, ← countSteps, ← cardDone, ← cardCancelled, ← leaveArray]

theorem idleLease {s : State} (h : s.Formed) (core : Nat) : (s.idleLease core).Formed := by
  unfold State.idleLease
  grind [State.Formed, ← kept, ← foldl, ← modCore, ← dropLease]

theorem endTile {s : State} (h : s.Formed) (core : Nat) (c : Cmd) (st n : Nat) : (s.endTile core c st n).Formed := by
  unfold State.endTile
  grind [← leaveArray, ← finishCmd, ← countSteps]

theorem tileWritten {s : State} (h : s.Formed) (core : Nat) (c : Cmd) : (s.tileWritten core c).Formed := by
  unfold State.tileWritten
  grind [State.Formed, ← kept, ← endTile, ← boundary, ← putDrain, ← modCmd, ← forgetOps]

theorem runTile {s : State} (h : s.Formed) (core : Nat) (c : Cmd) : (s.runTile core c).Formed := by
  unfold State.runTile
  extract_lets g a s1 cs need s2
  have h1 : s1.Formed := h.putDrain ..
  have h2 : s2.Formed := .ite (h.takeFeed ..) h
  clear_value s1 s2
  refine .ite (h.tileWritten ..) (.ite (h.cardDone ..) (.ite ?_ (.ite (h.endTile ..) ?_)))
  · grind [← cardDone, ← cardCancelled, ← leaveArray]
  · split
    · exact h2
    · next d _ =>
      have htile := h2.gemmTile a d g.f.w cs
      generalize s2.gemmTile a d g.f.w cs = tile at htile ⊢
      grind [← tileWritten, ← cardCancelled, ← leaveArray, ← endTile, ← putTile]

theorem execTileBoundary_formed (core : Nat) {s : State} (h : s.Formed) : NextFormed (execTileBoundary core s) := by
  unfold execTileBoundary
  grind [= next_formed, NextFormed, State.Formed, ← kept, ← idleLease, ← modCore, ← runTile]

/-! ### Copies, collectives and builds -/

theorem copyPiece {s : State} (h : s.Formed) (a : Agent) (src dst : Nat) (p : Nat × Nat) : (s.copyPiece a src dst p).1.Formed := by
  unfold State.copyPiece
  grind [← engRead1, ← engReady1]

theorem copyNeed {s : State} (h : s.Formed) (a : Agent) (src dst : Nat) (ps : List (Nat × Nat)) : (s.copyNeed a src dst ps).1.Formed := by
  unfold State.copyNeed
  grind [← foldl, ← foldl_fst, ← copyPiece]

theorem copyAll {s : State} (h : s.Formed) (a : Agent) (src dst : Nat) (ps : List (Nat × Nat)) : (s.copyAll a src dst ps).1.Formed := by
  unfold State.copyAll
  grind [← foldl, ← foldl_fst, ← copyNeed, ← copyPiece]

theorem copyPut {s : State} (h : s.Formed) (a : Agent) (dst : Nat) (o : Nat × Got) : (s.copyPut a dst o).Formed := by
  unfold State.copyPut
  grind [← engWrite1]

theorem copyOn {s : State} (h : s.Formed) (core seq n all : Nat) : (s.copyOn core seq n all).Formed := by
  unfold State.copyOn
  grind [State.Formed, ← kept, ← finishCmd, ← modCmd]

theorem copyFaulted {s : State} (h : s.Formed) (core seq : Nat) (a : Agent) (dst : Nat) (gs : List (Nat × Got)) :
    (s.copyFaulted core seq a dst gs).Formed := by
  unfold State.copyFaulted
  grind [State.Formed, ← kept, ← foldl, ← copyPut, ← failCmd]

theorem execCopyNone_formed (core seq : Nat) {s : State} (h : s.Formed) : NextFormed (execCopyNone core seq s) := by
  unfold execCopyNone
  grind [= next_formed, NextFormed, State.Formed, ← kept, ← foldl, ← failCmd, ← copyAll, ← copyFaulted, ← copyPut, ← copyOn]

theorem msuRead {s : State} (h : s.Formed) (a : Agent) (va n : Nat) : (s.msuRead a va n).1.Formed := by
  unfold State.msuRead
  grind [← engAsk]

theorem msuLine {s : State} (h : s.Formed) (a : Agent) (va : Nat) : (s.msuLine a va).1.Formed := by
  unfold State.msuLine
  grind [← engAsk]

theorem msuWrite {s : State} (h : s.Formed) (l off : Nat) (b : List Byte) : (s.msuWrite l off b).Formed :=
  h.modMem _ (.inr (Mem.wf_write h.dram _ _))

theorem msuDrop {s : State} (h : s.Formed) (l : Nat) : (s.msuDrop l).Formed := by
  unfold State.msuDrop
  grind [State.Formed, ← kept, ← foldl, ← dropL1, ← modDir, ← dropCell]

theorem msuInval {s : State} (h : s.Formed) (a : Agent) (va n : Nat) : (s.msuInval a va n).Formed := by
  unfold State.msuInval
  grind [← foldl, ← msuDrop]

theorem msuElem {s : State} (h : s.Formed) (a : Agent) (f va : Nat) : (s.msuElem a f va).1.Formed := by
  unfold State.msuElem
  grind [← msuRead]

theorem msuSum {s : State} (h : s.Formed) (a : Agent) (c : Cmd) (i : Nat) (z0 : List Nat) (z1 : FV) : (s.msuSum a c i z0 z1).1.Formed := by
  induction z0 generalizing s z1 with
  | nil => exact h
  | cons j r ih =>
    unfold State.msuSum
    grind [← msuElem]

theorem xfElem {s : State} (h : s.Formed) (a : Agent) (c : Cmd) (i : Nat) : (s.xfElem a c i).1.Formed := by
  unfold State.xfElem
  grind [← msuSum, ← msuElem]

theorem xfLine {s : State} (h : s.Formed) (a : Agent) (c : Cmd) (first n : Nat) : (s.xfLine a c first n).1.Formed := by
  unfold State.xfLine
  grind [← foldl, ← foldl_fst, ← msuLine, ← xfElem]

theorem xfAll {s : State} (h : s.Formed) (core : Nat) (c : Cmd) : (s.xfAll core c).1.Formed := by
  unfold State.xfAll
  grind [← foldl, ← foldl_fst, ← xfLine]

theorem xfRun (a : Agent) (c : Cmd) (fresh fuel : Nat) {s : State} (h : s.Formed) (ls : List (Nat × Nat × Nat)) :
    (State.xfRun a c fresh fuel s ls).1.Formed := by
  induction fuel generalizing s ls with
  | zero => exact h
  | succ fuel ih =>
    unfold State.xfRun
    grind [← xfLine, ← msuWrite]

theorem transform {s : State} (h : s.Formed) (core seq : Nat) (c : Cmd) : (s.transform core seq c).Formed := by
  unfold State.transform
  extract_lets a dst ed n
  split
  · exact h.failCmd ..
  · split
    · exact h.failCmd ..
    · split
      next t rs hread =>
      have ht : t.Formed := fst_eq hread (h.xfAll core c)
      split
      · exact ht
      · have hrun := xfRun a c t.fresh (n + 1) (s := { t with fresh := t.fresh + 1 }) ht (t.xfWork a c)
        generalize State.xfRun a c t.fresh (n + 1) { t with fresh := t.fresh + 1 } (t.xfWork a c) = run at hrun ⊢
        grind [← failCmd, ← finishCmd, ← msuInval]

theorem execCopyScale_formed (core seq : Nat) {s : State} (h : s.Formed) : NextFormed (execCopyScale core seq s) := by
  unfold execCopyScale
  grind [= next_formed, NextFormed, ← transform]

theorem execCopyAdd_formed (core seq : Nat) {s : State} (h : s.Formed) : NextFormed (execCopyAdd core seq s) := by
  unfold execCopyAdd
  grind [= next_formed, NextFormed, ← transform]

theorem execCopyCast_formed (core seq : Nat) {s : State} (h : s.Formed) : NextFormed (execCopyCast core seq s) := by
  unfold execCopyCast
  grind [= next_formed, NextFormed, ← transform]

theorem execCopyReduce_formed (core seq : Nat) {s : State} (h : s.Formed) : NextFormed (execCopyReduce core seq s) := by
  unfold execCopyReduce
  grind [= next_formed, NextFormed, ← transform]

theorem rwriteFlits {s : State} (h : s.Formed) (c : Cmd) (g : Group) (mem ch : Nat) (b : List PByte) :
    (s.rwriteFlits c g mem ch b).Formed := by
  unfold State.rwriteFlits
  grind [State.Formed, ← kept, ← foldl, ← sendFlit]

theorem sendChunk (a : Agent) (c : Cmd) (g : Group) {s : State} (h : s.Formed) (p : Nat × Nat) :
    (State.sendChunk a c g s p).1.Formed := by
  unfold State.sendChunk
  grind [← engRead, ← rwriteFlits]

theorem sendChunks {s : State} (h : s.Formed) (a : Agent) (c : Cmd) (g : Group) : (s.sendChunks a c g).1.Formed := by
  unfold State.sendChunks
  grind [← foldl, ← foldl_fst, ← engRead, ← sendChunk]

theorem startColl {s : State} (h : s.Formed) (core seq op : Nat) : (s.startColl core seq op).Formed := by
  unfold State.startColl
  grind [State.Formed, ← kept, ← failCmd, ← sendChunks, ← modCmd]

theorem execAllGather_formed (core seq : Nat) {s : State} (h : s.Formed) : NextFormed (execAllGather core seq s) := by
  unfold execAllGather
  grind [= next_formed, NextFormed, ← startColl]

theorem execReduceScatter_formed (core seq : Nat) {s : State} (h : s.Formed) : NextFormed (execReduceScatter core seq s) := by
  unfold execReduceScatter
  grind [= next_formed, NextFormed, ← startColl]

theorem execAllReduce_formed (core seq : Nat) {s : State} (h : s.Formed) : NextFormed (execAllReduce core seq s) := by
  unfold execAllReduce
  grind [= next_formed, NextFormed, ← startColl]

theorem closeChunk {s : State} (h : s.Formed) (core seq : Nat) (c : Cmd) (g : Group) (chunk st : Nat) :
    (s.closeChunk core seq c g chunk st).Formed := by
  unfold State.closeChunk
  grind [State.Formed, ← kept, ← modMem, ← modCmd, ← report]

theorem rangesReady {s : State} (h : s.Formed) (a : Agent) (ws : List (Nat × List Byte)) : (s.rangesReady a ws).1.Formed := by
  unfold State.rangesReady
  grind [← foldl, ← foldl_fst, ← engReady]

theorem writeRanges {s : State} (h : s.Formed) (a : Agent) (ws : List (Nat × List Byte)) : (s.writeRanges a ws).Formed := by
  unfold State.writeRanges
  grind [← foldl, ← engWrite]

theorem runChunk {s : State} (h : s.Formed) (core seq : Nat) (c : Cmd) (g : Group) (chunk : Nat) (ds : List (List Byte)) :
    (s.runChunk core seq c g chunk ds).Formed := by
  unfold State.runChunk
  extract_lets ag a
  have hread := h.engRead a (c.srcOf g.rank chunk) c.chunk
  split
  · next he => exact fst_eq he hread
  · next he => exact (fst_eq he hread).closeChunk ..
  · next t b he =>
    have ht : t.Formed := fst_eq he hread
    extract_lets ws
    have hready := rangesReady (s := { t with fresh := t.fresh + 1 }) ht a ws
    generalize ({ t with fresh := t.fresh + 1 } : State).rangesReady a ws = ready at hready ⊢
    grind [← closeChunk, ← writeRanges]

theorem execChunkCompletion_formed (core seq chunk : Nat) (peers : List (List Byte)) {s : State} (h : s.Formed) :
    NextFormed (execChunkCompletion core seq chunk peers s) := by
  unfold execChunkCompletion
  grind [= next_formed, NextFormed, ← closeChunk, ← runChunk]

theorem buildRow (j : BuildJob) {s : State} (h : s.Formed) (b : Built) (i : Nat) : (State.buildRow j s b i).1.Formed := by
  unfold State.buildRow
  grind [State.Formed, ← kept, ← agentRead]

theorem buildIndex {s : State} (h : s.Formed) (j : BuildJob) (n : Nat) : (s.buildIndex j n).1.Formed := by
  unfold State.buildIndex
  grind [← foldl, ← foldl_fst, ← buildRow]

theorem canonRows {s : State} (h : s.Formed) (zs : List (LineId × Nat × BitVec 16)) : (s.canonRows zs).Formed := by
  unfold State.canonRows
  grind [← foldl, ← agentWrite]

theorem execBuild_formed (core seq : Nat) {s : State} (h : s.Formed) : NextFormed (execBuild core seq s) := by
  unfold execBuild
  split
  · exact (next_formed s).mpr h
  · next c _ =>
    extract_lets ctx id d0 n kind
    split
    · exact (next_formed s).mpr h
    · split
      · exact (next_formed _).mpr (h.failCmd ..)
      · split
        · exact (next_formed _).mpr (h.failCmd ..)
        · split
          · exact (next_formed s).mpr h
          · split
            next t b hbuilt =>
            have ht : t.Formed := fst_eq hbuilt (h.buildIndex ..)
            have hcanon := ht.canonRows b.zeros
            split
            · next hback => exact (next_formed _).mpr (h.askBack _ _ _ hback)
            · split
              · have hu := ite (c := (!b.zeros.isEmpty && Config.freeBool t.fresh) = true) hcanon ht
                exact (next_formed _).mpr (finishCmd (show State.Formed _ from hu) ..)
              · exact (next_formed _).mpr (finishCmd (show State.Formed _ from hcanon) ..)

theorem modQueue {s : State} (h : s.Formed) (q : Nat) (f : Queue → Queue) : (s.modQueue q f).Formed := by
  unfold State.modQueue
  grind [State.Formed, ← kept]

theorem launchWaits {s : State} (h : s.Formed) (core seq : Nat) : (s.launchWaits core seq).Formed := by
  unfold State.launchWaits
  grind [State.Formed, ← kept, ← modCmd]

theorem execLaunch_formed (core seq : Nat) {s : State} (h : s.Formed) : NextFormed (execLaunch core seq s) := by
  unfold execLaunch
  grind [= next_formed, NextFormed, ← launchWaits, ← failCmd, ← finishCmd, ← modQueue]

theorem zeroChannel {s : State} (h : s.Formed) (ch : Nat) : (s.zeroChannel ch).Formed := by
  unfold State.zeroChannel
  extract_lets here s1
  have h1 : s1.Formed := h.modMem _ (.inr (Mem.wf_filter _ h.dram))
  exact Kept.mapCores h1 _ fun _ => rfl

theorem execSetaside_formed (core seq : Nat) {s : State} (h : s.Formed) : NextFormed (execSetaside core seq s) := by
  unfold execSetaside
  grind [= next_formed, NextFormed, State.Formed, ← kept, ← foldl, ← failCmd, ← finishCmd, → askBack, ← zeroChannel, ← modMem]

theorem dropTlb {s : State} (h : s.Formed) (bad : TlbE → Bool) : (s.dropTlb bad).Formed := by
  unfold State.dropTlb
  extract_lets keep s1
  have h1 : s1.Formed := h.modMem _ (.inl rfl)
  exact Kept.mapCores h1 _ fun _ => rfl

theorem execSetasideExpiry_formed (ch : Nat) {s : State} (h : s.Formed) : NextFormed (execSetasideExpiry ch s) := by
  unfold execSetasideExpiry
  grind [= next_formed, NextFormed, State.Formed, ← kept, ← foldl, ← failCmd, ← dropTlb, ← modMem]

end State.Formed

end Sys2Proof.Machine

end

