-- ==== Sys2Proof/Proofs/FormedHost.lean ====
section
/-! PROVED FACTS. Memory stays in canonical form (O58): attention, launch queues, stops, faults and the requests of the host. -/

namespace Sys2Proof.Machine

namespace State.Formed

/-! ### Attention and channels -/

theorem msuRange {s : State} (h : s.Formed) (a : Agent) (va n : Nat) : (s.msuRange a va n).1.Formed := by
  unfold State.msuRange
  grind [← foldl, ← foldl_fst, ← msuRead]

theorem msuRanges {s : State} (h : s.Formed) (a : Agent) (n : Nat) (vs : List Nat) : (s.msuRanges a n vs).1.Formed := by
  unfold State.msuRanges
  grind [← foldl, ← foldl_fst, ← msuRange]

theorem maskBits {s : State} (h : s.Formed) (a : Agent) (c : Cmd) : (s.maskBits a c).1.Formed := by
  unfold State.maskBits
  grind [← msuRange]

theorem resolve {s : State} (h : s.Formed) (die g ctx : Nat) (v : Version) (c : Cmd) (kh pg : Nat) :
    (s.resolve die g ctx v c kh pg).1.Formed := by
  unfold State.resolve
  grind [State.Formed, ← kept, ← mapRow, ← modMem]

theorem resolveAll {s : State} (h : s.Formed) (die ctx : Nat) (v : Version) (c : Cmd) (ks : List (Nat × Nat)) :
    (s.resolveAll die ctx v c ks).1.Formed := by
  unfold State.resolveAll
  grind [← foldl, ← foldl_fst, ← resolve]

theorem pageKV {s : State} (h : s.Formed) (a : Agent) (c : Cmd) (rb : Nat) (e : Nat × Nat × Nat × Nat) : (s.pageKV a c rb e).1.Formed := by
  unfold State.pageKV
  grind [← msuRanges]

theorem pagesKV {s : State} (h : s.Formed) (a : Agent) (c : Cmd) (rb : Nat) : (s.pagesKV a c rb).1.Formed := by
  unfold State.pagesKV
  grind [← foldl, ← foldl_fst, ← pageKV]

theorem quarantine {s : State} (h : s.Formed) (die ctx : Nat) (c : Cmd) (p : PageKV) : (s.quarantine die ctx c p).Formed := by
  unfold State.quarantine
  grind [State.Formed, ← kept, ← foldl, ← rowWrite, ← modMem, ← ctxEvent]

theorem attendStart {s : State} (h : s.Formed) (core seq : Nat) (c : Cmd) : (s.attendStart core seq c).Formed := by
  unfold State.attendStart
  grind [State.Formed, ← kept, ← failCmd, ← maskBits, ← resolveAll, ← modCmd]

theorem msuPut {s : State} (h : s.Formed) (a : Agent) (va : Nat) (b : List Byte) : (s.msuPut a va b).Formed := by
  unfold State.msuPut
  grind [← foldl, ← msuLine, ← msuWrite]

theorem msuReady {s : State} (h : s.Formed) (a : Agent) (va n : Nat) : (s.msuReady a va n).1.Formed := by
  unfold State.msuReady
  grind [← foldl, ← foldl_fst, ← msuLine]

theorem attendStore {s : State} (h : s.Formed) (core seq : Nat) (c : Cmd) (bits q : List Byte) (ps : List PageKV) :
    (s.attendStore core seq c bits q ps).Formed := by
  unfold State.attendStore
  grind [← foldl, ← msuPut, ← quarantine, ← finishCmd, ← msuInval]

theorem attendRun {s : State} (h : s.Formed) (core seq : Nat) (c : Cmd) : (s.attendRun core seq c).Formed := by
  unfold State.attendRun
  extract_lets a
  split
  next t gm he =>
  have ht : t.Formed := fst_eq he (h.maskBits ..)
  split
  next u gq he =>
  have hu : u.Formed := fst_eq he (ht.msuRange ..)
  split
  next v gp he =>
  have hv : v.Formed := fst_eq he (hu.pagesKV ..)
  split
  next x go he =>
  have hx : x.Formed := fst_eq he (hv.msuReady ..)
  grind [← failCmd, → askBack, ← attendStore]

theorem execAttend_formed (core seq : Nat) {s : State} (h : s.Formed) : NextFormed (execAttend core seq s) := by
  unfold execAttend
  grind [= next_formed, NextFormed, ← attendRun, ← attendStart]

theorem execMapinv_formed (core seq : Nat) {s : State} (h : s.Formed) : NextFormed (execMapinv core seq s) := by
  unfold execMapinv
  grind [= next_formed, NextFormed, State.Formed, ← kept, ← finishCmd, ← failCmd, ← modMem, ← modCmd]

/-! ### Launch queues and placement -/

theorem completePkt {s : State} (h : s.Formed) (q idx status : Nat) : (s.completePkt q idx status).Formed := by
  unfold State.completePkt
  grind [State.Formed, ← kept, ← modQueue, ← complete, ← msix]

theorem bumpCounter {s : State} (h : s.Formed) (ctx i op : Nat) (v : DWord) : (s.bumpCounter ctx i op v).Formed := by
  unfold State.bumpCounter
  grind [State.Formed, ← kept, ← modCtx]

theorem execPacketStart_formed (q : Nat) {s : State} (h : s.Formed) : NextFormed (execPacketStart q s) := by
  unfold execPacketStart
  grind [= next_formed, NextFormed, State.Formed, ← kept, ← modQueue, ← completePkt]

theorem execKernel_formed (q idx : Nat) {s : State} (h : s.Formed) : NextFormed (execKernel q idx s) := by
  unfold execKernel
  grind [= next_formed, NextFormed, State.Formed, ← kept, ← completePkt]

theorem execWait_formed (q idx : Nat) {s : State} (h : s.Formed) : NextFormed (execWait q idx s) := by
  unfold execWait
  grind [= next_formed, NextFormed, ← completePkt]

theorem execSignal_formed (q idx : Nat) {s : State} (h : s.Formed) : NextFormed (execSignal q idx s) := by
  unfold execSignal
  grind [= next_formed, NextFormed, ← completePkt, ← bumpCounter]

theorem placeFresh {s : State} (h : s.Formed) (g : Grid) (core teamId : Nat) : (s.placeFresh g core teamId).Formed := by
  unfold State.placeFresh
  refine ⟨h.dram, fun t ht => ?_, h.cores⟩
  obtain hold | hnew := List.mem_append.mp ht
  · exact h.teams t hold
  · rw [List.mem_singleton.mp hnew]
    exact ⟨rfl, rfl⟩

theorem placeDom {s : State} (h : s.Formed) (core : Nat) (ws : List Warp) (d : Domain) : (s.placeDom core ws d).Formed := by
  unfold State.placeDom
  grind [State.Formed, ← kept]

theorem placeLone {s : State} (h : s.Formed) (core : Nat) (w : Warp) : (s.placeLone core w).Formed := by
  unfold State.placeLone
  grind [State.Formed, ← kept]

theorem putRes {s : State} (h : s.Formed) (core : Nat) (t0 : Team) (shift : Nat) (r : Reservation) :
    (s.putRes core t0 shift r).Formed :=
  h.modCore _ _ fun _ hk => Mem.wf_write hk _ _

theorem placeTeam {s : State} (h : s.Formed) (core other : Nat) (t0 : Team) : (s.placeTeam core other t0).Formed := by
  unfold State.placeTeam
  extract_lets s1 s2 s3
  have h1 : s1.Formed := h.foldl _ _ fun _ r ht => ht.putRes ..
  have h2 : s2.Formed := h1.foldl _ _ fun _ r ht => ht.putRes ..
  have h3 : s3.Formed := h2.modCore _ _ fun _ hk => hk
  exact h3.modTeam _ _ fun _ ht => ⟨ht.1, rfl⟩

theorem placeSaved {s : State} (h : s.Formed) (g : Grid) (k0 k1 : Nat) (uids : List Nat) : (s.placeSaved g k0 k1 uids).Formed := by
  unfold State.placeSaved
  grind [← foldl, ← placeDom, ← placeLone, ← placeTeam, ← checkBars]

theorem execTeamPlacement_formed (die : Nat) {s : State} (h : s.Formed) : NextFormed (execTeamPlacement die s) := by
  unfold execTeamPlacement
  grind [= next_formed, NextFormed, State.Formed, ← kept, ← foldl, ← placeSaved, ← placeFresh, ← modGrid]

theorem freeTeam {s : State} (h : s.Formed) (t0 : Team) : (s.freeTeam t0).Formed := by
  unfold State.freeTeam
  extract_lets g owner s1 last free s2
  have h1 : s1.Formed := ⟨h.dram, fun t ht => h.teams t (List.mem_of_mem_filter ht), h.cores⟩
  have h2 : s2.Formed := Kept.mapCores h1 _ fun _ => rfl
  refine .ite h1 ?_
  split
  · exact h2.foldl _ _ fun _ c ht => ht.grantIdle c
  · exact h2

theorem execTeamRetirement_formed (grid team : Nat) {s : State} (h : s.Formed) : NextFormed (execTeamRetirement grid team s) := by
  unfold execTeamRetirement
  grind [= next_formed, NextFormed, State.Formed, ← kept, ← modGrid, ← freeTeam]

theorem unpinGrid {s : State} (h : s.Formed) (g : Nat) : (s.unpinGrid g).Formed := by
  unfold State.unpinGrid
  grind [State.Formed, ← kept]

theorem execGridEnd_formed (grid : Nat) {s : State} (h : s.Formed) : NextFormed (execGridEnd grid s) := by
  unfold execGridEnd
  grind [= next_formed, NextFormed, State.Formed, ← kept, ← freeVersions, ← unpinGrid, ← completePkt]

/-! ### Grants and stops -/

theorem noteReady {s : State} (h : s.Formed) : s.noteReady.Formed := by
  unfold State.noteReady
  grind [State.Formed, ← kept]

theorem streaks {s : State} (h : s.Formed) (w : Warp) : (s.streaks w).Formed := by
  unfold State.streaks
  grind [State.Formed, ← kept]

theorem startRun {s : State} (h : s.Formed) (w : Warp) (islot : Nat) (pc : Word) (lanes : List Nat) :
    (s.startRun w islot pc lanes).Formed := by
  unfold State.startRun
  grind [State.Formed, ← kept, ← streaks, ← dropSelf, ← count, ← modWarp, ← freeVersions]

theorem execRunIssue_formed (core islot : Nat) {s : State} (h : s.Formed) : NextFormed (execRunIssue core islot s) := by
  unfold execRunIssue
  split
  · exact (next_formed s).mpr h
  · split
    · exact (next_formed _).mpr (show State.Formed _ from h)
    · have hnaps := h.passNaps core
      generalize s.passNaps core = t at hnaps ⊢
      grind [= next_formed, ← modWarp, ← startRun]

theorem reply {s : State} (h : s.Formed) (iface index type status data : Nat) : (s.reply iface index type status data).Formed := by
  unfold State.reply
  grind [← msix, ← complete]

theorem answer {s : State} (h : s.Formed) (p : Packet) (status data : Nat) : (s.answer p status data).Formed := by
  unfold State.answer
  grind [← reply]

theorem request {s : State} (h : s.Formed) (p : Packet) (admin ok : Bool) {f : State} (hf : f.Formed) :
    (s.request p admin ok f).Formed := by
  unfold State.request
  grind [← answer]

theorem addStop {s : State} (h : s.Formed) (ctx : Nat) (m : BitVec 128) (deadline : Nat) (reply : Option (Nat × Nat)) :
    (s.addStop ctx m deadline reply).Formed := by
  unfold State.addStop
  grind [State.Formed, ← kept]

theorem grantPairs {s : State} (h : s.Formed) (c : Ctx) (m : BitVec 128) (t0 : Nat) : (s.grantPairs c m t0).Formed := by
  unfold State.grantPairs
  grind [State.Formed, ← kept, ← addStop, ← modCtx]

theorem execGrant_formed (p : Packet) {s : State} (h : s.Formed) : NextFormed (execGrant p s) := by
  unfold execGrant
  grind [= next_formed, NextFormed, ← request, ← answer, ← grantPairs]

theorem execStop_formed (p : Packet) {s : State} (h : s.Formed) : NextFormed (execStop p s) := by
  unfold execStop
  grind [= next_formed, NextFormed, ← request, ← answer, ← addStop]

theorem stopLeases {s : State} (h : s.Formed) (e : StopE) : (s.stopLeases e).Formed := by
  unfold State.stopLeases
  grind [← foldl, ← endLeases]

theorem execStopDelivery_formed (id : Nat) {s : State} (h : s.Formed) : NextFormed (execStopDelivery id s) := by
  unfold execStopDelivery
  grind [= next_formed, NextFormed, State.Formed, ← kept, ← stopLeases]

theorem execWarpSave_formed (core slot : Nat) {s : State} (h : s.Formed) : NextFormed (execWarpSave core slot s) := by
  unfold execWarpSave
  grind [= next_formed, NextFormed, State.Formed, ← kept, ← modTeam]

theorem takeRes {s : State} (h : s.Formed) (t0 owner core up : Nat) : (s.takeRes t0 owner core up).Formed := by
  unfold State.takeRes
  extract_lets k mine s1
  have h1 : s1.Formed := h.modCore _ _ fun _ hk => hk
  refine h1.modTeam _ _ fun t ht => ?_
  exact List.foldlRecOn (motive := fun u : Team => u.scratch.wf = true ∧ u.resMem.wf = true) mine _ ht
    fun u hu r _ => ⟨hu.1, Mem.wf_write hu.2 _ _⟩

theorem saveTeam {s : State} (h : s.Formed) (t0 : Team) (core : Nat) : (s.saveTeam t0 core).Formed := by
  unfold State.saveTeam
  grind [State.Formed, ← kept, ← modCore, ← modTeam, ← takeRes]

theorem execDrainEnd_formed (id : Nat) {s : State} (h : s.Formed) : NextFormed (execDrainEnd id s) := by
  unfold execDrainEnd
  split
  · exact (next_formed s).mpr h
  · split
    · exact (next_formed s).mpr h
    · next e _ _ =>
      extract_lets late s1 s2 s3 sch s4
      have h2 : s2.Formed := (h.stopLeases e).foldl _ _ fun _ p ht => ht.saveTeam ..
      have h3 : s3.Formed := h2.modCtx ..
      have h4 : s4.Formed := h3
      clear_value s4
      grind [= next_formed, ← reply]

/-! ### Answers to faults -/

theorem answered {s : State} (h : s.Formed) (id : Nat) : (s.answered id).Formed := by
  unfold State.answered
  grind [State.Formed, ← kept]

theorem faultReply {s : State} (h : s.Formed) (p : Packet)
    (f : HFault → Warp → State → State) (hf : ∀ a b c, c.Formed → (f a b c).Formed) : (s.faultReply p f).Formed := by
  unfold State.faultReply
  grind [← request, ← answer, ← answered]

theorem retryFault_formed (h0 : HFault) (w : Warp) {s : State} (h : s.Formed) : (retryFault h0 w s).Formed := by
  unfold retryFault
  grind [State.Formed, ← kept, ← modWarpU, ← restart]

theorem execFaultreplyRetry_formed (p : Packet) {s : State} (h : s.Formed) : NextFormed (execFaultreplyRetry p s) := by
  unfold execFaultreplyRetry
  grind [= next_formed, NextFormed, ← faultReply, ← retryFault_formed]

theorem execFaultreplyDeliver_formed (p : Packet) {s : State} (h : s.Formed) : NextFormed (execFaultreplyDeliver p s) := by
  unfold execFaultreplyDeliver
  grind [= next_formed, NextFormed, ← faultReply, ← deliver]

theorem execFaultreplyAbort_formed (p : Packet) {s : State} (h : s.Formed) : NextFormed (execFaultreplyAbort p s) := by
  unfold execFaultreplyAbort
  grind [= next_formed, NextFormed, ← faultReply, ← abortGrid]

theorem execFaultreplyRefused_formed (p : Packet) {s : State} (h : s.Formed) : NextFormed (execFaultreplyRefused p s) := by
  unfold execFaultreplyRefused
  grind [= next_formed, NextFormed, ← request, ← answer]

/-! ### Requests of the host -/

theorem ctxRequest {s : State} (h : s.Formed) (p : Packet) (admin ok : Bool) (f : Ctx → State) (hf : ∀ a, (f a).Formed) :
    (s.ctxRequest p admin ok f).Formed := by
  unfold State.ctxRequest
  grind [← request, ← answer]

theorem setCtx {s : State} (h : s.Formed) (id owner : Nat) (c : List DWord) : (s.setCtx id owner c).Formed := by
  unfold State.setCtx
  grind [State.Formed, ← kept, ← modCtx]

theorem execCtxdesc_formed (p : Packet) {s : State} (h : s.Formed) : NextFormed (execCtxdesc p s) := by
  unfold execCtxdesc
  grind [= next_formed, NextFormed, ← request, ← answer, ← setCtx]

theorem putTable {s : State} (h : s.Formed) (ctx id n : Nat) (d0 d1 d2 d3 : DWord) : (s.putTable ctx id n d0 d1 d2 d3).Formed := by
  unfold State.putTable
  grind [State.Formed, ← kept, ← freeVersions]

theorem execTabledesc_formed (p : Packet) {s : State} (h : s.Formed) : NextFormed (execTabledesc p s) := by
  unfold execTabledesc
  grind [= next_formed, NextFormed, ← ctxRequest, ← answer, ← putTable]

theorem addSlow {s : State} (h : s.Formed) (p : Packet) (word : Nat) : (s.addSlow p word).Formed := by
  unfold State.addSlow
  grind [State.Formed, ← kept]

theorem endSlow {s : State} (h : s.Formed) (p : Packet) (data : Nat) : (s.endSlow p data).Formed := by
  unfold State.endSlow
  grind [State.Formed, ← kept, ← answer]

theorem dropWalked {s : State} (h : s.Formed) (ctx base len : Nat) : (s.dropWalked ctx base len).Formed := by
  unfold State.dropWalked
  grind [State.Formed, ← kept]

theorem execTlbinv_formed (p : Packet) {s : State} (h : s.Formed) : NextFormed (execTlbinv p s) := by
  unfold execTlbinv
  grind [= next_formed, NextFormed, ← endSlow, ← ctxRequest, ← dropWalked, ← dropTlb, ← addSlow, ← answer]

theorem execNcrange_formed (p : Packet) {s : State} (h : s.Formed) : NextFormed (execNcrange p s) := by
  unfold execNcrange
  grind [= next_formed, NextFormed, State.Formed, ← kept, ← request, ← answer, ← modMem]

theorem execDedicate_formed (p : Packet) {s : State} (h : s.Formed) : NextFormed (execDedicate p s) := by
  unfold execDedicate
  grind [= next_formed, NextFormed, State.Formed, ← kept, ← request, ← answer, ← modMem]

theorem execGroup_formed (p : Packet) {s : State} (h : s.Formed) : NextFormed (execGroup p s) := by
  unfold execGroup
  grind [= next_formed, NextFormed, State.Formed, ← kept, ← ctxRequest, ← answer, ← modCtx]

theorem execDomain_formed (p : Packet) {s : State} (h : s.Formed) : NextFormed (execDomain p s) := by
  unfold execDomain
  grind [= next_formed, NextFormed, State.Formed, ← kept, ← request, ← answer]

theorem execQrestart_formed (p : Packet) {s : State} (h : s.Formed) : NextFormed (execQrestart p s) := by
  unfold execQrestart
  grind [= next_formed, NextFormed, State.Formed, ← kept, ← request, ← answer, ← modQueue]

theorem execQbindBind_formed (p : Packet) {s : State} (h : s.Formed) : NextFormed (execQbindBind p s) := by
  unfold execQbindBind
  grind [= next_formed, NextFormed, State.Formed, ← kept, ← ctxRequest, ← answer, ← modQueue]

theorem execQbindUnbind_formed (p : Packet) {s : State} (h : s.Formed) : NextFormed (execQbindUnbind p s) := by
  unfold execQbindUnbind
  grind [= next_formed, NextFormed, State.Formed, ← kept, ← request, ← answer, ← modQueue]

theorem flushEvents {s : State} (h : s.Formed) (i : Nat) : (s.flushEvents i).Formed := by
  unfold State.flushEvents
  grind [State.Formed, ← kept, ← foldl, ← event]

theorem execRingcfg_formed (p : Packet) {s : State} (h : s.Formed) : NextFormed (execRingcfg p s) := by
  unfold execRingcfg
  grind [= next_formed, NextFormed, State.Formed, ← kept, ← request, ← answer, ← flushEvents]

theorem evctr {s : State} (h : s.Formed) (p : Packet) (op : Nat) : (s.evctr p op).Formed := by
  unfold State.evctr
  grind [← ctxRequest, ← answer, ← bumpCounter]

theorem execEvctrSet_formed (p : Packet) {s : State} (h : s.Formed) : NextFormed (execEvctrSet p s) := by
  unfold execEvctrSet
  grind [= next_formed, NextFormed, ← evctr]

theorem execEvctrAdd_formed (p : Packet) {s : State} (h : s.Formed) : NextFormed (execEvctrAdd p s) := by
  unfold execEvctrAdd
  grind [= next_formed, NextFormed, ← evctr]

theorem execPasidGrant_formed (p : Packet) {s : State} (h : s.Formed) : NextFormed (execPasidGrant p s) := by
  unfold execPasidGrant
  grind [= next_formed, NextFormed, State.Formed, ← kept, ← request, ← answer]

theorem execPasidRevoke_formed (p : Packet) {s : State} (h : s.Formed) : NextFormed (execPasidRevoke p s) := by
  unfold execPasidRevoke
  grind [= next_formed, NextFormed, State.Formed, ← kept, ← request, ← answer]

theorem drainBins {s : State} (h : s.Formed) (ctx : Nat) : (s.drainBins ctx).Formed := by
  unfold State.drainBins
  grind [State.Formed, ← kept]

theorem freeCtx {s : State} (h : s.Formed) (ctx : Nat) : (s.freeCtx ctx).Formed := by
  unfold State.freeCtx
  grind [State.Formed, ← kept, ← dropTlb]

theorem execDestroy_formed (p : Packet) {s : State} (h : s.Formed) : NextFormed (execDestroy p s) := by
  unfold execDestroy
  grind [= next_formed, NextFormed, ← foldl, ← drainBins, ← endSlow, ← freeCtx, ← ctxRequest, ← abortGrid, ← addSlow]

theorem modDie {s : State} (h : s.Formed) (d : Nat) (f : Die → Die) : (s.modDie d f).Formed := by
  unfold State.modDie
  grind [State.Formed, ← kept]

theorem execClock_formed (p : Packet) {s : State} (h : s.Formed) : NextFormed (execClock p s) := by
  unfold execClock
  grind [= next_formed, NextFormed, State.Formed, ← kept, ← foldl, ← endSlow, ← request, ← addSlow, ← modDie]

theorem setClock {s : State} (h : s.Formed) (d v : Nat) : (s.setClock d v).Formed := by
  unfold State.setClock
  grind [← modDie, ← traceSync, ← resync]

theorem execClockChange_formed (die : Nat) {s : State} (h : s.Formed) : NextFormed (execClockChange die s) := by
  unfold execClockChange
  grind [= next_formed, NextFormed, ← setClock]

theorem execUnknownControlPacket_formed (p : Packet) {s : State} (h : s.Formed) : NextFormed (execUnknownControlPacket p s) := by
  unfold execUnknownControlPacket
  grind [= next_formed, NextFormed, ← answer]

/-! ### Rings -/

theorem fetchRing {s : State} (h : s.Formed) (iface r : Nat) (tail : DWord) (pasid : Option (BitVec 20)) (ps : List Packet)
    {p} (hp : s.fetchRing iface r tail pasid ps = some p) : p.1.Formed := by
  unfold State.fetchRing at hp
  grind [State.Formed, ← kept]

theorem takeControl {s : State} (h : s.Formed) (p : Packet) : (s.takeControl p).1.Formed := by
  unfold State.takeControl
  grind [← answer]

theorem execCdb_formed (iface : Nat) (tail : DWord) (pasid : Option (BitVec 20)) (ps : List Packet) {s : State} (h : s.Formed) :
    NextFormed (execCdb iface tail pasid ps s) := by
  unfold execCdb
  split
  · exact (next_formed s).mpr h
  · next t qs hfetch =>
    have ht : t.Formed := h.fetchRing _ _ _ _ _ hfetch
    refine (next_formed _).mpr (kept (s := (List.foldl _ (t, []) qs).1) ?_)
    exact foldl_fst (p := (t, [])) ht _ fun q p hq => hq.takeControl p

theorem takeLaunch {s : State} (h : s.Formed) (ring : Nat) (p : Packet) : (s.takeLaunch ring p).Formed := by
  unfold State.takeLaunch
  grind [← complete, ← modQueue]

theorem execLdb_formed (iface ring : Nat) (tail : DWord) (pasid : Option (BitVec 20)) (ps : List Packet) {s : State} (h : s.Formed) :
    NextFormed (execLdb iface ring tail pasid ps s) := by
  unfold execLdb
  grind [= next_formed, NextFormed, ← foldl, → fetchRing, ← takeLaunch]

end State.Formed

end Sys2Proof.Machine

end

