-- ==== Sys2Proof/Proofs/FormedModule.lean ====
section
/-! PROVED FACTS. Memory stays in canonical form (O58): links, clocks, traces, the debugger, bring-up and errors. -/

namespace Sys2Proof.Machine

namespace State.Formed

/-! ### Links -/

theorem peerReq {s : State} (h : s.Formed) (l : LineId) (a : BitVec 16) (ops : List LineOp) (deps : List Nat) :
    (s.peerReq l a ops deps).1.Formed := by
  unfold State.peerReq
  grind [← addReq]

theorem owe {s : State} (h : s.Formed) (id : Nat) (f : Flit) : (s.owe id f).Formed := by
  unfold State.owe
  grind [State.Formed, ← kept]

theorem deny {s : State} (h : s.Formed) (f : Flit) (c : Option Code) : (s.deny f c).Formed := by
  unfold State.deny
  grind [← sendFlit]

theorem servePeer {s : State} (h : s.Formed) (f : Flit) (n : Nat) (write : Bool) (ops : Nat → List LineOp) :
    (s.servePeer f n write ops).Formed := by
  unfold State.servePeer
  grind [← deny, ← peerReq, ← owe]

theorem execRdreq_formed (f : Flit) {s : State} (h : s.Formed) : NextFormed (execRdreq f s) := by
  unfold execRdreq
  grind [= next_formed, NextFormed, ← servePeer]

theorem execWr_formed (f : Flit) {s : State} (h : s.Formed) : NextFormed (execWr f s) := by
  unfold execWr
  grind [= next_formed, NextFormed, ← servePeer]

theorem peerCount {s : State} (h : s.Formed) (f : Flit) (l : LineId) (a : BitVec 16) (deps : List Nat) :
    (s.peerCount f l a deps).Formed := by
  unfold State.peerCount
  grind [← peerReq, ← owe]

theorem execWrcb_formed (f : Flit) {s : State} (h : s.Formed) : NextFormed (execWrcb f s) := by
  unfold execWrcb
  grind [= next_formed, NextFormed, ← deny, ← peerReq, ← peerCount]

theorem dropFlit {s : State} (h : s.Formed) (f : Flit) : (s.dropFlit f).Formed := by
  unfold State.dropFlit
  grind [← msix, ← send]

theorem execAtomFlit_formed (f : Flit) {s : State} (h : s.Formed) : NextFormed (execAtomFlit f s) := by
  unfold execAtomFlit
  grind [= next_formed, NextFormed, ← dropFlit, ← deny, ← servePeer]

theorem unask {s : State} (h : s.Formed) (p : PeerReq) : (s.unask p).Formed := by
  unfold State.unask
  grind [State.Formed, ← kept]

theorem noteCb {s : State} (h : s.Formed) (p : PeerReq) (code : Nat) : (s.noteCb p code).Formed := by
  unfold State.noteCb
  grind [State.Formed, ← kept, ← modWarpU]

theorem uncount {s : State} (h : s.Formed) (warp pend : Nat) (lanes : List Nat) : (s.uncount warp pend lanes).Formed := by
  unfold State.uncount
  grind [State.Formed, ← kept, ← foldl, ← modMem, ← finishReq, ← unask]

theorem peerFails {s : State} (h : s.Formed) (p : PeerReq) (c : Code) : (s.peerFails p c).Formed := by
  unfold State.peerFails
  grind [State.Formed, ← kept, ← unask, ← hostDone, ← noteCb, ← modWarpU, ← finishReq, ← uncount, ← raiseLanes]

theorem peerDone {s : State} (h : s.Formed) (p : PeerReq) (d : List Byte) (q : BitVec 4) (rs : List LaneRes) :
    (s.peerDone p d q rs).Formed := by
  unfold State.peerDone
  grind [← unask, ← hostDone, ← noteCb, ← finishReq]

theorem answered_ {s : State} (h : s.Formed) (f : Flit) (ok : LineOp → Bool) (rs : LineOp → List LaneRes) :
    (s.answered_ f ok rs).Formed := by
  unfold State.answered_
  grind [← peerFails, ← peerDone]

theorem execRdrsp_formed (f : Flit) {s : State} (h : s.Formed) : NextFormed (execRdrsp f s) := by
  unfold execRdrsp
  grind [= next_formed, NextFormed, ← answered_]

theorem execAtomrsp_formed (f : Flit) {s : State} (h : s.Formed) : NextFormed (execAtomrsp f s) := by
  unfold execAtomrsp
  grind [= next_formed, NextFormed, ← answered_]

theorem execWrack_formed (f : Flit) {s : State} (h : s.Formed) : NextFormed (execWrack f s) := by
  unfold execWrack
  grind [= next_formed, NextFormed, ← answered_]

theorem execRwrite_formed (f : Flit) {s : State} (h : s.Formed) : NextFormed (execRwrite f s) := by
  unfold execRwrite
  grind [= next_formed, NextFormed, State.Formed, ← kept]

theorem execCredit_formed (f : Flit) {s : State} (h : s.Formed) : NextFormed (execCredit f s) := by
  unfold execCredit
  grind [= next_formed, NextFormed]

theorem execUnknownFlit_formed (f : Flit) {s : State} (h : s.Formed) : NextFormed (execUnknownFlit f s) := by
  unfold execUnknownFlit
  grind [= next_formed, NextFormed, ← dropFlit]

theorem execFlitCrcRetry_formed (f : Flit) {s : State} (h : s.Formed) : NextFormed (execFlitCrcRetry f s) := by
  unfold execFlitCrcRetry
  grind [= next_formed, NextFormed]

theorem markLoss {s : State} (h : s.Formed) : s.markLoss.Formed :=
  Kept.mapCores h _ fun _ => rfl

theorem failPort {s : State} (h : s.Formed) (port : Nat) : (s.failPort port).Formed := by
  unfold State.failPort
  grind [State.Formed, ← kept, ← foldl, ← machineRecord, ← markLoss, ← peerFails]

theorem execPortFailure_formed (port : Nat) {s : State} (h : s.Formed) : NextFormed (execPortFailure port s) := by
  unfold execPortFailure
  grind [= next_formed, NextFormed, ← failPort]

/-! ### Clocks, traces and the debugger -/

theorem countUse {s : State} (h : s.Formed) (cs : List Nat) : (s.countUse cs).Formed := by
  unfold State.countUse
  extract_lets n units cores ready idle trace s1
  have hcores : ∀ k ∈ cores, k.opbuf.wf = true := by
    intro k hk
    obtain ⟨⟨c, i⟩, hc, rfl⟩ := List.mem_map.mp hk
    exact h.cores c (List.fst_mem_of_mem_zipIdx hc)
  have h1 : s1.Formed := ⟨h.dram, h.teams, hcores⟩
  exact .ite h (h1.foldl _ _ fun _ c ht => ht.count ..)

theorem pass {s : State} (h : s.Formed) (dt : Nat) : (s.pass dt).Formed := by
  unfold State.pass
  grind [State.Formed, ← kept, ← countUse]

theorem execHeartbeatTick_formed {s : State} (h : s.Formed) : NextFormed (execHeartbeatTick s) := by
  unfold execHeartbeatTick
  grind [= next_formed, NextFormed, State.Formed, ← kept, ← pass]

theorem countersRec {s : State} (h : s.Formed) (c : Nat) : (s.countersRec c).Formed := by
  unfold State.countersRec
  grind [← traceRec]

theorem unitsRec {s : State} (h : s.Formed) (d : Nat) : (s.unitsRec d).Formed := by
  unfold State.unitsRec
  grind [← traceRec]

theorem execCountersLatch_formed {s : State} (h : s.Formed) : NextFormed (execCountersLatch s) := by
  unfold execCountersLatch
  extract_lets s1
  have hcounted : ((List.range 256).foldl State.countersRec s).Formed := h.foldl _ _ fun _ c ht => ht.countersRec c
  have h1 : s1.Formed := .ite (hcounted.foldl _ _ fun _ d ht => ht.unitsRec d) h
  split
  · exact (next_formed s).mpr h
  · exact (next_formed _).mpr (Kept.mapCores h1 _ fun _ => rfl)

theorem execSync_formed (die : Nat) {s : State} (h : s.Formed) : NextFormed (execSync die s) := by
  unfold execSync
  grind [= next_formed, NextFormed, State.Formed, ← kept, ← modDie, ← traceRaw, ← resync]

theorem writeControl {s : State} (h : s.Formed) (v : DWord) : (s.writeControl v).Formed := by
  unfold State.writeControl
  grind [State.Formed, ← kept]

theorem execTraceControlWrite_formed (admin : Bool) (v : DWord) {s : State} (h : s.Formed) :
    NextFormed (execTraceControlWrite admin v s) := by
  unfold execTraceControlWrite
  grind [= next_formed, NextFormed, ← writeControl]

theorem writeDacc {s : State} (h : s.Formed) (v : DWord) : (s.writeDacc v).Formed := by
  unfold State.writeDacc
  grind [State.Formed, ← kept, ← modWarp]

theorem execDaccAccess_formed (admin : Bool) (v : DWord) {s : State} (h : s.Formed) : NextFormed (execDaccAccess admin v s) := by
  unfold execDaccAccess
  grind [= next_formed, NextFormed, ← writeDacc]

theorem execDebuggerRequest_formed (admin : Bool) (v : DWord) {s : State} (h : s.Formed) : NextFormed (execDebuggerRequest admin v s) := by
  unfold execDebuggerRequest
  grind [= next_formed, NextFormed, ← writeDacc]

theorem writeResume {s : State} (h : s.Formed) (v : DWord) : (s.writeResume v).Formed := by
  unfold State.writeResume
  grind [State.Formed, ← kept, ← modWarp]

theorem execResume_formed (admin : Bool) (v : DWord) {s : State} (h : s.Formed) : NextFormed (execResume admin v s) := by
  unfold execResume
  grind [= next_formed, NextFormed, ← writeResume]

theorem execDebugStop_formed (core slot : Nat) {s : State} (h : s.Formed) : NextFormed (execDebugStop core slot s) := by
  unfold execDebugStop
  grind [= next_formed, NextFormed, State.Formed, ← kept, ← modWarp, ← traceCore]

/-! ### Bring-up -/

theorem modBoot {s : State} (h : s.Formed) (f : Boot → Boot) : (s.modBoot f).Formed := by
  unfold State.modBoot
  grind [State.Formed, ← kept]

theorem reset : State.reset.Formed where
  dram := rfl
  teams t ht := absurd ht List.not_mem_nil
  cores k hk := by
    rw [List.eq_of_mem_replicate hk]
    rfl

theorem execResetRelease_formed (s : State) : NextFormed (execResetRelease s) :=
  (next_formed _).mpr (show State.Formed _ from reset)

theorem zeroAll {s : State} (h : s.Formed) : s.zeroAll.Formed :=
  h.modMem _ (.inr rfl)

theorem execSelfTestStageCompletion_formed (r : StageResult) (fw : Option Firmware) {s : State} (h : s.Formed) :
    NextFormed (execSelfTestStageCompletion r fw s) := by
  unfold execSelfTestStageCompletion
  grind [= next_formed, NextFormed, State.Formed, ← kept, ← modBoot, ← zeroAll]

theorem writeAgo {s : State} (h : s.Formed) (v : DWord) : (s.writeAgo v).Formed := by
  unfold State.writeAgo
  grind [State.Formed, ← kept, ← modBoot]

theorem execAgo_formed (admin : Bool) (v : DWord) {s : State} (h : s.Formed) : NextFormed (execAgo admin v s) := by
  unfold execAgo
  grind [= next_formed, NextFormed, ← writeAgo]

theorem modWatch {s : State} (h : s.Formed) (i : Nat) (f : Watch → Watch) : (s.modWatch i f).Formed := by
  unfold State.modWatch
  grind [State.Formed, ← kept, ← modCore]

theorem writeTrace {s : State} (h : s.Formed) (off : Nat) (v : DWord) : (s.writeTrace off v).Formed := by
  unfold State.writeTrace
  grind [State.Formed, ← kept, ← writeControl, ← writeDacc, ← writeResume, ← modWatch]

theorem writeStatus {s : State} (h : s.Formed) (off : Nat) (v : DWord) : (s.writeStatus off v).Formed := by
  unfold State.writeStatus
  grind [State.Formed, ← kept, ← modBoot, ← writeAgo]

theorem writeNotify {s : State} (h : s.Formed) (iface off : Nat) (v : DWord) : (s.writeNotify iface off v).Formed := by
  unfold State.writeNotify
  grind [State.Formed, ← kept, ← flushEvents]

theorem execRegisterWrite_formed (admin : Bool) (page : Page) (off : Nat) (v : DWord) {s : State} (h : s.Formed) :
    NextFormed (execRegisterWrite admin page off v s) := by
  unfold execRegisterWrite
  grind [= next_formed, NextFormed, ← writeNotify, ← writeTrace, ← writeStatus]

theorem halt {s : State} (h : s.Formed) : s.halt.Formed := by
  have hcores : Kept s.mem.dram s.teams s.halt.cores := Kept.mapCores h _ fun _ => rfl
  exact ⟨h.dram, fun t ht => absurd ht List.not_mem_nil, hcores.cores⟩

theorem execAlarm_formed {s : State} (h : s.Formed) : NextFormed (execAlarm s) := by
  unfold execAlarm
  grind [= next_formed, NextFormed, State.Formed, ← kept, ← modBoot, ← halt]

theorem setHeat {s : State} (h : s.Formed) (die h0 : Nat) : (s.setHeat die h0).Formed := by
  unfold State.setHeat
  grind [State.Formed, ← kept, ← modDie, ← setClock]

theorem heatStep {s : State} (h : s.Formed) (die h0 : Nat) : (s.heatStep die h0).Formed := by
  unfold State.heatStep
  grind [State.Formed, ← kept, ← setHeat, ← modDie]

theorem execThermalStepDown_formed (die : Nat) {s : State} (h : s.Formed) : NextFormed (execThermalStepDown die s) := by
  unfold execThermalStepDown
  grind [= next_formed, NextFormed, ← heatStep]

theorem execThermalStepUp_formed (die : Nat) {s : State} (h : s.Formed) : NextFormed (execThermalStepUp die s) := by
  unfold execThermalStepUp
  grind [= next_formed, NextFormed, ← heatStep]

/-! ### Errors -/

theorem execCorrectableError_formed {s : State} (h : s.Formed) : NextFormed (execCorrectableError s) := by
  unfold execCorrectableError
  grind [= next_formed, NextFormed, State.Formed, ← kept, ← modBoot]

theorem errDram {s : State} (h : s.Formed) (sector : Nat) : (s.errDram sector).Formed := by
  unfold State.errDram
  grind [State.Formed, ← kept, ← foldl, ← modMem, ← machineRecord]

theorem errCellar {s : State} (h : s.Formed) (l : LineId) (sector : Nat) : (s.errCellar l sector).Formed := by
  unfold State.errCellar
  grind [State.Formed, ← kept, ← machineRecord, ← modCell]

theorem errL1 {s : State} (h : s.Formed) (core : Nat) (l : LineId) (sector : Nat) : (s.errL1 core l sector).Formed := by
  unfold State.errL1
  grind [State.Formed, ← kept, ← machineRecord, ← modL1]

theorem errScratch {s : State} (h : s.Formed) (core slot sector : Nat) : (s.errScratch core slot sector).Formed := by
  unfold State.errScratch
  grind [State.Formed, ← kept, ← machineRecord, ← modTeam]

theorem errOpbuf {s : State} (h : s.Formed) (core sector : Nat) : (s.errOpbuf core sector).Formed := by
  unfold State.errOpbuf
  grind [State.Formed, ← kept, ← machineRecord, ← modCore]

theorem loseReqs {s : State} (h : s.Formed) (rs : List HomeReq) : (s.loseReqs rs).Formed := by
  unfold State.loseReqs
  grind [State.Formed, ← kept, ← foldl, ← modMem, ← traceDone, ← answerPeer, ← finishReq, ← raiseLanes, ← uncount]

theorem errTags {s : State} (h : s.Formed) (l : LineId) : (s.errTags l).Formed := by
  unfold State.errTags
  grind [← machineRecord, ← loseReqs]

theorem endIfEmpty {s : State} (h : s.Formed) (core slot : Nat) : (s.endIfEmpty core slot).Formed := by
  unfold State.endIfEmpty
  grind [← finishRun]

theorem errReg {s : State} (h : s.Formed) (w : Warp) (lanes : List Nat) (reg lane : Nat) : (s.errReg w lanes reg lane).Formed := by
  unfold State.errReg
  grind [← machineRecord, ← endIfEmpty, ← raiseLanes]

theorem errVreg {s : State} (h : s.Formed) (core slot lane reg : Nat) : (s.errVreg core slot lane reg).Formed := by
  unfold State.errVreg
  grind [← errReg]

theorem errSreg {s : State} (h : s.Formed) (core slot reg : Nat) : (s.errSreg core slot reg).Formed := by
  unfold State.errSreg
  grind [← errReg]

theorem errTlb {s : State} (h : s.Formed) (core ctx page : Nat) : (s.errTlb core ctx page).Formed := by
  unfold State.errTlb
  grind [State.Formed, ← kept, ← foldl, ← modCore, ← modMem, ← endIfEmpty, ← raiseLanes, ← machineRecord]

theorem errCxl {s : State} (h : s.Formed) : s.errCxl.Formed := by
  unfold State.errCxl
  grind [State.Formed, ← kept, ← loseReqs, ← machineRecord, ← modMem]

theorem execUncorrectableError_formed (e : ErrSite) {s : State} (h : s.Formed) : NextFormed (execUncorrectableError e s) := by
  unfold execUncorrectableError
  grind [= next_formed, NextFormed, ← errDram, ← failPort, ← errCellar, ← errL1, ← errScratch, ← errOpbuf, ← errTags, ← errVreg,
    ← errSreg, ← errTlb, ← errCxl]

end State.Formed

end Sys2Proof.Machine

end

