-- ==== Sys2Proof/Proofs/MemoryFormKept.lean ====
section
/-! PROVED FACTS. Memory stays in canonical form (O58): every instruction, and so every step. -/

namespace Sys2Proof.Machine

namespace State.Formed

/-! ### Instructions and steps -/

theorem exec_formed (i : Instr) {s : State} (h : s.Formed) : NextFormed (exec i s) := by
  cases i with
  | nop _ => exact aluWord_formed _ _ h
  | mov _ _ => exact aluWord_formed _ _ h
  | movQueuePop c o => exact execMovQueuePop_formed c o h
  | movQueuePush c o => exact execMovQueuePush_formed c o h
  | movi _ _ => exact aluWord_formed _ _ h
  | iadd _ _ => exact aluWord_formed _ _ h
  | isub _ _ => exact aluWord_formed _ _ h
  | imul _ _ => exact aluWord_formed _ _ h
  | imulh _ _ => exact aluWord_formed _ _ h
  | imad _ _ => exact aluWord_formed _ _ h
  | imadw _ _ => exact aluWord_formed _ _ h
  | imin _ _ => exact aluWord_formed _ _ h
  | imax _ _ => exact aluWord_formed _ _ h
  | iabs _ _ => exact aluWord_formed _ _ h
  | iand _ _ => exact aluWord_formed _ _ h
  | ior _ _ => exact aluWord_formed _ _ h
  | ixor _ _ => exact aluWord_formed _ _ h
  | inot _ _ => exact aluWord_formed _ _ h
  | shl _ _ => exact aluWord_formed _ _ h
  | shr _ _ => exact aluWord_formed _ _ h
  | sar _ _ => exact aluWord_formed _ _ h
  | rol _ _ => exact aluWord_formed _ _ h
  | bfe _ _ => exact aluWord_formed _ _ h
  | bfi _ _ => exact aluWord_formed _ _ h
  | popc _ _ => exact aluWord_formed _ _ h
  | clz _ _ => exact aluWord_formed _ _ h
  | brev _ _ => exact aluWord_formed _ _ h
  | sel _ _ => exact aluWord_formed _ _ h
  | lea _ _ => exact aluWord_formed _ _ h
  | bpick _ _ => exact aluWord_formed _ _ h
  | fadd _ _ => exact aluWord_formed _ _ h
  | fsub _ _ => exact aluWord_formed _ _ h
  | fmul _ _ => exact aluWord_formed _ _ h
  | ffma _ _ => exact aluWord_formed _ _ h
  | fmin _ _ => exact aluWord_formed _ _ h
  | fmax _ _ => exact aluWord_formed _ _ h
  | fclamp _ _ => exact aluWord_formed _ _ h
  | fscale _ _ => exact aluWord_formed _ _ h
  | hadd2 _ _ => exact aluWord_formed _ _ h
  | hsub2 _ _ => exact aluWord_formed _ _ h
  | hmul2 _ _ => exact aluWord_formed _ _ h
  | hfma2 _ _ => exact aluWord_formed _ _ h
  | hmin2 _ _ => exact aluWord_formed _ _ h
  | hmax2 _ _ => exact aluWord_formed _ _ h
  | hdot2 _ _ => exact aluWord_formed _ _ h
  | cvt _ _ => exact aluWord_formed _ _ h
  | frnd _ _ => exact aluWord_formed _ _ h
  | rcp _ _ => exact aluWord_formed _ _ h
  | rsq _ _ => exact aluWord_formed _ _ h
  | sqrt _ _ => exact aluWord_formed _ _ h
  | ex2 _ _ => exact aluWord_formed _ _ h
  | lg2 _ _ => exact aluWord_formed _ _ h
  | sin _ _ => exact aluWord_formed _ _ h
  | cos _ _ => exact aluWord_formed _ _ h
  | sincos _ _ => exact aluWord_formed _ _ h
  | tanh _ _ => exact aluWord_formed _ _ h
  | sigm _ _ => exact aluWord_formed _ _ h
  | rand _ _ => exact aluWord_formed _ _ h
  | csamp c o => exact execCsamp_formed c o h
  | shfl _ _ => exact aluWord_formed _ _ h
  | pswap _ _ => exact aluWord_formed _ _ h
  | qswap _ _ => exact aluWord_formed _ _ h
  | qbcast _ _ => exact aluWord_formed _ _ h
  | vote _ _ => exact aluWord_formed _ _ h
  | matchLanes _ _ => exact aluWord_formed _ _ h
  | rdx c o => exact execRdx_formed c o h
  | scn c o => exact execScn_formed c o h
  | elect _ _ => exact aluWord_formed _ _ h
  | itest _ _ => exact aluWord_formed _ _ h
  | ftest _ _ => exact aluWord_formed _ _ h
  | htest2 _ _ => exact aluWord_formed _ _ h
  | pcomb _ _ => exact aluWord_formed _ _ h
  | cset _ _ => exact aluWord_formed _ _ h
  | ccomb _ _ => exact aluWord_formed _ _ h
  | p2s _ _ => exact aluWord_formed _ _ h
  | s2p _ _ => exact aluWord_formed _ _ h
  | bra c o => exact execBra_formed c o h
  | bruLabel c o => exact execBruLabel_formed c o h
  | bruRegister c o => exact execBruRegister_formed c o h
  | brx c o => exact execBrx_formed c o h
  | call c o => exact execCall_formed c o h
  | callx c o => exact execCallx_formed c o h
  | ret c o => exact execRet_formed c o h
  | exit c => exact execExit_formed c h
  | napImmediate c o => exact execNapImmediate_formed c o h
  | napRegister c o => exact execNapRegister_formed c o h
  | napEnd core slot => exact execNapEnd_formed core slot h
  | ld c o => exact execLd_formed c o h
  | st c o => exact execSt_formed c o h
  | stCb c o => exact execStCb_formed c o h
  | prf c o => exact execPrf_formed c o h
  | clean c o => exact execClean_formed c o h
  | inval c o => exact execInval_formed c o h
  | clinv c o => exact execClinv_formed c o h
  | drop c o => exact execDrop_formed c o h
  | atom c o => exact execAtom_formed c o h
  | red c o => exact execRed_formed c o h
  | cas c o => exact execCas_formed c o h
  | fence c o => exact execFence_formed c o h
  | fenceCompletion core slot => exact execFenceCompletion_formed core slot h
  | fenceScCompletion core slot => exact execFenceScCompletion_formed core slot h
  | opfence c => exact execOpfence_formed c h
  | opfenceCompletion core slot => exact execOpfenceCompletion_formed core slot h
  | tlook c o => exact execTlook_formed c o h
  | tseek c o => exact execTseek_formed c o h
  | tnext c o => exact execTnext_formed c o h
  | tprev c o => exact execTprev_formed c o h
  | tclose c o => exact execTclose_formed c o h
  | tins c o => exact execTins_formed c o h
  | tdel c o => exact execTdel_formed c o h
  | trekey c o => exact execTrekey_formed c o h
  | tadd c o => exact execTadd_formed c o h
  | tpin c o => exact execTpin_formed c o h
  | tunpin c o => exact execTunpin_formed c o h
  | tswap c o => exact execTswap_formed c o h
  | tstat c o => exact execTstat_formed c o h
  | tcount c o => exact execTcount_formed c o h
  | trow c o => exact execTrow_formed c o h
  | push c o => exact execPush_formed c o h
  | pushPlaceFreed core slot => exact execPushPlaceFreed_formed core slot h
  | waitany c o => exact execWaitany_formed c o h
  | waitall c o => exact execWaitall_formed c o h
  | tagWaitWakeup core slot => exact execTagWaitWakeup_formed core slot h
  | ffr c o => exact execFfr_formed c o h
  | tagclr c o => exact execTagclr_formed c o h
  | tagset c o => exact execTagset_formed c o h
  | leaseRegister c o => exact execLeaseRegister_formed c o h
  | leaseImmediate c o => exact execLeaseImmediate_formed c o h
  | unlease c => exact execUnlease_formed c h
  | bar c o => exact execBar_formed c o h
  | barx c o => exact execBarx_formed c o h
  | syncm c o => exact execSyncm_formed c o h
  | cbarm c o => exact execCbarm_formed c o h
  | cbwait c o => exact execCbwait_formed c o h
  | cbwaitSatisfied core slot => exact execCbwaitSatisfied_formed core slot h
  | cbwaitTimeout core slot => exact execCbwaitTimeout_formed core slot h
  | regrp c o => exact execRegrp_formed c o h
  | regrpb c o => exact execRegrpb_formed c o h
  | regrpArrival core slot => exact execRegrpArrival_formed core slot h
  | relocationCompletion dom err => exact execRelocationCompletion_formed dom err h
  | pmodePress c o => exact execPmodePress_formed c o h
  | pmodeCache c o => exact execPmodeCache_formed c o h
  | pressEntryCompletion bin => exact execPressEntryCompletion_formed bin h
  | pressDrainCompletion bin => exact execPressDrainCompletion_formed bin h
  | pxin c o => exact execPxin_formed c o h
  | pxout c o => exact execPxout_formed c o h
  | padd c o => exact execPadd_formed c o h
  | psub c o => exact execPsub_formed c o h
  | pmul c o => exact execPmul_formed c o h
  | pand c o => exact execPand_formed c o h
  | por c o => exact execPor_formed c o h
  | pxor c o => exact execPxor_formed c o h
  | pnot c o => exact execPnot_formed c o h
  | pcmp c o => exact execPcmp_formed c o h
  | psel c o => exact execPsel_formed c o h
  | psat c o => exact execPsat_formed c o h
  | pcnt c o => exact execPcnt_formed c o h
  | pshl c o => exact execPshl_formed c o h
  | pshr c o => exact execPshr_formed c o h
  | pressAcceptance core slot => exact execPressAcceptance_formed core slot h
  | pressOperationCompletion bin => exact execPressOperationCompletion_formed bin h
  | psync c o => exact execPsync_formed c o h
  | psyncCompletion core slot => exact execPsyncCompletion_formed core slot h
  | trap c o => exact execTrap_formed c o h
  | eret c => exact execEret_formed c h
  | movs c o => exact execMovs_formed c o h
  | movw c o => exact execMovw_formed c o h
  | bkpt c o => exact execBkpt_formed c o h
  | illeg c raw => exact execIlleg_formed c raw h
  | stopchk c o => exact execStopchk_formed c o h
  | mark c o => exact execMark_formed c o h
  | runIssue core islot => exact execRunIssue_formed core islot h
  | writeBack core slot id => exact execWriteBack_formed core slot id h
  | queueAccessUnblock core slot => exact execQueueAccessUnblock_formed core slot h
  | tlbWalkCompletion die ctx page => exact execTlbWalkCompletion_formed die ctx page h
  | homeRequest slice => exact execHomeRequest_formed slice h
  | frequencyAgeing slice => exact execFrequencyAgeing_formed slice h
  | hostSnoop line half inval => exact execHostSnoop_formed line half inval h
  | hostStoreCxlMem pa bytes => exact execHostStoreCxlMem_formed pa bytes h
  | backInvalidateReply line dirty => exact execBackInvalidateReply_formed line dirty h
  | atomicopCompletion id old => exact execAtomicopCompletion_formed id old h
  | atsInvalidateRequest pasid page pages => exact execAtsInvalidateRequest_formed pasid page pages h
  | rdreq f => exact execRdreq_formed f h
  | rdrsp f => exact execRdrsp_formed f h
  | wr f => exact execWr_formed f h
  | wrcb f => exact execWrcb_formed f h
  | atomFlit f => exact execAtomFlit_formed f h
  | atomrsp f => exact execAtomrsp_formed f h
  | wrack f => exact execWrack_formed f h
  | rwrite f => exact execRwrite_formed f h
  | credit f => exact execCredit_formed f h
  | unknownFlit f => exact execUnknownFlit_formed f h
  | flitCrcRetry f => exact execFlitCrcRetry_formed f h
  | portFailure port => exact execPortFailure_formed port h
  | gemm core seq => exact execGemm_formed core seq h
  | tileBoundary core => exact execTileBoundary_formed core h
  | reserve core seq => exact execReserve_formed core seq h
  | loadb core seq => exact execLoadb_formed core seq h
  | release core seq => exact execRelease_formed core seq h
  | copyNone core seq => exact execCopyNone_formed core seq h
  | copyScale core seq => exact execCopyScale_formed core seq h
  | copyAdd core seq => exact execCopyAdd_formed core seq h
  | copyCast core seq => exact execCopyCast_formed core seq h
  | copyReduce core seq => exact execCopyReduce_formed core seq h
  | allGather core seq => exact execAllGather_formed core seq h
  | reduceScatter core seq => exact execReduceScatter_formed core seq h
  | allReduce core seq => exact execAllReduce_formed core seq h
  | chunkCompletion core seq chunk peers => exact execChunkCompletion_formed core seq chunk peers h
  | build core seq => exact execBuild_formed core seq h
  | launch core seq => exact execLaunch_formed core seq h
  | setaside core seq => exact execSetaside_formed core seq h
  | setasideExpiry ch => exact execSetasideExpiry_formed ch h
  | attend core seq => exact execAttend_formed core seq h
  | mapinv core seq => exact execMapinv_formed core seq h
  | commandCompletion core q seq => exact execCommandCompletion_formed core q seq h
  | kernel q idx => exact execKernel_formed q idx h
  | wait q idx => exact execWait_formed q idx h
  | signal q idx => exact execSignal_formed q idx h
  | packetStart q => exact execPacketStart_formed q h
  | teamPlacement die => exact execTeamPlacement_formed die h
  | teamRetirement grid team => exact execTeamRetirement_formed grid team h
  | gridEnd grid => exact execGridEnd_formed grid h
  | grant p => exact execGrant_formed p h
  | stop p => exact execStop_formed p h
  | stopDelivery id => exact execStopDelivery_formed id h
  | warpSave core slot => exact execWarpSave_formed core slot h
  | drainEnd id => exact execDrainEnd_formed id h
  | faultreplyRetry p => exact execFaultreplyRetry_formed p h
  | faultreplyDeliver p => exact execFaultreplyDeliver_formed p h
  | faultreplyAbort p => exact execFaultreplyAbort_formed p h
  | faultreplyRefused p => exact execFaultreplyRefused_formed p h
  | ctxdesc p => exact execCtxdesc_formed p h
  | tabledesc p => exact execTabledesc_formed p h
  | tlbinv p => exact execTlbinv_formed p h
  | ncrange p => exact execNcrange_formed p h
  | dedicate p => exact execDedicate_formed p h
  | group p => exact execGroup_formed p h
  | domain p => exact execDomain_formed p h
  | qrestart p => exact execQrestart_formed p h
  | pasidGrant p => exact execPasidGrant_formed p h
  | pasidRevoke p => exact execPasidRevoke_formed p h
  | destroy p => exact execDestroy_formed p h
  | clock p => exact execClock_formed p h
  | clockChange die => exact execClockChange_formed die h
  | qbindBind p => exact execQbindBind_formed p h
  | qbindUnbind p => exact execQbindUnbind_formed p h
  | ringcfg p => exact execRingcfg_formed p h
  | evctrSet p => exact execEvctrSet_formed p h
  | evctrAdd p => exact execEvctrAdd_formed p h
  | unknownControlPacket p => exact execUnknownControlPacket_formed p h
  | cdb iface tail pasid ps => exact execCdb_formed iface tail pasid ps h
  | ldb iface ring tail pasid ps => exact execLdb_formed iface ring tail pasid ps h
  | heartbeatTick => exact execHeartbeatTick_formed h
  | countersLatch => exact execCountersLatch_formed h
  | sync die => exact execSync_formed die h
  | traceControlWrite admin v => exact execTraceControlWrite_formed admin v h
  | daccAccess admin v => exact execDaccAccess_formed admin v h
  | debuggerRequest admin v => exact execDebuggerRequest_formed admin v h
  | resume admin v => exact execResume_formed admin v h
  | debugStop core slot => exact execDebugStop_formed core slot h
  | ago admin v => exact execAgo_formed admin v h
  | registerWrite admin page off v => exact execRegisterWrite_formed admin page off v h
  | resetRelease => exact execResetRelease_formed s
  | selfTestStageCompletion r fw => exact execSelfTestStageCompletion_formed r fw h
  | alarm => exact execAlarm_formed h
  | thermalStepDown die => exact execThermalStepDown_formed die h
  | thermalStepUp die => exact execThermalStepUp_formed die h
  | correctableError => exact execCorrectableError_formed h
  | uncorrectableError e => exact execUncorrectableError_formed e h
  | patrolScrub line => exact execPatrolScrub_formed line h
  | hostReadCxlMem line => exact execHostReadCxlMem_formed line h
  | atsTranslationCompletion die pasid page res => exact execAtsTranslationCompletion_formed die pasid page res h
  | hostReadCompletion id data => exact execHostReadCompletion_formed id data h

theorem stir {s : State} (h : s.Formed) (i : Instr) : (s.stir i).Formed := by
  unfold State.stir
  grind [← noteReady, ← wake]

theorem runFetched_formed (w : Warp) (r : Run) {s : State} (h : s.Formed) : NextFormed (runFetched w r s) := by
  unfold runFetched
  grind [← fetched, ← exec_formed, ← runReject_formed, ← runFetchFault_formed]

theorem runOwn_formed {s : State} (h : s.Formed) : NextFormed (runOwn s) := by
  unfold runOwn
  split
  · exact runFetched_formed _ _ h.noteReady
  · exact exec_formed _ (stir (s := { s with cur := none }) h _)

theorem runNamed_formed (i : Instr) {s : State} (h : s.Formed) : NextFormed (runNamed i s) := by
  unfold runNamed
  split
  · exact runOwn_formed h
  · exact exec_formed i (h.stir i)

theorem step_formed {s : State} (h : s.Formed) : NextFormed (step s) := by
  unfold step
  split
  · exact exec_formed _ (h.stir _)
  · split
    · next dt i r _ =>
      split
      · exact exec_formed _ (stir (s := { s with agenda := (s.gtime % 256 + dt - 256, i) :: r }) h _)
      · exact runNamed_formed i (pass (s := { s with agenda := r }) h dt)
    · split
      · exact exec_formed _ (h.stir _)
      · exact runOwn_formed (h.pass _)

end State.Formed

end Sys2Proof.Machine

open Sys2Proof Sys2Proof.Machine

/-- Settles O58: each step runs one instruction, and what an instruction writes to memory it writes with `Mem.write`. -/
theorem memoryFormKept : Obligations.MemoryFormKept := by
  unfold Obligations.MemoryFormKept
  intro s t hs ht
  exact t.formed_iff.mp (State.Formed.step_formed (s.formed_iff.mpr hs) t ht)

end
